-- ==== Sys2Proof/Word.lean ====
section
/-!
DEFINITION. The word types of the BFC-9400: 32-bit instruction words and lane values, 64-bit register values, bytes and
64-bit lane masks (R3, R4, R62).
-/
namespace Sys2Proof

/-- A 32-bit value: an instruction word or one lane of a vector register (R62, R257). -/
abbrev Word := BitVec 32

/-- A 64-bit value: a g or k register, an address operand, a descriptor word (R62). -/
abbrev DWord := BitVec 64

/-- One byte of memory or scratchpad (R3). -/
abbrev Byte := BitVec 8

/-- A lane mask: bit i stands for lane i of the gang (R4). -/
abbrev Mask := BitVec 64

end Sys2Proof
end

