-- ==== Sys2Proof/Syntax.lean ====
section
/-!
DEFINITION. The syntax of the BFC-9400: one constructor of Instr for each row of the opcode table. The first 224 rows are
words of the Glele instruction set (the clause header and the hints among them), with their operand fields as the table
names them; the last 56 rows are events of the module that carry no word (a control-core write, a completion, a scheduler
action, an error), with the operands that say which one happens.
-/
namespace Sys2Proof

/-- One image of the boot chain as Tsuwa reads it (R248): its bytes, key, signature and version, the digests of keys it
vouches for in later stages, and the fused rollback counter and root digest are the configuration's. -/
structure BootImage where
  image : List Byte
  key : List Byte
  sig : List Byte
  version : Nat
  vouches : List (BitVec 256)
deriving DecidableEq, Repr

/-- What the repair data say at reset (R11): the logical cores that have a core, and the core clusters whose spare stands in. -/
structure RepairData where
  cores : BitVec 192
  spares : BitVec 24
deriving DecidableEq, Repr

/-- A stream of a team: a gang by its index, or the hawk (R24, R28). -/
inductive StreamName where
  | gang (g : Nat)
  | hawk
deriving DecidableEq, Repr

/-- What a lane's atomic does to a word of a peer: an operation of R281, or a compare and swap (R240, R277). -/
inductive WordOp where
  | op (op : BitVec 5) (operand : DWord)
  | swap (compare new : DWord)
deriving DecidableEq, Repr

/-- What an inbound peer access does (R237, R244). -/
inductive PeerKind where
  | read (len : Nat)
  | write (data : List Byte)
  | atomic (op : BitVec 5) (w64 : Bool) (operand : DWord) (returning : Bool)
  | swap (w64 : Bool) (compare new : DWord)
  /-- A write of some of the bytes that follow an address (R108). -/
  | masked (data : List (Option Byte))
  /-- The atomics of several lanes on words of one sector, each with its offset from an address, performed in this order (R108). -/
  | several (w64 : Bool) (ops : List (Nat × WordOp)) (returning : Bool)
deriving DecidableEq, Repr

/-- An inbound peer access: its source module, its physical address here and what it does (R244). -/
structure PeerAccess where
  src : BitVec 16
  addr : Nat
  kind : PeerKind
deriving DecidableEq, Repr

/-- A PCIe request: its bus address and either the length it reads or the bytes it writes (R246). -/
inductive BusAccess where
  | read (addr : Nat) (len : Nat)
  | write (addr : Nat) (data : List Byte)
deriving DecidableEq, Repr

/-- One constructor for each row of the opcode table. -/
inductive Instr where
  /-- Issues a clause header: it waits on the WAIT flags, reads the guard in each lane, sets up SETA, SETB and LEN, and clears y0, y1 and the result count (R257). -/
  | clauseHeader (w : BitVec 12) (a : BitVec 4) (b : BitVec 4) (l : BitVec 3) (g : BitVec 5) (n : BitVec 1) (y : BitVec 1) (k : BitVec 1)
  /-- Extension hint, immediate form: supplies the upper bits of the next word's immediate or offset (R266). -/
  | immxImmediate (imm : BitVec 24)
  /-- Extension hint, operand form: supplies SC, PC, RM, SAT and EL to the next word (R316). -/
  | immxOperand (e : BitVec 3) (sc : BitVec 1) (r : BitVec 2) (p : BitVec 5) (c : BitVec 8)
  /-- Cache-policy hint for the next memory or engine word (R374). -/
  | xcache (p : BitVec 2)
  /-- Hint that gives the next access its order, scope, use and quantum (R374). -/
  | xscope (q : BitVec 4) (u : BitVec 3) (sc : BitVec 3) (o : BitVec 2)
  /-- Plane-allocation hint (KEEPN) for the next plane access (R374). -/
  | xplane (k : BitVec 5)
  /-- No-operation hint that fills one word (R374). -/
  | xnop
  /-- Names the reconvergence header for the next BRC or BRX (R334). -/
  | mergeat (o : BitVec 25)
  /-- 32-bit integer add in each active lane; saturating with .SAT (R315). -/
  | iadd (m : BitVec 1) (d : BitVec 7) (a : BitVec 8) (b : BitVec 7)
  /-- 32-bit integer subtract; saturating with .SAT (R315). -/
  | isub (m : BitVec 1) (d : BitVec 7) (a : BitVec 8) (b : BitVec 7)
  /-- Low 32 bits of the integer product (R315). -/
  | imul (d : BitVec 7) (a : BitVec 8) (b : BitVec 7)
  /-- High 32 bits of the 64-bit product, signed or, with .U, unsigned (R315). -/
  | imulhi (m : BitVec 1) (d : BitVec 7) (a : BitVec 8) (b : BitVec 7)
  /-- Integer multiply-add into the destination; saturating with .SAT (R315). -/
  | imad (m : BitVec 1) (d : BitVec 7) (a : BitVec 8) (b : BitVec 7)
  /-- Integer minimum, signed or, with .U, unsigned (R315). -/
  | imin (m : BitVec 1) (d : BitVec 7) (a : BitVec 8) (b : BitVec 7)
  /-- Integer maximum, signed or, with .U, unsigned (R315). -/
  | imax (m : BitVec 1) (d : BitVec 7) (a : BitVec 8) (b : BitVec 7)
  /-- Integer absolute value; saturating with .SAT (R315). -/
  | iabs (m : BitVec 1) (d : BitVec 7) (a : BitVec 8)
  /-- Bitwise AND of two 32-bit sources (R279). -/
  | and (d : BitVec 7) (a : BitVec 8) (b : BitVec 7)
  /-- Bitwise OR of two 32-bit sources (R279). -/
  | or (d : BitVec 7) (a : BitVec 8) (b : BitVec 7)
  /-- Bitwise XOR of two 32-bit sources (R279). -/
  | xor (d : BitVec 7) (a : BitVec 8) (b : BitVec 7)
  /-- Logical shift left; counts of 32 or more give 0 (R362). -/
  | shl (d : BitVec 7) (a : BitVec 8) (b : BitVec 7)
  /-- Logical shift right (R362). -/
  | shr (d : BitVec 7) (a : BitVec 8) (b : BitVec 7)
  /-- Arithmetic shift right (R362). -/
  | shra (d : BitVec 7) (a : BitVec 8) (b : BitVec 7)
  /-- Bit-field extract, sign-extended or, with .U, zero-extended (R287). -/
  | bfe (m : BitVec 1) (d : BitVec 7) (a : BitVec 8) (b : BitVec 7)
  /-- Bit-field insert into the destination (R287). -/
  | bfi (d : BitVec 7) (a : BitVec 8) (b : BitVec 7)
  /-- Counts the set bits (R289). -/
  | popc (d : BitVec 7) (a : BitVec 8)
  /-- Counts the leading zero bits (R289). -/
  | clz (d : BitVec 7) (a : BitVec 8)
  /-- Reverses the bit order (R289). -/
  | brev (d : BitVec 7) (a : BitVec 8)
  /-- Selects a or b per lane by a predicate (R355). -/
  | selp (d : BitVec 7) (a : BitVec 8) (b : BitVec 7)
  /-- 64-bit address add of a sign- or zero-extended 32-bit offset into a register pair (R330). -/
  | lea (m : BitVec 1) (d : BitVec 7) (a : BitVec 8) (b : BitVec 7)
  /-- Copies a source to the destination (R337). -/
  | mov (d : BitVec 7) (a : BitVec 8)
  /-- FP32 add rounded once in the selected mode (R305). -/
  | fadd (d : BitVec 7) (a : BitVec 8) (b : BitVec 7)
  /-- FP32 subtract (R305). -/
  | fsub (d : BitVec 7) (a : BitVec 8) (b : BitVec 7)
  /-- FP32 multiply (R305). -/
  | fmul (d : BitVec 7) (a : BitVec 8) (b : BitVec 7)
  /-- Fused multiply-add into the destination, rounded once (R305). -/
  | ffma (d : BitVec 7) (a : BitVec 8) (b : BitVec 7)
  /-- Fused multiply-add with y0 as addend (R305). -/
  | ffmay (d : BitVec 7) (a : BitVec 8) (b : BitVec 7)
  /-- FP32 minimum under R81 (R305). -/
  | fmin (d : BitVec 7) (a : BitVec 8) (b : BitVec 7)
  /-- FP32 maximum under R81 (R305). -/
  | fmax (d : BitVec 7) (a : BitVec 8) (b : BitVec 7)
  /-- Multiplies by 2 to a signed integer power (R305). -/
  | fscale (d : BitVec 7) (a : BitVec 8) (b : BitVec 7)
  /-- Writes a one-hot mask that gives the class of an FP32 value (R306). -/
  | fclass (d : BitVec 7) (a : BitVec 8)
  /-- Packed FP16 or BF16 add of two element pairs (R314). -/
  | hadd2 (m : BitVec 1) (d : BitVec 7) (a : BitVec 8) (b : BitVec 7)
  /-- Packed FP16 or BF16 multiply (R314). -/
  | hmul2 (m : BitVec 1) (d : BitVec 7) (a : BitVec 8) (b : BitVec 7)
  /-- Packed FP16 or BF16 fused multiply-add (R314). -/
  | hfma2 (m : BitVec 1) (d : BitVec 7) (a : BitVec 8) (b : BitVec 7)
  /-- Integer add of an immediate (R315). -/
  | iaddImm (d : BitVec 7) (a : BitVec 8) (imm : BitVec 8)
  /-- Integer multiply by an immediate (R315). -/
  | imulImm (d : BitVec 7) (a : BitVec 8) (imm : BitVec 8)
  /-- Signed minimum with an immediate (R315). -/
  | iminImm (d : BitVec 7) (a : BitVec 8) (imm : BitVec 8)
  /-- Signed maximum with an immediate (R315). -/
  | imaxImm (d : BitVec 7) (a : BitVec 8) (imm : BitVec 8)
  /-- Bitwise AND with an immediate (R279). -/
  | andImm (d : BitVec 7) (a : BitVec 8) (imm : BitVec 8)
  /-- Bitwise OR with an immediate (R279). -/
  | orImm (d : BitVec 7) (a : BitVec 8) (imm : BitVec 8)
  /-- Bitwise XOR with an immediate (R279). -/
  | xorImm (d : BitVec 7) (a : BitVec 8) (imm : BitVec 8)
  /-- Shift left by an immediate count (R362). -/
  | shlImm (d : BitVec 7) (a : BitVec 8) (imm : BitVec 8)
  /-- Logical shift right by an immediate count (R362). -/
  | shrImm (d : BitVec 7) (a : BitVec 8) (imm : BitVec 8)
  /-- Arithmetic shift right by an immediate count (R362). -/
  | shraImm (d : BitVec 7) (a : BitVec 8) (imm : BitVec 8)
  /-- Moves an immediate to the destination (R337). -/
  | movImm (d : BitVec 7) (imm : BitVec 8)
  /-- FP32 add of an immediate, rounded to nearest even (R305). -/
  | faddImm (d : BitVec 7) (a : BitVec 8) (imm : BitVec 8)
  /-- FP32 multiply by an immediate (R305). -/
  | fmulImm (d : BitVec 7) (a : BitVec 8) (imm : BitVec 8)
  /-- FP32 minimum with an immediate (R305). -/
  | fminImm (d : BitVec 7) (a : BitVec 8) (imm : BitVec 8)
  /-- FP32 maximum with an immediate (R305). -/
  | fmaxImm (d : BitVec 7) (a : BitVec 8) (imm : BitVec 8)
  /-- Fused multiply-add by an immediate into the destination (R305). -/
  | ffmaImm (d : BitVec 7) (a : BitVec 8) (imm : BitVec 8)
  /-- Integer compare for equal into a predicate (R307). -/
  | icmpEq (p : BitVec 5) (c : BitVec 2) (a : BitVec 8) (b : BitVec 8)
  /-- Integer compare for not equal (R307). -/
  | icmpNe (p : BitVec 5) (c : BitVec 2) (a : BitVec 8) (b : BitVec 8)
  /-- Signed less-than compare (R307). -/
  | icmpLt (p : BitVec 5) (c : BitVec 2) (a : BitVec 8) (b : BitVec 8)
  /-- Signed less-or-equal compare (R307). -/
  | icmpLe (p : BitVec 5) (c : BitVec 2) (a : BitVec 8) (b : BitVec 8)
  /-- Signed greater-than compare (R307). -/
  | icmpGt (p : BitVec 5) (c : BitVec 2) (a : BitVec 8) (b : BitVec 8)
  /-- Signed greater-or-equal compare (R307). -/
  | icmpGe (p : BitVec 5) (c : BitVec 2) (a : BitVec 8) (b : BitVec 8)
  /-- Unsigned less-than compare (R307). -/
  | icmpLtu (p : BitVec 5) (c : BitVec 2) (a : BitVec 8) (b : BitVec 8)
  /-- Unsigned less-or-equal compare (R307). -/
  | icmpLeu (p : BitVec 5) (c : BitVec 2) (a : BitVec 8) (b : BitVec 8)
  /-- Unsigned greater-than compare (R307). -/
  | icmpGtu (p : BitVec 5) (c : BitVec 2) (a : BitVec 8) (b : BitVec 8)
  /-- Unsigned greater-or-equal compare (R307). -/
  | icmpGeu (p : BitVec 5) (c : BitVec 2) (a : BitVec 8) (b : BitVec 8)
  /-- FP32 equal compare (R307). -/
  | fcmpEq (p : BitVec 5) (c : BitVec 2) (a : BitVec 8) (b : BitVec 8)
  /-- FP32 not-equal compare (R307). -/
  | fcmpNe (p : BitVec 5) (c : BitVec 2) (a : BitVec 8) (b : BitVec 8)
  /-- FP32 less-than compare (R307). -/
  | fcmpLt (p : BitVec 5) (c : BitVec 2) (a : BitVec 8) (b : BitVec 8)
  /-- FP32 less-or-equal compare (R307). -/
  | fcmpLe (p : BitVec 5) (c : BitVec 2) (a : BitVec 8) (b : BitVec 8)
  /-- FP32 greater-than compare (R307). -/
  | fcmpGt (p : BitVec 5) (c : BitVec 2) (a : BitVec 8) (b : BitVec 8)
  /-- FP32 greater-or-equal compare (R307). -/
  | fcmpGe (p : BitVec 5) (c : BitVec 2) (a : BitVec 8) (b : BitVec 8)
  /-- True when neither operand is NaN (R307). -/
  | fcmpNum (p : BitVec 5) (c : BitVec 2) (a : BitVec 8) (b : BitVec 8)
  /-- True when either operand is NaN (R307). -/
  | fcmpNan (p : BitVec 5) (c : BitVec 2) (a : BitVec 8) (b : BitVec 8)
  /-- Predicate logic through a 4-entry lookup table (R339). -/
  | plop (p : BitVec 5) (c : BitVec 2) (a : BitVec 5) (b : BitVec 5) (l : BitVec 4)
  /-- Sets a predicate from bit L of a g register (R341). -/
  | pset (p : BitVec 5) (c : BitVec 2) (a : BitVec 8)
  /-- Writes the mask of active lanes whose predicate is true to a g register (R284). -/
  | ballot (d : BitVec 5) (p : BitVec 5)
  /-- Any, all or uniform vote of a predicate over the active lanes (R373). -/
  | vote (p : BitVec 5) (m : BitVec 2) (a : BitVec 5)
  /-- Reads a source from an indexed or XOR-partnered lane (R361). -/
  | shfl (m : BitVec 1) (d : BitVec 7) (a : BitVec 8) (b : BitVec 7)
  /-- Exchanges values with an XOR partner within the quad (R345). -/
  | qswap (d : BitVec 7) (a : BitVec 8) (x : BitVec 2)
  /-- Broadcasts one lane's value within each quad (R345). -/
  | qbcast (d : BitVec 7) (a : BitVec 8) (x : BitVec 2)
  /-- Reads the fragment's EXMASK into a g register (R331). -/
  | maskrd (d : BitVec 5)
  /-- Writes the fragment's EXMASK from a g register under R57 (R331). -/
  | maskwr (a : BitVec 8)
  /-- Converts one element between number formats (R297). -/
  | cvt (t : BitVec 4) (d : BitVec 7) (a : BitVec 8) (sf : BitVec 4)
  /-- Converts FP32 with stochastic rounding and advances the generator counter (R299). -/
  | cvtsr (t : BitVec 4) (d : BitVec 7) (a : BitVec 8) (sf : BitVec 4)
  /-- Correctly rounded base-2 exponential (R293). -/
  | exp2 (d : BitVec 7) (a : BitVec 8)
  /-- Correctly rounded base-2 logarithm (R293). -/
  | log2 (d : BitVec 7) (a : BitVec 8)
  /-- Correctly rounded reciprocal (R293). -/
  | rcp (d : BitVec 7) (a : BitVec 8)
  /-- Correctly rounded reciprocal square root (R293). -/
  | rsqrt (d : BitVec 7) (a : BitVec 8)
  /-- Square root in the selected rounding mode (R293). -/
  | sqrt (d : BitVec 7) (a : BitVec 8)
  /-- Correctly rounded sin(pi x) (R293). -/
  | sinpi (d : BitVec 7) (a : BitVec 8)
  /-- Correctly rounded cos(pi x) (R293). -/
  | cospi (d : BitVec 7) (a : BitVec 8)
  /-- Draws one random word per lane and advances the counter (R352). -/
  | rng (d : BitVec 7) (j : BitVec 2)
  /-- Copies the generator counter into an even g register pair (R353). -/
  | rngsave (d : BitVec 5)
  /-- Loads the generator counter from an even g register pair (R353). -/
  | rngset (a : BitVec 8)
  /-- Gang load of a zero-extended byte (R327). -/
  | ldU8 (f : BitVec 1) (d : BitVec 7) (a : BitVec 8) (o : BitVec 7)
  /-- Gang load of a sign-extended byte (R327). -/
  | ldS8 (f : BitVec 1) (d : BitVec 7) (a : BitVec 8) (o : BitVec 7)
  /-- Gang load of a zero-extended halfword (R327). -/
  | ldU16 (f : BitVec 1) (d : BitVec 7) (a : BitVec 8) (o : BitVec 7)
  /-- Gang load of a sign-extended halfword (R327). -/
  | ldS16 (f : BitVec 1) (d : BitVec 7) (a : BitVec 8) (o : BitVec 7)
  /-- Gang load of a 32-bit word (R327). -/
  | ldB32 (f : BitVec 1) (d : BitVec 7) (a : BitVec 8) (o : BitVec 7)
  /-- Gang load of a 64-bit value into a register pair (R327). -/
  | ldB64 (f : BitVec 1) (d : BitVec 7) (a : BitVec 8) (o : BitVec 7)
  /-- Gang store of a byte (R368). -/
  | stB8 (d : BitVec 7) (a : BitVec 8) (o : BitVec 7)
  /-- Gang store of a halfword (R368). -/
  | stB16 (d : BitVec 7) (a : BitVec 8) (o : BitVec 7)
  /-- Gang store of a word (R368). -/
  | stB32 (d : BitVec 7) (a : BitVec 8) (o : BitVec 7)
  /-- Gang store of a 64-bit register pair (R368). -/
  | stB64 (d : BitVec 7) (a : BitVec 8) (o : BitVec 7)
  /-- Scratchpad load of a zero-extended byte (R329). -/
  | ldsU8 (f : BitVec 1) (d : BitVec 7) (a : BitVec 8) (o : BitVec 7)
  /-- Scratchpad load of a sign-extended byte (R329). -/
  | ldsS8 (f : BitVec 1) (d : BitVec 7) (a : BitVec 8) (o : BitVec 7)
  /-- Scratchpad load of a zero-extended halfword (R329). -/
  | ldsU16 (f : BitVec 1) (d : BitVec 7) (a : BitVec 8) (o : BitVec 7)
  /-- Scratchpad load of a sign-extended halfword (R329). -/
  | ldsS16 (f : BitVec 1) (d : BitVec 7) (a : BitVec 8) (o : BitVec 7)
  /-- Scratchpad load of a word (R329). -/
  | ldsB32 (f : BitVec 1) (d : BitVec 7) (a : BitVec 8) (o : BitVec 7)
  /-- Scratchpad load of a 64-bit value (R329). -/
  | ldsB64 (f : BitVec 1) (d : BitVec 7) (a : BitVec 8) (o : BitVec 7)
  /-- Scratchpad store of a byte (R371). -/
  | stsB8 (d : BitVec 7) (a : BitVec 8) (o : BitVec 7)
  /-- Scratchpad store of a halfword (R371). -/
  | stsB16 (d : BitVec 7) (a : BitVec 8) (o : BitVec 7)
  /-- Scratchpad store of a word (R371). -/
  | stsB32 (d : BitVec 7) (a : BitVec 8) (o : BitVec 7)
  /-- Scratchpad store of a 64-bit value (R371). -/
  | stsB64 (d : BitVec 7) (a : BitVec 8) (o : BitVec 7)
  /-- Collective load of planes 0 to n of a bit-plane block with truncate fill; sets the tag (R328). -/
  | ldp (f : BitVec 1) (d : BitVec 7) (a : BitVec 8) (o : BitVec 7)
  /-- Collective plane load with midpoint fill (R328). -/
  | ldpMid (f : BitVec 1) (d : BitVec 7) (a : BitVec 8) (o : BitVec 7)
  /-- Merges further mantissa planes exactly into a tagged register (R348). -/
  | refine (f : BitVec 1) (d : BitVec 7) (a : BitVec 8) (o : BitVec 7)
  /-- Quantises 64 FP32 values and stores them as bit planes (R370). -/
  | stp (f : BitVec 1) (d : BitVec 7) (a : BitVec 8)
  /-- Packs the active lanes' 32-bit values into consecutive elements (R295). -/
  | cstoreB32 (d : BitVec 7) (a : BitVec 8) (o : BitVec 7)
  /-- Packs the active lanes' 64-bit values into consecutive elements (R295). -/
  | cstoreB64 (d : BitVec 7) (a : BitVec 8) (o : BitVec 7)
  /-- Loads 16 bytes per lane into four registers (R375). -/
  | xload (f : BitVec 1) (d : BitVec 7) (a : BitVec 8) (o : BitVec 7)
  /-- Prefetches a line under a cache policy; it never faults (R340). -/
  | pref (p : BitVec 2) (a : BitVec 8) (o : BitVec 7)
  /-- Returning atomic read-modify-write per lane on global memory (R281). -/
  | atom (f : BitVec 1) (d : BitVec 7) (a : BitVec 8) (o : BitVec 5) (w : BitVec 1)
  /-- Atomic compare-and-swap per lane (R277). -/
  | acas (f : BitVec 1) (d : BitVec 7) (a : BitVec 8) (w : BitVec 1)
  /-- No-return atomic reduction (R281). -/
  | red (d : BitVec 7) (a : BitVec 8) (o : BitVec 5) (w : BitVec 1)
  /-- Atomic read-modify-write on scratchpad (R283). -/
  | atoms (f : BitVec 1) (d : BitVec 7) (a : BitVec 8) (o : BitVec 5) (w : BitVec 1)
  /-- Acquire, release or SC fence at a scope (R308). -/
  | fence (o : BitVec 2) (sc : BitVec 3)
  /-- Cross-class fence: waits for two classes and writes back the first-level cache (R309). -/
  | fencex (b : BitVec 3) (a : BitVec 3)
  /-- Unconditional branch, acting as BRC with a condition true in every lane (R288). -/
  | bra (o : BitVec 17)
  /-- Conditional branch that may split the fragment under R52 (R288). -/
  | brc (p : BitVec 5) (n : BitVec 1) (o : BitVec 17)
  /-- Indirect branch per lane, peeling when the targets differ (R290). -/
  | brx (a : BitVec 8)
  /-- Pushes a join entry if needed and a link entry, then goes to the callee (R291). -/
  | call (o : BitVec 17)
  /-- Pops the link entry and returns to its RPC (R349). -/
  | ret
  /-- Active lanes exit; the fragment may end and the gang may exit (R304). -/
  | exit
  /-- Team barrier arrival (R285). -/
  | bar
  /-- Cluster barrier arrival (R286). -/
  | barc
  /-- Goes to label when flag f is clear, waiting swappably until then (R376). -/
  | yield (f : BitVec 5) (o : BitVec 17)
  /-- Software trap with cause SOFTWARE and a code (R372). -/
  | trap (c : BitVec 16)
  /-- Queues a child task and raises the join counter (R367). -/
  | spawn (a : BitVec 6)
  /-- Waits for the join counter to reach zero, swapping the team out (R318). -/
  | joinw
  /-- Marks a step boundary of the gang (R369). -/
  | stepmark
  /-- Pops the head of the gang's decision queue into a g register (R301). -/
  | dqpop (a : BitVec 6)
  /-- No operation (R317). -/
  | nop
  /-- Requests and grants a matrix configuration (R360). -/
  | shape (d : BitVec 5) (sc : BitVec 5)
  /-- Dense matrix multiply-accumulate from registers (R185). -/
  | mma (c : BitVec 4) (a : BitVec 7) (b : BitVec 7)
  /-- BP2 coarse matrix multiply from scratchpad plane tiles (R186). -/
  | mmaPlane (c : BitVec 4) (a : BitVec 5) (b : BitVec 5)
  /-- Bitmap-sparse matrix steps, one per selected k (R187). -/
  | mmas (c : BitVec 4) (a : BitVec 7) (b : BitVec 7) (g : BitVec 5)
  /-- 2-of-16 structured-sparse matrix multiply (R188). -/
  | mmanN2 (c : BitVec 4) (a : BitVec 7) (b : BitVec 7)
  /-- 4-of-16 structured-sparse matrix multiply (R188). -/
  | mmanN4 (c : BitVec 4) (a : BitVec 7) (b : BitVec 7)
  /-- 8-of-16 structured-sparse matrix multiply (R188). -/
  | mmanN8 (c : BitVec 4) (a : BitVec 7) (b : BitVec 7)
  /-- Walks a scratchpad block table of tile products (R190). -/
  | mmab (g : BitVec 5)
  /-- Closes the open matrix batch (R182). -/
  | mfence
  /-- Closes the open batch and returns its number (R182). -/
  | mfenceGd (d : BitVec 5)
  /-- Waits for batch b to complete (R183). -/
  | mwait (b : BitVec 4)
  /-- Waits for every matrix instruction of the gang (R183). -/
  | mwaitAll
  /-- Loads a whole accumulator tile from scratchpad (R191). -/
  | accld (c : BitVec 4) (g : BitVec 5)
  /-- Stores a whole tile to scratchpad (R191). -/
  | accst (c : BitVec 4) (g : BitVec 5)
  /-- Reads tile columns into registers (R191). -/
  | accldR (c : BitVec 4) (v : BitVec 7) (j : BitVec 7) (n : BitVec 3)
  /-- Writes registers into tile columns (R191). -/
  | accstR (c : BitVec 4) (v : BitVec 7) (j : BitVec 7) (n : BitVec 3)
  /-- Zeroes a tile (R191). -/
  | accz (c : BitVec 4)
  /-- Copies one tile to another (R191). -/
  | accmov (d : BitVec 4) (sc : BitVec 4)
  /-- Checks a skim block and replays the stored output on a hit (R199). -/
  | skimchk (f : BitVec 1) (p : BitVec 5) (k : BitVec 5) (d : BitVec 5) (sc : BitVec 5)
  /-- Stores the coarse input, the output and the step tag in a skim slot (R200). -/
  | skimput (f : BitVec 1) (k : BitVec 5) (d : BitVec 5) (sc : BitVec 5)
  /-- Reads a skim counter after the gang's skim operations have completed (R203). -/
  | skimrd (d : BitVec 5) (c : BitVec 2)
  /-- Reads and clears a skim counter (R203). -/
  | skimrdClr (d : BitVec 5) (c : BitVec 2)
  /-- Issues a tensor copy engine operation (R292). -/
  | copy (f : BitVec 1) (sc : BitVec 1) (a : BitVec 6)
  /-- Issues a plane copy (R338). -/
  | pcopy (f : BitVec 1) (d : BitVec 6) (a : BitVec 6) (c : BitVec 6)
  /-- Issues a sliced multicast fetch for the cluster (R332). -/
  | mcast (f : BitVec 1) (sc : BitVec 1) (a : BitVec 6)
  /-- Issues a gather command (R312). -/
  | gather (f : BitVec 1) (a : BitVec 6)
  /-- Issues a scatter command (R312). -/
  | scatter (f : BitVec 1) (a : BitVec 6)
  /-- Appends a tile handle to a named queue, waiting for allowance and room (R171). -/
  | qpush (a : BitVec 6) (q : BitVec 4)
  /-- Removes the head handle and clears its lines' writer marks (R171). -/
  | qpop (d : BitVec 6) (q : BitVec 4)
  /-- Pops a handle without waiting and sets a predicate (R171). -/
  | qtry (d : BitVec 6) (p : BitVec 5) (q : BitVec 4)
  /-- Sets or adds to a producer's send allowance (R171). -/
  | qallow (m : BitVec 1) (a : BitVec 6) (n : BitVec 11) (q : BitVec 4)
  /-- Sets scratchpad fill tags to EMPTY (R310). -/
  | fillclr (a : BitVec 6) (b : BitVec 6)
  /-- Reads up to 32 fill tags into a register (R310). -/
  | filltst (d : BitVec 6) (a : BitVec 6) (n : BitVec 5)
  /-- Stable sort of the 64 lanes' keys (R365). -/
  | sort64 (m : BitVec 1) (d : BitVec 7) (a : BitVec 8)
  /-- Stable merge of two 64-element sequences (R333). -/
  | merge (m : BitVec 1) (d : BitVec 7) (a : BitVec 8) (b : BitVec 7)
  /-- Offers the lanes' bounded candidates to a scratchpad top-K heap (R357). -/
  | topk (d : BitVec 7) (a : BitVec 8) (b : BitVec 7)
  /-- Orders a top-K list in descending order (R357). -/
  | topkFin (a : BitVec 8)
  /-- Keeps the lanes whose upper bound reaches the threshold and ranks them (R358). -/
  | selth (m : BitVec 1) (d : BitVec 7) (a : BitVec 8) (b : BitVec 7)
  /-- Finds the active lane holding the largest key (R280). -/
  | argmax (m : BitVec 1) (d : BitVec 7) (a : BitVec 8) (t : BitVec 2)
  /-- Reduction over the active lanes (R346). -/
  | redux (d : BitVec 7) (a : BitVec 8) (o : BitVec 3) (t : BitVec 2)
  /-- Inclusive or exclusive prefix scan over the active lanes (R346). -/
  | scan (e : BitVec 1) (d : BitVec 7) (a : BitVec 8) (o : BitVec 3) (t : BitVec 2)
  /-- Hawk 64-bit add (R319). -/
  | kadd (imm : BitVec 1) (d : BitVec 6) (a : BitVec 6) (b : BitVec 10)
  /-- Hawk 64-bit subtract (R319). -/
  | ksub (imm : BitVec 1) (d : BitVec 6) (a : BitVec 6) (b : BitVec 10)
  /-- Hawk 64-bit multiply (R319). -/
  | kmul (imm : BitVec 1) (d : BitVec 6) (a : BitVec 6) (b : BitVec 10)
  /-- Hawk bitwise AND (R319). -/
  | kand (imm : BitVec 1) (d : BitVec 6) (a : BitVec 6) (b : BitVec 10)
  /-- Hawk bitwise OR (R319). -/
  | kor (imm : BitVec 1) (d : BitVec 6) (a : BitVec 6) (b : BitVec 10)
  /-- Hawk bitwise XOR (R319). -/
  | kxor (imm : BitVec 1) (d : BitVec 6) (a : BitVec 6) (b : BitVec 10)
  /-- Hawk shift left (R319). -/
  | kshl (imm : BitVec 1) (d : BitVec 6) (a : BitVec 6) (b : BitVec 10)
  /-- Hawk logical shift right (R319). -/
  | kshr (imm : BitVec 1) (d : BitVec 6) (a : BitVec 6) (b : BitVec 10)
  /-- Hawk register or immediate move (R319). -/
  | kmov (imm : BitVec 1) (d : BitVec 6) (b : BitVec 10)
  /-- Hawk 8-byte load from memory or scratchpad (R322). -/
  | kld (f : BitVec 1) (d : BitVec 6) (a : BitVec 6) (o : BitVec 10)
  /-- Hawk 8-byte store (R322). -/
  | kst (d : BitVec 6) (a : BitVec 6) (o : BitVec 10)
  /-- Hawk no-return atomic (R323). -/
  | kstAtomic (d : BitVec 6) (a : BitVec 6) (o : BitVec 5) (w : BitVec 1)
  /-- Hawk compare into a condition bit (R321). -/
  | kcmp (imm : BitVec 1) (d : BitVec 3) (c : BitVec 3) (a : BitVec 6) (b : BitVec 10)
  /-- Hawk branch; a pending condition opens a speculation window (R320). -/
  | kbr (n : BitVec 1) (c : BitVec 3) (l : BitVec 1) (o : BitVec 17)
  /-- Hawk call through the return stack (R320). -/
  | kcall (o : BitVec 17)
  /-- Hawk return from the return stack (R320). -/
  | kret
  /-- Hawk waits until the listed flags are clear and takes pending reports (R325). -/
  | kwait (f : BitVec 12)
  /-- Stops the hawk for good (R324). -/
  | kstop
  /-- Pushes a k register to one gang's decision queue or to every gang's (R302). -/
  | dqpush (a : BitVec 6) (b : BitVec 1) (n : BitVec 4)
  /-- Hawk submits a launch record to a queue and gets the outcome (R326). -/
  | launch (d : BitVec 6) (a : BitVec 6)
  /-- Splits a range in two (R350). -/
  | rgsplit (a : BitVec 6)
  /-- Merges two adjacent ranges (R350). -/
  | rgmerge (a : BitVec 6)
  /-- Lowers a range's LIMIT (R350). -/
  | rgtrim (a : BitVec 6) (b : BitVec 6)
  /-- Raises a range's LIMIT and zeroes the grown bytes (R350). -/
  | rggrow (a : BitVec 6) (b : BitVec 6)
  /-- Removes a range, writing dirty data back (R350). -/
  | rginv (a : BitVec 6)
  /-- Removes a range, discarding dirty data (R131). -/
  | rginvDiscard (a : BitVec 6)
  /-- Reads two words of the range entry that holds an address (R351). -/
  | rgprobe (d : BitVec 6) (a : BitVec 6) (w : BitVec 3)
  /-- Makes an interval resident by widening the window (R350). -/
  | rgmigrIn (a : BitVec 6) (b : BitVec 6)
  /-- Writes an interval to backing and removes it from the window (R350). -/
  | rgmigrOut (a : BitVec 6) (b : BitVec 6)
  /-- Relocates a range to a new PBASE by a move (R350). -/
  | rgmigrMove (a : BitVec 6) (b : BitVec 6)
  /-- Seals a range after a release and a D check (R354). -/
  | seal (a : BitVec 6)
  /-- Unseals a range and invalidates first-level copies (R354). -/
  | unseal (a : BitVec 6)
  /-- Reads a CSR into a g or k register (R294). -/
  | csrd (a : BitVec 6) (c : BitVec 12)
  /-- Writes a CSR under its access rules (R294). -/
  | cswr (a : BitVec 6) (c : BitVec 12)
  /-- Leaves handler mode and replays or skips the instruction at PC (R303). -/
  | eret
  /-- Fires the plumb line from an armed launch (R364). -/
  | snap
  /-- Reads one word of the stream's fault record (R311). -/
  | fltrd (d : BitVec 6) (w : BitVec 3)
  /-- Module reset: Tsuwa assigns cores from the repair data and sets every register to its reset value (R11). -/
  | reset (repair : RepairData) (images : List BootImage)
  /-- A write to a launch port copies, checks and accepts or rejects a launch record (R207). -/
  | submit (q : BitVec 9) (v : BitVec 64)
  /-- A control-core write requests pre-emption of a team or a launch (R213). -/
  | preEmptionPort (v : BitVec 64)
  /-- Appends a trowel move command to the queue, or refuses it (R130). -/
  | trsubmit (v : BitVec 64)
  /-- Submits an attestation request through the mailbox (R251). -/
  | atreq (v : BitVec 64)
  /-- Submits a frame to the signwriter and locks it (R253). -/
  | swsubmit (v : BitVec 64)
  /-- Closes a signwriter batch and writes a signed manifest (R255). -/
  | swbatch (v : BitVec 64)
  /-- Unlocks a marked frame by its serial (R253). -/
  | swfree (v : BitVec 64)
  /-- Writing 1 ends boot when CHAINOK is set, so the module leaves recovery (R249). -/
  | bootdone (v : BitVec 64)
  /-- A write to RXN sets the ring size and zeroes the tail word and RXHEAD (R243). -/
  | rxn (port : BitVec 4) (v : BitVec 64)
  /-- A write to RXHEAD records consumed messages, unless the value is out of order (R243). -/
  | rxhead (port : BitVec 4) (v : BitVec 64)
  /-- A write to a core's SWAPWAIT sets the swap threshold from the next cycle (R75). -/
  | swapwait (core : Nat) (v : BitVec 64)
  /-- A write to an ASID descriptor, restricted while a launch of the ASID is live (R120). -/
  | asidDescriptorWrite (asid : BitVec 13) (word : BitVec 1) (v : BitVec 64)
  /-- A write to a device register that has no row of its own (R118). -/
  | registerWrite (off : BitVec 38) (v : BitVec 64)
  /-- The swap timer reaches SWAPWAIT and the team is swapped out if queued work can use its slots (R35). -/
  | swapTimerExpiry (core slot : Nat)
  /-- A gang that has not issued for 512 cycles takes the first issue slot (R211). -/
  | starvationGuard (core : Nat)
  /-- The scheduler places or resumes the highest-ranked waiting work when slots allow (R388). -/
  | schedulerPlacement (cluster first : Nat)
  /-- The last declared-input copy completes and the team enters RUNNING (R167). -/
  | declaredInputsDone (lid tid : Nat)
  /-- Every acknowledgement collected: the context is written to a slot and the slots are freed (R212). -/
  | contextSave (lid tid : Nat)
  /-- The context reload ends and the team enters RUNNING (R43). -/
  | swapinComplete (lid tid : Nat)
  /-- A retiring team's operations and join counter drain; it retires and frees its slots (R43). -/
  | teamRetire (lid tid : Nat)
  /-- A launch completes and its completion word is written as a release (R208). -/
  | launchCompletion (lid : Nat)
  /-- An engine operation's accesses complete and its flag count falls (R159). -/
  | engineOperationCompletion (lid tid op : Nat)
  /-- An engine operation writes the last byte of a scratchpad line, which becomes FULL or FAULTED (R105). -/
  | lineLanded (lid tid op line : Nat)
  /-- A long-latency instruction completes, writes its destinations and lowers its flag (R260). -/
  | longLatencyCompletion (lid tid op : Nat)
  /-- A matrix instruction finishes its last sequencer step, which may complete its batch (R182). -/
  | matrixInstructionCompletion (lid tid op : Nat)
  /-- The opening condition resolves as predicted and the held work is performed in order (R32). -/
  | windowCommit (lid tid : Nat)
  /-- A mispredicted window is squashed and the checkpoint restored (R32). -/
  | windowSquash (lid tid : Nat)
  /-- The residency unit writes the widened window and replays parked accesses (R128). -/
  | residencyWideningEnd (n : Nat)
  /-- Lookaside invalidation and in-flight accesses finish and the held range instruction completes (R125). -/
  | rangeChangeComplete (n : Nat)
  /-- The trowel performs the next queued move and writes its completion word (R129). -/
  | trowelCommand
  /-- A move finishes copying, updates the entry and replays the held accesses (R132). -/
  | moveComplete (n : Nat)
  /-- A waiting fragment in NOENTRY is granted an instruction-buffer entry (R59). -/
  | poolEntryGrant (core : Nat)
  /-- A wait of a resident stream is satisfied and it resumes, which may make a swapped team ready (R34). -/
  | swappableWaitSatisfied (lid tid : Nat) (who : StreamName)
  /-- A core is lost: its teams are killed and the spare stands in or the id becomes absent (R231). -/
  | coreLost (core : Nat)
  /-- An HBM4E stack loses its last redundancy (R231). -/
  | stackRedundancyLost (stack : BitVec 3)
  /-- An LPDDR device group loses its last redundancy (R231). -/
  | lpddrRedundancyLost
  /-- Tsuwa finishes retesting a cluster and updates the core map (R230). -/
  | recoveryEnd (cluster : Nat)
  /-- An uncorrectable error makes a scratchpad line FAULTED (R105). -/
  | scratchpadUncorrectableError (lid tid line : Nat)
  /-- An uncorrectable DRAM error poisons the sector (R113). -/
  | dramUncorrectableError (sector : Nat)
  /-- An uncorrectable error in a cache data array poisons the sector (R115). -/
  | cacheUncorrectableError (core : Option Nat) (sector : Nat)
  /-- An uncorrectable error marks an accumulator row until it is rewritten whole (R193). -/
  | accumulatorUncorrectableError (lid tid tile row : Nat)
  /-- An uncorrectable error in registers, split state or a hawk context is unrecoverable (R229); where the sequencer meets it in a register
  that a matrix instruction reads, it is that instruction's (R193). -/
  | registerUncorrectableError (team : Nat × Nat) (op : Option Nat)
  /-- A management request fires the plumb line (R234). -/
  | managementSnapshotRequest
  /-- Tsuwa finishes writing the snapshot to SNAPBUF and BUSY clears (R234). -/
  | snapshotDrainEnd
  /-- An attestation request arrives over the management port and is answered signed (R250). -/
  | attestationManagementRequest (nonce : BitVec 256)
  /-- Tsuwa writes the signed answer into the buffer and sets ATDONE (R251). -/
  | attestationAnswer
  /-- The signwriter marks each whole 8x8 luma block of a submitted frame (R254). -/
  | signwriterMark
  /-- A UALink port completes training and enters service (R237). -/
  | linkTrained (port : BitVec 4) (width : BitVec 3) (peer : BitVec 16)
  /-- The receiver rejects a flit and the port replays from the retry point (R245). -/
  | flitRejected (port : BitVec 4) (seq : Nat)
  /-- A faulty lane is repaired: the port drains, retrains narrower and resends (R245). -/
  | laneRepair (port : BitVec 4) (lane : BitVec 2)
  /-- An inbound peer access is filtered and performed, or refused (R244). -/
  | inboundPeerAccess (port : BitVec 4) (req : PeerAccess)
  /-- A peer message is appended to the receive ring and the tail word advances (R242). -/
  | messageArrival (port : BitVec 4) (sender : BitVec 16) (bytes : List (BitVec 8))
  /-- A peer acknowledges or fails a write, and a failure is recorded as ENGINE_ERROR (R241). -/
  | peerResponse (n : Nat) (ok : Bool) (bytes : List (BitVec 8))
  /-- A PCIe request is matched against the inbound windows and performed or refused (R246). -/
  | pcieInboundRequest (rp : BitVec 1) (req : BusAccess)
  /-- When the module must reduce power to stay within its 2,400 W design power, it withholds issue slots, and it gives them back once that need has passed (R23). -/
  | throttling (on : Bool)deriving DecidableEq, Repr

end Sys2Proof
end

