-- ==== Sys2Proof/WellFormed.lean ====
section
/-!
DEFINITION. Which instructions are well formed: the operand codes and selector fields that the spec gives a use, whatever the
team's shape and the registers hold (R63, R262 to R264, R267 and each word's entry). A word that is not well formed decodes,
and traps with ILLEGAL_OPERAND where it runs (R267). For an event: its core, cluster, slot, line or tile is one that the
module has (R2).
-/
namespace Sys2Proof

/-- A 7-bit destination: v0 to v111, o0 to o7, or the last-result file alone (R263). -/
def wfDst (d : BitVec 7) : Bool := decide (d.toNat ≤ 120)
/-- A v register. -/
def wfV (d : BitVec 7) : Bool := decide (d.toNat ≤ 111)
/-- An 8-bit source code: a v or o register, y0 or y1, a g register, a special source or an inline integer (R263, R264). -/
def wfSrc (a : BitVec 8) : Bool := decide (a.toNat ≤ 121) || (decide (128 ≤ a.toNat) && decide (a.toNat ≤ 173)) || decide (192 ≤ a.toNat)
/-- A 7-bit source code: a v or o register, y0 or y1, or 127 for the SC field of a hint (R263, R316). -/
def wfSrc7 (b : BitVec 7) : Bool := decide (b.toNat ≤ 121) || b == 127
/-- A g register's source code (R263). -/
def wfG (a : BitVec 8) : Bool := decide (128 ≤ a.toNat) && decide (a.toNat ≤ 159)
/-- An even v register with the next (R5). -/
def wfPair (n : Nat) : Bool := decide (n ≤ 110) && n % 2 == 0
/-- An address: an even v pair or a g register (R262). -/
def wfAddr (a : BitVec 8) : Bool := wfPair a.toNat || wfG a
/-- A scratchpad offset: a v register or a g register (R262). -/
def wfOff (a : BitVec 8) : Bool := decide (a.toNat ≤ 111) || wfG a
/-- A predicate register p0 to p23 (R62). -/
def wfPred (p : BitVec 5) : Bool := decide (p.toNat < 24)
/-- The operations of the atomics, by width (R282). -/
def wfAtomic (o : BitVec 5) (w : BitVec 1) : Bool := decide (o.toNat ≤ 8) || (decide (o.toNat ≤ 11) && w == 0)
/-- The data register of an atomic, by width (R281). -/
def wfData (d : BitVec 7) (w : BitVec 1) : Bool := if w == 1 then wfPair d.toNat else wfV d
/-- A logical core (R2). -/
def wfCore (core : Nat) : Bool := decide (core < 192)

/-- Whether an instruction is well formed. -/
def wellFormed (i : Instr) : Bool :=
  match i with
  | .clauseHeader _ _ _ _ _ _ _ _ => true
  | .immxImmediate _ => true
  | .immxOperand _ _ _ _ _ => true
  | .xcache _ => true
  | .xscope _ _ _ _ => true
  | .xplane _ => true
  | .xnop => true
  | .mergeat _ => true
  | .iadd _ d a b => wfDst d && wfSrc a && wfSrc7 b
  | .isub _ d a b => wfDst d && wfSrc a && wfSrc7 b
  | .imul d a b => wfDst d && wfSrc a && wfSrc7 b
  | .imulhi _ d a b => wfDst d && wfSrc a && wfSrc7 b
  | .imad _ d a b => wfDst d && d != 120 && wfSrc a && wfSrc7 b
  | .imin _ d a b => wfDst d && wfSrc a && wfSrc7 b
  | .imax _ d a b => wfDst d && wfSrc a && wfSrc7 b
  | .iabs _ d a => wfDst d && wfSrc a
  | .and d a b => wfDst d && wfSrc a && wfSrc7 b
  | .or d a b => wfDst d && wfSrc a && wfSrc7 b
  | .xor d a b => wfDst d && wfSrc a && wfSrc7 b
  | .shl d a b => wfDst d && wfSrc a && wfSrc7 b
  | .shr d a b => wfDst d && wfSrc a && wfSrc7 b
  | .shra d a b => wfDst d && wfSrc a && wfSrc7 b
  | .bfe _ d a b => wfDst d && wfSrc a && wfSrc7 b
  | .bfi d a b => wfDst d && d != 120 && wfSrc a && wfSrc7 b
  | .popc d a => wfDst d && wfSrc a
  | .clz d a => wfDst d && wfSrc a
  | .brev d a => wfDst d && wfSrc a
  | .selp d a b => wfDst d && wfSrc a && wfSrc7 b
  | .lea _ d a b => wfPair d.toNat && wfAddr a && wfSrc7 b
  | .mov d a => wfDst d && wfSrc a
  | .fadd d a b => wfDst d && wfSrc a && wfSrc7 b
  | .fsub d a b => wfDst d && wfSrc a && wfSrc7 b
  | .fmul d a b => wfDst d && wfSrc a && wfSrc7 b
  | .ffma d a b => wfDst d && d != 120 && wfSrc a && wfSrc7 b
  | .ffmay d a b => wfDst d && wfSrc a && wfSrc7 b
  | .fmin d a b => wfDst d && wfSrc a && wfSrc7 b
  | .fmax d a b => wfDst d && wfSrc a && wfSrc7 b
  | .fscale d a b => wfDst d && wfSrc a && wfSrc7 b
  | .fclass d a => wfDst d && wfSrc a
  | .hadd2 _ d a b => wfDst d && wfSrc a && wfSrc7 b
  | .hmul2 _ d a b => wfDst d && wfSrc a && wfSrc7 b
  | .hfma2 _ d a b => wfDst d && d != 120 && wfSrc a && wfSrc7 b
  | .iaddImm d a _ => wfDst d && wfSrc a
  | .imulImm d a _ => wfDst d && wfSrc a
  | .iminImm d a _ => wfDst d && wfSrc a
  | .imaxImm d a _ => wfDst d && wfSrc a
  | .andImm d a _ => wfDst d && wfSrc a
  | .orImm d a _ => wfDst d && wfSrc a
  | .xorImm d a _ => wfDst d && wfSrc a
  | .shlImm d a _ => wfDst d && wfSrc a
  | .shrImm d a _ => wfDst d && wfSrc a
  | .shraImm d a _ => wfDst d && wfSrc a
  | .movImm d _ => wfDst d
  | .faddImm d a _ => wfDst d && wfSrc a
  | .fmulImm d a _ => wfDst d && wfSrc a
  | .fminImm d a _ => wfDst d && wfSrc a
  | .fmaxImm d a _ => wfDst d && wfSrc a
  | .ffmaImm d a _ => wfDst d && d != 120 && wfSrc a
  | .icmpEq p _ a b => wfPred p && wfSrc a && wfSrc b
  | .icmpNe p _ a b => wfPred p && wfSrc a && wfSrc b
  | .icmpLt p _ a b => wfPred p && wfSrc a && wfSrc b
  | .icmpLe p _ a b => wfPred p && wfSrc a && wfSrc b
  | .icmpGt p _ a b => wfPred p && wfSrc a && wfSrc b
  | .icmpGe p _ a b => wfPred p && wfSrc a && wfSrc b
  | .icmpLtu p _ a b => wfPred p && wfSrc a && wfSrc b
  | .icmpLeu p _ a b => wfPred p && wfSrc a && wfSrc b
  | .icmpGtu p _ a b => wfPred p && wfSrc a && wfSrc b
  | .icmpGeu p _ a b => wfPred p && wfSrc a && wfSrc b
  | .fcmpEq p _ a b => wfPred p && wfSrc a && wfSrc b
  | .fcmpNe p _ a b => wfPred p && wfSrc a && wfSrc b
  | .fcmpLt p _ a b => wfPred p && wfSrc a && wfSrc b
  | .fcmpLe p _ a b => wfPred p && wfSrc a && wfSrc b
  | .fcmpGt p _ a b => wfPred p && wfSrc a && wfSrc b
  | .fcmpGe p _ a b => wfPred p && wfSrc a && wfSrc b
  | .fcmpNum p _ a b => wfPred p && wfSrc a && wfSrc b
  | .fcmpNan p _ a b => wfPred p && wfSrc a && wfSrc b
  | .plop p _ a b _ => wfPred p && wfPred a && wfPred b
  | .pset p _ a => wfPred p && wfG a
  | .ballot _ p => wfPred p
  | .vote p m a => wfPred p && wfPred a && m != 3
  | .shfl _ d a b => wfDst d && wfSrc a && wfSrc7 b
  | .qswap d a x => wfDst d && wfSrc a && x != 0
  | .qbcast d a _ => wfDst d && wfSrc a
  | .maskrd _ => true
  | .maskwr a => wfG a
  | .cvt t _ _ sf => decide (t.toNat < 14) && decide (sf.toNat < 14) && !(t == 5 && sf == 5)
  | .cvtsr t _ _ sf => decide (t.toNat < 14) && decide (sf.toNat < 14) && !(t == 5 && sf == 5)
  | .exp2 d a => wfDst d && wfSrc a
  | .log2 d a => wfDst d && wfSrc a
  | .rcp d a => wfDst d && wfSrc a
  | .rsqrt d a => wfDst d && wfSrc a
  | .sqrt d a => wfDst d && wfSrc a
  | .sinpi d a => wfDst d && wfSrc a
  | .cospi d a => wfDst d && wfSrc a
  | .rng d _ => wfDst d
  | .rngsave d => d.toNat % 2 == 0
  | .rngset a => wfG a && a.toNat % 2 == 0
  | .ldU8 _ d a _ => wfDst d && d != 120 && wfAddr a
  | .ldS8 _ d a _ => wfDst d && d != 120 && wfAddr a
  | .ldU16 _ d a _ => wfDst d && d != 120 && wfAddr a
  | .ldS16 _ d a _ => wfDst d && d != 120 && wfAddr a
  | .ldB32 _ d a _ => wfDst d && d != 120 && wfAddr a
  | .ldB64 _ d a _ => wfPair d.toNat && wfAddr a
  | .stB8 d a _ => wfSrc (d.setWidth 8) && wfAddr a
  | .stB16 d a _ => wfSrc (d.setWidth 8) && wfAddr a
  | .stB32 d a _ => wfSrc (d.setWidth 8) && wfAddr a
  | .stB64 d a _ => wfPair d.toNat && wfAddr a
  | .ldsU8 _ d a _ => wfDst d && d != 120 && wfOff a
  | .ldsS8 _ d a _ => wfDst d && d != 120 && wfOff a
  | .ldsU16 _ d a _ => wfDst d && d != 120 && wfOff a
  | .ldsS16 _ d a _ => wfDst d && d != 120 && wfOff a
  | .ldsB32 _ d a _ => wfDst d && d != 120 && wfOff a
  | .ldsB64 _ d a _ => wfPair d.toNat && wfOff a
  | .stsB8 d a _ => wfSrc (d.setWidth 8) && wfOff a
  | .stsB16 d a _ => wfSrc (d.setWidth 8) && wfOff a
  | .stsB32 d a _ => wfSrc (d.setWidth 8) && wfOff a
  | .stsB64 d a _ => wfPair d.toNat && wfOff a
  | .ldp _ d a o => wfV d && wfG a && a.toNat % 2 == 0 && decide (1 ≤ o.toNat) && decide (o.toNat ≤ 16)
  | .ldpMid _ d a o => wfV d && wfG a && a.toNat % 2 == 0 && decide (1 ≤ o.toNat) && decide (o.toNat ≤ 16)
  | .refine _ d a o => wfV d && wfG a && a.toNat % 2 == 0 && decide (1 ≤ o.toNat) && decide (o.toNat ≤ 16)
  | .stp _ d a => wfV d && wfG a && a.toNat % 2 == 0
  | .cstoreB32 d a _ => wfSrc (d.setWidth 8) && wfG a
  | .cstoreB64 d a _ => wfPair d.toNat && wfG a
  | .xload _ d a _ => decide (d.toNat ≤ 108) && d.toNat % 4 == 0 && wfAddr a
  | .pref _ a _ => wfAddr a
  | .atom _ d a o w => wfData d w && wfAddr a && wfAtomic o w
  | .acas _ d a w => (if w == 1 then d.toNat % 4 == 0 && decide (d.toNat ≤ 108) else decide (d.toNat ≤ 110)) && wfAddr a
  | .red d a o w => (if w == 1 then wfPair d.toNat else wfSrc (d.setWidth 8)) && wfAddr a && wfAtomic o w
  | .atoms _ d a o w => wfData d w && wfOff a && wfAtomic o w
  | .fence o _ => o != 0
  | .fencex b a => decide (b.toNat ≤ 4) && decide (a.toNat ≤ 4) && b != a
  | .bra _ => true
  | .brc p n _ => wfPred p || (p == 31 && n == 0)
  | .brx a => wfPair a.toNat
  | .call _ => true
  | .ret => true
  | .exit => true
  | .bar => true
  | .barc => true
  | .yield f _ => decide (f.toNat < 12)
  | .trap _ => true
  | .spawn a => decide (a.toNat < 32)
  | .joinw => true
  | .stepmark => true
  | .dqpop a => decide (a.toNat < 32)
  | .nop => true
  | .shape _ _ => true
  | .mma _ _ _ => true
  | .mmaPlane _ a b => a.toNat % 2 == 0 && b.toNat % 2 == 0
  | .mmas _ _ _ _ => true
  | .mmanN2 _ _ _ => true
  | .mmanN4 _ _ _ => true
  | .mmanN8 _ _ _ => true
  | .mmab _ => true
  | .mfence => true
  | .mfenceGd _ => true
  | .mwait _ => true
  | .mwaitAll => true
  | .accld _ _ => true
  | .accst _ _ => true
  | .accldR _ _ _ _ => true
  | .accstR _ _ _ _ => true
  | .accz _ => true
  | .accmov _ _ => true
  | .skimchk _ p _ d sc => wfPred p && d.toNat % 2 == 0 && sc.toNat % 2 == 0
  | .skimput _ _ d sc => d.toNat % 2 == 0 && sc.toNat % 2 == 0
  | .skimrd _ _ => true
  | .skimrdClr _ _ => true
  | .copy _ _ _ => true
  | .pcopy _ _ _ _ => true
  | .mcast _ _ _ => true
  | .gather _ _ => true
  | .scatter _ _ => true
  | .qpush _ _ => true
  | .qpop _ _ => true
  | .qtry _ p _ => wfPred p
  | .qallow _ _ _ _ => true
  | .fillclr _ _ => true
  | .filltst _ _ _ => true
  | .sort64 _ d a => wfDst d && wfSrc a
  | .merge _ d a b => wfPair d.toNat && wfSrc a && wfSrc7 b
  | .topk d a b => wfDst d && wfG a && wfSrc (b.setWidth 8)
  | .topkFin a => wfG a
  | .selth _ d a b => wfDst d && wfSrc a && b != 127 && wfSrc7 b
  | .argmax _ d a t => wfDst d && wfSrc a && t != 3
  | .redux d a o t => wfDst d && wfSrc a && t != 3 && decide (o.toNat ≤ 5) && (t != 0 || decide (o.toNat ≤ 2))
  | .scan _ d a o t => wfDst d && wfSrc a && t != 3 && decide (o.toNat ≤ 5) && (t != 0 || decide (o.toNat ≤ 2))
  | .kadd _ _ _ _ => true
  | .ksub _ _ _ _ => true
  | .kmul _ _ _ _ => true
  | .kand _ _ _ _ => true
  | .kor _ _ _ _ => true
  | .kxor _ _ _ _ => true
  | .kshl _ _ _ _ => true
  | .kshr _ _ _ _ => true
  | .kmov _ _ _ => true
  | .kld _ _ _ _ => true
  | .kst _ _ _ => true
  | .kstAtomic _ _ o w => wfAtomic o w
  | .kcmp _ _ _ _ _ => true
  | .kbr n c l _ => l == 0 || (c == 0 && n == 0)
  | .kcall _ => true
  | .kret => true
  | .kwait _ => true
  | .kstop => true
  | .dqpush _ _ _ => true
  | .launch _ a => a.toNat % 2 == 0
  | .rgsplit _ => true
  | .rgmerge _ => true
  | .rgtrim _ _ => true
  | .rggrow _ _ => true
  | .rginv _ => true
  | .rginvDiscard _ => true
  | .rgprobe _ _ _ => true
  | .rgmigrIn _ _ => true
  | .rgmigrOut _ _ => true
  | .rgmigrMove _ _ => true
  | .seal _ => true
  | .unseal _ => true
  | .csrd _ _ => true
  | .cswr _ _ => true
  | .eret => true
  | .snap => true
  | .fltrd _ _ => true
  | .reset _ _ => true
  | .submit _ _ => true
  | .preEmptionPort _ => true
  | .trsubmit _ => true
  | .atreq _ => true
  | .swsubmit _ => true
  | .swbatch _ => true
  | .swfree _ => true
  | .bootdone _ => true
  | .rxn _ _ => true
  | .rxhead _ _ => true
  | .swapwait core _ => wfCore core
  | .asidDescriptorWrite _ _ _ => true
  | .registerWrite _ _ => true
  | .swapTimerExpiry core slot => wfCore core && decide (slot < 4)
  | .starvationGuard core => wfCore core
  | .schedulerPlacement cluster first => decide (cluster < 24) && decide (first < 8)
  | .declaredInputsDone _ _ => true
  | .contextSave _ _ => true
  | .swapinComplete _ _ => true
  | .teamRetire _ _ => true
  | .launchCompletion _ => true
  | .engineOperationCompletion _ _ _ => true
  | .lineLanded _ _ _ _ => true
  | .longLatencyCompletion _ _ _ => true
  | .matrixInstructionCompletion _ _ _ => true
  | .windowCommit _ _ => true
  | .windowSquash _ _ => true
  | .residencyWideningEnd _ => true
  | .rangeChangeComplete _ => true
  | .trowelCommand => true
  | .moveComplete _ => true
  | .poolEntryGrant core => wfCore core
  | .swappableWaitSatisfied _ _ _ => true
  | .coreLost core => wfCore core
  | .stackRedundancyLost _ => true
  | .lpddrRedundancyLost => true
  | .recoveryEnd cluster => decide (cluster < 24)
  | .scratchpadUncorrectableError _ _ line => decide (line < 4096)
  | .dramUncorrectableError _ => true
  | .cacheUncorrectableError core _ => core.all fun c => wfCore c
  | .accumulatorUncorrectableError _ _ tile _ => decide (tile < 16)
  | .registerUncorrectableError _ _ => true
  | .managementSnapshotRequest => true
  | .snapshotDrainEnd => true
  | .attestationManagementRequest _ => true
  | .attestationAnswer => true
  | .signwriterMark => true
  | .linkTrained _ _ _ => true
  | .flitRejected _ _ => true
  | .laneRepair _ _ => true
  | .inboundPeerAccess _ _ => true
  | .messageArrival _ _ _ => true
  | .peerResponse _ _ _ => true
  | .pcieInboundRequest _ _ => true
  | .throttling _ => true

end Sys2Proof
end

