-- ==== Sys2Proof/Decode.lean ====
section
/-!
DEFINITION. The decoder and the encoder of the Glele words (R257, R262, R266, R268), the byte layout of a word in memory
(R3), and the bit-field helpers they use.

A word is read as a natural number below 2^32, and a field [lo + len - 1 : lo] of it as (w / 2^lo) mod 2^len, so that every
fact about an encoding is a fact of linear arithmetic.
-/
namespace Sys2Proof

/-- Why the decoder refuses a word (R267 check 1, R265). -/
inductive DecodeError where
  /-- Major 0x0 or 0xF: ILLEGAL_INSTRUCTION (R267). -/
  | illegalMajor
  /-- An unassigned MINOR or KIND: ILLEGAL_INSTRUCTION (R267). -/
  | unassignedMinor
  /-- A field that the opcode map gives no use for is not zero: ILLEGAL_INSTRUCTION (R262, R267). -/
  | unusedField
  /-- A DST of BALLOT with bits [6:5] non-zero, MOD of REDUX or SB[3:2] of REDUX or SCAN non-zero, DST or SB of TOPK.FIN
  non-zero: ILLEGAL_OPERAND (R284, R347, R359). -/
  | operandField
  /-- A hint of this kind with a non-zero reserved payload bit: ILLEGAL_CLAUSE (R265). -/
  | hintPayload (kind : Nat)
  /-- A clause header with bit 0 set: ILLEGAL_CLAUSE (R258). -/
  | headerBit
  /-- Fewer bytes than one word. -/
  | shortInput
deriving DecidableEq, Repr

/-- What the decoder answers: an instruction, or a refusal by name. -/
inductive Decoded where
  | instr (i : Instr)
  | reject (e : DecodeError)
deriving DecidableEq, Repr

/-- Field [lo + len - 1 : lo] of a word. -/
def fld (lo len w : Nat) : BitVec len := BitVec.ofNat len (w / 2 ^ lo)

/-- The target format of CVT and CVTSR: MOD is bit 3 and SB[6:4] are bits [2:0] (R268). -/
def cvtFormat (w : Nat) : BitVec 4 := BitVec.ofNat 4 (w / 2 ^ 22 % 2 * 8 + w / 2 ^ 4 % 8)

/-- Decodes the hints (R265, R266), major 0x1: one arm for each assigned kind (R268). -/
def decodeHint (minor w : Nat) : Decoded :=
  match minor with
  | 0 => if w / 2 ^ 24 % 2 ^ 1 = 0 then .instr (.immxImmediate (fld 0 24 w))
      else if w / 2 ^ 19 % 2 ^ 5 = 0 then .instr (.immxOperand (fld 16 3 w) (fld 15 1 w) (fld 13 2 w) (fld 8 5 w) (fld 0 8 w))
      else .reject (.hintPayload 0)
  | 1 => if w / 2 ^ 2 % 2 ^ 23 = 0 then .instr (.xcache (fld 0 2 w)) else .reject (.hintPayload 1)
  | 2 => if w / 2 ^ 12 % 2 ^ 13 = 0 then .instr (.xscope (fld 8 4 w) (fld 5 3 w) (fld 2 3 w) (fld 0 2 w)) else .reject (.hintPayload 2)
  | 3 => if w / 2 ^ 5 % 2 ^ 20 = 0 then .instr (.xplane (fld 0 5 w)) else .reject (.hintPayload 3)
  | 4 => if w / 2 ^ 0 % 2 ^ 25 = 0 then .instr .xnop else .reject (.hintPayload 4)
  | 5 => .instr (.mergeat (fld 0 25 w))
  | _ => .reject .unassignedMinor

/-- Decodes the V3 integer words, major 0x2: one arm for each assigned minor (R268). -/
def decodeInteger (minor w : Nat) : Decoded :=
  match minor with
  | 0 => .instr (.iadd (fld 22 1 w) (fld 15 7 w) (fld 7 8 w) (fld 0 7 w))
  | 1 => .instr (.isub (fld 22 1 w) (fld 15 7 w) (fld 7 8 w) (fld 0 7 w))
  | 2 => if w / 2 ^ 22 % 2 ^ 1 = 0 then .instr (.imul (fld 15 7 w) (fld 7 8 w) (fld 0 7 w))
      else .reject .unusedField
  | 3 => .instr (.imulhi (fld 22 1 w) (fld 15 7 w) (fld 7 8 w) (fld 0 7 w))
  | 4 => .instr (.imad (fld 22 1 w) (fld 15 7 w) (fld 7 8 w) (fld 0 7 w))
  | 5 => .instr (.imin (fld 22 1 w) (fld 15 7 w) (fld 7 8 w) (fld 0 7 w))
  | 6 => .instr (.imax (fld 22 1 w) (fld 15 7 w) (fld 7 8 w) (fld 0 7 w))
  | 7 => if w / 2 ^ 0 % 2 ^ 7 = 0 then .instr (.iabs (fld 22 1 w) (fld 15 7 w) (fld 7 8 w))
      else .reject .unusedField
  | 8 => if w / 2 ^ 22 % 2 ^ 1 = 0 then .instr (.and (fld 15 7 w) (fld 7 8 w) (fld 0 7 w))
      else .reject .unusedField
  | 9 => if w / 2 ^ 22 % 2 ^ 1 = 0 then .instr (.or (fld 15 7 w) (fld 7 8 w) (fld 0 7 w))
      else .reject .unusedField
  | 10 => if w / 2 ^ 22 % 2 ^ 1 = 0 then .instr (.xor (fld 15 7 w) (fld 7 8 w) (fld 0 7 w))
      else .reject .unusedField
  | 11 => if w / 2 ^ 22 % 2 ^ 1 = 0 then .instr (.shl (fld 15 7 w) (fld 7 8 w) (fld 0 7 w))
      else .reject .unusedField
  | 12 => if w / 2 ^ 22 % 2 ^ 1 = 0 then .instr (.shr (fld 15 7 w) (fld 7 8 w) (fld 0 7 w))
      else .reject .unusedField
  | 13 => if w / 2 ^ 22 % 2 ^ 1 = 0 then .instr (.shra (fld 15 7 w) (fld 7 8 w) (fld 0 7 w))
      else .reject .unusedField
  | 14 => .instr (.bfe (fld 22 1 w) (fld 15 7 w) (fld 7 8 w) (fld 0 7 w))
  | 15 => if w / 2 ^ 22 % 2 ^ 1 = 0 then .instr (.bfi (fld 15 7 w) (fld 7 8 w) (fld 0 7 w))
      else .reject .unusedField
  | 16 => if w / 2 ^ 0 % 2 ^ 7 = 0 ∧ w / 2 ^ 22 % 2 ^ 1 = 0 then .instr (.popc (fld 15 7 w) (fld 7 8 w))
      else .reject .unusedField
  | 17 => if w / 2 ^ 0 % 2 ^ 7 = 0 ∧ w / 2 ^ 22 % 2 ^ 1 = 0 then .instr (.clz (fld 15 7 w) (fld 7 8 w))
      else .reject .unusedField
  | 18 => if w / 2 ^ 0 % 2 ^ 7 = 0 ∧ w / 2 ^ 22 % 2 ^ 1 = 0 then .instr (.brev (fld 15 7 w) (fld 7 8 w))
      else .reject .unusedField
  | 19 => if w / 2 ^ 22 % 2 ^ 1 = 0 then .instr (.selp (fld 15 7 w) (fld 7 8 w) (fld 0 7 w))
      else .reject .unusedField
  | 20 => .instr (.lea (fld 22 1 w) (fld 15 7 w) (fld 7 8 w) (fld 0 7 w))
  | 21 => if w / 2 ^ 0 % 2 ^ 7 = 0 ∧ w / 2 ^ 22 % 2 ^ 1 = 0 then .instr (.mov (fld 15 7 w) (fld 7 8 w))
      else .reject .unusedField
  | _ => .reject .unassignedMinor

/-- Decodes the V3 floating-point words, major 0x3: one arm for each assigned minor (R268). -/
def decodeFloat (minor w : Nat) : Decoded :=
  match minor with
  | 0 => if w / 2 ^ 22 % 2 ^ 1 = 0 then .instr (.fadd (fld 15 7 w) (fld 7 8 w) (fld 0 7 w))
      else .reject .unusedField
  | 1 => if w / 2 ^ 22 % 2 ^ 1 = 0 then .instr (.fsub (fld 15 7 w) (fld 7 8 w) (fld 0 7 w))
      else .reject .unusedField
  | 2 => if w / 2 ^ 22 % 2 ^ 1 = 0 then .instr (.fmul (fld 15 7 w) (fld 7 8 w) (fld 0 7 w))
      else .reject .unusedField
  | 3 => if w / 2 ^ 22 % 2 ^ 1 = 0 then .instr (.ffma (fld 15 7 w) (fld 7 8 w) (fld 0 7 w))
      else .reject .unusedField
  | 4 => if w / 2 ^ 22 % 2 ^ 1 = 0 then .instr (.ffmay (fld 15 7 w) (fld 7 8 w) (fld 0 7 w))
      else .reject .unusedField
  | 5 => if w / 2 ^ 22 % 2 ^ 1 = 0 then .instr (.fmin (fld 15 7 w) (fld 7 8 w) (fld 0 7 w))
      else .reject .unusedField
  | 6 => if w / 2 ^ 22 % 2 ^ 1 = 0 then .instr (.fmax (fld 15 7 w) (fld 7 8 w) (fld 0 7 w))
      else .reject .unusedField
  | 7 => if w / 2 ^ 22 % 2 ^ 1 = 0 then .instr (.fscale (fld 15 7 w) (fld 7 8 w) (fld 0 7 w))
      else .reject .unusedField
  | 8 => if w / 2 ^ 0 % 2 ^ 7 = 0 ∧ w / 2 ^ 22 % 2 ^ 1 = 0 then .instr (.fclass (fld 15 7 w) (fld 7 8 w))
      else .reject .unusedField
  | 9 => .instr (.hadd2 (fld 22 1 w) (fld 15 7 w) (fld 7 8 w) (fld 0 7 w))
  | 10 => .instr (.hmul2 (fld 22 1 w) (fld 15 7 w) (fld 7 8 w) (fld 0 7 w))
  | 11 => .instr (.hfma2 (fld 22 1 w) (fld 15 7 w) (fld 7 8 w) (fld 0 7 w))
  | _ => .reject .unassignedMinor

/-- Decodes the VI immediate words, major 0x4: one arm for each assigned minor (R268). -/
def decodeImm (minor w : Nat) : Decoded :=
  match minor with
  | 0 => .instr (.iaddImm (fld 16 7 w) (fld 8 8 w) (fld 0 8 w))
  | 1 => .instr (.imulImm (fld 16 7 w) (fld 8 8 w) (fld 0 8 w))
  | 2 => .instr (.iminImm (fld 16 7 w) (fld 8 8 w) (fld 0 8 w))
  | 3 => .instr (.imaxImm (fld 16 7 w) (fld 8 8 w) (fld 0 8 w))
  | 4 => .instr (.andImm (fld 16 7 w) (fld 8 8 w) (fld 0 8 w))
  | 5 => .instr (.orImm (fld 16 7 w) (fld 8 8 w) (fld 0 8 w))
  | 6 => .instr (.xorImm (fld 16 7 w) (fld 8 8 w) (fld 0 8 w))
  | 7 => .instr (.shlImm (fld 16 7 w) (fld 8 8 w) (fld 0 8 w))
  | 8 => .instr (.shrImm (fld 16 7 w) (fld 8 8 w) (fld 0 8 w))
  | 9 => .instr (.shraImm (fld 16 7 w) (fld 8 8 w) (fld 0 8 w))
  | 10 => if w / 2 ^ 8 % 2 ^ 8 = 0 then .instr (.movImm (fld 16 7 w) (fld 0 8 w))
      else .reject .unusedField
  | 11 => .instr (.faddImm (fld 16 7 w) (fld 8 8 w) (fld 0 8 w))
  | 12 => .instr (.fmulImm (fld 16 7 w) (fld 8 8 w) (fld 0 8 w))
  | 13 => .instr (.fminImm (fld 16 7 w) (fld 8 8 w) (fld 0 8 w))
  | 14 => .instr (.fmaxImm (fld 16 7 w) (fld 8 8 w) (fld 0 8 w))
  | 15 => .instr (.ffmaImm (fld 16 7 w) (fld 8 8 w) (fld 0 8 w))
  | _ => .reject .unassignedMinor

/-- Decodes the predicate and lane words, major 0x5: one arm for each assigned minor (R268). -/
def decodePred (minor w : Nat) : Decoded :=
  match minor with
  | 0 => .instr (.icmpEq (fld 18 5 w) (fld 16 2 w) (fld 8 8 w) (fld 0 8 w))
  | 1 => .instr (.icmpNe (fld 18 5 w) (fld 16 2 w) (fld 8 8 w) (fld 0 8 w))
  | 2 => .instr (.icmpLt (fld 18 5 w) (fld 16 2 w) (fld 8 8 w) (fld 0 8 w))
  | 3 => .instr (.icmpLe (fld 18 5 w) (fld 16 2 w) (fld 8 8 w) (fld 0 8 w))
  | 4 => .instr (.icmpGt (fld 18 5 w) (fld 16 2 w) (fld 8 8 w) (fld 0 8 w))
  | 5 => .instr (.icmpGe (fld 18 5 w) (fld 16 2 w) (fld 8 8 w) (fld 0 8 w))
  | 6 => .instr (.icmpLtu (fld 18 5 w) (fld 16 2 w) (fld 8 8 w) (fld 0 8 w))
  | 7 => .instr (.icmpLeu (fld 18 5 w) (fld 16 2 w) (fld 8 8 w) (fld 0 8 w))
  | 8 => .instr (.icmpGtu (fld 18 5 w) (fld 16 2 w) (fld 8 8 w) (fld 0 8 w))
  | 9 => .instr (.icmpGeu (fld 18 5 w) (fld 16 2 w) (fld 8 8 w) (fld 0 8 w))
  | 10 => .instr (.fcmpEq (fld 18 5 w) (fld 16 2 w) (fld 8 8 w) (fld 0 8 w))
  | 11 => .instr (.fcmpNe (fld 18 5 w) (fld 16 2 w) (fld 8 8 w) (fld 0 8 w))
  | 12 => .instr (.fcmpLt (fld 18 5 w) (fld 16 2 w) (fld 8 8 w) (fld 0 8 w))
  | 13 => .instr (.fcmpLe (fld 18 5 w) (fld 16 2 w) (fld 8 8 w) (fld 0 8 w))
  | 14 => .instr (.fcmpGt (fld 18 5 w) (fld 16 2 w) (fld 8 8 w) (fld 0 8 w))
  | 15 => .instr (.fcmpGe (fld 18 5 w) (fld 16 2 w) (fld 8 8 w) (fld 0 8 w))
  | 16 => .instr (.fcmpNum (fld 18 5 w) (fld 16 2 w) (fld 8 8 w) (fld 0 8 w))
  | 17 => .instr (.fcmpNan (fld 18 5 w) (fld 16 2 w) (fld 8 8 w) (fld 0 8 w))
  | 18 => if w / 2 ^ 0 % 2 ^ 2 = 0 then .instr (.plop (fld 18 5 w) (fld 16 2 w) (fld 11 5 w) (fld 6 5 w) (fld 2 4 w))
      else .reject .unusedField
  | 19 => if w / 2 ^ 0 % 2 ^ 8 = 0 then .instr (.pset (fld 18 5 w) (fld 16 2 w) (fld 8 8 w))
      else .reject .unusedField
  | 20 =>
    if w / 2 ^ 5 % 2 ^ 10 = 0 ∧ w / 2 ^ 20 % 2 ^ 3 = 0 then .instr (.ballot (fld 15 5 w) (fld 0 5 w))
    else if w / 2 ^ 5 % 2 ^ 10 = 0 ∧ w / 2 ^ 22 % 2 = 0 then .reject .operandField
    else .reject .unusedField
  | 21 => if w / 2 ^ 0 % 2 ^ 8 = 0 ∧ w / 2 ^ 13 % 2 ^ 3 = 0 then .instr (.vote (fld 18 5 w) (fld 16 2 w) (fld 8 5 w))
      else .reject .unusedField
  | 22 => .instr (.shfl (fld 22 1 w) (fld 15 7 w) (fld 7 8 w) (fld 0 7 w))
  | 23 => if w / 2 ^ 2 % 2 ^ 5 = 0 ∧ w / 2 ^ 22 % 2 ^ 1 = 0 then .instr (.qswap (fld 15 7 w) (fld 7 8 w) (fld 0 2 w))
      else .reject .unusedField
  | 24 => if w / 2 ^ 2 % 2 ^ 5 = 0 ∧ w / 2 ^ 22 % 2 ^ 1 = 0 then .instr (.qbcast (fld 15 7 w) (fld 7 8 w) (fld 0 2 w))
      else .reject .unusedField
  | 25 => if w / 2 ^ 0 % 2 ^ 15 = 0 ∧ w / 2 ^ 20 % 2 ^ 3 = 0 then .instr (.maskrd (fld 15 5 w))
      else .reject .unusedField
  | 26 => if w / 2 ^ 0 % 2 ^ 7 = 0 ∧ w / 2 ^ 15 % 2 ^ 8 = 0 then .instr (.maskwr (fld 7 8 w))
      else .reject .unusedField
  | _ => .reject .unassignedMinor

/-- Decodes the conversion, special-function and generator words, major 0x6: one arm for each assigned minor (R268). -/
def decodeConv (minor w : Nat) : Decoded :=
  match minor with
  | 0 => .instr (.cvt (cvtFormat w) (fld 15 7 w) (fld 7 8 w) (fld 0 4 w))
  | 1 => .instr (.cvtsr (cvtFormat w) (fld 15 7 w) (fld 7 8 w) (fld 0 4 w))
  | 2 => if w / 2 ^ 0 % 2 ^ 7 = 0 ∧ w / 2 ^ 22 % 2 ^ 1 = 0 then .instr (.exp2 (fld 15 7 w) (fld 7 8 w))
      else .reject .unusedField
  | 3 => if w / 2 ^ 0 % 2 ^ 7 = 0 ∧ w / 2 ^ 22 % 2 ^ 1 = 0 then .instr (.log2 (fld 15 7 w) (fld 7 8 w))
      else .reject .unusedField
  | 4 => if w / 2 ^ 0 % 2 ^ 7 = 0 ∧ w / 2 ^ 22 % 2 ^ 1 = 0 then .instr (.rcp (fld 15 7 w) (fld 7 8 w))
      else .reject .unusedField
  | 5 => if w / 2 ^ 0 % 2 ^ 7 = 0 ∧ w / 2 ^ 22 % 2 ^ 1 = 0 then .instr (.rsqrt (fld 15 7 w) (fld 7 8 w))
      else .reject .unusedField
  | 6 => if w / 2 ^ 0 % 2 ^ 7 = 0 ∧ w / 2 ^ 22 % 2 ^ 1 = 0 then .instr (.sqrt (fld 15 7 w) (fld 7 8 w))
      else .reject .unusedField
  | 7 => if w / 2 ^ 0 % 2 ^ 7 = 0 ∧ w / 2 ^ 22 % 2 ^ 1 = 0 then .instr (.sinpi (fld 15 7 w) (fld 7 8 w))
      else .reject .unusedField
  | 8 => if w / 2 ^ 0 % 2 ^ 7 = 0 ∧ w / 2 ^ 22 % 2 ^ 1 = 0 then .instr (.cospi (fld 15 7 w) (fld 7 8 w))
      else .reject .unusedField
  | 9 => if w / 2 ^ 2 % 2 ^ 13 = 0 ∧ w / 2 ^ 22 % 2 ^ 1 = 0 then .instr (.rng (fld 15 7 w) (fld 0 2 w))
      else .reject .unusedField
  | 10 => if w / 2 ^ 0 % 2 ^ 15 = 0 ∧ w / 2 ^ 20 % 2 ^ 3 = 0 then .instr (.rngsave (fld 15 5 w))
      else .reject .unusedField
  | 11 => if w / 2 ^ 0 % 2 ^ 7 = 0 ∧ w / 2 ^ 15 % 2 ^ 8 = 0 then .instr (.rngset (fld 7 8 w))
      else .reject .unusedField
  | _ => .reject .unassignedMinor

/-- Decodes the M memory words, major 0x7: one arm for each assigned minor (R268). -/
def decodeMemory (minor w : Nat) : Decoded :=
  match minor with
  | 0 => .instr (.ldU8 (fld 22 1 w) (fld 15 7 w) (fld 7 8 w) (fld 0 7 w))
  | 1 => .instr (.ldS8 (fld 22 1 w) (fld 15 7 w) (fld 7 8 w) (fld 0 7 w))
  | 2 => .instr (.ldU16 (fld 22 1 w) (fld 15 7 w) (fld 7 8 w) (fld 0 7 w))
  | 3 => .instr (.ldS16 (fld 22 1 w) (fld 15 7 w) (fld 7 8 w) (fld 0 7 w))
  | 4 => .instr (.ldB32 (fld 22 1 w) (fld 15 7 w) (fld 7 8 w) (fld 0 7 w))
  | 5 => .instr (.ldB64 (fld 22 1 w) (fld 15 7 w) (fld 7 8 w) (fld 0 7 w))
  | 6 => if w / 2 ^ 22 % 2 ^ 1 = 0 then .instr (.stB8 (fld 15 7 w) (fld 7 8 w) (fld 0 7 w))
      else .reject .unusedField
  | 7 => if w / 2 ^ 22 % 2 ^ 1 = 0 then .instr (.stB16 (fld 15 7 w) (fld 7 8 w) (fld 0 7 w))
      else .reject .unusedField
  | 8 => if w / 2 ^ 22 % 2 ^ 1 = 0 then .instr (.stB32 (fld 15 7 w) (fld 7 8 w) (fld 0 7 w))
      else .reject .unusedField
  | 9 => if w / 2 ^ 22 % 2 ^ 1 = 0 then .instr (.stB64 (fld 15 7 w) (fld 7 8 w) (fld 0 7 w))
      else .reject .unusedField
  | 10 => .instr (.ldsU8 (fld 22 1 w) (fld 15 7 w) (fld 7 8 w) (fld 0 7 w))
  | 11 => .instr (.ldsS8 (fld 22 1 w) (fld 15 7 w) (fld 7 8 w) (fld 0 7 w))
  | 12 => .instr (.ldsU16 (fld 22 1 w) (fld 15 7 w) (fld 7 8 w) (fld 0 7 w))
  | 13 => .instr (.ldsS16 (fld 22 1 w) (fld 15 7 w) (fld 7 8 w) (fld 0 7 w))
  | 14 => .instr (.ldsB32 (fld 22 1 w) (fld 15 7 w) (fld 7 8 w) (fld 0 7 w))
  | 15 => .instr (.ldsB64 (fld 22 1 w) (fld 15 7 w) (fld 7 8 w) (fld 0 7 w))
  | 16 => if w / 2 ^ 22 % 2 ^ 1 = 0 then .instr (.stsB8 (fld 15 7 w) (fld 7 8 w) (fld 0 7 w))
      else .reject .unusedField
  | 17 => if w / 2 ^ 22 % 2 ^ 1 = 0 then .instr (.stsB16 (fld 15 7 w) (fld 7 8 w) (fld 0 7 w))
      else .reject .unusedField
  | 18 => if w / 2 ^ 22 % 2 ^ 1 = 0 then .instr (.stsB32 (fld 15 7 w) (fld 7 8 w) (fld 0 7 w))
      else .reject .unusedField
  | 19 => if w / 2 ^ 22 % 2 ^ 1 = 0 then .instr (.stsB64 (fld 15 7 w) (fld 7 8 w) (fld 0 7 w))
      else .reject .unusedField
  | 20 => .instr (.ldp (fld 22 1 w) (fld 15 7 w) (fld 7 8 w) (fld 0 7 w))
  | 21 => .instr (.ldpMid (fld 22 1 w) (fld 15 7 w) (fld 7 8 w) (fld 0 7 w))
  | 22 => .instr (.refine (fld 22 1 w) (fld 15 7 w) (fld 7 8 w) (fld 0 7 w))
  | 23 => if w / 2 ^ 0 % 2 ^ 7 = 0 then .instr (.stp (fld 22 1 w) (fld 15 7 w) (fld 7 8 w))
      else .reject .unusedField
  | 24 => if w / 2 ^ 22 % 2 ^ 1 = 0 then .instr (.cstoreB32 (fld 15 7 w) (fld 7 8 w) (fld 0 7 w))
      else .reject .unusedField
  | 25 => if w / 2 ^ 22 % 2 ^ 1 = 0 then .instr (.cstoreB64 (fld 15 7 w) (fld 7 8 w) (fld 0 7 w))
      else .reject .unusedField
  | 26 => .instr (.xload (fld 22 1 w) (fld 15 7 w) (fld 7 8 w) (fld 0 7 w))
  | 27 => if w / 2 ^ 17 % 2 ^ 6 = 0 then .instr (.pref (fld 15 2 w) (fld 7 8 w) (fld 0 7 w))
      else .reject .unusedField
  | _ => .reject .unassignedMinor

/-- Decodes the atomics and ordering, major 0x8: one arm for each assigned minor (R268). -/
def decodeAtomic (minor w : Nat) : Decoded :=
  match minor with
  | 0 => if w / 2 ^ 0 % 2 ^ 1 = 0 then .instr (.atom (fld 22 1 w) (fld 15 7 w) (fld 7 8 w) (fld 2 5 w) (fld 1 1 w))
      else .reject .unusedField
  | 1 => if w / 2 ^ 0 % 2 ^ 1 = 0 ∧ w / 2 ^ 2 % 2 ^ 5 = 0 then .instr (.acas (fld 22 1 w) (fld 15 7 w) (fld 7 8 w) (fld 1 1 w))
      else .reject .unusedField
  | 2 => if w / 2 ^ 0 % 2 ^ 1 = 0 ∧ w / 2 ^ 22 % 2 ^ 1 = 0 then .instr (.red (fld 15 7 w) (fld 7 8 w) (fld 2 5 w) (fld 1 1 w))
      else .reject .unusedField
  | 3 => if w / 2 ^ 0 % 2 ^ 1 = 0 then .instr (.atoms (fld 22 1 w) (fld 15 7 w) (fld 7 8 w) (fld 2 5 w) (fld 1 1 w))
      else .reject .unusedField
  | 4 => if w / 2 ^ 3 % 2 ^ 18 = 0 then .instr (.fence (fld 21 2 w) (fld 0 3 w))
      else .reject .unusedField
  | 5 => if w / 2 ^ 6 % 2 ^ 17 = 0 then .instr (.fencex (fld 3 3 w) (fld 0 3 w))
      else .reject .unusedField
  | _ => .reject .unassignedMinor

/-- Decodes the control words, major 0x9: one arm for each assigned minor (R268). -/
def decodeControl (minor w : Nat) : Decoded :=
  match minor with
  | 0 => if w / 2 ^ 17 % 2 ^ 6 = 62 then .instr (.bra (fld 0 17 w))
      else .reject .unusedField
  | 1 => .instr (.brc (fld 18 5 w) (fld 17 1 w) (fld 0 17 w))
  | 2 => if w / 2 ^ 0 % 2 ^ 7 = 0 ∧ w / 2 ^ 15 % 2 ^ 8 = 0 then .instr (.brx (fld 7 8 w))
      else .reject .unusedField
  | 3 => if w / 2 ^ 17 % 2 ^ 6 = 62 then .instr (.call (fld 0 17 w))
      else .reject .unusedField
  | 4 => if w / 2 ^ 0 % 2 ^ 23 = 0 then .instr .ret
      else .reject .unusedField
  | 5 => if w / 2 ^ 0 % 2 ^ 23 = 0 then .instr .exit
      else .reject .unusedField
  | 6 => if w / 2 ^ 0 % 2 ^ 23 = 0 then .instr .bar
      else .reject .unusedField
  | 7 => if w / 2 ^ 0 % 2 ^ 23 = 0 then .instr .barc
      else .reject .unusedField
  | 8 => if w / 2 ^ 17 % 2 ^ 1 = 0 then .instr (.yield (fld 18 5 w) (fld 0 17 w))
      else .reject .unusedField
  | 9 => if w / 2 ^ 16 % 2 ^ 7 = 0 then .instr (.trap (fld 0 16 w))
      else .reject .unusedField
  | 10 => if w / 2 ^ 0 % 2 ^ 15 = 0 ∧ w / 2 ^ 21 % 2 ^ 2 = 0 then .instr (.spawn (fld 15 6 w))
      else .reject .unusedField
  | 11 => if w / 2 ^ 0 % 2 ^ 23 = 0 then .instr .joinw
      else .reject .unusedField
  | 12 => if w / 2 ^ 0 % 2 ^ 23 = 0 then .instr .stepmark
      else .reject .unusedField
  | 13 => if w / 2 ^ 0 % 2 ^ 15 = 0 ∧ w / 2 ^ 21 % 2 ^ 2 = 0 then .instr (.dqpop (fld 15 6 w))
      else .reject .unusedField
  | 14 => if w / 2 ^ 0 % 2 ^ 23 = 0 then .instr .nop
      else .reject .unusedField
  | _ => .reject .unassignedMinor

/-- Decodes the MX matrix and skim words, major 0xA: one arm for each assigned minor (R268). -/
def decodeMatrix (minor w : Nat) : Decoded :=
  match minor with
  | 0 => if w / 2 ^ 5 % 2 ^ 7 = 0 ∧ w / 2 ^ 17 % 2 ^ 6 = 0 then .instr (.shape (fld 12 5 w) (fld 0 5 w))
      else .reject .unusedField
  | 1 => if w / 2 ^ 0 % 2 ^ 5 = 0 then .instr (.mma (fld 19 4 w) (fld 12 7 w) (fld 5 7 w))
      else .reject .unusedField
  | 2 => if w / 2 ^ 0 % 2 ^ 5 = 0 ∧ w / 2 ^ 10 % 2 ^ 2 = 0 ∧ w / 2 ^ 17 % 2 ^ 2 = 0 then .instr (.mmaPlane (fld 19 4 w) (fld 12 5 w) (fld 5 5 w))
      else .reject .unusedField
  | 3 => .instr (.mmas (fld 19 4 w) (fld 12 7 w) (fld 5 7 w) (fld 0 5 w))
  | 4 => if w / 2 ^ 0 % 2 ^ 5 = 0 then .instr (.mmanN2 (fld 19 4 w) (fld 12 7 w) (fld 5 7 w))
      else .reject .unusedField
  | 5 => if w / 2 ^ 0 % 2 ^ 5 = 0 then .instr (.mmanN4 (fld 19 4 w) (fld 12 7 w) (fld 5 7 w))
      else .reject .unusedField
  | 6 => if w / 2 ^ 0 % 2 ^ 5 = 0 then .instr (.mmanN8 (fld 19 4 w) (fld 12 7 w) (fld 5 7 w))
      else .reject .unusedField
  | 7 => if w / 2 ^ 5 % 2 ^ 18 = 0 then .instr (.mmab (fld 0 5 w))
      else .reject .unusedField
  | 8 => if w / 2 ^ 0 % 2 ^ 23 = 0 then .instr .mfence
      else .reject .unusedField
  | 9 => if w / 2 ^ 5 % 2 ^ 18 = 0 then .instr (.mfenceGd (fld 0 5 w))
      else .reject .unusedField
  | 10 => if w / 2 ^ 4 % 2 ^ 19 = 0 then .instr (.mwait (fld 0 4 w))
      else .reject .unusedField
  | 11 => if w / 2 ^ 0 % 2 ^ 23 = 0 then .instr .mwaitAll
      else .reject .unusedField
  | 12 => if w / 2 ^ 5 % 2 ^ 14 = 0 then .instr (.accld (fld 19 4 w) (fld 0 5 w))
      else .reject .unusedField
  | 13 => if w / 2 ^ 5 % 2 ^ 14 = 0 then .instr (.accst (fld 19 4 w) (fld 0 5 w))
      else .reject .unusedField
  | 14 => if w / 2 ^ 3 % 2 ^ 2 = 0 then .instr (.accldR (fld 19 4 w) (fld 12 7 w) (fld 5 7 w) (fld 0 3 w))
      else .reject .unusedField
  | 15 => if w / 2 ^ 3 % 2 ^ 2 = 0 then .instr (.accstR (fld 19 4 w) (fld 12 7 w) (fld 5 7 w) (fld 0 3 w))
      else .reject .unusedField
  | 16 => if w / 2 ^ 0 % 2 ^ 19 = 0 then .instr (.accz (fld 19 4 w))
      else .reject .unusedField
  | 17 => if w / 2 ^ 0 % 2 ^ 12 = 0 ∧ w / 2 ^ 16 % 2 ^ 3 = 0 then .instr (.accmov (fld 19 4 w) (fld 12 4 w))
      else .reject .unusedField
  | 18 => if w / 2 ^ 0 % 2 ^ 2 = 0 then .instr (.skimchk (fld 22 1 w) (fld 17 5 w) (fld 12 5 w) (fld 7 5 w) (fld 2 5 w))
      else .reject .unusedField
  | 19 => if w / 2 ^ 0 % 2 ^ 2 = 0 ∧ w / 2 ^ 17 % 2 ^ 5 = 0 then .instr (.skimput (fld 22 1 w) (fld 12 5 w) (fld 7 5 w) (fld 2 5 w))
      else .reject .unusedField
  | 20 => if w / 2 ^ 0 % 2 ^ 2 = 0 ∧ w / 2 ^ 4 % 2 ^ 3 = 0 ∧ w / 2 ^ 12 % 2 ^ 11 = 0 then .instr (.skimrd (fld 7 5 w) (fld 2 2 w))
      else .reject .unusedField
  | 21 => if w / 2 ^ 0 % 2 ^ 2 = 0 ∧ w / 2 ^ 4 % 2 ^ 3 = 0 ∧ w / 2 ^ 12 % 2 ^ 11 = 0 then .instr (.skimrdClr (fld 7 5 w) (fld 2 2 w))
      else .reject .unusedField
  | _ => .reject .unassignedMinor

/-- Decodes the E engine and queue words, major 0xB: one arm for each assigned minor (R268). -/
def decodeEngine (minor w : Nat) : Decoded :=
  match minor with
  | 0 => if w / 2 ^ 0 % 2 ^ 15 = 0 then .instr (.copy (fld 22 1 w) (fld 21 1 w) (fld 15 6 w))
      else .reject .unusedField
  | 1 => if w / 2 ^ 0 % 2 ^ 3 = 0 ∧ w / 2 ^ 21 % 2 ^ 1 = 0 then .instr (.pcopy (fld 22 1 w) (fld 15 6 w) (fld 9 6 w) (fld 3 6 w))
      else .reject .unusedField
  | 2 => if w / 2 ^ 0 % 2 ^ 15 = 0 then .instr (.mcast (fld 22 1 w) (fld 21 1 w) (fld 15 6 w))
      else .reject .unusedField
  | 3 => if w / 2 ^ 0 % 2 ^ 15 = 0 ∧ w / 2 ^ 21 % 2 ^ 1 = 0 then .instr (.gather (fld 22 1 w) (fld 15 6 w))
      else .reject .unusedField
  | 4 => if w / 2 ^ 0 % 2 ^ 15 = 0 ∧ w / 2 ^ 21 % 2 ^ 1 = 0 then .instr (.scatter (fld 22 1 w) (fld 15 6 w))
      else .reject .unusedField
  | 5 => if w / 2 ^ 4 % 2 ^ 11 = 0 ∧ w / 2 ^ 21 % 2 ^ 2 = 0 then .instr (.qpush (fld 15 6 w) (fld 0 4 w))
      else .reject .unusedField
  | 6 => if w / 2 ^ 4 % 2 ^ 11 = 0 ∧ w / 2 ^ 21 % 2 ^ 2 = 0 then .instr (.qpop (fld 15 6 w) (fld 0 4 w))
      else .reject .unusedField
  | 7 => if w / 2 ^ 9 % 2 ^ 6 = 0 ∧ w / 2 ^ 21 % 2 ^ 2 = 0 then .instr (.qtry (fld 15 6 w) (fld 4 5 w) (fld 0 4 w))
      else .reject .unusedField
  | 8 => if w / 2 ^ 22 % 2 ^ 1 = 0 then .instr (.qallow (fld 21 1 w) (fld 15 6 w) (fld 4 11 w) (fld 0 4 w))
      else .reject .unusedField
  | 9 => if w / 2 ^ 0 % 2 ^ 9 = 0 ∧ w / 2 ^ 21 % 2 ^ 2 = 0 then .instr (.fillclr (fld 15 6 w) (fld 9 6 w))
      else .reject .unusedField
  | 10 => if w / 2 ^ 5 % 2 ^ 4 = 0 ∧ w / 2 ^ 21 % 2 ^ 2 = 0 then .instr (.filltst (fld 15 6 w) (fld 9 6 w) (fld 0 5 w))
      else .reject .unusedField
  | _ => .reject .unassignedMinor

/-- Decodes the sort and select words, major 0xC: one arm for each assigned minor (R268). -/
def decodeSort (minor w : Nat) : Decoded :=
  match minor with
  | 0 => if w / 2 ^ 0 % 2 ^ 7 = 0 then .instr (.sort64 (fld 22 1 w) (fld 15 7 w) (fld 7 8 w))
      else .reject .unusedField
  | 1 => .instr (.merge (fld 22 1 w) (fld 15 7 w) (fld 7 8 w) (fld 0 7 w))
  | 2 => if w / 2 ^ 22 % 2 ^ 1 = 0 then .instr (.topk (fld 15 7 w) (fld 7 8 w) (fld 0 7 w))
      else if w / 2 ^ 0 % 2 ^ 7 = 0 ∧ w / 2 ^ 15 % 2 ^ 8 = 128 then .instr (.topkFin (fld 7 8 w))
      else .reject .operandField
  | 3 => .instr (.selth (fld 22 1 w) (fld 15 7 w) (fld 7 8 w) (fld 0 7 w))
  | 4 => if w / 2 ^ 2 % 2 ^ 5 = 0 then .instr (.argmax (fld 22 1 w) (fld 15 7 w) (fld 7 8 w) (fld 0 2 w))
      else .reject .unusedField
  | 5 => if w / 2 ^ 2 % 2 ^ 2 = 0 ∧ w / 2 ^ 22 % 2 ^ 1 = 0 then .instr (.redux (fld 15 7 w) (fld 7 8 w) (fld 4 3 w) (fld 0 2 w))
      else .reject .operandField
  | 6 => if w / 2 ^ 2 % 2 ^ 2 = 0 then .instr (.scan (fld 22 1 w) (fld 15 7 w) (fld 7 8 w) (fld 4 3 w) (fld 0 2 w))
      else .reject .operandField
  | _ => .reject .unassignedMinor

/-- Decodes the K hawk words, major 0xD: one arm for each assigned minor (R268). -/
def decodeHawk (minor w : Nat) : Decoded :=
  match minor with
  | 0 => .instr (.kadd (fld 22 1 w) (fld 16 6 w) (fld 10 6 w) (fld 0 10 w))
  | 1 => .instr (.ksub (fld 22 1 w) (fld 16 6 w) (fld 10 6 w) (fld 0 10 w))
  | 2 => .instr (.kmul (fld 22 1 w) (fld 16 6 w) (fld 10 6 w) (fld 0 10 w))
  | 3 => .instr (.kand (fld 22 1 w) (fld 16 6 w) (fld 10 6 w) (fld 0 10 w))
  | 4 => .instr (.kor (fld 22 1 w) (fld 16 6 w) (fld 10 6 w) (fld 0 10 w))
  | 5 => .instr (.kxor (fld 22 1 w) (fld 16 6 w) (fld 10 6 w) (fld 0 10 w))
  | 6 => .instr (.kshl (fld 22 1 w) (fld 16 6 w) (fld 10 6 w) (fld 0 10 w))
  | 7 => .instr (.kshr (fld 22 1 w) (fld 16 6 w) (fld 10 6 w) (fld 0 10 w))
  | 8 => if w / 2 ^ 10 % 2 ^ 6 = 0 then .instr (.kmov (fld 22 1 w) (fld 16 6 w) (fld 0 10 w))
      else .reject .unusedField
  | 9 => .instr (.kld (fld 22 1 w) (fld 16 6 w) (fld 10 6 w) (fld 0 10 w))
  | 10 => if w / 2 ^ 22 % 2 ^ 1 = 0 then .instr (.kst (fld 16 6 w) (fld 10 6 w) (fld 0 10 w))
      else .reject .unusedField
  | 11 => if w / 2 ^ 0 % 2 ^ 4 = 0 ∧ w / 2 ^ 22 % 2 ^ 1 = 0 then .instr (.kstAtomic (fld 16 6 w) (fld 10 6 w) (fld 5 5 w) (fld 4 1 w))
      else .reject .unusedField
  | 12 => .instr (.kcmp (fld 22 1 w) (fld 19 3 w) (fld 16 3 w) (fld 10 6 w) (fld 0 10 w))
  | 13 => if w / 2 ^ 17 % 2 ^ 1 = 0 then .instr (.kbr (fld 22 1 w) (fld 19 3 w) (fld 18 1 w) (fld 0 17 w))
      else .reject .unusedField
  | 14 => if w / 2 ^ 17 % 2 ^ 6 = 0 then .instr (.kcall (fld 0 17 w))
      else .reject .unusedField
  | 15 => if w / 2 ^ 0 % 2 ^ 23 = 0 then .instr .kret
      else .reject .unusedField
  | 16 => if w / 2 ^ 12 % 2 ^ 11 = 0 then .instr (.kwait (fld 0 12 w))
      else .reject .unusedField
  | 17 => if w / 2 ^ 0 % 2 ^ 23 = 0 then .instr .kstop
      else .reject .unusedField
  | 18 => if w / 2 ^ 5 % 2 ^ 5 = 0 ∧ w / 2 ^ 16 % 2 ^ 7 = 0 then .instr (.dqpush (fld 10 6 w) (fld 4 1 w) (fld 0 4 w))
      else .reject .unusedField
  | 19 => if w / 2 ^ 0 % 2 ^ 10 = 0 ∧ w / 2 ^ 22 % 2 ^ 1 = 0 then .instr (.launch (fld 16 6 w) (fld 10 6 w))
      else .reject .unusedField
  | _ => .reject .unassignedMinor

/-- Decodes the S system and range words, major 0xE: one arm for each assigned minor (R268). -/
def decodeSystem (minor w : Nat) : Decoded :=
  match minor with
  | 0 => if w / 2 ^ 0 % 2 ^ 15 = 0 ∧ w / 2 ^ 21 % 2 ^ 2 = 0 then .instr (.rgsplit (fld 15 6 w))
      else .reject .unusedField
  | 1 => if w / 2 ^ 0 % 2 ^ 15 = 0 ∧ w / 2 ^ 21 % 2 ^ 2 = 0 then .instr (.rgmerge (fld 15 6 w))
      else .reject .unusedField
  | 2 => if w / 2 ^ 0 % 2 ^ 9 = 0 ∧ w / 2 ^ 21 % 2 ^ 2 = 0 then .instr (.rgtrim (fld 15 6 w) (fld 9 6 w))
      else .reject .unusedField
  | 3 => if w / 2 ^ 0 % 2 ^ 9 = 0 ∧ w / 2 ^ 21 % 2 ^ 2 = 0 then .instr (.rggrow (fld 15 6 w) (fld 9 6 w))
      else .reject .unusedField
  | 4 => if w / 2 ^ 0 % 2 ^ 15 = 0 ∧ w / 2 ^ 21 % 2 ^ 2 = 0 then .instr (.rginv (fld 15 6 w))
      else if w / 2 ^ 0 % 2 ^ 15 = 0 ∧ w / 2 ^ 21 % 2 ^ 2 = 1 then .instr (.rginvDiscard (fld 15 6 w))
      else .reject .unusedField
  | 5 => if w / 2 ^ 3 % 2 ^ 6 = 0 ∧ w / 2 ^ 21 % 2 ^ 2 = 0 then .instr (.rgprobe (fld 15 6 w) (fld 9 6 w) (fld 0 3 w))
      else .reject .unusedField
  | 6 => if w / 2 ^ 0 % 2 ^ 9 = 0 ∧ w / 2 ^ 21 % 2 ^ 2 = 0 then .instr (.rgmigrIn (fld 15 6 w) (fld 9 6 w))
      else if w / 2 ^ 0 % 2 ^ 9 = 0 ∧ w / 2 ^ 21 % 2 ^ 2 = 1 then .instr (.rgmigrOut (fld 15 6 w) (fld 9 6 w))
      else if w / 2 ^ 0 % 2 ^ 9 = 0 ∧ w / 2 ^ 21 % 2 ^ 2 = 2 then .instr (.rgmigrMove (fld 15 6 w) (fld 9 6 w))
      else .reject .unusedField
  | 7 => if w / 2 ^ 0 % 2 ^ 15 = 0 ∧ w / 2 ^ 21 % 2 ^ 2 = 0 then .instr (.seal (fld 15 6 w))
      else .reject .unusedField
  | 8 => if w / 2 ^ 0 % 2 ^ 15 = 0 ∧ w / 2 ^ 21 % 2 ^ 2 = 0 then .instr (.unseal (fld 15 6 w))
      else .reject .unusedField
  | 9 => if w / 2 ^ 12 % 2 ^ 3 = 0 ∧ w / 2 ^ 21 % 2 ^ 2 = 0 then .instr (.csrd (fld 15 6 w) (fld 0 12 w))
      else .reject .unusedField
  | 10 => if w / 2 ^ 12 % 2 ^ 3 = 0 ∧ w / 2 ^ 21 % 2 ^ 2 = 0 then .instr (.cswr (fld 15 6 w) (fld 0 12 w))
      else .reject .unusedField
  | 11 => if w / 2 ^ 0 % 2 ^ 23 = 0 then .instr .eret
      else .reject .unusedField
  | 12 => if w / 2 ^ 0 % 2 ^ 23 = 0 then .instr .snap
      else .reject .unusedField
  | 13 => if w / 2 ^ 3 % 2 ^ 12 = 0 ∧ w / 2 ^ 21 % 2 ^ 2 = 0 then .instr (.fltrd (fld 15 6 w) (fld 0 3 w))
      else .reject .unusedField
  | _ => .reject .unassignedMinor

/-- Decodes a word of a clause that is not its header, by its major opcode (R262, R267, R268). -/
def decodeNat (w : Nat) : Decoded :=
  match w / 2 ^ 28 % 16 with
  | 1 => decodeHint (w / 2 ^ 25 % 8) w
  | 2 => decodeInteger (w / 2 ^ 23 % 32) w
  | 3 => decodeFloat (w / 2 ^ 23 % 32) w
  | 4 => decodeImm (w / 2 ^ 23 % 32) w
  | 5 => decodePred (w / 2 ^ 23 % 32) w
  | 6 => decodeConv (w / 2 ^ 23 % 32) w
  | 7 => decodeMemory (w / 2 ^ 23 % 32) w
  | 8 => decodeAtomic (w / 2 ^ 23 % 32) w
  | 9 => decodeControl (w / 2 ^ 23 % 32) w
  | 10 => decodeMatrix (w / 2 ^ 23 % 32) w
  | 11 => decodeEngine (w / 2 ^ 23 % 32) w
  | 12 => decodeSort (w / 2 ^ 23 % 32) w
  | 13 => decodeHawk (w / 2 ^ 23 % 32) w
  | 14 => decodeSystem (w / 2 ^ 23 % 32) w
  | _ => .reject .illegalMajor

/-- Decodes an instruction or hint word (R262). -/
def decodeWord (w : Word) : Decoded := decodeNat w.toNat

/-- Decodes a clause header (R257). Bit 0 is reserved and must be zero; the other reserved values (R258) are left to the
instruction's own check, which traps with ILLEGAL_CLAUSE. -/
def decodeHeader (w : Word) : Decoded :=
  let n := w.toNat
  if n % 2 = 0 then
    .instr (.clauseHeader (fld 20 12 n) (fld 16 4 n) (fld 12 4 n) (fld 9 3 n) (fld 4 5 n) (fld 3 1 n) (fld 2 1 n) (fld 1 1 n))
  else .reject .headerBit

/-- The four bytes of a word, the least significant at the lowest address (R3). -/
def wordBytes (w : Word) : List Byte :=
  [BitVec.ofNat 8 w.toNat, BitVec.ofNat 8 (w.toNat / 2 ^ 8), BitVec.ofNat 8 (w.toNat / 2 ^ 16), BitVec.ofNat 8 (w.toNat / 2 ^ 24)]

/-- The word that the first four bytes of a list hold (R3). -/
def wordOfBytes : List Byte → Option Word
  | b0 :: b1 :: b2 :: b3 :: _ =>
    some (BitVec.ofNat 32 (b0.toNat + b1.toNat * 2 ^ 8 + b2.toNat * 2 ^ 16 + b3.toNat * 2 ^ 24))
  | _ => none

/-- Decodes the bytes at an address. Where the machine expects a clause header (R257) the word is read as one, and
elsewhere as an instruction or hint. -/
def decodeBytes (atHeader : Bool) (bs : List Byte) : Decoded :=
  match wordOfBytes bs with
  | none => .reject .shortInput
  | some w => if atHeader then decodeHeader w else decodeWord w

/-- A word from its fixed bits and its fields, each a place and a value. -/
def packed (fixed : Nat) : List (Nat × Nat) → Nat
  | [] => fixed
  | (lo, v) :: fs => v * 2 ^ lo + packed fixed fs

/-- The word of an instruction, a hint or a clause header, as a number, by the layouts of R257, R262, R266 and R268; none
for an event, which has no word. -/
def encodeNat : Instr → Option Nat
  | .clauseHeader w a b l g n y k => some (packed 0x00000000 [(20, w.toNat), (16, a.toNat), (12, b.toNat), (9, l.toNat), (4, g.toNat), (3, n.toNat), (2, y.toNat), (1, k.toNat)])
  | .immxImmediate imm => some (packed 0x10000000 [(0, imm.toNat)])
  | .immxOperand e sc r p c => some (packed 0x11000000 [(16, e.toNat), (15, sc.toNat), (13, r.toNat), (8, p.toNat), (0, c.toNat)])
  | .xcache p => some (packed 0x12000000 [(0, p.toNat)])
  | .xscope q u sc o => some (packed 0x14000000 [(8, q.toNat), (5, u.toNat), (2, sc.toNat), (0, o.toNat)])
  | .xplane k => some (packed 0x16000000 [(0, k.toNat)])
  | .xnop => some (packed 0x18000000 [])
  | .mergeat o => some (packed 0x1A000000 [(0, o.toNat)])
  | .iadd m d a b => some (packed 0x20000000 [(22, m.toNat), (15, d.toNat), (7, a.toNat), (0, b.toNat)])
  | .isub m d a b => some (packed 0x20800000 [(22, m.toNat), (15, d.toNat), (7, a.toNat), (0, b.toNat)])
  | .imul d a b => some (packed 0x21000000 [(15, d.toNat), (7, a.toNat), (0, b.toNat)])
  | .imulhi m d a b => some (packed 0x21800000 [(22, m.toNat), (15, d.toNat), (7, a.toNat), (0, b.toNat)])
  | .imad m d a b => some (packed 0x22000000 [(22, m.toNat), (15, d.toNat), (7, a.toNat), (0, b.toNat)])
  | .imin m d a b => some (packed 0x22800000 [(22, m.toNat), (15, d.toNat), (7, a.toNat), (0, b.toNat)])
  | .imax m d a b => some (packed 0x23000000 [(22, m.toNat), (15, d.toNat), (7, a.toNat), (0, b.toNat)])
  | .iabs m d a => some (packed 0x23800000 [(22, m.toNat), (15, d.toNat), (7, a.toNat)])
  | .and d a b => some (packed 0x24000000 [(15, d.toNat), (7, a.toNat), (0, b.toNat)])
  | .or d a b => some (packed 0x24800000 [(15, d.toNat), (7, a.toNat), (0, b.toNat)])
  | .xor d a b => some (packed 0x25000000 [(15, d.toNat), (7, a.toNat), (0, b.toNat)])
  | .shl d a b => some (packed 0x25800000 [(15, d.toNat), (7, a.toNat), (0, b.toNat)])
  | .shr d a b => some (packed 0x26000000 [(15, d.toNat), (7, a.toNat), (0, b.toNat)])
  | .shra d a b => some (packed 0x26800000 [(15, d.toNat), (7, a.toNat), (0, b.toNat)])
  | .bfe m d a b => some (packed 0x27000000 [(22, m.toNat), (15, d.toNat), (7, a.toNat), (0, b.toNat)])
  | .bfi d a b => some (packed 0x27800000 [(15, d.toNat), (7, a.toNat), (0, b.toNat)])
  | .popc d a => some (packed 0x28000000 [(15, d.toNat), (7, a.toNat)])
  | .clz d a => some (packed 0x28800000 [(15, d.toNat), (7, a.toNat)])
  | .brev d a => some (packed 0x29000000 [(15, d.toNat), (7, a.toNat)])
  | .selp d a b => some (packed 0x29800000 [(15, d.toNat), (7, a.toNat), (0, b.toNat)])
  | .lea m d a b => some (packed 0x2A000000 [(22, m.toNat), (15, d.toNat), (7, a.toNat), (0, b.toNat)])
  | .mov d a => some (packed 0x2A800000 [(15, d.toNat), (7, a.toNat)])
  | .fadd d a b => some (packed 0x30000000 [(15, d.toNat), (7, a.toNat), (0, b.toNat)])
  | .fsub d a b => some (packed 0x30800000 [(15, d.toNat), (7, a.toNat), (0, b.toNat)])
  | .fmul d a b => some (packed 0x31000000 [(15, d.toNat), (7, a.toNat), (0, b.toNat)])
  | .ffma d a b => some (packed 0x31800000 [(15, d.toNat), (7, a.toNat), (0, b.toNat)])
  | .ffmay d a b => some (packed 0x32000000 [(15, d.toNat), (7, a.toNat), (0, b.toNat)])
  | .fmin d a b => some (packed 0x32800000 [(15, d.toNat), (7, a.toNat), (0, b.toNat)])
  | .fmax d a b => some (packed 0x33000000 [(15, d.toNat), (7, a.toNat), (0, b.toNat)])
  | .fscale d a b => some (packed 0x33800000 [(15, d.toNat), (7, a.toNat), (0, b.toNat)])
  | .fclass d a => some (packed 0x34000000 [(15, d.toNat), (7, a.toNat)])
  | .hadd2 m d a b => some (packed 0x34800000 [(22, m.toNat), (15, d.toNat), (7, a.toNat), (0, b.toNat)])
  | .hmul2 m d a b => some (packed 0x35000000 [(22, m.toNat), (15, d.toNat), (7, a.toNat), (0, b.toNat)])
  | .hfma2 m d a b => some (packed 0x35800000 [(22, m.toNat), (15, d.toNat), (7, a.toNat), (0, b.toNat)])
  | .iaddImm d a imm => some (packed 0x40000000 [(16, d.toNat), (8, a.toNat), (0, imm.toNat)])
  | .imulImm d a imm => some (packed 0x40800000 [(16, d.toNat), (8, a.toNat), (0, imm.toNat)])
  | .iminImm d a imm => some (packed 0x41000000 [(16, d.toNat), (8, a.toNat), (0, imm.toNat)])
  | .imaxImm d a imm => some (packed 0x41800000 [(16, d.toNat), (8, a.toNat), (0, imm.toNat)])
  | .andImm d a imm => some (packed 0x42000000 [(16, d.toNat), (8, a.toNat), (0, imm.toNat)])
  | .orImm d a imm => some (packed 0x42800000 [(16, d.toNat), (8, a.toNat), (0, imm.toNat)])
  | .xorImm d a imm => some (packed 0x43000000 [(16, d.toNat), (8, a.toNat), (0, imm.toNat)])
  | .shlImm d a imm => some (packed 0x43800000 [(16, d.toNat), (8, a.toNat), (0, imm.toNat)])
  | .shrImm d a imm => some (packed 0x44000000 [(16, d.toNat), (8, a.toNat), (0, imm.toNat)])
  | .shraImm d a imm => some (packed 0x44800000 [(16, d.toNat), (8, a.toNat), (0, imm.toNat)])
  | .movImm d imm => some (packed 0x45000000 [(16, d.toNat), (0, imm.toNat)])
  | .faddImm d a imm => some (packed 0x45800000 [(16, d.toNat), (8, a.toNat), (0, imm.toNat)])
  | .fmulImm d a imm => some (packed 0x46000000 [(16, d.toNat), (8, a.toNat), (0, imm.toNat)])
  | .fminImm d a imm => some (packed 0x46800000 [(16, d.toNat), (8, a.toNat), (0, imm.toNat)])
  | .fmaxImm d a imm => some (packed 0x47000000 [(16, d.toNat), (8, a.toNat), (0, imm.toNat)])
  | .ffmaImm d a imm => some (packed 0x47800000 [(16, d.toNat), (8, a.toNat), (0, imm.toNat)])
  | .icmpEq p c a b => some (packed 0x50000000 [(18, p.toNat), (16, c.toNat), (8, a.toNat), (0, b.toNat)])
  | .icmpNe p c a b => some (packed 0x50800000 [(18, p.toNat), (16, c.toNat), (8, a.toNat), (0, b.toNat)])
  | .icmpLt p c a b => some (packed 0x51000000 [(18, p.toNat), (16, c.toNat), (8, a.toNat), (0, b.toNat)])
  | .icmpLe p c a b => some (packed 0x51800000 [(18, p.toNat), (16, c.toNat), (8, a.toNat), (0, b.toNat)])
  | .icmpGt p c a b => some (packed 0x52000000 [(18, p.toNat), (16, c.toNat), (8, a.toNat), (0, b.toNat)])
  | .icmpGe p c a b => some (packed 0x52800000 [(18, p.toNat), (16, c.toNat), (8, a.toNat), (0, b.toNat)])
  | .icmpLtu p c a b => some (packed 0x53000000 [(18, p.toNat), (16, c.toNat), (8, a.toNat), (0, b.toNat)])
  | .icmpLeu p c a b => some (packed 0x53800000 [(18, p.toNat), (16, c.toNat), (8, a.toNat), (0, b.toNat)])
  | .icmpGtu p c a b => some (packed 0x54000000 [(18, p.toNat), (16, c.toNat), (8, a.toNat), (0, b.toNat)])
  | .icmpGeu p c a b => some (packed 0x54800000 [(18, p.toNat), (16, c.toNat), (8, a.toNat), (0, b.toNat)])
  | .fcmpEq p c a b => some (packed 0x55000000 [(18, p.toNat), (16, c.toNat), (8, a.toNat), (0, b.toNat)])
  | .fcmpNe p c a b => some (packed 0x55800000 [(18, p.toNat), (16, c.toNat), (8, a.toNat), (0, b.toNat)])
  | .fcmpLt p c a b => some (packed 0x56000000 [(18, p.toNat), (16, c.toNat), (8, a.toNat), (0, b.toNat)])
  | .fcmpLe p c a b => some (packed 0x56800000 [(18, p.toNat), (16, c.toNat), (8, a.toNat), (0, b.toNat)])
  | .fcmpGt p c a b => some (packed 0x57000000 [(18, p.toNat), (16, c.toNat), (8, a.toNat), (0, b.toNat)])
  | .fcmpGe p c a b => some (packed 0x57800000 [(18, p.toNat), (16, c.toNat), (8, a.toNat), (0, b.toNat)])
  | .fcmpNum p c a b => some (packed 0x58000000 [(18, p.toNat), (16, c.toNat), (8, a.toNat), (0, b.toNat)])
  | .fcmpNan p c a b => some (packed 0x58800000 [(18, p.toNat), (16, c.toNat), (8, a.toNat), (0, b.toNat)])
  | .plop p c a b l => some (packed 0x59000000 [(18, p.toNat), (16, c.toNat), (11, a.toNat), (6, b.toNat), (2, l.toNat)])
  | .pset p c a => some (packed 0x59800000 [(18, p.toNat), (16, c.toNat), (8, a.toNat)])
  | .ballot d p => some (packed 0x5A000000 [(15, d.toNat), (0, p.toNat)])
  | .vote p m a => some (packed 0x5A800000 [(18, p.toNat), (16, m.toNat), (8, a.toNat)])
  | .shfl m d a b => some (packed 0x5B000000 [(22, m.toNat), (15, d.toNat), (7, a.toNat), (0, b.toNat)])
  | .qswap d a x => some (packed 0x5B800000 [(15, d.toNat), (7, a.toNat), (0, x.toNat)])
  | .qbcast d a x => some (packed 0x5C000000 [(15, d.toNat), (7, a.toNat), (0, x.toNat)])
  | .maskrd d => some (packed 0x5C800000 [(15, d.toNat)])
  | .maskwr a => some (packed 0x5D000000 [(7, a.toNat)])
  | .cvt t d a sf => some (packed 0x60000000 [(22, t.toNat / 8), (4, t.toNat % 8), (15, d.toNat), (7, a.toNat), (0, sf.toNat)])
  | .cvtsr t d a sf => some (packed 0x60800000 [(22, t.toNat / 8), (4, t.toNat % 8), (15, d.toNat), (7, a.toNat), (0, sf.toNat)])
  | .exp2 d a => some (packed 0x61000000 [(15, d.toNat), (7, a.toNat)])
  | .log2 d a => some (packed 0x61800000 [(15, d.toNat), (7, a.toNat)])
  | .rcp d a => some (packed 0x62000000 [(15, d.toNat), (7, a.toNat)])
  | .rsqrt d a => some (packed 0x62800000 [(15, d.toNat), (7, a.toNat)])
  | .sqrt d a => some (packed 0x63000000 [(15, d.toNat), (7, a.toNat)])
  | .sinpi d a => some (packed 0x63800000 [(15, d.toNat), (7, a.toNat)])
  | .cospi d a => some (packed 0x64000000 [(15, d.toNat), (7, a.toNat)])
  | .rng d j => some (packed 0x64800000 [(15, d.toNat), (0, j.toNat)])
  | .rngsave d => some (packed 0x65000000 [(15, d.toNat)])
  | .rngset a => some (packed 0x65800000 [(7, a.toNat)])
  | .ldU8 f d a o => some (packed 0x70000000 [(22, f.toNat), (15, d.toNat), (7, a.toNat), (0, o.toNat)])
  | .ldS8 f d a o => some (packed 0x70800000 [(22, f.toNat), (15, d.toNat), (7, a.toNat), (0, o.toNat)])
  | .ldU16 f d a o => some (packed 0x71000000 [(22, f.toNat), (15, d.toNat), (7, a.toNat), (0, o.toNat)])
  | .ldS16 f d a o => some (packed 0x71800000 [(22, f.toNat), (15, d.toNat), (7, a.toNat), (0, o.toNat)])
  | .ldB32 f d a o => some (packed 0x72000000 [(22, f.toNat), (15, d.toNat), (7, a.toNat), (0, o.toNat)])
  | .ldB64 f d a o => some (packed 0x72800000 [(22, f.toNat), (15, d.toNat), (7, a.toNat), (0, o.toNat)])
  | .stB8 d a o => some (packed 0x73000000 [(15, d.toNat), (7, a.toNat), (0, o.toNat)])
  | .stB16 d a o => some (packed 0x73800000 [(15, d.toNat), (7, a.toNat), (0, o.toNat)])
  | .stB32 d a o => some (packed 0x74000000 [(15, d.toNat), (7, a.toNat), (0, o.toNat)])
  | .stB64 d a o => some (packed 0x74800000 [(15, d.toNat), (7, a.toNat), (0, o.toNat)])
  | .ldsU8 f d a o => some (packed 0x75000000 [(22, f.toNat), (15, d.toNat), (7, a.toNat), (0, o.toNat)])
  | .ldsS8 f d a o => some (packed 0x75800000 [(22, f.toNat), (15, d.toNat), (7, a.toNat), (0, o.toNat)])
  | .ldsU16 f d a o => some (packed 0x76000000 [(22, f.toNat), (15, d.toNat), (7, a.toNat), (0, o.toNat)])
  | .ldsS16 f d a o => some (packed 0x76800000 [(22, f.toNat), (15, d.toNat), (7, a.toNat), (0, o.toNat)])
  | .ldsB32 f d a o => some (packed 0x77000000 [(22, f.toNat), (15, d.toNat), (7, a.toNat), (0, o.toNat)])
  | .ldsB64 f d a o => some (packed 0x77800000 [(22, f.toNat), (15, d.toNat), (7, a.toNat), (0, o.toNat)])
  | .stsB8 d a o => some (packed 0x78000000 [(15, d.toNat), (7, a.toNat), (0, o.toNat)])
  | .stsB16 d a o => some (packed 0x78800000 [(15, d.toNat), (7, a.toNat), (0, o.toNat)])
  | .stsB32 d a o => some (packed 0x79000000 [(15, d.toNat), (7, a.toNat), (0, o.toNat)])
  | .stsB64 d a o => some (packed 0x79800000 [(15, d.toNat), (7, a.toNat), (0, o.toNat)])
  | .ldp f d a o => some (packed 0x7A000000 [(22, f.toNat), (15, d.toNat), (7, a.toNat), (0, o.toNat)])
  | .ldpMid f d a o => some (packed 0x7A800000 [(22, f.toNat), (15, d.toNat), (7, a.toNat), (0, o.toNat)])
  | .refine f d a o => some (packed 0x7B000000 [(22, f.toNat), (15, d.toNat), (7, a.toNat), (0, o.toNat)])
  | .stp f d a => some (packed 0x7B800000 [(22, f.toNat), (15, d.toNat), (7, a.toNat)])
  | .cstoreB32 d a o => some (packed 0x7C000000 [(15, d.toNat), (7, a.toNat), (0, o.toNat)])
  | .cstoreB64 d a o => some (packed 0x7C800000 [(15, d.toNat), (7, a.toNat), (0, o.toNat)])
  | .xload f d a o => some (packed 0x7D000000 [(22, f.toNat), (15, d.toNat), (7, a.toNat), (0, o.toNat)])
  | .pref p a o => some (packed 0x7D800000 [(15, p.toNat), (7, a.toNat), (0, o.toNat)])
  | .atom f d a o w => some (packed 0x80000000 [(22, f.toNat), (15, d.toNat), (7, a.toNat), (2, o.toNat), (1, w.toNat)])
  | .acas f d a w => some (packed 0x80800000 [(22, f.toNat), (15, d.toNat), (7, a.toNat), (1, w.toNat)])
  | .red d a o w => some (packed 0x81000000 [(15, d.toNat), (7, a.toNat), (2, o.toNat), (1, w.toNat)])
  | .atoms f d a o w => some (packed 0x81800000 [(22, f.toNat), (15, d.toNat), (7, a.toNat), (2, o.toNat), (1, w.toNat)])
  | .fence o sc => some (packed 0x82000000 [(21, o.toNat), (0, sc.toNat)])
  | .fencex b a => some (packed 0x82800000 [(3, b.toNat), (0, a.toNat)])
  | .bra o => some (packed 0x907C0000 [(0, o.toNat)])
  | .brc p n o => some (packed 0x90800000 [(18, p.toNat), (17, n.toNat), (0, o.toNat)])
  | .brx a => some (packed 0x91000000 [(7, a.toNat)])
  | .call o => some (packed 0x91FC0000 [(0, o.toNat)])
  | .ret => some (packed 0x92000000 [])
  | .exit => some (packed 0x92800000 [])
  | .bar => some (packed 0x93000000 [])
  | .barc => some (packed 0x93800000 [])
  | .yield f o => some (packed 0x94000000 [(18, f.toNat), (0, o.toNat)])
  | .trap c => some (packed 0x94800000 [(0, c.toNat)])
  | .spawn a => some (packed 0x95000000 [(15, a.toNat)])
  | .joinw => some (packed 0x95800000 [])
  | .stepmark => some (packed 0x96000000 [])
  | .dqpop a => some (packed 0x96800000 [(15, a.toNat)])
  | .nop => some (packed 0x97000000 [])
  | .shape d sc => some (packed 0xA0000000 [(12, d.toNat), (0, sc.toNat)])
  | .mma c a b => some (packed 0xA0800000 [(19, c.toNat), (12, a.toNat), (5, b.toNat)])
  | .mmaPlane c a b => some (packed 0xA1000000 [(19, c.toNat), (12, a.toNat), (5, b.toNat)])
  | .mmas c a b g => some (packed 0xA1800000 [(19, c.toNat), (12, a.toNat), (5, b.toNat), (0, g.toNat)])
  | .mmanN2 c a b => some (packed 0xA2000000 [(19, c.toNat), (12, a.toNat), (5, b.toNat)])
  | .mmanN4 c a b => some (packed 0xA2800000 [(19, c.toNat), (12, a.toNat), (5, b.toNat)])
  | .mmanN8 c a b => some (packed 0xA3000000 [(19, c.toNat), (12, a.toNat), (5, b.toNat)])
  | .mmab g => some (packed 0xA3800000 [(0, g.toNat)])
  | .mfence => some (packed 0xA4000000 [])
  | .mfenceGd d => some (packed 0xA4800000 [(0, d.toNat)])
  | .mwait b => some (packed 0xA5000000 [(0, b.toNat)])
  | .mwaitAll => some (packed 0xA5800000 [])
  | .accld c g => some (packed 0xA6000000 [(19, c.toNat), (0, g.toNat)])
  | .accst c g => some (packed 0xA6800000 [(19, c.toNat), (0, g.toNat)])
  | .accldR c v j n => some (packed 0xA7000000 [(19, c.toNat), (12, v.toNat), (5, j.toNat), (0, n.toNat)])
  | .accstR c v j n => some (packed 0xA7800000 [(19, c.toNat), (12, v.toNat), (5, j.toNat), (0, n.toNat)])
  | .accz c => some (packed 0xA8000000 [(19, c.toNat)])
  | .accmov d sc => some (packed 0xA8800000 [(19, d.toNat), (12, sc.toNat)])
  | .skimchk f p k d sc => some (packed 0xA9000000 [(22, f.toNat), (17, p.toNat), (12, k.toNat), (7, d.toNat), (2, sc.toNat)])
  | .skimput f k d sc => some (packed 0xA9800000 [(22, f.toNat), (12, k.toNat), (7, d.toNat), (2, sc.toNat)])
  | .skimrd d c => some (packed 0xAA000000 [(7, d.toNat), (2, c.toNat)])
  | .skimrdClr d c => some (packed 0xAA800000 [(7, d.toNat), (2, c.toNat)])
  | .copy f sc a => some (packed 0xB0000000 [(22, f.toNat), (21, sc.toNat), (15, a.toNat)])
  | .pcopy f d a c => some (packed 0xB0800000 [(22, f.toNat), (15, d.toNat), (9, a.toNat), (3, c.toNat)])
  | .mcast f sc a => some (packed 0xB1000000 [(22, f.toNat), (21, sc.toNat), (15, a.toNat)])
  | .gather f a => some (packed 0xB1800000 [(22, f.toNat), (15, a.toNat)])
  | .scatter f a => some (packed 0xB2000000 [(22, f.toNat), (15, a.toNat)])
  | .qpush a q => some (packed 0xB2800000 [(15, a.toNat), (0, q.toNat)])
  | .qpop d q => some (packed 0xB3000000 [(15, d.toNat), (0, q.toNat)])
  | .qtry d p q => some (packed 0xB3800000 [(15, d.toNat), (4, p.toNat), (0, q.toNat)])
  | .qallow m a n q => some (packed 0xB4000000 [(21, m.toNat), (15, a.toNat), (4, n.toNat), (0, q.toNat)])
  | .fillclr a b => some (packed 0xB4800000 [(15, a.toNat), (9, b.toNat)])
  | .filltst d a n => some (packed 0xB5000000 [(15, d.toNat), (9, a.toNat), (0, n.toNat)])
  | .sort64 m d a => some (packed 0xC0000000 [(22, m.toNat), (15, d.toNat), (7, a.toNat)])
  | .merge m d a b => some (packed 0xC0800000 [(22, m.toNat), (15, d.toNat), (7, a.toNat), (0, b.toNat)])
  | .topk d a b => some (packed 0xC1000000 [(15, d.toNat), (7, a.toNat), (0, b.toNat)])
  | .topkFin a => some (packed 0xC1400000 [(7, a.toNat)])
  | .selth m d a b => some (packed 0xC1800000 [(22, m.toNat), (15, d.toNat), (7, a.toNat), (0, b.toNat)])
  | .argmax m d a t => some (packed 0xC2000000 [(22, m.toNat), (15, d.toNat), (7, a.toNat), (0, t.toNat)])
  | .redux d a o t => some (packed 0xC2800000 [(15, d.toNat), (7, a.toNat), (4, o.toNat), (0, t.toNat)])
  | .scan e d a o t => some (packed 0xC3000000 [(22, e.toNat), (15, d.toNat), (7, a.toNat), (4, o.toNat), (0, t.toNat)])
  | .kadd imm d a b => some (packed 0xD0000000 [(22, imm.toNat), (16, d.toNat), (10, a.toNat), (0, b.toNat)])
  | .ksub imm d a b => some (packed 0xD0800000 [(22, imm.toNat), (16, d.toNat), (10, a.toNat), (0, b.toNat)])
  | .kmul imm d a b => some (packed 0xD1000000 [(22, imm.toNat), (16, d.toNat), (10, a.toNat), (0, b.toNat)])
  | .kand imm d a b => some (packed 0xD1800000 [(22, imm.toNat), (16, d.toNat), (10, a.toNat), (0, b.toNat)])
  | .kor imm d a b => some (packed 0xD2000000 [(22, imm.toNat), (16, d.toNat), (10, a.toNat), (0, b.toNat)])
  | .kxor imm d a b => some (packed 0xD2800000 [(22, imm.toNat), (16, d.toNat), (10, a.toNat), (0, b.toNat)])
  | .kshl imm d a b => some (packed 0xD3000000 [(22, imm.toNat), (16, d.toNat), (10, a.toNat), (0, b.toNat)])
  | .kshr imm d a b => some (packed 0xD3800000 [(22, imm.toNat), (16, d.toNat), (10, a.toNat), (0, b.toNat)])
  | .kmov imm d b => some (packed 0xD4000000 [(22, imm.toNat), (16, d.toNat), (0, b.toNat)])
  | .kld f d a o => some (packed 0xD4800000 [(22, f.toNat), (16, d.toNat), (10, a.toNat), (0, o.toNat)])
  | .kst d a o => some (packed 0xD5000000 [(16, d.toNat), (10, a.toNat), (0, o.toNat)])
  | .kstAtomic d a o w => some (packed 0xD5800000 [(16, d.toNat), (10, a.toNat), (5, o.toNat), (4, w.toNat)])
  | .kcmp imm d c a b => some (packed 0xD6000000 [(22, imm.toNat), (19, d.toNat), (16, c.toNat), (10, a.toNat), (0, b.toNat)])
  | .kbr n c l o => some (packed 0xD6800000 [(22, n.toNat), (19, c.toNat), (18, l.toNat), (0, o.toNat)])
  | .kcall o => some (packed 0xD7000000 [(0, o.toNat)])
  | .kret => some (packed 0xD7800000 [])
  | .kwait f => some (packed 0xD8000000 [(0, f.toNat)])
  | .kstop => some (packed 0xD8800000 [])
  | .dqpush a b n => some (packed 0xD9000000 [(10, a.toNat), (4, b.toNat), (0, n.toNat)])
  | .launch d a => some (packed 0xD9800000 [(16, d.toNat), (10, a.toNat)])
  | .rgsplit a => some (packed 0xE0000000 [(15, a.toNat)])
  | .rgmerge a => some (packed 0xE0800000 [(15, a.toNat)])
  | .rgtrim a b => some (packed 0xE1000000 [(15, a.toNat), (9, b.toNat)])
  | .rggrow a b => some (packed 0xE1800000 [(15, a.toNat), (9, b.toNat)])
  | .rginv a => some (packed 0xE2000000 [(15, a.toNat)])
  | .rginvDiscard a => some (packed 0xE2200000 [(15, a.toNat)])
  | .rgprobe d a w => some (packed 0xE2800000 [(15, d.toNat), (9, a.toNat), (0, w.toNat)])
  | .rgmigrIn a b => some (packed 0xE3000000 [(15, a.toNat), (9, b.toNat)])
  | .rgmigrOut a b => some (packed 0xE3200000 [(15, a.toNat), (9, b.toNat)])
  | .rgmigrMove a b => some (packed 0xE3400000 [(15, a.toNat), (9, b.toNat)])
  | .seal a => some (packed 0xE3800000 [(15, a.toNat)])
  | .unseal a => some (packed 0xE4000000 [(15, a.toNat)])
  | .csrd a c => some (packed 0xE4800000 [(15, a.toNat), (0, c.toNat)])
  | .cswr a c => some (packed 0xE5000000 [(15, a.toNat), (0, c.toNat)])
  | .eret => some (packed 0xE5800000 [])
  | .snap => some (packed 0xE6000000 [])
  | .fltrd d w => some (packed 0xE6800000 [(15, d.toNat), (0, w.toNat)])
  | .reset _ _ => none
  | .submit _ _ => none
  | .preEmptionPort _ => none
  | .trsubmit _ => none
  | .atreq _ => none
  | .swsubmit _ => none
  | .swbatch _ => none
  | .swfree _ => none
  | .bootdone _ => none
  | .rxn _ _ => none
  | .rxhead _ _ => none
  | .swapwait _ _ => none
  | .asidDescriptorWrite _ _ _ => none
  | .registerWrite _ _ => none
  | .swapTimerExpiry _ _ => none
  | .starvationGuard _ => none
  | .schedulerPlacement _ _ => none
  | .declaredInputsDone _ _ => none
  | .contextSave _ _ => none
  | .swapinComplete _ _ => none
  | .teamRetire _ _ => none
  | .launchCompletion _ => none
  | .engineOperationCompletion _ _ _ => none
  | .lineLanded _ _ _ _ => none
  | .longLatencyCompletion _ _ _ => none
  | .matrixInstructionCompletion _ _ _ => none
  | .windowCommit _ _ => none
  | .windowSquash _ _ => none
  | .residencyWideningEnd _ => none
  | .rangeChangeComplete _ => none
  | .trowelCommand => none
  | .moveComplete _ => none
  | .poolEntryGrant _ => none
  | .swappableWaitSatisfied _ _ _ => none
  | .coreLost _ => none
  | .stackRedundancyLost _ => none
  | .lpddrRedundancyLost => none
  | .recoveryEnd _ => none
  | .scratchpadUncorrectableError _ _ _ => none
  | .dramUncorrectableError _ => none
  | .cacheUncorrectableError _ _ => none
  | .accumulatorUncorrectableError _ _ _ _ => none
  | .registerUncorrectableError _ _ => none
  | .managementSnapshotRequest => none
  | .snapshotDrainEnd => none
  | .attestationManagementRequest _ => none
  | .attestationAnswer => none
  | .signwriterMark => none
  | .linkTrained _ _ _ => none
  | .flitRejected _ _ => none
  | .laneRepair _ _ => none
  | .inboundPeerAccess _ _ => none
  | .messageArrival _ _ _ => none
  | .peerResponse _ _ _ => none
  | .pcieInboundRequest _ _ => none
  | .throttling _ => none

/-- The word of an instruction, a hint or a clause header; none for an event. -/
def encode (i : Instr) : Option Word := (encodeNat i).map (BitVec.ofNat 32)

/-- The decoder's answer as an option. -/
def Decoded.toOption : Decoded → Option Instr
  | .instr i => some i
  | .reject _ => none

/-- The instruction that the decoder reads from a word as the opcode table numbers its bits. A word is read as the word of
a clause; one whose major opcode belongs to no instruction (0x0 or 0xF, R267) is read as a clause header, which is how the
machine reads it where it stands at a header's place (R257). -/
def decodeTableWord (nbits w : Nat) : Option Instr :=
  let bytes := wordBytes (BitVec.ofNat 32 (w % 2 ^ nbits))
  match decodeBytes false bytes with
  | .instr i => some i
  | .reject .illegalMajor => (decodeBytes true bytes).toOption
  | .reject _ => none

end Sys2Proof
end

