-- ==== Sys2Proof/Config.lean ====
section
/-!
DEFINITION. What the module fixes (its counts and its physical address map) and the free values: constants with no body,
for every value that the spec leaves to the part (keys, certificate, directory size) or leaves open. Nothing can evaluate
them, so a claim is true whatever they are.
-/
namespace Sys2Proof.Config

/-- Logical cores of the module (R2, R12). -/
def cores : Nat := 192
/-- Gang slots of a core (R2). -/
def gangSlots : Nat := 16
/-- Team slots of a core (R2). -/
def teamSlots : Nat := 4
/-- Scratchpad lines of a core (R2, R103). -/
def scratchLines : Nat := 4096
/-- Accumulator tiles of a core (R2, R68). -/
def tiles : Nat := 16
/-- Instruction-buffer pool entries of a core beyond the reserved ones (R59). -/
def sharedEntries : Nat := 48
/-- Fragments in a gang's split table (R47). -/
def fragments : Nat := 8
/-- Split-stack entries of a gang (R50). -/
def splitEntries : Nat := 256

/-- Sets of a first-level cache (R107). -/
def l1Sets : Nat := 128
/-- Ways of a first-level set (R107). -/
def l1Ways : Nat := 20
/-- Ways of a second-level set (R111). -/
def l2Ways : Nat := 16
/-- Ways of a second-level set that may hold lines marked as last victims (R110). -/
def keepWays : Nat := 4
/-- Sectors in the 64 KiB of a port atomic unit's cache (R21). -/
def stationSectors : Nat := 2048
/-- Entries of a core's range lookaside (R122). -/
def lookEntries : Nat := 128
/-- Entries of a core's skim tag array (R2, R236). -/
def skimEntries : Nat := 4096
/-- Flits that a port's replay buffer holds (R245). -/
def replayFlits : Nat := 512

/-- First byte of the capacity tier (R17). -/
def capLo : Nat := 0x010000000000
/-- First byte beyond the capacity tier (R17). -/
def capHi : Nat := 0x028000000000
/-- First byte beyond the fast tier (R17). -/
def fastHi : Nat := 0x008000000000
/-- First byte of device register space (R17, R18). -/
def devLo : Nat := 0xFFFC000000000
/-- First byte beyond the physical address space (R2). -/
def physHi : Nat := 0x10000000000000
/-- Offset of peer window 0 in device register space (R238). -/
def peerLo : Nat := 0x2000000000
/-- Size of a peer window (R238). -/
def peerSize : Nat := 0x80000000

/-- What an unlisted byte of memory reads as. DESIGN CHOICE (log 2): the spec gives DRAM no contents after power-on.
unsafe: a proof may lean on the zero. -/
def unwritten : Byte := 0

/-- Regions whose directory entries and tokens a slice can hold (R144, R236): a constant of the part whose number the spec does not
give. Free (log 5). -/
opaque sliceEntries : Nat

/-- A size rounded up to a whole number of 4 KiB. -/
def pages (n : Nat) : Nat := (n + 4095) / 4096 * 4096

/-- The sections of the largest snapshot (R236). -/
def snapSections : Nat := 1 + 2 * cores + 128 + 16 + 768 + 65536 + 1

/-- The largest full context of R212: 16 gangs of 112 registers, 16 tiles, every scratchpad line. -/
def largestContext : Nat := 8192 + 16 * (2048 + 256 * 112 + 2560) + 32768 * tiles + 129 * scratchLines

/-- SNAPSIZE, the bytes reserved for a snapshot: the sum of R236. -/
def snapSize : Nat :=
  pages (64 + 16 * snapSections) + pages (4 * 8 + 3 * 8 + 512 * 4) + cores * (pages (64 * lookEntries) + pages (16 * skimEntries)) +
    128 * pages (80 * sliceEntries) + 16 * pages (71 * 8) + 768 * pages (8 + largestContext) + 65536 * pages 24 + pages (65536 * 16)

/-- SHA-256 digest fused as the root of the boot chain (R248). Free. -/
opaque rootDigest : BitVec 256
/-- The fused rollback counter (R248). Free. -/
opaque rollback : Nat
/-- Whether an RSASSA-PSS signature over an image verifies under a public key (R248): key, image, signature. Free. -/
opaque signatureVerifies : List Byte → List Byte → List Byte → Bool
/-- Byte k of the RSASSA-PSS signature with the module's identity key over some bytes (R250, R255). The salt makes it depend on
the count of signatures made. Free. -/
opaque identitySignature : Nat → List Byte → Nat → Byte
/-- The module's identity public key (R255). Free. -/
opaque identityKey : List Byte
/-- Byte k of the module's certificate, DER-encoded (R250, R251). Free. -/
opaque certByte : Nat → Byte
/-- The certificate's length less 1, below 3,072 (R251). Free. -/
opaque certLen : Fin 3072
/-- The 256-bit mark key that Tsuwa derives at boot (R254). Free. -/
opaque markKey : BitVec 256
/-- Byte i of a part of a saved context's image that the spec does not lay out and the model puts nothing in: the stamp of the save
and i. Free (log 10). -/
opaque contextByte : Nat → Nat → Byte
/-- The same in a snapshot: its SEQ and the team, and i. Free (log 10). -/
opaque snapshotByte : Nat → Nat → Byte
/-- The set of a line within its second-level slice, which R111 leaves open. Free (log 79). -/
opaque l2Set : Nat → Fin 2048
/-- What replacement chooses in a full set, which the spec leaves open: the core cycle and the lines that may go. Free (log 79). -/
opaque victim : Nat → List Nat → Nat
/-- The hash by which a home slice's contention predictor finds the counter of a line (R156). Free (log 80). -/
opaque lineHash : Nat → Fin 4096
/-- A free value for a stamp of State.freeCtr (log 7). -/
opaque freeValue : Nat → DWord

end Sys2Proof.Config
end

