-- ==== Sys2Proof/Machine/Types.lean ====
section
/-!
DEFINITION. The pieces of the machine's state: fault causes and records, operation descriptors, fragments, gangs, hawks,
teams, launches, and the agents' turns. Every register file is a list of pairs in one canonical form (a register that holds
its default is not listed), so that equal files are equal data.
-/
namespace Sys2Proof.Machine

/-- A map from numbers to values, sorted by key with no repeats, listing no default. -/
abbrev Smap (α : Type) := List (Nat × α)

/-- One value for each of the 64 lanes of a gang (R24). -/
abbrev Lanes := List Word

/-- The cause codes of R223, in the order of their codes 0x01 to 0x12. -/
inductive Cause where
  | illegalInstruction | illegalOperand | illegalClause | illegalConvergence | noRange | rangePermission
  | residency | sealedWrite | memoryModel | poison | scratchBounds | stackOverflow | planeTag | queueMisuse
  | arithmetic | software | misaligned | engineError
deriving DecidableEq, Repr

/-- The engine classes of R135. -/
inductive EngineClass where
  | ls | cp | ga | mx | lk
deriving DecidableEq, Repr

/-- A fault record (R224). Words 6 and 7 and the reserved fields are zero and not stored. -/
structure FaultRecord where
  pc : BitVec 56
  mask : Mask
  replay : Mask
  addr : DWord
  cause : BitVec 8
  imp : Bool
  flag : BitVec 4
  batch : BitVec 5
  cls : BitVec 3
  word : Word
deriving DecidableEq, Repr

/-- An imprecise report waiting for delivery (R159, R228): its cause, the address of the first failing access or 0, the
engine class of that access, and the matrix batch of a report under R194 (none: the open batch or no batch). -/
structure Report where
  cause : Cause
  addr : DWord
  cls : Option EngineClass
  batch : Option Nat
deriving DecidableEq, Repr

/-- A register that a long-latency instruction writes (R261). -/
inductive RegName where
  | v (n : Nat) | o (n : Nat) | y0 | p (n : Nat) | g (n : Nat) | k (n : Nat)
deriving DecidableEq, Repr

/-- What a completion deposits in a register (R260): the lanes written and their values, or a whole g or k register, or a
precision tag. -/
inductive Deposit where
  | lanes (r : RegName) (mask : Mask) (vals : Lanes)
  | pred (n : Nat) (mask : Mask) (vals : Mask)
  | gpr (n : Nat) (val : DWord)
  | kpr (n : Nat) (val : DWord)
  | tag (n : Nat) (t : BitVec 26)
deriving DecidableEq, Repr

/-- A long-latency load, store or atomic that has performed its accesses and not completed (R260). -/
structure LoadOp where
  id : Nat
  who : StreamName
  flag : Nat
  deposits : List Deposit
deriving DecidableEq, Repr

/-- A copy descriptor (R161): one entry for each dimension, innermost first. -/
structure CopyDim where
  count : Nat
  sstride : Int
  dstride : Int
deriving DecidableEq, Repr

/-- A copy descriptor (R161). -/
structure CopyDesc where
  src : Nat
  sloc : Bool
  dst : Nat
  dloc : Bool
  esize : Nat
  moddim : Option Nat
  mside : Bool
  modcnt : Nat
  modbase : Nat
  dims : List CopyDim
deriving DecidableEq, Repr

/-- A plane descriptor (R90). The stride is in bytes. -/
structure PlaneDesc where
  m : Nat
  loc : Bool
  ebase : Nat
  block : Nat
  bcount : Nat
  stride : Nat
deriving DecidableEq, Repr

/-- A skim store descriptor (R195). IBLK and OLINES are the counts. -/
structure SkimDesc where
  sbase : Nat
  nslot : Nat
  cpl : Nat
  iblk : Nat
  olines : Nat
deriving DecidableEq, Repr

/-- A skim key (R197). -/
structure SkimKey where
  layer : Nat
  blk : Nat
  oline : Nat
deriving DecidableEq, Repr

/-- A gather descriptor (R165). COUNT is the number of elements. -/
structure GatherDesc where
  base : Nat
  idxoff : Nat
  idxw : Bool
  esz : Nat
  shift : Nat
  count : Nat
  datoff : Nat
  stoff : Nat
  sten : Bool
deriving DecidableEq, Repr

/-- What an engine operation does (R158, R167, R198). -/
inductive EngineKind where
  | copy (d : CopyDesc)
  | pcopy (dst src : PlaneDesc) (plo phi nb : Nat)
  | mcast (d : CopyDesc) (group : Nat)
  | gather (d : GatherDesc)
  | scatter (d : GatherDesc)
  | input (d : CopyDesc)
  | skimchk (pd : Nat) (key : SkimKey) (d : PlaneDesc) (store : SkimDesc) (step tau : Word) (dist : Nat)
  | skimput (key : SkimKey) (d : PlaneDesc) (store : SkimDesc) (step : Word)
deriving DecidableEq, Repr

/-- A byte as an engine reads it. -/
inductive EByte where
  | val (b : Byte)
  /-- From a FAULTED scratchpad line or a poisoned sector (R160, R127). -/
  | poisoned (b : Byte)
  /-- From an access that failed. -/
  | failed
deriving DecidableEq, Repr

/-- A request that an engine's peer writes make (R239, R242): its window, its physical and virtual addresses here, what it does, and
whether it is a message. -/
structure PeerBurst where
  window : Nat
  pa : Nat
  va : Nat
  kind : PeerKind
  message : Bool
deriving DecidableEq, Repr

/-- An engine operation in progress: its place in the order of issue, its stream, the flag it counts on (none for a declared input,
and once it has fallen), what it does, what has been done of it (destination lines; elements of a gather or scatter; bytes received
by a multicast, numbered in loop order), the scratchpad lines still PENDING because of it, the lines (for a gather, elements) that
failed, the report recorded first; for a scatter, the elements whose peer writes are out, the memory bytes written, each with its
element, the sectors written from poisoned data, and the failure of each element that still waits for a peer; for a multicast, the lines
of its own slice that it has fetched, with their bytes, and the teams and lines to which they have been written or for which they were
discarded; the policy and the KEEPN of its hints (R110, R266); the parts (lines or elements) that a MIGRATING range has held (R132),
and those held on a partial-residency fault (R126); and, for a SKIMPUT, the peer writes that wait for room at a port (R245), those
that wait for them to be acknowledged, and the bytes of its header, where that stands in this module, that it writes last (R200). -/
structure EngineOp where
  id : Nat
  order : Nat
  who : StreamName
  flag : Option Nat
  kind : EngineKind
  landed : List Nat
  pending : List Nat
  bad : List Nat
  report : Option Report
  sent : List Nat
  wrote : List (Nat × Nat)
  fetched : List (Nat × List EByte)
  delivered : List (Nat × Nat)
  tainted : List Nat := []
  fails : List (Nat × Report) := []
  policy : Nat := 0
  keepn : Nat := 16
  held : List Nat := []
  faulted : List Nat := []
  queued : List PeerBurst := []
  phases : List (List PeerBurst) := []
  lastly : List (Nat × Byte) := []
deriving DecidableEq, Repr

/-- A matrix instruction that has issued and not completed (R179, R180, R192): its word, its gang, the configuration in
force at issue, the batch that closed over it (none: still open), the values of its v operands at issue (by register number),
the second operand's register (MMAN's indices), its g operands at issue, the registers it reads and writes, the step counter,
the register values it will write, and the tiles of the block-table entries that it has finished. A team's instructions stand in core
issue order (R181). -/
structure MatrixOp where
  id : Nat
  gang : Nat
  instr : Instr
  cfg : DWord
  batch : Option Nat
  regs : Smap Lanes
  index : Nat
  gvals : List DWord
  reads : List Nat
  writes : List Nat
  entry : Nat
  stepNo : Nat
  deposits : List Deposit
  tiles : List Nat := []
deriving DecidableEq, Repr

/-- Why a stream waits. The first eleven are the swappable waits of R34; the others are not swappable. -/
inductive Wait where
  | qpop (q : Nat) | qpush (q : Nat) | dqpop
  /-- Fill stall on these scratchpad lines (R106). -/
  | fill (lines : List Nat)
  /-- Parked on a partial-residency fault at this address (R126). -/
  | residency (va : Nat)
  /-- Held by a MIGRATING range at this address (R132). -/
  | migrating (va : Nat)
  | joinw | spawn
  /-- YIELD on a flag, with the header it goes on at (R168). -/
  | yieldFlag (f : Nat) (label : DWord)
  | dqpush (gang : Nat)
  | kwait (flags : BitVec 12)
  /-- A clause WAIT on completion flags (R257). -/
  | clauseFlags (flags : BitVec 12)
  /-- Any other wait at issue that is not swappable: an interlock, a full flag, a batch, a drain, a window (R34). -/
  | interlock
  /-- Held by a range operation until it completes (R125). -/
  | rangeOp (id : Nat)
  /-- A peer access whose answer has not come (R239). -/
  | peer (id : Nat)
  /-- At a step boundary under a pending pre-emption request (R216). -/
  | stepBoundary
deriving DecidableEq, Repr

/-- The state of a fragment that holds a table slot (R48). -/
inductive FragState where
  | issuing
  | noEntry
  | waiting (w : Wait)
  | barrier (cluster : Bool)
deriving DecidableEq, Repr

/-- The clause a stream is inside (R257): its header's address, SETA and SETB, the words left, the guard field and its
negation, the lanes in which the guard was read true (for the hawk, 0 or all ones), KEEP, the hints read before the next
non-hint word, each with its address, and whether the stream has issued a word of it: a deferred peel path has issued none when it is
created (R54). -/
structure Clause where
  hdr : DWord
  seta : BitVec 4
  setb : BitVec 4
  left : Nat
  guard : BitVec 5
  gneg : Bool
  gmask : Mask
  keep : Bool
  hints : List (DWord × Instr)
  begun : Bool := true
deriving DecidableEq, Repr

/-- What a parked or trapped memory instruction still owes (R222, R227, R128): the lanes in which it executes when it next
issues, the traps already raised in other lanes (lane, cause, address), the lanes that trapped in all, and whether the
result count has already risen. -/
structure Replay where
  lanes : Mask
  traps : List (Nat × Cause × DWord)
  counted : Bool
  raised : Bool
  placement : Mask
deriving DecidableEq, Repr

/-- A spawn descriptor (R366). -/
structure SpawnDesc where
  gentry : DWord
  hentry : DWord
  arg : DWord
  gangs : Nat
  vregs : Nat
  acct : Nat
  splines : Nat
deriving DecidableEq, Repr

/-- The entry of the core's instruction-buffer pool that a fragment holds (R59): none, the one reserved for its gang's slot, or a
shared one. -/
inductive PoolEntry where
  | none | reserved | shared
deriving DecidableEq, Repr

/-- A fragment of a gang (R47): home mask, EXMASK, program counter, innermost split-stack entry, peel flag, state, the
clause in progress (none at a header), the result count (R65), whether y0 and y1
are pending (R261), what a parked or trapped instruction still owes, the pool entry it holds (R59) with its contents, the
128-byte units filled last, each with its address (R60), the age of its wait for an entry, and the descriptor that a SPAWN which
waits for its join counter has copied (R367). -/
structure Frag where
  home : Mask
  exmask : Mask
  pc : DWord
  entry : Option Nat
  peel : Bool
  st : FragState
  clause : Option Clause
  count : Nat
  yPending : BitVec 2
  replay : Option Replay
  pool : PoolEntry
  buf : List (Nat × List Byte)
  waitStamp : Nat
  spawn : Option SpawnDesc
deriving DecidableEq, Repr

/-- A split-stack entry (R50). The parent is the entry next outer to it. -/
structure SplitEntry where
  jmask : Mask
  amask : Mask
  dmask : Mask
  rpc : DWord
  outst : Nat
  deferred : Bool
  link : Bool
  dpc : DWord
  dpeel : Bool
  dguard : BitVec 5
  dgneg : Bool
  dkeep : Bool
  parent : Option Nat
deriving DecidableEq, Repr

/-- A decision-queue entry (R29) and whether the hawk's open window pushed it. -/
structure DqEntry where
  val : DWord
  spec : Bool
deriving DecidableEq, Repr

/-- What a gang saves on entry to its handler (R226), beside the lanes it concerns. -/
structure HandlerSave where
  home : Mask
  o : Smap Lanes
  y0 : Lanes
  y1 : Lanes
  count : Nat
  yPending : BitVec 2
  pc : DWord
  clause : Option Clause
  replay : Option Replay
  /-- Split-stack entries at handler entry (R303). -/
  depth : Nat
  /-- The trap's clause was marked a step boundary (R216). -/
  marked : Bool
  /-- The fragment's peel flag (R47, R53). -/
  peel : Bool
deriving DecidableEq, Repr

/-- A gang (R24, R47, R62, R70, R72, R86, R182). -/
structure Gang where
  v : Smap Lanes
  o : Smap Lanes
  y0 : Lanes
  y1 : Lanes
  g : Smap DWord
  p : Smap Mask
  tags : Smap (BitVec 26)
  flags : Smap Nat
  reports : Smap Report
  /-- Registers pending on a flag (R261). -/
  pend : List (RegName × Nat)
  frags : List (Option Frag)
  stack : Smap SplitEntry
  dq : List DqEntry
  /-- The granted matrix configuration, 0 for none (R174 to R176). -/
  mcfg : DWord
  /-- The batch sequence number s (R182). -/
  mseq : Nat
  rng : BitVec 128
  flt : FaultRecord
  handler : Option HandlerSave
  /-- The report of a failed declared input, delivered before gang 0's first instruction (R167, R228). -/
  inputReport : Option Report
  /-- The STEPMARK boundary count b (R369). -/
  boundary : Nat
  /-- The clause in progress, or the last one, marked a step boundary (R216). -/
  marked : Bool
  /-- The table slot of the fragment whose word issued last (R49). -/
  lastFrag : Nat
  /-- Core cycle of the last issue (R211). -/
  lastIssue : Nat
deriving DecidableEq, Repr

/-- Work held in the hawk's speculation window (R31): the word, its address, the clause it stands in with its hints, the
registers at its issue, the decision-queue entries pushed before it (a count for each gang), the instructions executed before
it in the window, and the next operation id at its issue. -/
structure HeldWork where
  instr : Instr
  pc : DWord
  clause : Clause
  k : Smap DWord
  c : BitVec 8
  ret : List DWord
  pushes : List Nat
  count : Nat
  firstOp : Nat
deriving DecidableEq, Repr

/-- A hawk's open speculation window (R30 to R32): the opening KBR's address, clause and condition, its target, whether it was
predicted taken, the checkpoint, the next operation id at the opening, the instructions executed inside, the held work, the
fault held at the word where the hawk now stands, and whether the window is committing. -/
structure SpecWindow where
  pc : DWord
  clause : Clause
  cbit : Nat
  neg : Bool
  target : DWord
  predicted : Bool
  k : Smap DWord
  c : BitVec 8
  ret : List DWord
  firstOp : Nat
  count : Nat
  held : List HeldWork
  fault : Option FaultRecord
  committing : Bool
  /-- A KLD of the window has gone through a link station, which escapes when the window commits (R33, R218). -/
  link : Bool
deriving DecidableEq, Repr

/-- The state of a hawk stream. -/
inductive HawkState where
  | issuing
  | waiting (w : Wait)
  | stopped
deriving DecidableEq, Repr

/-- A source of a deferred KCMP: the load that will give it, or its value. -/
inductive CmpSource where
  | load (id : Nat)
  | value (x : DWord)
deriving DecidableEq, Repr

/-- A KCMP with a pending source (R30): its condition bit and its sources, to be computed when they have arrived, and the
instructions executed before it in the open window (none: it stands before the window). -/
structure PendingCmp where
  inWindow : Option Nat
  cbit : Nat
  cond : BitVec 3
  a : CmpSource
  b : CmpSource
deriving DecidableEq, Repr

/-- A hawk context (R28 to R33, R62, R67). -/
structure Hawk where
  k : Smap DWord
  c : BitVec 8
  /-- k registers that an outstanding KLD writes, with the operation's id (R30). -/
  kpend : List (Nat × Nat)
  /-- Deferred KCMPs in program order (R30). -/
  cpend : List PendingCmp
  ret : List DWord
  pc : DWord
  st : HawkState
  clause : Option Clause
  flags : Smap Nat
  reports : Smap Report
  predictor : Smap (BitVec 2)
  window : Option SpecWindow
  flt : FaultRecord
  /-- Handler mode, and the position within the clause saved on entry (R226). -/
  handler : Option (DWord × Option Clause)
deriving DecidableEq, Repr

/-- The states of a team (R43). A retired or killed team that is not relaunched leaves the list of teams. -/
inductive TeamState where
  | queued | preload | running | swapout | swapped | swapin | retiring
deriving DecidableEq, Repr

/-- Why a team is in SWAPOUT: a swap, a full pre-emption, or a step-boundary save (R36, R214, R216). -/
inductive SwapKind where
  | swap | preempt | step
deriving DecidableEq, Repr

/-- A team (R24 to R46). -/
structure Team where
  lid : Nat
  tid : Nat
  parent : Option Nat
  st : TeamState
  /-- Shape: gang count, V, A, scratchpad lines (R205, or the spawn descriptor). -/
  gangCount : Nat
  vregs : Nat
  acct : Nat
  lines : Nat
  gentry : DWord
  hentry : DWord
  param : DWord
  /-- Where it is placed: logical core, team slot, first gang slots in order, and the core cluster of its cluster. -/
  core : Nat
  slot : Nat
  slots : List Nat
  cluster : Option Nat
  gangs : List Gang
  hawk : Hawk
  stepno : Word
  /-- The count m0 of step boundaries that STEPNO has taken (R369). -/
  m0 : Nat
  skimtau : Word
  prio : Nat
  /-- What a read of STEPNO, SKIMTAU and PRIO returns in this core cycle: their values at its start (R74). -/
  stepnoSeen : Word
  skimtauSeen : Word
  prioSeen : Nat
  join : Nat
  barc : Nat
  /-- Cluster-barrier instances that completed while this relaunched team had still to arrive again (R217, R286). -/
  barcCredit : Nat
  /-- This team has arrived at the cluster barrier and not departed. -/
  arrived : Bool
  scratch : Smap Byte
  /-- Fill tags (R104): a line not listed is FULL. -/
  tags : Smap (BitVec 2)
  /-- Writer marks (R149): a line not listed has mark 31. -/
  marks : Smap Nat
  acc : Smap Word
  /-- Accumulator rows with an uncorrectable error: tile and row (R193). -/
  badRows : List (Nat × Nat)
  queues : Smap (List Word)
  /-- Send allowances, keyed by queue × 17 + producer (R171). -/
  allow : Smap Nat
  skimCnt : Smap DWord
  mcastNo : Nat
  /-- Escaped effects, and a plain store to global memory since the last release (R218). -/
  escaped : Bool
  plainStore : Bool
  relaunches : Nat
  /-- The cause of the fault for which it waits to run again (R219). -/
  killCause : Nat
  /-- The team's matrix storage error, with the gang and the instruction that failed (R194). -/
  matrixReport : Option (Nat × Nat × Report)
  /-- The team's failed peer write, with the stream it is delivered to (R241). -/
  peerReport : Option (StreamName × Report)
  loads : List LoadOp
  eops : List EngineOp
  mops : List MatrixOp
  nextOp : Nat
  /-- The swap timer (R35). -/
  timer : Nat
  /-- A pending pre-emption request and its FORCE bit (R213). -/
  preempt : Option Bool
  swapKind : SwapKind
  /-- A STEPMARK boundary save in which registers are compact. -/
  ctxSlot : Option Nat
  /-- Place in the order of readiness, relaunch or spawning (R388), and of placement (R213). -/
  stamp : Nat
  placed : Nat
  /-- Cycle order of entering RUNNING or SWAPIN (R211). -/
  entered : Nat
  /-- Declared inputs not yet issued (R167). -/
  inputsLeft : Nat
deriving DecidableEq, Repr

/-- A launch record as the port copied it (R205). -/
structure LaunchRecord where
  gentry : DWord
  hentry : DWord
  param : DWord
  tcount : Nat
  cpt : Nat
  gangs : Nat
  vregs : Nat
  acct : Nat
  splines : Nat
  prio : Nat
  asid : Nat
  strict : Bool
  race : Bool
  idem : Bool
  skim : Bool
  sys : Bool
  snap : Bool
  pclass : Nat
  sdist : Nat
  retry : Nat
  preds : List Nat
  ninput : Nat
  seed : DWord
  inlist : Nat
  stepd : Nat
  ctxbase : Nat
  ctxn : Nat
  done : Nat
deriving DecidableEq, Repr

/-- A step declaration (R215). -/
structure StepDecl where
  vlive : BitVec 112
  alive : BitVec 16
  splo : Nat
  spn : Nat
deriving DecidableEq, Repr

/-- An issue of an MCAST group of a launch (R164): its cluster, its number, its team, its descriptor, and whether that of another team of
the group has differed from it. -/
structure McastIssue where
  cluster : Nat
  number : Nat
  tid : Nat
  desc : CopyDesc
  bad : Bool
deriving DecidableEq, Repr

/-- A live launch (R207, R208). -/
structure Launch where
  lid : Nat
  queue : Nat
  record : LaunchRecord
  /-- First team not yet placed (R41). -/
  nextTid : Nat
  /-- Next child identifier (R39). -/
  nextChild : Nat
  /-- The trap vector as read when the first team was placed (R225). -/
  vector : Option (DWord × DWord)
  stepDecl : Option StepDecl
  cancelled : Bool
  status : Nat
  fcause : Nat
  fteam : Nat
  /-- The predecessors, linked at acceptance: each identifier, and the status once that launch has completed (R208). -/
  preds : List (Nat × Option Nat)
  /-- Accepted from a hawk's LAUNCH, in acceptance order. -/
  order : Nat
  /-- What its teams have issued of MCAST groups (R164). -/
  groups : List McastIssue := []
deriving DecidableEq, Repr

/-- An ASID descriptor (R120). -/
structure AsidDesc where
  en : Bool
  rsv : Bool
  tbase : Nat
  count : Nat
  tsize : Nat
deriving DecidableEq, Repr

/-- A range operation or residency widening in progress (R125, R127, R132). -/
inductive RangeKind where
  /-- A widening of the window of the range with this BASE to cover [lo, hi) (R127). -/
  | widen (base lo hi : Nat)
  /-- An instruction with its operands that waits in the range unit for the ranges with these BASEs, and, where a window's commit
  performs it, the held word (R125, R132, R133). -/
  | queued (i : Instr) (ga gb : Nat) (bases : List Nat) (held : Option HeldWork)
  /-- A change to [lo, hi) whose table update was made when the unit took it and that now waits for invalidation; it discards this
  many dirty sectors (R125, R131). -/
  | change (discard lo hi : Nat)
  /-- RGMIGR.IN of [lo, hi) in the range with this BASE (R125). -/
  | migrIn (base lo hi : Nat)
  /-- A move of the range with this BASE: the new PBASE, CBASE and CAP (R132). -/
  | move (base pbase cbase : Nat) (cap : Bool)
deriving DecidableEq, Repr

/-- A range operation in progress: its id, its ASID, the stream it holds (launch, team, stream; none for the residency unit
and the trowel) and what it does. -/
structure RangeOp where
  id : Nat
  asid : Nat
  holder : Option (Nat × Nat × StreamName)
  kind : RangeKind
  /-- A move of the trowel: the command's physical address. -/
  trowel : Option Nat
deriving DecidableEq, Repr

/-- A trowel command as copied at submission (R130). -/
structure TrowelCmd where
  addr : Nat
  w0 : DWord
  w1 : DWord
  w2 : DWord
  w3 : DWord
deriving DecidableEq, Repr

/-- An outstanding peer request: its issuer, its port and window, peer physical address and virtual address, what it does,
and whom it serves (R239): one lane of a gang, or the coalescer of the fragment in table slot f as `lane` 64 + f (R108); the engine
operation, the STP or the KLD with this id, if any. -/
structure PeerRequest where
  id : Nat
  lid : Nat
  tid : Nat
  who : StreamName
  port : Nat
  window : Nat
  ppa : Nat
  va : DWord
  kind : PeerKind
  /-- The issuer waits for the answer: a load or a returning atomic. -/
  returning : Bool
  message : Bool
  lane : Option Nat
  op : Option Nat
  /-- The answer, once it has come: whether it succeeded, and the bytes read. -/
  answer : Option (Bool × List Byte)
  /-- The sequence number of its flit at the port (R245). -/
  seq : Nat
deriving DecidableEq, Repr

/-- An inbound filter entry (R244). -/
structure FilterEntry where
  src : BitVec 16
  r : Bool
  w : Bool
  en : Bool
  base : Nat
  lim : Nat
deriving DecidableEq, Repr

/-- A UALink port and its link station (R237, R243 to R245). -/
structure Port where
  pstate : BitVec 2
  width : BitVec 3
  laneok : BitVec 4
  replays : Word
  repairs : Word
  peerid : BitVec 16
  rxbase : Nat
  rxn : Nat
  rxtaddr : Nat
  rxhead : DWord
  filter : Smap FilterEntry
  /-- Sequence number of the next new flit (R245). -/
  nextSeq : Nat
  /-- A replay is outstanding, until this sequence number is acknowledged (R245). -/
  replaying : Option Nat
  /-- While it retrains for a lane repair, the width that it had (R245). -/
  retrainFrom : Option (BitVec 3)
deriving DecidableEq, Repr

/-- A peer window (R238). -/
structure PeerWindow where
  wen : Bool
  msg : Bool
  pmod : BitVec 16
  ports : BitVec 16
  ppbase : Nat
deriving DecidableEq, Repr

/-- A PCIe inbound window (R247); addresses are the fields' values times 2^12. -/
structure PcieWindow where
  en : Bool
  r : Bool
  w : Bool
  bus : Nat
  lim : Nat
  phys : Nat
deriving DecidableEq, Repr

/-- A frame that the signwriter has accepted (R253, R254): serial, ASID, base, dimensions, format, whether it has been marked, and
the digest of the marked frame, whether a batch has listed it (R255), and whether it is locked. -/
structure Frame where
  serial : Nat
  asid : Nat
  base : Nat
  width : Nat
  height : Nat
  pitch : Nat
  wide : Bool
  marked : Bool
  digest : List Byte
  batched : Bool
  locked : Bool
deriving DecidableEq, Repr

/-- A plane record (R100): the plane number, the physical address of the group's exponent line, and the group's place among
the eight of that line. The record of an exponent line has plane 0 and group 0. -/
structure PlaneRec where
  plane : Nat
  expLine : Nat
  group : Nat
deriving DecidableEq, Repr

/-- The place in the order of replacement that the policy of the access that allocated a line gives it at the second level
(R110): as every other, the next victim of its set, or the last one. -/
inductive CacheMark where
  | plain | next | last
deriving DecidableEq, Repr

/-- One sector in a cache, with the plane record of its line, if any (R100), and its line's mark (R110): in a core's first-level
cache (R107), in the second-level cache (R111), where `core` is 0, or a hot word's sector in the atomic unit of link station n (R21,
R156), where `core` is the holder code 3,840 + n. -/
structure CacheSector where
  core : Nat
  sector : Nat
  data : List Byte
  dirty : Bool
  poison : Bool
  planeRec : Option PlaneRec
  mark : CacheMark := .plain
deriving DecidableEq, Repr

/-- An entry of a core's range lookaside (R122): its tag, the span of its range, and the eight words of the table entry that it
copies. -/
structure LookEntry where
  core : Nat
  asid : Nat
  base : Nat
  limit : Nat
  words : List Nat
deriving DecidableEq, Repr

/-- An entry of a core's skim tag array (R201, R236): its tag, the physical address of the slot header, and the header's words 0
and 1. -/
structure SkimTag where
  core : Nat
  asid : Nat
  addr : Nat
  w0 : Nat
  w1 : Nat
deriving DecidableEq, Repr

/-- The race-detection fields of a sector (R145). -/
structure Track where
  d : Bool
  wr : Nat
  rs : Nat
deriving DecidableEq, Repr

/-- A pending quantum sum (R155): the word's physical address, its width, its quantum and the signed sum. -/
structure Quantum where
  addr : Nat
  w64 : Bool
  q : Nat
  sum : Int
deriving DecidableEq, Repr

/-- A section of a snapshot (R236): its kind, its instance, its bytes, and how many zeros follow them. -/
structure SnapSection where
  kind : Nat
  inst : Nat
  data : List Byte
  rest : Nat
deriving DecidableEq, Repr

/-- A snapshot that the plumb line has fired (R234, R236): what its header takes from the trigger, and, once the cycle T has
ended, the cycle count, the sections and the teams left out. -/
structure Snapshot where
  seq : Word
  src : Nat
  cause : Nat
  lid : Nat
  tid : Nat
  buf : Nat
  taken : Option (Nat × List SnapSection × Nat)
deriving DecidableEq, Repr

/-- Who moves next (log 1). A core's issue slots choose by R211; the other turns name the hawk, the event or the agent. -/
inductive Turn where
  | core (c : Nat)
  | hawk (lid tid : Nat)
  | event (i : Instr)
  /-- The core's first-level cache evicts the line of a sector (R107). -/
  | evict (core sector : Nat)
  /-- The second-level cache evicts the line of a sector (R111). -/
  | evictL2 (sector : Nat)
  /-- A control core writes bytes to memory (R20). -/
  | ctlWrite (addr : Nat) (data : List Byte)
  /-- The core's matrix sequencer performs one step of an instruction (R192). -/
  | sequencer (lid tid op : Nat)
  /-- A single-bit error in some array is corrected (R113, R232). -/
  | corrected
  /-- A port that is down or out of service begins to train (R237). -/
  | train (port : BitVec 4)
deriving DecidableEq, Repr

/-- The stream that issues in this step: team index, gang and table slot, or a hawk (log 1). -/
inductive Cur where
  | none
  | gang (t g f : Nat)
  | hawk (t : Nat)
deriving DecidableEq, Repr

end Sys2Proof.Machine
end

