-- ==== Sys2Proof/Machine/State.lean ====
section
/-!
DEFINITION. The machine's state, its faults and refusals, and the state after reset. Every field is plain data.
-/
namespace Sys2Proof.Machine

/-- What the module sends to the outside: the management port (R231, R248, R250), completions of PCIe requests (R246),
answers to inbound peer accesses (R244) and accesses sent to a peer (R239). -/
inductive Output where
  | management (data : List Byte)
  | replacement
  /-- Tsuwa reports that the boot chain failed (R248). -/
  | bootFailure
  | pcie (rp : BitVec 1) (answer : Option (List Byte))
  | peerAnswer (port : Nat) (answer : Option (List Byte))
  | peerSend (port : Nat) (request : Nat)
deriving DecidableEq, Repr

/-- The whole module. -/
structure State where
  /-- Who moves next; empty: one core cycle passes (log 1). The MODEL's own. -/
  agenda : List Turn
  /-- The stream that issues in this step (log 1). The MODEL's own. -/
  cur : Cur
  /-- The turns of cores and hawks taken in this core cycle (log 1). The MODEL's own. -/
  spent : List Turn
  /-- Core cycles since reset (R8, R236). -/
  cycle : Nat
  /-- What the module has sent out, oldest first (log 12). The MODEL's own record. -/
  outputs : List Output
  /-- DRAM at physical addresses: the fast tier and the capacity tier (R17, R113). -/
  mem : List Host.Cell
  /-- 32-byte sectors poisoned in the DRAM code (R115), rising. -/
  poison : List Nat
  /-- The second-level cache, the last written first (R111). -/
  l2 : List CacheSector
  /-- First-level data caches, the last written first (R107), and the hot words of the port atomic units (R21, R156). -/
  l1 : List CacheSector
  /-- Range lookasides, the last used first (R122). -/
  look : List LookEntry
  /-- Skim tag arrays, the last used first (R201). -/
  skimTags : List SkimTag
  /-- Counters of the contention predictors, keyed by home slice × 4,096 + hash (R156). -/
  predict : Smap (BitVec 2)
  /-- Holder of each 512-byte region's write token: a core, 3,840 + n for station n; not listed: the home slice (R145). -/
  tokHolder : Smap Nat
  /-- D, WR, RS of each sector; not listed: 0, 4,095, 0 (R145). -/
  track : Smap Track
  /-- Pending quantum sums (R155). -/
  quanta : List Quantum
  coreMap : BitVec 192
  /-- Clusters in recovery by the loss of a core (R230). -/
  recovering : BitVec 24
  /-- Clusters whose spare stands in (R11, R231). -/
  sparesUsed : BitVec 24
  /-- Cores lost and not yet retested (R230). -/
  lostCores : List Nat
  stackMap : BitVec 8
  linkMap : BitVec 16
  req : Bool
  spare : Bool
  lost : Byte
  lpdeg : Bool
  cecount : DWord
  uecount : DWord
  /-- LID and REJ of each launch port (R206). -/
  portLid : Smap Word
  portRej : Smap Byte
  /-- Launches of each queue not yet wholly placed, oldest first (R207, R209). -/
  queues : Smap (List Nat)
  launches : List Launch
  /-- Completion statuses of launches, newest first (R208). -/
  completed : List (Nat × Nat)
  /-- Launch identifiers issued since reset, and the next one (R207, R208). -/
  issued : Nat
  nextLid : Nat
  teams : List Team
  /-- Orders readiness, relaunches, spawns, acceptances and placements (R388). -/
  stamp : Nat
  swapwait : Smap Word
  /-- Writes to SWAPWAIT in this core cycle, which take effect from the next (R75): core and value, the last first. -/
  swapwaitNew : List (Nat × Word)
  asids : Smap AsidDesc
  /-- GHANDLER and KHANDLER of each ASID (R225). -/
  vectors : Smap (DWord × DWord)
  discardCnt : Smap DWord
  rangeOps : List RangeOp
  nextRange : Nat
  trowel : List TrowelCmd
  trref : Bool
  isnap : Bool
  ievt : Bool
  evmask : BitVec 18
  snapbuf : Nat
  seq : Word
  busy : Bool
  drop : BitVec 16
  latched : Option Snapshot
  bootdone : Bool
  chainok : Bool
  measure : List (BitVec 256)
  /-- Signatures made with the identity key (their salts differ). -/
  signatures : Nat
  /-- A request over the management port, or through the mailbox, being answered (R250, R251). -/
  atbusy : Bool
  atdone : Bool
  aterr : Byte
  atbuf : Nat
  swst : Byte
  serial : BitVec 56
  frames : List Frame
  batchNo : Nat
  links : List Port
  windows : Smap PeerWindow
  peers : List PeerRequest
  /-- Writes to peers that clear SVALID in the slots of killed SKIMPUTs and wait to be sent (R202, R245). -/
  slotClears : List PeerBurst
  nextPeer : Nat
  pcie : Smap PcieWindow
  /-- Issue slots are withheld (R23). -/
  throttled : Bool
  /-- The gang that takes the first issue slot of a core next (R211): core, launch, team, gang. -/
  forced : List (Nat × Nat × Nat × Nat)
  /-- The gang issued last at a priority on a core (R211): core × 64 + priority, launch, team, gang, and when its
  team had entered. -/
  lastGang : List (Nat × Nat × Nat × Nat × Nat)
  /-- Stamps of free values (log 7). The MODEL's own. -/
  freeCtr : Nat
deriving DecidableEq, Repr

/-- The model's own faults. -/
inductive Fault where
  /-- Raised by a turn in which a control core or another outside agent names a physical address that the map leaves
  unpopulated (R17): no memory is there, and the spec gives the access no effect. safe. -/
  | unpopulated (addr : Nat)
deriving DecidableEq, Repr

/-- The model's own refusals. -/
inductive Refusal where
  /-- Raised by exec for a word of a stream when no stream issues, that is when `cur` names none or one that does not
  exist; a step never reaches it. safe. -/
  | noStream
  /-- Raised by an arm of exec whose instruction has no meaning yet. safe. -/
  | notModelled (mnemonic : String)
deriving DecidableEq, Repr

/-- A UALink port after reset (R237, R243, R244). -/
def Port.afterReset : Port :=
  { pstate := 0, width := 0, laneok := 0b1111, replays := 0, repairs := 0, peerid := 0, rxbase := 0, rxn := 0,
    rxtaddr := 0, rxhead := 0, filter := [], nextSeq := 0, replaying := none, retrainFrom := none }

/-- The module right after reset, with all 192 cores present in the repair data (R11, R19; log 4). -/
def State.reset : State :=
  { agenda := [], cur := .none, spent := [], cycle := 0, outputs := [], mem := [], poison := [], l2 := [], l1 := [],
    look := [], skimTags := [], predict := [], tokHolder := [], track := [],
    quanta := [], coreMap := BitVec.allOnes 192, recovering := 0, sparesUsed := 0, lostCores := [], stackMap := 0xFF,
    linkMap := 0, req := false, spare := false, lost := 0, lpdeg := false, cecount := 0, uecount := 0, portLid := [],
    portRej := [], queues := [], launches := [], completed := [], issued := 0, nextLid := 1, teams := [], stamp := 0,
    swapwait := [], swapwaitNew := [], asids := [], vectors := [], discardCnt := [], rangeOps := [], nextRange := 0, trowel := [],
    trref := false, isnap := false, ievt := false, evmask := 0, snapbuf := 0, seq := 0, busy := false, drop := 0,
    latched := none, bootdone := false, chainok := false, measure := List.replicate 8 0, signatures := 0, atbusy := false,
    atdone := false, aterr := 0, atbuf := 0, swst := 0, serial := 0, frames := [], batchNo := 0,
    links := List.replicate 16 Port.afterReset, windows := [], peers := [], slotClears := [], nextPeer := 0, pcie := [], throttled := false,
    forced := [], lastGang := [], freeCtr := 0 }

end Sys2Proof.Machine
end

