-- ==== Sys2Proof/Machine/Smap.lean ====
section
/-!
DEFINITION. Maps from numbers to values as sorted lists in one canonical form: keys strictly rise and no entry holds the
default, so that equal maps are equal lists.
-/
namespace Sys2Proof.Machine

/-- The value at a key; the default where the key is not listed. -/
def smGet {α : Type} (d : α) : Smap α → Nat → α
  | [], _ => d
  | (k', v) :: m, k => if k = k' then v else smGet d m k

/-- The map with the entry at a key, if any, removed. -/
def smErase {α : Type} : Smap α → Nat → Smap α
  | [], _ => []
  | (k', v) :: m, k => if k = k' then smErase m k else (k', v) :: smErase m k

/-- The map with a value listed at a key. -/
def smInsert {α : Type} : Smap α → Nat → α → Smap α
  | [], k, v => [(k, v)]
  | (k', v') :: m, k, v =>
    if k < k' then (k, v) :: (k', v') :: m
    else if k = k' then (k, v) :: m
    else (k', v') :: smInsert m k v

/-- The map with a value at a key; writing the default removes the entry. -/
def smSet {α : Type} [DecidableEq α] (d : α) (m : Smap α) (k : Nat) (v : α) : Smap α :=
  if v = d then smErase m k else smInsert m k v

/-- Keys strictly rise above a bound and no value is the default. -/
def smAbove {α : Type} [DecidableEq α] (d : α) : Option Nat → Smap α → Bool
  | _, [] => true
  | lo, (k, v) :: m =>
    (match lo with
      | none => true
      | some b => decide (b < k)) && decide (v ≠ d) && smAbove d (some k) m

/-- The canonical form of a map. -/
def smWf {α : Type} [DecidableEq α] (d : α) (m : Smap α) : Bool := smAbove d none m

/-- Adds a number to a rising list without repeats. -/
def setAdd : List Nat → Nat → List Nat
  | [], k => [k]
  | k' :: m, k => if k < k' then k :: k' :: m else if k = k' then k' :: m else k' :: setAdd m k

/-- Removes a number from a list. -/
def setDel (m : List Nat) (k : Nat) : List Nat := m.filter (· ≠ k)

/-- Replaces the element at an index of a list. -/
def listSet {α : Type} : List α → Nat → α → List α
  | [], _, _ => []
  | _ :: l, 0, x => x :: l
  | y :: l, n + 1, x => y :: listSet l n x

/-- Applies a function to the element at an index of a list. -/
def listModify {α : Type} (f : α → α) : List α → Nat → List α
  | [], _ => []
  | y :: l, 0 => f y :: l
  | y :: l, n + 1 => y :: listModify f l n

/-- The element at an index of a list. -/
def listAt {α : Type} : List α → Nat → Option α
  | [], _ => none
  | y :: _, 0 => some y
  | _ :: l, n + 1 => listAt l n

/-- The first index whose element meets a test. -/
def listFind {α : Type} (p : α → Bool) : List α → Nat → Option Nat
  | [], _ => none
  | y :: l, n => if p y then some n else listFind p l (n + 1)

/-- Keeps the first n elements that meet a test, and all others. -/
def keepFirst {α : Type} (p : α → Bool) : Nat → List α → List α
  | _, [] => []
  | n, x :: l =>
    if !p x then x :: keepFirst p n l
    else match n with
      | 0 => keepFirst p 0 l
      | n + 1 => x :: keepFirst p n l

/-- Inserts into a list sorted by a number. -/
def insertBy {α : Type} (key : α → Nat) (x : α) : List α → List α
  | [] => [x]
  | y :: l => if key x < key y then x :: y :: l else y :: insertBy key x l

/-- Sorts a list by a number, stably. -/
def sortBy {α : Type} (key : α → Nat) (l : List α) : List α := l.foldl (fun acc x => insertBy key x acc) []

end Sys2Proof.Machine
end

