-- ==== Sys2Proof/Machine/Bits.lean ====
section
/-!
DEFINITION. Lane masks, lane lists, byte order and bit-field helpers of the machine (R3, R4, R88).
-/
namespace Sys2Proof.Machine

/-- The 64 lane indices. -/
def laneIdx : List Nat := List.range 64

/-- 64 lanes of zero. -/
def zeroLanes : Lanes := List.replicate 64 0

/-- The value of a lane. -/
def laneOf (x : Lanes) (l : Nat) : Word := (listAt x l).getD 0

/-- Bit l of a lane mask (R4). -/
def inMask (m : Mask) (l : Nat) : Bool := m.getLsbD l

/-- The mask of the lanes that meet a test (R4). -/
def maskOf (p : Nat → Bool) : Mask :=
  laneIdx.foldr (fun l acc => if p l then acc ||| (1#64 <<< l) else acc) 0#64

/-- The lanes of a mask, ascending. -/
def lanesIn (m : Mask) : List Nat := laneIdx.filter (inMask m)

/-- The lowest-numbered lane of a mask. -/
def lowestLane (m : Mask) : Option Nat := (lanesIn m).head?

/-- The number of set bits. -/
def popMask (m : Mask) : Nat := (lanesIn m).length

/-- One value for each lane. -/
def mkLanes (f : Nat → Word) : Lanes := laneIdx.map f

/-- New values in the lanes of a mask, old values elsewhere. -/
def mergeLanes (m : Mask) (new old : Lanes) : Lanes :=
  mkLanes fun l => if inMask m l then laneOf new l else laneOf old l

/-- New bits in the lanes of a mask, old bits elsewhere. -/
def mergeMask (m new old : Mask) : Mask := (new &&& m) ||| (old &&& ~~~m)

/-- The bytes of a number, the least significant first (R3). -/
def bytesOf : Nat → Nat → List Byte
  | 0, _ => []
  | n + 1, x => BitVec.ofNat 8 x :: bytesOf n (x / 256)

/-- The number that some bytes hold, the least significant first (R3). -/
def natOf : List Byte → Nat
  | [] => 0
  | b :: bs => b.toNat + 256 * natOf bs

/-- The k-th 64-bit word of some bytes, as a number. -/
def wordN (bs : List Byte) (k : Nat) : Nat := natOf ((bs.drop (8 * k)).take 8)

/-- Field [hi:lo] of a 64-bit value, as a number. -/
def bits64 (x : DWord) (hi lo : Nat) : Nat := x.toNat / 2 ^ lo % 2 ^ (hi + 1 - lo)

/-- Field [hi:lo] of a number. -/
def bitsN (x hi lo : Nat) : Nat := x / 2 ^ lo % 2 ^ (hi + 1 - lo)

/-- Bit k of a number. -/
def bitN (x k : Nat) : Bool := x / 2 ^ k % 2 == 1

/-- A number read as a signed value of w bits: sext of R88. -/
def sextN (w x : Nat) : Int :=
  let y := x % 2 ^ w
  if w = 0 then 0 else if y < 2 ^ (w - 1) then (y : Int) else (y : Int) - 2 ^ w

/-- An integer modulo 2^w, as a number. -/
def wrapN (w : Nat) (x : Int) : Nat := (x % (2 ^ w : Int)).toNat

/-- sat of R88. -/
def satInt (x lo hi : Int) : Int := if x < lo then lo else if hi < x then hi else x

/-- rotl32 of R88. -/
def rotl32 (x n : Nat) : Nat := (x * 2 ^ n) % 2 ^ 32 + x / 2 ^ (32 - n)

/-- ceil(a / b). -/
def ceilDiv (a b : Nat) : Nat := (a + b - 1) / b

/-- A one-bit field of a word as a truth value. -/
def flag1 (b : BitVec 1) : Bool := b == 1#1

/-- The number of a list's elements that meet a test. -/
def countP {α : Type} (p : α → Bool) (l : List α) : Nat := (l.filter p).length

end Sys2Proof.Machine
end

