-- ==== Sys2Proof/Machine/Float.lean ====
section
/-!
DEFINITION. The number formats of R76, their exact values, and rounding under R80 to R83. A finite value is held exactly, as
a sign, a natural mantissa and an integer exponent, and an operation rounds once.
-/
namespace Sys2Proof.Machine

/-- A value of a floating-point format: NaN, an infinity, or (-1)^neg × m × 2^e. -/
inductive FVal where
  | nan
  | inf (neg : Bool)
  | fin (neg : Bool) (m : Nat) (e : Int)
deriving DecidableEq, Repr

/-- How a format treats its top exponent (R76): as IEEE 754 does, as E4M3 does, or as E2M1 does. -/
inductive TopKind where
  | ieee | e4m3 | e2m1
deriving DecidableEq, Repr

/-- A floating-point format (R76). -/
structure Fmt where
  width : Nat
  fbits : Nat
  bias : Nat
  top : TopKind
deriving DecidableEq, Repr

def fp32 : Fmt := ⟨32, 23, 127, .ieee⟩
def fp16 : Fmt := ⟨16, 10, 15, .ieee⟩
def bf16 : Fmt := ⟨16, 7, 127, .ieee⟩
def fpE5M2 : Fmt := ⟨8, 2, 15, .ieee⟩
def fpE4M3 : Fmt := ⟨8, 3, 7, .e4m3⟩
def fpE2M1 : Fmt := ⟨4, 1, 1, .e2m1⟩

/-- Width of the exponent field. -/
def expBits (f : Fmt) : Nat := f.width - 1 - f.fbits

/-- The bits, sign excluded, of the largest finite value (R76). -/
def maxFinite (f : Fmt) : Nat :=
  match f.top with
  | .ieee => (2 ^ expBits f - 1) * 2 ^ f.fbits - 1
  | .e4m3 => 0x7E
  | .e2m1 => 0x7

/-- The canonical NaN of a format (R76); 0 for E2M1, which has none. -/
def canonNan (f : Fmt) : Nat :=
  match f.top with
  | .ieee => (2 ^ expBits f - 1) * 2 ^ f.fbits + 2 ^ (f.fbits - 1)
  | .e4m3 => 0x7F
  | .e2m1 => 0

/-- The sign bit in place. -/
def signBit (f : Fmt) (neg : Bool) : Nat := if neg then 2 ^ (f.width - 1) else 0

/-- The infinity of an IEEE format. -/
def infBits (f : Fmt) (neg : Bool) : Nat := signBit f neg + (2 ^ expBits f - 1) * 2 ^ f.fbits

/-- The value that a format's bits stand for (R76). -/
def decodeF (f : Fmt) (x : Nat) : FVal :=
  let neg := bitN x (f.width - 1)
  let ex := x / 2 ^ f.fbits % 2 ^ expBits f
  let fr := x % 2 ^ f.fbits
  let finite :=
    if ex = 0 then FVal.fin neg fr (1 - (f.bias : Int) - f.fbits)
    else FVal.fin neg (2 ^ f.fbits + fr) ((ex : Int) - f.bias - f.fbits)
  match f.top with
  | .ieee => if ex = 2 ^ expBits f - 1 then (if fr = 0 then .inf neg else .nan) else finite
  | .e4m3 => if x % 2 ^ (f.width - 1) = 0x7F then .nan else finite
  | .e2m1 => finite

/-- The rounding modes of R80. -/
inductive RMode where
  | rn | rz | rm | rp
deriving DecidableEq, Repr

/-- The mode that an operand-form IMMX names (R266). -/
def rmodeOf (r : BitVec 2) : RMode :=
  if r = 0 then .rn else if r = 1 then .rz else if r = 2 then .rm else .rp

/-- Rounds n + rem/2^k (rem below 2^k) to an integer in a mode (R80). -/
def roundUp (mode : RMode) (neg : Bool) (n rem k : Nat) : Nat :=
  if rem = 0 then n
  else match mode with
    | .rn => if 2 * rem < 2 ^ k then n else if 2 * rem = 2 ^ k then n + n % 2 else n + 1
    | .rz => n
    | .rm => if neg then n + 1 else n
    | .rp => if neg then n else n + 1

/-- The bits of a finite overflow (R81, R82). -/
def overflowBits (f : Fmt) (mode : RMode) (neg : Bool) : Nat :=
  match f.top with
  | .ieee =>
    match mode with
    | .rn => infBits f neg
    | .rz => signBit f neg + maxFinite f
    | .rm => if neg then infBits f neg else maxFinite f
    | .rp => if neg then signBit f neg + maxFinite f else infBits f neg
  | _ => signBit f neg + maxFinite f

/-- Rounds a non-zero magnitude m × 2^e to a format; overflow is by `ovf` (R80 to R82). -/
def roundWith (f : Fmt) (mode : RMode) (neg : Bool) (m : Nat) (e : Int) (ovf : Nat) : Nat :=
  let top : Int := (Nat.log2 m : Int) + e
  let emin : Int := 1 - (f.bias : Int)
  if top > 2 ^ expBits f then ovf
  else
    let q : Int := max (top - f.fbits) (emin - f.fbits)
    let ef : Nat := (q + f.fbits + f.bias).toNat
    let n : Nat :=
      if e ≥ q then m * 2 ^ (e - q).toNat
      else
        let k := (q - e).toNat
        if top + 2 < q then roundUp mode neg 0 1 2
        else roundUp mode neg (m / 2 ^ k) (m % 2 ^ k) k
    let b := (ef - 1) * 2 ^ f.fbits + n
    if b > maxFinite f then ovf else signBit f neg + b

/-- rnd of R88 on an exact value: rounded under R80, with the special cases of R81 and R82. -/
def roundF (f : Fmt) (mode : RMode) : FVal → Nat
  | .nan => canonNan f
  | .inf neg => if f.top = .ieee then infBits f neg else signBit f neg + maxFinite f
  | .fin neg m e => if m = 0 then signBit f neg else roundWith f mode neg m e (overflowBits f mode neg)

/-- A conversion that saturates: the largest finite value for finite overflow (R82). -/
def roundSat (f : Fmt) (mode : RMode) : FVal → Nat
  | .fin neg m e => if m = 0 then signBit f neg else roundWith f mode neg m e (signBit f neg + maxFinite f)
  | x => roundF f mode x

/-- Stochastic rounding of R83 with the random word u. -/
def roundSr (f : Fmt) (u : Nat) : FVal → Nat
  | .fin neg m e =>
    if m = 0 then signBit f neg
    else
      let top : Int := (Nat.log2 m : Int) + e
      let emin : Int := 1 - (f.bias : Int)
      let ovf := if f.top = .ieee then infBits f neg else signBit f neg + maxFinite f
      if top > 2 ^ expBits f then ovf
      else
        let q : Int := max (top - f.fbits) (emin - f.fbits)
        let ef : Nat := (q + f.fbits + f.bias).toNat
        if e ≥ q then
          let b := (ef - 1) * 2 ^ f.fbits + m * 2 ^ (e - q).toNat
          if b > maxFinite f then ovf else signBit f neg + b
        else
          let k := (q - e).toNat
          let lo := (ef - 1) * 2 ^ f.fbits + m / 2 ^ k
          let rem := m % 2 ^ k
          if lo ≥ maxFinite f ∧ rem ≠ 0 then ovf
          else if lo > maxFinite f then ovf
          else if rem = 0 then signBit f neg + lo
          else if u + rem * 2 ^ 32 / 2 ^ k ≥ 2 ^ 32 then signBit f neg + lo + 1
          else signBit f neg + lo
  | x => roundF f .rn x

/-- The signed integer m × 2^(e - low) that a finite value is at a common exponent. -/
def alignedAt (low : Int) (neg : Bool) (m : Nat) (e : Int) : Int :=
  let x : Int := m * 2 ^ (e - low).toNat
  if neg then -x else x

/-- A signed integer times 2^e as a value; a zero takes the sign that R81 gives an exact zero sum. -/
def ofAligned (zeroNeg : Bool) (x : Int) (e : Int) : FVal :=
  if x = 0 then .fin zeroNeg 0 0 else .fin (decide (x < 0)) x.natAbs e

/-- The exact sum of two values, with the zero signs of R81. -/
def addF (mode : RMode) : FVal → FVal → FVal
  | .nan, _ => .nan
  | _, .nan => .nan
  | .inf a, .inf b => if a = b then .inf a else .nan
  | .inf a, .fin .. => .inf a
  | .fin .., .inf b => .inf b
  | .fin na ma ea, .fin nb mb eb =>
    if ma = 0 ∧ mb = 0 then .fin (if na = nb then na else decide (mode = .rm)) 0 0
    else if ma = 0 then .fin nb mb eb
    else if mb = 0 then .fin na ma ea
    else
      let low := min ea eb
      ofAligned (decide (mode = .rm)) (alignedAt low na ma ea + alignedAt low nb mb eb) low

/-- The exact product of two values. -/
def mulF : FVal → FVal → FVal
  | .nan, _ => .nan
  | _, .nan => .nan
  | .inf a, .inf b => .inf (a != b)
  | .inf a, .fin nb mb _ => if mb = 0 then .nan else .inf (a != nb)
  | .fin na ma _, .inf b => if ma = 0 then .nan else .inf (na != b)
  | .fin na ma ea, .fin nb mb eb => .fin (na != nb) (ma * mb) (ea + eb)

/-- The negative of a value. -/
def negF : FVal → FVal
  | .nan => .nan
  | .inf a => .inf (!a)
  | .fin a m e => .fin (!a) m e

/-- Order of two values that are not NaN: -1, 0 or 1, zeros of either sign equal. -/
def cmpF : FVal → FVal → Int
  | .inf a, .inf b => if a = b then 0 else if a then -1 else 1
  | .inf a, _ => if a then -1 else 1
  | _, .inf b => if b then 1 else -1
  | .fin na ma ea, .fin nb mb eb =>
    if ma = 0 ∧ mb = 0 then 0
    else
      let low := min ea eb
      let d := alignedAt low na ma ea - alignedAt low nb mb eb
      if d < 0 then -1 else if d = 0 then 0 else 1
  | _, _ => 0

/-- Whether a value is NaN. -/
def isNanF : FVal → Bool
  | .nan => true
  | _ => false

/-- Whether a value is finite. -/
def isFinF : FVal → Bool
  | .fin .. => true
  | _ => false

/-- The sign of a value. -/
def negOfF : FVal → Bool
  | .nan => false
  | .inf a => a
  | .fin a _ _ => a

/-- Whether a value is zero. -/
def isZeroF : FVal → Bool
  | .fin _ m _ => m == 0
  | _ => false

/-- An integer as an exact value. -/
def ofIntF (x : Int) : FVal := .fin (decide (x < 0)) x.natAbs 0

/-- A lane's FP32 value. -/
def f32 (x : Word) : FVal := decodeF fp32 x.toNat

/-- An exact value rounded to an FP32 word. -/
def toF32 (mode : RMode) (x : FVal) : Word := BitVec.ofNat 32 (roundF fp32 mode x)

/-- The minimum of R81: -0 is below +0, a NaN operand yields the other, two yield the canonical NaN. -/
def fminF (f : Fmt) (a b : Nat) : Nat :=
  let x := decodeF f a
  let y := decodeF f b
  if isNanF x ∧ isNanF y then canonNan f
  else if isNanF x then b
  else if isNanF y then a
  else
    let c := cmpF x y
    if c < 0 then a else if c > 0 then b else if negOfF x then a else b

/-- The maximum of R81. -/
def fmaxF (f : Fmt) (a b : Nat) : Nat :=
  let x := decodeF f a
  let y := decodeF f b
  if isNanF x ∧ isNanF y then canonNan f
  else if isNanF x then b
  else if isNanF y then a
  else
    let c := cmpF x y
    if c > 0 then a else if c < 0 then b else if negOfF x then b else a

/-- floor or rounding of an exact value to an integer in a mode (R80). -/
def roundInt (mode : RMode) (neg : Bool) (m : Nat) (e : Int) : Int :=
  let n : Nat :=
    if e ≥ 0 then (if Nat.log2 m + e.toNat > 200 ∧ m ≠ 0 then 2 ^ 200 else m * 2 ^ e.toNat)
    else
      let k := (-e).toNat
      if m ≠ 0 ∧ Nat.log2 m + 2 < k then roundUp mode neg 0 1 2
      else roundUp mode neg (m / 2 ^ k) (m % 2 ^ k) k
  if neg then -(n : Int) else n

/-- The element of a bit-plane block (R79): E, sign, held bits b1 first, m, midpoint fill. -/
def decodeBp (e : Nat) (s : Bool) (bits : List Bool) (m : Nat) (midpoint : Bool) : FVal :=
  if e = 0 then .fin false 0 0
  else if e = 255 then (if bits.all (!·) then .inf s else .nan)
  else
    let h := bits.length
    let a := bits.foldl (fun acc b => 2 * acc + if b then 1 else 0) 0
    let f := if midpoint ∧ h < m then (2 * a + 1, h + 1) else (a, h)
    .fin s f.1 ((e : Int) - 126 - f.2)

end Sys2Proof.Machine
end

