-- ==== Sys2Proof/Machine/Mem.lean ====
section
/-!
DEFINITION. Memory and the caches: bytes and sectors, write tokens, poison, quantum sums, race fields and
releases (05 R100 and R101, 06, 08). Memory itself is DRAM; the second-level cache stands over it, and the first-level caches over
both.
-/
namespace Sys2Proof.Machine

/-- Physical address in the fast tier (R17). -/
def isFast (pa : Nat) : Bool := decide (pa < Config.fastHi)
/-- Physical address in the capacity tier (R17). -/
def isCap (pa : Nat) : Bool := decide (Config.capLo ≤ pa) && decide (pa < Config.capHi)
/-- Physical address in device register space (R17, R18). -/
def isDev (pa : Nat) : Bool := decide (Config.devLo ≤ pa) && decide (pa < Config.physHi)

/-- The canonical form of memory: addresses strictly rise and no entry equals what an unlisted address reads as. -/
def Memory.wf (m : List Host.Cell) : Bool := smWf Config.unwritten m

/-! ### DRAM -/

/-- A byte of DRAM. -/
def dramByte (s : State) (pa : Nat) : Byte := smGet Config.unwritten s.mem pa

/-- n bytes of DRAM. -/
def dramBytes (s : State) (pa : Nat) : Nat → List Byte
  | 0 => []
  | n + 1 => dramByte s pa :: dramBytes s (pa + 1) n

/-- Writes a byte of DRAM. -/
def setMemByte (s : State) (pa : Nat) (b : Byte) : State := { s with mem := smSet Config.unwritten s.mem pa b }

/-- Writes consecutive bytes of DRAM. -/
def setMemBytes (s : State) (pa : Nat) : List Byte → State
  | [] => s
  | b :: bs => setMemBytes (setMemByte s pa b) (pa + 1) bs

/-- The 32-byte sector of a physical address (R107). -/
def sectorOf (pa : Nat) : Nat := pa / 32

/-- The 128-byte line of a sector (R107). -/
def lineOf (sector : Nat) : Nat := sector / 4

/-- The 512-byte region of a sector (R144). -/
def regionOf (sector : Nat) : Nat := sector / 16

/-- Marks or clears poison of a sector in the DRAM code (R115). -/
def setPoison (s : State) (sector : Nat) (p : Bool) : State :=
  { s with poison := if p then setAdd s.poison sector else setDel s.poison sector }

/-- The bytes of a sector in DRAM, with its poison. -/
def dramSector (s : State) (sector : Nat) : List Byte × Bool := (dramBytes s (32 * sector) 32, s.poison.contains sector)

/-- Writes a whole sector to DRAM, with its poison. -/
def toDram (s : State) (sector : Nat) (data : List Byte) (poison : Bool) : State :=
  setPoison (setMemBytes s (32 * sector) (data.take 32)) sector poison

/-! ### The home slice (R111) -/

/-- The exclusive or of the fields of a number that begin at these bits, each of this width (R111). -/
def xorFields (x width : Nat) (los : List Nat) : Nat := los.foldl (fun a lo => a ^^^ x / 2 ^ lo % 2 ^ width) 0

/-- The HBM stack of a fast-tier address (R111). -/
def homeStack (pa : Nat) : Nat := xorFields pa 3 [8, 18, 28]

/-- The channel of a fast-tier address within its stack (R111). -/
def homeChannel (pa : Nat) : Nat := xorFields pa 5 [11, 21, 31]

/-- The die that owns the DRAM of an address (R111). -/
def homeDie (pa : Nat) : Nat := if isFast pa then homeStack pa / 4 else xorFields pa 1 [12, 22, 32]

/-- The home slice of a line (R111). -/
def homeSlice (pa : Nat) : Nat := homeDie pa * 64 + xorFields pa 6 [7, 13, 19, 25]

/-! ### Plane lines in a cache (R100): what both levels share -/

/-- Whether the sectors in a list hold the line of a plane record for a core (R100). -/
def planeHeld (l : List CacheSector) (core : Nat) (r : PlaneRec) : Bool :=
  l.any fun x => x.core == core && x.planeRec == some r

/-- Whether the exponent line and every lower plane line of a record's group are held (R100). -/
def prefixHeld (l : List CacheSector) (core : Nat) (r : PlaneRec) : Bool :=
  r.plane == 0 ||
    (planeHeld l core { r with plane := 0, group := 0 } &&
      (List.range r.plane).all fun q => q == 0 || planeHeld l core { r with plane := q })

/-- The prefix invariant for one sector (R100). -/
def prefixOk (l : List CacheSector) (e : CacheSector) : Bool :=
  match e.planeRec with
  | none => true
  | some r => prefixHeld l e.core r

/-- PHELD of a record's group: the highest plane that a core's cache holds (R100). -/
def pheld (l : List CacheSector) (core : Nat) (r : PlaneRec) : Nat :=
  l.foldl (fun m x =>
    if x.core == core then (match x.planeRec with
      | some q => if q.expLine == r.expLine && q.group == r.group then max m q.plane else m
      | none => m) else m) 0

/-- The sectors that leave a cache when replacement selects the line of one (R107, R100): for a plane line, the highest plane
line of its group; for an exponent line on which a group depends, none. -/
def victims (l : List CacheSector) (core line : Nat) (e : CacheSector) : Bool :=
  match (l.find? fun x => x.core == core && lineOf x.sector == line && x.planeRec.isSome).bind (·.planeRec) with
  | none => e.core == core && lineOf e.sector == line
  | some r =>
    if r.plane = 0 then
      e.core == core && lineOf e.sector == line &&
        !(l.any fun x => x.core == core && x.planeRec.any fun q => q.expLine == r.expLine && q.plane != 0)
    else e.core == core && e.planeRec == some { r with plane := pheld l core r }

/-- The lines that the sectors of a list belong to, without repeats. -/
def linesIn (l : List CacheSector) : List Nat := (l.map fun e => lineOf e.sector).eraseDups

/-- The mark of a line that a list of sectors holds (R110). -/
def lineMark (l : List CacheSector) (core line : Nat) : CacheMark :=
  ((l.find? fun x => x.core == core && lineOf x.sector == line).map (·.mark)).getD .plain

/-- The lines of a set among which replacement chooses: the next victims, else the unmarked lines, else the last victims (R110). -/
def firstVictims (l : List CacheSector) (core : Nat) (lines : List Nat) : List Nat :=
  let marked (m : CacheMark) := lines.filter fun x => lineMark l core x == m
  if marked .next ≠ [] then marked .next else if marked .plain ≠ [] then marked .plain else lines

/-- The line that replacement selects among the lines of a full set: one that has a victim (R100), in the order of the marks (R110),
and among equals as the part chooses. -/
def selectLine (s : State) (l : List CacheSector) (core : Nat) (lines : List Nat) : Option Nat :=
  let may := firstVictims l core (lines.filter fun x => l.any (victims l core x))
  listAt may (Config.victim s.cycle may % may.length)

/-- How an access installs a sector: whether the first and the second level may allocate its line (R101, R110), the plane
record that it carries (R100), and the mark that its policy gives the line at the second level (R110). -/
structure Install where
  l1 : Bool
  l2 : Bool
  planeRec : Option PlaneRec
  mark : CacheMark := .plain
deriving DecidableEq, Repr

/-- An ordinary access (R110). -/
def Install.normal : Install := { l1 := true, l2 := true, planeRec := none }

/-- An access of the policies that pass the first level by (R110), and of the classes that do not use it (R135). -/
def Install.below : Install := { l1 := false, l2 := true, planeRec := none }

/-- An access without a plane record to a PLANE range (R101). -/
def Install.never : Install := { l1 := false, l2 := false, planeRec := none }

/-- Whether a plane access finds the line of a sector with another record (R100). -/
def otherRecord (w : Install) (core sector : Nat) (e : CacheSector) : Bool :=
  match w.planeRec with
  | some r => e.core == core && lineOf e.sector == lineOf sector && e.planeRec != some r
  | none => false

/-- Whether a level that allocates may take the line of an access: a plane line needs its prefix (R100, R101). -/
def prefixFor (l : List CacheSector) (core : Nat) (w : Install) : Bool :=
  match w.planeRec with
  | some r => prefixHeld l core r
  | none => true

/-! ### The second-level cache (R111)

Its sectors stand at their home slices; which slice near it a line has moved to is timing (R112, log 47). The field `core` of a
sector here is 0. -/

/-- The second-level copy of a sector. -/
def l2Find (s : State) (sector : Nat) : Option CacheSector := s.l2.find? fun e => e.sector == sector

/-- The bytes of a sector as the second-level cache serves them, with its poison. -/
def l2Sector (s : State) (sector : Nat) : List Byte × Bool :=
  match l2Find s sector with
  | some e => (e.data, e.poison)
  | none => dramSector s sector

/-- A byte as the second-level cache serves it. -/
def memByte (s : State) (pa : Nat) : Byte := (listAt (l2Sector s (sectorOf pa)).1 (pa % 32)).getD 0

/-- n bytes as the second-level cache serves them. -/
def memBytes (s : State) (pa : Nat) : Nat → List Byte
  | 0 => []
  | n + 1 => memByte s pa :: memBytes s (pa + 1) n

/-- Writes a second-level sector back to DRAM where it is dirty. -/
def l2WriteBack (s : State) (e : CacheSector) : State := if e.dirty then toDram s e.sector e.data e.poison else s

/-- Removes the second-level sectors that meet a test, and with them the plane lines that lose their prefix; those dirty are
written back first (R100). -/
def l2Drop (s : State) (p : CacheSector → Bool) : State :=
  let kept := s.l2.filter fun e => !p e
  let s := { s with l2 := kept.filter (prefixOk kept) }
  (kept.filter fun e => !prefixOk kept e).foldl l2WriteBack s

/-- Writes the dirty second-level sectors that meet a test back to DRAM; they stay, clean. -/
def cleanL2 (s : State) (p : CacheSector → Bool) : State :=
  let s' := (s.l2.filter p).foldl l2WriteBack s
  { s' with l2 := s'.l2.map fun e => if p e then { e with dirty := false } else e }

/-- Puts a sector into the second-level cache, in place of any copy there. -/
def l2Put (s : State) (e : CacheSector) : State := { s with l2 := e :: s.l2.filter fun x => x.sector != e.sector }

/-- Evicts a line from the second-level cache (R100, R111). -/
def evictL2 (s : State) (line : Nat) : State :=
  let gone := victims s.l2 0 line
  l2Drop (cleanL2 s gone) gone

/-- The second-level lines of the set of a line: 16 ways in its home slice (R111). -/
def l2SetLines (s : State) (line : Nat) : List Nat :=
  let slice := (linesIn s.l2).filter fun x => homeSlice (128 * x) == homeSlice (128 * line)
  if slice.length < Config.l2Ways then [] else slice.filter fun x => Config.l2Set x == Config.l2Set line

/-- Whether the line of a sector is in its second-level set, or finds a way free there (R111). -/
def l2Fits (s : State) (sector : Nat) : Bool :=
  let set := l2SetLines s (lineOf sector)
  decide (set.length < Config.l2Ways) || set.contains (lineOf sector)

/-- The same at the second level (R111, R100; log 79). -/
def l2Room (s : State) (sector : Nat) : Nat → State
  | 0 => s
  | fuel + 1 =>
    if l2Fits s sector then s
    else match selectLine s s.l2 0 (l2SetLines s (lineOf sector)) with
      | some x => l2Room (evictL2 s x) sector fuel
      | none => s

/-- A plane access with another record removes the line from the second level (R100). -/
def l2Other (s : State) (sector : Nat) (w : Install) : State := l2Drop (cleanL2 s (otherRecord w 0 sector)) (otherRecord w 0 sector)

/-- Room for a sector that the second level may take; none where it may not. -/
def l2Admit (s : State) (sector : Nat) (w : Install) : Option State :=
  if w.l2 && prefixFor s.l2 0 w then
    let s := l2Room s sector s.l2.length
    if prefixFor s.l2 0 w && l2Fits s sector then some s else none
  else none

/-- The lines marked as last victims in the home slice of a line (R110). -/
def keptLines (s : State) (line : Nat) : List Nat :=
  (linesIn s.l2).filter fun x => lineMark s.l2 0 x == .last && homeSlice (128 * x) == homeSlice (128 * line)

/-- Whether four ways of the set of a line hold lines marked as last victims (R110). -/
def keepFull (s : State) (line : Nat) : Bool :=
  let kept := keptLines s line
  decide (Config.keepWays ≤ kept.length) &&
    decide (Config.keepWays ≤ countP (fun x => Config.l2Set x == Config.l2Set line) kept)

/-- The mark of a line as an access allocates it: a line present keeps its own, and of a set's ways at most four hold lines marked as
last victims (R110; log 94). -/
def l2Mark (s : State) (sector : Nat) (w : Install) : CacheMark :=
  if (linesIn s.l2).contains (lineOf sector) then lineMark s.l2 0 (lineOf sector)
  else if w.mark == .last && keepFull s (lineOf sector) then .plain
  else w.mark

/-- Stores a whole sector at the second level: in its copy, in a new copy, or, where none may be allocated, in DRAM (R101). -/
def l2Store (s : State) (sector : Nat) (data : List Byte) (poison : Bool) (w : Install) : State :=
  let s := l2Other s sector w
  match l2Find s sector with
  | some e => l2Put s { e with data := data, dirty := true, poison := poison }
  | none =>
    match l2Admit s sector w with
    | some s => l2Put s { core := 0, sector := sector, data := data, dirty := true, poison := poison, planeRec := w.planeRec,
                           mark := l2Mark s sector w }
    | none => toDram s sector data poison

/-- Marks a sector poisoned where the second level serves it (R115, R116). -/
def l2SetPoison (s : State) (sector : Nat) : State :=
  match l2Find s sector with
  | some e => l2Put s { e with dirty := true, poison := true }
  | none => setPoison s sector true

/-- Keeps a clean second-level copy of a sector that has been read (R110). -/
def l2Fill (s : State) (sector : Nat) (w : Install) : State :=
  let s := l2Other s sector w
  match l2Find s sector with
  | some _ => s
  | none =>
    match l2Admit s sector w with
    | some s =>
      let d := dramSector s sector
      l2Put s { core := 0, sector := sector, data := d.1, dirty := false, poison := d.2, planeRec := w.planeRec,
                mark := l2Mark s sector w }
    | none => s

/-! ### The first-level caches (R107) -/

/-- A core's copy of a sector. -/
def l1Find (s : State) (core sector : Nat) : Option CacheSector :=
  s.l1.find? fun e => e.core == core && e.sector == sector

/-- The dirty copy of a sector, in whichever core it stands. -/
def l1Dirty (s : State) (sector : Nat) : Option CacheSector := s.l1.find? fun e => e.sector == sector && e.dirty

/-- A holder code of a write token is that of a link station (R236). -/
def isStation (holder : Nat) : Bool := decide (3840 ≤ holder) && decide (holder < 3856)

/-- Writes a dirty sector back to the second-level cache, with its poison (R107, R115). A link station, which knows no range, does not
allocate there (R101; log 95). -/
def writeBack (s : State) (e : CacheSector) : State :=
  if e.dirty then
    l2Store s e.sector e.data e.poison (if isStation e.core then .never else { Install.below with planeRec := e.planeRec })
  else s

/-- Removes the copies that meet a test, and with a plane line every higher plane line of its group, with an exponent line
every plane line of its groups; those dirty are written back first (R100). -/
def l1Drop (s : State) (p : CacheSector → Bool) : State :=
  let kept := s.l1.filter fun e => !p e
  let s := { s with l1 := kept.filter (prefixOk kept) }
  (kept.filter fun e => !prefixOk kept e && e.dirty).foldl writeBack s

/-- Installs a copy of a sector in a core, in place of any copy there. -/
def l1Put (s : State) (e : CacheSector) : State :=
  { s with l1 := e :: s.l1.filter fun x => !(x.core == e.core && x.sector == e.sector) }

/-- Writes back every dirty sector that meets a test; the copies stay, clean (R146). -/
def cleanL1 (s : State) (p : CacheSector → Bool) : State :=
  let s' := (s.l1.filter fun e => p e && e.dirty).foldl writeBack s
  { s' with l1 := s'.l1.map fun e => if p e then { e with dirty := false } else e }

/-- Evicts a line from a core's first-level cache: dirty sectors are written back (R107). -/
def evictL1 (s : State) (core line : Nat) : State :=
  let gone := victims s.l1 core line
  l1Drop (cleanL1 s gone) gone

/-- The lines of a core's first-level set, whose index is bits [13:7] of the address (R107). -/
def l1SetLines (s : State) (core line : Nat) : List Nat :=
  (linesIn (s.l1.filter fun e => e.core == core)).filter fun x => x % Config.l1Sets == line % Config.l1Sets

/-- Whether the line of a sector is in its first-level set of 20 ways, or finds one free (R107). -/
def l1Fits (s : State) (core sector : Nat) : Bool :=
  let set := l1SetLines s core (lineOf sector)
  decide (set.length < Config.l1Ways) || set.contains (lineOf sector)

/-- Evicts until the line of a sector fits in its first-level set, or no line of the set may go, over fuel (R107, R100). The PHELD line
that goes in place of a selected plane line may lie in another set, and R100 does not say what follows: another line is selected, and
where none may go the new line is not installed (DESIGN CHOICE, log 79). -/
def l1Room (s : State) (core sector : Nat) : Nat → State
  | 0 => s
  | fuel + 1 =>
    if l1Fits s core sector then s
    else match selectLine s s.l1 core (l1SetLines s core (lineOf sector)) with
      | some x => l1Room (evictL1 s core x) core sector fuel
      | none => s

/-- The bytes of a sector as the home slice serves them: from the holder where it is dirty there (R145). -/
def homeSector (s : State) (sector : Nat) : List Byte × Bool :=
  match l1Dirty s sector with
  | some e => (e.data, e.poison)
  | none => l2Sector s sector

/-- The bytes of a sector as the LS class of a core reads them (R107, R145). -/
def lsSector (s : State) (core sector : Nat) : List Byte × Bool :=
  match l1Find s core sector with
  | some e => (e.data, e.poison)
  | none => homeSector s sector

/-- A byte as the LS class of a core reads it. -/
def lsByte (s : State) (core pa : Nat) : Byte := (listAt (lsSector s core (sectorOf pa)).1 (pa % 32)).getD 0

/-- Whether the LS class of a core finds the sector of an address poisoned (R116). -/
def lsPoisoned (s : State) (core pa : Nat) : Bool := (lsSector s core (sectorOf pa)).2

/-- A byte as the home slice serves it: PCIe, control cores, the module's own units (R208, R246). -/
def homeByte (s : State) (pa : Nat) : Byte := (listAt (homeSector s (sectorOf pa)).1 (pa % 32)).getD 0

/-- n bytes as the home slice serves them. -/
def homeBytes (s : State) (pa : Nat) : Nat → List Byte
  | 0 => []
  | n + 1 => homeByte s pa :: homeBytes s (pa + 1) n

/-- A plane access whose record differs from that of the core's cached line removes the line (R100). -/
def dropOther (s : State) (core sector : Nat) (w : Install) : State :=
  l1Drop (cleanL1 s (otherRecord w core sector)) (otherRecord w core sector)

/-- Room for a sector that a core's first-level cache may take; none where it may not (R100, R101, R110). -/
def l1Admit (s : State) (core sector : Nat) (w : Install) : Option State :=
  if w.l1 && prefixFor s.l1 core w then
    let s := l1Room s core sector s.l1.length
    if prefixFor s.l1 core w && l1Fits s core sector then some s else none
  else none

/-- The holder code of the home slice (R145, R236). -/
def homeHolder : Nat := 0xFFFF

/-- The holder of a region's write token (R145). -/
def holderOf (s : State) (region : Nat) : Nat := smGet homeHolder s.tokHolder region

/-- Passes a region's token to a new holder: the previous holder writes its dirty sectors of the region back, and every
copy outside the new holder is invalidated (R145). -/
def passToken (s : State) (region holder : Nat) : State :=
  if holderOf s region = holder then s
  else
    let s := cleanL1 s fun e => regionOf e.sector == region
    let s := l1Drop s fun e => regionOf e.sector == region && e.core != holder
    { s with tokHolder := smSet homeHolder s.tokHolder region holder }

/-- A local access to [lo, hi) takes home the tokens of its regions that link stations' atomic units hold, which write their words
back (R156). -/
def recallStations (s : State) (lo hi : Nat) : State :=
  (s.tokHolder.filter fun x => isStation x.2 && decide (512 * x.1 < hi) && decide (lo < 512 * x.1 + 512)).foldl
    (fun s x => passToken s x.1 homeHolder) s

/-- Keeps a clean copy of a sector in a core that has loaded it, and at the second level (R107, R110). The home slice has a holder write a
dirty copy back when it probes it for another core (R145), so that an engine read after the loader's synchronisation sees it (R152,
log 111). -/
def allocSector (s : State) (core sector : Nat) (w : Install) : State :=
  let s := dropOther s core sector w
  match l1Find s core sector with
  | some _ => s
  | none =>
    let s := cleanL1 s fun e => e.sector == sector
    let d := l2Sector s sector
    let s := l2Fill s sector w
    match l1Admit s core sector w with
    | some s => l1Put s { core := core, sector := sector, data := d.1, dirty := false, poison := d.2, planeRec := w.planeRec }
    | none => s

/-! ### Writes -/

/-- Bytes at consecutive addresses as writes. -/
def writesAt (pa : Nat) : List Byte → List (Nat × Byte)
  | [] => []
  | b :: bs => (pa, b) :: writesAt (pa + 1) bs

/-- The 32 bytes of a sector after some of them are written: (offset, byte) pairs, a later pair over an earlier one. -/
def patchSector (data : List Byte) (ws : List (Nat × Byte)) : List Byte :=
  ws.foldl (fun d w => listSet d w.1 w.2) ((List.range 32).map fun k => (listAt data k).getD 0)

/-- The sectors that some written bytes touch, in order of first touch. -/
def sectorsOf : List (Nat × Byte) → List Nat
  | [] => []
  | w :: ws => let r := sectorsOf ws; if r.contains (sectorOf w.1) then r else sectorOf w.1 :: r

/-- The writes that fall in a sector, by offset. -/
def sectorWrites (sector : Nat) (ws : List (Nat × Byte)) : List (Nat × Byte) :=
  (ws.filter fun w => sectorOf w.1 == sector).map fun w => (w.1 % 32, w.2)

/-- Whether the writes cover all 32 bytes of a sector (R115). -/
def coversSector (ws : List (Nat × Byte)) : Bool := (List.range 32).all fun k => ws.any fun w => w.1 == k

/-- Writes bytes of one sector at the second level (R107, R135). `whole` says that the instruction or operation writes all 32
bytes of the sector, in this part or others, which clears its poison (R115). -/
def l2WriteSector (s : State) (all : List (Nat × Byte)) (whole : Bool) (w : Install) (sector : Nat) : State :=
  let ws := sectorWrites sector all
  let old := l2Sector s sector
  l2Store s sector (patchSector old.1 ws) (old.2 && !(whole || coversSector ws)) w

/-- Writes bytes of one sector through the LS class of a core: the core takes the token, every other core's copy is
invalidated, and the sector becomes dirty in the core (R107, R145), or, where the access does not install it, is written at
the next level (R101). A write of all 32 bytes clears poison (R115). -/
def lsWriteSector (s : State) (core : Nat) (all : List (Nat × Byte)) (how : Nat → Install) (sector : Nat) : State :=
  let s := passToken s (regionOf sector) core
  let s := l1Drop s fun e => e.sector == sector && e.core != core
  let s := dropOther s core sector (how sector)
  let ws := sectorWrites sector all
  match l1Find s core sector with
  | some e =>
    l1Put s { e with data := patchSector e.data ws, dirty := true, poison := e.poison && !coversSector ws }
  | none =>
    match l1Admit s core sector (how sector) with
    | some s =>
      let s := l2Fill s sector (how sector)
      let old := l2Sector s sector
      l1Put s { core := core, sector := sector, data := patchSector old.1 ws, dirty := true,
                poison := old.2 && !coversSector ws, planeRec := (how sector).planeRec }
    | none => l2WriteSector s all false (how sector) sector

/-- Writes the bytes of one instruction through the LS class of a core (R108): a later pair over an earlier one. -/
def lsWrite (s : State) (core : Nat) (how : Nat → Install) (ws : List (Nat × Byte)) : State :=
  (sectorsOf ws).foldl (fun s sec => lsWriteSector s core ws how sec) s

/-- Writes bytes of one engine operation at the second-level cache: how each sector installs, and whether the operation writes
it whole. -/
def l2Write (s : State) (how : Nat → Install) (whole : Nat → Bool) (ws : List (Nat × Byte)) : State :=
  (sectorsOf ws).foldl (fun s sec => l2WriteSector s ws (whole sec) (how sec) sec) s

/-- A holder takes a sector: its region's token passes to it, and no copy above the second level stays (R145, R156). -/
def homeTake (s : State) (holder sector : Nat) : State :=
  let s := passToken s (regionOf sector) holder
  let s := cleanL1 s fun e => e.sector == sector
  l1Drop s fun e => e.sector == sector

/-- Writes bytes at the home slice: the token is recalled from whoever holds it, and the holder is as given (R244, R246); how each
sector installs at the second level (R101). -/
def homeWriteAs (s : State) (holder : Nat) (how : Nat → Install) (ws : List (Nat × Byte)) : State :=
  (sectorsOf ws).foldl (fun s sec => l2WriteSector (homeTake s holder sec) ws false (how sec) sec) s

/-- Writes bytes at the home slice for an agent that uses no range, or for a unit that brings no plane record: no line is allocated, so
that a PLANE range's lines stay as R100 and R101 have them (log 109). -/
def homeWrite (s : State) (holder : Nat) (ws : List (Nat × Byte)) : State := homeWriteAs s holder (fun _ => .never) ws

/-- Writes bytes of one sector to DRAM, by the second-level cache (R114): every copy of it is written back and invalidated first. -/
def dramWriteSector (s : State) (all : List (Nat × Byte)) (whole : Bool) (sector : Nat) : State :=
  let s := homeTake s homeHolder sector
  let s := l2Drop (cleanL2 s fun e => e.sector == sector) fun e => e.sector == sector
  let ws := sectorWrites sector all
  let old := dramSector s sector
  toDram s sector (patchSector old.1 ws) (old.2 && !(whole || coversSector ws))

/-! ### Quantum sums (R155) -/

/-- The bytes of a quantum's word. -/
def Quantum.len (x : Quantum) : Nat := if x.w64 then 8 else 4

/-- Applies one pending quantum sum to its word at the home slice, which takes the word first (R155, R156). -/
def applyQuantum (s : State) (x : Quantum) : State :=
  let s := homeTake s homeHolder (sectorOf x.addr)
  let v := wrapN (8 * x.len) ((natOf (memBytes s x.addr x.len) : Int) + x.sum)
  l2WriteSector s (writesAt x.addr (bytesOf x.len v)) false Install.never (sectorOf x.addr)

/-- Whether a pending sum's word shares a byte with [lo, hi). -/
def quantumTouches (lo hi : Nat) (x : Quantum) : Bool := decide (x.addr < hi) && decide (lo < x.addr + x.len)

/-- Applies the pending quantum sums of the words that an access to [lo, hi) touches (R155). -/
def applySums (s : State) (lo hi : Nat) : State :=
  let s' := (s.quanta.filter (quantumTouches lo hi)).foldl applyQuantum s
  { s' with quanta := s'.quanta.filter fun x => !quantumTouches lo hi x }

/-- What a local access to [lo, hi) does first: the stations give back its tokens (R156), and its words take their pending sums
(R155). -/
def flushQuanta (s : State) (lo hi : Nat) : State := applySums (recallStations s lo hi) lo hi

/-! ### The port atomic units (R21, R156)

Station n holds its hot words' sectors in `l1`, under its holder code. -/

/-- The sectors that a station's atomic unit holds. -/
def stationHeld (s : State) (station : Nat) : List Nat := (s.l1.filter fun e => e.core == station).map (·.sector)

/-- A station's unit gives up a sector: it is written back, and the token of its region returns home with the last word of the region
that the unit holds (R156). -/
def stationEvict (s : State) (station sector : Nat) : State :=
  let mine (e : CacheSector) : Bool := e.core == station && e.sector == sector
  let s := l1Drop (cleanL1 s mine) mine
  if (stationHeld s station).any fun x => regionOf x == regionOf sector then s else passToken s (regionOf sector) homeHolder

/-- Makes room in the 64 KiB of a station's unit (R21): where it is full, one sector goes, as the part chooses. -/
def stationRoom (s : State) (station sector : Nat) : State :=
  let held := stationHeld s station
  if held.length < Config.stationSectors ∨ held.contains sector then s
  else match listAt held (Config.victim s.cycle held % held.length) with
    | some x => stationEvict s station x
    | none => s

/-- A station's unit takes the token of a sector's region and holds the sector (R156). -/
def stationTake (s : State) (station sector : Nat) : State :=
  let s := stationRoom s station sector
  let s := passToken s (regionOf sector) station
  match l1Find s station sector with
  | some _ => s
  | none =>
    let d := l2Sector s sector
    l1Put s { core := station, sector := sector, data := d.1, dirty := false, poison := d.2, planeRec := none }

/-- A station's unit writes bytes of a sector that it holds: they reach memory when it writes the sector back (R21, R156). -/
def stationWrite (s : State) (station sector : Nat) (ws : List (Nat × Byte)) : State :=
  match l1Find s station sector with
  | some e => l1Put s { e with data := patchSector e.data (sectorWrites sector ws), dirty := true }
  | none => s

/-- A byte as a unit of the module reads it that may not change State, with the pending sums of its word applied: the walker
(R121, R155). -/
def walkByte (s : State) (pa : Nat) : Byte :=
  match s.quanta.find? (quantumTouches pa (pa + 1)) with
  | some x =>
    BitVec.ofNat 8 (wrapN (8 * x.len) ((natOf (homeBytes s x.addr x.len) : Int) + x.sum) / 2 ^ (8 * (pa - x.addr)))
  | none => homeByte s pa

/-- A 64-bit word as the walker reads it (R121). A table that TBASE puts in unpopulated or device space is read, and changed, as memory
there would be: the spec does not say what the walker meets (DESIGN CHOICE, log 110). -/
def walkWord (s : State) (pa : Nat) : Nat := natOf ((List.range 8).map fun k => walkByte s (pa + k))

/-- A 64-bit word as the home slice serves it. -/
def homeWord (s : State) (pa : Nat) : Nat := natOf (homeBytes s pa 8)

/-- A store of a control core or of the module's own units (R20, R208): performed at the home slice. -/
def moduleStore (s : State) (pa : Nat) (bs : List Byte) : State :=
  homeWrite (flushQuanta s pa (pa + bs.length)) homeHolder (writesAt pa bs)

/-- The reset value of a sector's race fields. -/
def noTrack : Track := { d := false, wr := 4095, rs := 0 }

/-- The race fields of a sector (R145). -/
def trackOf (s : State) (sector : Nat) : Track := smGet noTrack s.track sector

/-- Sets the race fields of a sector. -/
def setTrack (s : State) (sector : Nat) (t : Track) : State := { s with track := smSet noTrack s.track sector t }

/-- Applies a function to the race fields that a test selects. -/
def mapTrack (s : State) (p : Nat → Track → Bool) (f : Track → Track) : State :=
  { s with track := (s.track.map fun kt => if p kt.1 kt.2 then (kt.1, f kt.2) else kt).filter fun kt => kt.2 ≠ noTrack }

end Sys2Proof.Machine
end

