-- ==== Sys2Proof/Machine/Ranges.lean ====
section
/-!
DEFINITION. Range entries, range tables and the walker (07 R117 to R123), and the well-formedness of an entry (R118, R238).
-/
namespace Sys2Proof.Machine

/-- A range entry (R117). WLO and WHI are in units of 2^16; the other addresses are whole. -/
structure RangeEntry where
  st : Nat
  base : Nat
  limit : Nat
  grain : Nat
  pbase : Nat
  asid : Nat
  r : Bool
  w : Bool
  x : Bool
  sealed : Bool
  gth : Bool
  plane : Bool
  cap : Bool
  self : Bool
  egress : Bool
  back : Bool
  wlo : Nat
  whi : Nat
  cbase : Nat
  glim : Nat
  /-- Every reserved field is zero, GRAIN is at most 8 and STATE is not 0b11. -/
  clean : Bool
deriving DecidableEq, Repr

/-- STATE codes (R117). -/
def rsValid : Nat := 1
def rsMigrating : Nat := 2

/-- Reads an entry from its eight words (R117). -/
def decodeEntry (w0 w1 w2 w3 w4 w5 w6 w7 : Nat) : RangeEntry :=
  { st := bitsN w0 1 0, base := bitsN w0 55 7 * 128, limit := bitsN w1 55 7 * 128, grain := bitsN w2 3 0,
    pbase := bitsN w2 51 7 * 128, asid := bitsN w3 12 0, r := bitN w3 13, w := bitN w3 14, x := bitN w3 15,
    sealed := bitN w3 16, gth := bitN w3 17, plane := bitN w3 18, cap := bitN w3 19, self := bitN w3 20,
    egress := bitN w3 21, back := bitN w3 22, wlo := bitsN w3 63 24, whi := bitsN w5 63 24, cbase := bitsN w4 51 7 * 128,
    glim := bitsN w6 55 7 * 128
    clean := bitsN w0 6 2 == 0 && bitsN w0 63 56 == 0 && bitsN w0 1 0 != 3 && bitsN w1 6 0 == 0 && bitsN w1 63 56 == 0 &&
      decide (bitsN w2 3 0 ≤ 8) && bitsN w2 6 4 == 0 && bitsN w2 63 52 == 0 && !bitN w3 23 && bitsN w4 6 0 == 0 &&
      bitsN w4 63 52 == 0 && bitsN w5 23 0 == 0 && bitsN w6 6 0 == 0 && bitsN w6 63 56 == 0 && w7 == 0 }

/-- One or zero. -/
def bnat (b : Bool) : Nat := if b then 1 else 0

/-- The eight words of an entry (R117). -/
def encodeEntry (e : RangeEntry) : List Nat :=
  [e.st + e.base, e.limit, e.grain + e.pbase,
   e.asid + bnat e.r * 2 ^ 13 + bnat e.w * 2 ^ 14 + bnat e.x * 2 ^ 15 + bnat e.sealed * 2 ^ 16 + bnat e.gth * 2 ^ 17 +
     bnat e.plane * 2 ^ 18 + bnat e.cap * 2 ^ 19 + bnat e.self * 2 ^ 20 + bnat e.egress * 2 ^ 21 + bnat e.back * 2 ^ 22 +
     e.wlo * 2 ^ 24,
   e.cbase, e.whi * 2 ^ 24, e.glim, 0]

/-- The bytes of an entry. -/
def entryBytes (e : RangeEntry) : List Byte := (encodeEntry e).flatMap (bytesOf 8)

/-- An ASID descriptor after reset (R120). -/
def noAsid : AsidDesc := { en := false, rsv := false, tbase := 0, count := 0, tsize := 0 }

/-- The descriptor of an ASID (R120). -/
def asidDesc (s : State) (asid : Nat) : AsidDesc := smGet noAsid s.asids asid

/-- The words of the entry in a slot of a table, as the walker reads them (R121). A poisoned sector gives its bytes and no
fault, which the spec leaves open (log 81). -/
def tableWords (s : State) (d : AsidDesc) (k : Nat) : List Nat := (List.range 8).map fun j => walkWord s (d.tbase + 64 * k + 8 * j)

/-- The entry of eight words (R117). -/
def entryOf8 (w : List Nat) : RangeEntry :=
  let x (k : Nat) : Nat := (listAt w k).getD 0
  decodeEntry (x 0) (x 1) (x 2) (x 3) (x 4) (x 5) (x 6) (x 7)

/-- The entry in a slot of a table. -/
def tableEntry (s : State) (d : AsidDesc) (k : Nat) : RangeEntry := entryOf8 (tableWords s d k)

/-- The binary search of R121: the last slot in [lo, hi) whose BASE is at most va, over fuel. -/
def walk (s : State) (d : AsidDesc) (va : Nat) : Nat → Nat → Nat → Option (Nat × RangeEntry)
  | 0, _, _ => none
  | fuel + 1, lo, hi =>
    if hi ≤ lo then none
    else
      let mid := (lo + hi) / 2
      let e := tableEntry s d mid
      if e.base ≤ va then
        match walk s d va fuel (mid + 1) hi with
        | some r => some r
        | none => some (mid, e)
      else walk s d va fuel lo mid

/-- The entry whose range holds an address, with its slot (R121). -/
def findRange (s : State) (asid va : Nat) : Option (Nat × RangeEntry) :=
  let d := asidDesc s asid
  if !d.en ∨ va ≥ 2 ^ 56 then none
  else match walk s d va 18 0 d.count with
    | some (k, e) => if va < e.limit then some (k, e) else none
    | none => none

/-- The span [lo, hi) lies in the peer window of this number (R238). -/
def inPeerWindow (lo hi : Nat) : Option Nat :=
  if lo < Config.devLo + Config.peerLo then none
  else
    let w := (lo - Config.devLo - Config.peerLo) / Config.peerSize
    if w < 64 ∧ hi ≤ Config.devLo + Config.peerLo + (w + 1) * Config.peerSize then some w else none

/-- A peer window after reset (R238). -/
def noWindow : PeerWindow := { wen := false, msg := false, pmod := 0, ports := 0, ppbase := 0 }

/-- A peer window (R238). -/
def peerWindow (s : State) (w : Nat) : PeerWindow := smGet noWindow s.windows w

/-- An entry is well formed (R118, R238). -/
def entryOk (s : State) (e : RangeEntry) : Bool :=
  let hi := e.pbase + (e.glim - e.base)
  let devSpan := decide (Config.devLo ≤ e.pbase) && decide (hi ≤ Config.devLo + Config.peerLo)
  let peerSpan := match inPeerWindow e.pbase hi with
    | some w => (peerWindow s w).wen
    | none => false
  e.clean && decide (e.base < e.limit) && decide (e.limit ≤ e.glim) &&
  (if e.cap then decide (Config.capLo ≤ e.pbase) && decide (hi ≤ Config.capHi)
   else decide (hi ≤ Config.fastHi) || (!e.back && (devSpan || peerSpan))) &&
  (!e.back || (decide (Config.capLo ≤ e.cbase) && decide (e.cbase + (e.glim - e.base) ≤ Config.capHi))) &&
  !(e.cap && e.back)

/-- Whether the range's bytes are resident without a window: CAP, device registers, peer windows (R118, R119, R238). -/
def wholeResident (e : RangeEntry) : Bool := e.cap || decide (Config.devLo ≤ e.pbase)

/-- Whether an address of a range is resident (R117, R119). -/
def residentAt (e : RangeEntry) (va : Nat) : Bool :=
  wholeResident e || (decide (e.wlo * 2 ^ 16 ≤ va) && decide (va < e.whi * 2 ^ 16))

/-- What an access does (R123). -/
inductive Access where
  | read | write | atomic | fetch
deriving DecidableEq, Repr

/-- What a translation answers (R119, R123). -/
inductive Xlat where
  /-- The access may proceed at this physical address, in this range. -/
  | at (pa : Nat) (e : RangeEntry)
  | fault (c : Cause)
  /-- A partial-residency fault that the residency unit serves (R126). -/
  | absent (e : RangeEntry)
  /-- The range is MIGRATING (R132). -/
  | held (e : RangeEntry)
deriving DecidableEq, Repr

/-- Whether an access has the permission it requires (R123). -/
def permitted (a : Access) (e : RangeEntry) : Bool :=
  match a with
  | .read => e.r
  | .write => e.w
  | .atomic => e.r && e.w
  | .fetch => e.x

/-- Whether an access writes (R123 check 3). -/
def writes (a : Access) : Bool :=
  match a with
  | .write | .atomic => true
  | .read | .fetch => false

/-- Translation and the checks of R123, in its order. An entry found within COUNT is used whatever its ASID field says, and an
INVALID one as a VALID one: the spec gives neither a check (log 81). -/
def translate (s : State) (asid : Nat) (a : Access) (va : Nat) : Xlat :=
  match findRange s asid va with
  | none => .fault .noRange
  | some (_, e) =>
    if !entryOk s e then .fault .noRange
    else if !permitted a e then .fault .rangePermission
    else if writes a && e.sealed then .fault .sealedWrite
    else if e.st = rsMigrating then .held e
    else if residentAt e va then .at (e.pbase + (va - e.base)) e
    else if (asidDesc s asid).rsv then .absent e
    else .fault .residency

/-- The entries of a table, in slot order. -/
def tableEntries (s : State) (asid : Nat) : List RangeEntry :=
  let d := asidDesc s asid
  (List.range d.count).map (tableEntry s d)

/-- Whether a physical address lies in a range with an attribute, in any address space in use. -/
def inRangeWith (s : State) (attr : RangeEntry → Bool) (pa : Nat) : Bool :=
  s.asids.any fun x => x.2.en && (tableEntries s x.1).any fun e =>
    attr e && decide (e.pbase ≤ pa) && decide (pa < e.pbase + (e.limit - e.base))

/-- Writes the dirty second-level sectors that meet a test and lie in GTH ranges through to DRAM (R114, R151, R152). -/
def writeThrough (s : State) (p : CacheSector → Bool) : State := cleanL2 s fun e => p e && e.dirty && inRangeWith s (·.gth) (32 * e.sector)

/-! ### The range lookaside (R122)

A copy of a table entry stays equal to it while software keeps R120: a range change removes the copies (R125). So an access is
translated by the table, and the lookaside records which entries a core holds, for snapshots (R236). -/

/-- Puts an entry first in use; the least recently used one of its core leaves beyond 128 (R122). -/
def useLook (s : State) (e : LookEntry) : State :=
  let rest := s.look.filter fun x => !(x.core == e.core && x.asid == e.asid && x.base == e.base)
  { s with look := keepFirst (·.core == e.core) Config.lookEntries (e :: rest) }

/-- The copy that a walk installs (R121): of a VALID entry alone (R122). -/
def walkLook (s : State) (core asid va : Nat) : Option LookEntry :=
  match findRange s asid va with
  | some (k, e) =>
    if e.st = rsValid then
      some { core := core, asid := asid, base := e.base, limit := e.limit, words := tableWords s (asidDesc s asid) k }
    else none
  | none => none

/-- The slots that the binary search of R121 reads, in its order. -/
def walkSlots (s : State) (d : AsidDesc) (va : Nat) : Nat → Nat → Nat → List Nat
  | 0, _, _ => []
  | fuel + 1, lo, hi =>
    if hi ≤ lo then []
    else
      let mid := (lo + hi) / 2
      mid :: (if (tableEntry s d mid).base ≤ va then walkSlots s d va fuel (mid + 1) hi else walkSlots s d va fuel lo mid)

/-- The walker reads whole 128-byte lines of the table (R121), as any access does (R155, R156). -/
def walkLines (s : State) (asid va : Nat) : State :=
  let d := asidDesc s asid
  (if d.en then walkSlots s d va 18 0 d.count else []).foldl
    (fun s k => let line := (d.tbase + 64 * k) / 128 * 128; flushQuanta s line (line + 128)) s

/-- A translation by a core: the entry is used, or walked for where it is absent or its window does not hold the address; what the
walk finds is installed (R121, R122). -/
def touchLook (s : State) (core asid va : Nat) : State :=
  let hit := s.look.find? fun e => e.core == core && e.asid == asid && decide (e.base ≤ va) && decide (va < e.limit)
  match hit with
  | some e =>
    if residentAt (entryOf8 e.words) va then useLook s e
    else
      let s := walkLines s asid va
      useLook s ((walkLook s core asid va).getD e)
  | none =>
    let s := walkLines s asid va
    match walkLook s core asid va with
    | some w => useLook s w
    | none => s

/-- The invalidation step of a change to a span of an address space (R125). -/
def dropLook (s : State) (asid lo hi : Nat) : State :=
  { s with look := s.look.filter fun e => !(e.asid == asid && decide (e.base < hi) && decide (lo < e.limit)) }

/-! ### Locked frames (R253) -/

/-- The length in bytes of a submitted frame (R253). -/
def frameLen (f : Frame) : Nat := f.pitch * f.height * 3 / 2

/-- A physical byte is where the contents of a frame's byte stand (R119, R253): the frame's bytes lie at [base, base + length) of its
ASID, and the contents of each in its range's window, or, outside it, in the backing copy. -/
def frameHolds (s : State) (f : Frame) (pa : Nat) : Bool :=
  (tableEntries s f.asid).any fun e =>
    let holds (lo : Nat) (resident : Bool) : Bool :=
      let va := e.base + (pa - lo)
      decide (lo ≤ pa) && decide (va < e.limit) && residentAt e va == resident &&
        decide (f.base ≤ va) && decide (va < f.base + frameLen f)
    holds e.pbase true || (e.back && holds e.cbase false)

/-- Whether a byte in [pa, pa + len) is locked by the signwriter (R253). -/
def locked (s : State) (pa len : Nat) : Bool :=
  (s.frames.filter (·.locked)).any fun f => (List.range len).any fun k => frameHolds s f (pa + k)

end Sys2Proof.Machine
end

