-- ==== Sys2Proof/Machine/Peers.lean ====
section
/-!
DEFINITION. How this module sends a request to a peer (14 R238, R239, R245): the port that carries it, its address there, and its
sender.
-/
namespace Sys2Proof.Machine

/-- A link station (R237). -/
def portOf (s : State) (n : Nat) : Port := (listAt s.links n).getD Port.afterReset

/-- The ports that may carry a window's traffic, ascending: those in service, and those that retrain for a lane repair, after which they
send it (R245). -/
def livePorts (s : State) (w : Nat) : List Nat :=
  (List.range 16).filter fun n =>
    (peerWindow s w).ports.getLsbD n && ((portOf s n).pstate == 2 || (portOf s n).retrainFrom.isSome)

/-- The port that carries a line (R239): a fixed choice among the window's ports in service (log 15). -/
def portFor (s : State) (w pa : Nat) : Option Nat :=
  let ps := livePorts s w
  listAt ps (pa / 128 % ps.length)

/-- The peer physical address of a byte of a window (R238). -/
def peerAddr (s : State) (w pa : Nat) : Nat :=
  (peerWindow s w).ppbase + (pa - (Config.devLo + Config.peerLo + w * Config.peerSize))

/-- Who sends a request: team, stream, lane and engine operation. -/
structure Sender where
  lid : Nat
  tid : Nat
  who : StreamName
  lane : Option Nat
  op : Option Nat
deriving DecidableEq, Repr

/-- An access through a link station is an escaped effect of its team (R218); a load of a window that has still to resolve escapes
when the window commits (R33). What an engine operation sends is no access of the window. -/
def linkEscape (tm : Team) (x : Sender) : Team :=
  match x.who, x.op, tm.hawk.window with
  | .hawk, none, some w =>
    if w.committing then { tm with escaped := true } else { tm with hawk := { tm.hawk with window := some { w with link := true } } }
  | _, _, _ => { tm with escaped := true }

/-- Sends a request through a port (R239), in a flit of its own (R245; log 21). -/
def sendPeer (s : State) (x : Sender) (port w pa va : Nat) (kind : PeerKind) (returning message : Bool) : State :=
  { s with
    nextPeer := s.nextPeer + 1
    links := listModify (fun p => { p with nextSeq := p.nextSeq + 1 }) s.links port
    outputs := s.outputs ++ [.peerSend port s.nextPeer]
    teams := s.teams.map fun tm => if tm.lid == x.lid && tm.tid == x.tid then linkEscape tm x else tm
    peers := s.peers ++ [{ id := s.nextPeer, lid := x.lid, tid := x.tid, who := x.who, port := port, window := w,
                           ppa := peerAddr s w pa, va := BitVec.ofNat 64 va, kind := kind, returning := returning,
                           message := message, lane := x.lane, op := x.op, answer := none,
                           seq := (portOf s port).nextSeq }] }

end Sys2Proof.Machine
end

