-- ==== Sys2Proof/Machine/Ops.lean ====
section
/-!
DEFINITION. The named operations over teams, gangs, hawks and registers: lookups and updates, agent ids, releases, the plumb
line, the kill of a team, and the taking of a trap with the return from it (13 R221 to R229, 12 R219).
-/
namespace Sys2Proof.Machine

/-- The outcome of a step of this machine. -/
abbrev Out := Host.Outcome State Fault Refusal

/-! ### Lookups and updates -/

/-- Updates a team. -/
def modTeam (s : State) (t : Nat) (f : Team → Team) : State := { s with teams := listModify f s.teams t }

/-- Updates a gang of a team. -/
def modGang (s : State) (t g : Nat) (f : Gang → Gang) : State :=
  modTeam s t fun tm => { tm with gangs := listModify f tm.gangs g }

/-- Updates the hawk of a team. -/
def modHawk (s : State) (t : Nat) (f : Hawk → Hawk) : State := modTeam s t fun tm => { tm with hawk := f tm.hawk }

/-- Updates the fragment in a table slot of a gang. -/
def modFragOf (gg : Gang) (f : Nat) (h : Frag → Frag) : Gang :=
  { gg with frags := listModify (Option.map h) gg.frags f }

/-- Updates the fragment in a table slot. -/
def modFrag (s : State) (t g f : Nat) (h : Frag → Frag) : State := modGang s t g fun gg => modFragOf gg f h

/-- The gang of a team. -/
def gangOf (tm : Team) (g : Nat) : Option Gang := listAt tm.gangs g

/-- The fragment in a table slot of a gang. -/
def fragOf (gg : Gang) (f : Nat) : Option Frag := (listAt gg.frags f).join

/-- The launch of an identifier. -/
def launchOf (s : State) (lid : Nat) : Option Launch := s.launches.find? fun l => l.lid == lid

/-- A launch whose step declaration is still to be read: a widening, a move or a peer holds the read (R215). -/
def stepUnread (l : Launch) : Bool := l.record.pclass == 1 && l.vector.isSome && l.stepDecl.isNone && !l.cancelled

/-- The team identifier that the scheduler's read of a step declaration bears among the peer requests: no team's, as these have 32 bits. -/
def stepReader : Nat := 2 ^ 32

/-- Updates a launch. -/
def modLaunch (s : State) (lid : Nat) (f : Launch → Launch) : State :=
  { s with launches := s.launches.map fun l => if l.lid == lid then f l else l }

/-- The index of a team by launch and linear identifier. -/
def teamIdx (s : State) (lid tid : Nat) : Option Nat := listFind (fun tm => tm.lid == lid && tm.tid == tid) s.teams 0

/-- A team by launch and linear identifier. -/
def teamBy (s : State) (lid tid : Nat) : Option Team := s.teams.find? fun tm => tm.lid == lid && tm.tid == tid

/-- A field of a team's launch record; the default where the launch is not live. -/
def launchField {α : Type} (s : State) (tm : Team) (d : α) (f : LaunchRecord → α) : α :=
  match launchOf s tm.lid with
  | some l => f l.record
  | none => d

/-- Race-detection mode of a team's launch (R147, R150). -/
def raceMode (s : State) (tm : Team) : Bool := launchField s tm false (·.race)
/-- Precision enforcement of a team's launch (R95). -/
def strictMode (s : State) (tm : Team) : Bool := launchField s tm false (·.strict)
/-- System launch (R124). -/
def sysMode (s : State) (tm : Team) : Bool := launchField s tm false (·.sys)
/-- Snapshot mode of a team's launch (R233). -/
def snapMode (s : State) (tm : Team) : Bool := launchField s tm false (·.snap)
/-- The ASID of a team's launch. -/
def asidOf (s : State) (tm : Team) : Nat := launchField s tm 0 (·.asid)
/-- Teams per cluster of a team's launch; children are clusters of one team (R38). -/
def cptOf (s : State) (tm : Team) : Nat := if tm.parent.isSome then 1 else launchField s tm 1 (·.cpt)

/-- Team index within its cluster (R25). -/
def teamInCluster (s : State) (tm : Team) : Nat := if tm.parent.isSome then 0 else tm.tid % cptOf s tm

/-- Whether two teams are of one cluster (R25). -/
def sameCluster (s : State) (a b : Team) : Bool :=
  a.lid == b.lid && (a.tid == b.tid ||
    (a.parent.isNone && b.parent.isNone && a.tid / cptOf s a == b.tid / cptOf s b))

/-- Whether a team holds slots of a core (R43). -/
def resident (tm : Team) : Bool :=
  match tm.st with
  | .preload | .running | .swapout | .swapin | .retiring => true
  | .queued | .swapped => false

/-- Enabled cores present (R19). -/
def corePresent (s : State) (c : Nat) : Bool := s.coreMap.getLsbD c

/-! ### Agents and release -/

/-- The agent id of a stream of a placed team (R134). -/
def agentId (tm : Team) : StreamName → Nat
  | .gang g => tm.core * 16 + (listAt tm.slots g).getD 0
  | .hawk => 3072 + tm.core * 4 + tm.slot

/-- The logical core of an agent that has one (R134). -/
def agentCore (a : Nat) : Option Nat :=
  if a < 3072 then some (a / 16) else if a < 3840 then some ((a - 3072) / 4) else none

/-- The compute die of an agent (R12, R16, R21). -/
def agentDie (a : Nat) : Nat :=
  match agentCore a with
  | some c => c / 96
  | none => if a < 3856 then (a - 3840) / 8 else (a - 3856) / 4

/-- The team that an agent id stands for now. -/
def agentTeam (s : State) (a : Nat) : Option Team :=
  s.teams.find? fun tm => resident tm &&
    (if a < 3072 then tm.core == a / 16 && tm.slots.contains (a % 16)
     else a < 3840 && tm.core == (a - 3072) / 4 && tm.slot == (a - 3072) % 4)

/-- Whether agent y lies within the scope that RS names of agent x (R136, R147). -/
def withinRs (s : State) (rs x y : Nat) : Bool :=
  if rs = 0 then false
  else if rs = 3 then agentDie x == agentDie y
  else match agentTeam s x, agentTeam s y with
    | some a, some b => if rs = 1 then a.lid == b.lid && a.tid == b.tid else sameCluster s a b
    | _, _ => false

/-- The race check of R147 for an access by agent y to a sector. -/
def raceHit (s : State) (y sector : Nat) : Bool :=
  let t := trackOf s sector
  t.d && t.wr != y && !withinRs s t.rs t.wr y

/-- Sets D, WR and RS after a plain store by agent x (R146). -/
def markStore (s : State) (x : Nat) (sectors : List Nat) : State :=
  sectors.foldl (fun s sec => setTrack s sec { d := true, wr := x, rs := 0 }) s

/-- A release by an agent of a core at a scope code (R136, R146). Below cluster scope no data move; gang, quad and lane
releases change no field. From cluster scope on, dirty sectors of GTH ranges reach DRAM too (R114). A release at module scope
raises RS to its widest code, 3, before it clears D: R146 names no code for that scope (log 82). -/
def releaseAgent (s : State) (x core scope : Nat) : State :=
  if scope < 3 then s
  else
    let s := if scope ≥ 4 then writeThrough (cleanL1 s fun e => e.core == core) fun _ => true else s
    let s := mapTrack s (fun _ t => t.wr == x) fun t => { t with rs := max t.rs (min 3 (scope - 2)) }
    if scope ≥ 6 then mapTrack s (fun _ t => t.wr == x) fun t => { t with d := false } else s

/-- Records an escaped effect of a team (R218). -/
def escape (s : State) (t : Nat) : State := modTeam s t fun tm => { tm with escaped := true }

/-- A release by a stream of a team, with the escape it may be (R146, R218). -/
def releaseBy (s : State) (t : Nat) (who : StreamName) (scope : Nat) : State :=
  match listAt s.teams t with
  | none => s
  | some tm =>
    let s := releaseAgent s (agentId tm who) tm.core scope
    if scope ≥ 4 ∧ tm.plainStore then escape s t else s

/-- A module-scope release by every stream of a team: a swap, a pre-emption, a retirement (R146). -/
def releaseTeam (s : State) (t : Nat) : State :=
  match listAt s.teams t with
  | none => s
  | some tm =>
    let s := (List.range tm.gangCount).foldl (fun s g => releaseBy s t (.gang g) 6) s
    releaseBy s t .hawk 6

/-! ### The plumb line -/

/-- Codes of the causes (R223). -/
def causeCode : Cause → Nat
  | .illegalInstruction => 0x01 | .illegalOperand => 0x02 | .illegalClause => 0x03 | .illegalConvergence => 0x04
  | .noRange => 0x05 | .rangePermission => 0x06 | .residency => 0x07 | .sealedWrite => 0x08 | .memoryModel => 0x09
  | .poison => 0x0A | .scratchBounds => 0x0B | .stackOverflow => 0x0C | .planeTag => 0x0D | .queueMisuse => 0x0E
  | .arithmetic => 0x0F | .software => 0x10 | .misaligned => 0x11 | .engineError => 0x12

/-- Codes of the engine classes (R135); 7 for none. -/
def classCode : Option EngineClass → Nat
  | some .ls => 0 | some .cp => 1 | some .ga => 2 | some .mx => 3 | some .lk => 4 | none => 7

/-- Fires the plumb line (R234), or drops the trigger while a drain is in progress. src is 0 for SNAP, 1 for an event, 2 for a
management request (R236). The state is latched when the core cycle ends. -/
def firePlumb (s : State) (src cause lid tid : Nat) : State :=
  if s.busy then { s with drop := if s.drop = BitVec.allOnes 16 then s.drop else s.drop + 1 }
  else
    { s with
      busy := true
      seq := s.seq + 1
      latched := some { seq := s.seq + 1, src := src, cause := cause, lid := lid, tid := tid, buf := s.snapbuf, taken := none } }

/-- A trap with a cause in an armed launch fires the plumb line when IEVT and its bit of EVMASK are set (R233, R234). -/
def plumbEvent (s : State) (tm : Team) (code : Nat) : State :=
  if s.ievt && s.evmask.getLsbD (code - 1) && snapMode s tm && decide (1 ≤ code) then firePlumb s 1 code tm.lid tm.tid else s

/-! ### Fresh contexts -/

/-- A fault record that no trap has written (R224). -/
def noFault : FaultRecord :=
  { pc := 0, mask := 0, replay := 0, addr := 0, cause := 0, imp := false, flag := 0, batch := 0, cls := 0, word := 0 }

/-- The fragment with which a gang enters RUNNING (R44, R45). -/
def entryFrag (pc : DWord) : Frag :=
  { home := BitVec.allOnes 64, exmask := BitVec.allOnes 64, pc := pc, entry := none, peel := false, st := .issuing,
    clause := none, count := 0, yPending := 0, replay := none, pool := .reserved, buf := [], waitStamp := 0, spawn := none }

/-- A gang as it enters RUNNING (R44, R69). -/
def freshGang (gentry param : DWord) : Gang :=
  { v := [], o := [], y0 := zeroLanes, y1 := zeroLanes, g := smSet 0 [] 0 param, p := [], tags := [], flags := [],
    reports := [], pend := [], frags := some (entryFrag gentry) :: List.replicate 7 none, stack := [], dq := [], mcfg := 0,
    mseq := 0, rng := 0, flt := noFault, handler := none, inputReport := none, boundary := 0, marked := false,
    lastFrag := 0, lastIssue := 0 }

/-- A hawk as its team enters RUNNING (R44, R69). -/
def freshHawk (hentry param : DWord) : Hawk :=
  { k := smSet 0 [] 0 param, c := 0, kpend := [], cpend := [], ret := [], pc := hentry, st := .issuing, clause := none,
    flags := [], reports := [], predictor := [], window := none, flt := noFault, handler := none }

/-- A team as it waits in QUEUED, with its context as it enters RUNNING (R44, R69). -/
def freshTeam (lid tid : Nat) (parent : Option Nat) (gangs vregs acct lines prio : Nat) (gentry hentry param : DWord)
    (relaunches stamp : Nat) (cluster : Option Nat) : Team :=
  { lid := lid, tid := tid, parent := parent, st := .queued, gangCount := gangs, vregs := vregs, acct := acct,
    lines := lines, gentry := gentry, hentry := hentry, param := param, core := 0, slot := 0, slots := [],
    cluster := cluster, gangs := List.replicate gangs (freshGang gentry param), hawk := freshHawk hentry param, stepno := 0,
    m0 := 0, skimtau := 0, prio := prio, stepnoSeen := 0, skimtauSeen := 0, prioSeen := prio, join := 0, barc := 0, barcCredit := 0, arrived := false, scratch := [],
    tags := [], marks := [], acc := [], badRows := [], queues := [], allow := [], skimCnt := [], mcastNo := 0,
    escaped := false, plainStore := false, relaunches := relaunches, matrixReport := none, peerReport := none, loads := [], eops := [],
    mops := [], nextOp := 0, timer := 0, preempt := none, swapKind := .swap, ctxSlot := none, stamp := stamp, placed := 0,
    entered := 0, inputsLeft := 0, killCause := 0 }

/-- A fill tag's codes (R104). -/
def tagEmpty : BitVec 2 := 0
def tagPending : BitVec 2 := 1
def tagFull : BitVec 2 := 2
def tagFaulted : BitVec 2 := 3

/-! ### Kill, relaunch, escalation -/

/-- Cores of a core cluster (R12). -/
def clusterCores (cl : Nat) : List Nat := (List.range 8).map fun k => cl * 8 + k

/-- Enabled cores present in a core cluster (R19). -/
def clusterPresent (s : State) (cl : Nat) : Nat := countP (corePresent s) (clusterCores cl)

/-- The virtual address of the slot header that a skim key names in a store (R195 to R197). -/
def skimSlotAddr (st : SkimDesc) (key : SkimKey) : Nat :=
  st.sbase + (key.blk + 40503 * key.layer) % st.nslot * (128 * (2 + (st.cpl + 1) * ceilDiv st.iblk 16 + st.olines))

/-- Where the contents of a byte stand: in the window, or in the backing copy (R119); none where it has no contents, lies in no
memory, or may not be written. -/
def contentsAt (s : State) (asid va : Nat) : Option Nat :=
  match findRange s asid va with
  | some (_, e) =>
    if !entryOk s e || !e.w || e.sealed || decide (Config.devLo ≤ e.pbase) then none
    else if residentAt e va then some (e.pbase + (va - e.base))
    else if e.back then some (e.cbase + (va - e.base)) else none
  | none => none

/-- The peer window through which a byte may be written, and its physical address (R238). -/
def peerAt (s : State) (asid va : Nat) : Option (Nat × Nat) :=
  match findRange s asid va with
  | some (_, e) =>
    if !entryOk s e || !e.w || e.sealed then none
    else (inPeerWindow (e.pbase + (va - e.base)) (e.pbase + (va - e.base) + 1)).map fun w => (w, e.pbase + (va - e.base))
  | none => none

/-- Clears SVALID at an address: in this module's memory, as the CP class writes there, but for a byte of a locked frame (R253); or,
through a peer window, with the header's other bits of that byte, by a write that no stream waits for and that goes out when its port has
room (R245; log 106). -/
def clearSlot (s : State) (asid va : Nat) : State :=
  match contentsAt s asid va, peerAt s asid va with
  | some pa, _ =>
    if locked s pa 1 then s
    else
      let s := flushQuanta s pa (pa + 1)
      l2Write s (fun _ => .never) (fun _ => false) [(pa, BitVec.ofNat 8 ((memByte s pa).toNat / 2 * 2))]
  | none, some (w, pa) =>
    { s with slotClears := s.slotClears ++ [{ window := w, pa := pa, va := va, kind := .write [0], message := false }] }
  | none, none => s

/-- Clears SVALID in the slots of the SKIMPUTs that a killed team had in progress, in a launch with the skim on (R196, R202,
R204). -/
def clearSvalid (s : State) (asid : Nat) (skim : Bool) (ops : List EngineOp) : State :=
  ops.foldl (fun s op =>
    match op.kind with
    | .skimput key _ st _ => if skim then clearSlot s asid (skimSlotAddr st key + 5) else s
    | _ => s) s

/-- The streams of a team. -/
def streamsOf (tm : Team) : List StreamName := (List.range tm.gangCount).map StreamName.gang ++ [StreamName.hawk]

/-- What a kill undoes of a team's doings: the D bits of its streams (R146) and its SKIMPUTs in progress (R202). -/
def undoTeam (s : State) (tm : Team) : State :=
  let s := if resident tm then
      (streamsOf tm).foldl (fun s who => mapTrack s (fun _ x => x.wr == agentId tm who && x.d) fun x => { x with d := false }) s
    else s
  clearSvalid s (asidOf s tm) (launchField s tm false (·.skim)) tm.eops

/-- Escalates a fault of a launch (R219): the launch is cancelled with status 0x01, and its teams are gone. Until it completes it counts
towards its queue's 64 (R207). -/
def escalate (s : State) (lid cause tid : Nat) : State :=
  let s := (s.teams.filter fun tm => tm.lid == lid).foldl undoTeam s
  let s := { s with teams := s.teams.filter fun tm => tm.lid != lid, peers := s.peers.filter fun r => r.lid != lid }
  modLaunch s lid fun l =>
    if l.cancelled then l else { l with cancelled := true, status := 1, fcause := cause, fteam := tid }

/-- Moves a team to KILLED (R43, R218, R219): its D bits are cleared without a release (R146), and it returns to QUEUED for
a relaunch where R219 lets it, or its fault is escalated. Its issues of multicasts are forgotten (R164); its arrival at the cluster
barrier stands (R286). -/
def killTeam (s : State) (t : Nat) (cause : Nat) : State :=
  match listAt s.teams t with
  | none => s
  | some tm =>
    let s := undoTeam s tm
    let s := { s with peers := s.peers.filter fun r => !(r.lid == tm.lid && r.tid == tm.tid) }
    let s := modLaunch s tm.lid fun l => { l with groups := l.groups.filter fun g => g.tid != tm.tid }
    match launchOf s tm.lid with
    | none => { s with teams := s.teams.filter fun x => !(x.lid == tm.lid && x.tid == tm.tid) }
    | some l =>
      let fits : Bool := match tm.cluster with
        | some cl => decide (cptOf s tm ≤ clusterPresent s cl) || cptOf s tm == 1
        | none => true
      if l.record.idem ∧ !tm.escaped ∧ tm.relaunches < l.record.retry ∧ fits ∧ !l.cancelled then
        { s with
          stamp := s.stamp + 1
          teams := listSet s.teams t
            { freshTeam tm.lid tm.tid tm.parent tm.gangCount tm.vregs tm.acct tm.lines l.record.prio tm.gentry tm.hentry
                tm.param (tm.relaunches + 1) s.stamp (if cptOf s tm > 1 then tm.cluster else none) with
              barc := tm.barc, arrived := tm.arrived, barcCredit := tm.barcCredit, killCause := cause } }
      else escalate s tm.lid cause tm.tid

/-- What the operand file holds after a clause ends (R64): with KEEP 0 every o register of the fragment's lanes reads zero
from the next clause on. -/
def closeClause (gg : Gang) (home : Mask) (keep : Bool) : Gang :=
  if keep then gg
  else
    let clear (o : Smap Lanes) (n : Nat) : Smap Lanes := smSet zeroLanes o n (mergeLanes home zeroLanes (smGet zeroLanes gg.o n))
    { gg with o := (List.range 8).foldl clear gg.o }

/-! ### Taking a trap and returning from it -/

/-- Causes after which a hawk instruction, or a clause at its header, is executed again (R224). -/
def replayCause (c : Cause) : Bool := decide (0x05 ≤ causeCode c) && decide (causeCode c ≤ 0x0B)

/-- The fault record of a precise trap (R224). -/
def preciseRecord (pc : DWord) (mask replay : Mask) (addr : DWord) (c : Cause) (cls : Option EngineClass) (word : Word) :
    FaultRecord :=
  { pc := BitVec.ofNat 56 pc.toNat, mask := mask, replay := replay, addr := addr, cause := BitVec.ofNat 8 (causeCode c),
    imp := false, flag := 15, batch := 31, cls := BitVec.ofNat 3 (classCode cls), word := word }

/-- The fault record of an imprecise report (R224, R228). -/
def reportRecord (pc : DWord) (replay : Mask) (flag : Nat) (r : Report) : FaultRecord :=
  { pc := BitVec.ofNat 56 pc.toNat, mask := 0, replay := replay, addr := r.addr,
    cause := BitVec.ofNat 8 (causeCode r.cause), imp := true, flag := BitVec.ofNat 4 flag,
    batch := BitVec.ofNat 5 (r.batch.getD 31), cls := BitVec.ofNat 3 (classCode r.cls), word := 0 }

/-- The vector that a team's launch read (R225): the gang's and the hawk's handler, 0 for none. -/
def vectorOf (s : State) (tm : Team) : DWord × DWord :=
  match launchOf s tm.lid with
  | some l => l.vector.getD (0, 0)
  | none => (0, 0)

/-- Takes a trap of a gang's fragment: THE shared operation (R221, R226, R229). An unrecoverable trap kills the team.
Otherwise the record is written, the o and y registers, the result count, the peel flag and the position in the clause are saved, the gang
enters handler mode, and the fragment goes on at GHANDLER with its masks unchanged. `owed` is what the instruction still
owes, for ERET. -/
def takeGangTrap (s : State) (t g f : Nat) (r : FaultRecord) (owed : Option Replay) : State :=
  match listAt s.teams t with
  | none => s
  | some tm =>
    match (gangOf tm g).bind fun gg => (fragOf gg f).map fun fr => (gg, fr) with
    | none => s
    | some (gg, fr) =>
      let s := plumbEvent s tm r.cause.toNat
      let h := (vectorOf s tm).1
      if h = 0 ∨ gg.handler.isSome then killTeam s t r.cause.toNat
      else
        modGang s t g fun gg =>
          let save : HandlerSave :=
            { home := fr.home, o := gg.o, y0 := gg.y0, y1 := gg.y1, count := fr.count, yPending := fr.yPending,
              pc := fr.pc, clause := fr.clause, replay := owed,
              depth := gg.stack.length, marked := gg.marked, peel := fr.peel }
          let keep := match fr.clause with
            | some c => c.keep
            | none => true
          modFragOf { closeClause gg fr.home keep with flt := r, handler := some save, marked := false } f fun fr =>
            { fr with pc := h, clause := none, st := .issuing, count := 0, yPending := 0, replay := none, peel := false }

/-- Takes a trap of the hawk (R226, R229). -/
def takeHawkTrap (s : State) (t : Nat) (r : FaultRecord) : State :=
  match listAt s.teams t with
  | none => s
  | some tm =>
    let s := plumbEvent s tm r.cause.toNat
    let h := (vectorOf s tm).2
    if h = 0 ∨ tm.hawk.handler.isSome then killTeam s t r.cause.toNat
    else
      modHawk s t fun hk =>
        { hk with flt := r, handler := some (hk.pc, hk.clause), pc := h, clause := none, st := .issuing }

end Sys2Proof.Machine
end

