-- ==== Sys2Proof/Machine/Operands.lean ====
section
/-!
DEFINITION. Register reads and writes: the operand codes of R263, the special sources of R264, the destinations with the
precision tag and the last-result file (R65, R71), pending registers (R261), and lane conditions (R26, R27).
-/
namespace Sys2Proof.Machine

/-- A v register in all lanes (R62). -/
def vReg (gg : Gang) (n : Nat) : Lanes := smGet zeroLanes gg.v n
/-- An o register in all lanes (R62). -/
def oReg (gg : Gang) (n : Nat) : Lanes := smGet zeroLanes gg.o n
/-- A g register (R62). -/
def gReg (gg : Gang) (n : Nat) : DWord := smGet 0 gg.g n
/-- A p register as a lane mask (R62). -/
def pReg (gg : Gang) (n : Nat) : Mask := smGet 0 gg.p n
/-- A precision tag (R70). -/
def tagOf (gg : Gang) (n : Nat) : BitVec 26 := smGet 0 gg.tags n
/-- A k register (R62). -/
def kReg (hk : Hawk) (n : Nat) : DWord := smGet 0 hk.k n

/-- Writes a v register in the lanes of a mask. -/
def setV (gg : Gang) (n : Nat) (m : Mask) (x : Lanes) : Gang :=
  { gg with v := smSet zeroLanes gg.v n (mergeLanes m x (vReg gg n)) }
/-- Writes an o register in the lanes of a mask. -/
def setO (gg : Gang) (n : Nat) (m : Mask) (x : Lanes) : Gang :=
  { gg with o := smSet zeroLanes gg.o n (mergeLanes m x (oReg gg n)) }
/-- Writes a g register. -/
def setG (gg : Gang) (n : Nat) (x : DWord) : Gang := { gg with g := smSet 0 gg.g n x }
/-- Writes a p register in the lanes of a mask. -/
def setP (gg : Gang) (n : Nat) (m x : Mask) : Gang := { gg with p := smSet 0 gg.p n (mergeMask m x (pReg gg n)) }
/-- Writes a precision tag. -/
def setTag (gg : Gang) (n : Nat) (x : BitVec 26) : Gang := { gg with tags := smSet 0 gg.tags n x }
/-- Clears VALID of a register's tag, and nothing else (R71, R95). -/
def clearTag (gg : Gang) (n : Nat) : Gang := setTag gg n (tagOf gg n &&& ~~~1)
/-- Writes a k register. -/
def setK (hk : Hawk) (n : Nat) (x : DWord) : Hawk := { hk with k := smSet 0 hk.k n x }

/-- The g register that an 8-bit source code names (R263). -/
def gCode (c : Nat) : Option Nat := if 128 ≤ c ∧ c ≤ 159 then some (c - 128) else none

/-- Whether an 8-bit source code may be read at all, V being the team's register count (R63, R263, R264). The y file is
checked by the result count besides. -/
def srcOk (v c : Nat) : Bool :=
  if c ≤ 111 then decide (c < v) else decide (c ≤ 121) || (decide (128 ≤ c) && decide (c ≤ 173)) || decide (192 ≤ c)

/-- Whether a 7-bit destination code names a 32-bit destination (R63, R263). -/
def dstOk (v c : Nat) : Bool := if c ≤ 111 then decide (c < v) else decide (c ≤ 120)

/-- Whether a code names an even v register whose pair lies below V (R5, R63). -/
def pairOk (v c : Nat) : Bool := decide (c ≤ 110) && c % 2 == 0 && decide (c + 1 < v)

/-- Whether an ADDR code is usable: an even v pair or a g register (R262). -/
def addrOk (v c : Nat) : Bool := pairOk v c || (gCode c).isSome

/-- Whether an ADDR code is usable for a scratchpad offset: any v register or a g register (R262). -/
def offOk (v c : Nat) : Bool := (decide (c ≤ 111) && decide (c < v)) || (gCode c).isSome

/-- The registers that a source code reads. -/
def srcRegs (c : Nat) : List RegName :=
  if c ≤ 111 then [.v c] else if c ≤ 119 then [.o (c - 112)] else if c = 120 then [.y0] else
  match gCode c with
  | some n => [.g n]
  | none => []

/-- The registers that a destination code writes. -/
def dstRegs (c : Nat) : List RegName := if c ≤ 111 then [.v c] else if c ≤ 119 then [.o (c - 112)] else []

/-- The result count that a source code needs (R65). -/
def srcCount (c : Nat) : Nat := if c = 120 then 1 else if c = 121 then 2 else 0

/-- The context in which a gang word executes. -/
structure GCtx where
  t : Nat
  g : Nat
  f : Nat
  tm : Team
  gg : Gang
  fr : Frag
  cl : Clause
  /-- Active lanes (R26): those that a replay runs, or EXMASK under the guard. -/
  act : Mask
  /-- Helper lanes (R26). -/
  helper : Mask
deriving DecidableEq, Repr

/-- The lanes whose quad holds a lane of a mask (R24). -/
def quadsOf (m : Mask) : Mask := maskOf fun l => (List.range 4).any fun j => inMask m (l / 4 * 4 + j)

/-- Helper lanes of a fragment for a set of active lanes (R26). -/
def helperLanes (fr : Frag) (act : Mask) : Mask := fr.home &&& ~~~fr.exmask &&& quadsOf act

/-- The lanes in which a lane instruction writes its v, o and y results (R26, R27). -/
def writeLanes (c : GCtx) : Mask := c.act ||| c.helper

/-- The value of a special source in a lane (R264). -/
def specialSrc (s : State) (c : GCtx) (code l : Nat) : Word :=
  match code with
  | 160 => BitVec.ofNat 32 l
  | 161 => BitVec.ofNat 32 (l / 4)
  | 162 => BitVec.ofNat 32 (l % 4)
  | 163 => BitVec.ofNat 32 (l / 16)
  | 164 => BitVec.ofNat 32 c.g
  | 165 => BitVec.ofNat 32 c.tm.tid
  | 166 => BitVec.ofNat 32 (teamInCluster s c.tm)
  | 167 => BitVec.ofNat 32 c.tm.core
  | 168 => BitVec.ofNat 32 c.tm.lid
  | 169 => c.tm.stepnoSeen
  | 171 => 1
  | 172 => 0x3F800000
  | 173 => 0xFFFFFFFF
  | _ => 0

/-- src(c, L) of R263. -/
def srcLane (s : State) (c : GCtx) (code l : Nat) : Word :=
  if code ≤ 111 then laneOf (vReg c.gg code) l
  else if code ≤ 119 then laneOf (oReg c.gg (code - 112)) l
  else if code = 120 then laneOf c.gg.y0 l
  else if code = 121 then laneOf c.gg.y1 l
  else if code ≤ 159 then BitVec.ofNat 32 (gReg c.gg (code - 128)).toNat
  else if code ≤ 191 then specialSrc s c code l
  else BitVec.ofInt 32 ((code : Int) - 224)

/-- src(c, L) in every lane. -/
def srcLanes (s : State) (c : GCtx) (code : Nat) : Lanes := mkLanes (srcLane s c code)

/-- Whether a code is an inline integer (R263). -/
def isInline (code : Nat) : Bool := decide (192 ≤ code)

/-- src(c, L) read as FP32: an inline integer is converted exactly (R263). -/
def srcF32 (s : State) (c : GCtx) (code l : Nat) : Word :=
  if isInline code then BitVec.ofInt 32 ((code : Int) - 224) |> fun w => w.toInt |> inlineF32 else srcLane s c code l
where
  /-- The FP32 bits of an integer from -32 to 31, exact. -/
  inlineF32 (x : Int) : Word :=
    let n := x.natAbs
    let k := Nat.log2 n
    BitVec.ofNat 32 (if n = 0 then 0 else (if x < 0 then 2 ^ 31 else 0) + (k + 127) * 2 ^ 23 + (n - 2 ^ k) * 2 ^ (23 - k))

/-- A pair of v registers in a lane, as 64 bits (R5). -/
def pairLane (gg : Gang) (n l : Nat) : DWord :=
  BitVec.ofNat 64 ((laneOf (vReg gg n) l).toNat + (laneOf (vReg gg (n + 1)) l).toNat * 2 ^ 32)

/-- addr(c, L) of R263. -/
def addrLane (c : GCtx) (code l : Nat) : DWord :=
  match gCode code with
  | some n => gReg c.gg n
  | none => pairLane c.gg code l

/-- A scratchpad offset in a lane, unsigned (R262). -/
def offLane (c : GCtx) (code l : Nat) : Nat :=
  match gCode code with
  | some n => (gReg c.gg n).toNat % 2 ^ 32
  | none => (laneOf (vReg c.gg code) l).toNat

/-- Updates the last-result file in the lanes written, and raises the count (R65). -/
def pushResult (gg : Gang) (m : Mask) (x : Lanes) : Gang :=
  { gg with y1 := mergeLanes m gg.y0 gg.y1, y0 := mergeLanes m x gg.y0 }

/-- dst(c, L, x) of R263 in the lanes of a mask, with the tag of a v register cleared (R71). -/
def writeDst (gg : Gang) (code : Nat) (m : Mask) (x : Lanes) : Gang :=
  if code ≤ 111 then clearTag (setV gg code m x) code
  else if code ≤ 119 then setO gg (code - 112) m x
  else gg

/-- The result count rises by one, to at most 2, unless this execution is a replay that has raised it (R65, R227). -/
def raiseCount (fr : Frag) : Frag :=
  match fr.replay with
  | some r => if r.counted then fr else { fr with count := min 2 (fr.count + 1), yPending := fr.yPending <<< 1 }
  | none => { fr with count := min 2 (fr.count + 1), yPending := fr.yPending <<< 1 }

/-- Writes one 32-bit vector result in the given lanes: destination, tag, last-result file, count (R65, R71, R263). -/
def writeResult (s : State) (c : GCtx) (code : Nat) (m : Mask) (x : Lanes) : State :=
  modGang s c.t c.g fun gg => modFragOf (pushResult (writeDst gg code m x) m x) c.f raiseCount

/-- Writes a 64-bit vector result to an even v register and the next: both tags are cleared, the y file is unchanged (R5,
R65, R71). -/
def writePair (s : State) (c : GCtx) (code : Nat) (m : Mask) (lo hi : Lanes) : State :=
  modGang s c.t c.g fun gg => clearTag (clearTag (setV (setV gg code m lo) (code + 1) m hi) code) (code + 1)

/-- Writes a g register of the issuing gang. -/
def writeG (s : State) (c : GCtx) (n : Nat) (x : DWord) : State := modGang s c.t c.g fun gg => setG gg n x

/-- Writes a p register in the lanes of a mask. -/
def writeP (s : State) (c : GCtx) (n : Nat) (m x : Mask) : State := modGang s c.t c.g fun gg => setP gg n m x

/-- Whether a register is pending on a flag (R261). -/
def isPending (gg : Gang) (r : RegName) : Bool := gg.pend.any fun x => x.1 == r

/-- Clears the pending marks of the flags that meet a test (R261). -/
def unpend (gg : Gang) (p : Nat → Bool) : Gang := { gg with pend := gg.pend.filter fun x => !p x.2 }

/-- Marks registers pending on a flag. -/
def setPending (gg : Gang) (rs : List RegName) (f : Nat) : Gang :=
  { gg with pend := gg.pend.filter (fun x => !rs.contains x.1) ++ rs.map fun r => (r, f) }

end Sys2Proof.Machine
end

