-- ==== Sys2Proof/Machine/Flags.lean ====
section
/-!
DEFINITION. Completion flags (R260) and conditions: the comparisons of ICMP, FCMP and KCMP (R307, R321), and the combination
of a result into a predicate.
-/
namespace Sys2Proof.Machine

/-- A completion flag's count (R260). -/
def flagOf (m : Smap Nat) (f : Nat) : Nat := smGet 0 m f

/-- Whether every flag of a mask is clear. -/
def flagsClear (m : Smap Nat) (w : BitVec 12) : Bool :=
  (List.range 12).all fun f => !w.getLsbD f || flagOf m f == 0

/-- The lowest flag of a mask that carries a pending report. -/
def reportIn (m : List (Nat × Report)) (w : BitVec 12) : Option (Nat × Report) := m.find? fun x => w.getLsbD x.1

/-- CMB of R307: set, AND, OR or XOR with the old value. -/
def combine (cmb : BitVec 2) (old r : Mask) : Mask :=
  if cmb = 0 then r else if cmb = 1 then old &&& r else if cmb = 2 then old ||| r else old ^^^ r

/-- Writes a predicate result under CMB in the active lanes (R307). -/
def writeCmb (s : State) (c : GCtx) (pd : Nat) (cmb : BitVec 2) (r : Mask) : State :=
  writeP s c pd c.act (combine cmb (pReg c.gg pd) r)

/-- An integer comparison by its minor code: EQ, NE, LT, LE, GT, GE signed, then LTU, LEU, GTU, GEU (R307). -/
def icmp (cond : Nat) (a b : Word) : Bool :=
  match cond with
  | 0 => a == b
  | 1 => a != b
  | 2 => a.slt b
  | 3 => a.sle b
  | 4 => b.slt a
  | 5 => b.sle a
  | 6 => a.ult b
  | 7 => a.ule b
  | 8 => b.ult a
  | _ => b.ule a

/-- A floating-point comparison by its minor code: EQ, NE, LT, LE, GT, GE, NUM, NAN; with a NaN operand every one is false
but NE and NAN (R307). -/
def fcmp (cond : Nat) (a b : Word) : Bool :=
  let x := f32 a
  let y := f32 b
  if isNanF x || isNanF y then cond == 1 || cond == 7
  else
    let r := cmpF x y
    match cond with
    | 0 => r == 0
    | 1 => r != 0
    | 2 => decide (r < 0)
    | 3 => decide (r ≤ 0)
    | 4 => decide (0 < r)
    | 5 => decide (0 ≤ r)
    | 6 => true
    | _ => false

/-- The comparison of KCMP by its COND field: EQ, NE, LT, LE, GT, GE, LTU, GEU (R321). -/
def kcmpHolds (cond : BitVec 3) (a b : DWord) : Bool :=
  match cond.toNat with
  | 0 => a == b
  | 1 => a != b
  | 2 => a.slt b
  | 3 => a.sle b
  | 4 => b.slt a
  | 5 => b.sle a
  | 6 => a.ult b
  | _ => b.ule a

end Sys2Proof.Machine
end

