-- ==== Sys2Proof/Machine/Split.lean ====
section
/-!
DEFINITION. The split table and the split stack of a gang: parking, fusion, deferred paths, exit, and the pushes of branches
and calls (03 R47 to R57).

An entry is held under a number of its own, and names the entry next outer to it: siblings may push and pop in any order, so
the order of numbers is not the order of nesting (log 14).
-/
namespace Sys2Proof.Machine

/-- The table slot that a new fragment takes (R47). Which of the free ones R49 leaves open: the lowest is the model's choice
(log 93). -/
def freeSlot (gg : Gang) : Option Nat := listFind Option.isNone gg.frags 0

/-- The fragments of a gang with their table slots, in table order. -/
def liveFrags (gg : Gang) : List (Nat × Frag) :=
  (gg.frags.zipIdx).filterMap fun x => x.1.map fun fr => (x.2, fr)

/-- The lanes of a gang that have not exited (R47): those of fragments and those that an entry will fuse. -/
def liveLanes (gg : Gang) : Mask :=
  (gg.stack.foldl (fun m e => m ||| e.2.jmask) 0) ||| (liveFrags gg).foldl (fun m x => m ||| x.2.home) 0

/-- A gang all of whose lanes have exited (R55). -/
def gangExited (gg : Gang) : Bool := (liveFrags gg).isEmpty && gg.stack.isEmpty

/-- The lowest unused entry number. -/
def freshEntry (gg : Gang) : Nat := ((List.range (Config.splitEntries + 1)).find? fun k => !gg.stack.any fun e => e.1 == k).getD 0

/-- An entry of the split stack. -/
def entryOf (gg : Gang) (k : Nat) : Option SplitEntry := (gg.stack.find? fun e => e.1 == k).map (·.2)

/-- Replaces an entry. -/
def setEntry (gg : Gang) (k : Nat) (e : SplitEntry) : Gang := { gg with stack := smInsert gg.stack k e }

/-- Removes an entry. -/
def popEntry (gg : Gang) (k : Nat) : Gang := { gg with stack := smErase gg.stack k }

/-- Puts a fragment into a table slot. -/
def putFrag (gg : Gang) (f : Nat) (fr : Frag) : Gang := { gg with frags := listSet gg.frags f (some fr) }

/-- Empties a table slot (R48). -/
def dropFrag (gg : Gang) (f : Nat) : Gang := { gg with frags := listSet gg.frags f none }

/-- A fragment that enters NOENTRY at an address (R48). -/
def newFrag (home ex : Mask) (pc : DWord) (entry : Option Nat) (stamp : Nat) : Frag :=
  { home := home, exmask := ex, pc := pc, entry := entry, peel := false, st := .noEntry, clause := none,
    count := 0, yPending := 0, replay := none, pool := .none, buf := [], waitStamp := stamp, spawn := none }

/-- The state in which a fragment goes on: it issues where it holds a pool entry, and waits for one where it does not (R48,
R59). -/
def goState (fr : Frag) : FragState := if fr.pool = .none then .noEntry else .issuing

/-- The guard of a clause in each lane: the predicate, negated or not; field 31 is unguarded (R257, R258). -/
def guardMask (gg : Gang) (guard : BitVec 5) (gneg : Bool) : Mask :=
  if guard = 31 then BitVec.allOnes 64
  else if gneg then ~~~(pReg gg guard.toNat) else pReg gg guard.toNat

/-- The clause of one word with which a deferred path resumes a peeling BRX (R54). -/
def peelClause (gg : Gang) (e : SplitEntry) : Clause :=
  { hdr := e.dpc, seta := 15, setb := 15, left := 1, guard := e.dguard, gneg := e.dgneg,
    gmask := guardMask gg e.dguard e.dgneg, keep := e.dkeep, hints := [], begun := false }

/-- R54 after OUTST of an entry has fallen, over fuel: a deferred path starts, or the entry pops and fuses, or the next outer
entry loses one. A fused fragment whose address is the RPC of its own innermost join entry parks at once (R48). -/
def settle (stamp : Nat) : Nat → Gang → Nat → Gang
  | 0, gg, _ => gg
  | fuel + 1, gg, k =>
    match entryOf gg k with
    | none => gg
    | some e =>
      if e.outst ≠ 0 then gg
      else if e.deferred ∧ e.dmask ≠ 0 then
        match freeSlot gg with
        | none => gg
        | some f =>
          let fr := newFrag e.dmask e.dmask e.dpc (some k) stamp
          let fr := if e.dpeel then { fr with peel := true, clause := some (peelClause gg e) } else fr
          let gg := if e.dpeel then
              { gg with y0 := mergeLanes e.dmask zeroLanes gg.y0, y1 := mergeLanes e.dmask zeroLanes gg.y1 } else gg
          putFrag (setEntry gg k { e with deferred := false, outst := 1, dmask := 0, dpc := 0, dpeel := false, dguard := 0,
                                          dgneg := false, dkeep := false }) f fr
      else if e.jmask ≠ 0 then
        let gg := popEntry gg k
        match e.parent.bind (entryOf gg), e.parent with
        | some p, some pk =>
          if !p.link ∧ p.rpc = e.rpc then
            settle stamp fuel (setEntry gg pk { p with amask := p.amask ||| e.amask, outst := p.outst - 1 }) pk
          else match freeSlot gg with
            | none => gg
            | some f => putFrag gg f (newFrag e.jmask e.amask e.rpc e.parent stamp)
        | _, _ =>
          match freeSlot gg with
          | none => gg
          | some f => putFrag gg f (newFrag e.jmask e.amask e.rpc none stamp)
      else
        let gg := popEntry gg k
        match e.parent with
        | none => gg
        | some pk =>
          match entryOf gg pk with
          | none => gg
          | some p => settle stamp fuel (setEntry gg pk { p with outst := p.outst - 1 }) pk

/-- Lowers OUTST of an entry and applies R54. -/
def lowerOutst (stamp : Nat) (gg : Gang) (k : Option Nat) : Gang :=
  match k with
  | none => gg
  | some k =>
    match entryOf gg k with
    | none => gg
    | some e => settle stamp (Config.splitEntries + 1) (setEntry gg k { e with outst := e.outst - 1 }) k

/-- Whether an address is the RPC of a fragment's innermost entry and that entry is a join entry (R48). -/
def parksAt (gg : Gang) (entry : Option Nat) (pc : DWord) : Bool :=
  match entry.bind (entryOf gg) with
  | some e => !e.link && e.rpc == pc
  | none => false

/-- A fragment that has come to a header's address parks there where R48 says so (R54). -/
def parkCheck (stamp : Nat) (gg : Gang) (f : Nat) : Gang :=
  match fragOf gg f with
  | none => gg
  | some fr =>
    if fr.clause.isNone ∧ parksAt gg fr.entry fr.pc then
      match fr.entry with
      | none => gg
      | some k =>
        match entryOf gg k with
        | none => gg
        | some e => lowerOutst stamp (setEntry (dropFrag gg f) k { e with amask := e.amask ||| fr.exmask }) (some k)
    else gg

/-- Removes exited lanes from the masks of every entry (R55). -/
def eraseLanes (gg : Gang) (m : Mask) : Gang :=
  { gg with stack := gg.stack.map fun e =>
      (e.1, { e.2 with jmask := e.2.jmask &&& ~~~m, amask := e.2.amask &&& ~~~m, dmask := e.2.dmask &&& ~~~m }) }

/-- EXIT of a set of lanes of a fragment (R55). -/
def exitLanes (stamp : Nat) (gg : Gang) (f : Nat) (m : Mask) : Gang :=
  match fragOf gg f with
  | none => gg
  | some fr =>
    let ex := fr.exmask &&& ~~~m
    if ex = 0 then lowerOutst stamp (eraseLanes (dropFrag gg f) fr.home) fr.entry
    else eraseLanes (putFrag gg f { fr with home := fr.home &&& ~~~m, exmask := ex }) m

/-- A join entry (R52). -/
def joinEntry (jmask amask : Mask) (rpc : DWord) (outst : Nat) (parent : Option Nat) : SplitEntry :=
  { jmask := jmask, amask := amask, dmask := 0, rpc := rpc, outst := outst, deferred := false, link := false, dpc := 0,
    dpeel := false, dguard := 0, dgneg := false, dkeep := false, parent := parent }

/-- The divergent split of R52 and R53: lanes T go to the target and the rest of the fragment goes on at `rest` (the
fall-through header, or, for a peel, the BRX word itself with its clause). `push` says whether a join entry with RPC A is
pushed, or OUTST of the innermost entry rises (a later peel). A path that starts at its RPC parks at once. -/
def splitFrag (stamp : Nat) (gg : Gang) (f : Nat) (fr : Frag) (tset : Mask) (target rest rpc : DWord) (push peel : Bool)
    (keep : Bool) : Gang :=
  let k := if push then freshEntry gg else fr.entry.getD 0
  let e0 : SplitEntry :=
    if push then joinEntry fr.home 0 rpc 2 fr.entry
    else match entryOf gg k with
      | some e => { e with outst := e.outst + 1 }
      | none => joinEntry fr.home 0 rpc 2 fr.entry
  let stay : Frag :=
    let fr := { fr with st := .issuing, replay := none }
    if peel then { fr with home := fr.home &&& ~~~tset, exmask := fr.exmask &&& ~~~tset, entry := some k, peel := true
                           clause := fr.clause.map fun c => { c with begun := true } }
    else { fr with home := fr.home &&& ~~~tset, exmask := fr.exmask &&& ~~~tset, entry := some k, pc := rest, clause := none,
                   peel := false, count := 0, yPending := 0 }
  let gg := closeClause gg (if peel then tset else fr.home) keep
  let gg := putFrag (setEntry gg k e0) f stay
  -- The staying path: it parks at once when it starts at the RPC (never for a peel, whose word is no header).
  let gg := parkCheck stamp gg f
  -- The taken path.
  match entryOf gg k with
  | none => gg
  | some e =>
    if !e.link ∧ e.rpc = target then
      lowerOutst stamp (setEntry gg k { e with amask := e.amask ||| tset }) (some k)
    else match freeSlot gg with
      | some f' => putFrag gg f' (newFrag tset tset target (some k) stamp)
      | none =>
        if peel then
          -- The peeled group goes on as the current fragment, and the other lanes are the deferred path (R53). The clause has ended
          -- for the home lanes outside EXMASK too (R64), which come back when the entry fuses.
          let (gd, gn, kp) := match fr.clause with
            | some c => (c.guard, c.gneg, c.keep)
            | none => (31, false, false)
          let gg := setEntry (closeClause gg (fr.home &&& ~~~fr.exmask) keep) k
                                  { e with deferred := true, dmask := fr.exmask &&& ~~~tset, dpc := fr.pc, dpeel := true,
                                           dguard := gd, dgneg := gn, dkeep := kp, outst := e.outst - 1 }
          putFrag gg f { fr with home := tset, exmask := tset, entry := some k, pc := target, clause := none, st := .issuing, replay := none,
                                 peel := false, count := 0, yPending := 0 }
        else
          setEntry gg k { e with deferred := true, dmask := tset, dpc := target, outst := e.outst - 1 }

/-- The uniform branch of R52: the whole fragment goes on at an address, which is a header's. -/
def moveFrag (stamp : Nat) (gg : Gang) (f : Nat) (fr : Frag) (pc : DWord) (keep : Bool) : Gang :=
  parkCheck stamp (putFrag (closeClause gg fr.home keep) f { fr with pc := pc, clause := none, st := goState fr, replay := none, peel := false, count := 0, yPending := 0 }) f

end Sys2Proof.Machine
end

