-- ==== Sys2Proof/Machine/Flow.lean ====
section
/-!
DEFINITION. How a gang word runs: the checks of R267 in order, the hints (R265, R266), the interlocks, then the word's own
effect, then the advance to the next word or clause (R257).
-/
namespace Sys2Proof.Machine

/-- What a word's own effect answers. -/
inductive GRes where
  /-- The effect is done; the fragment goes on with the next word. -/
  | done (s : State)
  /-- The effect is done and has set the fragment's address itself. -/
  | moved (s : State)
  /-- A precise trap that commits nothing: cause, FLTMASK, FLTADDR (R221). -/
  | trap (c : Cause) (mask : Mask) (addr : DWord)
  /-- The same, at a failing access of an engine class (R224), with what the access did to the caches. -/
  | trapAcc (s : State) (c : Cause) (mask : Mask) (addr : DWord) (cls : EngineClass)
  /-- A precise trap of a memory instruction after its commits: the state with them, cause, FLTMASK, FLTADDR, the replay mask,
  what the instruction still owes, and the class of the failing access (R221, R222). -/
  | trapPart (s : State) (c : Cause) (mask : Mask) (addr : DWord) (replay : Mask) (owed : Replay) (cls : EngineClass)
  /-- A precise trap after an effect of the word that stays, or after its reads: the state with them, cause, FLTMASK, FLTADDR. -/
  | trapIn (s : State) (c : Cause) (mask : Mask) (addr : DWord)
  /-- The word waits and will issue again; the state may hold commits of a parked instruction. -/
  | wait (w : Wait) (s : State)
  /-- An imprecise report is delivered at this word (R228): flag or 15, report, replay mask. -/
  | report (flag : Nat) (r : Report) (replay : Mask) (s : State)
deriving DecidableEq, Repr

/-- The hint kinds that a word accepts beside XNOP and MERGEAT (R266). -/
structure Accepts where
  immImm : Bool
  immOper : Bool
  xcache : Bool
  xscope : Bool
  xplane : Bool
deriving DecidableEq, Repr

/-- No hint but XNOP and MERGEAT. -/
def acceptsNone : Accepts := ⟨false, false, false, false, false⟩
/-- V3 words of majors 0x2, 0x3, 0x6 and 0xC (R266). -/
def acceptsOper : Accepts := { acceptsNone with immOper := true }
/-- VI and B words (R266). -/
def acceptsImm : Accepts := { acceptsNone with immImm := true }

/-- The fields of an operand-form IMMX (R266). -/
structure Oper where
  el : Nat
  sat : Bool
  rm : BitVec 2
  pc : Nat
  sc : Nat
deriving DecidableEq, Repr

/-- The fields of an XSCOPE (R266). -/
structure Scope where
  order : Nat
  scope : Nat
  use : Nat
  q : Nat
deriving DecidableEq, Repr

/-- The operand-form IMMX before a word. -/
def operHint (hs : List (DWord × Instr)) : Option Oper :=
  hs.findSome? fun h => match h.2 with
    | .immxOperand e sc r p c => some { el := e.toNat, sat := flag1 sc, rm := r, pc := p.toNat, sc := c.toNat }
    | _ => none

/-- The immediate-form IMMX before a word: PAY[23:0]. -/
def immHint (hs : List (DWord × Instr)) : Option Nat :=
  hs.findSome? fun h => match h.2 with
    | .immxImmediate x => some x.toNat
    | _ => none

/-- The XSCOPE before a word. -/
def scopeHint (hs : List (DWord × Instr)) : Option Scope :=
  hs.findSome? fun h => match h.2 with
    | .xscope q u sc o => some { order := o.toNat, scope := sc.toNat, use := u.toNat, q := q.toNat }
    | _ => none

/-- The cache policy before a word (R110). -/
def cacheHint (hs : List (DWord × Instr)) : Nat :=
  (hs.findSome? fun h => match h.2 with
    | .xcache p => some p.toNat
    | _ => none).getD 0

/-- KEEPN of an XPLANE before a word. -/
def planeHint (hs : List (DWord × Instr)) : Option Nat :=
  hs.findSome? fun h => match h.2 with
    | .xplane k => some k.toNat
    | _ => none

/-- A word address plus a signed word offset (R259). -/
def wordTarget (pc : DWord) (off : Int) : DWord := BitVec.ofInt 64 ((pc.toNat : Int) + 4 * off)

/-- The reconvergence address that a MERGEAT before a word names (R334). -/
def mergeHint (hs : List (DWord × Instr)) : Option DWord :=
  hs.findSome? fun h => match h.2 with
    | .mergeat o => some (wordTarget h.1 o.toInt)
    | _ => none

/-- The KIND of a hint word (R266). -/
def hintKind : Instr → Option Nat
  | .immxImmediate _ => some 0
  | .immxOperand .. => some 0
  | .xcache _ => some 1
  | .xscope .. => some 2
  | .xplane _ => some 3
  | .xnop => some 4
  | .mergeat _ => some 5
  | _ => none

/-- Whether a word accepts a hint (R266). -/
def acceptsHint (a : Accepts) : Instr → Bool
  | .immxImmediate _ => a.immImm
  | .immxOperand .. => a.immOper
  | .xcache _ => a.xcache
  | .xscope .. => a.xscope
  | .xplane _ => a.xplane
  | _ => true

/-- The offset of a B word or KBR, widened by IMMX (R266). -/
def branchOff (hs : List (DWord × Instr)) (o : BitVec 17) : Int :=
  match immHint hs with
  | some p => sextN 41 (p * 2 ^ 17 + o.toNat)
  | none => o.toInt

/-- The immediate of a VI word: its 32 bits, and whether IMMX gave them (R266). -/
def viImm (hs : List (DWord × Instr)) (x : BitVec 8) : Word × Bool :=
  match immHint hs with
  | some p => (BitVec.ofNat 32 (p * 2 ^ 8 + x.toNat), true)
  | none => (x.signExtend 32, false)

/-- The offset of an M word in units of its size (R266). -/
def memOff (hs : List (DWord × Instr)) (o : BitVec 7) : Int :=
  match immHint hs with
  | some p => sextN 31 (p * 2 ^ 7 + o.toNat)
  | none => o.toInt

/-- The immediate or register operand of a K word is formed by the hawk; its immediate, widened by IMMX (R266, R319). -/
def kImm (hs : List (DWord × Instr)) (b : BitVec 10) : DWord :=
  match immHint hs with
  | some p => BitVec.ofInt 64 (sextN 34 (p * 2 ^ 10 + b.toNat))
  | none => b.signExtend 64

/-- What the shared checks need to know of a word (R267). -/
structure WordInfo where
  accepts : Accepts
  /-- The FS bit of a long-latency word (R260). -/
  fs : Option (BitVec 1)
  /-- A word that ends its clause (R259). -/
  ends : Bool
  /-- The operand codes and fields are legal (R263, R63 and the word's entry). -/
  legal : Bool
  /-- The result count that the sources need (R65). -/
  count : Nat
  reads : List RegName
  writes : List RegName
deriving DecidableEq, Repr

/-- The least a word can say. -/
def plainInfo : WordInfo :=
  { accepts := acceptsNone, fs := none, ends := false, legal := true, count := 0, reads := [], writes := [] }

/-- The context of a fragment inside a clause: the lanes in which its word executes are those it still owes, where it is executed again
(R222, R227). -/
def fragCtx (t g f : Nat) (tm : Team) (gg : Gang) (fr : Frag) (cl : Clause) : GCtx :=
  let act := match fr.replay with
    | some r => r.lanes &&& fr.exmask
    | none => fr.exmask &&& cl.gmask
  { t := t, g := g, f := f, tm := tm, gg := gg, fr := fr, cl := cl, act := act, helper := helperLanes fr act }

/-- The stream that issues, when it is a gang's fragment inside a clause of a running team. -/
def gangCtx (s : State) : Option GCtx :=
  match s.cur with
  | .gang t g f =>
    match listAt s.teams t with
    | none => none
    | some tm =>
      match gangOf tm g with
      | none => none
      | some gg =>
        match fragOf gg f with
        | none => none
        | some fr =>
          match fr.clause with
          | none => none
          | some cl =>
            if tm.st = .running then some (fragCtx t g f tm gg fr cl) else none
  | _ => none

/-- The instruction word at PC, for the fault record (R224). -/
def wordOf (i : Instr) : Word := (encode i).getD 0

/-- What a word that has committed nothing in this execution still owes: its active lanes, and, from its first execution, the
placement set (R227, R296). -/
def owedBy (c : GCtx) : Replay :=
  match c.fr.replay with
  | some r => { r with lanes := c.act }
  | none => { lanes := c.act, traps := [], counted := false, raised := false, placement := c.act }

/-- Takes a precise trap of a gang word that commits nothing: the replay mask is its active lanes (R221, R222, R224). -/
def trapAll (s : State) (c : GCtx) (i : Instr) (cause : Cause) (mask : Mask) (addr : DWord)
    (cls : Option EngineClass := none) : State :=
  takeGangTrap s c.t c.g c.f
    (preciseRecord c.fr.pc mask (if cause = .software then 0 else c.act) addr cause cls (wordOf i))
    (some (owedBy c))

/-- Takes the trap of a hint that stands before a word which does not accept it, at the hint (R265): the fragment stands at
the hint again. -/
def trapAtHint (s : State) (c : GCtx) (h : DWord × Instr) : State :=
  let back := (c.fr.pc - h.1).toNat / 4
  let earlier := c.cl.hints.filter fun x => x.1.toNat < h.1.toNat
  let s := modFrag s c.t c.g c.f fun fr =>
    { fr with pc := h.1, clause := some { c.cl with left := c.cl.left + back, hints := earlier } }
  takeGangTrap s c.t c.g c.f (preciseRecord h.1 c.act c.act 0 .illegalClause none (wordOf h.2)) none

/-- The fragment goes on with the next word of its clause, or the clause ends and the fall-through header follows (R257). -/
def advanceGang (stamp : Nat) (gg : Gang) (f : Nat) : Gang :=
  match fragOf gg f with
  | none => gg
  | some fr =>
    match fr.clause with
    | none => gg
    | some cl =>
      if cl.left ≤ 1 then
        parkCheck stamp
          (putFrag (closeClause gg fr.home cl.keep) f
            { fr with pc := fr.pc + 4, clause := none, st := goState fr, replay := none, peel := false, count := 0, yPending := 0 }) f
      else
        putFrag gg f { fr with pc := fr.pc + 4, clause := some { cl with left := cl.left - 1, hints := [] }, st := goState fr,
                               replay := none, peel := false }

/-- The advance of the issuing fragment. -/
def advance (s : State) (c : GCtx) : State := modGang s c.t c.g fun gg => advanceGang s.cycle gg c.f

/-- Puts the issuing fragment into a wait. -/
def waitFrag (s : State) (c : GCtx) (w : Wait) : State := modFrag s c.t c.g c.f fun fr => { fr with st := .waiting w }

/-- The selected SET field of a long-latency word (R260). -/
def setField (cl : Clause) (fs : BitVec 1) : Nat := (if flag1 fs then cl.setb else cl.seta).toNat

/-- The flag that a long-latency word counts on. -/
def flagFor (c : GCtx) (fs : BitVec 1) : Nat := setField c.cl fs

/-- An outstanding matrix instruction of the gang interlocks with a word that reads or writes a v register (R180). -/
def matrixHeld (c : GCtx) (reads writes : List RegName) : Bool :=
  c.tm.mops.any fun m => m.gang == c.g &&
    (writes.any fun r => match r with
      | .v n => m.reads.contains n || m.writes.contains n
      | _ => false) ||
    (m.gang == c.g && reads.any fun r => match r with
      | .v n => m.writes.contains n
      | _ => false)

/-- Whether a read of y0, or of y1, meets a pending value (R261). -/
def yHeld (fr : Frag) (y0 y1 : Bool) : Bool := (y0 && fr.yPending.getLsbD 0) || (y1 && fr.yPending.getLsbD 1)

/-- Check 4 of R267: operand codes, the result count, pending registers. -/
def operandsOk (c : GCtx) (w : WordInfo) : Bool :=
  w.legal && decide (w.count ≤ c.fr.count) && !yHeld c.fr (w.reads.contains .y0) (w.count == 2) &&
  !(w.reads.any fun r => r != .y0 && isPending c.gg r) && !(w.writes.any fun r => isPending c.gg r)

/-- Takes what a word's effect answers (R221, R257, R228). -/
def finish (i : Instr) (s : State) (c : GCtx) : GRes → State
  | .done s' => advance s' c
  | .moved s' => s'
  | .trap cause mask addr => trapAll s c i cause mask addr
  | .trapAcc s' cause mask addr cls => trapAll s' c i cause mask addr (some cls)
  | .trapPart s' cause mask addr replay owed cls =>
    takeGangTrap s' c.t c.g c.f (preciseRecord c.fr.pc mask replay addr cause (some cls) (wordOf i)) (some owed)
  | .trapIn s' cause mask addr => trapAll s' c i cause mask addr
  | .wait w s' => waitFrag s' c w
  | .report flag r replay s' => takeGangTrap s' c.t c.g c.f (reportRecord c.fr.pc replay flag r) none

/-- The first hint before a word whose placement fails: a second one of its KIND, or one that the word does not accept
(R265). -/
def badHint (a : Accepts) : List (DWord × Instr) → List Nat → Option (DWord × Instr)
  | [], _ => none
  | h :: hs, seen =>
    if !acceptsHint a h.2 || (match hintKind h.2 with
      | some k => seen.contains k
      | none => false) then some h
    else badHint a hs ((hintKind h.2).toList ++ seen)

/-- What a word's effect answers has raised a flag of its gang: the word has performed an access that counts on it (R260). -/
def raisesGang (c : GCtx) (f : Nat) : GRes → Bool
  | .done s | .moved s | .wait _ s =>
    (((listAt s.teams c.t).bind fun tm => gangOf tm c.g).any fun gg => decide (flagOf c.gg.flags f < flagOf gg.flags f))
  | _ => false

/-- Runs a gang word other than a hint: checks 3 and 4 of R267, the interlocks, its own effect (R267, R180). Where the count of its flag
is 63 it waits, if its effect would raise it (R260). -/
def runGang (i : Instr) (info : GCtx → WordInfo) (body : GCtx → State → GRes) (s : State) (c : GCtx) : State :=
  let w := info c
  match badHint w.accepts c.cl.hints [] with
  | some h => trapAtHint s c h
  | none =>
    if w.ends ∧ c.cl.left ≠ 1 then trapAll s c i .illegalClause c.act 0
    else if w.fs.any fun fs => setField c.cl fs == 15 then trapAll s c i .illegalClause c.act 0
    else if !operandsOk c w then trapAll s c i .illegalOperand c.act 0
    else if matrixHeld c w.reads w.writes then waitFrag s c .interlock
    else if w.fs.any fun fs => decide (63 ≤ flagOf c.gg.flags (flagFor c fs)) && c.act != 0 && raisesGang c (flagFor c fs) (body c s) then
      waitFrag s c .interlock
    else finish i s c (body c s)

/-- A word of a gang. With no gang issuing there is no stream to run it. -/
def gangWord (i : Instr) (info : GCtx → WordInfo) (body : GCtx → State → GRes) (s : State) : Out :=
  match gangCtx s with
  | some c => .next (runGang i info body s c)
  | none => .refused .noStream

/-- A word that the issuing gang may not execute (R270): ILLEGAL_INSTRUCTION. -/
def gangIllegal (i : Instr) (s : State) (c : GCtx) : State := trapAll s c i .illegalInstruction c.act 0

/-- A hint word in a gang's clause (R265): it must not be the clause's last word; the rest of its placement is judged at the
next non-hint word (R267). -/
def gangHint (i : Instr) (s : State) (c : GCtx) : State :=
  if c.cl.left ≤ 1 then trapAll s c i .illegalClause c.act 0
  else
    modFrag s c.t c.g c.f fun fr =>
      { fr with pc := fr.pc + 4, replay := none, st := .issuing
                clause := some { c.cl with left := c.cl.left - 1, hints := c.cl.hints ++ [(c.fr.pc, i)] } }

/-- Raises a completion flag of the issuing gang (R260). -/
def raiseFlag (s : State) (c : GCtx) (f : Nat) : State :=
  modGang s c.t c.g fun gg => { gg with flags := smSet 0 gg.flags f (flagOf gg.flags f + 1) }

/-- Appends a load in flight to a team and gives it an id. -/
def addLoad (s : State) (t : Nat) (who : StreamName) (flag : Nat) (ds : List Deposit) : State :=
  modTeam s t fun tm =>
    { tm with loads := tm.loads ++ [{ id := tm.nextOp, who := who, flag := flag, deposits := ds }], nextOp := tm.nextOp + 1 }

end Sys2Proof.Machine
end

