-- ==== Sys2Proof/Machine/HawkFlow.lean ====
section
/-!
DEFINITION. How a hawk word runs: the checks of R267, the hints, the waits on pending registers (R261), the treatment inside a
speculation window (R30 to R33), then the word's own effect and the advance.
-/
namespace Sys2Proof.Machine

/-- The context in which a hawk word executes. -/
structure HCtx where
  t : Nat
  tm : Team
  hk : Hawk
  cl : Clause
  /-- The guard was read true at the header (R26). -/
  act : Bool
deriving DecidableEq, Repr

/-- What a hawk word's own effect answers. -/
inductive HRes where
  | done (s : State)
  /-- The effect has set the hawk's address itself. -/
  | moved (s : State)
  | trap (c : Cause) (addr : DWord)
  /-- A trap at a failing access of an engine class: the state to trap in, cause, FLTADDR, class (R224). -/
  | trapAcc (s : State) (c : Cause) (addr : DWord) (cls : EngineClass)
  /-- A precise trap after an effect of the word that stays, or after its reads: the state with them, cause, FLTADDR. -/
  | trapIn (s : State) (c : Cause) (addr : DWord)
  | wait (w : Wait) (s : State)
  /-- An imprecise report delivered at this word: flag or 15, report, whether ERET executes it again (R228). -/
  | report (flag : Nat) (r : Report) (again : Bool) (s : State)
deriving DecidableEq, Repr

/-- How a word is treated inside a speculation window (R31, R137). -/
inductive Treat where
  /-- Executed. -/
  | run
  /-- Held, not performed; the flag says whether it counts towards the 16 held commands. -/
  | hold (command : Bool)
  /-- Stalls the hawk until the window resolves. -/
  | stall
deriving DecidableEq, Repr

/-- What the shared checks need to know of a hawk word. -/
structure HInfo where
  accepts : Accepts
  fs : Option (BitVec 1)
  ends : Bool
  /-- The word's own checks of its fields and hints, made only under a true guard (R267 check 5, R319). -/
  legal : Bool
  /-- k registers read and written. -/
  reads : List Nat
  writes : List Nat
  /-- Condition bits written. -/
  cwrites : List Nat
  treat : Treat
deriving DecidableEq, Repr

/-- The least a hawk word can say. -/
def plainHInfo : HInfo :=
  { accepts := acceptsNone, fs := none, ends := false, legal := true, reads := [], writes := [], cwrites := [], treat := .run }

/-- The stream that issues, when it is the hawk of a running team inside a clause. -/
def hawkCtx (s : State) : Option HCtx :=
  match s.cur with
  | .hawk t =>
    match listAt s.teams t with
    | none => none
    | some tm =>
      match tm.hawk.clause with
      | none => none
      | some cl => if tm.st = .running then some { t := t, tm := tm, hk := tm.hawk, cl := cl, act := cl.gmask != 0 } else none
  | _ => none

/-- The hawk goes on with the next word of its clause, or with the next header (R257). -/
def advanceHawkIn (hk : Hawk) : Hawk :=
  match hk.clause with
  | none => hk
  | some cl =>
    { hk with pc := hk.pc + 4, st := .issuing
              clause := if cl.left ≤ 1 then none else some { cl with left := cl.left - 1, hints := [] } }

/-- The advance of the issuing hawk. -/
def advanceHawk (s : State) (t : Nat) : State := modHawk s t advanceHawkIn

/-- The hawk goes on at a header (R257, R259). -/
def moveHawk (s : State) (t : Nat) (pc : DWord) : State :=
  modHawk s t fun hk => { hk with pc := pc, clause := none, st := .issuing }

/-- Puts the hawk into a wait. -/
def waitHawk (s : State) (t : Nat) (w : Wait) : State := modHawk s t fun hk => { hk with st := .waiting w }

/-- A condition bit of the hawk. -/
def cBit (c : BitVec 8) (n : Nat) : Bool := c.getLsbD n

/-- Sets a condition bit. -/
def setCBit (c : BitVec 8) (n : Nat) (b : Bool) : BitVec 8 := if b then c ||| (1#8 <<< n) else c &&& ~~~(1#8 <<< n)

/-- Whether a condition bit is pending (R30). -/
def cPending (hk : Hawk) (n : Nat) : Bool := hk.cpend.any fun p => p.cbit == n

/-- The k registers that a held word will write (R31). -/
def heldWrites : Instr → List Nat
  | .launch d _ => [d.toNat]
  | .rgprobe d _ _ => [d.toNat, d.toNat + 1]
  | _ => []

/-- The k registers that are pending: those of outstanding loads and those of held words (R30, R31). -/
def kPending (hk : Hawk) (n : Nat) : Bool :=
  hk.kpend.any (fun p => p.1 == n) ||
  match hk.window with
  | some w => w.held.any fun h => (heldWrites h.instr).contains n
  | none => false

/-- Whether a held word counts towards the 16 held commands of R31. -/
def isCommand : Instr → Bool
  | .kst .. | .kstAtomic .. => false
  | _ => true

/-- The record of a hawk's precise trap (R224). -/
def hawkRecord (hk : Hawk) (i : Instr) (cause : Cause) (addr : DWord) (cls : Option EngineClass) : FaultRecord :=
  preciseRecord hk.pc 0 (if replayCause cause then 1 else 0) addr cause cls (wordOf i)

/-- Takes a precise trap of the hawk; inside a window it is held, and the hawk stands at the word until the window resolves
(R31, R32). -/
def trapHawk (s : State) (c : HCtx) (i : Instr) (cause : Cause) (addr : DWord) (cls : Option EngineClass := none) : State :=
  let r := hawkRecord c.hk i cause addr cls
  match c.hk.window with
  | some w => modHawk s c.t fun hk => { hk with window := some { w with fault := some r }, st := .waiting .interlock }
  | none => takeHawkTrap s c.t r

/-- Takes the trap of a hint that stands before a word which does not accept it, at the hint (R265). -/
def trapAtHawkHint (s : State) (c : HCtx) (h : DWord × Instr) : State :=
  let back := (c.hk.pc - h.1).toNat / 4
  let cl := { c.cl with left := c.cl.left + back, hints := c.cl.hints.filter fun x => x.1.toNat < h.1.toNat }
  let hk := { c.hk with pc := h.1, clause := some cl }
  let s := modHawk s c.t fun _ => hk
  trapHawk s { c with hk := hk, cl := cl } h.2 .illegalClause 0

/-- Takes what a hawk word's effect answers (R221, R228, R257). -/
def finishHawk (i : Instr) (s : State) (c : HCtx) : HRes → State
  | .done s' => advanceHawk s' c.t
  | .moved s' => s'
  | .trap cause addr => trapHawk s c i cause addr
  | .trapAcc s' cause addr cls => trapHawk s' c i cause addr (some cls)
  | .trapIn s' cause addr => trapHawk s' c i cause addr
  | .wait w s' =>
    -- A partial-residency fault or a MIGRATING range inside a window stalls the hawk until the window resolves (R31), and nothing of
    -- the attempt stays (R33).
    match c.hk.window, w with
    | some _, .residency _ => waitHawk s c.t .interlock
    | some _, .migrating _ => waitHawk s c.t .interlock
    | _, _ => waitHawk s' c.t w
  | .report flag r again s' =>
    -- Inside a window the report is not delivered: the hawk stands at the word until the window resolves (R31).
    match c.hk.window with
    | some _ => waitHawk s c.t .interlock
    | none => takeHawkTrap s' c.t (reportRecord c.hk.pc (if again then 1 else 0) flag r)

/-- An engine command, which marks scratchpad lines PENDING as it issues (R158). -/
def isEngineWord : Instr → Bool
  | .copy .. | .pcopy .. | .mcast .. | .gather .. | .scatter .. => true
  | _ => false

/-- A word that changes what a later access to a range finds (R125, R157). -/
def isRangeChange : Instr → Bool
  | .rgsplit .. | .rgmerge .. | .rgtrim .. | .rggrow .. | .rginv .. | .rginvDiscard .. | .rgmigrIn .. | .rgmigrOut .. | .rgmigrMove ..
  | .seal .. | .unseal .. => true
  | _ => false

/-- The open window holds a word that meets a test. -/
def windowHasWord (c : HCtx) (p : Instr → Bool) : Bool := c.hk.window.any fun w => w.held.any fun h => p h.instr

/-- Counts an instruction executed inside the open window (R30). -/
def countWindow (s : State) (t : Nat) : State :=
  modHawk s t fun hk => { hk with window := hk.window.map fun w => { w with count := w.count + 1 } }

/-- Speculative entries in each gang's decision queue (R31). -/
def specCounts (tm : Team) : List Nat := tm.gangs.map fun gg => countP (fun e => e.spec) gg.dq

/-- Holds a word in the window (R31). -/
def holdWord (i : Instr) (s : State) (c : HCtx) (w : SpecWindow) : State :=
  let h : HeldWork :=
    { instr := i, pc := c.hk.pc, clause := c.cl, k := c.hk.k, c := c.hk.c, ret := c.hk.ret, pushes := specCounts c.tm,
      count := w.count, firstOp := c.tm.nextOp }
  advanceHawk (modHawk s c.t fun hk => { hk with window := some { w with held := w.held ++ [h], count := w.count + 1 } }) c.t

/-- The flag that a hawk's long-latency word counts on (R260). -/
def hawkFlag (c : HCtx) (fs : BitVec 1) : Nat := setField c.cl fs

/-- Runs a word under an open window (R30, R31). -/
def runInWindow (i : Instr) (w : HInfo) (body : HCtx → State → HRes) (s : State) (c : HCtx) (win : SpecWindow) : State :=
  if win.fault.isSome || win.committing || decide (64 ≤ win.count) then waitHawk s c.t .interlock
  else match w.treat with
    | .stall => waitHawk s c.t .interlock
    | .hold command =>
      if command && decide (16 ≤ countP (fun h => isCommand h.instr) win.held) then waitHawk s c.t .interlock
      else holdWord i s c win
    | .run =>
      match body c s with
      | .done s' => countWindow (advanceHawk s' c.t) c.t
      | .moved s' => countWindow s' c.t
      | r => finishHawk i s c r

/-- What a word's effect answers has raised a flag of its hawk (R260). -/
def raisesHawk (c : HCtx) (f : Nat) : HRes → Bool
  | .done s | .moved s | .wait _ s => (listAt s.teams c.t).any fun tm => decide (flagOf c.hk.flags f < flagOf tm.hawk.flags f)
  | _ => false

/-- Runs a hawk word other than a hint: checks 3 and 4 of R267, the waits on pending registers, the guard, its effect. Where the count of
its flag is 63 it waits, if its effect would raise it, as that of a word that a window holds will (R260). R30 does not say
what counts towards the 64 instructions of a window: a hint and an instruction under a false guard do not (DESIGN CHOICE, log 101). -/
def runHawk (i : Instr) (info : HCtx → HInfo) (body : HCtx → State → HRes) (s : State) (c : HCtx) : State :=
  let w := info c
  match badHint w.accepts c.cl.hints [] with
  | some h => trapAtHawkHint s c h
  | none =>
    if w.ends ∧ c.cl.left ≠ 1 then trapHawk s c i .illegalClause 0
    else if w.fs.any fun fs => setField c.cl fs == 15 then trapHawk s c i .illegalClause 0
    else if !c.act then advanceHawk s c.t
    else if !w.legal then trapHawk s c i .illegalOperand 0
    else if (w.reads ++ w.writes).any (kPending c.hk) || w.cwrites.any (cPending c.hk) then waitHawk s c.t .interlock
    else if w.fs.any fun fs => decide (63 ≤ flagOf c.hk.flags (hawkFlag c fs)) &&
        ((c.hk.window.isSome && w.treat != .run) || raisesHawk c (hawkFlag c fs) (body c s)) then waitHawk s c.t .interlock
    else match c.hk.window with
      | some win => runInWindow i w body s c win
      | none => finishHawk i s c (body c s)

/-- A word of the hawk alone (R270): a gang that issues it traps. -/
def hawkWord (i : Instr) (info : HCtx → HInfo) (body : HCtx → State → HRes) (s : State) : Out :=
  match hawkCtx s, gangCtx s with
  | some c, _ => .next (runHawk i info body s c)
  | none, some c => .next (gangIllegal i s c)
  | none, none => .refused .noStream

/-- A word of both streams (R270). -/
def bothWord (i : Instr) (info : GCtx → WordInfo) (body : GCtx → State → GRes) (hinfo : HCtx → HInfo)
    (hbody : HCtx → State → HRes) (s : State) : Out :=
  match gangCtx s, hawkCtx s with
  | some c, _ => .next (runGang i info body s c)
  | none, some c => .next (runHawk i hinfo hbody s c)
  | none, none => .refused .noStream

/-- A word of gangs alone (R270): the hawk that issues it traps. -/
def gangOnly (i : Instr) (info : GCtx → WordInfo) (body : GCtx → State → GRes) (s : State) : Out :=
  match gangCtx s, hawkCtx s with
  | some c, _ => .next (runGang i info body s c)
  | none, some c => .next (trapHawk s c i .illegalInstruction 0)
  | none, none => .refused .noStream

/-- A hint word in a hawk's clause (R265). -/
def hawkHint (i : Instr) (s : State) (c : HCtx) : State :=
  if c.cl.left ≤ 1 then trapHawk s c i .illegalClause 0
  else
    modHawk s c.t fun hk =>
      { hk with pc := hk.pc + 4, st := .issuing
                clause := some { c.cl with left := c.cl.left - 1, hints := c.cl.hints ++ [(c.hk.pc, i)] } }

/-- A hint of both streams (R270). -/
def hintBoth (i : Instr) (s : State) : Out :=
  match gangCtx s, hawkCtx s with
  | some c, _ => .next (gangHint i s c)
  | none, some c => .next (hawkHint i s c)
  | none, none => .refused .noStream

/-- A hint of gangs alone (R270). -/
def hintGang (i : Instr) (s : State) : Out :=
  match gangCtx s, hawkCtx s with
  | some c, _ => .next (gangHint i s c)
  | none, some c => .next (trapHawk s c i .illegalInstruction 0)
  | none, none => .refused .noStream

/-- Writes a k register. -/
def writeK (s : State) (t n : Nat) (x : DWord) : State := modHawk s t fun hk => setK hk n x

/-- Raises a completion flag of the hawk (R260). -/
def raiseHawkFlag (s : State) (t f : Nat) : State :=
  modHawk s t fun hk => { hk with flags := smSet 0 hk.flags f (flagOf hk.flags f + 1) }

/-! ### Resolution of the window (R32) -/

/-- Removes decision-queue entries from the tails, leaving so many speculative ones in each queue (R32). -/
def trimPushes (tm : Team) (keep : List Nat) : Team :=
  { tm with gangs := tm.gangs.zipIdx.map fun x =>
      let drop := countP (fun e => e.spec) x.1.dq - (listAt keep x.2).getD 0
      { x.1 with dq := x.1.dq.take (x.1.dq.length - drop) } }

/-- Drops the hawk's loads issued from an operation id on, and lowers their flags. -/
def dropHawkLoads (tm : Team) (firstOp : Nat) : Team :=
  let gone := tm.loads.filter fun l => l.who == .hawk && decide (firstOp ≤ l.id)
  let flags := gone.foldl (fun m l => smSet 0 m l.flag (flagOf m l.flag - 1)) tm.hawk.flags
  { tm with loads := tm.loads.filter fun l => !(l.who == .hawk && decide (firstOp ≤ l.id))
            hawk := { tm.hawk with flags := flags, kpend := tm.hawk.kpend.filter fun p => p.2 < firstOp } }

/-- Takes the hawk back to a point inside or at the opening of its window, which closes (R32): registers, loads,
decision-queue entries and deferred compares. -/
def rewindHawk (tm : Team) (k : Smap DWord) (c : BitVec 8) (ret : List DWord) (pc : DWord) (clause : Option Clause)
    (pushes : List Nat) (firstOp : Nat) (count : Option Nat) : Team :=
  let tm := dropHawkLoads (trimPushes tm pushes) firstOp
  let keep (p : PendingCmp) : Bool :=
    match p.inWindow, count with
    | none, _ => true
    | some _, none => false
    | some n, some m => decide (n < m)
  { tm with hawk := { tm.hawk with
      k := k, c := c, ret := ret, pc := pc, clause := clause, st := .issuing, window := none
      cpend := (tm.hawk.cpend.filter keep).map fun p => { p with inWindow := none } } }

/-- Removes the speculative marks of every decision-queue entry (R32). -/
def clearMarks (tm : Team) : Team :=
  { tm with gangs := tm.gangs.map fun gg => { gg with dq := gg.dq.map fun e => { e with spec := false } } }

/-- Squashes the window: the checkpoint is restored, and the hawk stands at an address with a clause or at a header (R32,
R33). -/
def squashWindow (tm : Team) (pc : DWord) (clause : Option Clause) : Team :=
  match tm.hawk.window with
  | none => tm
  | some w => rewindHawk tm w.k w.c w.ret pc clause [] w.firstOp none

/-- Removes the hawk's loads from peers of a squashed window: no load outside it is outstanding while the hawk goes on (R33). -/
def dropHawkPeers (s : State) (t : Nat) : State :=
  match listAt s.teams t with
  | none => s
  | some tm =>
    { s with peers := s.peers.filter fun r =>
        !(r.lid == tm.lid && r.tid == tm.tid && r.who == .hawk && r.op.isNone && r.returning) }

/-- The window's prediction is due: its condition has been computed (R32). -/
def windowTaken (hk : Hawk) : Option Bool :=
  match hk.window with
  | none => none
  | some w =>
    if hk.cpend.any fun p => p.cbit == w.cbit && p.inWindow.isNone then none
    else some (cBit w.c w.cbit != w.neg)

/-- Trains the predictor with the outcome of the KBR at an address (R30). -/
def trainPredictor (hk : Hawk) (pc : DWord) (taken : Bool) : Hawk :=
  let n := bits64 pc 9 2
  let x := (smGet 0 hk.predictor n).toNat
  { hk with predictor := smSet 0 hk.predictor n (BitVec.ofNat 2 (if taken then min 3 (x + 1) else x - 1)) }

end Sys2Proof.Machine
end

