-- ==== Sys2Proof/Machine/Device.lean ====
section
/-!
DEFINITION. What device register space reads as (01 R19, 04 R75, 07 R120, R130, 12 R206, 13 R225, R232, R233, 14 R237, R238,
R243, R244, R247, R249, R251, R253): a stream's stores to it are ignored (R118), and control cores write it by their events.
-/
namespace Sys2Proof.Machine

/-- One bit at a place. -/
def bitAt (b : Bool) (n : Nat) : Nat := if b then 2 ^ n else 0

/-- The swap threshold of a core (R75). -/
def swapWait (s : State) (core : Nat) : Word := smGet 20000 s.swapwait core

/-- A filter entry after reset (R244). -/
def noFilter : FilterEntry := { src := 0, r := false, w := false, en := false, base := 0, lim := 0 }

/-- A PCIe window after reset (R247). -/
def noPcie : PcieWindow := { en := false, r := false, w := false, bus := 0, lim := 0, phys := 0 }

/-- The registers of a port's block (R237, R243, R244). -/
def portWord (p : Port) (off : Nat) : Nat :=
  if off = 0x00 then p.pstate.toNat + p.width.toNat * 4 + p.laneok.toNat * 32
  else if off = 0x08 then p.replays.toNat + p.repairs.toNat * 2 ^ 32
  else if off = 0x10 then p.peerid.toNat
  else if off = 0x20 then p.rxbase
  else if off = 0x28 then p.rxn
  else if off = 0x30 then p.rxtaddr
  else if off = 0x38 then p.rxhead.toNat
  else if 0x100 ≤ off ∧ off < 0x300 then
    let e := smGet noFilter p.filter ((off - 0x100) / 32)
    match (off - 0x100) % 32 / 8 with
    | 0 => e.src.toNat + bitAt e.r 16 + bitAt e.w 17 + bitAt e.en 18
    | 1 => e.base
    | 2 => e.lim
    | _ => 0
  else 0

/-- The registers below offset 0x8000. -/
def lowWord (s : State) (off : Nat) : Nat :=
  match off with
  | 0x0000 => s.coreMap.toNat % 2 ^ 64
  | 0x0008 => s.coreMap.toNat / 2 ^ 64 % 2 ^ 64
  | 0x0010 => s.coreMap.toNat / 2 ^ 128
  | 0x0018 => s.stackMap.toNat + s.linkMap.toNat * 2 ^ 8
  | 0x3000 => bitAt s.req 0 + bitAt s.spare 1 + s.lost.toNat * 4 + bitAt s.lpdeg 10
  | 0x3008 => s.cecount.toNat
  | 0x3010 => s.uecount.toNat
  | 0x4000 => bitAt s.isnap 0 + bitAt s.ievt 1 + s.evmask.toNat * 4
  | 0x4008 => s.snapbuf
  | 0x4010 => s.seq.toNat + bitAt s.busy 32 + s.drop.toNat * 2 ^ 33
  | 0x4018 => Config.snapSize
  | 0x5008 => s.swst.toNat + s.serial.toNat * 2 ^ 8
  | 0x6008 => s.trowel.length + bitAt s.trref 7
  | 0x7008 => bitAt s.atbusy 0 + bitAt s.atdone 1 + s.aterr.toNat * 4
  | 0x7800 => bitAt s.bootdone 0 + bitAt s.chainok 1
  | _ => 0

/-- The 64-bit word at an offset of device register space that is a multiple of 8; write-only and reserved fields read zero
(R118). -/
def devWord (s : State) (off : Nat) : Nat :=
  if off < 0x8000 then lowWord s off
  else if 0x10000 ≤ off ∧ off < 0x12000 then
    let q := (off - 0x10000) / 16
    if off % 16 = 8 then (smGet 0 s.portLid q).toNat + (smGet 0 s.portRej q).toNat * 2 ^ 32 else 0
  else if 0x80000 ≤ off ∧ off < 0xA0000 then
    let w := smGet noPcie s.pcie ((off - 0x80000) / 0x10000 * 256 + (off - 0x80000) % 0x10000 / 32)
    if (off - 0x80000) % 0x10000 < 0x2000 then
      match off % 32 / 8 with
      | 0 => bitAt w.en 0 + bitAt w.r 1 + bitAt w.w 2 + w.bus
      | 1 => w.lim
      | 2 => w.phys
      | _ => 0
    else 0
  else if 0x100000 ≤ off ∧ off < 0x110000 then portWord (portOf s ((off - 0x100000) / 0x1000)) (off % 0x1000)
  else if 0x200000 ≤ off ∧ off < 0x200400 then
    let w := peerWindow s ((off - 0x200000) / 16)
    if off % 16 = 0 then bitAt w.wen 0 + bitAt w.msg 1 + w.pmod.toNat * 4 + w.ports.toNat * 2 ^ 18 else w.ppbase
  else if 0x300000 ≤ off ∧ off < 0x300000 + 0x1000 * 192 then
    let core := (off - 0x300000) / 0x1000
    if off % 0x1000 = 0 ∧ corePresent s core then (swapWait s core).toNat else 0
  else if 0x1000000 ≤ off ∧ off < 0x1020000 then
    let d := asidDesc s ((off - 0x1000000) / 16)
    if off % 16 = 0 then bitAt d.en 0 + bitAt d.rsv 1 + d.tbase else d.count + d.tsize * 2 ^ 17
  else if 0x2000000 ≤ off ∧ off < 0x2020000 then
    let v := smGet (0, 0) s.vectors ((off - 0x2000000) / 16)
    if off % 16 = 0 then v.1.toNat else v.2.toNat
  else 0

/-- n bytes of device register space at a physical address. -/
def devBytes (s : State) (pa : Nat) : Nat → List Byte
  | 0 => []
  | n + 1 =>
    let off := pa - Config.devLo
    BitVec.ofNat 8 (devWord s (off / 8 * 8) / 256 ^ (off % 8)) :: devBytes s (pa + 1) n

end Sys2Proof.Machine
end

