-- ==== Sys2Proof/Machine/Access.lean ====
section
/-!
DEFINITION. One access to global memory or scratchpad: its pieces (R108, R109), the checks of R123 with the device and peer
places (R118, R238, R242), the frame lock (R253), the race check (R147) and poison (R116), the bytes read and written, peer
requests (R239 to R241), fill tags and writer marks (R104, R149), and residency widenings (R126, R127).
-/
namespace Sys2Proof.Machine

/-- Where an engine's read of memory is served (R107, R114, R135): by the second-level cache, which knows no first-level copy, or by
DRAM. -/
inductive EnginePath where
  | second | dram
deriving DecidableEq, Repr

/-- A sector as a path serves it. -/
def pathSector (s : State) (path : EnginePath) (sector : Nat) : List Byte × Bool :=
  match path with
  | .second => l2Sector s sector
  | .dram => dramSector s sector

/-- What the checks need to know of an access. -/
structure Req where
  asid : Nat
  acc : Access
  agent : Nat
  /-- The core whose first-level cache serves it; none for an engine (R135). -/
  core : Option Nat
  /-- Where an engine reads: at the second level or in DRAM (R114, R135). -/
  path : EnginePath := .second
  /-- The access is race-checked, where its range is (R147). -/
  race : Bool
  /-- Its stream has engine operations with accesses to device ranges left, which come before its own there (R118). -/
  behind : Bool := false
deriving DecidableEq, Repr

/-- Where a piece lies. -/
inductive Place where
  /-- Memory, and whether its sectors are race-checked and marked (R147, R157). -/
  | mem (pa : Nat) (tracked : Bool)
  | dev (pa : Nat)
  | peer (window pa : Nat)
deriving DecidableEq, Repr

/-- A piece of an access (R108), and whether its range has the PLANE attribute (R101). -/
structure Piece where
  va : Nat
  len : Nat
  place : Place
  plane : Bool
deriving DecidableEq, Repr

/-- What the checks answer for an access or a piece. -/
inductive Checked where
  | ok (ps : List Piece)
  | bad (c : Cause) (va : Nat)
  /-- A partial-residency fault, a hold (R126, R132), or an access to a device range behind others of its stream (R118). -/
  | park (w : Wait)
deriving DecidableEq, Repr

/-- Whether a sector is poisoned for this access (R116). -/
def reqPoisoned (s : State) (q : Req) (pa : Nat) : Bool :=
  match q.core with
  | some c => lsPoisoned s c pa
  | none => (pathSector s q.path (sectorOf pa)).2

/-- A store by the module's own units and by control cores, which fails on the bytes of a locked frame (R253). -/
def unitStore (s : State) (pa : Nat) (bs : List Byte) : State :=
  homeWrite (flushQuanta s pa (pa + bs.length)) homeHolder ((writesAt pa bs).filter fun w => !locked s w.1 1)

/-! ### Updates of a range table -/

/-- Writes an entry into a slot of a table (R125). -/
def putEntry (s : State) (asid k : Nat) (e : RangeEntry) : State :=
  unitStore s ((asidDesc s asid).tbase + 64 * k) (entryBytes e)

/-- Sets COUNT of an ASID (R120). -/
def setCount (s : State) (asid n : Nat) : State :=
  { s with asids := smSet noAsid s.asids asid { asidDesc s asid with count := n } }

/-- Rewrites the table from a slot on, and sets COUNT (R125). -/
def putEntries (s : State) (asid : Nat) : Nat → List RangeEntry → State
  | k, [] => setCount s asid k
  | k, e :: es => putEntries (putEntry s asid k e) asid (k + 1) es

/-- Whether a race check finds a conflict (R147). An engine access to a sector whose writer is an agent of the issuing core
is skipped; the agent's core is that of its id. -/
def reqRace (s : State) (q : Req) (pa : Nat) : Bool :=
  let own := q.core.isNone && (match agentCore q.agent, agentCore (trackOf s (sectorOf pa)).wr with
    | some a, some b => a == b
    | _, _ => false)
  q.race && !own && raceHit s q.agent (sectorOf pa)

/-- How many flits a port may still send (R245): none while it retrains, else what its replay buffer has room for beside those that
are unacknowledged. -/
def portRoom (s : State) (port : Nat) : Nat :=
  if (portOf s port).retrainFrom.isSome then 0
  else Config.replayFlits - countP (fun r => r.port == port && r.answer.isNone) s.peers

/-- The ports have room for an access to each of these lines, by window and physical address (R245). -/
def hasRoom (s : State) (lines : List (Nat × Nat)) : Bool :=
  let ports := lines.filterMap fun x => portFor s x.1 x.2
  ports.all fun n => decide (countP (· == n) ports ≤ portRoom s n)

/-- The checks of one piece, in the order of R123; then the message window, the frame lock, the race check and poison. An atomic of a gang
or the hawk to a message window traps as its store does: R242 speaks of stores alone (DESIGN CHOICE, log 119). -/
def checkPiece (s : State) (q : Req) (va len : Nat) : Checked :=
  match translate s q.asid q.acc va with
  | .fault c => .bad c va
  | .absent _ => .park (.residency va)
  | .held _ => .park (.migrating va)
  | .at pa e =>
    if Config.devLo ≤ pa then
      match inPeerWindow pa (pa + len) with
      | some w =>
        if writes q.acc && q.core.isSome && (peerWindow s w).msg then .bad .rangePermission va
        else .ok [{ va := va, len := len, place := .peer w pa, plane := false }]
      | none => if q.behind then .park .interlock else .ok [{ va := va, len := len, place := .dev pa, plane := false }]
    else if writes q.acc && locked s pa len then .bad .sealedWrite va
    else if !e.sealed && reqRace s q pa then .bad .memoryModel va
    else if q.acc != .write && reqPoisoned s q pa then .bad .poison va
    else .ok [{ va := va, len := len, place := .mem pa (!e.sealed), plane := e.plane }]

/-- The engine class of a stream's access to global memory (R135, R239): LK through a peer window, else LS. -/
def classAt (s : State) (asid va : Nat) : EngineClass :=
  match findRange s asid va with
  | some (_, e) => if (inPeerWindow (e.pbase + (va - e.base)) (e.pbase + (va - e.base) + 1)).isSome then .lk else .ls
  | none => .ls

/-- Whether an address lies in a range over device registers outside the peer windows (R118). -/
def inDevice (s : State) (asid va : Nat) : Bool :=
  match findRange s asid va with
  | some (_, e) =>
    let pa := e.pbase + (va - e.base)
    decide (Config.devLo ≤ pa) && (inPeerWindow pa (pa + 1)).isNone
  | none => false

/-- The pieces of [va, va + len): it is cut at each 32-byte sector (R108), over fuel. -/
def cut (va len : Nat) : Nat → List (Nat × Nat)
  | 0 => []
  | fuel + 1 =>
    if len = 0 then []
    else
      let n := min len (32 - va % 32)
      (va, n) :: cut (va + n) (len - n) fuel

/-- Joins the answers of two parts of one access: the first failing part decides, and a park only where no part fails. -/
def joinChecked (a b : Checked) : Checked :=
  match a, b with
  | .bad c va, _ => .bad c va
  | _, .bad c va => .bad c va
  | .park w, _ => .park w
  | _, .park w => .park w
  | .ok p, .ok q => .ok (p ++ q)

/-- The lookaside entries that an access of a core to [va, va + len) uses or installs, whatever its checks answer (R121, R122). -/
def touchSpan (s : State) (core asid va len : Nat) : State :=
  (cut va len (len / 32 + 2)).foldl (fun s p => touchLook s core asid p.1) s

/-- The checks of an access to [va, va + len). -/
def checkSpan (s : State) (q : Req) (va len : Nat) : Checked :=
  (cut va len (len / 32 + 2)).foldl (fun a p => joinChecked a (checkPiece s q p.1 p.2)) (.ok [])

/-! ### Peer requests (R239 to R241) -/

/-- The request that a sender has outstanding or answered for a piece. -/
def findRequest (s : State) (x : Sender) (va : Nat) (kind : PeerKind) : Option PeerRequest :=
  s.peers.find? fun r => r.lid == x.lid && r.tid == x.tid && r.who == x.who && r.lane == x.lane && r.op == x.op &&
    r.returning && r.va == BitVec.ofNat 64 va && r.kind == kind

/-- The answer to a returning request: known, still awaited, or the request not sent for want of room at the port (R245). -/
inductive Answer where
  | got (ok : Bool) (data : List Byte)
  | waiting (id : Nat)
  | full
deriving DecidableEq, Repr

/-- Asks a peer for a piece: the request is sent once, and a window with no port in service fails at once (R241). -/
def askPeer (s : State) (x : Sender) (p : Piece) (w pa : Nat) (kind : PeerKind) : State × Answer :=
  match findRequest s x p.va kind with
  | some r =>
    match r.answer with
    | some a => (s, .got a.1 a.2)
    | none => (s, .waiting r.id)
  | none =>
    match portFor s w pa with
    | none => (s, .got false [])
    | some port => if portRoom s port = 0 then (s, .full) else (sendPeer s x port w pa p.va kind true false, .waiting s.nextPeer)

/-- Removes the answered requests of a stream's word, which have been consumed: those that serve these lanes. -/
def consumePeers (s : State) (lid tid : Nat) (who : StreamName) (mine : Option Nat → Bool) : State :=
  { s with peers := s.peers.filter fun r =>
      !(r.lid == lid && r.tid == tid && r.who == who && r.op.isNone && mine r.lane && r.returning && r.answer.isSome) }

/-- The report of a failed peer write (R228, R241). -/
def peerFailure (va : DWord) : Report := { cause := .engineError, addr := va, cls := some .lk, batch := none }

/-- Records a team's failed peer write: the first stands (R241). -/
def recordPeerFailure (s : State) (t : Nat) (who : StreamName) (va : DWord) : State :=
  modTeam s t fun tm => { tm with peerReport := tm.peerReport.orElse fun _ => some (who, peerFailure va) }

/-- Sends a no-return peer access (R239, R241). -/
def sendNoReturn (s : State) (t : Nat) (x : Sender) (p : Piece) (w pa : Nat) (kind : PeerKind) : State :=
  match portFor s w pa with
  | none => recordPeerFailure s t x.who (BitVec.ofNat 64 p.va)
  | some port => sendPeer s x port w pa p.va kind false false

/-- Whether a stream has peer writes that no peer has acknowledged (R239). -/
def peerWritesOut (s : State) (tm : Team) (who : StreamName) : Bool :=
  s.peers.any fun r => r.lid == tm.lid && r.tid == tm.tid && r.who == who && !r.returning

/-! ### Reads and writes of checked pieces -/

/-- The bytes of the pieces of one access, as its path reads them; a peer piece takes its answer's bytes. -/
def readPieces (s : State) (core : Option Nat) (answer : Piece → List Byte) : List Piece → List Byte
  | [] => []
  | p :: ps =>
    (match p.place with
      | .mem pa _ => (List.range p.len).map fun k =>
          match core with
          | some c => lsByte s c (pa + k)
          | none => memByte s (pa + k)
      | .dev pa => devBytes s pa p.len
      | .peer _ _ => answer p) ++ readPieces s core answer ps

/-- The bytes that the pieces of one access write to memory, as (physical address, byte). -/
def memWrites : List Piece → List Byte → List (Nat × Byte)
  | [], _ => []
  | p :: ps, bs =>
    (match p.place with
      | .mem pa _ => writesAt pa (bs.take p.len)
      | _ => []) ++ memWrites ps (bs.drop p.len)

/-- The sectors of the pieces that the race fields cover (R146, R157). -/
def trackedSectors (ps : List Piece) : List Nat :=
  ps.filterMap fun p =>
    match p.place with
    | .mem pa true => some (sectorOf pa)
    | _ => none

/-- What an access does before it is performed: a link station's atomic unit gives its tokens back (R156), and the pending sums of
the words it touches are applied (R155). -/
def openPieces (s : State) (ps : List Piece) : State :=
  ps.foldl (fun s p =>
    match p.place with
    | .mem pa _ => flushQuanta s pa (pa + p.len)
    | _ => s) s

/-- How the policies of R110 install a line, by their codes. -/
def policyInstall (policy : Nat) : Install :=
  if policy = 1 then { Install.below with mark := .next }
  else if policy = 2 then .below
  else if policy = 3 then { Install.normal with mark := .last }
  else .normal

/-- Whether some words of [lo, hi) have a pending sum (R155). -/
def anySum (s : State) (lo hi : Nat) : Bool := s.quanta.any (quantumTouches lo hi)

/-- How an access without a plane record installs the sectors of its pieces (R101, R110). -/
def installOf (policy : Nat) (p : Piece) : Install := if p.plane then .never else policyInstall policy

/-- How a store without a plane record installs a sector. -/
def storeInstall (policy : Nat) (ps : List Piece) (sector : Nat) : Install :=
  match ps.find? fun p => (match p.place with
    | .mem pa _ => sectorOf pa == sector
    | _ => false) with
  | some p => installOf policy p
  | none => .normal

/-- Keeps the sectors that a load read in the core's cache (R107, R110). -/
def allocPieces (s : State) (core policy : Nat) (ps : List Piece) : State :=
  ps.foldl (fun s p =>
    match p.place with
    | .mem pa _ => allocSector s core (sectorOf pa) (installOf policy p)
    | _ => s) s

/-- Sends the peer pieces of a store, each with its bytes (R239). -/
def sendStores (s : State) (t : Nat) (x : Sender) : List Piece → List Byte → State
  | [], _ => s
  | p :: ps, bs =>
    let s := match p.place with
      | .peer w pa => sendNoReturn s t x p w pa (.write (bs.take p.len))
      | _ => s
    sendStores s t x ps (bs.drop p.len)

/-- Whether a piece reaches a peer. -/
def isPeer (p : Piece) : Bool :=
  match p.place with
  | .peer .. => true
  | _ => false

/-- The lines of peer windows that some pieces touch, by window and physical address. -/
def peerLines (ps : List Piece) : List (Nat × Nat) := ps.filterMap fun p =>
  match p.place with
  | .peer w pa => some (w, pa)
  | _ => none

/-- A sector of a peer window: its window, its physical address and its virtual address. -/
structure PeerSector where
  window : Nat
  pa : Nat
  va : Nat
deriving DecidableEq, Repr

/-- The distinct sectors of peer windows that some pieces touch, in ascending physical address (R108). -/
def peerSectors (ps : List Piece) : List PeerSector :=
  let all := ps.filterMap fun p => match p.place with
    | .peer w pa => some { window := w, pa := pa / 32 * 32, va := p.va / 32 * 32 : PeerSector }
    | _ => none
  sortBy (·.pa) (all.foldl (fun l x => if l.any (·.pa == x.pa) then l else l ++ [x]) [])

/-- The write of some bytes of a sector (R108), from the first byte written to the last. -/
def sectorStore (ws : List (Nat × Byte)) : Nat × PeerKind :=
  let lo := ws.foldl (fun m w => min m w.1) 31
  let hi := ws.foldl (fun m w => max m w.1) 0
  let data := (List.range (hi + 1 - lo)).map fun k => ws.foldl (fun b w => if w.1 == lo + k then some w.2 else b) none
  (lo, if data.all Option.isSome then .write (data.filterMap id) else .masked data)

/-- The bytes that the pieces of one access write in peer windows, as (physical address, byte). -/
def peerWrites : List Piece → List Byte → List (Nat × Byte)
  | [], _ => []
  | p :: ps, bs =>
    (match p.place with
      | .peer _ pa => writesAt pa (bs.take p.len)
      | _ => []) ++ peerWrites ps (bs.drop p.len)

/-- Sends the stores of one instruction to peers: one request for each distinct sector, in ascending address (R108, R239). A later
pair stands over an earlier one. -/
def sendSectors (s : State) (t : Nat) (x : Sender) (ps : List Piece) (ws : List (Nat × Byte)) : State :=
  (peerSectors ps).foldl (fun s sec =>
    let (lo, kind) := sectorStore (sectorWrites (sectorOf sec.pa) ws)
    sendNoReturn s t x { va := sec.va + lo, len := 32, place := .peer sec.window (sec.pa + lo), plane := false } sec.window
      (sec.pa + lo) kind) s

/-- Whether a piece is memory. -/
def isMemory (p : Piece) : Bool :=
  match p.place with
  | .mem .. => true
  | _ => false

/-! ### Residency (R126, R127) -/

/-- The window that a widening to cover [clo, chi) writes (R127): WLO and WHI in bytes. -/
def widened (e : RangeEntry) (clo chi : Nat) : Nat × Nat :=
  let w := 2 ^ 16
  let (nlo, nhi) := if e.wlo ≥ e.whi then (clo, chi) else (min (e.wlo * w) clo, max (e.whi * w) chi)
  (max nlo (e.base / w * w), min nhi (ceilDiv e.limit w * w))

/-- Starts the residency unit on the grain chunk of an address, unless a widening in progress covers it (R126, R127). -/
def startWiden (s : State) (asid va : Nat) : State :=
  match findRange s asid va with
  | none => s
  | some (_, e) =>
    let g := 2 ^ 16 * 2 ^ e.grain
    let clo := va / g * g
    if s.rangeOps.any fun o => o.asid == asid && (match o.kind with
      | .widen b lo hi => b == e.base && decide (lo ≤ va) && decide (va < hi)
      | _ => false) then s
    else
      { s with nextRange := s.nextRange + 1
               rangeOps := s.rangeOps ++ [{ id := s.nextRange, asid := asid, holder := none,
                                            kind := .widen e.base clo (clo + g), trowel := none }] }

/-- What a parked access asks for: a partial-residency fault starts a widening (R126). -/
def startPark (s : State) (asid : Nat) : Wait → State
  | .residency va => startWiden s asid va
  | _ => s

/-! ### Plane addresses (R89, R91) -/

/-- plane_addr of R91. -/
def planeAddr (d : PlaneDesc) (p b : Nat) : Nat := if p = 0 then d.ebase + b else d.ebase + p * d.stride + 8 * b

/-- The bytes of a plane in one block (R89). -/
def planeLen (p : Nat) : Nat := if p = 0 then 1 else 8

/-! ### Scratchpad (R103 to R106, R149) -/

/-- The bytes of a team's allocation. -/
def scratchSize (tm : Team) : Nat := tm.lines * 128

/-- A scratchpad byte. -/
def scratchByte (tm : Team) (a : Nat) : Byte := smGet 0 tm.scratch a

/-- n scratchpad bytes. -/
def scratchBytes (tm : Team) (a : Nat) : Nat → List Byte
  | 0 => []
  | n + 1 => scratchByte tm a :: scratchBytes tm (a + 1) n

/-- Writes scratchpad bytes. -/
def setScratch (tm : Team) (ws : List (Nat × Byte)) : Team :=
  { tm with scratch := ws.foldl (fun m w => smSet 0 m w.1 w.2) tm.scratch }

/-- A line's fill tag (R104). -/
def fillTag (tm : Team) (line : Nat) : BitVec 2 := smGet tagFull tm.tags line

/-- Sets a line's fill tag. -/
def setFill (tm : Team) (line : Nat) (x : BitVec 2) : Team := { tm with tags := smSet tagFull tm.tags line x }

/-- A line's writer mark (R149). -/
def markOf (tm : Team) (line : Nat) : Nat := smGet 31 tm.marks line

/-- Sets a line's writer mark. -/
def setMark (tm : Team) (line m : Nat) : Team := { tm with marks := smSet 31 tm.marks line m }

/-- The mark of a stream (R149). -/
def markFor : StreamName → Nat
  | .gang g => g
  | .hawk => 16

/-- The lines that [a, a + len) touches. -/
def linesOf (a len : Nat) : List Nat :=
  if len = 0 then [] else (List.range ((a + len - 1) / 128 - a / 128 + 1)).map (· + a / 128)

/-- Whether the mark of a line names another stream, in a launch with race detection (R149). -/
def markHit (s : State) (tm : Team) (who : StreamName) (line : Nat) : Bool :=
  raceMode s tm && markOf tm line != 31 && markOf tm line != markFor who

/-- What the checks answer for a scratchpad access. -/
inductive SChecked where
  | ok
  | bad (c : Cause)
  | stall (lines : List Nat)
deriving DecidableEq, Repr

/-- The checks of a scratchpad access at an offset (R103, R106, R149): bounds, alignment, fill tags where `tagged`, marks. -/
def checkScratch (s : State) (tm : Team) (who : StreamName) (off : Int) (len align : Nat) (tagged : Bool) : SChecked :=
  if off < 0 ∨ off.toNat + len > scratchSize tm then .bad .scratchBounds
  else
    let a := off.toNat
    let ls := linesOf a len
    if align ≠ 0 ∧ a % align ≠ 0 then .bad .misaligned
    else
      let stall := ls.filter fun l => fillTag tm l == tagEmpty || fillTag tm l == tagPending
      if tagged && !stall.isEmpty then .stall stall
      else if tagged && ls.any (fun l => fillTag tm l == tagFaulted) then .bad .poison
      else if ls.any (markHit s tm who) then .bad .memoryModel
      else .ok

/-- Sets the marks of the lines that a stream's scratchpad write touches, in a launch with race detection (R149, R150). -/
def markLines (s : State) (tm : Team) (who : StreamName) (ls : List Nat) : Team :=
  if raceMode s tm then ls.foldl (fun tm l => setMark tm l (markFor who)) tm else tm

end Sys2Proof.Machine
end

