-- ==== Sys2Proof/Machine/Moves.lean ====
section
/-!
DEFINITION. Where engine operations read and write: the moves of copies and plane copies (09 R161 to R163), the lines of an operation,
the elements of gathers (R165, R313), the spans of skim operations (R195), and the accesses of operations to device ranges (R118).
-/
namespace Sys2Proof.Machine

/-! ### Moves (R161 to R163) -/

/-- The plane, block and exponent byte's address of a plane's bytes (R89, R91). -/
structure PlaneTag where
  plane : Nat
  block : Nat
  expVa : Nat
deriving DecidableEq, Repr

/-- One element of a copy (R162): source and destination with their sides, and what the lines of a plane copy carry. -/
structure Move where
  sloc : Bool
  src : Nat
  dloc : Bool
  dst : Nat
  len : Nat
  stag : Option PlaneTag := none
  dtag : Option PlaneTag := none
deriving DecidableEq, Repr

/-- Some byte of a span lies in a device range (R118). -/
def spanOnDevice (s : State) (asid va len : Nat) : Bool := (cut va len (len / 32 + 2)).any fun p => inDevice s asid p.1

/-- A move reads or writes a device range (R118). -/
def moveOnDevice (s : State) (asid : Nat) (m : Move) : Bool :=
  (!m.sloc && spanOnDevice s asid m.src m.len) || (!m.dloc && spanOnDevice s asid m.dst m.len)

/-- The part of a move whose destination lies in a 128-byte line. -/
def clipMove (line : Nat) (m : Move) : Option Move :=
  let lo := max m.dst (128 * line)
  let hi := min (m.dst + m.len) (128 * line + 128)
  if lo < hi then some { m with src := m.src + (lo - m.dst), dst := lo, len := hi - lo } else none

/-- A virtual address from an integer. -/
def addrOf (x : Int) : Nat := wrapN 64 x

/-- The position of an index in a dimension, with the modulo of R162 on a side. -/
def dimPos (d : CopyDesc) (k j : Nat) (side : Bool) : Nat :=
  if d.moddim = some k ∧ d.mside = side then (j + d.modbase) % d.modcnt else j

/-- The offsets of the elements in loop order (R162), over the dimensions from k on; `js` gives the indices of the outermost
dimension. -/
def copyOffsets (d : CopyDesc) (js : List Nat) : Nat → List CopyDim → List (Int × Int)
  | _, [] => [(0, 0)]
  | k, dim :: rest =>
    (copyOffsets d js (k + 1) rest).flatMap fun o =>
      (if rest.isEmpty then js else List.range dim.count).map fun j =>
        (o.1 + (dimPos d k j true : Int) * dim.sstride, o.2 + (dimPos d k j false : Int) * dim.dstride)

/-- The count of the outermost dimension. -/
def outerCount (d : CopyDesc) : Nat := (d.dims.getLast?.map (·.count)).getD 0

/-- The moves of a copy whose outermost index runs over a list; the destination is that of `r`, a descriptor of one shape. -/
def copyMoves (d r : CopyDesc) (js : List Nat) : List Move :=
  ((copyOffsets d js 0 d.dims).zip (copyOffsets r js 0 r.dims)).map fun x =>
    { sloc := d.sloc, src := addrOf ((d.src : Int) + x.1.1), dloc := r.dloc, dst := addrOf ((r.dst : Int) + x.2.2), len := d.esize }

/-- Every move of a copy. -/
def allMoves (d : CopyDesc) : List Move := copyMoves d d (List.range (outerCount d))

/-- The moves of a plane copy, in ascending plane and block order. -/
def pcopyMoves (dst src : PlaneDesc) (plo phi nb : Nat) : List Move :=
  (List.range (phi + 1 - plo)).flatMap fun q => (List.range nb).map fun b =>
    let p := plo + q
    let tag (d : PlaneDesc) : PlaneTag := { plane := p, block := d.block + b, expVa := planeAddr d 0 (d.block + b) }
    { sloc := src.loc, src := planeAddr src p (src.block + b), dloc := dst.loc, dst := planeAddr dst p (dst.block + b),
      len := planeLen p, stag := some (tag src), dtag := some (tag dst) }

/-- The moves of an operation that is a list of moves. -/
def opMoves : EngineKind → List Move
  | .copy d => allMoves d
  | .input d => allMoves d
  | .pcopy dst src plo phi nb => pcopyMoves dst src plo phi nb
  | _ => []

/-- The destination lines of some moves, each once, in order. -/
def moveLines (ms : List Move) : List Nat :=
  ms.foldl (fun m x => (linesOf x.dst x.len).foldl (fun m l => if m.contains l then m else m ++ [l]) m) []

/-- The lines of an operation that have still to land, in loop order. -/
def linesLeft (op : EngineOp) : List Nat := (moveLines (opMoves op.kind)).filter fun l => !op.landed.contains l

/-- The moves that fill a line. -/
def lineMoves (op : EngineOp) (line : Nat) : List Move := (opMoves op.kind).filterMap (clipMove line)

/-! ### Elements and skim slots (R165, R195, R313) -/

/-- Where an element's index and status bytes stand. -/
def indexSize (d : GatherDesc) : Nat := if d.idxw then 8 else 4

/-- The bytes of an element. -/
def elemSize (d : GatherDesc) : Nat := 2 ^ d.esz

/-- The address of an element from its index (R313). -/
def elementAddr (d : GatherDesc) (raw : Nat) : Nat :=
  addrOf ((d.base : Int) + sextN (if d.idxw then 64 else 32) raw * 2 ^ d.shift)

/-- The input bytes of a skim operation, plane by plane: address and length (R199, R200). -/
def skimSpans (d : PlaneDesc) (st : SkimDesc) : List (Nat × Nat) :=
  (List.range (st.cpl + 2)).map fun p => (planeAddr d p d.block, planeLen p * st.iblk)

/-! ### Accesses to device ranges (R118) -/

/-- An operation has an access to a device range left to make. An element whose index stands in a line that waits, and so is not known,
counts as none. -/
def opOnDevice (s : State) (tm : Team) (op : EngineOp) : Bool :=
  let asid := asidOf s tm
  let elems (d : GatherDesc) : Bool := (List.range d.count).any fun k =>
    let off := d.idxoff + k * indexSize d
    !op.landed.contains k && (linesOf off (indexSize d)).all (fun l => fillTag tm l == tagFull) &&
      inDevice s asid (elementAddr d (natOf (scratchBytes tm off (indexSize d))))
  match op.kind with
  | .gather d => elems d
  | .scatter d => elems d
  | .mcast d _ => op.flag.isSome && (allMoves d).any (moveOnDevice s asid)
  | .skimchk _ key d st _ _ _ => skimOnDevice s asid key d st
  | .skimput key d st _ => skimOnDevice s asid key d st
  | _ => (linesLeft op).any fun l => (lineMoves op l).any (moveOnDevice s asid)
where
  skimOnDevice (s : State) (asid : Nat) (key : SkimKey) (d : PlaneDesc) (st : SkimDesc) : Bool :=
    inDevice s asid (skimSlotAddr st key) || (!d.loc && (skimSpans d st).any fun x => spanOnDevice s asid x.1 x.2)

/-- A stream's engine operations issued before this place in the order have accesses to a device range left: its later accesses there
come after them (R118). -/
def deviceAhead (s : State) (tm : Team) (who : StreamName) (order : Option Nat) : Bool :=
  tm.eops.any fun o => o.who == who && order.all (fun n => decide (o.order < n)) && opOnDevice s tm o

end Sys2Proof.Machine
end

