-- ==== Sys2Proof/Machine/Issue.lean ====
section
/-!
DEFINITION. Fetching an instruction (R60), the traps of a header or a word that does not decode (R258, R267), and the choice
of the stream that issues (R49, R211).
-/
namespace Sys2Proof.Machine

/-- What a fetch answers. -/
inductive Fetched where
  | word (w : Word)
  | fault (c : Cause)
  | park (w : Wait)
deriving DecidableEq, Repr

/-- Reads `len` bytes at an address of a stream's code: translated through the lookaside, with the pending sums of the bytes
applied (R60, R122, R155); `lane` is whom a request to a peer serves. The bytes and no fault come from a poisoned sector, of which
R116 says nothing for a fetch (log 27). -/
def fetchBytes (s : State) (tm : Team) (who : StreamName) (lane : Option Nat) (va len : Nat)
    (k : State → List Byte → State × Fetched) : State × Fetched :=
  let found := translate s (asidOf s tm) .fetch va
  let s := touchLook s tm.core (asidOf s tm) va
  match found with
  | .fault c => (s, .fault c)
  | .absent _ => (startWiden s (asidOf s tm) va, .park (.residency va))
  | .held _ => (s, .park (.migrating va))
  | .at pa _ =>
    if pa < Config.devLo then
      let s := flushQuanta s pa (pa + len)
      k s (homeBytes s pa len)
    else match inPeerWindow pa (pa + len) with
      | none => k s (devBytes s pa len)
      | some w =>
        let x : Sender := { lid := tm.lid, tid := tm.tid, who := who, lane := lane, op := none }
        match askPeer s x { va := va, len := len, place := .peer w pa, plane := false } w pa (.read len) with
        | (s', .waiting id) => (s', .park (.peer id))
        | (s', .full) => (s', .park .interlock)
        | (s', .got true bs) => k (consumePeers s' tm.lid tm.tid who (· == lane)) bs
        | (s', .got false _) => (consumePeers s' tm.lid tm.tid who (· == lane), .fault .poison)

/-- The engine class of a failed fetch: LK through a peer window (R239), else none. -/
def fetchClass (s : State) (tm : Team) (va : Nat) : Option EngineClass :=
  match classAt s (asidOf s tm) va with
  | .lk => some .lk
  | _ => none

/-- The word at an address in the bytes of its unit. -/
def unitWord (pc : Nat) (unit : List Byte) : Word := BitVec.ofNat 32 (natOf ((unit.drop (pc % 128)).take 4))

/-- Fetches a fragment's next word from its pool entry, which is refilled by units of 128 bytes; an entry keeps the two units
filled last, and does not observe later stores to them (R59, R60). -/
def fetchGang (s : State) (tm : Team) (t g f : Nat) (fr : Frag) : State × Fetched :=
  let pc := fr.pc.toNat
  let unit := pc / 128 * 128
  match fr.buf.find? fun x => x.1 == unit with
  | some x => (s, .word (unitWord pc x.2))
  | none =>
    fetchBytes s tm (.gang g) (some (64 + f)) unit 128 fun s bs =>
      (modFrag s t g f fun fr => { fr with buf := ((unit, bs) :: fr.buf).take 2 }, .word (unitWord pc bs))

/-- Fetches the hawk's next word, through a buffer of its own whose size and refill R59 leaves open: the word is read when it
issues (log 83). -/
def fetchHawk (s : State) (tm : Team) (pc : DWord) : State × Fetched :=
  fetchBytes s tm .hawk none pc.toNat 4 fun s bs => (s, .word (BitVec.ofNat 32 (natOf bs)))

/-- What the step does with a stream's turn: it runs an instruction, or it is over. -/
inductive Issue where
  | run (i : Instr) (s : State)
  | ended (s : State)
deriving DecidableEq, Repr

/-- A trap at a gang's clause header (R258, R224); `cls` is the class of a fetch that failed. -/
def headerTrap (s : State) (t g f : Nat) (fr : Frag) (c : Cause) (addr : DWord) (word : Word) (cls : Option EngineClass := none) :
    State :=
  takeGangTrap s t g f
    (preciseRecord fr.pc fr.exmask (if replayCause c then fr.exmask else 0) addr c cls word) none

/-- A trap at the hawk's clause header; inside a window it is held (R31, R258). -/
def hawkHeaderTrap (s : State) (t : Nat) (hk : Hawk) (c : Cause) (addr : DWord) (word : Word) (cls : Option EngineClass := none) :
    State :=
  let r := preciseRecord hk.pc 0 (if replayCause c then 1 else 0) addr c cls word
  match hk.window with
  | some w => modHawk s t fun hk => { hk with window := some { w with fault := some r }, st := .waiting .interlock }
  | none => takeHawkTrap s t r

/-- The cause with which a word that does not decode traps (R265, R267); a hint of gangs alone is wrong-stream for the hawk
first. -/
def rejectCause (hawk : Bool) : DecodeError → Cause
  | .hintPayload k => if hawk && (k == 3 || k == 5) then .illegalInstruction else .illegalClause
  | .headerBit => .illegalClause
  | .operandField => if hawk then .illegalInstruction else .illegalOperand
  | _ => .illegalInstruction

/-- A precise trap of a gang word known only by its bits (R224, R267). -/
def trapRaw (s : State) (t g f : Nat) (fr : Frag) (cl : Clause) (c : Cause) (addr : DWord) (word : Word)
    (cls : Option EngineClass := none) : State :=
  let act := match fr.replay with
    | some r => r.lanes &&& fr.exmask
    | none => fr.exmask &&& cl.gmask
  takeGangTrap s t g f (preciseRecord fr.pc act act addr c cls word) (fr.replay.map fun r => { r with lanes := act })

/-- A word that names an illegal operand by fields that no instruction of the opcode map has (R284, R347, R359): its hints are
judged first (R267), those of a word of major 0xC as R266 gives. -/
def trapOperandField (s : State) (t g f : Nat) (tm : Team) (fr : Frag) (cl : Clause) (word : Word) : State :=
  match gangOf tm g, badHint (if word.toNat / 2 ^ 28 = 12 then acceptsOper else acceptsNone) cl.hints [] with
  | some gg, some h =>
    trapAtHint s { t := t, g := g, f := f, tm := tm, gg := gg, fr := fr, cl := cl, act := fr.exmask &&& cl.gmask, helper := 0 } h
  | _, _ => trapRaw s t g f fr cl .illegalOperand 0 word

/-- Whether a wait that is not swappable is tried again at the stream's turn. -/
def retried : Wait → Bool
  | .interlock | .clauseFlags _ | .peer _ => true
  | _ => false

/-- Whether a fragment may be tried: it issues, or stands in a wait that is tried again (R48). -/
def canTry (fr : Frag) : Bool :=
  match fr.st with
  | .issuing => true
  | .waiting w => retried w
  | .noEntry | .barrier _ => false

/-- Whether a trap's handler leaves the fragment free to issue (R58, R221). -/
def handlerLeaves (gg : Gang) (fr : Frag) : Bool :=
  match gg.handler with
  | none => true
  | some h => fr.home &&& ~~~h.home == 0

/-- Whether a fragment that has issued a header still keeps the gang to its clause (R49): a barrier word has ended it (R285). One that a
pre-emption stopped inside its clause keeps it while it waits for a pool entry. A YIELD or JOINW ends its clause too (R259), and the spec
does not say whether other fragments may issue while the fragment waits in it: it keeps the gang (DESIGN CHOICE, log 108). -/
def insideClause : FragState → Bool
  | .issuing | .waiting _ | .noEntry => true
  | .barrier _ => false

/-- The table slots of a gang among which R49 chooses, in its order, of those that a trap's handler leaves free: the fragment inside a
clause of which it has issued a word alone, or all in round robin after the last one. -/
def turnSlots (gg : Gang) : List Nat :=
  let inClause : Bool := match fragOf gg gg.lastFrag with
    | some fr => (fr.clause.any fun c => c.begun) && insideClause fr.st
    | none => false
  (if inClause then [gg.lastFrag] else (List.range 8).map fun k => (gg.lastFrag + 1 + k) % 8).filter fun f =>
    (fragOf gg f).any (handlerLeaves gg)

/-- The table slots of a gang that may issue, in the order in which R49 tries them. -/
def fragOrder (gg : Gang) : List Nat := (turnSlots gg).filter fun f => (fragOf gg f).any canTry

/-- Whether a fragment that has come to a header waits there: its gang has ended a clause that marks a step boundary, under a pending
request that the boundary honours, with one fragment and no split-stack entry (R216). -/
def waitsAtBoundary (s : State) (tm : Team) (gg : Gang) (fr : Frag) : Bool :=
  gg.marked && fr.clause.isNone && tm.preempt == some false && launchField s tm 0 (·.pclass) == 1 && gg.stack.isEmpty &&
    (liveFrags gg).length == 1

/-- The issue of a fragment's next word or header. -/
def issueFrag (s : State) (lid tid g f : Nat) : Issue :=
  match teamIdx s lid tid with
  | none => .ended s
  | some t =>
    match listAt s.teams t with
    | none => .ended s
    | some tm =>
      match (gangOf tm g).bind fun gg => fragOf gg f with
      | none => .ended s
      | some fr =>
        if tm.st ≠ .running then .ended s
        else if (gangOf tm g).any fun gg => waitsAtBoundary s tm gg fr then
          .ended (modFrag s t g f fun fr => { fr with st := .waiting .stepBoundary })
        else
          let s := { s with cur := .gang t g f }
          match fetchGang s tm t g f fr with
          | (s, .park w) => .ended (modFrag s t g f fun fr => { fr with st := .waiting w })
          | (s, .fault c) =>
            match fr.clause with
            | none => .ended (headerTrap s t g f fr c fr.pc 0 (fetchClass s tm fr.pc.toNat))
            | some cl => .ended (trapRaw s t g f fr cl c fr.pc 0 (fetchClass s tm fr.pc.toNat))
          | (s, .word w) =>
            match fr.clause with
            | none =>
              match decodeHeader w with
              | .instr i => .run i s
              | .reject e => .ended (headerTrap s t g f fr (rejectCause false e) 0 w)
            | some cl =>
              match decodeWord w with
              | .instr i => .run i s
              | .reject .operandField => .ended (trapOperandField s t g f tm fr cl w)
              | .reject e => .ended (trapRaw s t g f fr cl (rejectCause false e) 0 w)

/-- Whether every live gang of a team waits at the boundary of a pending request (R216). A team whose gangs have all exited while its hawk
runs on has no gang that reaches a boundary: the spec does not say when a request without FORCE to it is honoured, and it never is
(DESIGN CHOICE, log 114). -/
def atBoundary (tm : Team) : Bool :=
  tm.preempt.isSome && (tm.gangs.any fun gg => !gangExited gg) &&
  tm.gangs.all fun gg => gangExited gg || (liveFrags gg).any fun x => x.2.st == .waiting .stepBoundary

/-- The issue of the hawk's next word or header (R28). -/
def issueHawk (s : State) (lid tid : Nat) : Issue :=
  match teamIdx s lid tid with
  | none => .ended s
  | some t =>
    match listAt s.teams t with
    | none => .ended s
    | some tm =>
      let hk := tm.hawk
      let ready := match hk.st with
        | .issuing => true
        | .waiting w => retried w
        | .stopped => false
      if tm.st ≠ .running ∨ !ready ∨ atBoundary tm then .ended s
      else
        let s := { s with cur := .hawk t }
        let s := modTeam s t fun tm => { tm with timer := 0 }
        match fetchHawk s tm hk.pc with
        | (s', .park (.peer id)) => .ended (waitHawk s' t (.peer id))
        | (s', .park w) => .ended (if hk.window.isSome then waitHawk s t .interlock else waitHawk s' t w)
        | (s, .fault c) => .ended (hawkHeaderTrap s t hk c hk.pc 0 (fetchClass s tm hk.pc.toNat))
        | (s, .word w) =>
          match hk.clause with
          | none =>
            match decodeHeader w with
            | .instr i => .run i s
            | .reject e => .ended (hawkHeaderTrap s t hk (rejectCause true e) 0 w)
          | some _ =>
            match decodeWord w with
            | .instr i => .run i s
            | .reject e => .ended (hawkHeaderTrap s t hk (rejectCause true e) 0 w)

/-- A candidate of a core's issue slot: launch, team, gang, table slot. -/
structure Cand where
  lid : Nat
  tid : Nat
  g : Nat
  f : Nat
deriving DecidableEq, Repr

/-- The gangs of the running teams of a core, by time of entering (R211): launch, team, gang, priority. -/
def coreGangs (s : State) (core : Nat) : List (Nat × Nat × Nat × Nat) :=
  (sortBy (·.entered) (s.teams.filter fun tm => tm.core == core && tm.st == .running)).flatMap fun tm =>
    (List.range tm.gangCount).map fun g => (tm.lid, tm.tid, g, tm.prio)

/-- When the team of a gang entered RUNNING or SWAPIN (R211). -/
def enteredAt (s : State) (lid tid : Nat) : Nat := ((teamBy s lid tid).map (·.entered)).getD 0

/-- A group of equal priority, starting after the gang issued last at that priority, or after its place where it has left the group
(R211). -/
def rotateGroup (s : State) (last : Option (Nat × Nat × Nat × Nat)) (l : List (Nat × Nat × Nat × Nat)) : List (Nat × Nat × Nat × Nat) :=
  match last with
  | none => l
  | some (lid, tid, g, entered) =>
    match listFind (fun y => (y.1, y.2.1, y.2.2.1) == (lid, tid, g)) l 0 with
    | some n => l.drop (n + 1) ++ l.take (n + 1)
    | none =>
      let before (y : Nat × Nat × Nat × Nat) : Bool := decide (enteredAt s y.1 y.2.1 ≤ entered)
      l.filter (fun y => !before y) ++ l.filter before

/-- The gang issued last at a priority on a core, and when its team had entered (R211). -/
def lastAt (s : State) (core prio : Nat) : Option (Nat × Nat × Nat × Nat) :=
  (s.lastGang.find? fun x => x.1 == core * 64 + prio).map (·.2)

/-- The candidate gangs of a core that have not issued for 512 core cycles, the oldest first (R211). -/
def starvedGangs (s : State) (core : Nat) : List (Nat × Nat × Nat × Nat) :=
  let since (x : Nat × Nat × Nat × Nat) : Nat :=
    (((teamBy s x.1 x.2.1).bind fun tm => gangOf tm x.2.2.1).map (·.lastIssue)).getD 0
  sortBy since ((coreGangs s core).filter fun x => decide (since x + 512 < s.cycle))

/-- The fragments of some gangs, in the order in which R49 tries each gang's. -/
def gangCands (s : State) (gs : List (Nat × Nat × Nat × Nat)) : List Cand := gs.flatMap fun x =>
  match (teamBy s x.1 x.2.1).bind fun tm => gangOf tm x.2.2.1 with
  | none => []
  | some gg => (fragOrder gg).map fun f => { lid := x.1, tid := x.2.1, g := x.2.2.1, f := f }

/-- The candidates of a core's issue slots by priority and round robin (R211). -/
def coreCands (s : State) (core : Nat) : List Cand :=
  let gs := coreGangs s core
  gangCands s (((gs.map fun x => 63 - x.2.2.2).foldl setAdd []).flatMap fun k =>
    rotateGroup s (lastAt s core (63 - k)) (gs.filter fun x => x.2.2.2 == 63 - k))

/-- The starved gangs' candidates, which come before the others in the first issue slot alone (R211). -/
def urgentCands (s : State) (core : Nat) : List Cand :=
  gangCands s ((s.forced.filter fun x => x.1 == core).flatMap (fun x =>
    (coreGangs s core).filter fun y => (y.1, y.2.1, y.2.2.1) == (x.2.1, x.2.2.1, x.2.2.2)) ++ starvedGangs s core)

/-- Whether an attempt only found its fragment held by a wait that is not swappable, so that it is no candidate (R211). An attempt
that has sent a peer request has issued. -/
def heldBack (s s' : State) (x : Cand) : Bool :=
  s'.nextPeer == s.nextPeer &&
  match ((teamBy s' x.lid x.tid).bind fun tm => gangOf tm x.g).bind fun gg => fragOf gg x.f with
  | some fr =>
    match fr.st with
    | .waiting w => retried w
    | _ => false
  | none => false

/-- Whether two candidates are of one gang. -/
def sameGang (x y : Cand) : Bool := x.lid == y.lid && x.tid == y.tid && x.g == y.g

/-- The candidates that take a core's two issue slots, of those that are not held: the oldest starved gang, else the first by priority,
and the first of another gang (R211). -/
def slotPair (urgent normal : List Cand) : List Cand :=
  match urgent ++ normal with
  | [] => []
  | x :: _ => x :: (normal.find? fun y => !sameGang x y).toList

/-- Two gangs of one team act in ascending gang index in a core cycle (R74, R171). -/
def actOrder : List Cand → List Cand
  | [x, y] => if x.lid = y.lid ∧ x.tid = y.tid ∧ y.g < x.g then [y, x] else [x, y]
  | l => l

/-- The gangs of a core's slots, in their order, are the last issued at their priorities (R211). -/
def noteOrder (s : State) (l : List (Nat × Nat × Nat × Nat × Nat)) : State :=
  { s with lastGang := l.foldl (fun m x => x :: m.filter fun y => y.1 != x.1) s.lastGang }

/-- What `noteOrder` records of a candidate: its core and priority, launch, team and gang, and when its team entered. -/
def orderKey (s : State) (core : Nat) (x : Cand) : Nat × Nat × Nat × Nat × Nat :=
  (core * 64 + ((teamBy s x.lid x.tid).map (·.prio)).getD 0, x.lid, x.tid, x.g, enteredAt s x.lid x.tid)

/-- Whether a hawk of a core has issued in this core cycle, after which no gang of the core acts in it (R74, R171). -/
def hawkSpent (s : State) (core : Nat) : Bool := s.teams.any fun tm => tm.core == core && s.spent.contains (.hawk tm.lid tm.tid)

/-- Records the issue of a gang's fragment (R35, R49). -/
def noteIssue (s : State) (x : Cand) : State :=
  match teamIdx s x.lid x.tid with
  | none => s
  | some t =>
    let s := modTeam s t fun tm => { tm with timer := 0 }
    let s := modGang s t x.g fun gg => { gg with lastIssue := s.cycle, lastFrag := x.f }
    { s with forced := s.forced.filter fun y => y.2 != (x.lid, x.tid, x.g) }

/-- A swappable wait (R34). -/
def swappable : Wait → Bool
  | .qpop _ | .qpush _ | .dqpop | .fill _ | .residency _ | .migrating _ | .joinw | .spawn | .yieldFlag .. | .dqpush _ |
    .kwait _ => true
  | .clauseFlags _ | .interlock | .rangeOp _ | .peer _ | .stepBoundary => false

/-- Whether a fragment stands in a swappable wait (R34). -/
def fragIdle (fr : Frag) : Bool :=
  match fr.st with
  | .waiting w => swappable w
  | .barrier _ => true
  | _ => false

/-- Whether a gang stands in swappable waits, or has exited (R35): those of its fragments that R49 and R58 let issue do. -/
def gangIdle (gg : Gang) : Bool := (turnSlots gg).all fun f => (fragOf gg f).all fragIdle

/-- Whether the swap timer of a team runs (R35). -/
def timerRuns (tm : Team) : Bool :=
  tm.gangs.all gangIdle && (match tm.hawk.st with
    | .issuing => false
    | .waiting w => swappable w
    | .stopped => true)

/-- A control core writes memory (R20): performed at the home slice, but for bytes of a locked frame (R253). -/
def controlStore (s : State) (pa : Nat) (bs : List Byte) : Out :=
  match (writesAt pa bs).find? fun w => !(isFast w.1 || isCap w.1 || isDev w.1) with
  | some w => .fault (.unpopulated w.1)
  | none => .next (unitStore s pa (if Config.devLo ≤ pa then [] else bs))

/-! ### A word placed for the next step -/

/-- A launch record that stands for a program loaded from outside (log 16). -/
def placedRecord : LaunchRecord :=
  { gentry := 0x4000, hentry := 0x4000, param := 0, tcount := 1, cpt := 1, gangs := 1, vregs := 112, acct := 16, splines := 64,
    prio := 0, asid := 1, strict := false, race := false, idem := false, skim := false, sys := false, snap := false, pclass := 0,
    sdist := 1, retry := 0, preds := [], ninput := 0, seed := 0, inlist := 0, stepd := 0, ctxbase := 0, ctxn := 1, done := 0 }

/-- A live launch of that record. -/
def placedLaunch : Launch :=
  { lid := 1, queue := 0, record := placedRecord, nextTid := 1, nextChild := 1, vector := some (0, 0), stepDecl := none,
    cancelled := false, status := 0, fcause := 0, fteam := 0, preds := [], order := 0 }

/-- The clause in which a placed word stands: flags 0 and 1, unguarded, and room for a word after a hint. -/
def placedClause (hint : Bool) : Clause :=
  { hdr := 0x4000, seta := 0, setb := 1, left := if hint then 2 else 1, guard := 31, gneg := false,
    gmask := BitVec.allOnes 64, keep := false, hints := [] }

/-- The range that maps a placed word: readable, writable, executable, resident. -/
def placedEntry : RangeEntry :=
  { st := rsValid, base := 0, limit := 0x100000, grain := 0, pbase := 0x100000, asid := 1, r := true, w := true, x := true,
    sealed := false, gth := false, plane := false, cap := false, self := true, egress := false, back := false, wlo := 0,
    whi := 16, cbase := 0, glim := 0x100000, clean := true }

/-- A team that stands at a word: a gang or the hawk, inside a clause or at a header. -/
def placedTeam (hawk : Bool) (cl : Option Clause) : Team :=
  let tm := freshTeam 1 0 none 1 112 16 64 0 0x4000 0x4000 0 0 0 none
  { tm with
    st := .running
    slots := [0]
    cluster := some 0
    hawk := if hawk then { tm.hawk with pc := 0x4004, clause := cl } else tm.hawk
    gangs := if hawk then tm.gangs
      else tm.gangs.map fun gg => modFragOf gg 0 fun fr => { fr with pc := 0x4004, clause := cl } }

/-- The state in which the next step fetches and runs a word (log 16). -/
def placeWord (s : State) (w : Word) : State :=
  let header := w.toNat / 2 ^ 28 = 0
  let hawk := w.toNat / 2 ^ 28 = 0xD
  let cl := if header then none else some (placedClause (w.toNat / 2 ^ 28 = 1))
  let s := setMemBytes s 0x10000 (entryBytes placedEntry)
  let s := setMemBytes s 0x104004 (bytesOf 4 w.toNat)
  let placed (e : CacheSector) : Bool := lineOf e.sector == lineOf (sectorOf 0x104004) || e.sector == 0x800 || e.sector == 0x801
  { s with
    agenda := [if hawk then .hawk 1 0 else .core 0]
    spent := []
    forced := []
    l1 := s.l1.filter fun e => !placed e
    l2 := s.l2.filter fun e => !placed e
    quanta := s.quanta.filter fun x => !(quantumTouches 0x10000 0x10040 x || quantumTouches 0x104000 0x104080 x)
    asids := smSet noAsid s.asids 1 { en := true, rsv := false, tbase := 0x10000, count := 1, tsize := 1 }
    throttled := false
    launches := placedLaunch :: s.launches
    teams := placedTeam hawk cl :: s.teams.filter fun tm => !(tm.core == 0 && tm.st == .running) }

end Sys2Proof.Machine
end

