-- ==== Sys2Proof/Machine/VectorWord.lean ====
section
/-!
DEFINITION. The V3, VI and P words: the use of operand-form IMMX (R266, R316), operand legality (R63, R263), and the one
operation by which a lane instruction writes its result.
-/
namespace Sys2Proof.Machine

/-- Which fields of an operand-form IMMX a word uses (R266). -/
structure OperUse where
  rm : Bool
  sat : Bool
  el : Bool
  pc : Bool
  sc : Bool
deriving DecidableEq, Repr

/-- No field but SC through SB 127. -/
def useNone : OperUse := ⟨false, false, false, false, false⟩
/-- RM alone. -/
def useRm : OperUse := { useNone with rm := true }

/-- The code of the second source of a V3 word: SB, or SC where SB is 127 (R316). -/
def secondCode (c : GCtx) (b : BitVec 7) : Nat :=
  if b = 127 then (match operHint c.cl.hints with
    | some o => o.sc
    | none => 127)
  else b.toNat

/-- Whether the fields of an operand-form IMMX that the word does not use are zero (R266, R316). -/
def operLegal (c : GCtx) (u : OperUse) (sb127 : Bool) : Bool :=
  match operHint c.cl.hints with
  | none => true
  | some o =>
    (u.rm || o.rm == 0) && (u.sat || !o.sat) && (u.el || o.el == 0) && (u.pc || o.pc == 0) && (u.sc || sb127 || o.sc == 0)

/-- The rounding mode of a word that accepts RM (R80). -/
def roundingMode (c : GCtx) : RMode :=
  match operHint c.cl.hints with
  | some o => rmodeOf o.rm
  | none => .rn

/-- What R267 needs of a V3 word with a 32-bit vector destination. -/
def v3Info (c : GCtx) (u : OperUse) (d : BitVec 7) (a : BitVec 8) (b : Option (BitVec 7)) (readsD : Bool) : WordInfo :=
  let v := c.tm.vregs
  let second := b.map (secondCode c)
  { plainInfo with
    accepts := acceptsOper
    legal := dstOk v d.toNat && srcOk v a.toNat && second.all (srcOk v) && !(readsD && d == 120) &&
      operLegal c u (b == some 127)
    count := max (srcCount a.toNat) (second.elim 0 srcCount)
    reads := srcRegs a.toNat ++ second.elim [] srcRegs ++ if readsD then dstRegs d.toNat else []
    writes := dstRegs d.toNat }

/-- The effect of a lane instruction with a 32-bit vector destination: the value of each lane (R27, R65, R71). -/
def laneResult (d : BitVec 7) (f : State → GCtx → Nat → Word) (c : GCtx) (s : State) : GRes :=
  .done (writeResult s c d.toNat (writeLanes c) (mkLanes (f s c)))

/-- A V3 word that computes one 32-bit result in each lane. -/
def v3Word (i : Instr) (u : OperUse) (d : BitVec 7) (a : BitVec 8) (b : Option (BitVec 7)) (readsD : Bool)
    (f : State → GCtx → Nat → Word) (s : State) : Out :=
  gangOnly i (fun c => v3Info c u d a b readsD) (laneResult d f) s

/-- A V3 word of two 32-bit sources read as integers (R263). -/
def intWord (i : Instr) (d : BitVec 7) (a : BitVec 8) (b : BitVec 7) (f : Word → Word → Word) (s : State) : Out :=
  v3Word i useNone d a (some b) false (fun s c l => f (srcLane s c a.toNat l) (srcLane s c (secondCode c b) l)) s

/-- A V3 word of one 32-bit source read as an integer. -/
def intWord1 (i : Instr) (d : BitVec 7) (a : BitVec 8) (f : Word → Word) (s : State) : Out :=
  v3Word i useNone d a none false (fun s c l => f (srcLane s c a.toNat l)) s

/-- A V3 word of two 32-bit sources and its destination's old value. -/
def intWord3 (i : Instr) (d : BitVec 7) (a : BitVec 8) (b : BitVec 7) (f : Word → Word → Word → Word) (s : State) : Out :=
  v3Word i useNone d a (some b) true
    (fun s c l => f (srcLane s c a.toNat l) (srcLane s c (secondCode c b) l) (srcLane s c d.toNat l)) s

/-- What R267 needs of a VI word. -/
def viInfo (c : GCtx) (d : BitVec 7) (a : Option (BitVec 8)) (readsD : Bool) : WordInfo :=
  let v := c.tm.vregs
  { plainInfo with
    accepts := acceptsImm
    legal := dstOk v d.toNat && a.all (fun a => srcOk v a.toNat) && !(readsD && d == 120)
    count := a.elim 0 fun a => srcCount a.toNat
    reads := (a.elim [] fun a => srcRegs a.toNat) ++ if readsD then dstRegs d.toNat else []
    writes := dstRegs d.toNat }

/-- The immediate of a VI word as an integer (R266). -/
def viInt (c : GCtx) (imm : BitVec 8) : Word := (viImm c.cl.hints imm).1

/-- The immediate of a VI word as FP32: a plain immediate is converted exactly, an extended one is a bit pattern (R266). -/
def viFloat (c : GCtx) (imm : BitVec 8) : Word :=
  match viImm c.cl.hints imm with
  | (x, true) => x
  | (x, false) => srcF32.inlineF32 x.toInt

/-- A VI word of a source read as an integer. -/
def viWord (i : Instr) (d : BitVec 7) (a : BitVec 8) (imm : BitVec 8) (f : Word → Word → Word) (s : State) : Out :=
  gangOnly i (fun c => viInfo c d (some a) false)
    (laneResult d fun s c l => f (srcLane s c a.toNat l) (viInt c imm)) s

/-- A VI word of a source read as FP32. -/
def viFloatWord (i : Instr) (d : BitVec 7) (a : BitVec 8) (imm : BitVec 8) (readsD : Bool) (f : Word → Word → Word → Word)
    (s : State) : Out :=
  gangOnly i (fun c => viInfo c d (some a) readsD)
    (laneResult d fun s c l => f (srcF32 s c a.toNat l) (viFloat c imm) (srcLane s c d.toNat l)) s

/-- A V3 word of two sources read as FP32, its destination's old value, and the rounding mode. -/
def floatWord (i : Instr) (u : OperUse) (d : BitVec 7) (a : BitVec 8) (b : BitVec 7) (readsD : Bool)
    (f : RMode → Word → Word → Word → Word) (s : State) : Out :=
  v3Word i u d a (some b) readsD
    (fun s c l => f (roundingMode c) (srcF32 s c a.toNat l) (srcF32 s c (secondCode c b) l) (srcLane s c d.toNat l)) s

end Sys2Proof.Machine
end

