-- ==== Sys2Proof/Machine/Lanes.lean ====
section
/-!
DEFINITION. The per-lane memory instructions' shared steps (R221, R222, R128): what each lane's checks answer, which lanes
commit, which park and which trap, and the end of a load, with its flag, its pending registers and its deposits (R260, R261).
-/
namespace Sys2Proof.Machine

/-- What the checks answer for one lane's access. -/
inductive LaneRes where
  /-- The access may be performed: its pieces, and for a load the bytes read. -/
  | ok (ps : List Piece) (data : List Byte)
  | trap (c : Cause) (addr : DWord)
  | park (w : Wait)
deriving DecidableEq, Repr

/-- Lanes with what their checks answered, ascending. -/
abbrev LaneList := List (Nat × LaneRes)

/-- The requirements of an LS access of a gang (R123, R135, R147). -/
def lsReq (s : State) (c : GCtx) (a : Access) : Req :=
  { asid := asidOf s c.tm, acc := a, agent := agentId c.tm (.gang c.g), core := some c.tm.core, race := raceMode s c.tm
    behind := deviceAhead s c.tm (.gang c.g) none }

/-- The sender of the requests of a fragment's coalescer (R108). -/
def fragSender (c : GCtx) : Sender :=
  { lid := c.tm.lid, tid := c.tm.tid, who := .gang c.g, lane := some (64 + c.f), op := none }

/-- The fragment's answered requests have been consumed: its coalescer's, and its lanes'. -/
def consumeFrag (s : State) (c : GCtx) : State :=
  consumePeers s c.tm.lid c.tm.tid (.gang c.g) fun lane => lane.any fun l => l == 64 + c.f || (decide (l < 64) && c.act.getLsbD l)

/-- Asks for each peer piece of an access, threading the state: unanswered, failed, or the answers. -/
def askPieces (x : Sender) : List Piece → State → State × Option Answer × List (Nat × List Byte)
  | [], s => (s, none, [])
  | p :: ps, s =>
    let (s, a) := match p.place with
      | .peer w pa => let (s, a) := askPeer s x p w pa (.read p.len); (s, some a)
      | _ => (s, none)
    let (s, b, got) := askPieces x ps s
    match a, b with
    | some (.waiting id), _ => (s, some (.waiting id), got)
    | some (.got true d), b => (s, b, (p.va, d) :: got)
    | _, some (.waiting id) => (s, some (.waiting id), got)
    | some .full, _ => (s, some .full, got)
    | some (.got false _), some .full => (s, some .full, got)
    | some (.got false d), _ => (s, some (.got false d), got)
    | none, b => (s, b, got)

/-- The bytes that a peer answered for a piece. -/
def answered (got : List (Nat × List Byte)) (p : Piece) : List Byte :=
  ((got.find? fun x => x.1 == p.va).map (·.2)).getD []

/-- One lane's checks (R123, R222, R368). `align` is the alignment that it needs, 0 for none. -/
def laneCheck (s : State) (q : Req) (align len va : Nat) : LaneRes :=
  if align ≠ 0 ∧ va % align ≠ 0 then .trap .misaligned (BitVec.ofNat 64 va)
  else match checkSpan s q va len with
    | .bad cause _ => .trap cause (BitVec.ofNat 64 va)
    | .park w => .park w
    | .ok ps => .ok ps []

/-- The lookaside entries that the accesses of some lanes use or install (R121, R122). -/
def touchLanes (s : State) (q : Req) (core align len : Nat) (va : Nat → Nat) (ls : List Nat) : State :=
  ls.foldl (fun s l => if align ≠ 0 ∧ va l % align ≠ 0 then s else touchSpan s core q.asid (va l) len) s

/-- The pieces of the lanes whose access may be performed, in lane order. -/
def okPieces (rs : LaneList) : List Piece := rs.flatMap fun x => match x.2 with
  | .ok ps _ => ps
  | _ => []

/-- Asks the peers for each of some sectors, in order (R108): the answers, by physical address. -/
def askSectors (x : Sender) : List PeerSector → State → State × List (Nat × Answer)
  | [], s => (s, [])
  | sec :: l, s =>
    let (s, a) := askPeer s x { va := sec.va, len := 32, place := .peer sec.window sec.pa, plane := false } sec.window sec.pa (.read 32)
    let (s, r) := askSectors x l s
    (s, (sec.pa, a) :: r)

/-- What keeps a word from going on after its requests: an answer that has not come, or want of room at a port. -/
def askedWait (got : List (Nat × Answer)) : Option Wait :=
  match got.findSome? fun x => (match x.2 with
    | .waiting id => some id
    | _ => none) with
  | some id => some (.peer id)
  | none => if got.any fun x => x.2 == .full then some .interlock else none

/-- The answer to the request for the sector of a physical address. -/
def sectorAnswer (got : List (Nat × Answer)) (pa : Nat) : Answer :=
  ((got.find? fun x => x.1 == pa / 32 * 32).map (·.2)).getD (.got false [])

/-- A piece that no peer has answered with its bytes (R241). -/
def pieceFailed (got : List (Nat × Answer)) (p : Piece) : Bool :=
  match p.place with
  | .peer _ pa => (match sectorAnswer got pa with
    | .got true _ => false
    | _ => true)
  | _ => false

/-- The bytes of a piece within its sector's answer: every lane that reads a byte receives the same value (R108). -/
def sectorBytes (got : List (Nat × Answer)) (p : Piece) : List Byte :=
  match p.place with
  | .peer _ pa => (match sectorAnswer got pa with
    | .got true d => (d.drop (pa % 32)).take p.len
    | _ => [])
  | _ => []

/-- What a lane's load gives once the peers have answered: its bytes, or a trap where one of them failed (R241). -/
def laneRead (s : State) (core : Option Nat) (got : List (Nat × Answer)) (va : Nat) : LaneRes → LaneRes
  | .ok ps _ =>
    if ps.any (pieceFailed got) then .trap .poison (BitVec.ofNat 64 va) else .ok ps (readPieces s core (sectorBytes got) ps)
  | r => r

/-- Runs a lane's checks over lanes in order, threading the state. -/
def eachLane (f : Nat → State → State × LaneRes) : List Nat → State → State × LaneList
  | [], s => (s, [])
  | l :: ls, s =>
    let (s, r) := f l s
    let (s, rs) := eachLane f ls s
    (s, (l, r) :: rs)

/-- The lanes whose access may be performed. -/
def okLanes (rs : LaneList) : Mask :=
  maskOf fun l => rs.any fun x => x.1 == l && (match x.2 with
    | .ok .. => true
    | _ => false)

/-- The lanes that park. -/
def parkLanes (rs : LaneList) : Mask :=
  maskOf fun l => rs.any fun x => x.1 == l && (match x.2 with
    | .park _ => true
    | _ => false)

/-- The first park, by lane. -/
def firstPark (rs : LaneList) : Option Wait := rs.findSome? fun x => match x.2 with
  | .park w => some w
  | _ => none

/-- The traps, by lane. -/
def laneTraps (rs : LaneList) : List (Nat × Cause × DWord) := rs.filterMap fun x => match x.2 with
  | .trap c a => some (x.1, c, a)
  | _ => none

/-- The bytes that a lane read. -/
def laneData (rs : LaneList) (l : Nat) : List Byte :=
  (rs.findSome? fun x => if x.1 == l then (match x.2 with
    | .ok _ d => some d
    | _ => none) else none).getD []

/-- The pieces of a lane's access. -/
def lanePieces (rs : LaneList) (l : Nat) : List Piece :=
  (rs.findSome? fun x => if x.1 == l then (match x.2 with
    | .ok ps _ => some ps
    | _ => none) else none).getD []

/-- What the instruction owed from earlier executions (R128, R227). -/
def priorTraps (c : GCtx) : List (Nat × Cause × DWord) := (c.fr.replay.map (·.traps)).getD []
/-- The result count has already risen for this instruction (R227). -/
def priorCounted (c : GCtx) : Bool := (c.fr.replay.map (·.counted)).getD false
/-- The flag has already risen for this instruction. -/
def priorRaised (c : GCtx) : Bool := (c.fr.replay.map (·.raised)).getD false
/-- The placement set of a CSTORE (R295, R296): the active lanes of its first execution. -/
def placementOf (c : GCtx) : Mask := (c.fr.replay.map (·.placement)).getD c.act

/-- The trap with the lowest lane. -/
def lowestTrap : List (Nat × Cause × DWord) → Option (Nat × Cause × DWord)
  | [] => none
  | x :: xs =>
    match lowestTrap xs with
    | none => some x
    | some y => if y.1 < x.1 then some y else some x

/-- The lanes of a list of traps. -/
def trapLanes (ts : List (Nat × Cause × DWord)) : Mask := maskOf fun l => ts.any fun x => x.1 == l

/-- Lowers a completion flag of the issuing gang. -/
def lowerFlag (s : State) (t g f : Nat) : State :=
  modGang s t g fun gg => { gg with flags := smSet 0 gg.flags f (flagOf gg.flags f - 1) }

/-- The end of a per-lane memory instruction (R128, R221, R222). `s` holds its commits. Lanes that park leave it to be
replayed in those lanes; then traps are delivered, from this execution and earlier ones; else it is done. `glob` says that
the addresses are virtual addresses, not scratchpad offsets. -/
def endLanes (c : GCtx) (glob : Bool) (rs : LaneList) (flag : Option Nat) (raised : Bool) (done : State → GRes) (s : State) : GRes :=
  let traps := priorTraps c ++ laneTraps rs
  match firstPark rs with
  | some w =>
    let s := rs.foldl (fun s x => match x.2 with
      | .park w => startPark s (asidOf s c.tm) w
      | _ => s) s
    let r : Replay := { lanes := parkLanes rs, traps := traps, counted := true, raised := raised, placement := placementOf c }
    .wait w (modFrag s c.t c.g c.f fun fr => { fr with replay := some r })
  | none =>
    match lowestTrap traps with
    | none => done s
    | some (_, cause, addr) =>
      let s := match flag with
        | some f => if raised then lowerFlag s c.t c.g f else s
        | none => s
      let lanes := trapLanes traps
      .trapPart s cause (trapLanes (traps.filter fun x => x.2.1 == cause)) addr lanes
        { lanes := lanes, traps := [], counted := true, raised := false, placement := placementOf c }
        (if glob then classAt s (asidOf s c.tm) addr.toNat else .ls)

/-- The destination of a load: a destination code and the value that the bytes give, in each register. -/
abbrev LoadDest := List (Nat × (List Byte → Word))

/-- The register that a destination code names. -/
def regOfCode (code : Nat) : RegName := if code ≤ 111 then .v code else .o (code - 112)

/-- Writes a load's destinations in the lanes of a mask, at once. -/
def writeLoad (gg : Gang) (dests : LoadDest) (m : Mask) (data : Nat → List Byte) : Gang :=
  dests.foldl (fun gg x => writeDst gg x.1 m (mkLanes fun l => x.2 (data l))) gg

/-- The last-result file takes a load's result at issue (R65, R261): the value is pending. -/
def pushLoad (gg : Gang) (single : Bool) (dests : LoadDest) (m : Mask) (data : Nat → List Byte) : Gang :=
  match single, dests with
  | true, [x] => pushResult gg m (mkLanes fun l => x.2 (data l))
  | _, _ => gg

/-- Clears the tags of a load's destinations at issue (R71). -/
def clearDestTags (gg : Gang) (dests : LoadDest) : Gang :=
  dests.foldl (fun gg x => if x.1 ≤ 111 then clearTag gg x.1 else gg) gg

/-- What a load deposits when it completes. -/
def loadDeposits (dests : LoadDest) (m : Mask) (data : Nat → List Byte) : List Deposit :=
  dests.map fun x => .lanes (regOfCode x.1) m (mkLanes fun l => x.2 (data l))

/-- The helper lanes whose load ends with this execution: those of quads in which no lane has still to execute (R26, R27). -/
def helpersDone (c : GCtx) (rs : LaneList) : Mask :=
  c.helper &&& ~~~(quadsOf (parkLanes rs ||| trapLanes (priorTraps c ++ laneTraps rs)))

/-- A load after its checks (R128, R221, R260, R261, R327): lanes that park or trap make the others commit at once; otherwise
the load is outstanding on its flag, and its destinations are pending. A helper lane that met a fault takes zero (R27). -/
def endLoad (c : GCtx) (glob : Bool) (fs : BitVec 1) (single : Bool) (dests : LoadDest) (rs helpers : LaneList) (s : State) : GRes :=
  let f := flagFor c fs
  let ok := okLanes rs
  let data (l : Nat) : List Byte := laneData (rs ++ helpers) l
  let s := consumeFrag s c
  let count (fr : Frag) : Frag := if single then raiseCount fr else fr
  if (firstPark rs).isSome || !(priorTraps c ++ laneTraps rs).isEmpty then
    let raised := priorRaised c || ((firstPark rs).isSome && ok != 0)
    let m := ok ||| helpersDone c rs
    let s := modGang s c.t c.g fun gg =>
      modFragOf (pushLoad (writeLoad (clearDestTags gg dests) dests m data) single dests m data) c.f count
    let s := if raised && !priorRaised c then raiseFlag s c f else s
    endLanes c glob rs (some f) raised .done s
  else
    let m := ok ||| c.helper
    let s := modGang s c.t c.g fun gg =>
      let gg := setPending (pushLoad (clearDestTags gg dests) single dests m data) (dests.map fun x => regOfCode x.1) f
      modFragOf gg c.f fun fr =>
        let fr := count fr
        if single then { fr with yPending := fr.yPending ||| 1 } else fr
    if c.act = 0 then .done s
    else
      let s := if priorRaised c then s else raiseFlag s c f
      .done (addLoad s c.t (.gang c.g) f (loadDeposits dests m data))

/-! ### Orders (R137, R138) -/

/-- The order code of an access, 0 without XSCOPE. -/
def orderOf (c : GCtx) : Nat := ((scopeHint c.cl.hints).map (·.order)).getD 0
/-- The scope code of an access. -/
def scopeOf (c : GCtx) : Nat := ((scopeHint c.cl.hints).map (·.scope)).getD 0

/-- The orders that a load or store accepts, with no use code and no quantum (R137, R374). -/
def plainOrders (hs : List (DWord × Instr)) (orders : List Nat) : Bool :=
  match scopeHint hs with
  | none => true
  | some x => orders.contains x.order && x.use == 0 && x.q == 0

/-- Whether an order releases (R138). -/
def releases (order : Nat) : Bool := order == 2 || order == 3

/-- What a release meets before it is performed: at system scope, a failed peer write of the stream is reported in its place
(R228, R241), and unacknowledged peer writes are waited for (R239). -/
inductive RelGate where
  | go
  | hold
  | report (r : Report) (s : State)
deriving DecidableEq, Repr

/-- The gate of a release at a scope by a stream of a team. -/
def relGate (s : State) (t : Nat) (tm : Team) (who : StreamName) (scope : Nat) : RelGate :=
  if scope ≠ 7 then .go
  else if peerWritesOut s tm who then .hold
  else match tm.peerReport with
    | some (w, r) => if w = who then .report r (modTeam s t fun tm => { tm with peerReport := none }) else .go
    | none => .go

/-- Runs a gang word's body under the release gate; the body is given the release to perform once its checks have let a lane
commit (R138, R146). -/
def withRelease (c : GCtx) (rel : Bool) (scope : Nat) (body : (State → State) → State → GRes) (s : State) : GRes :=
  if !rel || c.act == 0 then body id s
  else match relGate s c.t c.tm (.gang c.g) scope with
    | .hold => .wait .interlock s
    | .report r s' => .report 15 r c.act s'
    | .go => body (fun s => releaseBy s c.t (.gang c.g) scope) s

end Sys2Proof.Machine
end

