-- ==== Sys2Proof/Machine/Memory.lean ====
section
/-!
DEFINITION. The per-lane memory words of major 0x7: LD, ST, LDS, STS, XLOAD, CSTORE and PREF (R295, R296, R327, R329, R340,
R368, R371, R375).
-/
namespace Sys2Proof.Machine

/-- The hints of LD and ST (R266). -/
def acceptsMem : Accepts := ⟨true, false, true, true, false⟩
/-- The hints of XLOAD, CSTORE and PREF (R266). -/
def acceptsPolicy : Accepts := ⟨true, false, true, false, false⟩

/-- The registers that an ADDR code reads. -/
def addrRegs (a : BitVec 8) : List RegName :=
  match gCode a.toNat with
  | some n => [.g n]
  | none => [.v a.toNat, .v (a.toNat + 1)]

/-- The registers that a scratchpad offset code reads. -/
def offRegs (a : BitVec 8) : List RegName :=
  match gCode a.toNat with
  | some n => [.g n]
  | none => [.v a.toNat]

/-- A lane's global address: (addr + scale × offset) mod 2^64. -/
def laneAddr (c : GCtx) (a : BitVec 8) (scale : Nat) (off : Int) (l : Nat) : Nat :=
  wrapN 64 ((addrLane c a.toNat l).toNat + (scale : Int) * off)

/-- A lane's scratchpad offset, exact (R329). -/
def laneOffset (c : GCtx) (a : BitVec 8) (scale : Nat) (off : Int) (l : Nat) : Int :=
  (offLane c a.toNat l : Int) + (scale : Int) * off

/-! ### Loads -/

/-- The 32 bits from a byte offset of some bytes. -/
def wordAt (k : Nat) (bs : List Byte) : Word := BitVec.ofNat 32 (natOf ((bs.drop k).take 4))

/-- Zero extension of a narrow load. -/
def zeroExt (bs : List Byte) : Word := BitVec.ofNat 32 (natOf bs)

/-- Sign extension of a narrow load. -/
def signExt (bs : List Byte) : Word := BitVec.ofInt 32 (sextN (8 * bs.length) (natOf bs))

/-- The destinations of a 64-bit load. -/
def pairDests (d : BitVec 7) : LoadDest := [(d.toNat, wordAt 0), (d.toNat + 1, wordAt 4)]

/-- Whether the destination of a load is legal: a 32-bit destination other than the last-result file, or a pair (R327). -/
def loadDestOk (v : Nat) (d : BitVec 7) (pair : Bool) : Bool :=
  if pair then pairOk v d.toNat else dstOk v d.toNat && d != 120

/-- A global load of `len` bytes in each lane (R327, R375). Orders other than plain come with `strong`. A helper lane's load is not
race-checked (R147), so the race check that R27 names succeeds for it: of the two rules R147 is followed (log 84). -/
def loadBody (fs : BitVec 1) (a : BitVec 8) (o : BitVec 7) (len scale : Nat) (single : Bool) (dests : LoadDest) (c : GCtx)
    (s : State) : GRes :=
  let off := memOff c.cl.hints o
  let strong := orderOf c ≠ 0
  let q := lsReq s c .read
  let align := if strong then len else 0
  let va := laneAddr c a scale off
  withRelease c (releases (orderOf c)) (scopeOf c) (fun release s =>
    let rs := (lanesIn c.act).map fun l => (l, laneCheck s q align len (va l))
    let hs := (lanesIn c.helper).map fun l => (l, laneCheck s { q with race := false } align len (va l))
    let ps := okPieces (rs ++ hs)
    let s := openPieces (touchLanes s q c.tm.core align len va (lanesIn c.act ++ lanesIn c.helper)) ps
    let (s, got) := askSectors (fragSender c) (peerSectors ps) s
    match askedWait got with
    | some w => .wait w s
    | none =>
      let rs := rs.map fun x => (x.1, laneRead s q.core got (va x.1) x.2)
      let hs := hs.map fun x => (x.1, laneRead s q.core got (va x.1) x.2)
      let s := if okLanes rs = 0 then s else release s
      let s := (rs ++ hs).foldl (fun s x => match x.2 with
        | .ok ps _ => allocPieces s c.tm.core (cacheHint c.cl.hints) ps
        | _ => s) s
      endLoad c true fs single dests rs hs s) s

/-- What R267 needs of a global load. -/
def loadInfo (fs : BitVec 1) (d : BitVec 7) (a : BitVec 8) (pair : Bool) (c : GCtx) : WordInfo :=
  { plainInfo with
    accepts := acceptsMem
    fs := some fs
    legal := loadDestOk c.tm.vregs d pair && addrOk c.tm.vregs a.toNat && plainOrders c.cl.hints [0, 1, 3]
    reads := addrRegs a
    writes := if pair then [.v d.toNat, .v (d.toNat + 1)] else dstRegs d.toNat }

/-- A narrow or 32-bit LD. -/
def loadWord (i : Instr) (f : BitVec 1) (d : BitVec 7) (a : BitVec 8) (o : BitVec 7) (len : Nat) (conv : List Byte → Word)
    (s : State) : Out :=
  gangOnly i (loadInfo f d a false) (loadBody f a o len len true [(d.toNat, conv)]) s

/-- LD.U8 (R327). -/
def execLdU8 (f : BitVec 1) (d : BitVec 7) (a : BitVec 8) (o : BitVec 7) (s : State) : Out :=
  loadWord (.ldU8 f d a o) f d a o 1 zeroExt s
/-- LD.S8 (R327). -/
def execLdS8 (f : BitVec 1) (d : BitVec 7) (a : BitVec 8) (o : BitVec 7) (s : State) : Out :=
  loadWord (.ldS8 f d a o) f d a o 1 signExt s
/-- LD.U16 (R327). -/
def execLdU16 (f : BitVec 1) (d : BitVec 7) (a : BitVec 8) (o : BitVec 7) (s : State) : Out :=
  loadWord (.ldU16 f d a o) f d a o 2 zeroExt s
/-- LD.S16 (R327). -/
def execLdS16 (f : BitVec 1) (d : BitVec 7) (a : BitVec 8) (o : BitVec 7) (s : State) : Out :=
  loadWord (.ldS16 f d a o) f d a o 2 signExt s
/-- LD.B32 (R327). -/
def execLdB32 (f : BitVec 1) (d : BitVec 7) (a : BitVec 8) (o : BitVec 7) (s : State) : Out :=
  loadWord (.ldB32 f d a o) f d a o 4 zeroExt s
/-- LD.B64 (R327). -/
def execLdB64 (f : BitVec 1) (d : BitVec 7) (a : BitVec 8) (o : BitVec 7) (s : State) : Out :=
  gangOnly (.ldB64 f d a o) (loadInfo f d a true) (loadBody f a o 8 8 false (pairDests d)) s

/-- The destinations of XLOAD: four registers, four bytes each (R375). -/
def xloadDests (d : BitVec 7) : LoadDest := (List.range 4).map fun k => (d.toNat + k, wordAt (4 * k))

/-- XLOAD (R375): always plain. -/
def execXload (f : BitVec 1) (d : BitVec 7) (a : BitVec 8) (o : BitVec 7) (s : State) : Out :=
  gangOnly (.xload f d a o)
    (fun c =>
      { plainInfo with
        accepts := acceptsPolicy
        fs := some f
        legal := d.toNat % 4 == 0 && decide (d.toNat + 3 < c.tm.vregs) && decide (d.toNat + 3 ≤ 111) &&
          addrOk c.tm.vregs a.toNat
        reads := addrRegs a
        writes := (List.range 4).map fun k => .v (d.toNat + k) })
    (loadBody f a o 16 16 false (xloadDests d)) s

/-- A scratchpad load in one lane (R329). -/
def laneLds (c : GCtx) (s : State) (off : Int) (len : Nat) : LaneRes ⊕ List Nat :=
  match checkScratch s c.tm (.gang c.g) off len len true with
  | .bad cause => .inl (.trap cause (BitVec.ofInt 64 off))
  | .stall ls => .inr ls
  | .ok => .inl (.ok [] (scratchBytes c.tm off.toNat len))

/-- A scratchpad load (R329): a line that is not ready holds it whole (R106); a helper lane reads FULL lines alone (R27). -/
def ldsBody (fs : BitVec 1) (a : BitVec 8) (o : BitVec 7) (len : Nat) (single : Bool) (dests : LoadDest) (c : GCtx)
    (s : State) : GRes :=
  let off := memOff c.cl.hints o
  let run (l : Nat) := laneLds c s (laneOffset c a len off l) len
  let stalls := (lanesIn c.act).flatMap fun l => match run l with
    | .inr ls => ls
    | .inl _ => []
  if stalls ≠ [] then .wait (.fill (stalls.foldl setAdd [])) s
  else
    let pick (l : Nat) : Nat × LaneRes := (l, match run l with
      | .inl r => r
      | .inr _ => .trap .poison 0)
    endLoad c false fs single dests ((lanesIn c.act).map pick) ((lanesIn c.helper).map pick) s

/-- What R267 needs of a scratchpad load. -/
def ldsInfo (fs : BitVec 1) (d : BitVec 7) (a : BitVec 8) (pair : Bool) (c : GCtx) : WordInfo :=
  { plainInfo with
    accepts := acceptsImm
    fs := some fs
    legal := loadDestOk c.tm.vregs d pair && offOk c.tm.vregs a.toNat
    reads := offRegs a
    writes := if pair then [.v d.toNat, .v (d.toNat + 1)] else dstRegs d.toNat }

/-- A narrow or 32-bit LDS. -/
def ldsWord (i : Instr) (f : BitVec 1) (d : BitVec 7) (a : BitVec 8) (o : BitVec 7) (len : Nat) (conv : List Byte → Word)
    (s : State) : Out :=
  gangOnly i (ldsInfo f d a false) (ldsBody f a o len true [(d.toNat, conv)]) s

/-- LDS.U8 (R329). -/
def execLdsU8 (f : BitVec 1) (d : BitVec 7) (a : BitVec 8) (o : BitVec 7) (s : State) : Out :=
  ldsWord (.ldsU8 f d a o) f d a o 1 zeroExt s
/-- LDS.S8 (R329). -/
def execLdsS8 (f : BitVec 1) (d : BitVec 7) (a : BitVec 8) (o : BitVec 7) (s : State) : Out :=
  ldsWord (.ldsS8 f d a o) f d a o 1 signExt s
/-- LDS.U16 (R329). -/
def execLdsU16 (f : BitVec 1) (d : BitVec 7) (a : BitVec 8) (o : BitVec 7) (s : State) : Out :=
  ldsWord (.ldsU16 f d a o) f d a o 2 zeroExt s
/-- LDS.S16 (R329). -/
def execLdsS16 (f : BitVec 1) (d : BitVec 7) (a : BitVec 8) (o : BitVec 7) (s : State) : Out :=
  ldsWord (.ldsS16 f d a o) f d a o 2 signExt s
/-- LDS.B32 (R329). -/
def execLdsB32 (f : BitVec 1) (d : BitVec 7) (a : BitVec 8) (o : BitVec 7) (s : State) : Out :=
  ldsWord (.ldsB32 f d a o) f d a o 4 zeroExt s
/-- LDS.B64 (R329). -/
def execLdsB64 (f : BitVec 1) (d : BitVec 7) (a : BitVec 8) (o : BitVec 7) (s : State) : Out :=
  gangOnly (.ldsB64 f d a o) (ldsInfo f d a true) (ldsBody f a o 8 false (pairDests d)) s

/-! ### Stores -/

/-- Whether the source of a store is legal: a readable 32-bit source, or a pair (R368). -/
def storeSrcOk (v : Nat) (d : BitVec 7) (pair : Bool) : Bool :=
  if pair then pairOk v d.toNat else srcOk v d.toNat && decide (d.toNat ≤ 121)

/-- The registers that a store's source reads. -/
def storeRegs (d : BitVec 7) (pair : Bool) : List RegName :=
  if pair then [.v d.toNat, .v (d.toNat + 1)] else srcRegs d.toNat

/-- The bytes that a lane stores (R368). -/
def storeBytes (s : State) (c : GCtx) (d : BitVec 7) (len l : Nat) : List Byte :=
  if len = 8 then bytesOf 8 (pairLane c.gg d.toNat l).toNat else bytesOf len (srcLane s c d.toNat l).toNat

/-- The pieces of every lane that commits, with the lane's bytes, ascending. -/
def committed (rs : LaneList) (bytes : Nat → List Byte) : List (Nat × List Piece × List Byte) :=
  rs.filterMap fun x => match x.2 with
    | .ok ps _ => some (x.1, ps, bytes x.1)
    | _ => none

/-- The bytes that a store writes to memory: a higher lane's after a lower one's (R108). -/
def storeWrites (cs : List (Nat × List Piece × List Byte)) : List (Nat × Byte) := cs.flatMap fun x => memWrites x.2.1 x.2.2

/-- Performs the stores of the committed lanes (R108, R146, R218, R239): quantum sums first, then memory in lane order, the
race fields of a plain store, and the peer pieces. -/
def performStores (c : GCtx) (plain : Bool) (policy : Nat) (cs : List (Nat × List Piece × List Byte)) (s : State) : State :=
  let ps := cs.flatMap (·.2.1)
  let s := openPieces s ps
  let s := lsWrite s c.tm.core (storeInstall policy ps) (storeWrites cs)
  let s := if plain && raceMode s c.tm then markStore s (agentId c.tm (.gang c.g)) (trackedSectors ps) else s
  let s := if plain && ps.any isMemory then modTeam s c.t fun tm => { tm with plainStore := true } else s
  sendSectors s c.t (fragSender c) ps (cs.flatMap fun x => peerWrites x.2.1 x.2.2)

/-- The checks and the stores of the lanes of a gang word, with what it releases first (R108, R368). The ports have room for every
flit that it will send, or it waits (R245). -/
def storeLanes (c : GCtx) (q : Req) (align len : Nat) (va : Nat → Nat) (bytes : Nat → List Byte) (plain : Bool) (policy : Nat)
    (release : State → State) (s : State) : GRes :=
  let rs := (lanesIn c.act).map fun l => (l, laneCheck s q align len (va l))
  let cs := committed rs bytes
  if !hasRoom s ((peerSectors (okPieces rs)).map fun x => (x.window, x.pa)) then .wait .interlock s
  else
    let s := touchLanes s q c.tm.core align len va (lanesIn c.act)
    let s := if cs.isEmpty then s else release s
    endLanes c true rs none false .done (performStores c plain policy cs s)

/-- A global store (R368). -/
def storeBody (d : BitVec 7) (a : BitVec 8) (o : BitVec 7) (len : Nat) (c : GCtx) (s : State) : GRes :=
  let off := memOff c.cl.hints o
  let strong := orderOf c ≠ 0
  let q := lsReq s c .write
  withRelease c (releases (orderOf c)) (scopeOf c) (fun release s =>
    storeLanes c q (if strong then len else 0) len (laneAddr c a len off) (storeBytes s c d len) (!strong)
      (cacheHint c.cl.hints) release s) s

/-- A global store word. -/
def storeWord (i : Instr) (d : BitVec 7) (a : BitVec 8) (o : BitVec 7) (len : Nat) (s : State) : Out :=
  gangOnly i
    (fun c =>
      { plainInfo with
        accepts := acceptsMem
        legal := storeSrcOk c.tm.vregs d (len == 8) && addrOk c.tm.vregs a.toNat && plainOrders c.cl.hints [0, 2, 3]
        count := if len = 8 then 0 else srcCount d.toNat
        reads := addrRegs a ++ storeRegs d (len == 8) })
    (storeBody d a o len) s

/-- ST.B8 (R368). -/
def execStB8 (d : BitVec 7) (a : BitVec 8) (o : BitVec 7) (s : State) : Out := storeWord (.stB8 d a o) d a o 1 s
/-- ST.B16 (R368). -/
def execStB16 (d : BitVec 7) (a : BitVec 8) (o : BitVec 7) (s : State) : Out := storeWord (.stB16 d a o) d a o 2 s
/-- ST.B32 (R368). -/
def execStB32 (d : BitVec 7) (a : BitVec 8) (o : BitVec 7) (s : State) : Out := storeWord (.stB32 d a o) d a o 4 s
/-- ST.B64 (R368). -/
def execStB64 (d : BitVec 7) (a : BitVec 8) (o : BitVec 7) (s : State) : Out := storeWord (.stB64 d a o) d a o 8 s

/-- The address of a lane's element of a CSTORE (R295): its rank counts the lanes of the placement set below it. -/
def packedAddr (c : GCtx) (a : BitVec 8) (o : BitVec 7) (len l : Nat) : Nat :=
  let rank := popMask (placementOf c &&& maskOf fun k => decide (k < l))
  laneAddr c a len (memOff c.cl.hints o + rank) l

/-- CSTORE (R295, R296). -/
def cstoreWord (i : Instr) (d : BitVec 7) (a : BitVec 8) (o : BitVec 7) (len : Nat) (s : State) : Out :=
  gangOnly i
    (fun c =>
      { plainInfo with
        accepts := acceptsPolicy
        legal := storeSrcOk c.tm.vregs d (len == 8) && (gCode a.toNat).isSome
        count := if len = 8 then 0 else srcCount d.toNat
        reads := addrRegs a ++ storeRegs d (len == 8) })
    (fun c s =>
      storeLanes c (lsReq s c .write) 0 len (packedAddr c a o len) (storeBytes s c d len) true (cacheHint c.cl.hints) id s) s

/-- CSTORE.B32 (R295). -/
def execCstoreB32 (d : BitVec 7) (a : BitVec 8) (o : BitVec 7) (s : State) : Out := cstoreWord (.cstoreB32 d a o) d a o 4 s
/-- CSTORE.B64 (R295). -/
def execCstoreB64 (d : BitVec 7) (a : BitVec 8) (o : BitVec 7) (s : State) : Out := cstoreWord (.cstoreB64 d a o) d a o 8 s

/-- The checks of a lane's scratchpad store (R371): fill tags are not looked at. -/
def laneSts (c : GCtx) (s : State) (off : Int) (len : Nat) : LaneRes :=
  match checkScratch s c.tm (.gang c.g) off len len false with
  | .bad cause => .trap cause (BitVec.ofInt 64 off)
  | _ => .ok [] []

/-- Scratchpad writes by a stream: the bytes in order, and the marks of their lines (R103, R149). -/
def scratchStore (s : State) (t : Nat) (who : StreamName) (ws : List (Nat × Byte)) : State :=
  modTeam s t fun tm => markLines s (setScratch tm ws) who (ws.map fun w => w.1 / 128)

/-- A scratchpad store (R371). -/
def stsWord (i : Instr) (d : BitVec 7) (a : BitVec 8) (o : BitVec 7) (len : Nat) (s : State) : Out :=
  gangOnly i
    (fun c =>
      { plainInfo with
        accepts := acceptsImm
        legal := storeSrcOk c.tm.vregs d (len == 8) && offOk c.tm.vregs a.toNat
        count := if len = 8 then 0 else srcCount d.toNat
        reads := offRegs a ++ storeRegs d (len == 8) })
    (fun c s =>
      let off (l : Nat) := laneOffset c a len (memOff c.cl.hints o) l
      let rs := (lanesIn c.act).map fun l => (l, laneSts c s (off l) len)
      let ws := (committed rs (storeBytes s c d len)).flatMap fun x => writesAt (off x.1).toNat x.2.2
      endLanes c false rs none false .done (scratchStore s c.t (.gang c.g) ws)) s

/-- STS.B8 (R371). -/
def execStsB8 (d : BitVec 7) (a : BitVec 8) (o : BitVec 7) (s : State) : Out := stsWord (.stsB8 d a o) d a o 1 s
/-- STS.B16 (R371). -/
def execStsB16 (d : BitVec 7) (a : BitVec 8) (o : BitVec 7) (s : State) : Out := stsWord (.stsB16 d a o) d a o 2 s
/-- STS.B32 (R371). -/
def execStsB32 (d : BitVec 7) (a : BitVec 8) (o : BitVec 7) (s : State) : Out := stsWord (.stsB32 d a o) d a o 4 s
/-- STS.B64 (R371). -/
def execStsB64 (d : BitVec 7) (a : BitVec 8) (o : BitVec 7) (s : State) : Out := stsWord (.stsB64 d a o) d a o 8 s

/-- PREF (R340): it makes no checks, raises nothing and changes only timing. -/
def execPref (p : BitVec 2) (a : BitVec 8) (o : BitVec 7) (s : State) : Out :=
  gangOnly (.pref p a o)
    (fun c => { plainInfo with accepts := acceptsPolicy, legal := addrOk c.tm.vregs a.toNat, reads := addrRegs a })
    (fun _ s => .done s) s

end Sys2Proof.Machine
end

