-- ==== Sys2Proof/Machine/Teams.lean ====
section
/-!
DEFINITION. What happens to a team as a whole: the barriers (R57, R217, R285, R286), STEPNO (R369), the exit of a gang (R304), a
swap or pre-emption (R35, R36, R40, R212 to R216), and readiness (R36).
-/
namespace Sys2Proof.Machine

/-! ### Readiness and swaps -/

/-- A wait that only an outside event satisfies (R34, R36). -/
def outsideWait : FragState → Bool
  | .barrier cluster => cluster
  | .waiting (.residency _) | .waiting (.migrating _) | .waiting .joinw | .waiting .spawn => true
  | .waiting _ | .issuing | .noEntry => false

/-- The hawk's wait that only an outside event satisfies (R34). -/
def hawkOutside : HawkState → Bool
  | .waiting (.residency _) | .waiting (.migrating _) => true
  | .waiting _ | .issuing | .stopped => false

/-- A team none of whose streams is in a wait that only an outside event satisfies (R36). -/
def teamReady (tm : Team) : Bool :=
  !hawkOutside tm.hawk.st && tm.gangs.all fun gg => (liveFrags gg).all fun x => !outsideWait x.2.st

/-- A saved team may be resumed: it is ready (R36), or it was pre-empted, and is ready at once (R214). -/
def mayResume (tm : Team) : Bool := tm.swapKind != .swap || teamReady tm

/-- Stamps a team that a swap has saved and that has become ready (R388). -/
def stampReady (s : State) (t : Nat) : State :=
  match listAt s.teams t with
  | none => s
  | some tm =>
    if tm.st = .swapped ∧ tm.swapKind = .swap ∧ teamReady tm then
      { modTeam s t (fun tm => { tm with stamp := s.stamp }) with stamp := s.stamp + 1 }
    else s

/-- A free context slot of a launch (R212). -/
def freeContext (s : State) (lid : Nat) : Option Nat :=
  match launchOf s lid with
  | none => none
  | some l =>
    let used := s.teams.filterMap fun tm => if tm.lid = lid then tm.ctxSlot else none
    let n := ((List.range (used.length + 1)).find? fun k => !used.contains k).getD 0
    if n < l.record.ctxn then some n else none

/-- Ends a window that was committing when its team stops: the hawk stands at the first held word that has not been performed, in
that word's wait, or, where all have been, it goes on where it stands (R32, R34, R214). -/
def stopCommit (tm : Team) (w : SpecWindow) : Team :=
  match w.held with
  | h :: _ =>
    let back := clearMarks (rewindHawk tm h.k h.c h.ret h.pc (some h.clause) h.pushes h.firstOp (some h.count))
    match tm.hawk.st with
    | .waiting (.residency va) => { back with hawk := { back.hawk with st := .waiting (.residency va) } }
    | .waiting (.migrating va) => { back with hawk := { back.hawk with st := .waiting (.migrating va) } }
    | .waiting (.fill ls) => { back with hawk := { back.hawk with st := .waiting (.fill ls) } }
    | _ => back
  | [] =>
    clearMarks { tm with hawk := { tm.hawk with
      window := none, cpend := tm.hawk.cpend.map fun p => { p with inWindow := none } } }

/-- The hawk's window, as its team stops: a window that commits ends at a word; another is squashed (R33). -/
def stopWindow (tm : Team) : Team :=
  match tm.hawk.window with
  | none => tm
  | some w =>
    if w.committing then (if tm.hawk.st matches .waiting (.rangeOp _) then tm else stopCommit tm w)
    else squashWindow tm w.pc (some w.clause)

/-- The loads from peers of a window are dropped as it ends with its team's stop (R32, R33). -/
def dropOpenPeers (s : State) (t : Nat) : State :=
  if (listAt s.teams t).any fun tm => tm.hawk.window.isSome then dropHawkPeers s t else s

/-- Takes a team into SWAPOUT: an open window is squashed and a context slot is taken (R33, R36, R212). A pre-emption request that is
pending is dropped, whatever takes the team out: the spec does not say whether one outlives a swap by a timer or a JOINW (DESIGN CHOICE,
log 113). -/
def startSwapout (s : State) (t slot : Nat) (kind : SwapKind) : State :=
  modTeam (dropOpenPeers s t) t fun tm =>
    let tm := stopWindow tm
    { tm with st := .swapout, swapKind := kind, ctxSlot := some slot, preempt := none, timer := 0 }

/-- The class of pre-emption of a team's launch (R205). -/
def preemptClass (s : State) (tm : Team) : Nat := launchField s tm 0 (·.pclass)

/-- Whether an engine operation counts on no flag and keeps no line PENDING: nothing waits for it. -/
def inertOp (op : EngineOp) : Bool := op.flag.isNone && op.pending.isEmpty

/-- Every operation of a team has completed (R216). -/
def opsDrained (tm : Team) : Bool := tm.eops.all inertOp && tm.mops.isEmpty && tm.loads.isEmpty

/-- Honours a pending pre-emption request where the rules let it be taken now (R213, R214, R216). -/
def honour (s : State) (t : Nat) : State :=
  match listAt s.teams t with
  | none => s
  | some tm =>
    match tm.preempt, freeContext s tm.lid with
    | some force, some slot =>
      if tm.st ≠ .running then s
      else if force ∨ preemptClass s tm = 0 then startSwapout s t slot .preempt
      else if atBoundary tm ∧ opsDrained tm then startSwapout s t slot .step
      else s
    | _, _ => s

/-! ### STEPNO -/

/-- The least boundary count of a team's live gangs (R369). -/
def leastBoundary (tm : Team) : Option Nat :=
  tm.gangs.foldl (fun m gg => if gangExited gg then m else some (match m with
    | some x => min x gg.boundary
    | none => gg.boundary)) none

/-- STEPNO rises by as much as the least boundary count has risen (R369). -/
def advanceStep (tm : Team) : Team :=
  match leastBoundary tm with
  | some m => if tm.m0 < m then { tm with stepno := tm.stepno + BitVec.ofNat 32 (m - tm.m0), m0 := m } else tm
  | none => tm

/-! ### Barriers -/

/-- A gang has arrived: every lane that has not exited belongs to a fragment at this barrier (R57). -/
def gangArrived (cluster : Bool) (gg : Gang) : Bool :=
  !gangExited gg &&
    liveLanes gg == (liveFrags gg).foldl (fun m x => if x.2.st == .barrier cluster then m ||| x.2.home else m) 0

/-- Every live gang of a team has arrived, and there is one (R285, R286). -/
def teamArrived (cluster : Bool) (tm : Team) : Bool :=
  tm.gangs.any (fun gg => !gangExited gg) && tm.gangs.all fun gg => gangExited gg || gangArrived cluster gg

/-- The fragments of a gang at a barrier resume at their fall-through headers (R57). -/
def departGang (stamp : Nat) (cluster : Bool) (gg : Gang) : Gang :=
  (List.range 8).foldl (fun g f =>
    match fragOf gg f with
    | some fr => if fr.st == .barrier cluster then advanceGang stamp g f else g
    | none => g) gg

/-- A barrier completes for a team: its fragments resume, and every line takes mark 31 (R285, R286). -/
def departTeam (s : State) (t : Nat) (cluster : Bool) : State :=
  stampReady (modTeam s t fun tm => { tm with gangs := tm.gangs.map (departGang s.cycle cluster), marks := [] }) t

/-- The indices of the teams of a team's cluster (R25). -/
def clusterTeams (s : State) (tm : Team) : List Nat :=
  (List.range s.teams.length).filter fun n => match listAt s.teams n with
    | some x => sameCluster s tm x
    | none => false

/-- A team all of whose gangs have exited (R286). -/
def teamExited (tm : Team) : Bool := tm.gangs.all gangExited

/-- The count with which an instance of the cluster barrier starts: the teams that count as arrived at every later one (R286). -/
def barrierBase (s : State) (tm : Team) : Nat :=
  cptOf s tm - countP (fun n => match listAt s.teams n with
    | some x => !teamExited x
    | none => false) (clusterTeams s tm)

/-! ### Context slots (R212) -/

/-- The full size of a context in bytes (R212). -/
def contextSize (gangs vregs acct lines : Nat) : Nat := 8192 + gangs * (2048 + 256 * vregs + 2560) + 32768 * acct + 129 * lines

/-- The size of a context slot: the full size for the launch's team shape, in whole units of 4 KiB (R212). -/
def slotSize (r : LaunchRecord) : Nat := ceilDiv (contextSize r.gangs r.vregs r.acct r.splines) 4096 * 4096

/-- The first byte of a context slot (R212). -/
def contextAddr (r : LaunchRecord) (n : Nat) : Nat := r.ctxbase + n * slotSize r

/-- Where the team block of a context image holds the count of the cluster barrier (log 10). -/
def barrierOffset : Nat := 4276

/-- Sets a team's count for its cluster barrier; that of a swapped-out team is updated in its context slot too (R217). -/
def setBarrier (s : State) (n count : Nat) : State :=
  let s := modTeam s n fun x => { x with barc := count }
  match listAt s.teams n with
  | none => s
  | some x =>
    match x.st, x.ctxSlot, launchOf s x.lid with
    | .swapped, some slot, some l => unitStore s (contextAddr l.record slot + barrierOffset) (bytesOf 4 count)
    | _, _, _ => s

/-- The cluster barrier completes for every team of the cluster (R217): the fragments at it resume; a relaunched team that has
still to arrive again takes a credit (R286). -/
def completeCluster (s : State) (tm : Team) : State :=
  let base := barrierBase s tm
  (clusterTeams s tm).foldl (fun s n =>
    match listAt s.teams n with
    | none => s
    | some x =>
      let here := teamArrived true x
      let s := modTeam (setBarrier s n base) n fun x =>
        { x with arrived := teamExited x
                 barcCredit := if here || teamExited x then x.barcCredit else x.barcCredit + 1 }
      if here then departTeam s n true else s) s

/-- A team's arrival at the cluster barrier (R217, R286). -/
def arriveCluster (s : State) (t : Nat) : State :=
  match listAt s.teams t with
  | none => s
  | some tm =>
    if tm.barcCredit > 0 ∧ !teamExited tm then
      departTeam (modTeam s t fun tm => { tm with barcCredit := tm.barcCredit - 1 }) t true
    else if tm.arrived then s
    else
      let s := (clusterTeams s tm).foldl (fun s n => match listAt s.teams n with
        | some x => setBarrier s n (x.barc + 1)
        | none => s) s
      let s := modTeam s t fun tm => { tm with arrived := true }
      if tm.barc + 1 ≥ cptOf s tm then completeCluster s tm else s

/-- Completes the barriers that a change of a team's gangs lets complete (R57, R285, R286). -/
def checkBarriers (s : State) (t : Nat) : State :=
  match listAt s.teams t with
  | none => s
  | some tm =>
    if teamArrived false tm then departTeam s t false
    else if teamArrived true tm ∨ (teamExited tm ∧ !tm.arrived) then arriveCluster s t
    else s

/-- Every gang has exited and the hawk has stopped: the team retires (R43). -/
def checkRetire (s : State) (t : Nat) : State :=
  modTeam s t fun tm => if tm.st = .running ∧ teamExited tm ∧ tm.hawk.st = .stopped then { tm with st := .retiring } else tm

/-- The decision queue of a gang that has exited is discarded (R29, R304), and a handler of which no lane is left ends (R226). -/
def closeGang (gg : Gang) : Gang :=
  let gg := if gangExited gg then { gg with dq := [] } else gg
  match gg.handler with
  | some h => if liveLanes gg &&& h.home = 0 then { gg with handler := none } else gg
  | none => gg

/-- What follows a change of a gang's live lanes (R304, R369). -/
def afterExit (s : State) (t g : Nat) : State :=
  let s := modGang s t g closeGang
  let s := checkBarriers s t
  let s := modTeam s t advanceStep
  honour (checkRetire s t) t

end Sys2Proof.Machine
end

