-- ==== Sys2Proof/Machine/Control.lean ====
section
/-!
DEFINITION. The clause header (R257, R258) and the gang's control words of major 0x9: branches, calls, exit, barriers, YIELD,
TRAP, SPAWN, JOINW, STEPMARK and DQPOP (R285, R286, R288, R290, R291, R301, R304, R318, R349, R367, R369, R372, R376).
-/
namespace Sys2Proof.Machine

/-! ### The clause header -/

/-- A SET field names a flag or none (R257). -/
def setFieldOk (x : BitVec 4) : Bool := decide (x.toNat ≤ 11) || x == 15

/-- Whether a header's values are defined for a stream that has this many guard registers (R258). -/
def headerOk (guards : Nat) (a b : BitVec 4) (g : BitVec 5) (n : BitVec 1) : Bool :=
  setFieldOk a && setFieldOk b && (decide (g.toNat < guards) || g == 31) && !(g == 31 && flag1 n)

/-- The clause that a header opens, with the guard's lanes (R257). -/
def openClause (pc : DWord) (a b : BitVec 4) (l : BitVec 3) (g : BitVec 5) (n k : BitVec 1) (gmask : Mask) : Clause :=
  { hdr := pc, seta := a, setb := b, left := l.toNat + 1, guard := g, gneg := flag1 n, gmask := gmask, keep := flag1 k, hints := [] }

/-- The fetch of the 128-byte unit that holds a clause's last word, where it is not the header's: its fault is charged to the
clause at its header (R60, R258, log 18). -/
def lastUnit (s : State) (fetch : DWord → State × Fetched) (pc : DWord) (l : BitVec 3) : State × Fetched :=
  let last := pc + BitVec.ofNat 64 (4 * (l.toNat + 1))
  if last.toNat / 128 = pc.toNat / 128 then (s, .word 0) else fetch last

/-- The address of the unit that holds a clause's last word. -/
def lastAddr (pc : DWord) (l : BitVec 3) : DWord := pc + BitVec.ofNat 64 (4 * (l.toNat + 1))

/-- A header issued by a gang (R257, R258, R261, R228). -/
def gangHeader (i : Instr) (w : BitVec 12) (a b : BitVec 4) (l : BitVec 3) (g : BitVec 5) (n k : BitVec 1)
    (t gi f : Nat) (tm : Team) (gg : Gang) (fr : Frag) (s : State) : State :=
  let put (s : State) (h : Frag → Frag) : State := modFrag s t gi f h
  match gg.inputReport with
  | some r =>
    takeGangTrap (modGang s t gi fun gg => { gg with inputReport := none }) t gi f (reportRecord fr.pc 0 15 r) none
  | none =>
    if !headerOk 24 a b g n then headerTrap s t gi f fr .illegalClause 0 (wordOf i)
    else match lastUnit s (fun x => fetchGang s tm t gi f { fr with pc := x }) fr.pc l with
    | (s, .fault c) => headerTrap s t gi f fr c (lastAddr fr.pc l) (wordOf i)
    | (s, .park x) => put s fun fr => { fr with st := .waiting x }
    | (s, .word _) =>
      if !flagsClear gg.flags w then put s fun fr => { fr with st := .waiting (.clauseFlags w) }
      else match reportIn gg.reports w with
      | some (n, r) =>
        takeGangTrap (modGang s t gi fun gg => { gg with reports := smErase gg.reports n }) t gi f (reportRecord fr.pc 0 n r) none
      | none =>
        let gg' := unpend gg fun x => w.getLsbD x
        if g ≠ 31 ∧ isPending gg' (.p g.toNat) then headerTrap s t gi f fr .illegalOperand 0 (wordOf i)
        else
          modGang s t gi fun gg =>
            let gg := unpend gg fun x => w.getLsbD x
            let gg := { gg with y0 := mergeLanes fr.home zeroLanes gg.y0, y1 := mergeLanes fr.home zeroLanes gg.y1, marked := false }
            modFragOf gg f fun fr =>
              { fr with pc := fr.pc + 4, st := .issuing, count := 0, yPending := 0, replay := none
                        clause := some (openClause fr.pc a b l g n k (guardMask gg g (flag1 n))) }

/-- The flag on which a held word will count (R31, R260). -/
def heldFlag (h : HeldWork) : Option Nat :=
  match h.instr with
  | .copy f _ _ => some (setField h.clause f)
  | .pcopy f _ _ _ => some (setField h.clause f)
  | .mcast f _ _ => some (setField h.clause f)
  | .gather f _ => some (setField h.clause f)
  | .scatter f _ => some (setField h.clause f)
  | _ => none

/-- Whether a window holds work that will count on a flag of a mask. -/
def windowHolds (hk : Hawk) (w : BitVec 12) : Bool :=
  match hk.window with
  | some win => win.held.any fun h => (heldFlag h).any fun f => w.getLsbD f
  | none => false

/-- A header issued by the hawk (R257, R258, R228): a guard bit that is pending is waited for; inside a window a WAIT that held
work or a report concerns stalls. -/
def hawkHeader (i : Instr) (w : BitVec 12) (a b : BitVec 4) (l : BitVec 3) (g : BitVec 5) (n k : BitVec 1)
    (t : Nat) (tm : Team) (s : State) : State :=
  let hk := tm.hawk
  if hk.window.any fun win => win.fault.isSome || win.committing then waitHawk s t .interlock
  else if !headerOk 8 a b g n then hawkHeaderTrap s t hk .illegalClause 0 (wordOf i)
  else match lastUnit s (fetchHawk s tm) hk.pc l with
  | (s, .fault c) => hawkHeaderTrap s t hk c (lastAddr hk.pc l) (wordOf i)
  | (s', .park (.peer id)) => waitHawk s' t (.peer id)
  | (s', .park x) => if hk.window.isSome then waitHawk s t .interlock else waitHawk s' t x
  | (s, .word _) =>
    if !flagsClear hk.flags w then waitHawk s t (.clauseFlags w)
    else if windowHolds hk w ∨ (hk.window.isSome ∧ (reportIn hk.reports w).isSome) then waitHawk s t .interlock
    else match reportIn hk.reports w with
    | some (n, r) =>
      takeHawkTrap (modHawk s t fun hk => { hk with reports := smErase hk.reports n }) t (reportRecord hk.pc 0 n r)
    | none =>
      if g ≠ 31 ∧ cPending hk g.toNat then waitHawk s t .interlock
      else
        let on := g = 31 ∨ cBit hk.c g.toNat != flag1 n
        modHawk s t fun hk =>
          { hk with pc := hk.pc + 4, st := .issuing
                    clause := some (openClause hk.pc a b l g n k (if on then BitVec.allOnes 64 else 0)) }

/-- The clause header (R257, R258), in either stream. YLD changes only timing. -/
def execClauseHeader (w : BitVec 12) (a : BitVec 4) (b : BitVec 4) (l : BitVec 3) (g : BitVec 5) (n : BitVec 1) (y : BitVec 1)
    (k : BitVec 1) (s : State) : Out :=
  let i : Instr := .clauseHeader w a b l g n y k
  match s.cur with
  | .none => .refused .noStream
  | .hawk t =>
    match listAt s.teams t with
    | some tm =>
      if tm.st = .running ∧ tm.hawk.clause.isNone then .next (hawkHeader i w a b l g n k t tm s) else .refused .noStream
    | none => .refused .noStream
  | .gang t gi f =>
    match listAt s.teams t with
    | none => .refused .noStream
    | some tm =>
      match gangOf tm gi with
      | none => .refused .noStream
      | some gg =>
        match fragOf gg f with
        | none => .refused .noStream
        | some fr =>
          if tm.st = .running ∧ fr.clause.isNone then .next (gangHeader i w a b l g n k t gi f tm gg fr s)
          else .refused .noStream

/-! ### Branches, calls and returns -/

/-- The gang of the issuing fragment is replaced. -/
def setGang (s : State) (c : GCtx) (h : Gang → Gang) : State := modGang s c.t c.g h

/-- Whether so many entries fit on the split stack (R51). -/
def stackFits (gg : Gang) (n : Nat) : Bool := decide (gg.stack.length + n ≤ Config.splitEntries)

/-- The reconvergence address of a branch: a MERGEAT's, or, for a fragment with its peel flag set, that of the join entry
which the first peel pushed (R53, R54, log 19). -/
def mergeAddr (c : GCtx) : Option DWord :=
  if c.fr.peel then (c.fr.entry.bind (entryOf c.gg)).map (·.rpc) else mergeHint c.cl.hints

/-- A branch of the lanes T to a target (R52): uniform, or split at the address that a MERGEAT names. -/
def branchTo (c : GCtx) (tset : Mask) (target : DWord) (s : State) : GRes :=
  if tset = 0 then .done s
  else if tset = c.act ∧ (c.fr.home &&& ~~~tset) &&& c.fr.exmask = 0 then
    .moved (setGang s c fun gg => moveFrag s.cycle gg c.f c.fr target c.cl.keep)
  else match mergeAddr c with
  | none => .trap .illegalConvergence c.act 0
  | some rpc =>
    if !stackFits c.gg 1 then .trap .stackOverflow c.act 0
    else .moved (setGang s c fun gg => splitFrag s.cycle gg c.f c.fr tset target (c.fr.pc + 4) rpc true false c.cl.keep)

/-- What R267 needs of a word that ends its clause and reads no vector register. -/
def endsInfo (accepts : Accepts) (legal : Bool) (reads : List RegName) : WordInfo :=
  { plainInfo with accepts := accepts, ends := true, legal := legal, reads := reads }

/-- The target of a B word (R259, R266). -/
def branchTarget (c : GCtx) (o : BitVec 17) : DWord := wordTarget c.fr.pc (branchOff c.cl.hints o)

/-- BRA (R288). -/
def execBra (o : BitVec 17) (s : State) : Out :=
  gangOnly (.bra o) (fun _ => endsInfo acceptsImm true []) (fun c s => branchTo c c.act (branchTarget c o) s) s

/-- BRC (R288). -/
def execBrc (p : BitVec 5) (n : BitVec 1) (o : BitVec 17) (s : State) : Out :=
  gangOnly (.brc p n o)
    (fun _ => endsInfo acceptsImm (decide (p.toNat < 24) || (p == 31 && n == 0)) (if p = 31 then [] else [.p p.toNat]))
    (fun c s =>
      let cond := if p = 31 then BitVec.allOnes 64 else if flag1 n then ~~~(pReg c.gg p.toNat) else pReg c.gg p.toNat
      branchTo c (c.act &&& cond) (branchTarget c o) s) s

/-- A branch target that is no header's address (R290). -/
def badTarget (x : DWord) : Bool := x.toNat % 4 != 0 || decide (2 ^ 56 ≤ x.toNat)

/-- BRX (R290, R53). -/
def execBrx (a : BitVec 8) (s : State) : Out :=
  gangOnly (.brx a)
    (fun c => endsInfo acceptsNone (pairOk c.tm.vregs a.toNat) [.v a.toNat, .v (a.toNat + 1)])
    (fun c s =>
      let target (l : Nat) := pairLane c.gg a.toNat l
      let bad := c.act &&& maskOf fun l => badTarget (target l)
      if bad ≠ 0 then .trap .illegalOperand bad 0
      else match lowestLane c.act with
      | none => .done s
      | some l0 =>
        let tset := c.act &&& maskOf fun l => target l == target l0
        if tset = c.act then branchTo c tset (target l0) s
        else match mergeAddr c with
        | none => .trap .illegalConvergence c.act 0
        | some rpc =>
          if !c.fr.peel ∧ !stackFits c.gg 1 then .trap .stackOverflow c.act 0
          else .moved (setGang s c fun gg =>
            splitFrag s.cycle gg c.f c.fr tset (target l0) c.fr.pc rpc (!c.fr.peel) true c.cl.keep)) s

/-- The calling set and the entries that CALL pushes (R56). -/
def callFrag (gg : Gang) (f : Nat) (fr : Frag) (cset : Mask) (target : DWord) (keep : Bool) : Gang :=
  let rpc := fr.pc + 4
  let gg := closeClause gg fr.home keep
  let k1 := freshEntry gg
  let join : Bool := fr.home &&& ~~~cset != 0
  let gg := if join then setEntry gg k1 (joinEntry fr.home (fr.exmask &&& ~~~cset) rpc 1 fr.entry) else gg
  let k2 := freshEntry gg
  let gg := setEntry gg k2 { joinEntry cset 0 rpc 1 (if join then some k1 else fr.entry) with link := true }
  putFrag gg f { fr with home := cset, exmask := cset, pc := target, entry := some k2, clause := none, st := .issuing,
                         replay := none, peel := false, count := 0, yPending := 0 }

/-- CALL (R56, R291). -/
def execCall (o : BitVec 17) (s : State) : Out :=
  gangOnly (.call o) (fun _ => endsInfo acceptsImm true [])
    (fun c s =>
      if c.act = 0 then .done s
      else if !stackFits c.gg (if c.fr.home &&& ~~~c.act = 0 then 1 else 2) then .trap .stackOverflow c.act 0
      else .moved (setGang s c fun gg => callFrag gg c.f c.fr c.act (branchTarget c o) c.cl.keep)) s

/-- RET (R56, R349). -/
def execRet (s : State) : Out :=
  gangOnly .ret (fun _ => endsInfo acceptsNone true [])
    (fun c s =>
      if c.cl.guard ≠ 31 then .trap .illegalConvergence c.act 0
      else match c.fr.entry, c.fr.entry.bind (entryOf c.gg) with
      | some k, some e =>
        if !e.link then .trap .illegalConvergence c.act 0
        else .moved (setGang s c fun gg =>
          moveFrag s.cycle (popEntry gg k) c.f { c.fr with home := e.jmask, exmask := e.jmask, entry := e.parent } e.rpc c.cl.keep)
      | _, _ => .trap .illegalConvergence c.act 0) s

/-- EXIT (R55, R304). -/
def execExit (s : State) : Out :=
  gangOnly .exit (fun _ => endsInfo acceptsNone true [])
    (fun c s =>
      let s' := setGang s c fun gg => exitLanes s.cycle gg c.f c.act
      let s' := if c.fr.exmask &&& ~~~c.act = 0 then s' else advance s' c
      .moved (afterExit s' c.t c.g)) s

/-! ### Barriers -/

/-- A barrier word (R285, R286): the arrival releases at the barrier's scope, and the fragment enters BARRIER. -/
def barrierWord (i : Instr) (cluster : Bool) (s : State) : Out :=
  gangOnly i (fun _ => endsInfo acceptsNone true [])
    (fun c s =>
      if c.cl.guard ≠ 31 then .trap .illegalConvergence c.act 0
      else
        let s := releaseBy s c.t (.gang c.g) (if cluster then 4 else 3)
        let s := modFrag s c.t c.g c.f fun fr => { fr with st := .barrier cluster }
        .moved (checkBarriers s c.t)) s

/-- BAR (R285). -/
def execBar (s : State) : Out := barrierWord .bar false s
/-- BARC (R286). -/
def execBarc (s : State) : Out := barrierWord .barc true s

/-! ### YIELD, TRAP, JOINW, STEPMARK, DQPOP -/

/-- The continuation of a YIELD whose flag is clear (R168, R376): a report is delivered with the YIELD's address, else the
fragment goes to the label. -/
def yieldGo (c : GCtx) (f : Nat) (label : DWord) (s : State) : GRes :=
  match c.gg.reports.find? fun x => x.1 == f with
  | some (_, r) => .report f r 0 (setGang s c fun gg => { gg with reports := smErase gg.reports f })
  | none => .moved (setGang s c fun gg => moveFrag s.cycle (unpend gg (· == f)) c.f c.fr label c.cl.keep)

/-- YIELD (R168, R376). -/
def execYield (f : BitVec 5) (o : BitVec 17) (s : State) : Out :=
  gangOnly (.yield f o) (fun _ => endsInfo acceptsImm (decide (f.toNat ≤ 11)) [])
    (fun c s =>
      if c.act = 0 then .done s
      else if c.act ≠ c.fr.exmask then .trap .illegalConvergence c.act 0
      else if flagOf c.gg.flags f.toNat = 0 then yieldGo c f.toNat (branchTarget c o) s
      else .wait (.yieldFlag f.toNat (branchTarget c o)) s) s

/-- TRAP (R372), in either stream; in a speculation window it stalls the hawk (R31). -/
def execTrap (code : BitVec 16) (s : State) : Out :=
  bothWord (.trap code) (fun _ => endsInfo acceptsNone true [])
    (fun c s => if c.act = 0 then .done s else .trap .software c.act (code.zeroExtend 64))
    (fun _ => { plainHInfo with ends := true, treat := .stall })
    (fun _ _ => .trap .software (code.zeroExtend 64)) s

/-- JOINW (R40, R318): with children left the team is swapped out where a context slot is free, and waits resident where none
is. -/
def execJoinw (s : State) : Out :=
  gangOnly .joinw (fun _ => endsInfo acceptsNone true [])
    (fun c s =>
      if c.act = 0 ∨ c.tm.join = 0 then .done s
      else match freeContext s c.tm.lid with
      | some slot => .wait .joinw (startSwapout s c.t slot .swap)
      | none => .wait .joinw s) s

/-- STEPMARK (R369, R216). -/
def execStepmark (s : State) : Out :=
  gangOnly .stepmark (fun _ => plainInfo)
    (fun c s =>
      if c.act = 0 ∨ (liveFrags c.gg).length ≠ 1 ∨ c.gg.stack ≠ [] then .done s
      else
        let s := setGang s c fun gg => { gg with boundary := gg.boundary + 1, marked := true }
        .done (modTeam s c.t advanceStep)) s

/-- DQPOP (R29, R301). -/
def execDqpop (a : BitVec 6) (s : State) : Out :=
  gangOnly (.dqpop a) (fun _ => { plainInfo with legal := decide (a.toNat < 32), writes := [.g a.toNat] })
    (fun c s =>
      if c.act = 0 then .done s
      else match c.gg.dq with
      | [] => if c.tm.hawk.st = .stopped then .trap .queueMisuse c.act 0 else .wait .dqpop s
      | e :: rest =>
        if e.spec then .wait .dqpop s
        else .done (writeG (setGang s c fun gg => { gg with dq := rest }) c a.toNat e.val)) s

/-! ### SPAWN -/

/-- What a read of consecutive bytes by a stream, made once for all its lanes, answers. -/
inductive WholeRead where
  | ok (s : State) (data : List Byte)
  | stop (r : GRes)

/-- Reads bytes of global memory once for a gang, as an LS-class load (R367): its traps name the active lanes. -/
def gangRead (s : State) (c : GCtx) (va len : Nat) : WholeRead :=
  let found := checkSpan s (lsReq s c .read) va len
  let s := touchSpan s c.tm.core (asidOf s c.tm) va len
  match found with
  | .bad cause x => .stop (.trapAcc s cause c.act (BitVec.ofNat 64 x) (classAt s (asidOf s c.tm) x))
  | .park w => .stop (.wait w (startPark s (asidOf s c.tm) w))
  | .ok ps =>
    match askPieces (fragSender c) ps (openPieces s ps) with
    | (s, some (.waiting id), _) => .stop (.wait (.peer id) s)
    | (s, some .full, _) => .stop (.wait .interlock s)
    | (s, some (.got false _), _) =>
      .stop (.trapPart (consumeFrag s c) .poison c.act (BitVec.ofNat 64 va) c.act
        { lanes := c.act, traps := [], counted := priorCounted c, raised := false, placement := 0 } .lk)
    | (s, _, got) =>
      let data := readPieces s (some c.tm.core) (answered got) ps
      let s := consumeFrag s c
      .ok (allocPieces s c.tm.core 0 ps) data

/-- The k-th 64-bit word of some bytes. -/
def dwordAt (bs : List Byte) (k : Nat) : DWord := BitVec.ofNat 64 (natOf ((bs.drop (8 * k)).take 8))

/-- Reads and checks a spawn descriptor (R366, R367 step 2). -/
def spawnDesc (bs : List Byte) : Option SpawnDesc :=
  let w0 := dwordAt bs 0
  let w1 := dwordAt bs 1
  let w2 := dwordAt bs 2
  let w3 := dwordAt bs 3
  let d : SpawnDesc :=
    { gentry := w0, hentry := w1, arg := w2, gangs := bits64 w3 3 0 + 1, vregs := 8 * (bits64 w3 7 4 + 1),
      acct := bits64 w3 12 8, splines := bits64 w3 25 13 }
  if bits64 w0 63 56 ≠ 0 ∨ bits64 w1 63 56 ≠ 0 ∨ bits64 w2 63 56 ≠ 0 ∨ bits64 w3 63 26 ≠ 0 ∨ bits64 w0 1 0 ≠ 0 ∨
      bits64 w1 1 0 ≠ 0 ∨ 13 < bits64 w3 7 4 ∨ 16 < d.acct ∨ 4096 < d.splines then none
  else some d

/-- Whether a step declaration fits a shape (R215, R367). -/
def stepFits (sd : StepDecl) (v acct lines : Nat) : Bool :=
  decide (sd.vlive.toNat < 2 ^ v) && decide (sd.alive.toNat < 2 ^ acct) && decide (sd.splo + sd.spn ≤ lines)

/-- Queues a child of a team (R38, R39). -/
def queueChild (s : State) (t : Nat) (tm : Team) (l : Launch) (d : SpawnDesc) : State :=
  let child := freshTeam tm.lid l.nextChild (some tm.tid) d.gangs d.vregs d.acct d.splines l.record.prio d.gentry d.hentry d.arg 0
    s.stamp none
  let s := modTeam s t fun tm => { tm with join := tm.join + 1 }
  let s := modLaunch s tm.lid fun l => { l with nextChild := l.nextChild + 1 }
  { escape s t with stamp := s.stamp + 1, teams := (escape s t).teams ++ [child] }

/-- Step 4 of SPAWN, once its descriptor has been copied and its release performed (R367): a full join counter is waited for. -/
def spawnChild (c : GCtx) (l : Launch) (d : SpawnDesc) (s : State) : GRes :=
  if 65535 ≤ c.tm.join then .wait .spawn (modFrag s c.t c.g c.f fun fr => { fr with spawn := some d })
  else .done (queueChild (modFrag s c.t c.g c.f fun fr => { fr with spawn := none }) c.t c.tm l d)

/-- SPAWN (R366, R367). -/
def execSpawn (a : BitVec 6) (s : State) : Out :=
  gangOnly (.spawn a) (fun _ => { plainInfo with legal := decide (a.toNat < 32), reads := [.g a.toNat] })
    (fun c s =>
      let va := (gReg c.gg a.toNat).toNat
      if c.act = 0 then .done s
      else match c.fr.spawn, launchOf s c.tm.lid with
      | some d, some l => spawnChild c l d s
      | _, _ =>
        if va % 32 ≠ 0 then .trapAcc s .misaligned c.act (BitVec.ofNat 64 va) (classAt s (asidOf s c.tm) va)
        else match gangRead s c va 32 with
        | .stop r => r
        | .ok s bs =>
          match spawnDesc bs, launchOf s c.tm.lid with
          | some d, some l =>
            if l.record.pclass = 1 ∧ l.stepDecl.any fun sd => !stepFits sd d.vregs d.acct d.splines then
              .trapIn s .illegalOperand c.act 0
            else spawnChild c l d (releaseBy s c.t (.gang c.g) 6)
          | _, _ => .trapIn s .illegalOperand c.act 0) s

end Sys2Proof.Machine
end

