-- ==== Sys2Proof/Machine/Context.lean ====
section
/-!
DEFINITION. The image of a team's context in memory (12 R212): its parts and their sizes, the 40-byte split-stack entries (03 R50) and
the matrix step counters (10 R192). A resumed team goes on from State, which holds the whole context; the image is what memory and a
snapshot show. R212 gives the parts and their sizes; their order, and the places inside the team block and a gang's fixed part, are
the model's, and bytes that it puts nothing in are free (log 10).
-/
namespace Sys2Proof.Machine

/-- Word w of a fault record (R224). -/
def faultWord (r : FaultRecord) (w : Nat) : DWord :=
  match w with
  | 0 => r.pc.zeroExtend 64
  | 1 => r.mask
  | 2 => r.replay
  | 3 => r.addr
  | 4 => BitVec.ofNat 64 (r.cause.toNat + bitAt r.imp 8 + r.flag.toNat * 2 ^ 9 + r.batch.toNat * 2 ^ 13 + r.cls.toNat * 2 ^ 18)
  | 5 => r.word.zeroExtend 64
  | _ => 0

/-- The first n of some bytes, with free bytes after them. -/
def fillTo (free : Nat → Byte) (n : Nat) (bs : List Byte) : List Byte := (bs ++ (List.range (n - bs.length)).map free).take n

/-- The first n of some bytes, with zeros after them. -/
def zeroTo (n : Nat) (bs : List Byte) : List Byte := fillTo (fun _ => 0) n bs

/-- A register's 64 lanes. -/
def laneBytes (x : Lanes) : List Byte := laneIdx.flatMap fun l => bytesOf 4 (laneOf x l).toNat

/-- A pending report: 11 bytes. -/
def reportBytes : Option Report → List Byte
  | none => List.replicate 11 0
  | some r => bytesOf 8 r.addr.toNat ++ bytesOf 1 (causeCode r.cause) ++ bytesOf 1 (classCode r.cls) ++ bytesOf 1 (r.batch.getD 31)

/-- The counts of a stream's completion flags. -/
def flagBytes (flags : Smap Nat) : List Byte := zeroTo 16 ((List.range 12).map fun f => BitVec.ofNat 8 (flagOf flags f))

/-- The reports pending on a stream's completion flags. -/
def reportsBytes (reports : Smap Report) : List Byte :=
  (List.range 12).flatMap fun f => reportBytes ((reports.find? fun x => x.1 == f).map (·.2))

/-- The report pending on a batch: its gang, its batch, and the report. -/
def batchBytes : Option (Nat × Nat × Report) → List Byte
  | none => List.replicate 13 0
  | some (g, b, r) => bytesOf 1 g ++ bytesOf 1 b ++ reportBytes (some r)

/-! ### Split state -/

/-- The 40 bytes of a split-stack entry (R50). -/
def splitBytes (e : SplitEntry) : List Byte :=
  bytesOf 8 e.jmask.toNat ++ bytesOf 8 e.amask.toNat ++ bytesOf 8 e.dmask.toNat ++
    bytesOf 8 (bits64 e.rpc 55 0 + e.outst * 2 ^ 56 + bitAt e.deferred 60 + bitAt e.link 61) ++
    bytesOf 8 (bits64 e.dpc 55 0 + bitAt e.dpeel 56 + e.dguard.toNat * 2 ^ 57 + bitAt e.dgneg 62 + bitAt e.dkeep 63)

/-- How many entries stand outside an entry, over fuel. -/
def entryDepth (gg : Gang) : Nat → Option Nat → Nat
  | 0, _ => 0
  | _ + 1, none => 0
  | n + 1, some k => match entryOf gg k with
    | some e => entryDepth gg n e.parent + 1
    | none => 0

/-- A gang's split-stack entries, the outermost first (R50). -/
def splitOrder (gg : Gang) : List SplitEntry :=
  (sortBy (fun x => entryDepth gg (Config.splitEntries + 1) x.2.parent) gg.stack).map (·.2)

/-- The entries that a gang's fixed part has room for: the 16 innermost (R50). Those further out spill to an area of which no rule
gives the place (log 10). -/
def heldSplit (gg : Gang) : List SplitEntry := (splitOrder gg).drop (gg.stack.length - 16)

/-- The number of a fragment's state in the table order of R48, with the scope of a barrier in bit 3. -/
def fragCode : FragState → Nat
  | .issuing => 0
  | .noEntry => 1
  | .waiting _ => 2
  | .barrier cluster => 3 + bitAt cluster 3

/-- A slot of the split table (R47): its masks, its address, and its entry, result count, peel flag and state. -/
def fragBytes : Option Frag → List Byte
  | none => List.replicate 32 0
  | some fr =>
    bytesOf 8 fr.home.toNat ++ bytesOf 8 fr.exmask.toNat ++ bytesOf 8 fr.pc.toNat ++
      bytesOf 8 ((fr.entry.map (· + 1)).getD 0 + fr.count * 2 ^ 16 + fr.yPending.toNat * 2 ^ 24 + bitAt fr.peel 26 +
        fragCode fr.st * 2 ^ 28)

/-! ### The parts (R212) -/

/-- A matrix instruction's step counter: ENTRY in bits [15:0] and STEP in bits [21:16] (R192). -/
def stepCounter (m : MatrixOp) : Nat := m.entry % 2 ^ 16 + m.stepNo % 2 ^ 6 * 2 ^ 16

/-- What the team block records of an outstanding matrix instruction (R192), in core issue order: its step counter, batch number and
gang. -/
def stepBytes (m : MatrixOp) : List Byte := bytesOf 4 (stepCounter m) ++ bytesOf 1 (m.batch.getD 31) ++ bytesOf 1 m.gang

/-- What a gang's fixed part records of it (R192): its word and configuration. -/
def matrixBytes (m : MatrixOp) : List Byte := bytesOf 4 (wordOf m.instr).toNat ++ bytesOf 8 m.cfg.toNat

/-- A hawk's position within a clause: the header's address with SETA and SETB, then the words left, the guard and what it read, KEEP,
whether there is a clause, and how many hints stand right before the next word. -/
def clauseBytes : Option Clause → List Byte
  | none => List.replicate 16 0
  | some c =>
    bytesOf 8 (bits64 c.hdr 55 0 + c.seta.toNat * 2 ^ 56 + c.setb.toNat * 2 ^ 60) ++
      bytesOf 8 (c.left % 16 + c.guard.toNat * 2 ^ 4 + bitAt c.gneg 9 + bitAt (c.gmask != 0) 10 + bitAt c.keep 11 + bitAt true 12 +
        c.hints.length % 16 * 2 ^ 16)

/-- The fragment of a gang that is inside a clause: its slot, its place in the clause, and the guard's lanes. -/
def openBytes (gg : Gang) : List Byte :=
  let cl := (fragOf gg gg.lastFrag).bind (·.clause)
  bytesOf 1 gg.lastFrag ++ clauseBytes cl ++ bytesOf 8 ((cl.map (·.gmask.toNat)).getD 0)

/-- The hawk's state, in the order issuing, waiting, stopped. -/
def hawkCode : HawkState → Nat
  | .issuing => 0
  | .waiting _ => 1
  | .stopped => 2

/-- The eight words of a fault record (R224). -/
def faultBytes (r : FaultRecord) : List Byte := (List.range 8).flatMap fun w => bytesOf 8 (faultWord r w).toNat

/-- The rest of the hawk context: its state, its clause, its fault record, and handler mode with the position saved on entry (R224, R226). -/
def hawkBytes (hk : Hawk) : List Byte :=
  bytesOf 1 (hawkCode hk.st) ++ clauseBytes hk.clause ++ faultBytes hk.flt ++
    match hk.handler with
    | none => List.replicate 24 0
    | some (pc, cl) => bytesOf 8 (bits64 pc 55 0 + 2 ^ 63) ++ clauseBytes cl

/-- What a gang in handler mode saved on entry, beside its o registers and y file (R226): the position with the result count and the
marks of the fragment, its lanes, the clause with the guard's lanes, and the depth of the split stack. -/
def handlerBytes (gg : Gang) : List Byte :=
  match gg.handler with
  | none => List.replicate 42 0
  | some h =>
    bytesOf 8 (bits64 h.pc 55 0 + h.count % 4 * 2 ^ 56 + h.yPending.toNat * 2 ^ 58 + bitAt h.marked 60 + bitAt h.peel 61 + 2 ^ 63) ++
      bytesOf 8 h.home.toNat ++ clauseBytes h.clause ++ bytesOf 8 ((h.clause.map (·.gmask.toNat)).getD 0) ++ bytesOf 2 h.depth

/-- The team block. Of the 8,192 bytes it fills 8,130 at most, with the 128 matrix instructions of 16 gangs (R180). -/
def teamBlock (free : Nat → Byte) (tm : Team) : List Byte :=
  let hk := tm.hawk
  fillTo free 8192 (
    (List.range 64).flatMap (fun n => bytesOf 8 (kReg hk n).toNat) ++ bytesOf 8 hk.c.toNat ++ bytesOf 8 hk.pc.toNat ++
      zeroTo 128 (hk.ret.flatMap fun x => bytesOf 8 x.toNat) ++
    (List.range 16).flatMap (fun g => zeroTo 128 ((((gangOf tm g).map (·.dq)).getD []).flatMap fun e => bytesOf 8 e.val.toNat)) ++
    (List.range 16).flatMap (fun q => zeroTo 64 ((smGet [] tm.queues q).flatMap fun h => bytesOf 4 h.toNat)) ++
    (List.range 272).flatMap (fun k => bytesOf 2 (smGet 0 tm.allow k)) ++
    bytesOf 4 tm.join ++ bytesOf 4 tm.barc ++ (List.range 4).flatMap (fun c => bytesOf 8 (smGet 0 tm.skimCnt c).toNat) ++
    flagBytes hk.flags ++ reportsBytes hk.reports ++ (List.range 16).flatMap (fun g => reportsBytes (((gangOf tm g).map (·.reports)).getD [])) ++
    (List.range 16).flatMap (fun g => zeroTo 42 (((gangOf tm g).map handlerBytes).getD [])) ++
    batchBytes tm.matrixReport ++ hawkBytes hk ++ tm.mops.flatMap stepBytes)

/-- The fixed part of gang g: g and p registers, tags, split state, flags, configuration, generator counter, CSRs, and the words and
configurations of its matrix instructions. Of the 2,048 bytes it fills 2,029 at most. -/
def gangBlock (free : Nat → Byte) (tm : Team) (g : Nat) (gg : Gang) : List Byte :=
  fillTo free 2048 (
    (List.range 32).flatMap (fun n => bytesOf 8 (gReg gg n).toNat) ++ (List.range 24).flatMap (fun n => bytesOf 8 (pReg gg n).toNat) ++
    (List.range 112).flatMap (fun n => bytesOf 4 (tagOf gg n).toNat) ++ zeroTo 640 ((heldSplit gg).flatMap splitBytes) ++
    zeroTo 256 (gg.frags.flatMap fragBytes) ++ flagBytes gg.flags ++ bytesOf 8 gg.mcfg.toNat ++ bytesOf 16 gg.rng.toNat ++
    faultBytes gg.flt ++ bytesOf 4 tm.stepno.toNat ++ bytesOf 4 tm.skimtau.toNat ++ bytesOf 4 tm.prio ++
    openBytes gg ++ (tm.mops.filter fun m => m.gang == g).flatMap matrixBytes)

/-- A scratchpad line, with its tag and writer mark. -/
def lineBytes (tm : Team) (line : Nat) : List Byte :=
  scratchBytes tm (128 * line) 128 ++ [BitVec.ofNat 8 ((fillTag tm line).toNat + markOf tm line * 4)]

/-- An accumulator tile. -/
def tileBytes (tm : Team) (tile : Nat) : List Byte := (List.range 8192).flatMap fun x => bytesOf 4 (smGet 0 tm.acc (tile * 8192 + x)).toNat

/-- The v registers, tiles and lines that a save writes: all of the team's, or those that its step declares (R215, R216). -/
structure Saved where
  vregs : List Nat
  operands : Bool
  tiles : List Nat
  lines : List Nat

/-- What a full save writes (R212). -/
def savedFull (tm : Team) : Saved :=
  { vregs := List.range tm.vregs, operands := true, tiles := List.range tm.acct, lines := List.range tm.lines }

/-- What a step-boundary save writes (R216). -/
def savedStep (sd : StepDecl) : Saved :=
  { vregs := (List.range 112).filter sd.vlive.getLsbD, operands := false, tiles := (List.range 16).filter sd.alive.getLsbD
    lines := (List.range sd.spn).map (· + sd.splo) }

/-- A context's image: the team block, each gang's parts, the tiles, the lines. -/
def contextImage (free : Nat → Byte) (tm : Team) (x : Saved) : List Byte :=
  teamBlock free tm ++
    tm.gangs.zipIdx.flatMap (fun g =>
      gangBlock (fun k => free (8192 * (g.2 + 1) + k)) tm g.2 g.1 ++ x.vregs.flatMap (fun n => laneBytes (vReg g.1 n)) ++
        if x.operands then (List.range 8).flatMap (fun n => laneBytes (oReg g.1 n)) ++ laneBytes g.1.y0 ++ laneBytes g.1.y1 else []) ++
    x.tiles.flatMap (tileBytes tm) ++ x.lines.flatMap (lineBytes tm)

end Sys2Proof.Machine
end

