-- ==== Sys2Proof/Machine/Snapshot.lean ====
section
/-!
DEFINITION. What a snapshot holds (13 R235, R236): its sections at the end of the cycle in which the plumb line fired, and its
image in memory.
-/
namespace Sys2Proof.Machine

/-- The number of a team's state in the table order of R43 (R236). -/
def stateCode : TeamState → Nat
  | .queued => 0 | .preload => 1 | .running => 2 | .swapout => 3 | .swapped => 4 | .swapin => 5 | .retiring => 6

/-- The bytes of the registers from an offset of device register space on, 64 bits each. -/
def devSpan (s : State) (off words : Nat) : List Byte := (List.range words).flatMap fun k => bytesOf 8 (devWord s (off + 8 * k))

/-- Section 1: the status block, the health block and the queue heads (R19, R232, R236). -/
def statusSection (s : State) : SnapSection :=
  { kind := 1, inst := 0, rest := 0
    data := devSpan s 0x0000 4 ++ devSpan s 0x3000 3 ++
      (List.range 512).flatMap fun q => bytesOf 4 (((smGet [] s.queues q).head?).getD 0) }

/-- The cores that a snapshot names: those present and not lost (R235, R236). -/
def snapCores (s : State) : List Nat := (List.range Config.cores).filter fun c => corePresent s c && !s.lostCores.contains c

/-- The range lookaside of a core: an entry's eight words (R117), the last used first (log 11). -/
def lookSection (s : State) (core : Nat) : SnapSection :=
  let data := (s.look.filter fun e => e.core == core).flatMap fun e => e.words.flatMap (bytesOf 8)
  { kind := 2, inst := core, data := data, rest := 64 * Config.lookEntries - data.length }

/-- The skim tag array of a core: words 0 and 1 of each header (R196), the last used first (log 11). A write to a header removes the copies
(R201), so those that memory no longer agrees with are gone. -/
def skimSection (s : State) (core : Nat) : SnapSection :=
  let data := (s.skimTags.filter fun e => e.core == core && homeWord s e.addr == e.w0 && homeWord s (e.addr + 8) == e.w1).flatMap fun e => bytesOf 8 e.w0 ++ bytesOf 8 e.w1
  { kind := 3, inst := core, data := data, rest := 16 * Config.skimEntries - data.length }

/-- Whether a sector's line has a directory entry and a token: one of a sealed range has none (R157). -/
def hasEntry (s : State) (sector : Nat) : Bool := !inRangeWith s (·.sealed) (32 * sector)

/-- A region's directory entry: a bit for each cluster whose cores cache any line of the region (R144). -/
def dirVector (s : State) (region : Nat) : Nat :=
  (List.range 24).foldl (fun v c =>
    if s.l1.any fun e => e.core / 8 == c && regionOf e.sector == region && hasEntry s e.sector then v + 2 ^ c else v) 0

/-- The race fields of a sector as a snapshot writes them: D, WR and RS in bits [0], [12:1] and [14:13] (R236). -/
def trackWord (t : Track) : Nat := bnat t.d + t.wr * 2 + t.rs * 2 ^ 13

/-- The entry of a region: its address, its cluster vector, its token's holder and its sectors' race fields (R236). -/
def regionEntry (s : State) (region : Nat) : List Byte :=
  bytesOf 8 (512 * region) ++ bytesOf 4 (dirVector s region) ++ bytesOf 4 (holderOf s region) ++
    (List.range 16).flatMap fun k => bytesOf 4 (trackWord (trackOf s (16 * region + k)))

/-- The regions that some core caches, or whose token is away from its home slice or holds a writer, ascending (R144, R145). -/
def dirRegions (s : State) : List Nat :=
  sortBy id (((s.l1.map (·.sector) ++ s.track.map (·.1)).filter (hasEntry s)).map regionOf ++ s.tokHolder.map (·.1)).eraseDups

/-- The sections of the slices (R236): each holds the regions whose first line has its home there, as many as its directory has
entries for (R144; log 11). -/
def sliceSections (s : State) : List SnapSection :=
  let rs := dirRegions s
  (List.range 128).map fun n =>
    { kind := 4, inst := n, data := ((rs.filter fun r => homeSlice (512 * r) == n).take Config.sliceEntries).flatMap (regionEntry s), rest := 0 }

/-- The section of a link station: its register block, its receive ring registers and its inbound filter (R236). -/
def linkSection (s : State) (n : Nat) : SnapSection :=
  let at0 := 0x100000 + 0x1000 * n
  { kind := 5, inst := n, data := devSpan s at0 3 ++ devSpan s (at0 + 0x20) 4 ++ devSpan s (at0 + 0x100) 64, rest := 0 }

/-- The section of an armed resident team: its launch identifier, then its context in full (R212, R236). -/
def teamSection (s : State) (tm : Team) : SnapSection :=
  { kind := 6, inst := tm.tid, rest := 0
    data := bytesOf 8 tm.lid ++ contextImage (fun k => Config.snapshotByte (s.seq.toNat * 2 ^ 32 + tm.tid) k) tm (savedFull tm) }

/-- The section of an armed swapped team (R236). -/
def swappedSection (s : State) (tm : Team) : SnapSection :=
  let a := launchField s tm 0 fun r => contextAddr r (tm.ctxSlot.getD 0)
  { kind := 7, inst := tm.tid, data := bytesOf 8 tm.lid ++ bytesOf 8 tm.tid ++ bytesOf 8 a, rest := 0 }

/-- What a snapshot says of any other live team: its launch, its linear identifier and the number of its state (R236). -/
structure OtherTeam where
  lid : Nat
  tid : Nat
  code : Nat
deriving DecidableEq, Repr

/-- The entry of any other live team (R236): launch, identifier and state in 4, 4 and 8 bytes, as the spec gives the 16 bytes of the entry
but not the widths of its fields (DESIGN CHOICE, log 117). -/
def OtherTeam.bytes (x : OtherTeam) : List Byte := bytesOf 4 x.lid ++ bytesOf 4 x.tid ++ bytesOf 8 x.code

/-- How many teams of a live launch have not been placed: they are QUEUED (R41, R43). -/
def unplacedCount (l : Launch) : Nat := if l.cancelled then 0 else l.record.tcount - l.nextTid

/-- Those teams, as far as a snapshot has room for them. -/
def unplacedTeams (l : Launch) : List OtherTeam :=
  (List.range (min 65536 (unplacedCount l))).map fun k => { lid := l.lid, tid := l.nextTid + k, code := stateCode .queued }

/-- The sections of a snapshot and the teams left out (R235, R236). -/
def snapSections (s : State) : List SnapSection × Nat :=
  let order := sortBy (fun tm => tm.lid * 2 ^ 32 + tm.tid) s.teams
  let armed (tm : Team) : Bool := snapMode s tm
  let res := order.filter fun tm => armed tm && resident tm && (snapCores s).contains tm.core
  let swapped := order.filter fun tm => armed tm && tm.st == .swapped
  let placed := s.teams.filter fun tm => !(armed tm && (resident tm || tm.st == .swapped))
  let other := sortBy (fun x => x.lid * 2 ^ 32 + x.tid)
    (placed.map (fun tm => { lid := tm.lid, tid := tm.tid, code := stateCode tm.st }) ++ s.launches.flatMap unplacedTeams)
  let others := placed.length + (s.launches.map unplacedCount).foldl (· + ·) 0
  ([statusSection s] ++ (snapCores s).map (lookSection s) ++ (snapCores s).map (skimSection s) ++ sliceSections s ++
     (List.range 16).map (linkSection s) ++ res.map (teamSection s) ++ (swapped.take 65536).map (swappedSection s) ++
     [{ kind := 8, inst := 0, data := (other.take 65536).flatMap OtherTeam.bytes, rest := 0 }],
   (swapped.length - 65536) + (others - 65536))

/-- Latches the state at the end of the cycle in which the plumb line fired (R234). -/
def captureSnapshot (s : State) : State :=
  match s.latched with
  | none => s
  | some x =>
    if x.taken.isSome then s
    else
      let r := snapSections s
      { s with latched := some { x with taken := some (s.cycle + 1, r.1, r.2) } }

/-- The bytes of a section: what it lists, then zeros (R236). -/
def SnapSection.bytes (x : SnapSection) : List Byte := x.data ++ List.replicate x.rest 0

/-- Zeros to the next multiple of 4 KiB. -/
def padPage (n : Nat) : List Byte := List.replicate (ceilDiv n 4096 * 4096 - n) 0

/-- The directory: each section's entry, the sections beginning at a page (R236). -/
def snapDirectory : Nat → List SnapSection → List Byte
  | _, [] => []
  | page, x :: xs =>
    let len := x.data.length + x.rest
    bytesOf 8 (x.kind + x.inst * 2 ^ 16) ++ bytesOf 4 page ++ bytesOf 4 len ++ snapDirectory (page + ceilDiv len 4096) xs

/-- The image of a snapshot up to its last section (R236). -/
def snapImage (x : Snapshot) (cycle omitted : Nat) (secs : List SnapSection) : List Byte :=
  let n := secs.length
  let head := bytesOf 8 (x.seq.toNat + x.src * 2 ^ 32 + x.cause * 2 ^ 34) ++ bytesOf 8 cycle ++ bytesOf 8 (x.lid + x.tid * 2 ^ 32) ++
    bytesOf 8 n ++ bytesOf 8 omitted ++ List.replicate 24 0 ++ snapDirectory (ceilDiv (64 + 16 * n) 4096) secs
  head ++ padPage head.length ++ secs.flatMap fun y => y.bytes ++ padPage y.bytes.length

end Sys2Proof.Machine
end

