-- ==== Sys2Proof/Machine/Cycle.lean ====
section
/-!
DEFINITION. What the passing of one core cycle does: the swap timers (02 R35), the latching of a snapshot (13 R234), and the
pre-emption requests that can now be honoured (12 R212 to R216).
-/
namespace Sys2Proof.Machine

/-- Honours the pending requests that the rules let be taken now (R212: a request stays pending until a context slot frees). -/
def honourAll (s : State) : State := (List.range s.teams.length).foldl honour s

/-- What a team's reads of its CSRs see from the next core cycle on (R74). -/
def seeCsrs (tm : Team) : Team := { tm with stepnoSeen := tm.stepno, skimtauSeen := tm.skimtau, prioSeen := tm.prio }

/-- The writes that clear SVALID for killed SKIMPUTs go out, as far as their ports have room (R202, R245); a window with no port in
service takes none (R241). -/
def sendClears (s : State) : State :=
  s.slotClears.foldl (fun s r =>
    match portFor s r.window r.pa with
    | none => s
    | some port =>
      if portRoom s port = 0 then { s with slotClears := s.slotClears ++ [r] }
      else sendPeer s { lid := 0, tid := 0, who := .hawk, lane := none, op := none } port r.window r.pa r.va r.kind false r.message)
    { s with slotClears := [] }

/-- One core cycle passes (R8, R35); a plumb line that fired in it latches the state at its end (R234). The CSR writes made in it are seen
from now on, and those to SWAPWAIT take effect (R74, R75). -/
def tick (s : State) : State :=
  let s := captureSnapshot (honourAll (sendClears s))
  { s with
    cycle := s.cycle + 1
    cur := .none
    spent := []
    swapwait := s.swapwaitNew.foldl (fun m x => smSet 20000 m x.1 x.2) s.swapwait
    swapwaitNew := []
    teams := s.teams.map fun tm =>
      seeCsrs (if tm.st == .running then { tm with timer := if timerRuns tm then tm.timer + 1 else 0 } else tm) }

end Sys2Proof.Machine
end

