-- ==== Sys2Proof/Machine/Atomics.lean ====
section
/-!
DEFINITION. The atomic and fence words of major 0x8: ATOM, ACAS, RED, ATOMS, FENCE and FENCEX (R137, R151, R153 to R156, R277,
R281 to R283, R308, R309), and the atomic operations that peers and the hawk share with them.
-/
namespace Sys2Proof.Machine

/-! ### The operations -/

/-- The new value of an atomic operation on words of w bits (R281). -/
def atomicValue (op w old x : Nat) : Nat :=
  let lt (a b : Nat) : Bool := decide (sextN w a < sextN w b)
  match op with
  | 0 => (old + x) % 2 ^ w
  | 1 => Nat.land old x
  | 2 => Nat.lor old x
  | 3 => Nat.xor old x
  | 4 => if lt x old then x else old
  | 5 => if lt old x then x else old
  | 6 => min old x
  | 7 => max old x
  | 8 => x
  | 9 => roundF fp32 .rn (addF .rn (decodeF fp32 old) (decodeF fp32 x))
  | 10 => fminF fp32 old x
  | 11 => fmaxF fp32 old x
  | _ => old

/-- The operations of the encoding (R281): 0 to 11, those on FP32 in 32 bits alone. -/
def atomicOpOk (op : BitVec 5) (w64 : Bool) : Bool := decide (op.toNat ≤ 8) || (decide (op.toNat ≤ 11) && !w64)

/-- Commutative operations (R153, R282). -/
def commutes (op : BitVec 5) : Bool := decide (op.toNat ≤ 7) || op == 10 || op == 11

/-- The width of an atomic in bytes. -/
def atomicLen (w : BitVec 1) : Nat := if flag1 w then 8 else 4

/-- The scope hint of an atomic: sequentially consistent at module scope without one (R137). -/
def atomicScope (hs : List (DWord × Instr)) : Scope := (scopeHint hs).getD { order := 3, scope := 6, use := 0, q := 0 }

/-- A use and order that are legal: ordered with no use, or relaxed with one of some uses; a quantum only with use 4 (R137,
R282, R374). -/
def useOk (x : Scope) (orders uses : List Nat) : Bool :=
  (x.use == 4 || x.q == 0) && (if x.order = 0 then uses.contains x.use else orders.contains x.order && x.use == 0)

/-- The key of the contention counter of a line, at its home slice (R156). -/
def predictKey (pa : Nat) : Nat := homeSlice (pa / 128 * 128) * 4096 + (Config.lineHash (pa / 128)).val

/-- Whether an atomic of a core executes in its first-level cache: its line is quiet (R156). -/
def quietLine (s : State) (pa : Nat) : Bool := decide ((smGet 0 s.predict (predictKey pa)).toNat < 2)

/-- The token request of an atomic trains the predictor: one up where it finds the token at another core, else one down (R156). -/
def trainLine (s : State) (core pa : Nat) (want : Nat) : State :=
  let h := holderOf s (regionOf (sectorOf pa))
  let x := (smGet 0 s.predict (predictKey pa)).toNat
  if h = want then s
  else { s with predict := smSet 0 s.predict (predictKey pa) (BitVec.ofNat 2 (if h < 192 ∧ h ≠ core then min 3 (x + 1) else x - 1)) }

/-- How an atomic at the home slice installs the sectors of its pieces: in the second level alone, and in a PLANE range nowhere
(R101). -/
def homeInstall (ps : List Piece) (sector : Nat) : Install :=
  if (storeInstall 0 ps sector).l2 then .below else .never

/-- A core's atomic on a word of memory, where the predictor places it: in the core's first-level cache, which takes the token, or at
the home slice, which takes it (R156). The old value comes with the state. -/
def placedAtomic (s : State) (core policy len pa : Nat) (ps : List Piece) (step : Nat → Nat) : State × Nat :=
  if quietLine s pa then
    let old := natOf ((List.range len).map fun k => lsByte s core (pa + k))
    (lsWrite (trainLine s core pa core) core (storeInstall policy ps) (writesAt pa (bytesOf len (step old))), old)
  else
    let old := natOf (homeBytes s pa len)
    (homeWriteAs (trainLine s core pa homeHolder) homeHolder (homeInstall ps) (writesAt pa (bytesOf len (step old))), old)

/-- A quantum add (R155): the visible value, and the state with the add applied or pending. It executes at the home slice, which
takes the token (R156). -/
def quantumAdd (s : State) (pa : Nat) (ps : List Piece) (w64 : Bool) (q : Nat) (d : Int) : State × Nat :=
  let n := if w64 then 8 else 4
  let s := homeTake s homeHolder (sectorOf pa)
  let same (x : Quantum) : Bool := x.addr == pa && x.w64 == w64 && x.q == q
  let p : Int := ((s.quanta.find? same).map (·.sum)).getD 0
  let rest := s.quanta.filter fun x => !same x
  -- Pending sums of the word with another quantum or width are applied first.
  let s := flushQuanta { s with quanta := rest } pa (pa + n)
  let old := natOf (memBytes s pa n)
  if ((p + d).natAbs) ≥ 2 ^ q then
    (l2WriteSector s (writesAt pa (bytesOf n (wrapN (8 * n) ((old : Int) + p + d)))) false (homeInstall ps (sectorOf pa)) (sectorOf pa), old)
  else ({ s with quanta := if p + d = 0 then s.quanta else { addr := pa, w64 := w64, q := q, sum := p + d } :: s.quanta }, old)

/-! ### Atomics on global memory -/

/-- One lane's atomic on global memory: what it does to the word, as a part of a peer request and as a new value. -/
structure LaneAtomic where
  kind : WordOp
  step : Nat → Nat
  /-- The addend of a quantum add. -/
  addend : Int

/-- The single piece of an aligned word, with its place. -/
def onePiece (ps : List Piece) : Option (Piece × Place) := ps.head?.map fun p => (p, p.place)

/-- A lane's checks for an atomic (R277, R282): alignment, the checks of R123, and the quantum's ban in a peer window. -/
def laneAtomic (c : GCtx) (q : Req) (len va : Nat) (quantum : Bool) (s : State) : State × LaneRes :=
  if va % len ≠ 0 then (s, .trap .misaligned (BitVec.ofNat 64 va))
  else
    let s := touchSpan s c.tm.core q.asid va len
    match checkSpan s q va len with
    | .bad cause _ => (s, .trap cause (BitVec.ofNat 64 va))
    | .park w => (s, .park w)
    | .ok ps =>
      match onePiece ps with
      | some (_, .peer ..) => if quantum then (s, .trap .illegalOperand (BitVec.ofNat 64 va)) else (s, .ok ps [])
      | some (_, .dev pa) => (s, .ok ps (devBytes s pa len))
      | _ => (s, .ok ps [])

/-- The sector of a peer window that a lane's word lies in, if any. -/
def laneSector : LaneRes → Option Nat
  | .ok ps _ => (onePiece ps).bind fun x => match x.2 with
    | .peer _ pa => some (pa / 32 * 32)
    | _ => none
  | _ => none

/-- The request for the atomics on words of a sector of a peer window, in lane order (R108): its offset from the sector, and what it does. -/
def wordsRequest (w64 returning : Bool) : List (Nat × WordOp) → Nat × PeerKind
  | [(off, .op o x)] => (off, .atomic o w64 x returning)
  | [(off, .swap c x)] => (off, .swap w64 c x)
  | ops =>
    let lo := ops.foldl (fun m x => min m x.1) 31
    (lo, .several w64 (ops.map fun x => (x.1 - lo, x.2)) returning)

/-- The request that the lanes' atomics make for a sector. -/
def sectorAtomics (w64 returning : Bool) (op : Nat → LaneAtomic) (rs : LaneList) (sec : PeerSector) : Nat × PeerKind :=
  wordsRequest w64 returning (rs.filterMap fun x => match x.2 with
    | .ok ps _ => (onePiece ps).bind fun y => match y.2 with
      | .peer _ pa => if pa / 32 * 32 = sec.pa then some (pa % 32, (op x.1).kind) else none
      | _ => none
    | _ => none)

/-- Asks the peers for the atomics of each of some sectors, in order (R108): the answers, by the sector's physical address. -/
def askAtomics (c : GCtx) (w64 : Bool) (op : Nat → LaneAtomic) (rs : LaneList) : List PeerSector → State → State × List (Nat × Answer)
  | [], s => (s, [])
  | sec :: l, s =>
    let (lo, kind) := sectorAtomics w64 true op rs sec
    let piece : Piece := { va := sec.va + lo, len := 32, place := .peer sec.window (sec.pa + lo), plane := false }
    let (s, a) := askPeer s (fragSender c) piece sec.window (sec.pa + lo) kind
    let (s, r) := askAtomics c w64 op rs l s
    (s, (sec.pa, a) :: r)

/-- Sends the no-return atomics of each sector of peer windows, in order (R108, R239). -/
def sendAtomics (c : GCtx) (w64 : Bool) (op : Nat → LaneAtomic) (rs : LaneList) (s : State) : State :=
  (peerSectors (okPieces rs)).foldl (fun s sec =>
    let (lo, kind) := sectorAtomics w64 false op rs sec
    let piece : Piece := { va := sec.va + lo, len := 32, place := .peer sec.window (sec.pa + lo), plane := false }
    sendNoReturn s c.t (fragSender c) piece sec.window (sec.pa + lo) kind) s

/-- What the peers' answers give the lanes that asked them: each its old value in the answer of its sector, the values of the lanes
before it there coming first, or a trap where the request failed (R241). `before` names the sectors of the lanes before. -/
def takeWords (len : Nat) (got : List (Nat × Answer)) (before : List Nat) : LaneList → LaneList
  | [] => []
  | (l, r) :: rs =>
    match r, laneSector r with
    | .ok ps _, some sec =>
      let r := match sectorAnswer got sec with
        | .got true bs => .ok ps ((bs.drop (countP (· == sec) before * len)).take len)
        | _ => .trap .poison (BitVec.ofNat 64 ((ps.head?.map (·.va)).getD 0))
      (l, r) :: takeWords len got (sec :: before) rs
    | _, _ => (l, r) :: takeWords len got before rs

/-- Makes the lanes of an atomic ready: their checks, and, for a returning one, the answers of the peers, which it asks sector by sector.
What it waits for, if anything, stands beside the lanes (R108, R239, R245). -/
def readyLanes (c : GCtx) (a : BitVec 8) (len : Nat) (quantum returning : Bool) (op : Nat → LaneAtomic) (s : State) :
    State × Option Wait × LaneList :=
  let (s, rs) := eachLane (fun l s => laneAtomic c (lsReq s c .atomic) len (laneAddr c a 0 0 l) quantum s) (lanesIn c.act) s
  let secs := peerSectors (okPieces rs)
  if returning then
    let (s, got) := askAtomics c (len == 8) op rs secs s
    (s, askedWait got, takeWords len got [] rs)
  else (s, if hasRoom s (secs.map fun x => (x.window, x.pa)) then none else some .interlock, rs)

/-- Performs one lane's atomic: the bytes of the old value (R139, R154, R155). Device registers ignore it, and a peer has performed it or
will. -/
def performAtomic (c : GCtx) (x : Scope) (len policy : Nat) (a : LaneAtomic) (ps : List Piece) (data : List Byte) (s : State) :
    State × List Byte :=
  match onePiece ps with
  | some (_, .mem pa _) =>
    if x.use = 4 then
      let (s, old) := quantumAdd s pa ps (len == 8) x.q a.addend
      (s, bytesOf len old)
    else
      let (s, old) := placedAtomic (flushQuanta s pa (pa + len)) c.tm.core policy len pa ps a.step
      (s, bytesOf len old)
  | _ => (s, data)

/-- Performs the lanes' atomics in ascending order; each lane's answer is then its old value (R139). -/
def performAtomics (f : Nat → List Piece → List Byte → State → State × List Byte) : LaneList → State → State × LaneList
  | [], s => (s, [])
  | (l, .ok ps d) :: rs, s =>
    let (s, old) := f l ps d s
    let (s, rs) := performAtomics f rs s
    (s, (l, .ok ps old) :: rs)
  | r :: rs, s =>
    let (s, rs) := performAtomics f rs s
    (s, r :: rs)

/-- Performs the atomics of lanes that are ready: those on this module's words, then, for a no-return one, the requests to peers. -/
def performLanes (c : GCtx) (x : Scope) (len : Nat) (returning : Bool) (op : Nat → LaneAtomic) (rs : LaneList) (s : State) :
    State × LaneList :=
  let (s, old) := performAtomics (fun l => performAtomic c x len (cacheHint c.cl.hints) (op l)) rs s
  (if returning then s else sendAtomics c (len == 8) op rs s, old)

/-- Runs an atomic on global memory in every active lane; `done` ends it, given the lanes' old values. -/
def runAtomic (c : GCtx) (a : BitVec 8) (len : Nat) (returning : Bool) (op : Nat → LaneAtomic)
    (done : LaneList → State → GRes) (s : State) : GRes :=
  let x := atomicScope c.cl.hints
  withRelease c (releases x.order) x.scope (fun release s =>
    match readyLanes c a len (x.use == 4) returning op s with
    | (s, some w, _) => .wait w s
    | (s, none, rs) =>
      let some' : Bool := okLanes rs != 0
      let s := if some' then release s else s
      let s := if some' && x.use != 2 then escape s c.t else s
      let (s, rs) := performLanes c x len returning op rs s
      done rs s) s

/-- The destinations of a returning atomic: the old value. -/
def oldDests (d : BitVec 7) (w : BitVec 1) : LoadDest := if flag1 w then pairDests d else [(d.toNat, wordAt 0)]

/-- The lane operand of an atomic: a register, or a pair (R281). -/
def atomicOperand (s : State) (c : GCtx) (d : BitVec 7) (w : BitVec 1) (l : Nat) : Nat :=
  if flag1 w then (pairLane c.gg d.toNat l).toNat else (srcLane s c d.toNat l).toNat

/-- An operation of R281 in a lane. -/
def opAtomic (o : BitVec 5) (w : BitVec 1) (x : Nat) : LaneAtomic :=
  let bits := 8 * atomicLen w
  { kind := .op o (BitVec.ofNat 64 x), step := fun old => atomicValue o.toNat bits old x
    addend := sextN bits x }

/-- The v registers from d on. -/
def vBlock (d : BitVec 7) (n : Nat) : List RegName := (List.range n).map fun k => .v (d.toNat + k)

/-- The hints of the atomics on global memory (R266). -/
def acceptsAtomic : Accepts := ⟨false, false, true, true, false⟩

/-- A v register, or an even pair (R281). -/
def atomicDataOk (v : Nat) (d : BitVec 7) (w : BitVec 1) : Bool :=
  if flag1 w then pairOk v d.toNat else decide (d.toNat ≤ 111) && decide (d.toNat < v)

/-- ATOM (R281, R282). -/
def execAtom (f : BitVec 1) (d : BitVec 7) (a : BitVec 8) (o : BitVec 5) (w : BitVec 1) (s : State) : Out :=
  let n := if flag1 w then 2 else 1
  gangOnly (.atom f d a o w)
    (fun c =>
      { plainInfo with
        accepts := acceptsAtomic
        fs := some f
        legal := atomicDataOk c.tm.vregs d w && addrOk c.tm.vregs a.toNat && atomicOpOk o (flag1 w) &&
          useOk (atomicScope c.cl.hints) [1, 2, 3] (if o = 0 then [1, 3, 4] else [1, 3])
        reads := addrRegs a ++ vBlock d n
        writes := vBlock d n })
    (fun c s =>
      runAtomic c a (atomicLen w) true (fun l => opAtomic o w (atomicOperand s c d w l))
        (fun rs s => endLoad { c with helper := 0 } true f (!flag1 w) (oldDests d w) rs [] s) s) s

/-- RED (R281, R282). -/
def execRed (d : BitVec 7) (a : BitVec 8) (o : BitVec 5) (w : BitVec 1) (s : State) : Out :=
  gangOnly (.red d a o w)
    (fun c =>
      { plainInfo with
        accepts := acceptsAtomic
        legal := storeSrcOk c.tm.vregs d (flag1 w) && addrOk c.tm.vregs a.toNat && atomicOpOk o (flag1 w) &&
          useOk (atomicScope c.cl.hints) [2, 3] (if commutes o then [1, 2, 5] else [1, 5])
        count := if flag1 w then 0 else srcCount d.toNat
        reads := addrRegs a ++ storeRegs d (flag1 w) })
    (fun c s =>
      runAtomic c a (atomicLen w) false (fun l => opAtomic o w (atomicOperand s c d w l))
        (fun rs s => endLanes c true rs none false .done s) s) s

/-- A compare and swap in a lane (R277). -/
def swapAtomic (w : BitVec 1) (cmp new : Nat) : LaneAtomic :=
  { kind := .swap (BitVec.ofNat 64 cmp) (BitVec.ofNat 64 new), step := fun old => if old = cmp then new else old
    addend := 0 }

/-- ACAS (R277). -/
def execAcas (f : BitVec 1) (d : BitVec 7) (a : BitVec 8) (w : BitVec 1) (s : State) : Out :=
  let n := if flag1 w then 2 else 1
  gangOnly (.acas f d a w)
    (fun c =>
      { plainInfo with
        accepts := acceptsAtomic
        fs := some f
        legal := (if flag1 w then d.toNat % 4 == 0 else true) && decide (d.toNat + 2 * n - 1 < c.tm.vregs) &&
          decide (d.toNat + 2 * n - 1 ≤ 111) && addrOk c.tm.vregs a.toNat && useOk (atomicScope c.cl.hints) [1, 2, 3] [1, 3]
        reads := addrRegs a ++ vBlock d (2 * n)
        writes := vBlock d n })
    (fun c s =>
      let word (k l : Nat) : Nat := (laneOf (vReg c.gg (d.toNat + k)) l).toNat
      let cmp (l : Nat) : Nat := if flag1 w then word 0 l + word 1 l * 2 ^ 32 else word 0 l
      let new (l : Nat) : Nat := if flag1 w then word 2 l + word 3 l * 2 ^ 32 else word 1 l
      runAtomic c a (atomicLen w) true (fun l => swapAtomic w (cmp l) (new l))
        (fun rs s => endLoad { c with helper := 0 } true f (!flag1 w) (oldDests d w) rs [] s) s) s

/-! ### Atomics on scratchpad -/

/-- One lane's ATOMS on the team as it stands (R283). -/
def performAtoms (c : GCtx) (o : BitVec 5) (w : BitVec 1) (x off : Nat) (s : State) : State × List Byte :=
  let len := atomicLen w
  match listAt s.teams c.t with
  | none => (s, [])
  | some tm =>
    let old := natOf (scratchBytes tm off len)
    let new := atomicValue o.toNat (8 * len) old x
    (scratchStore s c.t (.gang c.g) (writesAt off (bytesOf len new)), bytesOf len old)

/-- ATOMS (R281 to R283): a line that is not ready holds it whole (R106). -/
def execAtoms (f : BitVec 1) (d : BitVec 7) (a : BitVec 8) (o : BitVec 5) (w : BitVec 1) (s : State) : Out :=
  let n := if flag1 w then 2 else 1
  let len := atomicLen w
  gangOnly (.atoms f d a o w)
    (fun c =>
      let x := atomicScope c.cl.hints
      { plainInfo with
        accepts := ⟨false, false, false, true, false⟩
        fs := some f
        legal := atomicDataOk c.tm.vregs d w && offOk c.tm.vregs a.toNat && atomicOpOk o (flag1 w) &&
          useOk x [1, 2, 3] [1, 3] && decide (x.scope ≤ 3)
        reads := offRegs a ++ vBlock d n
        writes := vBlock d n })
    (fun c s =>
      let x := atomicScope c.cl.hints
      withRelease c (releases x.order) x.scope (fun release s =>
        let off (l : Nat) : Int := laneOffset c a 0 0 l
        let check (l : Nat) := checkScratch s c.tm (.gang c.g) (off l) len len true
        let stalls := (lanesIn c.act).flatMap fun l => match check l with
          | .stall ls => ls
          | _ => []
        if stalls ≠ [] then .wait (.fill (stalls.foldl setAdd [])) s
        else
          let rs : LaneList := (lanesIn c.act).map fun l => (l, match check l with
            | .bad cause => .trap cause (BitVec.ofInt 64 (off l))
            | _ => .ok [] [])
          let s := if okLanes rs = 0 then s else release s
          let (s, rs) := performAtomics (fun l _ _ s => performAtoms c o w (atomicOperand s c d w l) (off l).toNat s) rs s
          endLoad { c with helper := 0 } false f (!flag1 w) (oldDests d w) rs [] s) s) s

/-! ### Fences -/

/-- FENCE (R138, R308). Every access is performed when it issues (log 9), so an acquire has nothing to wait for. -/
def execFence (o : BitVec 2) (sc : BitVec 3) (s : State) : Out :=
  let rel := releases o.toNat
  bothWord (.fence o sc)
    (fun _ => { plainInfo with legal := o != 0 })
    (fun c s => withRelease c rel sc.toNat (fun release s => .done (if c.act = 0 then s else release s)) s)
    (fun _ => { plainHInfo with legal := o != 0 && decide (3 ≤ sc.toNat), treat := .stall })
    (fun c s =>
      if !rel then .done s
      else match relGate s c.t c.tm .hawk sc.toNat with
      | .hold => .wait .interlock s
      | .report r s' => .report 15 r true s'
      | .go => .done (releaseBy s c.t .hawk sc.toNat)) s

/-- The engine class of an engine operation (R135). -/
def engineClass : EngineKind → EngineClass
  | .gather _ | .scatter _ => .ga
  | _ => .cp

/-- Whether a stream has operations of a class that have not completed (R151). -/
def classBusy (s : State) (tm : Team) (who : StreamName) (code : Nat) : Bool :=
  match code with
  | 0 => tm.loads.any fun x => x.who == who
  | 1 => tm.eops.any fun x => x.flag.isSome && x.who == who && engineClass x.kind == .cp
  | 2 => tm.eops.any fun x => x.flag.isSome && x.who == who && engineClass x.kind == .ga
  | 3 => tm.mops.any fun x => who == .gang x.gang
  | _ => s.peers.any fun r => r.lid == tm.lid && r.tid == tm.tid && r.who == who && r.answer.isNone

/-- The write-back and invalidation of a core's first-level cache (R151 step 2). -/
def flushCore (s : State) (core : Nat) : State :=
  l1Drop (cleanL1 s fun e => e.core == core) fun e => e.core == core

/-- The effect of FENCEX on a core (R151 steps 2 and 3): LS writes the first level back, and with GA every LS write to a GTH range
that happened before it reaches DRAM, wherever below the first level it stands (R152). LK with GA does the same for the writes and
atomics that came in through the link stations (R152). -/
def fencexEffect (s : State) (core : Nat) (a b : BitVec 3) : State :=
  let named (n : BitVec 3) : Bool := a == n || b == n
  let s := if named 0 then flushCore s core else s
  let s := if named 4 && named 2 then recallStations s 0 Config.physHi else s
  if named 2 && (named 0 || named 4) then writeThrough s fun _ => true else s

/-- FENCEX (R151, R309). -/
def execFencex (b a : BitVec 3) (s : State) : Out :=
  let legal := decide (a.toNat ≤ 4) && decide (b.toNat ≤ 4) && a != b
  bothWord (.fencex b a)
    (fun _ => { plainInfo with legal := legal })
    (fun c s =>
      if c.act = 0 then .done s
      else if classBusy s c.tm (.gang c.g) a.toNat || classBusy s c.tm (.gang c.g) b.toNat then .wait .interlock s
      else .done (fencexEffect s c.tm.core a b))
    (fun _ => { plainHInfo with legal := legal, treat := .stall })
    (fun c s =>
      if classBusy s c.tm .hawk a.toNat || classBusy s c.tm .hawk b.toNat then .wait .interlock s
      else .done (fencexEffect s c.tm.core a b)) s

end Sys2Proof.Machine
end

