-- ==== Sys2Proof/Machine/Floats.lean ====
section
/-!
DEFINITION. The floating-point words of major 0x3 and the floating-point VI words of major 0x4 (R305, R306, R314).
-/
namespace Sys2Proof.Machine

/-! ### Operations on FP32 values -/

/-- The exact sum rounded once to FP32 (R80, R81). -/
def fAdd (m : RMode) (a b : Word) : Word := toF32 m (addF m (f32 a) (f32 b))
/-- The exact difference rounded once. -/
def fSub (m : RMode) (a b : Word) : Word := toF32 m (addF m (f32 a) (negF (f32 b)))
/-- The exact product rounded once. -/
def fMul (m : RMode) (a b : Word) : Word := toF32 m (mulF (f32 a) (f32 b))
/-- a × b + x rounded once. -/
def fFma (m : RMode) (a b x : Word) : Word := toF32 m (addF m (mulF (f32 a) (f32 b)) (f32 x))
/-- FMIN (R81). -/
def fMin (a b : Word) : Word := BitVec.ofNat 32 (fminF fp32 a.toNat b.toNat)
/-- FMAX (R81). -/
def fMax (a b : Word) : Word := BitVec.ofNat 32 (fmaxF fp32 a.toNat b.toNat)

/-- FSCALE: a × 2^e, with e a signed integer (R305). -/
def fScale (a b : Word) : Word :=
  match f32 a with
  | .fin neg m e => toF32 .rn (.fin neg m (e + b.toInt))
  | x => toF32 .rn x

/-- FCLASS (R306). -/
def fClass (a : Word) : Word :=
  let neg := a.getLsbD 31
  let ex := a.toNat / 2 ^ 23 % 256
  let fr := a.toNat % 2 ^ 23
  let bit : Nat :=
    if ex = 255 then (if fr ≠ 0 then (if a.getLsbD 22 then 9 else 8) else if neg then 0 else 7)
    else if ex = 0 then (if fr = 0 then (if neg then 3 else 4) else if neg then 2 else 5)
    else if neg then 1 else 6
  1#32 <<< bit

/-- Element j of a packed pair (R77). -/
def halfOf (x : Word) (j : Nat) : Nat := x.toNat / 2 ^ (16 * j) % 2 ^ 16

/-- The format of a packed word's elements (R314). -/
def halfFmt (m : BitVec 1) : Fmt := if flag1 m then bf16 else fp16

/-- Packs two 16-bit elements. -/
def packHalves (f : Nat → Nat) : Word := BitVec.ofNat 32 (f 0 + f 1 * 2 ^ 16)

/-- HADD2 (R314). -/
def halfAdd (fm : Fmt) (m : RMode) (a b : Word) : Word :=
  packHalves fun j => roundF fm m (addF m (decodeF fm (halfOf a j)) (decodeF fm (halfOf b j)))
/-- HMUL2 (R314). -/
def halfMul (fm : Fmt) (m : RMode) (a b : Word) : Word :=
  packHalves fun j => roundF fm m (mulF (decodeF fm (halfOf a j)) (decodeF fm (halfOf b j)))
/-- HFMA2 (R314). -/
def halfFma (fm : Fmt) (m : RMode) (a b x : Word) : Word :=
  packHalves fun j =>
    roundF fm m (addF m (mulF (decodeF fm (halfOf a j)) (decodeF fm (halfOf b j))) (decodeF fm (halfOf x j)))

/-- A source of a packed word: an inline integer stands for its value in both elements (R263, R314). -/
def srcHalves (s : State) (c : GCtx) (fm : Fmt) (code l : Nat) : Word :=
  if isInline code then packHalves fun _ => roundF fm .rn (ofIntF ((code : Int) - 224)) else srcLane s c code l

/-- A packed word of two sources and its destination's old value. -/
def halfWord (i : Instr) (m : BitVec 1) (d : BitVec 7) (a : BitVec 8) (b : BitVec 7) (readsD : Bool)
    (f : RMode → Word → Word → Word → Word) (s : State) : Out :=
  v3Word i useRm d a (some b) readsD
    (fun s c l => f (roundingMode c) (srcHalves s c (halfFmt m) a.toNat l) (srcHalves s c (halfFmt m) (secondCode c b) l)
      (srcLane s c d.toNat l)) s

/-! ### Major 0x3 -/

/-- FADD (R305). -/
def execFadd (d : BitVec 7) (a : BitVec 8) (b : BitVec 7) (s : State) : Out :=
  floatWord (.fadd d a b) useRm d a b false (fun m x y _ => fAdd m x y) s
/-- FSUB (R305). -/
def execFsub (d : BitVec 7) (a : BitVec 8) (b : BitVec 7) (s : State) : Out :=
  floatWord (.fsub d a b) useRm d a b false (fun m x y _ => fSub m x y) s
/-- FMUL (R305). -/
def execFmul (d : BitVec 7) (a : BitVec 8) (b : BitVec 7) (s : State) : Out :=
  floatWord (.fmul d a b) useRm d a b false (fun m x y _ => fMul m x y) s
/-- FFMA (R305). -/
def execFfma (d : BitVec 7) (a : BitVec 8) (b : BitVec 7) (s : State) : Out :=
  floatWord (.ffma d a b) useRm d a b true (fun m x y z => fFma m x y z) s
/-- FFMAY: the addend is y0 (R305). -/
def execFfmay (d : BitVec 7) (a : BitVec 8) (b : BitVec 7) (s : State) : Out :=
  gangOnly (.ffmay d a b)
    (fun c => let w := v3Info c useRm d a (some b) false; { w with count := max 1 w.count, reads := .y0 :: w.reads })
    (laneResult d fun s c l =>
      fFma (roundingMode c) (srcF32 s c a.toNat l) (srcF32 s c (secondCode c b) l) (laneOf c.gg.y0 l)) s
/-- FMIN (R305). -/
def execFmin (d : BitVec 7) (a : BitVec 8) (b : BitVec 7) (s : State) : Out :=
  floatWord (.fmin d a b) useNone d a b false (fun _ x y _ => fMin x y) s
/-- FMAX (R305). -/
def execFmax (d : BitVec 7) (a : BitVec 8) (b : BitVec 7) (s : State) : Out :=
  floatWord (.fmax d a b) useNone d a b false (fun _ x y _ => fMax x y) s
/-- FSCALE (R305): its second source is an integer. -/
def execFscale (d : BitVec 7) (a : BitVec 8) (b : BitVec 7) (s : State) : Out :=
  v3Word (.fscale d a b) useNone d a (some b) false
    (fun s c l => fScale (srcF32 s c a.toNat l) (srcLane s c (secondCode c b) l)) s
/-- FCLASS (R306). -/
def execFclass (d : BitVec 7) (a : BitVec 8) (s : State) : Out :=
  v3Word (.fclass d a) useNone d a none false (fun s c l => fClass (srcF32 s c a.toNat l)) s
/-- HADD2 (R314). -/
def execHadd2 (m : BitVec 1) (d : BitVec 7) (a : BitVec 8) (b : BitVec 7) (s : State) : Out :=
  halfWord (.hadd2 m d a b) m d a b false (fun r x y _ => halfAdd (halfFmt m) r x y) s
/-- HMUL2 (R314). -/
def execHmul2 (m : BitVec 1) (d : BitVec 7) (a : BitVec 8) (b : BitVec 7) (s : State) : Out :=
  halfWord (.hmul2 m d a b) m d a b false (fun r x y _ => halfMul (halfFmt m) r x y) s
/-- HFMA2 (R314). -/
def execHfma2 (m : BitVec 1) (d : BitVec 7) (a : BitVec 8) (b : BitVec 7) (s : State) : Out :=
  halfWord (.hfma2 m d a b) m d a b true (fun r x y z => halfFma (halfFmt m) r x y z) s

/-! ### Major 0x4, floating point: nearest even (R266) -/

/-- FADD of an immediate (R305). -/
def execFaddImm (d : BitVec 7) (a : BitVec 8) (imm : BitVec 8) (s : State) : Out :=
  viFloatWord (.faddImm d a imm) d a imm false (fun x y _ => fAdd .rn x y) s
/-- FMUL by an immediate (R305). -/
def execFmulImm (d : BitVec 7) (a : BitVec 8) (imm : BitVec 8) (s : State) : Out :=
  viFloatWord (.fmulImm d a imm) d a imm false (fun x y _ => fMul .rn x y) s
/-- FMIN with an immediate (R305). -/
def execFminImm (d : BitVec 7) (a : BitVec 8) (imm : BitVec 8) (s : State) : Out :=
  viFloatWord (.fminImm d a imm) d a imm false (fun x y _ => fMin x y) s
/-- FMAX with an immediate (R305). -/
def execFmaxImm (d : BitVec 7) (a : BitVec 8) (imm : BitVec 8) (s : State) : Out :=
  viFloatWord (.fmaxImm d a imm) d a imm false (fun x y _ => fMax x y) s
/-- FFMA by an immediate (R305). -/
def execFfmaImm (d : BitVec 7) (a : BitVec 8) (imm : BitVec 8) (s : State) : Out :=
  viFloatWord (.ffmaImm d a imm) d a imm true (fun x y z => fFma .rn x y z) s

end Sys2Proof.Machine
end

