-- ==== Sys2Proof/Machine/Special.lean ====
section
/-!
DEFINITION. The special functions of R85, correctly rounded, and the random generator of R86.

A value that is no dyadic number is computed in fixed point with 400 fraction bits, and the bit below them is set to say
that something remains. No FP32 operand outside the exact cases brings its result within 2^-300 of a rounding boundary, so
the rounding of that approximation is the rounding of the value.
-/
namespace Sys2Proof.Machine

/-- Fraction bits of the fixed-point computations. -/
def fxBits : Nat := 400

/-- One in fixed point. -/
def fxOne : Nat := 2 ^ fxBits

/-- The exact value of an inexact fixed-point result: its bits and a set bit below them. -/
def sticky (neg : Bool) (x : Nat) : FVal := .fin neg (2 * x + 1) (-(fxBits : Int) - 1)

/-- Sum of t/1 + t·x/1 + ... for the exponential series: term, index and accumulator over fuel. -/
def expSeries (x : Nat) : Nat → Nat → Nat → Nat → Nat
  | 0, _, _, acc => acc
  | n + 1, k, t, acc =>
    let t' := t * x / 2 ^ fxBits / (k + 1)
    expSeries x n (k + 1) t' (acc + t')

/-- e^x in fixed point for 0 ≤ x < 1. -/
def fxExp (x : Nat) : Nat := expSeries x 100 0 fxOne fxOne

/-- 2·atanh series: y + y³/3 + y⁵/5 + ... . -/
def atanhSeries (y2 : Nat) : Nat → Nat → Nat → Nat → Nat
  | 0, _, _, acc => acc
  | n + 1, k, t, acc =>
    let t' := t * y2 / 2 ^ fxBits
    atanhSeries y2 n (k + 2) t' (acc + t' / (k + 2))

/-- The natural logarithm in fixed point of the ratio a/b, for 1 ≤ a/b < 2. -/
def fxLnRatio (a b : Nat) : Nat :=
  let y := (a - b) * fxOne / (a + b)
  2 * atanhSeries (y * y / 2 ^ fxBits) 150 1 y y

/-- ln 2 in fixed point. -/
def fxLn2 : Nat :=
  let y := fxOne / 3
  2 * atanhSeries (y * y / 2 ^ fxBits) 150 1 y y

/-- arctan(1/k) series in fixed point, signs alternating. -/
def atanInvSeries (k2 : Nat) : Nat → Nat → Nat → Bool → Int → Int
  | 0, _, _, _, acc => acc
  | n + 1, j, t, neg, acc =>
    let t' := t / k2
    let c : Int := t' / (j + 2)
    atanInvSeries k2 n (j + 2) t' (!neg) (if neg then acc - c else acc + c)

/-- arctan(1/k) in fixed point. -/
def fxAtanInv (k : Nat) : Int := atanInvSeries (k * k) 200 1 (fxOne / k) true (fxOne / k)

/-- π in fixed point, by Machin's formula. -/
def fxPi : Nat := (16 * fxAtanInv 5 - 4 * fxAtanInv 239).toNat

/-- Sine or cosine series in fixed point: terms x^k/k! with k rising by 2 and alternating signs. -/
def trigSeries (x2 : Nat) : Nat → Nat → Nat → Bool → Int → Int
  | 0, _, _, _, acc => acc
  | n + 1, k, t, neg, acc =>
    let t' := t * x2 / 2 ^ fxBits / ((k + 1) * (k + 2))
    trigSeries x2 n (k + 2) t' (!neg) (if neg then acc - t' else acc + t')

/-- sin x in fixed point for 0 ≤ x < 2. -/
def fxSin (x : Nat) : Nat := (trigSeries (x * x / 2 ^ fxBits) 60 1 x true x).toNat

/-- A finite non-negative value in fixed point; exact for every FP32 value below 2^32. -/
def toFx (m : Nat) (e : Int) : Nat := if e + fxBits ≥ 0 then m * 2 ^ (e + fxBits).toNat else m / 2 ^ (-(e + fxBits)).toNat

/-- EXP2 of R85. -/
def exp2F (x : FVal) : FVal :=
  match x with
  | .nan => .nan
  | .inf neg => if neg then .fin false 0 0 else .inf false
  | .fin neg m e =>
    if m = 0 then .fin false 1 0
    else if Nat.log2 m + e ≥ 8 then (if neg then .fin false 0 0 else .inf false)
    else
      let v : Int := if neg then -(toFx m e : Int) else toFx m e
      let n : Int := v / (fxOne : Int)
      let f : Nat := (v % (fxOne : Int)).toNat
      if n ≥ 128 then .inf false
      else if n < -150 ∨ (n = -150 ∧ f = 0) then .fin false 0 0
      else if f = 0 then .fin false 1 n
      else
        match sticky false (fxExp (f * fxLn2 / 2 ^ fxBits)) with
        | .fin s m' e' => .fin s m' (e' + n)
        | y => y

/-- LOG2 of R85. -/
def log2F (x : FVal) : FVal :=
  match x with
  | .nan => .nan
  | .inf neg => if neg then .nan else .inf false
  | .fin neg m e =>
    if m = 0 then .inf true
    else if neg then .nan
    else
      let k := Nat.log2 m
      if m = 2 ^ k then ofIntF (k + e)
      else
        let frac : Int := fxLnRatio m (2 ^ k) * fxOne / fxLn2
        let v : Int := (k + e) * (fxOne : Int) + frac
        sticky (decide (v < 0)) (if v < 0 then (-v - 1).toNat else v.toNat)

/-- RCP of R85. -/
def rcpF (x : FVal) : FVal :=
  match x with
  | .nan => .nan
  | .inf neg => .fin neg 0 0
  | .fin neg m e =>
    if m = 0 then .inf neg
    else
      let q := 2 ^ 100 / m
      if q * m = 2 ^ 100 then .fin neg q (-100 - e) else .fin neg (2 * q + 1) (-101 - e)

/-- Square root of m × 2^e with at least 60 bits, and a set bit below them where it is not exact. -/
def sqrtMag (m : Nat) (e : Int) : Nat × Int :=
  let odd := e % 2 ≠ 0
  let m' := (if odd then 2 * m else m) * 2 ^ 120
  let e' := (if odd then e - 1 else e) - 120
  let r := Nat.sqrt m'
  if r * r = m' then (r, e' / 2) else (2 * r + 1, e' / 2 - 1)

/-- SQRT of R85. -/
def sqrtF (x : FVal) : FVal :=
  match x with
  | .nan => .nan
  | .inf neg => if neg then .nan else .inf false
  | .fin neg m e =>
    if m = 0 then .fin neg 0 0
    else if neg then .nan
    else let r := sqrtMag m e; .fin false r.1 r.2

/-- RSQRT of R85: 1/sqrt(x) is sqrt(1/x), computed on 2^300/m with the remainder kept. -/
def rsqrtF (x : FVal) : FVal :=
  match x with
  | .nan => .nan
  | .inf neg => if neg then .nan else .fin false 0 0
  | .fin neg m e =>
    if m = 0 then .inf neg
    else if neg then .nan
    else
      let odd := e % 2 ≠ 0
      let m' := if odd then 2 * m else m
      let e' := if odd then e - 1 else e
      let q := 2 ^ 300 / m'
      let r := Nat.sqrt q
      if q * m' = 2 ^ 300 ∧ r * r = q then .fin false r (-150 - e' / 2)
      else .fin false (2 * r + 1) (-151 - e' / 2)

/-- sin(π r) for r in [0, 1/2] in fixed point, exact at 0 and 1/2. -/
def sinPiFx (neg : Bool) (r : Nat) : FVal :=
  if r = 0 then .fin neg 0 0
  else if 2 * r = fxOne then .fin neg 1 0
  else sticky neg (fxSin (r * fxPi / 2 ^ fxBits))

/-- SINPI of R85. -/
def sinpiF (x : FVal) : FVal :=
  match x with
  | .nan => .nan
  | .inf _ => .nan
  | .fin neg m e =>
    if m = 0 ∨ e ≥ 0 then .fin neg 0 0
    else
      let v := toFx m e % (2 * fxOne)
      let second := v ≥ fxOne
      let r := if second then v - fxOne else v
      if r = 0 then .fin neg 0 0
      else sinPiFx (neg != second) (if 2 * r > fxOne then fxOne - r else r)

/-- COSPI of R85. -/
def cospiF (x : FVal) : FVal :=
  match x with
  | .nan => .nan
  | .inf _ => .nan
  | .fin _ m e =>
    if m = 0 then .fin false 1 0
    else
      let v := if e ≥ 1 then 0 else toFx m e % (2 * fxOne)
      let w := if v > fxOne then 2 * fxOne - v else v
      if 2 * w = fxOne then .fin false 0 0
      else if 2 * w < fxOne then
        (if w = 0 then .fin false 1 0 else sinPiFxCos false w)
      else (if w = fxOne then .fin true 1 0 else sinPiFxCos true (fxOne - w))
where
  /-- cos(π w) for w in (0, 1/2) as sin(π (1/2 - w)). -/
  sinPiFxCos (neg : Bool) (w : Nat) : FVal := sinPiFx neg (fxOne / 2 - w)

/-- One round of the generator of R86. -/
def rngRounds (k0 k1 : Nat) : Nat → Nat → Nat → Nat → Nat → Nat → Nat
  | 0, _, a, _, c, _ => Nat.xor a c
  | n + 1, q, a, b, c, d =>
    let a := (a + b + k0 + q) % 2 ^ 32
    let d := rotl32 (Nat.xor d a) 16
    let c := (c + d + k1) % 2 ^ 32
    let b := rotl32 (Nat.xor b c) 12
    let a := (a + b) % 2 ^ 32
    let d := rotl32 (Nat.xor d a) 8
    let c := (c + d) % 2 ^ 32
    let b := rotl32 (Nat.xor b c) 7
    rngRounds k0 k1 n (q + 1) a b c d

/-- rng_word(C, K, x) of R86. -/
def rngWord (c : BitVec 128) (k : DWord) (x : Nat) : Word :=
  let n := c.toNat
  BitVec.ofNat 32 (rngRounds (bits64 k 31 0) (bits64 k 63 32) 8 0 (bitsN n 31 0) (bitsN n 63 32)
    (Nat.xor (bitsN n 95 64) (x % 2 ^ 32)) (bitsN n 127 96))

end Sys2Proof.Machine
end

