-- ==== Sys2Proof/Machine/Convert.lean ====
section
/-!
DEFINITION. The words of major 0x6: conversions (R297 to R299), special functions (R293) and the random generator (R352,
R353).
-/
namespace Sys2Proof.Machine

/-! ### Formats (R297) -/

/-- The floating-point format of a format code. -/
def fmtOf (t : Nat) : Option Fmt :=
  match t with
  | 0 => some fp32 | 1 => some fp16 | 2 => some bf16 | 3 => some fpE5M2 | 4 => some fpE4M3 | 5 => some fpE2M1 | _ => none

/-- The width in bits of a format code. -/
def widthOf (t : Nat) : Nat :=
  match t with
  | 0 => 32 | 1 => 16 | 2 => 16 | 3 => 8 | 4 => 8 | 5 => 4 | 6 => 8 | 7 => 8 | 8 => 16 | 9 => 16 | 10 => 32 | 11 => 32
  | _ => 64

/-- Whether an integer format code is signed. -/
def signedOf (t : Nat) : Bool := t == 6 || t == 8 || t == 10 || t == 12

/-- A value to convert: a number in floating point, or an integer. -/
inductive CvtVal where
  | flt (x : FVal)
  | int (x : Int)
deriving DecidableEq, Repr

/-- The operand form before the word, or zero fields. -/
def operOr (c : GCtx) : Oper := (operHint c.cl.hints).getD { el := 0, sat := false, rm := 0, pc := 0, sc := 0 }

/-- The scale of an E2M1 conversion in a lane (R298). -/
def scaleOf (s : State) (c : GCtx) (l : Nat) : Nat := (srcLane s c (operOr c).sc l).toNat % 256

/-- The source element of a lane (R297, R298). -/
def cvtSource (s : State) (c : GCtx) (sf : Nat) (a : Nat) (l : Nat) : CvtVal :=
  let w := widthOf sf
  let raw : Nat :=
    if w = 64 then (addrLane c a l).toNat
    else (srcLane s c a l).toNat / 2 ^ (w * ((operOr c).el % (32 / w))) % 2 ^ w
  match fmtOf sf with
  | none => .int (if signedOf sf then sextN w raw else raw)
  | some f =>
    let x := if isInline a then decodeF f (roundF f .rn (ofIntF ((a : Int) - 224))) else decodeF f raw
    if sf = 5 then
      let sc := scaleOf s c l
      if sc = 255 then .flt .nan
      else match x with
        | .fin neg m e => .flt (.fin neg m (e + (sc : Int) - 127))
        | y => .flt y
    else .flt x

/-- The range of an integer format. -/
def intRange (t : Nat) : Int × Int :=
  let w := widthOf t
  if signedOf t then (-(2 ^ (w - 1)), 2 ^ (w - 1) - 1) else (0, 2 ^ w - 1)

/-- A floating-point value converted to an integer format (R82, R297). -/
def floatToInt (t : Nat) (m : RMode) : FVal → Int
  | .nan => 0
  | .inf neg => if neg then (intRange t).1 else (intRange t).2
  | .fin neg mant e => satInt (roundInt m neg mant e) (intRange t).1 (intRange t).2

/-- How a conversion rounds to a floating-point format: in a mode, or stochastically with a random word (R83, R299). -/
inductive Rounding where
  | mode (m : RMode) (sat : Bool)
  | stoch (u : Nat)
deriving DecidableEq, Repr

/-- A value rounded to a floating-point format. -/
def roundBy (f : Fmt) (r : Rounding) (x : FVal) : Nat :=
  match r with
  | .mode m sat => if sat then roundSat f m x else roundF f m x
  | .stoch u => roundSr f u x

/-- The value as floating point, exactly. -/
def CvtVal.toF : CvtVal → FVal
  | .flt x => x
  | .int x => ofIntF x

/-- The bits that a conversion to any format but E2M1 gives (R297). -/
def cvtResult (t : Nat) (r : Rounding) (x : CvtVal) : Nat :=
  match fmtOf t with
  | some f => roundBy f r x.toF
  | none =>
    let m := match r with
      | .mode m _ => m
      | .stoch _ => .rn
    let sat := match r with
      | .mode _ s => s
      | .stoch _ => false
    match x with
    | .flt y => wrapN (widthOf t) (floatToInt t m y)
    | .int y => wrapN (widthOf t) (if sat then satInt y (intRange t).1 (intRange t).2 else y)

/-- The element that a conversion to E2M1 writes under a scale (R298). -/
def cvtE2m1 (r : Rounding) (scale : Nat) (x : CvtVal) : Nat :=
  if scale = 255 then 0
  else match x.toF with
    | .nan => 0
    | .fin neg m e => roundBy fpE2M1 r (.fin neg m (e + 127 - (scale : Int)))
    | y => roundBy fpE2M1 r y

/-- A word with its element EL replaced (R297). -/
def putElement (w el : Nat) (old : Word) (y : Nat) : Word :=
  let sh := w * (el % (32 / w))
  let m : Word := BitVec.ofNat 32 (2 ^ w - 1) <<< sh
  (old &&& ~~~m) ||| (BitVec.ofNat 32 (y % 2 ^ w) <<< sh)

/-- What R267 needs of a conversion (R297, R298). -/
def cvtInfo (c : GCtx) (t : BitVec 4) (d : BitVec 7) (a : BitVec 8) (sf : BitVec 4) (fieldsOk : Bool) : WordInfo :=
  let v := c.tm.vregs
  let t' := t.toNat
  let s' := sf.toNat
  let scaled := t' == 5 || s' == 5
  let sc := (operOr c).sc
  let scCode : Bool := (operHint c.cl.hints).isSome && srcOk v sc && (t' != 5 || decide (sc < 120))
  { plainInfo with
    accepts := acceptsOper
    legal := decide (t' < 14) && decide (s' < 14) && !(t' == 5 && s' == 5) && fieldsOk &&
      operLegal c { rm := true, sat := true, el := true, pc := false, sc := scaled } false &&
      (!scaled || scCode) &&
      (if widthOf s' == 64 then addrOk v a.toNat else srcOk v a.toNat) &&
      (if widthOf t' == 64 then pairOk v d.toNat
       else dstOk v d.toNat && (widthOf t' == 32 || d != 120))
    count := max (if widthOf s' == 64 then 0 else srcCount a.toNat) (if scaled then srcCount sc else 0)
    reads := (if widthOf s' == 64 then
        (match gCode a.toNat with
          | some n => [.g n]
          | none => [.v a.toNat, .v (a.toNat + 1)])
      else srcRegs a.toNat) ++ (if scaled then srcRegs sc else []) ++
      (if decide (widthOf t' < 32) then dstRegs d.toNat else [])
    writes := (if widthOf t' == 64 then [.v d.toNat, .v (d.toNat + 1)] else dstRegs d.toNat) ++
      if t' == 5 then dstRegs sc else [] }

/-- The effect of a conversion, with the rounding of each lane. -/
def cvtRun (t : BitVec 4) (d : BitVec 7) (a : BitVec 8) (sf : BitVec 4) (r : GCtx → Nat → Rounding) (c : GCtx) (s : State) :
    State :=
  let t' := t.toNat
  let x (l : Nat) : CvtVal := cvtSource s c sf.toNat a.toNat l
  let el := (operOr c).el
  let m := writeLanes c
  if t' = 5 then
    let sc := (operOr c).sc
    let new := mkLanes fun l => putElement 4 el (srcLane s c d.toNat l) (cvtE2m1 (r c l) (scaleOf s c l) (x l))
    let bad := maskOf fun l => inMask m l && isNanF (x l).toF
    modGang s c.t c.g fun gg =>
      let gg := writeDst gg d.toNat m new
      let old := if sc ≤ 111 then vReg gg sc else oReg gg (sc - 112)
      writeDst gg sc bad (mkLanes fun l => laneOf old l ||| 0xFF)
  else if widthOf t' = 64 then
    let y (l : Nat) : Nat := cvtResult t' (r c l) (x l)
    writePair s c d.toNat m (mkLanes fun l => BitVec.ofNat 32 (y l)) (mkLanes fun l => BitVec.ofNat 32 (y l / 2 ^ 32))
  else
    writeResult s c d.toNat m (mkLanes fun l =>
      let y := cvtResult t' (r c l) (x l)
      if widthOf t' = 32 then BitVec.ofNat 32 y else putElement (widthOf t') el (srcLane s c d.toNat l) y)

/-- CVT (R297, R298). -/
def execCvt (t : BitVec 4) (d : BitVec 7) (a : BitVec 8) (sf : BitVec 4) (s : State) : Out :=
  gangOnly (.cvt t d a sf) (fun c => cvtInfo c t d a sf true)
    (fun c s => .done (cvtRun t d a sf (fun c _ => .mode (roundingMode c) (operOr c).sat) c s)) s

/-- The key of a gang's generator (R86). -/
def rngKey (s : State) (c : GCtx) : DWord :=
  launchField s c.tm 0 (·.seed) ^^^ BitVec.ofNat 64 (c.g + c.tm.tid * 2 ^ 32)

/-- The word that lane l and element j draw (R86). -/
def rngLane (s : State) (c : GCtx) (j l : Nat) : Word := rngWord c.gg.rng (rngKey s c) (l + 64 * j)

/-- Advances the generator counter after an execution with an active lane (R87). -/
def rngAdvance (s : State) (c : GCtx) : State :=
  if c.act = 0 then s else modGang s c.t c.g fun gg => { gg with rng := gg.rng + 1 }

/-- CVTSR (R299). -/
def execCvtsr (t : BitVec 4) (d : BitVec 7) (a : BitVec 8) (sf : BitVec 4) (s : State) : Out :=
  gangOnly (.cvtsr t d a sf)
    (fun c => cvtInfo c t d a sf (sf == 0 && decide (1 ≤ t.toNat) && decide (t.toNat ≤ 5) && (operOr c).rm == 0 &&
      !(operOr c).sat))
    (fun c s =>
      .done (rngAdvance (cvtRun t d a sf (fun c l => .stoch (rngLane s c ((operOr c).el % 4) l).toNat) c s) c)) s

/-! ### Special functions (R85, R293) -/

/-- A special function of one FP32 source, rounded to nearest even. -/
def specialWord (i : Instr) (d : BitVec 7) (a : BitVec 8) (f : FVal → FVal) (s : State) : Out :=
  v3Word i useNone d a none false (fun s c l => toF32 .rn (f (f32 (srcF32 s c a.toNat l)))) s

/-- EXP2 (R293). -/
def execExp2 (d : BitVec 7) (a : BitVec 8) (s : State) : Out := specialWord (.exp2 d a) d a exp2F s
/-- LOG2 (R293). -/
def execLog2 (d : BitVec 7) (a : BitVec 8) (s : State) : Out := specialWord (.log2 d a) d a log2F s
/-- RCP (R293). -/
def execRcp (d : BitVec 7) (a : BitVec 8) (s : State) : Out := specialWord (.rcp d a) d a rcpF s
/-- RSQRT (R293). -/
def execRsqrt (d : BitVec 7) (a : BitVec 8) (s : State) : Out := specialWord (.rsqrt d a) d a rsqrtF s
/-- SQRT, in the selected mode (R293). -/
def execSqrt (d : BitVec 7) (a : BitVec 8) (s : State) : Out :=
  v3Word (.sqrt d a) useRm d a none false (fun s c l => toF32 (roundingMode c) (sqrtF (f32 (srcF32 s c a.toNat l)))) s
/-- SINPI (R293). -/
def execSinpi (d : BitVec 7) (a : BitVec 8) (s : State) : Out := specialWord (.sinpi d a) d a sinpiF s
/-- COSPI (R293). -/
def execCospi (d : BitVec 7) (a : BitVec 8) (s : State) : Out := specialWord (.cospi d a) d a cospiF s

/-! ### The random generator (R86, R87, R352, R353) -/

/-- RNG (R352). With no active lane it draws nothing; the count rises and the tag clears as for any word (log 17). -/
def execRng (d : BitVec 7) (j : BitVec 2) (s : State) : Out :=
  gangOnly (.rng d j)
    (fun c => { plainInfo with
      accepts := acceptsOper, legal := dstOk c.tm.vregs d.toNat && operLegal c useNone false, writes := dstRegs d.toNat })
    (fun c s =>
      .done (rngAdvance (writeResult s c d.toNat (writeLanes c) (mkLanes (rngLane s c j.toNat))) c)) s

/-- RNGSAVE (R353). -/
def execRngsave (d : BitVec 5) (s : State) : Out :=
  gangOnly (.rngsave d)
    (fun c => { plainInfo with
      accepts := acceptsOper, legal := d.toNat % 2 == 0 && operLegal c useNone false
      writes := [.g d.toNat, .g (d.toNat + 1)] })
    (fun c s =>
      .done (if c.act = 0 then s
        else writeG (writeG s c d.toNat (c.gg.rng.truncate 64)) c (d.toNat + 1) ((c.gg.rng >>> 64).truncate 64))) s

/-- RNGSET (R353). -/
def execRngset (a : BitVec 8) (s : State) : Out :=
  gangOnly (.rngset a)
    (fun c => { plainInfo with
      accepts := acceptsOper, legal := (gCode a.toNat).isSome && a.toNat % 2 == 0 && operLegal c useNone false
      reads := srcRegs a.toNat ++ srcRegs (a.toNat + 1) })
    (fun c s =>
      .done (if c.act = 0 then s
        else modGang s c.t c.g fun gg => { gg with
          rng := BitVec.ofNat 128 ((gReg c.gg (a.toNat - 128)).toNat + (gReg c.gg (a.toNat - 127)).toNat * 2 ^ 64) })) s

end Sys2Proof.Machine
end

