-- ==== Sys2Proof/Machine/Engines.lean ====
section
/-!
DEFINITION. The engines (09 R158 to R167, R173): how an operation moves bytes, lands its scratchpad lines and completes; the
copies, plane copies, multicasts, gathers and scatters.
-/
namespace Sys2Proof.Machine

/-- A byte is still outside the resident window of a range that the residency unit serves (R126). -/
def stillAbsent (s : State) (asid va : Nat) : Bool :=
  match findRange s asid va with
  | some (_, e) => e.st != rsMigrating && entryOk s e && !residentAt e va && (asidDesc s asid).rsv
  | none => false

/-! ### What an engine reads and writes -/

/-- What the accesses of an operation need: its team, its ASID, its stream, its id, its class, the scratchpad lines that are PENDING
because of it, on which it does not wait, the policy and the KEEPN of its hints, and the line or element under way. -/
structure EngCtx where
  t : Nat
  tm : Team
  asid : Nat
  who : StreamName
  id : Nat
  cls : EngineClass
  own : List Nat
  policy : Nat := 0
  keepn : Nat := 16
  part : Nat := 0
deriving DecidableEq, Repr

/-- What an engine's read answers. -/
inductive ReadOut where
  /-- It waits: a fill tag, a partial residency, a move, a peer. -/
  | held
  | got (bs : List EByte) (rs : List Report)
deriving DecidableEq, Repr

/-- A read of two parts. -/
def joinReads : ReadOut → ReadOut → ReadOut
  | .got a x, .got b y => .got (a ++ b) (x ++ y)
  | _, _ => .held

/-- The report of a failed engine access (R159). -/
def engineFault (cls : EngineClass) (c : Cause) (va : Nat) : Report :=
  { cause := c, addr := BitVec.ofNat 64 va, cls := some cls, batch := none }

/-- Whether the gather unit of a stack serves an element at an address (R114). -/
def gathered (s : State) (e : EngCtx) (va : Nat) : Bool :=
  e.cls == .ga && (match findRange s e.asid va with
    | some (_, r) => r.gth && isFast (r.pbase + (va - r.base))
    | none => false)

/-- The report of a failed access of an operation: of class LK through a peer window, of class LS at a device range, else of the
operation's class (R118, R135, R239). -/
def pieceFault (s : State) (e : EngCtx) (c : Cause) (va : Nat) : Report :=
  engineFault (if classAt s e.asid va = .lk then .lk else if inDevice s e.asid va then .ls else e.cls) c va

/-- Where an operation's element at an address is read (R107, R114, R135). -/
def readPath (s : State) (e : EngCtx) (va : Nat) : EnginePath := if gathered s e va then .dram else .second

/-- The requirements of an engine access (R123, R135, R147). -/
def engReq (s : State) (e : EngCtx) (a : Access) (va : Nat) : Req :=
  { asid := e.asid, acc := a, agent := agentId e.tm e.who, core := none, path := readPath s e va
    race := raceMode s e.tm && !gathered s e va }

/-- The sender of an engine's peer requests; an element's own are told apart by its number. -/
def engSender (e : EngCtx) (k : Option Nat := none) : Sender :=
  { lid := e.tm.lid, tid := e.tm.tid, who := e.who, lane := k, op := some e.id }

/-- Drops an answered read once its bytes have been taken. -/
def dropRead (s : State) (e : EngCtx) (va : Nat) : State :=
  { s with peers := s.peers.filter fun r =>
      !(r.lid == e.tm.lid && r.tid == e.tm.tid && r.op == some e.id && r.returning && r.va == BitVec.ofNat 64 va &&
        r.answer.isSome && (match r.kind with
          | .read _ => true
          | _ => false)) }

/-- How an engine's access to a piece installs its sector at the second level, as the policy of its hints has it (R110, R135); a plane
copy's lines in a PLANE range carry their record, and its planes beyond KEEPN go as STREAM (R100, R101, R163, R266). -/
def engInstall (s : State) (e : EngCtx) (x : Option PlaneTag) (p : Piece) : Install :=
  let how (plane : Nat) : Install := { policyInstall (if e.keepn < plane then 1 else e.policy) with l1 := false }
  match x with
  | none => if p.plane then .never else how 0
  | some x =>
    if !p.plane then how x.plane
    else match findRange s e.asid x.expVa with
      | some (_, r) =>
        let group := if x.plane = 0 then 0 else x.block / 16 % 8
        { how x.plane with planeRec := some { plane := x.plane, expLine := (r.pbase + (x.expVa - r.base)) / 128, group := group } }
      | none => .never

/-- What an access that waits leaves: a partial-residency fault holds its part of the operation and starts a widening (R126), and the
part that a MIGRATING range holds is replayed in its stream's order (R132). -/
def holdPart (s : State) (e : EngCtx) (w : Wait) : State :=
  let note (f : EngineOp → EngineOp) : State := modTeam s e.t fun tm =>
    { tm with eops := tm.eops.map fun o => if o.id == e.id then f o else o }
  match w with
  | .migrating _ => note fun o => { o with held := setAdd o.held e.part }
  | .residency va => startWiden (note fun o => { o with faulted := setAdd o.faulted e.part }) e.asid va
  | _ => s

/-- What a gather unit's read does first: the sums of the words that it touches reach DRAM (R114, R155). -/
def openGather (s : State) (p : Piece) (pa : Nat) : State :=
  let s' := openPieces s [p]
  if anySum s pa (pa + p.len) then cleanL2 s' fun c => c.sector == sectorOf pa else s'

/-- Reads one piece of global memory (R123, R160, R241). What the second level serves it keeps. -/
def readPiece (e : EngCtx) (x : Option PlaneTag) (va len : Nat) (s : State) : State × ReadOut :=
  let found := checkPiece s (engReq s e .read va) va len
  let s := touchLook s e.tm.core e.asid va
  match found with
  | .bad c _ => (s, .got (List.replicate len .failed) [pieceFault s e c va])
  | .park w => (holdPart s e w, .held)
  | .ok ps =>
    match ps.head? with
    | none => (s, .got [] [])
    | some p =>
      match p.place with
      | .mem pa _ =>
        let read (s : State) (path : EnginePath) : ReadOut :=
          .got ((((pathSector s path (sectorOf pa)).1.drop (pa % 32)).take len).map .val) []
        if gathered s e va then
          let s := openGather s p pa
          (s, read s .dram)
        else
          let s := openPieces s [p]
          (l2Fill s (sectorOf pa) (engInstall s e x p), read s .second)
      | .dev pa => (s, .got ((devBytes s pa len).map .val) [])
      | .peer w pa =>
        match askPeer s (engSender e) p w pa (.read len) with
        | (s, .waiting _) => (s, .held)
        | (s, .full) => (s, .held)
        | (s, .got true d) => (s, .got (d.map .val) [])
        | (s, .got false _) => (s, .got (List.replicate len .failed) [engineFault .lk .poison va])

/-- Reads global memory. -/
def readSpan (e : EngCtx) (x : Option PlaneTag) (va len : Nat) (s : State) : State × ReadOut :=
  (cut va len (len / 32 + 2)).foldl (fun y p =>
    let (s, r) := readPiece e x p.1 p.2 y.1
    (s, joinReads y.2 r)) (s, .got [] [])

/-- Reads scratchpad, waiting on fill tags as a gang load does (R160). -/
def readScratch (e : EngCtx) (tm : Team) (a len : Nat) : ReadOut :=
  if (linesOf a len).any fun l => (fillTag tm l == tagEmpty || fillTag tm l == tagPending) && !e.own.contains l then .held
  else .got ((List.range len).map fun k =>
    if fillTag tm ((a + k) / 128) == tagFaulted then .poisoned (scratchByte tm (a + k)) else .val (scratchByte tm (a + k))) []

/-- Reads either side. -/
def readSide (e : EngCtx) (loc : Bool) (x : Option PlaneTag) (a len : Nat) (s : State) : State × ReadOut :=
  if loc then (s, readScratch e ((listAt s.teams e.t).getD e.tm) a len) else readSpan e x a len s

/-- What some moves will write: memory bytes in order, with how each sector installs; bytes that a gather unit writes to DRAM; sectors
written poisoned; scratchpad bytes, scratchpad lines that depend on a failure, bytes for a peer (window, physical address, virtual
address), reports, and whether a move waits. -/
structure EngOut where
  held : Bool
  mem : List (Nat × Byte)
  hows : List (Nat × Install)
  dram : List (Nat × Byte)
  poisons : List Nat
  scratch : List (Nat × Byte)
  bad : List Nat
  peer : List (Nat × Nat × Nat × Byte)
  reports : List Report
deriving DecidableEq, Repr

/-- Nothing. -/
def noOut : EngOut :=
  { held := false, mem := [], hows := [], dram := [], poisons := [], scratch := [], bad := [], peer := [], reports := [] }

/-- The value of a byte that was read. -/
def EByte.value : EByte → Option Byte
  | .val b => some b
  | .poisoned b => some b
  | .failed => none

/-- Whether a byte that was read is good. -/
def EByte.good : EByte → Bool
  | .val _ => true
  | _ => false

/-- The bytes with a value, at their addresses. -/
def placed (a : Nat) (bs : List EByte) : List (Nat × Byte) :=
  bs.zipIdx.filterMap fun x => x.1.value.map fun b => (a + x.2, b)

/-- Prepares the write of a piece of global memory: bytes that failed to be read are not written (R159, R123). -/
def writePiece (e : EngCtx) (x : Option PlaneTag) (va : Nat) (bs : List EByte) (y : State × EngOut) : State × EngOut :=
  let (s, o) := y
  let found := checkPiece s (engReq s e .write va) va bs.length
  let s := touchLook s e.tm.core e.asid va
  match found with
  | .bad c _ => (s, { o with reports := o.reports ++ [pieceFault s e c va] })
  | .park w => (holdPart s e w, { o with held := true })
  | .ok ps =>
    match ps.head? with
    | none => (s, o)
    | some p =>
      match p.place with
      | .mem pa _ =>
        let o := if bs.any fun b => !b.good && b != .failed then { o with poisons := o.poisons ++ [sectorOf pa] } else o
        let o := if gathered s e va then { o with dram := o.dram ++ placed pa bs }
          else { o with mem := o.mem ++ placed pa bs, hows := (sectorOf pa, engInstall s e x p) :: o.hows }
        (openPieces s [p], o)
      | .dev _ => (s, o)
      | .peer w pa =>
        (s, { o with peer := o.peer ++ bs.zipIdx.filterMap fun b => b.1.value.map fun v => (w, pa + b.2, va + b.2, v) })

/-- Prepares a write to either side. -/
def writeSide (e : EngCtx) (loc : Bool) (x : Option PlaneTag) (a : Nat) (bs : List EByte) (y : State × EngOut) : State × EngOut :=
  if loc then
    let bad := (bs.zipIdx.filter fun b => !b.1.good).map fun b => (a + b.2) / 128
    (y.1, { y.2 with scratch := y.2.scratch ++ placed a bs, bad := bad.foldl setAdd y.2.bad })
  else
    (cut a bs.length (bs.length / 32 + 2)).foldl (fun y p => writePiece e x p.1 ((bs.drop (p.1 - a)).take p.2) y) y

/-! ### Moves -/

/-- Performs the reads of some moves and prepares their writes. -/
def runMoves (e : EngCtx) (ms : List Move) (s : State) : State × EngOut :=
  ms.foldl (fun x m =>
    match readSide e m.sloc m.stag m.src m.len x.1 with
    | (s, .held) => (s, { x.2 with held := true })
    | (s, .got bs rs) => writeSide e m.dloc m.dtag m.dst bs (s, { x.2 with reports := x.2.reports ++ rs })) (s, noOut)

/-- The blocks of so many bytes that some peer bytes touch, in the order of their first bytes: window, and the numbers of the block in
physical and in virtual addresses. -/
def peerBlocks (size : Nat) (l : List (Nat × Nat × Nat × Byte)) : List (Nat × Nat × Nat) :=
  (l.map fun x => (x.1, x.2.1 / size, x.2.2.1 / size)).eraseDups

/-- Groups peer bytes by sector (R109, R239); a later byte stands over an earlier one. -/
def sectorBursts (l : List (Nat × Nat × Nat × Byte)) : List PeerBurst :=
  (peerBlocks 32 l).map fun k =>
    let (lo, kind) := sectorStore (l.filterMap fun x =>
      if x.1 = k.1 ∧ x.2.1 / 32 = k.2.1 then some (x.2.1 % 32, x.2.2.2) else none)
    { window := k.1, pa := 32 * k.2.1 + lo, va := 32 * k.2.2 + lo, kind := kind, message := false }

/-- Groups peer bytes into whole 128-byte messages (R242); bytes that the operation does not write are free. R242 names a COPY, and the
model does the same for any engine operation that writes to a message window, a SCATTER among them (DESIGN CHOICE, log 96). -/
def messageBursts (s : State) (l : List (Nat × Nat × Nat × Byte)) : List PeerBurst :=
  (peerBlocks 128 l).map fun k =>
    { window := k.1, pa := 128 * k.2.1, va := 128 * k.2.2, message := true
      kind := .write ((List.range 128).map fun n =>
        match (l.filter fun x => x.2.2.1 == 128 * k.2.2 + n).getLast? with
        | some x => x.2.2.2
        | none => BitVec.ofNat 8 (Config.freeValue (s.freeCtr + n)).toNat) }

/-- The requests that an engine's peer writes make: messages where the window says so, else one for each sector. -/
def engineBursts (s : State) (l : List (Nat × Nat × Nat × Byte)) : List PeerBurst :=
  let isMsg (x : Nat × Nat × Nat × Byte) : Bool := (peerWindow s x.1).msg
  messageBursts s (l.filter isMsg) ++ sectorBursts (l.filter fun x => !isMsg x)

/-- Sends an engine's peer write, which is awaited (R159, R239). A window with no port in service fails at once (R241). -/
def sendEngine (x : Sender) (y : State × List Report) (r : PeerBurst) : State × List Report :=
  match portFor y.1 r.window r.pa with
  | none => (y.1, y.2 ++ [engineFault .lk .engineError r.va])
  | some port => (sendPeer y.1 x port r.window r.pa r.va r.kind true r.message, y.2)

/-- The free bytes of messages have been used. -/
def useFiller (s : State) (rs : List PeerBurst) : State :=
  if rs.any (·.message) then { s with freeCtr := s.freeCtr + 128 } else s

/-- Sends all of an engine's peer writes. -/
def sendAll (x : Sender) (l : List (Nat × Nat × Nat × Byte)) (s : State) : State × List Report :=
  let rs := engineBursts s l
  rs.foldl (sendEngine x) (useFiller s rs, [])

/-- The ports have room for all of an engine's peer writes (R245). -/
def burstsFit (s : State) (l : List (Nat × Nat × Nat × Byte)) : Bool :=
  hasRoom s ((engineBursts s l).map fun r => (r.window, r.pa))

/-- A port has room for a request, or none in service will take it (R241, R245). -/
def burstGoes (s : State) (r : PeerBurst) : Bool :=
  match portFor s r.window r.pa with
  | none => true
  | some port => portRoom s port != 0

/-- Sends queued peer writes in order as far as the ports have room (R245); the rest stays. -/
def sendQueued (x : Sender) : List PeerBurst → State × List Report → (State × List Report) × List PeerBurst
  | [], y => (y, [])
  | r :: rs, y => if burstGoes y.1 r then sendQueued x rs (sendEngine x y r) else (y, r :: rs)

/-- How prepared writes install a sector. -/
def EngOut.how (o : EngOut) (sector : Nat) : Install := ((o.hows.find? fun x => x.1 == sector).map (·.2)).getD .below

/-- Writes prepared bytes to memory (R114, R115, R135): a copy's to the second-level cache, and through to DRAM in GTH ranges (R152); a
gather unit's to DRAM; another scatter's at the home slice, which takes the sector from every first-level cache. `whole` says which
sectors the operation has written whole. -/
def storeOut (e : EngCtx) (o : EngOut) (whole : Nat → Bool) (s : State) : State :=
  let mem := sectorsOf o.mem
  let s := if e.cls = .ga then mem.foldl (fun s sec => homeTake s homeHolder sec) s else s
  let s := l2Write s o.how whole o.mem
  let s := (sectorsOf o.dram).foldl (fun s sec => dramWriteSector s o.dram (whole sec) sec) s
  let s := o.poisons.foldl l2SetPoison s
  if mem.isEmpty then s else writeThrough s fun x => mem.contains x.sector

/-- Commits prepared writes: memory, scratchpad bytes, peer requests. A completed write to global memory is an escaped effect (R218). -/
def commitOut (e : EngCtx) (x : Sender) (o : EngOut) (whole : Nat → Bool) (s : State) : State × List Report :=
  let s := storeOut e o whole s
  let s := if o.mem.isEmpty && o.dram.isEmpty && o.peer.isEmpty then s else escape s e.t
  let s := modTeam s e.t fun tm => setScratch tm o.scratch
  let (s, rs) := sendAll x o.peer s
  (s, o.reports ++ rs)

/-- Sets the tags of scratchpad lines that an operation has finished (R105, R149). -/
def landLines (bad : Nat → Bool) (ls : List Nat) (tm : Team) : Team :=
  ls.foldl (fun tm l => if bad l then setFill tm l tagFaulted else setMark (setFill tm l tagFull) l 31) tm

/-- The first report of an operation stands (R159). -/
def addReports (op : EngineOp) (rs : List Report) : EngineOp := { op with report := op.report.orElse fun _ => rs.head? }

/-- The operation of an id in a team. -/
def engineOp (tm : Team) (id : Nat) : Option EngineOp := tm.eops.find? fun o => o.id == id

/-- Replaces an operation. -/
def putOp (s : State) (t : Nat) (op : EngineOp) : State :=
  modTeam s t fun tm => { tm with eops := tm.eops.map fun o => if o.id == op.id then op else o }

/-- An operation as it issues. -/
def newOp (id order : Nat) (who : StreamName) (flag : Option Nat) (kind : EngineKind) (lines : List Nat) : EngineOp :=
  { id := id, order := order, who := who, flag := flag, kind := kind, landed := [], pending := lines, bad := [], report := none,
    sent := [], wrote := [], fetched := [], delivered := [] }

/-- The class of an operation's accesses (R135). -/
def opClass : EngineKind → EngineClass
  | .gather _ => .ga
  | .scatter _ => .ga
  | _ => .cp

/-- The context of an operation, at one of its parts. -/
def engCtx (s : State) (t : Nat) (tm : Team) (op : EngineOp) (part : Nat := 0) : EngCtx :=
  { t := t, tm := tm, asid := asidOf s tm, who := op.who, id := op.id, cls := opClass op.kind, own := op.pending
    policy := op.policy, keepn := op.keepn, part := part }

/-- A part of an operation waits while a part `before` it is held, by a partial-residency fault or by a MIGRATING range (R126, R132), and
while a MIGRATING range has held a part of an operation that its stream issued earlier: these are replayed first (R132). -/
def replayWaits (tm : Team) (op : EngineOp) (before : Nat → Bool) : Bool :=
  op.faulted.any before || op.held.any before ||
    tm.eops.any fun o => o.who == op.who && decide (o.order < op.order) && o.held != []

/-- A part is tried: whether it faults or a range holds it will show again. -/
def tryPart (part : Nat) (op : EngineOp) : EngineOp :=
  { op with held := op.held.filter (· ≠ part), faulted := op.faulted.filter (· ≠ part) }

/-! ### Copies (R161, R162) -/

/-- The least and the greatest position of a dimension on a side (R162). -/
def dimSpan (d : CopyDesc) (k count : Nat) (side : Bool) : Nat × Nat :=
  if d.moddim = some k ∧ d.mside = side then
    if d.modbase + count ≤ d.modcnt then (d.modbase, d.modbase + count - 1) else (0, d.modcnt - 1)
  else (0, count - 1)

/-- The extent of a side: the lowest offset and the offset past the highest byte (R162). -/
def copyExtent (d : CopyDesc) (side : Bool) : Int × Int :=
  let base : Int := if side then d.src else d.dst
  let ends := d.dims.zipIdx.map fun x =>
    let (lo, hi) := dimSpan d x.2 x.1.count side
    let st := if side then x.1.sstride else x.1.dstride
    (min ((lo : Int) * st) ((hi : Int) * st), max ((lo : Int) * st) ((hi : Int) * st))
  (ends.foldl (fun a x => a + x.1) base, ends.foldl (fun a x => a + x.2) base + d.esize)

/-! ### Operations of whole lines: COPY, PCOPY, declared inputs (R161 to R163, R167) -/

/-- The scratchpad lines that some moves write, ascending. -/
def scratchLinesOf (ms : List Move) : List Nat :=
  (ms.filter (·.dloc)).foldl (fun m x => (linesOf x.dst x.len).foldl setAdd m) []

/-- Whether a line goes to a peer as a message (R242). -/
def messageLine (s : State) (asid : Nat) (op : EngineOp) (line : Nat) : Bool :=
  (lineMoves op line).any fun m => !m.dloc && (match findRange s asid m.dst with
    | some (_, r) =>
      let pa := r.pbase + (m.dst - r.base)
      (inPeerWindow pa (pa + 1)).any fun w => (peerWindow s w).msg
    | none => false)

/-- Whether a line of an operation has an access to a device range (R118). -/
def deviceLine (s : State) (asid : Nat) (op : EngineOp) (line : Nat) : Bool := (lineMoves op line).any (moveOnDevice s asid)

/-- Whether a line of an operation stands behind another access of its stream: messages go in loop order (R242), and so do the accesses
to device ranges, which come after those of the stream's earlier operations (R118). -/
def lineBehind (s : State) (tm : Team) (op : EngineOp) (line : Nat) : Bool :=
  let asid := asidOf s tm
  let before := (linesLeft op).takeWhile (· ≠ line)
  (messageLine s asid op line && before.any (messageLine s asid op)) ||
    (deviceLine s asid op line && (before.any (deviceLine s asid op) || deviceAhead s tm op.who (some op.order)))

/-! ### The slots of a skim store (R195, R196) -/

/-- Lines of a plane's run in a slot (R195). -/
def skimP (d : SkimDesc) : Nat := ceilDiv d.iblk 16

/-- The offset of the output lines in a slot (R196). -/
def skimOutput (d : SkimDesc) : Nat := 128 * (2 + (d.cpl + 1) * skimP d)

/-- A slot's header (R196). -/
structure SkimHeader where
  layer : Nat
  blk : Nat
  valid : Bool
  sm : Nat
  tag : Nat
deriving DecidableEq, Repr

/-- Reads a header from its line. -/
def readHeader (bs : List Byte) : SkimHeader :=
  let w0 := wordN bs 0
  { layer := bitsN w0 15 0, blk := bitsN w0 39 16, valid := bitN w0 40, sm := bitsN w0 44 41, tag := wordN bs 1 % 2 ^ 32 }

/-- Whether a header holds the entry that a SKIMCHK asks for (R199). -/
def SkimHeader.matches (h : SkimHeader) (key : SkimKey) (m : Nat) : Bool :=
  h.valid && h.layer == key.layer && h.blk == key.blk && h.sm == m

/-- Whether its step tag is near (R199). -/
def SkimHeader.near (h : SkimHeader) (step : Word) (dist : Nat) : Bool :=
  let gap := (step - BitVec.ofNat 32 h.tag).toNat
  decide (1 ≤ gap) && decide (gap ≤ dist)

/-- Skim is enabled in the team's launch (R204). -/
def skimOn (s : State) (tm : Team) : Bool := launchField s tm false (·.skim)

/-- The header that a skim operation would read now, where it can be read from local memory and is not poisoned. -/
def peekHeader (s : State) (asid : Nat) (st : SkimDesc) (key : SkimKey) : Option SkimHeader :=
  match translate s asid .read (skimSlotAddr st key) with
  | .at pa _ =>
    if Config.devLo ≤ pa ∨ (List.range 4).any (fun k => (l2Sector s (sectorOf pa + k)).2) then none
    else some (readHeader (memBytes s pa 128))
  | _ => none

/-- The physical address of the slot header that a skim operation names, where it can be translated. -/
def slotHome (s : State) (asid : Nat) (st : SkimDesc) (key : SkimKey) : Option Nat :=
  match translate s asid .read (skimSlotAddr st key) with
  | .at pa _ => some pa
  | _ => none

/-! ### The units (R126) -/

/-- The index of an element: waiting, unusable, or its address. -/
inductive ElemAddr where
  | waiting
  | fails (c : Cause) (addr : Nat)
  | at (va : Nat)
deriving DecidableEq, Repr

/-- Finds an element (R166, R313). -/
def elementAt (e : EngCtx) (tm : Team) (d : GatherDesc) (k : Nat) : ElemAddr :=
  let off := d.idxoff + k * indexSize d
  match readScratch e tm off (indexSize d) with
  | .held => .waiting
  | .got bs _ =>
    if bs.any fun b => !b.good then .fails .poison off
    else
      let va := elementAddr d (natOf (bs.filterMap (·.value)))
      if 2 ^ 56 ≤ va then .fails .noRange va else .at va

/-- The outer indices of team j of C. -/
def sliceOf (d : CopyDesc) (j c : Nat) : List Nat :=
  let lo := j * outerCount d / c
  let hi := (j + 1) * outerCount d / c
  (List.range (hi - lo)).map (· + lo)

/-- An operation issued earlier on the same unit holds a line or a burst that has faulted on a partial residency: the unit of a class is
that of the core (R126, log 86). -/
def unitBlocked (s : State) (tm : Team) (op : EngineOp) : Bool :=
  s.teams.any fun x => x.core == tm.core && resident x && x.eops.any fun o =>
    decide (o.order < op.order) && opClass o.kind == opClass op.kind && o.faulted != []

/-- Lands one destination line of an operation, where none of its accesses waits (R173: the unit of a copy). -/
def landLine (t : Nat) (id line : Nat) (s : State) : State :=
  match listAt s.teams t with
  | none => s
  | some tm =>
    match engineOp tm id with
    | none => s
    | some op =>
      let ms := lineMoves op line
      let before := ((linesLeft op).takeWhile (· ≠ line)).contains
      if op.landed.contains line ∨ ms.isEmpty ∨ lineBehind s tm op line ∨ unitBlocked s tm op ∨ replayWaits tm op before then s
      else
        let e := engCtx s t tm op line
        let op := tryPart line op
        match runMoves e ms (putOp s t op) with
        | (s, o) =>
          if o.held ∨ !burstsFit s o.peer then s
          else
            let (s, rs) := commitOut e (engSender e) o (fun _ => false) s
            let s := ms.foldl (fun s m => if m.sloc then s else (cut m.src m.len (m.len / 32 + 2)).foldl (fun s p => dropRead s e p.1) s) s
            let s := if op.pending.contains line then modTeam s t (landLines o.bad.contains [line]) else s
            putOp s t { addReports op rs with landed := op.landed ++ [line], pending := op.pending.filter (· ≠ line),
                                              bad := o.bad.foldl setAdd op.bad }

/-- Whether every line of an operation has landed. -/
def allLanded (op : EngineOp) : Bool := (moveLines (opMoves op.kind)).all op.landed.contains

/-! ### Gather and scatter (R165, R166, R313) -/

/-- What performing one element answers: whether it waits, and its writes and the reports of its failing pieces. -/
structure ElemOut where
  held : Bool
  /-- It waits on a fill tag of its own operands, and the elements after it wait with it. -/
  blocked : Bool
  out : EngOut
deriving DecidableEq, Repr

/-- An element that waits. -/
def elemHeld (blocked : Bool) : ElemOut := { held := true, blocked := blocked, out := noOut }

/-- An element that is performed. -/
def elemDone (out : EngOut) : ElemOut := { held := false, blocked := false, out := out }

/-- The report of the first failing piece in ascending address (R313). -/
def lowestReport (rs : List Report) : Option Report :=
  rs.foldl (fun m r => if m.any fun x => decide (x.addr ≤ r.addr) then m else some r) none

/-- An element of a GATHER: a failed one writes zero to all its bytes (R166). -/
def gatherElem (e : EngCtx) (d : GatherDesc) (k : Nat) (s : State) : State × ElemOut :=
  let n := elemSize d
  let dst := d.datoff + k * n
  let zero (rs : List Report) : ElemOut :=
    elemDone { noOut with scratch := (List.range n).map fun j => (dst + j, 0), reports := rs }
  match elementAt e ((listAt s.teams e.t).getD e.tm) d k with
  | .waiting => (s, elemHeld true)
  | .fails c a => (s, zero [engineFault .ga c a])
  | .at va =>
    match readSpan e none va n s with
    | (s, .held) => (s, elemHeld false)
    | (s, .got bs []) => (s, elemDone { noOut with scratch := placed dst bs })
    | (s, .got _ rs) => (s, zero rs)

/-- The peer writes of an element that have been sent. -/
def elemWrites (s : State) (e : EngCtx) (k : Nat) : List PeerRequest :=
  s.peers.filter fun r => r.lid == e.tm.lid && r.tid == e.tm.tid && r.op == some e.id && r.lane == some k

/-- A byte that a higher element has already written stays (R166). -/
def keepHigher (op : EngineOp) (k pa : Nat) : Bool := !(op.wrote.any fun x => x.1 == pa && decide (k < x.2))

/-- An element of a SCATTER (R166): one whose peer writes are out waits for their answers, and fails where one of them does (R241). -/
def scatterElem (e : EngCtx) (d : GatherDesc) (op : EngineOp) (k : Nat) (s : State) : State × ElemOut :=
  let n := elemSize d
  let tm := (listAt s.teams e.t).getD e.tm
  if op.sent.contains k then
    let rs := elemWrites s e k
    if rs.any fun r => r.answer.isNone then (s, elemHeld false)
    else
      let bad := rs.filter fun r => r.answer.any fun a => !a.1
      ({ s with peers := s.peers.filter fun r => !(elemWrites s e k).contains r },
        elemDone { noOut with reports := bad.map fun r => engineFault .lk .engineError r.va.toNat })
  else match elementAt e tm d k with
  | .waiting => (s, elemHeld true)
  | .fails c a => (s, elemDone { noOut with reports := [engineFault .ga c a] })
  | .at va =>
    match readScratch e tm (d.datoff + k * n) n with
    | .held => (s, elemHeld true)
    | .got bs _ =>
      let (s, o) := writeSide e false none va bs (s, noOut)
      let mem := o.mem.filter fun w => keepHigher op k w.1
      let dram := o.dram.filter fun w => keepHigher op k w.1
      let peer := o.peer.filter fun w => keepHigher op k w.2.1
      if o.held ∨ !burstsFit s peer then (s, elemHeld false)
      else
        (s, elemDone { o with mem := mem, dram := dram, peer := peer
                              poisons := o.poisons.filter fun sec => (mem ++ dram).any fun w => sectorOf w.1 == sec })

/-- The elements of a gather or scatter that write a byte of a scratchpad line. -/
def elemsOfLine (d : GatherDesc) (data : Bool) (line : Nat) : List Nat :=
  (List.range d.count).filter fun k =>
    (data && (linesOf (d.datoff + k * elemSize d) (elemSize d)).contains line) || (d.sten && (d.stoff + k) / 128 == line)

/-- The elements whose data begin in a 32-byte burst of the data area: the unit of a gather or scatter (R166, R173). -/
def elemsOfBurst (d : GatherDesc) (burst : Nat) : List Nat :=
  (List.range d.count).filter fun k => (d.datoff + k * elemSize d) / 32 == burst

/-- The sectors that the elements of an operation have written whole (R115), none of them from poisoned data (R116). -/
def wroteWhole (op : EngineOp) (sector : Nat) : Bool :=
  !op.tainted.contains sector && (List.range 32).all fun n => op.wrote.any fun x => x.1 == 32 * sector + n

/-- Commits one element, and counts it as performed, with its status byte, unless its peer writes are now out (R166, R313). An element
whose peer write fails takes the code of ENGINE_ERROR, 0x12 (R241), which R166 does not list (DESIGN CHOICE, log 97). -/
def landElem (t k : Nat) (d : GatherDesc) (isGather : Bool) (op : EngineOp) (e : EngCtx) (r : ElemOut) (s : State) : State :=
  let op := { op with
    wrote := op.wrote ++ (r.out.mem ++ r.out.dram).map (fun w => (w.1, k)) ++ r.out.peer.map fun w => (w.2.1, k)
    tainted := r.out.poisons.foldl setAdd op.tainted }
  let (s, rs) := commitOut e (engSender e (some k)) r.out (wroteWhole op) s
  let fail := lowestReport (((op.fails.filter fun x => x.1 == k).map (·.2)) ++ rs)
  let op := addReports op (if isGather && d.sten then [] else rs)
  if (elemWrites s e k).isEmpty then
    let code := (fail.map fun r => causeCode r.cause).getD 0
    let st : List (Nat × Byte) := if d.sten then [(d.stoff + k, BitVec.ofNat 8 code)] else []
    putOp (modTeam s t fun tm => setScratch tm st) t
      { op with landed := op.landed ++ [k], bad := if fail.isSome then op.bad ++ [k] else op.bad }
  else putOp s t { op with sent := op.sent ++ [k], fails := op.fails ++ fail.toList.map fun r => (k, r) }

/-- Whether an element at a device range stands behind another access of its stream to one (R118). -/
def elemBehind (s : State) (e : EngCtx) (d : GatherDesc) (op : EngineOp) (k : Nat) : Bool :=
  let here (j : Nat) : Bool := match elementAt e e.tm d j with
    | .at va => inDevice s e.asid va
    | _ => false
  here k && (deviceAhead s e.tm op.who (some op.order) || (List.range k).any fun j => !op.landed.contains j && here j)

/-- Performs the elements of a list that do not wait (R166), in ascending order. An element that a MIGRATING range has held waits for the
earlier ones held; the others proceed (R132, R133). -/
def runElems (t id : Nat) (d : GatherDesc) (isGather : Bool) : List Nat → State → State
  | [], s => s
  | k :: ks, s =>
    match listAt s.teams t with
    | none => s
    | some tm =>
      match engineOp tm id with
      | none => s
      | some op =>
        let e := engCtx s t tm op k
        if replayWaits tm op (fun x => decide (x < k) && op.held.contains k) ∨ elemBehind s e d op k then
          runElems t id d isGather ks s
        else
          let op := tryPart k op
          let s := putOp s t op
          match if isGather then gatherElem e d k s else scatterElem e d op k s with
          | (s, r) =>
            if r.held then (if r.blocked then s else runElems t id d isGather ks s)
            else runElems t id d isGather ks (landElem t k d isGather op e r s)

/-- The lines of a gather or scatter whose elements are all done become FULL, or FAULTED where a failed element of a GATHER without
status bytes lies in them (R105, R166). -/
def settleElems (t id : Nat) (d : GatherDesc) (isGather : Bool) (s : State) : State :=
  modTeam s t fun tm =>
    match engineOp tm id with
    | none => tm
    | some op =>
      let done := op.pending.filter fun l => (elemsOfLine d isGather l).all op.landed.contains
      let bad (l : Nat) : Bool := isGather && !d.sten && (elemsOfLine d true l).any op.bad.contains
      let tm := landLines bad done tm
      { tm with eops := tm.eops.map fun o => if o.id == id then { o with pending := o.pending.filter fun l => !done.contains l } else o }

/-- Performs some elements of a gather or scatter that have not been performed. -/
def landElems (t : Nat) (id : Nat) (want : Nat → Bool) (s : State) : State :=
  match listAt s.teams t with
  | none => s
  | some tm =>
    match engineOp tm id with
    | none => s
    | some op =>
      let go (d : GatherDesc) (isGather : Bool) : State :=
        settleElems t id d isGather
          (runElems t id d isGather ((List.range d.count).filter fun k => want k && !op.landed.contains k) s)
      if unitBlocked s tm op then s
      else match op.kind with
      | .gather d => go d true
      | .scatter d => go d false
      | _ => s

/-! ### Completion (R159) -/

/-- Lowers a completion flag and records a report on it: the first undelivered one stands (R159). -/
def lowerWith (s : State) (t : Nat) (who : StreamName) (f : Nat) (r : Option Report) : State :=
  let put (m : Smap Report) : Smap Report :=
    match r with
    | some r => if m.any fun x => x.1 == f then m else smInsert m f r
    | none => m
  match who with
  | .gang g => modGang s t g fun gg => { gg with flags := smSet 0 gg.flags f (flagOf gg.flags f - 1), reports := put gg.reports }
  | .hawk => modHawk s t fun hk => { hk with flags := smSet 0 hk.flags f (flagOf hk.flags f - 1), reports := put hk.reports }

/-- The peer writes of an operation that have been sent. -/
def engineWrites (s : State) (tm : Team) (id : Nat) : List PeerRequest :=
  s.peers.filter fun r => r.lid == tm.lid && r.tid == tm.tid && r.op == some id

/-- Whether every peer write of an operation has been answered. -/
def writesAnswered (s : State) (tm : Team) (id : Nat) : Bool := (engineWrites s tm id).all fun r => r.answer.isSome

/-- The reports of an operation's failed peer writes (R241). -/
def writeFailures (s : State) (tm : Team) (id : Nat) : List Report :=
  (engineWrites s tm id).filterMap fun r =>
    match r.answer with
    | some (false, _) => some (engineFault .lk .engineError r.va.toNat)
    | _ => none

/-- Ends an operation whose accesses are all done: its flag falls and its report is recorded (R159). Where several operations share a
flag, a report takes its place on it when its operation ends, so the first to end is the first recorded (log 87). A declared input
keeps its report for the gang (R167). -/
def endOp (t : Nat) (id : Nat) (s : State) : State :=
  match listAt s.teams t with
  | none => s
  | some tm =>
    match engineOp tm id with
    | none => s
    | some op =>
      if !writesAnswered s tm id then s
      else
        let op := addReports op (writeFailures s tm id)
        let s := { s with peers := s.peers.filter fun r => !(r.lid == tm.lid && r.tid == tm.tid && r.op == some id) }
        match op.flag, op.kind with
        | some f, _ => modTeam (lowerWith s t op.who f op.report) t fun tm => { tm with eops := tm.eops.filter fun o => o.id != id }
        | none, .input _ => putOp s t op
        | none, _ => modTeam s t fun tm => { tm with eops := tm.eops.filter fun o => o.id != id }

/-- Lands every line of an operation that can land, and ends it when all have. -/
def finishMoves (t : Nat) (id : Nat) (s : State) : State :=
  match (listAt s.teams t).bind fun tm => engineOp tm id with
  | none => s
  | some op =>
    let s := (moveLines (opMoves op.kind)).foldl (fun s l => landLine t id l s) s
    if ((listAt s.teams t).bind fun tm => engineOp tm id).any allLanded then endOp t id s else s

/-- The same for a gather or scatter. -/
def finishElems (t : Nat) (id : Nat) (count : Nat) (s : State) : State :=
  let s := landElems t id (fun _ => true) s
  if ((listAt s.teams t).bind fun tm => engineOp tm id).any fun op => (List.range count).all op.landed.contains then endOp t id s
  else s

/-! ### Multicast (R164) -/

/-- Whether two descriptors of a group agree (R164). -/
def sameShape (a b : CopyDesc) : Bool :=
  a.esize == b.esize && a.dims.map (·.count) == b.dims.map (·.count) && a.moddim == b.moddim &&
  (a.moddim.isNone || (a.mside == b.mside && a.modcnt == b.modcnt && a.modbase == b.modbase))

/-- The multicast of a group in a team. -/
def mcastOp (tm : Team) (n : Nat) : Option (EngineOp × CopyDesc) :=
  tm.eops.findSome? fun o => match o.kind with
    | .mcast d m => if m = n then some (o, d) else none
    | _ => none

/-- What stands between a slice and one receiver. -/
inductive Receiver where
  | ready (t : Nat) (op : EngineOp) (d : CopyDesc)
  | held
  /-- It will never issue the group (R164). -/
  | missing
  /-- It has issued and finished the group already. -/
  | past
deriving DecidableEq, Repr

/-- The state of receiver r for group n. -/
def receiver (s : State) (tm : Team) (c n r : Nat) : Receiver :=
  let tid := tm.tid / c * c + r
  match listFind (fun x => x.lid == tm.lid && x.tid == tid) s.teams 0 with
  | none => if ((launchOf s tm.lid).map (·.nextTid)).getD 0 ≤ tid then .held else .missing
  | some t =>
    match listAt s.teams t with
    | none => .held
    | some x =>
      if x.mcastNo ≤ n then (if x.st = .retiring then .missing else .held)
      else match mcastOp x n with
        | none => .past
        | some (op, d) => if x.st = .running ∨ x.st = .retiring then .ready t op d else .held

/-- Ends a multicast with ENGINE_ERROR: its destination lines become FAULTED, and its flag falls (R105, R164). -/
def failMcast (t : Nat) (op : EngineOp) (d : CopyDesc) (s : State) : State :=
  let s := modTeam s t (landLines (fun _ => true) (scratchLinesOf (allMoves d)))
  let s := match op.flag with
    | some f => lowerWith s t op.who f (some (op.report.getD (engineFault .cp .engineError 0)))
    | none => s
  match listAt s.teams t with
  | none => s
  | some tm =>
    modTeam { s with peers := s.peers.filter fun r => !(r.lid == tm.lid && r.tid == tm.tid && r.op == some op.id) } t fun tm =>
      { tm with eops := tm.eops.filter fun o => o.id != op.id }

/-- Enters an issue in its group: a descriptor that differs from another team's spoils the group (R164). -/
def joinGroup (s : State) (tm : Team) (c n : Nat) (d : CopyDesc) : State :=
  modLaunch s tm.lid fun l =>
    let mine (g : McastIssue) : Bool := g.cluster == tm.tid / c && g.number == n
    let bad := l.groups.any fun g => mine g && !sameShape g.desc d
    { l with groups := (l.groups.map fun g => if mine g && bad then { g with bad := true } else g) ++
                         [{ cluster := tm.tid / c, number := n, tid := tm.tid, desc := d, bad := bad }] }

/-- Ends every multicast of a group whose descriptors differ, those that its teams issue later too (R164). -/
def checkShapes (tm : Team) (c n : Nat) (s : State) : State :=
  let bad : Bool := (launchOf s tm.lid).any fun l => l.groups.any fun g => g.cluster == tm.tid / c && g.number == n && g.bad
  let mine := (s.teams.zipIdx.filter fun x => x.1.lid == tm.lid && x.1.tid / c == tm.tid / c && x.1.parent == tm.parent).filterMap
    fun x => (mcastOp x.1 n).map fun y => (x.2, y.1, y.2)
  if bad then mine.foldl (fun s x => failMcast x.1 x.2.1 x.2.2 s) s else s

/-- The same for the group of an operation. -/
def checkGroup (t id c : Nat) (s : State) : State :=
  match listAt s.teams t with
  | none => s
  | some tm =>
    match engineOp tm id with
    | none => s
    | some op =>
      match op.kind with
      | .mcast _ n => checkShapes tm c n s
      | _ => s

/-- The elements of a slice in loop order, by their number in the whole operation: where the sender reads and would write them, and
where a receiver's descriptor puts them (R164). -/
structure SlicePart where
  number : Nat
  move : Move
  dst : Nat
deriving DecidableEq, Repr

/-- How many elements one outer index has. -/
def innerCount (d : CopyDesc) : Nat := (d.dims.dropLast.map (·.count)).foldl (· * ·) 1

/-- The elements of the slice of team j of C. -/
def sliceParts (d r : CopyDesc) (j c : Nat) : List SlicePart :=
  let js := sliceOf d j c
  (((copyMoves d d js).zip (copyMoves d r js)).zipIdx.map fun x =>
    { number := js.headD 0 * innerCount d + x.2, move := x.1.1, dst := x.1.2.dst })

/-- The parts of a slice whose place in the sender's own destination lies in a line: the unit of a multicast (R173). Each comes with
the number of its first byte in the operation and its receiver's address. -/
def partsOf (d : CopyDesc) (line : Nat) (l : List SlicePart) : List (Nat × Move × Nat) :=
  l.filterMap fun x => (clipMove line x.move).map fun m =>
    (x.number * d.esize + (m.dst - x.move.dst), m, x.dst + (m.dst - x.move.dst))

/-- The lines of a team's own slice. -/
def sliceLines (d : CopyDesc) (j c : Nat) : List Nat := moveLines (copyMoves d d (sliceOf d j c))

/-- Fetches a line of a multicast's own slice: the sending engine holds its data (R164). -/
def fetchSlice (t id c j line : Nat) (s : State) : State :=
  match listAt s.teams t with
  | none => s
  | some tm =>
    match engineOp tm id with
    | none => s
    | some op =>
      match op.kind with
      | .mcast d _ =>
        let ms := (partsOf d line (sliceParts d d j c)).map fun x => x.2.1
        let before := ((sliceLines d j c).takeWhile (· ≠ line)).contains
        let asid := asidOf s tm
        let behind := ms.any (moveOnDevice s asid) && (deviceAhead s tm op.who (some op.order) ||
          ((sliceLines d j c).takeWhile (· ≠ line)).any fun l =>
            !(op.fetched.any fun x => x.1 == l) && (partsOf d l (sliceParts d d j c)).any fun x => moveOnDevice s asid x.2.1)
        if (op.fetched.any fun x => x.1 == line) ∨ ms.isEmpty ∨ behind ∨ unitBlocked s tm op ∨ replayWaits tm op before then s
        else
          let e := engCtx s t tm op line
          let op := tryPart line op
          match ms.foldl (fun x m => let (s, r) := readSpan e none m.src m.len x.1; (s, joinReads x.2 r))
              (putOp s t op, ReadOut.got [] []) with
          | (s, .held) => s
          | (s, .got bs rs) =>
            let s := ms.foldl (fun s m => (cut m.src m.len (m.len / 32 + 2)).foldl (fun s p => dropRead s e p.1) s) s
            putOp s t { addReports op rs with fetched := op.fetched ++ [(line, bs)] }
      | _ => s

/-- What a receiver's operation gains by some bytes: their numbers, the lines that depend on a failure, and the lines all of whose
bytes have arrived (R164). -/
def receiveBytes (n : Nat) (bs : List (Nat × Nat × EByte)) (x : Team) : Team :=
  match mcastOp x n with
  | none => x
  | some (op, d) =>
    let x := setScratch x (bs.filterMap fun (b : Nat × Nat × EByte) => b.2.2.value.map fun v => (b.2.1, v))
    let op := { op with landed := bs.foldl (fun m (b : Nat × Nat × EByte) => setAdd m b.1) op.landed
                        bad := (bs.filter fun (b : Nat × Nat × EByte) => !b.2.2.good).foldl (fun m (b : Nat × Nat × EByte) => setAdd m (b.2.1 / 128)) op.bad }
    let whole := (allMoves d).zipIdx
    let here (l : Nat) : Bool := whole.all fun y => match clipMove l y.1 with
      | some m => (List.range m.len).all fun k => op.landed.contains (y.2 * d.esize + (m.dst - y.1.dst) + k)
      | none => true
    let done := op.pending.filter here
    let x := landLines op.bad.contains done x
    { x with eops := x.eops.map fun y => if y.id == op.id then { op with pending := op.pending.filter fun l => !done.contains l } else y }

/-- Writes a fetched line of the slice of the team at index t into one receiver, or discards it for a missing one (R164). R164 speaks of
a receiver killed before it issues the group; for one killed after, whose relaunch issues it again, the lines that it has received are
not sent again (DESIGN CHOICE, log 98). -/
def deliver (t id c j line r : Nat) (s : State) : State :=
  match listAt s.teams t with
  | none => s
  | some tm =>
    match engineOp tm id with
    | none => s
    | some op =>
      match op.kind, op.fetched.find? fun x => x.1 == line with
      | .mcast d n, some (_, bs) =>
        let op' := { op with delivered := op.delivered ++ [(r, line)] }
        if op.delivered.contains (r, line) then s
        else match receiver s tm c n r with
          | .held => s
          | .past => putOp s t op'
          | .missing => putOp s t (addReports op' [engineFault .cp .engineError 0])
          | .ready rt _ rd =>
            let at' := (partsOf d line (sliceParts d rd j c)).flatMap fun x => (List.range x.2.1.len).map fun k => (x.1 + k, x.2.2 + k)
            let s := putOp s t op'
            let s := if rt = t then s else escape s t
            modTeam s rt (receiveBytes n ((at'.zip bs).map fun y => (y.1.1, y.1.2, y.2)))
      | _, _ => s

/-- Takes one line of a multicast's own slice as far as it goes (R173). -/
def landSlice (t id c j line : Nat) (s : State) : State :=
  (List.range c).foldl (fun s r => deliver t id c j line r s) (fetchSlice t id c j line (checkGroup t id c s))

/-- The bytes of a whole multicast. -/
def mcastBytes (d : CopyDesc) : Nat := outerCount d * innerCount d * d.esize

/-- Takes a multicast on: the lines of its slice go to the receivers that can take them; its flag falls when all have, or, where its
slice holds no index, when the group's data for its team have been written; and it ends when nothing is left to receive. -/
def finishMcast (t id c j : Nat) (s : State) : State :=
  let s := checkGroup t id c s
  match (listAt s.teams t).bind fun tm => engineOp tm id with
  | none => s
  | some op =>
    match op.kind with
    | .mcast d _ =>
      let live : Bool := ((listAt s.teams t).bind fun tm => engineOp tm id).any fun op => op.flag.isSome
      let s := if live then (sliceLines d j c).foldl (fun s l => landSlice t id c j l s) s else s
      match (listAt s.teams t).bind fun tm => engineOp tm id with
      | none => s
      | some op =>
        let received := decide (mcastBytes d ≤ op.landed.length)
        let sent := if (sliceOf d j c).isEmpty then received
          else (sliceLines d j c).all fun l => (List.range c).all fun r => op.delivered.contains (r, l)
        let s := match op.flag with
          | some f => if sent then putOp (lowerWith s t op.who f op.report) t { op with flag := none } else s
          | none => s
        if op.flag.isNone ∨ sent then
          if op.pending.isEmpty ∧ (received ∨ op.flag.isNone) then
            modTeam s t fun tm => { tm with eops := tm.eops.filter fun o => o.id != id }
          else s
        else s
    | _ => s

end Sys2Proof.Machine
end

