-- ==== Sys2Proof/Machine/Planes.lean ====
section
/-!
DEFINITION. The bit-plane words of major 0x7: LDP, REFINE and STP (05 R89 to R98, R102, R328, R348, R370), with the plane
records that their lines carry (R100).
-/
namespace Sys2Proof.Machine

/-- Reads a plane descriptor from its two words and checks it (R90, R91). -/
def planeDesc (w0 w1 : DWord) : Option PlaneDesc :=
  let d : PlaneDesc :=
    { m := bits64 w0 3 0, loc := bits64 w0 4 4 == 1, ebase := bits64 w0 55 7 * 128, block := bits64 w1 21 0,
      bcount := bits64 w1 43 22, stride := bits64 w1 63 44 * 128 }
  if bits64 w0 6 5 ≠ 0 ∨ bits64 w0 63 56 ≠ 0 ∨ d.m = 0 ∨ d.bcount = 0 ∨ d.bcount ≤ d.block ∨ d.stride < 8 * d.bcount then none
  else some d

/-- bchk of R91. -/
def planeCheck (d : PlaneDesc) : Nat :=
  Nat.xor (Nat.xor (d.block % 2 ^ 16) (d.block / 2 ^ 16)) (Nat.xor (bitsN d.ebase 22 7) (bitsN d.ebase 38 23))

/-- A precision tag (R70). -/
def makeTag (mpl mtot fill bchk : Nat) : BitVec 26 :=
  BitVec.ofNat 26 (1 + mpl * 2 + mtot * 2 ^ 5 + fill * 2 ^ 9 + bchk * 2 ^ 10)

/-- All 64 lanes. -/
def allLanes : Mask := BitVec.allOnes 64

/-- What the checks of a collective access answer: the pieces of each plane, with plane numbers. -/
inductive PlaneRes where
  | ok (ps : List (Nat × List Piece))
  | stop (r : GRes)

/-- The lookaside entries that a collective access of planes uses or installs (R121, R122). -/
def touchPlanes (s : State) (c : GCtx) (d : PlaneDesc) (ps : List Nat) : State :=
  ps.foldl (fun s p => touchSpan s c.tm.core (asidOf s c.tm) (planeAddr d p d.block) (planeLen p)) s

/-- What the planes' checks give: a partial-residency fault or a MIGRATING range of any of them parks the word, to be replayed whole
(R97, R128), and else the first failing one in order traps (log 25). -/
def planeChecks (s : State) (c : GCtx) (q : Req) (d : PlaneDesc) (ps : List Nat) : PlaneRes :=
  let rs := ps.map fun p => (p, checkSpan s q (planeAddr d p d.block) (planeLen p))
  let bad := rs.findSome? fun x => match x.2 with
    | .bad cause _ => some (cause, planeAddr d x.1 d.block)
    | _ => none
  let park := rs.findSome? fun x => match x.2 with
    | .park w => some w
    | _ => none
  match park, bad with
  | some w, _ => .stop (.wait w (startPark (touchPlanes s c d ps) (asidOf s c.tm) w))
  | none, some (cause, va) => .stop (.trapAcc (touchPlanes s c d ps) cause allLanes (BitVec.ofNat 64 va) (classAt s (asidOf s c.tm) va))
  | none, none => .ok (rs.filterMap fun x => match x.2 with
      | .ok l => some (x.1, l)
      | _ => none)

/-- The checks of the planes of a tile in scratchpad (R91, R102): bounds, then fill tags where `tagged`, then the rest. Where one line
is EMPTY or PENDING and another is FAULTED or carries another stream's mark, the word stalls first: the spec gives no order (log 85). -/
def tileChecks (s : State) (c : GCtx) (d : PlaneDesc) (ps : List Nat) (tagged : Bool) : Option GRes :=
  let rs := ps.map fun p => (planeAddr d p d.block, checkScratch s c.tm (.gang c.g) (planeAddr d p d.block) (planeLen p) 0 tagged)
  let bounds := rs.find? fun x => x.2 == .bad .scratchBounds
  let stalls := rs.flatMap fun x => match x.2 with
    | .stall l => l
    | _ => []
  let bad := rs.findSome? fun x => match x.2 with
    | .bad cause => some (cause, x.1)
    | _ => none
  match bounds, stalls, bad with
  | some x, _, _ => some (.trapAcc s .scratchBounds allLanes (BitVec.ofNat 64 x.1) .ls)
  | none, l@(_ :: _), _ => some (.wait (.fill (l.foldl setAdd [])) s)
  | none, [], some (cause, a) => some (.trapAcc s cause allLanes (BitVec.ofNat 64 a) .ls)
  | none, [], none => none

/-- The line record of a plane (R100): the exponent line is that of the block's exponent byte. -/
def planeRecord (d : PlaneDesc) (p expPa : Nat) : PlaneRec :=
  { plane := p, expLine := expPa / 128, group := if p = 0 then 0 else d.block / 16 % 8 }

/-- The physical address of the exponent byte, where it is memory. -/
def exponentPa (ps : List (Nat × List Piece)) : Option Nat :=
  ps.findSome? fun x => if x.1 = 0 then x.2.findSome? fun p => (match p.place with
    | .mem pa _ => some pa
    | _ => none) else none

/-- How a plane access installs the sectors of a piece (R100, R110, R266): planes beyond KEEPN as STREAM. -/
def planeInstall (d : PlaneDesc) (exp : Option Nat) (policy keepn p : Nat) (x : Piece) : Install :=
  let how := policyInstall (if keepn < p then 1 else policy)
  if !x.plane then how
  else match exp with
    | some pa => { how with planeRec := some (planeRecord d p pa) }
    | none => .never

/-- Keeps the sectors that a plane load read, in ascending plane order (R100). -/
def allocPlanes (s : State) (c : GCtx) (d : PlaneDesc) (ps : List (Nat × List Piece)) : State :=
  let exp := exponentPa ps
  let policy := cacheHint c.cl.hints
  let keepn := (planeHint c.cl.hints).getD 16
  ps.foldl (fun s x => x.2.foldl (fun s p =>
    match p.place with
    | .mem pa _ => allocSector s c.tm.core (sectorOf pa) (planeInstall d exp policy keepn x.1 p)
    | _ => s) s) s

/-- The bytes of the planes that a load reads. -/
inductive PlaneData where
  | ok (s : State) (data : List (Nat × Nat))
  | stop (r : GRes)

/-- Reads planes of the descriptor's block: the value of each plane as a number (R93, R94, R97, R102). -/
def readPlanes (s : State) (c : GCtx) (d : PlaneDesc) (ps : List Nat) : PlaneData :=
  if d.loc then
    match tileChecks s c d ps true with
    | some r => .stop r
    | none => .ok s (ps.map fun p => (p, natOf (scratchBytes c.tm (planeAddr d p d.block) (planeLen p))))
  else
    match planeChecks s c (lsReq s c .read) d ps with
    | .stop r => .stop r
    | .ok rs =>
      let all := rs.flatMap (·.2)
      match askPieces (fragSender c) all (openPieces (touchPlanes s c d ps) all) with
      | (s, some (.waiting id), _) => .stop (.wait (.peer id) s)
      | (s, some .full, _) => .stop (.wait .interlock s)
      | (s, some (.got false _), got) =>
        let va := ((all.find? fun p => isPeer p && !(got.any fun x => x.1 == p.va)).map (·.va)).getD 0
        let s := consumeFrag s c
        .stop (.trapPart s .poison allLanes (BitVec.ofNat 64 va) allLanes
          { lanes := allLanes, traps := [], counted := false, raised := false, placement := 0 } .lk)
      | (s, _, got) =>
        let data := rs.map fun x => (x.1, natOf (readPieces s (some c.tm.core) (answered got) x.2))
        let s := consumeFrag s c
        .ok (allocPlanes s c d rs) data

/-- The value read of a plane. -/
def planeValue (data : List (Nat × Nat)) (p : Nat) : Nat := ((data.find? fun x => x.1 == p).map (·.2)).getD 0

/-- Bits b_lo to b_hi of an element, from the planes read (R89). -/
def planeBits (data : List (Nat × Nat)) (lo hi l : Nat) : List Bool :=
  (List.range (hi + 1 - lo)).map fun k => bitN (planeValue data (k + lo + 1)) l

/-- The end of a load of planes: the register and its tag are deposited together when the operation completes (R98). -/
def endPlanes (c : GCtx) (fs : BitVec 1) (d : BitVec 7) (x : Lanes) (tag : BitVec 26) (s : State) : GRes :=
  let f := flagFor c fs
  let s := modGang s c.t c.g fun gg => setPending gg [.v d.toNat] f
  let s := raiseFlag s c f
  .done (addLoad s c.t (.gang c.g) f [.lanes (.v d.toNat) allLanes x, .tag d.toNat tag])

/-- LDP of planes 0 to n in a fill mode (R93). -/
def ldpRun (c : GCtx) (fs : BitVec 1) (d : BitVec 7) (ds : PlaneDesc) (n : Nat) (mid : Bool) (s : State) : GRes :=
  match readPlanes s c ds (List.range (n + 1)) with
  | .stop r => r
  | .ok s data =>
    let e := planeValue data 0
    let x := mkLanes fun l =>
      toF32 .rn (decodeBp e (bitN (planeValue data 1) l) (planeBits data 1 (n - 1) l) ds.m mid)
    endPlanes c fs d x (makeTag (n - 1) ds.m (if mid then 1 else 0) (planeCheck ds)) s

/-- The bits already held in an element (R94): none where the register is stale. An element that is already known (a NaN, or
zero in a block of zeros) is answered whole. -/
inductive Held where
  | stale
  | known (x : Word)
  | bits (l : List Bool)
deriving DecidableEq, Repr

/-- The binary digits of a number, most significant first. -/
def digits (h t : Nat) : List Bool := (List.range h).map fun k => bitN t (h - 1 - k)

/-- The recovery of R94 for a finite element: a × 2^(h+1) must be an integer, and t = a × 2^h one below 2^h. -/
def recoverBits (e m h : Nat) (mid : Bool) (mag : Nat) (ex : Int) : Held :=
  let k := ex + 127 - e + h
  let twice : Option Nat :=
    if k ≥ 0 then (if k > 300 ∧ mag ≠ 0 then none else some (mag * 2 ^ k.toNat))
    else if mag % 2 ^ (-k).toNat = 0 then some (mag / 2 ^ (-k).toNat) else none
  match twice with
  | none => .stale
  | some a =>
    let sub := if mid ∧ h < m then 1 else 0
    if a < sub ∨ (a - sub) % 2 = 1 ∨ 2 ^ (h + 1) ≤ a - sub then .stale else .bits (digits h ((a - sub) / 2))

/-- The bits that an element of a register holds (R94). -/
def heldBits (e m h : Nat) (mid sgn : Bool) (x : Word) : Held :=
  if x.getLsbD 31 != sgn && e != 0 then .stale
  else if e = 0 then (if x = 0 then .known 0 else .stale)
  else match f32 x with
    | .nan => if e = 255 then .known (BitVec.ofNat 32 (canonNan fp32)) else .stale
    | .inf _ => if e = 255 then .bits (List.replicate h false) else .stale
    | .fin _ mag ex => if e = 255 then .stale else recoverBits e m h mid mag ex

/-- stale() of R95. -/
def staleRun (c : GCtx) (fs : BitVec 1) (d : BitVec 7) (ds : PlaneDesc) (n : Nat) (s : State) : GRes :=
  if strictMode s c.tm then .trap .planeTag allLanes 0
  else ldpRun c fs d ds n ((tagOf c.gg d.toNat).getLsbD 9) s

/-- REFINE (R94). -/
def refineRun (c : GCtx) (fs : BitVec 1) (d : BitVec 7) (ds : PlaneDesc) (n : Nat) (s : State) : GRes :=
  let t := (tagOf c.gg d.toNat).toNat
  let h := bitsN t 4 1
  if !bitN t 0 ∨ bitsN t 25 10 ≠ planeCheck ds ∨ bitsN t 8 5 ≠ ds.m then staleRun c fs d ds n s
  else if n - 1 ≤ h then .done (modGang s c.t c.g fun gg => setPending gg [.v d.toNat] (flagFor c fs))
  else
    match readPlanes s c ds ([0, 1] ++ (List.range (n - 1 - h)).map (· + h + 2)) with
    | .stop r => r
    | .ok s' data =>
      let e := planeValue data 0
      let sgn (l : Nat) := bitN (planeValue data 1) l
      let held (l : Nat) := heldBits e ds.m h (bitN t 9) (sgn l) (laneOf (vReg c.gg d.toNat) l)
      if laneIdx.any fun l => held l == .stale then staleRun c fs d ds n s
      else
        let x := mkLanes fun l => match held l with
          | .known w => w
          | .bits bs => toF32 .rn (decodeBp e (sgn l) (bs ++ planeBits data (h + 1) (n - 1) l) ds.m (bitN t 9))
          | .stale => 0
        endPlanes c fs d x (makeTag (n - 1) ds.m (if bitN t 9 then 1 else 0) (planeCheck ds)) s'

/-- What R267 needs of LDP and REFINE. -/
def planeInfo (fs : BitVec 1) (d : BitVec 7) (a : BitVec 8) (o : BitVec 7) (reads : Bool) (c : GCtx) : WordInfo :=
  { plainInfo with
    accepts := ⟨false, false, true, false, true⟩
    fs := some fs
    legal := decide (d.toNat < c.tm.vregs) && decide (d.toNat ≤ 111) && (gCode a.toNat).isSome && a.toNat % 2 == 0 &&
      decide (1 ≤ o.toNat) && decide (o.toNat ≤ 16) && (planeHint c.cl.hints).all fun k => decide (k ≤ 16)
    reads := [.g (a.toNat - 128), .g (a.toNat - 127)] ++ if reads then [.v d.toNat] else []
    writes := [.v d.toNat] }

/-- The shared start of the plane words: the descriptor, n, and the collective check (R91, R92). R92 gives no order for a bad descriptor
or n under a partial mask: ILLEGAL_OPERAND goes before ILLEGAL_CONVERGENCE here (log 85). -/
def planeStart (a : BitVec 8) (n : Option Nat) (c : GCtx) (run : PlaneDesc → GRes) : GRes :=
  match planeDesc (gReg c.gg (a.toNat - 128)) (gReg c.gg (a.toNat - 127)) with
  | none => .trap .illegalOperand c.act 0
  | some ds =>
    if n.any fun n => decide (ds.m + 1 < n) then .trap .illegalOperand c.act 0
    else if c.act ≠ allLanes then .trap .illegalConvergence c.act 0
    else run ds

/-- LDP (R328). -/
def execLdp (f : BitVec 1) (d : BitVec 7) (a : BitVec 8) (o : BitVec 7) (s : State) : Out :=
  gangOnly (.ldp f d a o) (planeInfo f d a o false)
    (fun c s => planeStart a (some o.toNat) c fun ds => ldpRun c f d ds o.toNat false s) s

/-- LDP.MID (R328). -/
def execLdpMid (f : BitVec 1) (d : BitVec 7) (a : BitVec 8) (o : BitVec 7) (s : State) : Out :=
  gangOnly (.ldpMid f d a o) (planeInfo f d a o false)
    (fun c s => planeStart a (some o.toNat) c fun ds => ldpRun c f d ds o.toNat true s) s

/-- REFINE (R348). -/
def execRefine (f : BitVec 1) (d : BitVec 7) (a : BitVec 8) (o : BitVec 7) (s : State) : Out :=
  gangOnly (.refine f d a o) (planeInfo f d a o true)
    (fun c s => planeStart a (some o.toNat) c fun ds => refineRun c f d ds o.toNat s) s

/-! ### STP -/

/-- A block as STP stores it: its exponent, and the sign and q of each element (R96). -/
structure QBlock where
  e : Nat
  sgn : List Bool
  q : List Nat
deriving DecidableEq, Repr

/-- |x| × 2^(126 - E + m) rounded to nearest even. -/
def quantise (e m : Nat) (x : FVal) : Nat :=
  match x with
  | .fin _ mag ex => (roundInt .rn false mag (ex + 126 - e + m)).toNat
  | _ => 0

/-- floor(log2 |x|) + 127 of a non-zero finite value. -/
def binade (x : FVal) : Int :=
  match x with
  | .fin _ mag ex => (Nat.log2 mag : Int) + ex + 127
  | _ => 0

/-- Quantisation of a block (R96). -/
def quantBlock (m : Nat) (xs : List Word) : QBlock :=
  let vs := xs.map f32
  let sgn := xs.map fun x => x.getLsbD 31
  if vs.any fun v => !isFinF v then
    { e := 255, sgn := sgn, q := vs.map fun v => if isNanF v || isFinF v then 2 ^ (m - 1) else 0 }
  else if vs.all isZeroF then { e := 0, sgn := xs.map fun _ => false, q := xs.map fun _ => 0 }
  else
    let e := (((vs.filter fun v => !isZeroF v).map binade).foldl max 1).toNat
    let q := vs.map (quantise e m)
    if q.any fun y => y == 2 ^ m then
      if e < 254 then { e := e + 1, sgn := sgn, q := vs.map (quantise (e + 1) m) }
      else { e := e, sgn := sgn, q := q.map fun y => min y (2 ^ m - 1) }
    else { e := e, sgn := sgn, q := q }

/-- One bit of each lane as a number. -/
def laneBits (f : Nat → Bool) : Nat := (maskOf f).toNat

/-- The number that a plane of a block holds (R96). -/
def blockPlane (m : Nat) (b : QBlock) (p : Nat) : Nat :=
  if p = 0 then b.e
  else if p = 1 then laneBits fun l => (listAt b.sgn l).getD false
  else laneBits fun l => bitN ((listAt b.q l).getD 0) (m + 1 - p)

/-- STP (R96, R97, R370): every byte is checked before any is written. What it sends to peers bears its own id, and its flag falls when
they have acknowledged it. -/
def stpRun (c : GCtx) (fs : BitVec 1) (v : BitVec 7) (d : PlaneDesc) (s : State) : GRes :=
  let block := quantBlock d.m (vReg c.gg v.toNat)
  let ps := List.range (d.m + 2)
  let bytes (p : Nat) : List Byte := bytesOf (planeLen p) (blockPlane d.m block p)
  let finish (s : State) : GRes :=
    let f := flagFor c fs
    .done (addLoad (raiseFlag s c f) c.t (.gang c.g) f [])
  if d.loc then
    match tileChecks s c d ps false with
    | some r => r
    | none => finish (scratchStore s c.t (.gang c.g) (ps.flatMap fun p => writesAt (planeAddr d p d.block) (bytes p)))
  else
    match planeChecks s c (lsReq s c .write) d ps with
    | .stop r => r
    | .ok rs =>
      let all := rs.flatMap (·.2)
      let exp := exponentPa rs
      let how (sector : Nat) : Install :=
        (rs.findSome? fun x => x.2.findSome? fun p => (match p.place with
          | .mem pa _ =>
            if sectorOf pa = sector then some (planeInstall d exp (cacheHint c.cl.hints) 16 x.1 p) else none
          | _ => none)).getD .normal
      if !hasRoom s (peerLines all) then .wait .interlock s
      else
      let s := openPieces (touchPlanes s c d ps) all
      let s := lsWrite s c.tm.core how (rs.flatMap fun x => memWrites x.2 (bytes x.1))
      let s := if raceMode s c.tm then markStore s (agentId c.tm (.gang c.g)) (trackedSectors all) else s
      let s := if all.any isMemory then modTeam s c.t fun tm => { tm with plainStore := true } else s
      finish (rs.foldl (fun s x => sendStores s c.t { fragSender c with op := some c.tm.nextOp } x.2 (bytes x.1)) s)

/-- STP (R370). -/
def execStp (f : BitVec 1) (d : BitVec 7) (a : BitVec 8) (s : State) : Out :=
  gangOnly (.stp f d a)
    (fun c =>
      { plainInfo with
        accepts := ⟨false, false, true, false, false⟩
        fs := some f
        legal := decide (d.toNat < c.tm.vregs) && decide (d.toNat ≤ 111) && (gCode a.toNat).isSome && a.toNat % 2 == 0
        reads := [.g (a.toNat - 128), .g (a.toNat - 127), .v d.toNat] })
    (fun c s => planeStart a none c fun ds => stpRun c f d ds s) s

end Sys2Proof.Machine
end

