-- ==== Sys2Proof/Machine/EngineWords.lean ====
section
/-!
DEFINITION. The words of major 0xB, in either stream: the engine commands (09 R158 to R165, R292, R312, R332, R338), FILLCLR
and FILLTST (R169, R310), and the named queues (R170, R171, R343, R344).
-/
namespace Sys2Proof.Machine

/-! ### One word for both streams -/

/-- The stream that issues a word of both streams. -/
structure Issuer where
  t : Nat
  tm : Team
  who : StreamName
  flag : Nat
  /-- The value of a g or k register. -/
  reg : Nat → DWord
  hints : List (DWord × Instr)
  /-- Whom its peer requests serve: a gang's fragment (R239). -/
  lane : Option Nat

/-- What a word of both streams answers. -/
inductive ERes where
  | done (s : State)
  | trap (c : Cause) (addr : Nat) (cls : Option EngineClass)
  /-- A precise trap after an effect of the word that stays, or after its reads: the state with them, cause, FLTADDR, CLASS. -/
  | trapIn (s : State) (c : Cause) (addr : Nat) (cls : Option EngineClass)
  | wait (w : Wait) (s : State)
  /-- A load through a peer window failed (R241). -/
  | failed (s : State) (addr : Nat)

/-- The issuer that a gang is. -/
def gangIssuer (c : GCtx) (fs : BitVec 1) : Issuer :=
  { t := c.t, tm := c.tm, who := .gang c.g, flag := flagFor c fs, reg := gReg c.gg, hints := c.cl.hints,
    lane := some (64 + c.f) }

/-- The issuer that a hawk is. -/
def hawkIssuer (c : HCtx) (fs : BitVec 1) : Issuer :=
  { t := c.t, tm := c.tm, who := .hawk, flag := hawkFlag c fs, reg := kReg c.hk, hints := c.cl.hints, lane := none }

/-- The sender of the hawk's own peer accesses. -/
def hawkSender (c : HCtx) : Sender := { lid := c.tm.lid, tid := c.tm.tid, who := .hawk, lane := none, op := none }

/-- The hawk's answered requests have been consumed. -/
def consumeHawk (s : State) (c : HCtx) : State := consumePeers s c.tm.lid c.tm.tid .hawk Option.isNone

/-- What the word answers in a gang. -/
def toGang (c : GCtx) (s : State) : ERes → GRes
  | .done s => .done s
  | .trap cause a none => .trap cause c.act (BitVec.ofNat 64 a)
  | .trap cause a (some cls) => .trapAcc s cause c.act (BitVec.ofNat 64 a) cls
  | .trapIn s cause a none => .trapIn s cause c.act (BitVec.ofNat 64 a)
  | .trapIn s cause a (some cls) => .trapAcc s cause c.act (BitVec.ofNat 64 a) cls
  | .wait w s => .wait w s
  | .failed s a =>
    .trapPart s .poison c.act (BitVec.ofNat 64 a) c.act
      { lanes := c.act, traps := [], counted := priorCounted c, raised := false, placement := 0 } .lk

/-- What the word answers in a hawk. -/
def toHawk (s : State) : ERes → HRes
  | .done s' => .done s'
  | .trap cause a none => .trap cause (BitVec.ofNat 64 a)
  | .trap cause a (some cls) => .trapAcc s cause (BitVec.ofNat 64 a) cls
  | .trapIn s' cause a none => .trapIn s' cause (BitVec.ofNat 64 a)
  | .trapIn s' cause a (some cls) => .trapAcc s' cause (BitVec.ofNat 64 a) cls
  | .wait w s' => .wait w s'
  | .failed s' a => .trapAcc s' .poison (BitVec.ofNat 64 a) .lk

/-- What R267 needs of a word of both streams. -/
structure EInfo where
  accepts : Accepts
  fs : Option (BitVec 1)
  /-- Checks on fields that both streams make. -/
  legal : Bool
  reads : List Nat
  writes : List Nat
  treat : Treat
deriving DecidableEq, Repr

/-- The same for a gang: its registers are g registers. -/
def gangInfo (x : EInfo) : WordInfo :=
  { plainInfo with
    accepts := x.accepts, fs := x.fs, legal := x.legal && (x.reads ++ x.writes).all fun n => decide (n < 32)
    reads := x.reads.map .g, writes := x.writes.map .g }

/-- The same for the hawk. -/
def hawkInfo (x : EInfo) : HInfo :=
  { plainHInfo with accepts := x.accepts, fs := x.fs, legal := x.legal, reads := x.reads, writes := x.writes, treat := x.treat }

/-- A word that each stream executes once (R158, R171). -/
def onceWord (i : Instr) (info : EInfo) (fs : BitVec 1) (body : Issuer → State → ERes) (s : State) : Out :=
  bothWord i (fun _ => gangInfo info)
    (fun c s => if c.act = 0 then .done s else toGang c s (body (gangIssuer c fs) s))
    (fun _ => hawkInfo info) (fun c s => toHawk s (body (hawkIssuer c fs) s)) s

/-! ### Reads at issue -/

/-- What a stream's read at issue answers. -/
inductive IRead where
  | ok (s : State) (bs : List Byte)
  | stop (r : ERes)

/-- Reads global memory as an LS-class load of the stream (R158). -/
def streamRead (s : State) (x : Issuer) (va len : Nat) : IRead :=
  let asid := asidOf s x.tm
  let q : Req := { asid := asid, acc := .read, agent := agentId x.tm x.who, core := some x.tm.core, race := raceMode s x.tm,
                   behind := deviceAhead s x.tm x.who none }
  let me : Sender := { lid := x.tm.lid, tid := x.tm.tid, who := x.who, lane := x.lane, op := none }
  let found := checkSpan s q va len
  let s := touchSpan s x.tm.core asid va len
  match found with
  | .bad cause a => .stop (.trapIn s cause a (some (classAt s asid a)))
  | .park w => .stop (.wait w (startPark s asid w))
  | .ok ps =>
    match askPieces me ps (openPieces s ps) with
    | (s, some (.waiting id), _) => .stop (.wait (.peer id) s)
    | (s, some .full, _) => .stop (.wait .interlock s)
    | (s, some (.got false _), _) => .stop (.failed s va)
    | (s, _, got) => .ok (allocPieces s x.tm.core 0 ps) (readPieces s (some x.tm.core) (answered got) ps)

/-- The end of a word's reads at issue: unless it waits, the answers of peers to them have been consumed. -/
def endReads (x : Issuer) : ERes → ERes
  | .done s => .done (consumed s)
  | .trapIn s c a cls => .trapIn (consumed s) c a cls
  | .failed s a => .failed (consumed s) a
  | .trap c a cls => .trap c a cls
  | .wait w s => .wait w s
where
  consumed (s : State) : State := consumePeers s x.tm.lid x.tm.tid x.who (· == x.lane)

/-- Reads scratchpad as an LS-class load of the stream (R158, R292). -/
def streamScratch (s : State) (x : Issuer) (off len : Nat) : IRead :=
  match checkScratch s x.tm x.who off len 0 true with
  | .bad cause => .stop (.trap cause off (some .ls))
  | .stall ls => .stop (.wait (.fill ls) s)
  | .ok => .ok s (scratchBytes x.tm off len)

/-- Reads either. -/
def streamLoad (s : State) (x : Issuer) (scratch : Bool) (a len : Nat) : IRead :=
  if scratch then streamScratch s x a len else streamRead s x a len

/-! ### COPY and MCAST (R161, R292, R332) -/

/-- Reads a copy descriptor's header: the descriptor without its dimensions, and NDIM (R161, R292 step 3). -/
def copyHeader (bs : List Byte) : Option (CopyDesc × Nat) :=
  let w0 := wordN bs 0
  let w1 := wordN bs 1
  let w2 := wordN bs 2
  let w3 := wordN bs 3
  let ndim := bitsN w2 3 0
  let md := bitsN w2 11 8
  if bitsN w0 63 57 ≠ 0 ∨ bitsN w1 63 57 ≠ 0 ∨ bitsN w2 7 6 ≠ 0 ∨ bitsN w2 15 13 ≠ 0 ∨ bitsN w2 63 48 ≠ 0 ∨ bitsN w3 63 32 ≠ 0 ∨
      ndim = 0 ∨ ndim = 15 ∨ (md ≠ 15 ∧ (ndim ≤ md ∨ bitsN w2 47 16 = 0 ∨ bitsN w2 47 16 ≤ bitsN w3 31 0)) then none
  else
    let d : CopyDesc :=
      { src := bitsN w0 55 0, sloc := bitN w0 56, dst := bitsN w1 55 0, dloc := bitN w1 56, esize := 2 ^ bitsN w2 5 4
        moddim := if md = 15 then none else some md, mside := bitN w2 12, modcnt := bitsN w2 47 16, modbase := bitsN w3 31 0
        dims := [] }
    some (d, ndim)

/-- Reads the dimension entries (R161, R292 step 5). -/
def copyDims (ndim : Nat) (bs : List Byte) : Option (List CopyDim) :=
  let ws := (List.range ndim).map fun k => (wordN bs (2 * k), wordN bs (2 * k + 1))
  if ws.any fun w => bitsN w.1 23 0 == 0 || bitsN w.2 63 40 != 0 then none
  else some (ws.map fun w =>
    { count := bitsN w.1 23 0, sstride := sextN 40 (bitsN w.1 63 24), dstride := sextN 40 (bitsN w.2 39 0) })

/-- Whether an extent lies within an allocation of so many bytes. -/
def extentOk (size : Nat) (x : Int × Int) : Bool := decide (0 ≤ x.1) && decide (x.2 ≤ size)

/-- Whether the extent of a side runs past the allocation (R158, R292 step 6). -/
def extentFails (size : Nat) (d : CopyDesc) (side : Bool) : Bool :=
  (if side then d.sloc else d.dloc) && !extentOk size (copyExtent d side)

/-- Marks the scratchpad lines that an operation will write PENDING, and adds it with its flag count (R158, R159). -/
def issueOp (x : Issuer) (kind : EngineKind) (lines : List Nat) (s : State) : State :=
  let s := modTeam s x.t fun tm =>
    { lines.foldl (fun tm l => setFill tm l tagPending) tm with
      eops := tm.eops ++ [{ newOp tm.nextOp s.stamp x.who (some x.flag) kind lines with
                              policy := cacheHint x.hints, keepn := (planeHint x.hints).getD 16 }]
      nextOp := tm.nextOp + 1 }
  let s := { s with stamp := s.stamp + 1 }
  match x.who with
  | .gang g => modGang s x.t g fun gg => { gg with flags := smSet 0 gg.flags x.flag (flagOf gg.flags x.flag + 1) }
  | .hawk => raiseHawkFlag s x.t x.flag

/-- Reads and checks a copy descriptor (R292), then goes on with it. -/
def withCopy (x : Issuer) (scratch : Bool) (a : Nat) (s : State) (k : CopyDesc → State → ERes) : ERes :=
  if a % 32 ≠ 0 then .trap .misaligned a (some (if scratch then .ls else classAt s (asidOf s x.tm) a))
  else endReads x (match streamLoad s x scratch a 32 with
  | .stop r => r
  | .ok s hdr =>
    match copyHeader hdr with
    | none => .trapIn s .illegalOperand 0 none
    | some (d, ndim) =>
      match streamLoad s x scratch (a + 32) (16 * ndim) with
      | .stop r => r
      | .ok s rest =>
        match copyDims ndim rest with
        | none => .trapIn s .illegalOperand 0 none
        | some dims =>
          let d := { d with dims := dims }
          if extentFails (scratchSize x.tm) d true then .trapIn s .scratchBounds (addrOf (copyExtent d true).1) (some .cp)
          else if extentFails (scratchSize x.tm) d false then .trapIn s .scratchBounds (addrOf (copyExtent d false).1) (some .cp)
          else k d s)

/-- COPY (R292). -/
def copyBody (sd : BitVec 1) (a : Nat) (x : Issuer) (s : State) : ERes :=
  withCopy x (flag1 sd) (x.reg a).toNat s fun d s => .done (issueOp x (.copy d) (scratchLinesOf (allMoves d)) s)

/-- The engine commands' fields (R266, R267). -/
def commandInfo (fs : BitVec 1) (policy : Accepts) (legal : Bool) (reads : List Nat) : EInfo :=
  { accepts := policy, fs := some fs, legal := legal, reads := reads, writes := [], treat := .hold true }

/-- COPY accepts a cache policy alone (R266). -/
def acceptsCache : Accepts := ⟨false, false, true, false, false⟩

/-- COPY (R292). -/
def execCopy (f : BitVec 1) (sc : BitVec 1) (a : BitVec 6) (s : State) : Out :=
  onceWord (.copy f sc a) (commandInfo f acceptsCache true [a.toNat]) f (copyBody sc a.toNat) s

/-- MCAST (R164, R332): with one team in the cluster it is a COPY. -/
def mcastBody (sd : BitVec 1) (a : Nat) (x : Issuer) (s : State) : ERes :=
  withCopy x (flag1 sd) (x.reg a).toNat s fun d s =>
    if d.sloc ∨ !d.dloc then .trapIn s .illegalOperand 0 none
    else
      let c := cptOf s x.tm
      let kind := if c = 1 then EngineKind.copy d else .mcast d x.tm.mcastNo
      let s := modTeam (issueOp x kind (scratchLinesOf (allMoves d)) s) x.t fun tm => { tm with mcastNo := tm.mcastNo + 1 }
      .done (if c = 1 then s else joinGroup s x.tm c x.tm.mcastNo d)

/-- MCAST (R332). -/
def execMcast (f : BitVec 1) (sc : BitVec 1) (a : BitVec 6) (s : State) : Out :=
  onceWord (.mcast f sc a) (commandInfo f acceptsCache true [a.toNat]) f (mcastBody sc a.toNat) s

/-! ### PCOPY (R163, R338) -/

/-- The scratchpad bytes of planes lo to hi of so many blocks lie within the allocation (R338). -/
def planesFit (size : Nat) (d : PlaneDesc) (plo phi nb : Nat) : Bool :=
  !d.loc || ((List.range (phi + 1 - plo)).all fun q => decide (planeAddr d (plo + q) d.block + planeLen (plo + q) * nb ≤ size))

/-- The first scratchpad offset of a plane run. -/
def planesStart (d : PlaneDesc) (plo : Nat) : Nat := planeAddr d plo d.block

/-- PCOPY (R163, R338). -/
def pcopyBody (d a c : Nat) (x : Issuer) (s : State) : ERes :=
  let w := (x.reg c).toNat
  let plo := bitsN w 4 0
  let phi := bitsN w 9 5
  let nb := bitsN w 31 10
  match planeDesc (x.reg d) (x.reg (d + 1)), planeDesc (x.reg a) (x.reg (a + 1)) with
  | some dd, some sd =>
    if w / 2 ^ 32 ≠ 0 ∨ nb = 0 ∨ dd.m ≠ sd.m ∨ phi < plo ∨ dd.m + 1 < phi ∨ dd.bcount < dd.block + nb ∨ sd.bcount < sd.block + nb then
      .trap .illegalOperand 0 none
    else if !planesFit (scratchSize x.tm) sd plo phi nb then .trap .scratchBounds (planesStart sd plo) (some .cp)
    else if !planesFit (scratchSize x.tm) dd plo phi nb then .trap .scratchBounds (planesStart dd plo) (some .cp)
    else .done (issueOp x (.pcopy dd sd plo phi nb) (scratchLinesOf (pcopyMoves dd sd plo phi nb)) s)
  | _, _ => .trap .illegalOperand 0 none

/-- PCOPY (R338). -/
def execPcopy (f : BitVec 1) (d : BitVec 6) (a : BitVec 6) (c : BitVec 6) (s : State) : Out :=
  bothWord (.pcopy f d a c)
    (fun x => gangInfo (commandInfo f ⟨false, false, true, false, true⟩
      (d.toNat % 2 == 0 && a.toNat % 2 == 0 && (planeHint x.cl.hints).all fun k => decide (k ≤ 16))
      [d.toNat, d.toNat + 1, a.toNat, a.toNat + 1, c.toNat]))
    (fun x s => if x.act = 0 then .done s else toGang x s (pcopyBody d.toNat a.toNat c.toNat (gangIssuer x f) s))
    (fun x => hawkInfo (commandInfo f ⟨false, false, true, false, true⟩
      (d.toNat % 2 == 0 && a.toNat % 2 == 0 && (planeHint x.cl.hints).all fun k => decide (k ≤ 16))
      [d.toNat, d.toNat + 1, a.toNat, a.toNat + 1, c.toNat]))
    (fun x s => toHawk s (pcopyBody d.toNat a.toNat c.toNat (hawkIssuer x f) s)) s

/-! ### GATHER and SCATTER (R165, R312) -/

/-- Reads a gather descriptor (R165, R312 step 3). -/
def gatherDesc (bs : List Byte) : Option GatherDesc :=
  let w0 := wordN bs 0
  let w1 := wordN bs 1
  let w2 := wordN bs 2
  let d : GatherDesc :=
    { base := bitsN w0 55 0, idxoff := bitsN w1 22 0, idxw := bitN w1 23, esz := bitsN w1 26 24, shift := bitsN w1 31 27
      count := bitsN w1 47 32 + 1, datoff := bitsN w2 22 0, stoff := bitsN w2 45 23, sten := bitN w2 46 }
  if bitsN w0 63 56 ≠ 0 ∨ bitsN w1 63 48 ≠ 0 ∨ bitsN w2 63 47 ≠ 0 ∨ wordN bs 3 ≠ 0 ∨ 6 ≤ d.esz ∨ d.idxoff % indexSize d ≠ 0 then none
  else some d

/-- The areas of a descriptor: offset and length (R312 step 4). -/
def gatherAreas (d : GatherDesc) : List (Nat × Nat) :=
  [(d.idxoff, d.count * indexSize d), (d.datoff, d.count * elemSize d)] ++ if d.sten then [(d.stoff, d.count)] else []

/-- Whether two areas share a byte. -/
def areasMeet (a b : Nat × Nat) : Bool := decide (a.1 < b.1 + b.2) && decide (b.1 < a.1 + a.2)

/-- Whether two of some areas share a byte (R312 step 5). -/
def anyMeet : List (Nat × Nat) → Bool
  | [] => false
  | a :: as => as.any (areasMeet a) || anyMeet as

/-- The lines that a gather or scatter marks PENDING (R312). -/
def gatherLines (d : GatherDesc) (data : Bool) : List Nat :=
  ((if data then linesOf d.datoff (d.count * elemSize d) else []) ++ if d.sten then linesOf d.stoff d.count else []).foldl setAdd []

/-- GATHER and SCATTER (R312). -/
def gatherBody (isGather : Bool) (a : Nat) (x : Issuer) (s : State) : ERes :=
  let off := (x.reg a).toNat
  if off % 32 ≠ 0 then .trap .misaligned off (some .ls)
  else match streamScratch s x off 32 with
  | .stop r => r
  | .ok s bs =>
    match gatherDesc bs with
    | none => .trap .illegalOperand 0 none
    | some d =>
      match (gatherAreas d).find? fun y => decide (scratchSize x.tm < y.1 + y.2) with
      | some y => .trap .scratchBounds y.1 (some .ga)
      | none =>
        if anyMeet (gatherAreas d) then .trap .illegalOperand 0 none
        else .done (issueOp x (if isGather then .gather d else .scatter d) (gatherLines d isGather) s)

/-- GATHER (R312). -/
def execGather (f : BitVec 1) (a : BitVec 6) (s : State) : Out :=
  onceWord (.gather f a) (commandInfo f acceptsCache true [a.toNat]) f (gatherBody true a.toNat) s
/-- SCATTER (R312). -/
def execScatter (f : BitVec 1) (a : BitVec 6) (s : State) : Out :=
  onceWord (.scatter f a) (commandInfo f acceptsCache true [a.toNat]) f (gatherBody false a.toNat) s

/-! ### FILLCLR and FILLTST (R169, R310) -/

/-- Writes a g or k register of the issuer. -/
def putReg (x : Issuer) (n : Nat) (v : DWord) (s : State) : State :=
  match x.who with
  | .gang g => modGang s x.t g fun gg => setG gg n v
  | .hawk => writeK s x.t n v

/-- The fields of a word that is not long-latency. -/
def quickInfo (legal : Bool) (reads writes : List Nat) (treat : Treat) : EInfo :=
  { accepts := acceptsNone, fs := none, legal := legal, reads := reads, writes := writes, treat := treat }

/-- FILLCLR (R169, R310). -/
def fillclrBody (a b : Nat) (x : Issuer) (s : State) : ERes :=
  let off := (x.reg a).toNat
  let n := (x.reg b).toNat
  if off % 128 ≠ 0 ∨ n = 0 ∨ 4096 < n then .trap .illegalOperand 0 none
  else if scratchSize x.tm < off + 128 * n then .trap .scratchBounds off (some .ls)
  else
    let ls := linesOf off (128 * n)
    if ls.any fun l => fillTag x.tm l == tagPending then .trap .illegalOperand 0 none
    else .done (modTeam s x.t fun tm => ls.foldl (fun tm l => setFill tm l tagEmpty) tm)

/-- FILLCLR (R310). -/
def execFillclr (a : BitVec 6) (b : BitVec 6) (s : State) : Out :=
  onceWord (.fillclr a b) (quickInfo true [a.toNat, b.toNat] [] .stall) 0 (fillclrBody a.toNat b.toNat) s

/-- The tags of n lines, two bits each (R169). -/
def packTags (tm : Team) (line n : Nat) : Nat :=
  (List.range n).foldl (fun m j => m + (fillTag tm (line + j)).toNat * 4 ^ j) 0

/-- FILLTST of n lines (R169, R310). -/
def filltstBody (d a n : Nat) (x : Issuer) (s : State) : ERes :=
  let off := (x.reg a).toNat
  if off % 128 ≠ 0 then .trap .illegalOperand 0 none
  else if scratchSize x.tm < off + 128 * n then .trap .scratchBounds off (some .ls)
  else .done (putReg x d (BitVec.ofNat 64 (packTags x.tm (off / 128) n)) s)

/-- The flag field and the effect of an engine command (R158). -/
def engineWord : Instr → Option (BitVec 1 × (Issuer → State → ERes))
  | .copy f sc a => some (f, copyBody sc a.toNat)
  | .pcopy f d a b => some (f, pcopyBody d.toNat a.toNat b.toNat)
  | .mcast f sc a => some (f, mcastBody sc a.toNat)
  | .gather f a => some (f, gatherBody true a.toNat)
  | .scatter f a => some (f, gatherBody false a.toNat)
  | _ => none

/-- The hawk's team with the lines PENDING that the engine commands held in its window will mark as they issue. -/
def heldMarks (c : HCtx) (s : State) : Team :=
  let held := (c.hk.window.map (·.held)).getD []
  let s := held.foldl (fun s h =>
    match engineWord h.instr with
    | none => s
    | some (fs, body) =>
      let c' : HCtx := { c with cl := h.clause, hk := { c.hk with k := h.k } }
      match body (hawkIssuer c' fs) s with
      | .done s' => s'
      | _ => s) s
  (listAt s.teams c.t).getD c.tm

/-- FILLTST (R310). Inside a window it is executed (R172), and finds the tags as it would without the window, the engine commands held
there having issued (R30, DEDUCED, log 42). -/
def execFilltst (d : BitVec 6) (a : BitVec 6) (n : BitVec 5) (s : State) : Out :=
  let info := quickInfo true [a.toNat] [d.toNat] .run
  let body := filltstBody d.toNat a.toNat (n.toNat + 1)
  bothWord (.filltst d a n) (fun _ => gangInfo info)
    (fun c s => if c.act = 0 then .done s else toGang c s (body (gangIssuer c 0) s))
    (fun _ => hawkInfo info) (fun c s => toHawk s (body { hawkIssuer c 0 with tm := heldMarks c s } s)) s

/-! ### Named queues (R170, R171) -/

/-- The handles in a queue, head first. -/
def queueOf (tm : Team) (q : Nat) : List Word := smGet [] tm.queues q

/-- The producer index of a stream (R171). -/
def producerOf : StreamName → Nat
  | .gang g => g
  | .hawk => 16

/-- A producer's allowance for a queue. -/
def allowance (tm : Team) (q p : Nat) : Nat := smGet 0 tm.allow (q * 17 + p)

/-- Sets an allowance. -/
def setAllowance (tm : Team) (q p n : Nat) : Team := { tm with allow := smSet 0 tm.allow (q * 17 + p) n }

/-- Sets a queue's contents. -/
def setQueue (tm : Team) (q : Nat) (l : List Word) : Team := { tm with queues := smSet [] tm.queues q l }

/-- Every other stream of the team has finished: every other gang has exited, and the hawk has stopped (R171, R344). -/
def othersGone (tm : Team) (who : StreamName) : Bool :=
  (tm.gangs.zipIdx.all fun x => who == .gang x.2 || gangExited x.1) && (who == .hawk || tm.hawk.st == .stopped)

/-- FIRST and the line count of a handle (R170). -/
def handleLines (h : Word) : Nat × Nat := (bitsN h.toNat 12 0, bitsN h.toNat 25 13 + 1)

/-- QPUSH (R171, R343, R344). A push that completes is a release at team scope (R140, R146). -/
def qpushBody (a q : Nat) (x : Issuer) (s : State) : ERes :=
  let h : Word := (x.reg a).setWidth 32
  let (first, n) := handleLines h
  let p := producerOf x.who
  if 4096 < first + n then .trap .illegalOperand 0 none
  else if x.tm.lines < first + n then .trap .scratchBounds (128 * first) none
  else if allowance x.tm q p = 0 ∨ 16 ≤ (queueOf x.tm q).length then
    if othersGone x.tm x.who then .trap .queueMisuse 0 none else .wait (.qpush q) s
  else .done (modTeam (releaseBy s x.t x.who 3) x.t fun tm => setAllowance (setQueue tm q (queueOf tm q ++ [h])) q p (allowance tm q p - 1))

/-- QPUSH (R343). -/
def execQpush (a : BitVec 6) (q : BitVec 4) (s : State) : Out :=
  onceWord (.qpush a q) (quickInfo true [a.toNat] [] .stall) 0 (qpushBody a.toNat q.toNat) s

/-- Takes the head handle: the writer marks of its lines are cleared (R149, R171). -/
def popHandle (x : Issuer) (q d : Nat) (h : Word) (rest : List Word) (s : State) : State :=
  let (first, n) := handleLines h
  let s := modTeam s x.t fun tm => ((List.range n).map (· + first)).foldl (fun tm l => setMark tm l 31) (setQueue tm q rest)
  putReg x d (h.setWidth 64) s

/-- QPOP (R171, R343). -/
def qpopBody (d q : Nat) (x : Issuer) (s : State) : ERes :=
  match queueOf x.tm q with
  | [] => if othersGone x.tm x.who then .trap .queueMisuse 0 none else .wait (.qpop q) s
  | h :: rest => .done (popHandle x q d h rest s)

/-- QPOP (R343). -/
def execQpop (d : BitVec 6) (q : BitVec 4) (s : State) : Out :=
  onceWord (.qpop d q) (quickInfo true [] [d.toNat] .stall) 0 (qpopBody d.toNat q.toNat) s

/-- QTRY (R171, R343): a predicate in the active lanes of a gang, a condition bit of the hawk. -/
def execQtry (d : BitVec 6) (p : BitVec 5) (q : BitVec 4) (s : State) : Out :=
  bothWord (.qtry d p q)
    (fun _ => { plainInfo with legal := decide (d.toNat < 32) && decide (p.toNat < 24), writes := [.g d.toNat, .p p.toNat] })
    (fun c s =>
      if c.act = 0 then .done s
      else
        let set (ok : Bool) (s : State) : State :=
          modGang s c.t c.g fun gg => setP gg p.toNat c.act (if ok then allLanes else 0)
        match queueOf c.tm q.toNat with
        | [] => .done (set false s)
        | h :: rest => .done (set true (popHandle (gangIssuer c 0) q.toNat d.toNat h rest s)))
    (fun _ => { plainHInfo with legal := decide (p.toNat < 8), writes := [d.toNat], cwrites := [p.toNat], treat := .stall })
    (fun c s =>
      let set (ok : Bool) (s : State) : State := modHawk s c.t fun hk => { hk with c := setCBit hk.c p.toNat ok }
      match queueOf c.tm q.toNat with
      | [] => .done (set false s)
      | h :: rest => .done (set true (popHandle (hawkIssuer c 0) q.toNat d.toNat h rest s))) s

/-- The IMMX before a QALLOW, where its payload is above 31 (R343). -/
def badAllowHint (hs : List (DWord × Instr)) : Option (DWord × Instr) :=
  hs.find? fun h => match h.2 with
    | .immxImmediate x => decide (32 ≤ x.toNat)
    | _ => false

/-- QALLOW and QALLOW.ADD (R171, R343). -/
def qallowBody (add : BitVec 1) (a : Nat) (n : BitVec 11) (q : Nat) (x : Issuer) (s : State) : ERes :=
  let p := (x.reg a).toNat
  let v := (immHint x.hints).getD 0 % 32 * 2 ^ 11 + n.toNat
  if p ≠ 16 ∧ x.tm.gangCount ≤ p then .trap .queueMisuse 0 none
  else .done (modTeam s x.t fun tm =>
    setAllowance tm q p (if flag1 add then min 65535 (allowance tm q p + v) else v))

/-- QALLOW, its IMMX judged by the word in a gang and before it in a hawk. -/
def qallowWord (m : BitVec 1) (a : BitVec 6) (n : BitVec 11) (q : BitVec 4) (s : State) : Out :=
  bothWord (.qallow m a n q)
    (fun c =>
      { plainInfo with
        accepts := acceptsImm
        legal := (badAllowHint c.cl.hints).isSome || decide (a.toNat < 32)
        reads := if (badAllowHint c.cl.hints).isSome then [] else [.g a.toNat] })
    (fun c s =>
      match badAllowHint c.cl.hints with
      | some h => .moved (trapAtHint s c h)
      | none => if c.act = 0 then .done s else toGang c s (qallowBody m a.toNat n q.toNat (gangIssuer c 0) s))
    (fun _ => { plainHInfo with accepts := acceptsImm, reads := [a.toNat], treat := .stall })
    (fun c s => toHawk s (qallowBody m a.toNat n q.toNat (hawkIssuer c 0) s)) s

/-- QALLOW (R343). A hawk's IMMX with a payload above 31 traps whatever the guard (R267). -/
def execQallow (m : BitVec 1) (a : BitVec 6) (n : BitVec 11) (q : BitVec 4) (s : State) : Out :=
  match gangCtx s, hawkCtx s with
  | none, some c =>
    match badHint acceptsImm c.cl.hints [], badAllowHint c.cl.hints with
    | none, some h => .next (trapAtHawkHint s c h)
    | _, _ => qallowWord m a n q s
  | _, _ => qallowWord m a n q s

end Sys2Proof.Machine
end

