-- ==== Sys2Proof/Machine/HawkWords.lean ====
section
/-!
DEFINITION. The words of major 0xD but LAUNCH: hawk arithmetic (R319), compares and branches (R320, R321, R30), loads and stores
(R322, R323), KWAIT, KSTOP (R324, R325) and DQPUSH (R302).
-/
namespace Sys2Proof.Machine

/-- A hawk word one of whose fields must be zero and is not traps with ILLEGAL_INSTRUCTION, before its other checks (R262,
R267). -/
def hawkChecked (i : Instr) (bad : Bool) (info : HCtx → HInfo) (body : HCtx → State → HRes) (s : State) : Out :=
  if bad then
    match hawkCtx s, gangCtx s with
    | some c, _ => .next (trapHawk s c i .illegalInstruction 0)
    | none, some c => .next (gangIllegal i s c)
    | none, none => .refused .noStream
  else hawkWord i info body s

/-! ### Arithmetic (R319) -/

/-- The second operand of a K word: a register, or the immediate (R319). -/
def kOperand (c : HCtx) (imm : BitVec 1) (b : BitVec 10) : DWord :=
  if flag1 imm then kImm c.cl.hints b else kReg c.hk b.toNat

/-- The k registers that the second operand reads. -/
def kOperandReg (imm : BitVec 1) (b : BitVec 10) : List Nat := if flag1 imm then [] else [b.toNat]

/-- KB[9:6] must be zero with I = 0 (R319). -/
def kbBad (imm : BitVec 1) (b : BitVec 10) : Bool := !flag1 imm && decide (64 ≤ b.toNat)

/-- A K word that computes one k register. -/
def kWord (i : Instr) (imm : BitVec 1) (d a : BitVec 6) (b : BitVec 10) (f : DWord → DWord → DWord) (s : State) : Out :=
  hawkChecked i (kbBad imm b)
    (fun _ => { plainHInfo with
      accepts := if flag1 imm then acceptsImm else acceptsNone, reads := a.toNat :: kOperandReg imm b, writes := [d.toNat] })
    (fun c s => .done (writeK s c.t d.toNat (f (kReg c.hk a.toNat) (kOperand c imm b)))) s

/-- KADD (R319). -/
def execKadd (imm : BitVec 1) (d : BitVec 6) (a : BitVec 6) (b : BitVec 10) (s : State) : Out :=
  kWord (.kadd imm d a b) imm d a b (· + ·) s
/-- KSUB (R319). -/
def execKsub (imm : BitVec 1) (d : BitVec 6) (a : BitVec 6) (b : BitVec 10) (s : State) : Out :=
  kWord (.ksub imm d a b) imm d a b (· - ·) s
/-- KMUL (R319). -/
def execKmul (imm : BitVec 1) (d : BitVec 6) (a : BitVec 6) (b : BitVec 10) (s : State) : Out :=
  kWord (.kmul imm d a b) imm d a b (· * ·) s
/-- KAND (R319). -/
def execKand (imm : BitVec 1) (d : BitVec 6) (a : BitVec 6) (b : BitVec 10) (s : State) : Out :=
  kWord (.kand imm d a b) imm d a b (· &&& ·) s
/-- KOR (R319). -/
def execKor (imm : BitVec 1) (d : BitVec 6) (a : BitVec 6) (b : BitVec 10) (s : State) : Out :=
  kWord (.kor imm d a b) imm d a b (· ||| ·) s
/-- KXOR (R319). -/
def execKxor (imm : BitVec 1) (d : BitVec 6) (a : BitVec 6) (b : BitVec 10) (s : State) : Out :=
  kWord (.kxor imm d a b) imm d a b (· ^^^ ·) s
/-- KSHL (R319). -/
def execKshl (imm : BitVec 1) (d : BitVec 6) (a : BitVec 6) (b : BitVec 10) (s : State) : Out :=
  kWord (.kshl imm d a b) imm d a b (fun x y => x <<< (y.toNat % 64)) s
/-- KSHR (R319). -/
def execKshr (imm : BitVec 1) (d : BitVec 6) (a : BitVec 6) (b : BitVec 10) (s : State) : Out :=
  kWord (.kshr imm d a b) imm d a b (fun x y => x >>> (y.toNat % 64)) s

/-- KMOV (R319). -/
def execKmov (imm : BitVec 1) (d : BitVec 6) (b : BitVec 10) (s : State) : Out :=
  hawkChecked (.kmov imm d b) (kbBad imm b)
    (fun _ => { plainHInfo with
      accepts := if flag1 imm then acceptsImm else acceptsNone, reads := kOperandReg imm b, writes := [d.toNat] })
    (fun c s => .done (writeK s c.t d.toNat (kOperand c imm b))) s

/-! ### KCMP (R30, R321) -/

/-- A register as the source of a KCMP: pending on a load, or its value. -/
def cmpSource (hk : Hawk) (n : Nat) : CmpSource :=
  match hk.kpend.find? fun p => p.1 == n with
  | some p => .load p.2
  | none => .value (kReg hk n)

/-- A register that held work of the window will write (R31). -/
def heldPending (hk : Hawk) (n : Nat) : Bool :=
  match hk.window with
  | some w => w.held.any fun h => (heldWrites h.instr).contains n
  | none => false

/-- KCMP (R321): with a pending source its bit is pending too (R30). -/
def execKcmp (imm : BitVec 1) (d : BitVec 3) (cond : BitVec 3) (a : BitVec 6) (b : BitVec 10) (s : State) : Out :=
  hawkChecked (.kcmp imm d cond a b) (kbBad imm b)
    (fun _ => { plainHInfo with accepts := if flag1 imm then acceptsImm else acceptsNone, cwrites := [d.toNat] })
    (fun c s =>
      if (a.toNat :: kOperandReg imm b).any (heldPending c.hk) then .wait .interlock s
      else
        let x := cmpSource c.hk a.toNat
        let y := if flag1 imm then .value (kOperand c imm b) else cmpSource c.hk b.toNat
        match x, y with
        | .value x, .value y => .done (modHawk s c.t fun hk => { hk with c := setCBit hk.c d.toNat (kcmpHolds cond x y) })
        | _, _ =>
          .done (modHawk s c.t fun hk =>
            { hk with cpend := hk.cpend ++ [{ inWindow := hk.window.map (·.count), cbit := d.toNat, cond := cond, a := x, b := y }] })) s

/-! ### KBR, KCALL, KRET (R30, R320) -/

/-- The target of a hawk branch (R320). -/
def hawkTarget (c : HCtx) (o : BitVec 17) : DWord := wordTarget c.hk.pc (branchOff c.cl.hints o)

/-- What a branching K word needs. -/
def kbrInfo : HInfo := { plainHInfo with accepts := acceptsImm, ends := true }

/-- The predicted direction of a KBR (R30): the counter's upper half predicts taken. -/
def predictTaken (hk : Hawk) : Bool := decide (2 ≤ (smGet 0 hk.predictor (bits64 hk.pc 9 2)).toNat)

/-- Opens a speculation window at a KBR (R30, R31). -/
def openWindow (c : HCtx) (cb : Nat) (neg : Bool) (o : BitVec 17) (s : State) : State :=
  let taken := predictTaken c.hk
  let w : SpecWindow :=
    { pc := c.hk.pc, clause := c.cl, cbit := cb, neg := neg, target := hawkTarget c o, predicted := taken, k := c.hk.k,
      c := c.hk.c, ret := c.hk.ret, firstOp := c.tm.nextOp, count := 0, held := [], fault := none, committing := false, link := false }
  moveHawk (modHawk s c.t fun hk => { hk with window := some w }) c.t (if taken then hawkTarget c o else c.hk.pc + 4)

/-- KBR (R320). The step that opens a window does not count as an instruction inside it. -/
def execKbr (n : BitVec 1) (cc : BitVec 3) (l : BitVec 1) (o : BitVec 17) (s : State) : Out :=
  hawkChecked (.kbr n cc l o) (flag1 l && (cc != 0 || n != 0)) (fun _ => kbrInfo)
    (fun c s =>
      if flag1 l then .moved (moveHawk s c.t (hawkTarget c o))
      else if cPending c.hk cc.toNat then
        if c.hk.window.isSome then .wait .interlock s else .moved (openWindow c cc.toNat (flag1 n) o s)
      else .moved (moveHawk s c.t (if cBit c.hk.c cc.toNat != flag1 n then hawkTarget c o else c.hk.pc + 4))) s

/-- KCALL (R67, R320). -/
def execKcall (o : BitVec 17) (s : State) : Out :=
  hawkWord (.kcall o) (fun _ => kbrInfo)
    (fun c s =>
      if 16 ≤ c.hk.ret.length then .trap .stackOverflow 0
      else .moved (moveHawk (modHawk s c.t fun hk => { hk with ret := (c.hk.pc + 4) :: hk.ret }) c.t (hawkTarget c o))) s

/-- KRET (R67, R320). -/
def execKret (s : State) : Out :=
  hawkWord .kret (fun _ => { plainHInfo with ends := true })
    (fun c s =>
      match c.hk.ret with
      | [] => .trap .stackOverflow 0
      | x :: rest => .moved (moveHawk (modHawk s c.t fun hk => { hk with ret := rest }) c.t x)) s

/-! ### Addresses (R322) -/

/-- The place that a K address names. -/
inductive KPlace where
  | mem (va : Nat)
  | scratch (off : Nat)
  | bad
deriving DecidableEq, Repr

/-- Reads an effective address (R322). -/
def kPlace (e : DWord) : KPlace :=
  if !e.getLsbD 63 then .mem e.toNat else if bits64 e 62 23 ≠ 0 then .bad else .scratch (bits64 e 22 0)

/-- The effective address of a plain KLD or KST (R322). -/
def kAddr (k : Smap DWord) (a : BitVec 6) (o : BitVec 10) : DWord := smGet 0 k a.toNat + BitVec.ofInt 64 (8 * o.toInt)

/-- The hints of KLD and KST (R322). -/
def acceptsK : Accepts := ⟨false, false, true, true, false⟩

/-- The order of a plain KLD or KST. -/
def kOrder (c : HCtx) : Nat := ((scopeHint c.cl.hints).map (·.order)).getD 0
/-- Its scope. -/
def kScope (c : HCtx) : Nat := ((scopeHint c.cl.hints).map (·.scope)).getD 0

/-- The requirements of the hawk's access (R123, R135, R147). -/
def hawkReq (s : State) (c : HCtx) (a : Access) : Req :=
  { asid := asidOf s c.tm, acc := a, agent := agentId c.tm .hawk, core := some c.tm.core, race := raceMode s c.tm
    behind := deviceAhead s c.tm .hawk none }

/-- Runs a hawk word's body under the release gate (R138, R146, R241). -/
def hawkRelease (c : HCtx) (rel : Bool) (scope : Nat) (body : (State → State) → State → HRes) (s : State) : HRes :=
  if !rel then body id s
  else match relGate s c.t c.tm .hawk scope with
    | .hold => .wait .interlock s
    | .report r s' => .report 15 r true s'
    | .go => body (fun s => releaseBy s c.t .hawk scope) s

/-- Whether a scratchpad form may have its order (R322). -/
def scratchOrderOk (c : HCtx) : Bool := kOrder c == 0 || decide (kScope c ≤ 3)

/-- The checks of the hawk's scratchpad access (R106, R149, R322). -/
def hawkScratch (s : State) (c : HCtx) (off len : Nat) (tagged : Bool) : Option HRes :=
  match checkScratch s c.tm .hawk off len len tagged with
  | .ok => none
  | .bad cause => some (.trapAcc s cause (BitVec.ofNat 64 off) .ls)
  | .stall ls => some (.wait (.fill ls) s)

/-! ### KLD -/

/-- What the window's held stores say of a byte: nothing, its value, or that an atomic on it is held (R31). -/
inductive Forward where
  | miss
  | value (b : Byte)
  | stall
deriving DecidableEq, Repr

/-- The physical address of a byte of an address space: two ranges may share memory. -/
def physAlias (s : State) (asid va : Nat) : Option Nat := (findRange s asid va).map fun x => x.2.pbase + (va - x.2.base)

/-- What one held word says of a byte of a place; `phys` gives the physical address of a virtual one, by which the same bytes are
known under another name. -/
def forwardOne (phys : Nat → Option Nat) (p : KPlace) (h : HeldWork) (old : Forward) : Forward :=
  let within (q : KPlace) (len : Nat) : Option Nat :=
    match p, q with
    | .mem a, .mem b => (List.range len).find? fun n => a == b + n || ((phys a).isSome && phys a == phys (b + n))
    | .scratch a, .scratch b => if b ≤ a ∧ a < b + len then some (a - b) else none
    | _, _ => none
  match h.instr with
  | .kst d a o =>
    match within (kPlace (kAddr h.k a o)) 8 with
    | some n => .value (BitVec.ofNat 8 ((smGet 0 h.k d.toNat).toNat / 2 ^ (8 * n)))
    | none => old
  | .kstAtomic _ a _ w =>
    match within (kPlace (smGet 0 h.k a.toNat)) (if flag1 w then 8 else 4) with
    | some _ => .stall
    | none => old
  | _ => old

/-- A byte n of a place, as the window's held stores leave it. -/
def forwardByte (phys : Nat → Option Nat) (hk : Hawk) (p : KPlace) (n : Nat) : Forward :=
  let q := match p with
    | .mem a => KPlace.mem (a + n)
    | .scratch a => .scratch (a + n)
    | .bad => .bad
  match hk.window with
  | some w => w.held.foldl (fun f h => forwardOne phys q h f) .miss
  | none => .miss

/-- The bytes read, with the window's held stores over them; none where a held atomic stands in the way. -/
def forwarded (phys : Nat → Option Nat) (hk : Hawk) (p : KPlace) (bs : List Byte) : Option (List Byte) :=
  let fs := bs.zipIdx.map fun x => (x.1, forwardByte phys hk p x.2)
  if fs.any fun x => x.2 == .stall then none
  else some (fs.map fun x => match x.2 with
    | .value b => b
    | _ => x.1)

/-- The end of a KLD: its register is pending until it completes (R30, R322). -/
def endKld (c : HCtx) (fs : BitVec 1) (d : Nat) (p : KPlace) (bs : List Byte) (s : State) : HRes :=
  match forwarded (physAlias s (asidOf s c.tm)) c.hk p bs with
  | none => .wait .interlock s
  | some bs =>
    let f := hawkFlag c fs
    let s := modHawk (raiseHawkFlag s c.t f) c.t fun hk => { hk with kpend := hk.kpend ++ [(d, c.tm.nextOp)] }
    .done (addLoad s c.t .hawk f [.kpr d (BitVec.ofNat 64 (natOf bs))])

/-- A KLD from global memory (R322). -/
def kldGlobal (c : HCtx) (fs : BitVec 1) (d va : Nat) (s : State) : HRes :=
  let q := hawkReq s c .read
  if kOrder c ≠ 0 ∧ va % 8 ≠ 0 then .trapAcc s .misaligned (BitVec.ofNat 64 va) (classAt s q.asid va)
  else hawkRelease c (releases (kOrder c)) (kScope c) (fun release s =>
    let found := checkSpan s q va 8
    let s := touchSpan s c.tm.core q.asid va 8
    match found with
    | .bad cause _ => .trapAcc s cause (BitVec.ofNat 64 va) (classAt s q.asid va)
    | .park w => .wait w (startPark s q.asid w)
    | .ok ps =>
      match askPieces (hawkSender c) ps (openPieces s ps) with
      | (s, some (.waiting id), _) => .wait (.peer id) s
      | (s, some .full, _) => .wait .interlock s
      | (s, some (.got false _), _) => .trapAcc (consumeHawk s c) .poison (BitVec.ofNat 64 va) .lk
      | (s, _, got) =>
        let data := readPieces s (some c.tm.core) (answered got) ps
        let s := release (consumeHawk s c)
        endKld c fs d (.mem va) data (allocPieces s c.tm.core (cacheHint c.cl.hints) ps)) s

/-- How an open window treats a KLD (R31): it is performed, but prediction changes no value (R30): behind a held engine command a read
of scratchpad, and behind a held change of a range a read of memory, waits for the window. A KLD that releases would be seen
outside a window that is squashed (R33): it waits too. -/
def kldTreat (c : HCtx) (a : BitVec 6) (o : BitVec 10) : Treat :=
  let behind := match kPlace (kAddr c.hk.k a o) with
    | .mem _ => windowHasWord c isRangeChange
    | .scratch _ => windowHasWord c isEngineWord
    | .bad => false
  if releases (kOrder c) || behind then .stall else .run

/-- KLD (R322). -/
def execKld (f : BitVec 1) (d : BitVec 6) (a : BitVec 6) (o : BitVec 10) (s : State) : Out :=
  hawkWord (.kld f d a o)
    (fun c => { plainHInfo with
      accepts := acceptsK, fs := some f, legal := plainOrders c.cl.hints [0, 1, 3], reads := [a.toNat], writes := [d.toNat]
      treat := kldTreat c a o })
    (fun c s =>
      match kPlace (kAddr c.hk.k a o) with
      | .bad => .trap .illegalOperand 0
      | .mem va => kldGlobal c f d.toNat va s
      | .scratch off =>
        if !scratchOrderOk c then .trap .illegalOperand 0
        else match hawkScratch s c off 8 true with
          | some r => r
          | none => hawkRelease c (releases (kOrder c)) (kScope c) (fun release s =>
              endKld c f d.toNat (.scratch off) (scratchBytes c.tm off 8) (release s)) s) s

/-! ### KST and its atomic forms -/

/-- A KST to global memory (R322): checked whole, then performed. -/
def kstGlobal (c : HCtx) (va : Nat) (bs : List Byte) (s : State) : HRes :=
  let q := hawkReq s c .write
  let plain := kOrder c == 0
  if !plain ∧ va % 8 ≠ 0 then .trapAcc s .misaligned (BitVec.ofNat 64 va) (classAt s q.asid va)
  else hawkRelease c (releases (kOrder c)) (kScope c) (fun release s =>
    let found := checkSpan s q va 8
    let s := touchSpan s c.tm.core q.asid va 8
    match found with
    | .bad cause _ => .trapAcc s cause (BitVec.ofNat 64 va) (classAt s q.asid va)
    | .park w => .wait w (startPark s q.asid w)
    | .ok ps =>
      if !hasRoom s (peerLines ps) then .wait .interlock s
      else
      let s := openPieces (release s) ps
      let s := lsWrite s c.tm.core (storeInstall (cacheHint c.cl.hints) ps) (memWrites ps bs)
      let s := if plain && raceMode s c.tm then markStore s (agentId c.tm .hawk) (trackedSectors ps) else s
      let s := if plain && ps.any isMemory then modTeam s c.t fun tm => { tm with plainStore := true } else s
      .done (sendStores s c.t (hawkSender c) ps bs)) s

/-- The effect of KST outside a window, and at commit (R322). -/
def kstBody (d a : BitVec 6) (o : BitVec 10) (c : HCtx) (s : State) : HRes :=
  let bs := bytesOf 8 (kReg c.hk d.toNat).toNat
  match kPlace (kAddr c.hk.k a o) with
  | .bad => .trap .illegalOperand 0
  | .mem va => kstGlobal c va bs s
  | .scratch off =>
    if !scratchOrderOk c then .trap .illegalOperand 0
    else match hawkScratch s c off 8 false with
      | some r => r
      | none => hawkRelease c (releases (kOrder c)) (kScope c) (fun release s =>
          .done (scratchStore (release s) c.t .hawk (writesAt off bs))) s

/-- KST (R322). -/
def execKst (d : BitVec 6) (a : BitVec 6) (o : BitVec 10) (s : State) : Out :=
  hawkWord (.kst d a o)
    (fun c => { plainHInfo with
      accepts := acceptsK, legal := plainOrders c.cl.hints [0, 2, 3], reads := [a.toNat, d.toNat], treat := .hold false })
    (kstBody d a o) s

/-- A KST atomic on global memory (R323). -/
def kstAtomicGlobal (c : HCtx) (o : BitVec 5) (w : BitVec 1) (x : Nat) (va : Nat) (s : State) : HRes :=
  let q := hawkReq s c .atomic
  let len := atomicLen w
  let sc := atomicScope c.cl.hints
  if va % len ≠ 0 then .trapAcc s .misaligned (BitVec.ofNat 64 va) (classAt s q.asid va)
  else hawkRelease c (releases sc.order) sc.scope (fun release s =>
    let found := checkSpan s q va len
    let s := touchSpan s c.tm.core q.asid va len
    match found with
    | .bad cause _ => .trapAcc s cause (BitVec.ofNat 64 va) (classAt s q.asid va)
    | .park w => .wait w (startPark s q.asid w)
    | .ok ps =>
      if !hasRoom s (peerLines ps) then .wait .interlock s
      else
      let s := release s
      let s := if sc.use = 2 then s else escape s c.t
      let s := openPieces s ps
      match onePiece ps with
      | some (_, .mem pa _) =>
        .done (placedAtomic s c.tm.core (cacheHint c.cl.hints) len pa ps fun old => atomicValue o.toNat (8 * len) old x).1
      | some (p, .peer win pa) =>
        .done (sendNoReturn s c.t (hawkSender c) p win pa (.atomic o (flag1 w) (BitVec.ofNat 64 x) false))
      | _ => .done s) s

/-- The effect of a KST atomic outside a window, and at commit (R323): scratchpad as ATOMS (R283). -/
def kstAtomicBody (d a : BitVec 6) (o : BitVec 5) (w : BitVec 1) (c : HCtx) (s : State) : HRes :=
  let len := atomicLen w
  let x := (kReg c.hk d.toNat).toNat % 2 ^ (8 * len)
  let sc := atomicScope c.cl.hints
  match kPlace (kReg c.hk a.toNat) with
  | .bad => .trap .illegalOperand 0
  | .mem va => kstAtomicGlobal c o w x va s
  | .scratch off =>
    if 3 < sc.scope then .trap .illegalOperand 0
    else match hawkScratch s c off len true with
      | some r => r
      | none => hawkRelease c (releases sc.order) sc.scope (fun release s =>
          let new := atomicValue o.toNat (8 * len) (natOf (scratchBytes c.tm off len)) x
          .done (scratchStore (release s) c.t .hawk (writesAt off (bytesOf len new)))) s

/-- KST.op (R323): with the speculative use it is held inside a window, with any other it stalls (R31). -/
def execKstAtomic (d : BitVec 6) (a : BitVec 6) (o : BitVec 5) (w : BitVec 1) (s : State) : Out :=
  hawkWord (.kstAtomic d a o w)
    (fun c => { plainHInfo with
      accepts := acceptsK
      legal := atomicOpOk o (flag1 w) && useOk (atomicScope c.cl.hints) [2, 3] (if commutes o then [1, 2, 5] else [1, 5])
      reads := [a.toNat, d.toNat]
      treat := if (atomicScope c.cl.hints).use = 5 then .hold false else .stall })
    (kstAtomicBody d a o w) s

/-! ### KWAIT, KSTOP, DQPUSH -/

/-- KWAIT (R325). -/
def execKwait (f : BitVec 12) (s : State) : Out :=
  hawkWord (.kwait f) (fun _ => { plainHInfo with treat := .stall })
    (fun c s =>
      if !flagsClear c.hk.flags f then .wait (.kwait f) s
      else match reportIn c.hk.reports f with
        | some (n, r) => .report n r false (modHawk s c.t fun hk => { hk with reports := smErase hk.reports n })
        | none => .done s) s

/-- KSTOP (R324): the hawk stops for good, and a handler it is in ends (R226). -/
def execKstop (s : State) : Out :=
  hawkWord .kstop (fun _ => { plainHInfo with ends := true, treat := .stall })
    (fun c s =>
      let s := modHawk s c.t fun hk => { hk with pc := hk.pc + 4, clause := none, st := .stopped, handler := none }
      .moved (honour (checkRetire s c.t) c.t)) s

/-- The gangs that a DQPUSH appends to (R302). -/
def pushTargets (tm : Team) (bc : BitVec 1) (n : Nat) : List Nat :=
  if flag1 bc then (List.range tm.gangCount).filter fun g => !((gangOf tm g).all gangExited) else [n]

/-- A decision queue with no room (R29). -/
def dqFull (tm : Team) (g : Nat) : Bool := (gangOf tm g).any fun gg => decide (16 ≤ gg.dq.length)

/-- DQPUSH (R29, R302): inside a window the entries are marked speculative (R31). Once committed it is a release at team scope (R140,
R146): outside a window at once, inside one when the window's commit comes to it. -/
def execDqpush (a : BitVec 6) (b : BitVec 1) (n : BitVec 4) (s : State) : Out :=
  hawkChecked (.dqpush a b n) (flag1 b && n != 0) (fun _ => { plainHInfo with reads := [a.toNat] })
    (fun c s =>
      if !flag1 b ∧ (gangOf c.tm n.toNat).all gangExited then .trap .queueMisuse 0
      else
        let ts := pushTargets c.tm b n.toNat
        match ts.find? (dqFull c.tm) with
        | some g => .wait (.dqpush g) s
        | none =>
          let e : DqEntry := { val := kReg c.hk a.toNat, spec := c.hk.window.isSome }
          let s := if c.hk.window.isSome then s else releaseBy s c.t .hawk 3
          .done (ts.foldl (fun s g => modGang s c.t g fun gg => { gg with dq := gg.dq ++ [e] }) s)) s

end Sys2Proof.Machine
end

