-- ==== Sys2Proof/Machine/Launching.lean ====
section
/-!
DEFINITION. Launch records: their layout and checks (12 R205 to R207), acceptance, the write of a launch port (SUBMIT), the
hawk's LAUNCH (18 R326).
-/
namespace Sys2Proof.Machine

/-! ### The record (R205) -/

/-- The k-th 64-bit word of a launch record. -/
def recWord (bs : List Byte) (k : Nat) : Nat := natOf ((bs.drop (8 * k)).take 8)

/-- Reads a launch record (R205). -/
def readRecord (bs : List Byte) : LaunchRecord :=
  let w := recWord bs
  { gentry := BitVec.ofNat 64 (bitsN (w 0) 55 0), hentry := BitVec.ofNat 64 (bitsN (w 1) 55 0), param := BitVec.ofNat 64 (bitsN (w 2) 55 0),
    tcount := bitsN (w 3) 23 0, cpt := bitsN (w 3) 27 24, gangs := bitsN (w 3) 31 28 + 1, vregs := 8 * (bitsN (w 3) 35 32 + 1),
    acct := bitsN (w 3) 40 36, splines := bitsN (w 3) 53 41, prio := bitsN (w 4) 5 0, asid := bitsN (w 4) 18 6,
    strict := bitN (w 4) 19, race := bitN (w 4) 20, idem := bitN (w 4) 21, skim := bitN (w 4) 22, sys := bitN (w 4) 23,
    snap := bitN (w 4) 24, pclass := bitsN (w 4) 26 25, sdist := bitsN (w 4) 28 27, retry := bitsN (w 4) 32 29,
    preds := [bitsN (w 6) 31 0, bitsN (w 6) 63 32, bitsN (w 7) 31 0, bitsN (w 7) 63 32].take (bitsN (w 4) 35 33),
    ninput := bitsN (w 4) 43 36, seed := BitVec.ofNat 64 (w 5), inlist := bitsN (w 8) 55 0, stepd := bitsN (w 9) 55 0,
    ctxbase := bitsN (w 10) 51 0, ctxn := bitsN (w 11) 23 0, done := bitsN (w 12) 51 0 }

/-- Check 0x01 of R207: a reserved field or value, or an address that is not aligned. -/
def recordReserved (bs : List Byte) : Bool :=
  let w := recWord bs
  (bitsN (w 0) 63 56 != 0) || (bitsN (w 1) 63 56 != 0) || (bitsN (w 2) 63 56 != 0) || (bitsN (w 3) 63 54 != 0) ||
  (bitsN (w 4) 63 44 != 0) || (bitsN (w 8) 63 56 != 0) || (bitsN (w 9) 63 56 != 0) || (bitsN (w 10) 63 52 != 0) ||
  (bitsN (w 11) 63 24 != 0) || (bitsN (w 12) 63 52 != 0) || (w 13 != 0) || (w 14 != 0) || (w 15 != 0) ||
  decide (13 < bitsN (w 3) 35 32) || (bitsN (w 4) 26 25 == 3) || (w 0 % 4 != 0) || (w 1 % 4 != 0) || (w 8 % 8 != 0) ||
  (bitsN (w 4) 26 25 == 1 && w 9 % 32 != 0) || (w 10 % 4096 != 0)

/-- Check 0x02 of R207: counts out of range. -/
def recordCounts (bs : List Byte) : Bool :=
  let r := readRecord bs
  (r.tcount == 0) || (r.cpt == 0) || decide (8 < r.cpt) || (r.tcount % r.cpt != 0) || (r.sdist == 0) ||
  decide (4 < bitsN (recWord bs 4) 35 33) || decide (16 < r.acct) || decide (4096 < r.splines) || (r.ctxn == 0)

/-! ### The checks of R207 -/

/-- Whether [lo, hi) lies wholly in the fast tier (R17). -/
def inFast (lo hi : Nat) : Bool := decide (lo ≤ hi) && decide (hi ≤ Config.fastHi)

/-- The identifier after another (R207). -/
def lidAfter (n : Nat) : Nat := if n = 2 ^ 32 - 1 then 1 else n + 1

/-- How many identifiers before n an identifier p was issued, counted across the wrap (R208). -/
def lidAge (n p : Nat) : Nat := if p < n then n - p else n + (2 ^ 32 - 1) - p

/-- An identifier is one of the 65,535 issued most recently before the next (R208). -/
def recentLid (s : State) (p : Nat) : Bool :=
  decide (p ≠ 0) && decide (1 ≤ lidAge s.nextLid p) && decide (lidAge s.nextLid p ≤ min 65535 s.issued)

/-- The records that count towards a queue's 64 (R207). -/
def queueOfPort (s : State) (q : Nat) : List Nat := smGet [] s.queues q

/-- The outcome of a submission (R207): the code of the first failing check, 0 for none. -/
def checkRecord (s : State) (q : Nat) (bs : List Byte) : Nat :=
  let r := readRecord bs
  if !s.bootdone then 9
  else if recordReserved bs then 1
  else if recordCounts bs then 2
  else if !(asidDesc s r.asid).en then 3
  else if !r.sys && r.pclass == 2 then 4
  else if r.preds.any fun p => !recentLid s p then 5
  else if !inFast r.ctxbase (r.ctxbase + r.ctxn * slotSize r) || !inFast r.done (r.done + 8) then 6
  else if !((List.range 24).any fun cl => decide (r.cpt ≤ clusterPresent s cl)) then 7
  else if 64 ≤ (queueOfPort s q).length then 8
  else 0

/-- The completion status that the scheduler holds for a launch that is not live (R208). -/
def heldStatus (s : State) (lid : Nat) : Option Nat := (s.completed.find? fun x => x.1 == lid).map (·.2)

/-- The links of a launch to its predecessors at acceptance: a live one passes its status when it completes, another the status that is
held for it (R208). -/
def linkPreds (s : State) (preds : List Nat) : List (Nat × Option Nat) :=
  preds.map fun p => (p, if (launchOf s p).isSome then none else heldStatus s p)

/-- Accepts a record: the launch takes the next identifier and stands at the end of its queue (R207, R208). -/
def acceptLaunch (s : State) (q : Nat) (bs : List Byte) : State :=
  let l : Launch :=
    { lid := s.nextLid, queue := q, record := readRecord bs, nextTid := 0, nextChild := (readRecord bs).tcount, vector := none,
      stepDecl := none, cancelled := false, status := 0, fcause := 0, fteam := 0, preds := linkPreds s (readRecord bs).preds, order := s.stamp }
  { s with
    launches := s.launches ++ [l]
    queues := smSet [] s.queues q (queueOfPort s q ++ [s.nextLid])
    issued := s.issued + 1
    nextLid := lidAfter s.nextLid
    stamp := s.stamp + 1 }

/-- A span that the map populates: memory of one tier, or device register space (R17). -/
def populated (lo len : Nat) : Bool :=
  inFast lo (lo + len) || (decide (Config.capLo ≤ lo) && decide (lo + len ≤ Config.capHi)) ||
    (decide (Config.devLo ≤ lo) && decide (lo + len ≤ Config.physHi))

/-- The bytes of a populated span as the module's own units read them: at the home slice, or from the registers. -/
def physBytes (s : State) (lo len : Nat) : List Byte := if Config.devLo ≤ lo then devBytes s lo len else homeBytes s lo len

/-- SUBMIT (R206, R207): the port copies the record, and its outcome stands in LID and REJ. A record of which a byte lies in no
populated place has no bytes to read. R207 has no check of the address's alignment, and none is made (DESIGN CHOICE, log 104). -/
def execSubmit (q : BitVec 9) (v : BitVec 64) (s : State) : Out :=
  let pa := bits64 v 51 0
  let rej (n : Nat) (s : State) : State := { s with portRej := smSet 0 s.portRej q.toNat (BitVec.ofNat 8 n) }
  if !s.bootdone then .next (rej 9 s)
  else if !populated pa 128 then .fault (.unpopulated pa)
  else
    let s := flushQuanta s pa (pa + 128)
    let bs := physBytes s pa 128
    let code := checkRecord s q.toNat bs
    if code ≠ 0 then .next (rej code s)
    else
      let lid := s.nextLid
      .next (rej 0 { acceptLaunch s q.toNat bs with portLid := smSet 0 s.portLid q.toNat (BitVec.ofNat 32 lid) })

/-! ### LAUNCH (R326) -/

/-- [lo, hi) lies in the physical span of a range of an ASID that may be written (R326). -/
def inWritable (s : State) (asid lo hi : Nat) : Bool :=
  (tableEntries s asid).any fun e => e.w && decide (e.pbase ≤ lo) && decide (hi ≤ e.pbase + (e.limit - e.base))

/-- The restriction that R326 places on a launch that is not a system launch. -/
def launchRestricted (s : State) (tm : Team) (r : LaunchRecord) : Bool :=
  !sysMode s tm && (r.sys || r.asid != asidOf s tm ||
    !inWritable s (asidOf s tm) r.ctxbase (r.ctxbase + r.ctxn * slotSize r) || !inWritable s (asidOf s tm) r.done (r.done + 8))

/-- LAUNCH's operands (R326). -/
def launchOk (a : BitVec 6) (k : Smap DWord) : Bool :=
  a.toNat % 2 == 0 && bits64 (smGet 0 k a.toNat) 6 0 == 0 && decide ((smGet 0 k (a.toNat + 1)).toNat ≤ 511)

/-- The effect of LAUNCH outside a window, and at commit (R326). -/
def launchBody (d a : BitVec 6) (c : HCtx) (s : State) : HRes :=
  if !launchOk a c.hk.k then .trap .illegalOperand 0
  else
    let va := (kReg c.hk a.toNat).toNat
    let q := (kReg c.hk (a.toNat + 1)).toNat
    let s := releaseBy s c.t .hawk 6
    match streamRead s (hawkIssuer c 0) va 128 with
    | .stop r => toHawk s (endReads (hawkIssuer c 0) r)
    | .ok s bs =>
      let s := endReads.consumed (hawkIssuer c 0) s
      let rej := checkRecord s q bs
      let rej := if rej = 0 ∧ launchRestricted s c.tm (readRecord bs) then 10 else rej
      let lid := if rej = 0 then s.nextLid else 0
      let s := if rej = 0 then escape (acceptLaunch s q bs) c.t else s
      .done (writeK s c.t d.toNat (BitVec.ofNat 64 (rej * 2 ^ 32 + lid)))

/-- LAUNCH (R326): inside a window it is held, and its register is pending (R31). -/
def execLaunch (d : BitVec 6) (a : BitVec 6) (s : State) : Out :=
  hawkWord (.launch d a)
    (fun c => { plainHInfo with
      legal := a.toNat % 2 == 0, reads := [a.toNat, a.toNat + 1], writes := [d.toNat]
      treat := if launchOk a c.hk.k then .hold true else .run })
    (launchBody d a) s

end Sys2Proof.Machine
end

