-- ==== Sys2Proof/Machine/Registers.lean ====
section
/-!
DEFINITION. What control cores write in device register space, where the write is an event of its own or none (01 R20, 04 R75, 07
R120, 13 R225, R233, 14 R237, R238, R243, R244, R247, R249). Reserved bits are ignored (R6), and so are writes to registers that may
only be read.
-/
namespace Sys2Proof.Machine

/-- A write to a core's SWAPWAIT (R75): it takes effect from the next core cycle; the window of an absent core ignores it. -/
def execSwapwait (core : Nat) (v : BitVec 64) (s : State) : Out :=
  .next (if core < 192 ∧ corePresent s core then { s with swapwaitNew := s.swapwaitNew ++ [(core, v.setWidth 32)] } else s)

/-- A launch of an ASID is live (R120). -/
def asidLive (s : State) (asid : Nat) : Bool := s.launches.any fun l => l.record.asid == asid

/-- A write to an ASID descriptor (R120). An ASID is assigned when EN goes from 0 to 1: its DISCARDCNT is then zero (R72). -/
def execAsidDescriptorWrite (asid : BitVec 13) (word : BitVec 1) (v : BitVec 64) (s : State) : Out :=
  let a := asid.toNat
  let d := asidDesc s a
  let put (d : AsidDesc) : State := { s with asids := smSet noAsid s.asids a d }
  let count := bits64 v 16 0
  let tsize := bits64 v 33 17
  .next (
    if word = 0 then
      if asidLive s a then (if v.getLsbD 0 then put { d with rsv := v.getLsbD 1 } else s)
      else
        let s := put { d with en := v.getLsbD 0, rsv := v.getLsbD 1, tbase := bits64 v 51 7 * 128 }
        if v.getLsbD 0 && !d.en then { s with discardCnt := smSet 0 s.discardCnt a 0 } else s
    else if asidLive s a ∨ 65536 < count ∨ 65536 < tsize ∨ tsize < count then s
    else put { d with count := count, tsize := tsize })

/-- BOOTDONE (R249). -/
def execBootdone (v : BitVec 64) (s : State) : Out := .next (if v.getLsbD 0 ∧ s.chainok then { s with bootdone := true } else s)

/-! ### The receive ring (R243) -/

/-- Updates a link station. -/
def modPort (s : State) (n : Nat) (f : Port → Port) : State := { s with links := listModify f s.links n }

/-- The tail word of a link station's ring. -/
def ringTail (s : State) (p : Port) : Nat := homeWord s p.rxtaddr

/-- Writes a 64-bit word of the fast tier as the module's own units do; elsewhere no word is there. -/
def putWord (s : State) (pa x : Nat) : State := if inFast pa (pa + 8) then unitStore s pa (bytesOf 8 x) else s

/-- A write to RXN (R243). -/
def execRxn (port : BitVec 4) (v : BitVec 64) (s : State) : Out :=
  let n := port.toNat
  let s := putWord s (portOf s n).rxtaddr 0
  .next (modPort s n fun p => { p with rxn := bits64 v 19 0, rxhead := 0 })

/-- A write to RXHEAD (R243). -/
def execRxhead (port : BitVec 4) (v : BitVec 64) (s : State) : Out :=
  let n := port.toNat
  let p := portOf s n
  let s := flushQuanta s p.rxtaddr (p.rxtaddr + 8)
  .next (if ringTail s p < v.toNat ∨ v.toNat < p.rxhead.toNat then s else modPort s n fun p => { p with rxhead := v })

/-! ### Registers that have no event of their own -/

/-- A write to a word of a filter entry (R244). -/
def writeFilter (p : Port) (e w : Nat) (v : BitVec 64) : Port :=
  let x := smGet noFilter p.filter e
  let x : FilterEntry := match w with
    | 0 => { x with src := v.setWidth 16, r := v.getLsbD 16, w := v.getLsbD 17, en := v.getLsbD 18 }
    | 1 => { x with base := bits64 v 51 0 }
    | 2 => { x with lim := bits64 v 51 0 }
    | _ => x
  { p with filter := smSet noFilter p.filter e x }

/-- A write to a register of a port's block (R237, R243, R244). -/
def writePort (p : Port) (off : Nat) (v : BitVec 64) : Port :=
  if off = 0x20 then { p with rxbase := bits64 v 51 0 }
  else if off = 0x30 then { p with rxtaddr := bits64 v 51 0 }
  else if 0x100 ≤ off ∧ off < 0x300 then writeFilter p ((off - 0x100) / 32) ((off - 0x100) % 32 / 8) v
  else p

/-- A write to a word of a PCIe window (R247). -/
def writePcie (s : State) (k w : Nat) (v : BitVec 64) : State :=
  let x := smGet noPcie s.pcie k
  let x : PcieWindow := match w with
    | 0 => { x with en := v.getLsbD 0, r := v.getLsbD 1, w := v.getLsbD 2, bus := bits64 v 63 12 * 4096 }
    | 1 => { x with lim := bits64 v 63 12 * 4096 }
    | 2 => { x with phys := bits64 v 51 12 * 4096 }
    | _ => x
  { s with pcie := smSet noPcie s.pcie k x }

/-- A write to a word of a peer window's description (R238). -/
def writeWindow (s : State) (k w : Nat) (v : BitVec 64) : State :=
  let x := peerWindow s k
  let x : PeerWindow := if w = 0 then
      { x with wen := v.getLsbD 0, msg := v.getLsbD 1, pmod := (v >>> 2).setWidth 16, ports := (v >>> 18).setWidth 16 }
    else { x with ppbase := bits64 v 51 0 }
  { s with windows := smSet noWindow s.windows k x }

/-- A write to a word of a trap vector (R225). -/
def writeVector (s : State) (asid w : Nat) (v : BitVec 64) : State :=
  let x := smGet (0, 0) s.vectors asid
  let a : DWord := BitVec.ofNat 64 (bits64 v 55 0)
  { s with vectors := smSet (0, 0) s.vectors asid (if w = 0 then (a, x.2) else (x.1, a)) }

/-- The effect of a write to a device register that has no event of its own, at an offset that is a multiple of 8. SNAPBUF keeps an address
that is not 4 KiB aligned, and a drain goes there: the spec does not say what such a write does (DESIGN CHOICE, log 115). -/
def writeRegister (s : State) (off : Nat) (v : BitVec 64) : State :=
  if off = 0x4000 then { s with isnap := v.getLsbD 0, ievt := v.getLsbD 1, evmask := (v >>> 2).setWidth 18 }
  else if off = 0x4008 then { s with snapbuf := bits64 v 51 0 }
  else if 0x80000 ≤ off ∧ off < 0xA0000 then
    if (off - 0x80000) % 0x10000 < 0x2000 then
      writePcie s ((off - 0x80000) / 0x10000 * 256 + (off - 0x80000) % 0x10000 / 32) (off % 32 / 8) v
    else s
  else if 0x100000 ≤ off ∧ off < 0x110000 then modPort s ((off - 0x100000) / 0x1000) fun p => writePort p (off % 0x1000) v
  else if 0x200000 ≤ off ∧ off < 0x200400 then writeWindow s ((off - 0x200000) / 16) (off % 16 / 8) v
  else if 0x2000000 ≤ off ∧ off < 0x2020000 then writeVector s ((off - 0x2000000) / 16) (off % 16 / 8) v
  else s

/-- REGISTER_WRITE: a control core's 64-bit write to a register that has no event of its own. -/
def execRegisterWrite (off : BitVec 38) (v : BitVec 64) (s : State) : Out :=
  .next (if off.toNat % 8 = 0 then writeRegister s off.toNat v else s)

end Sys2Proof.Machine
end

