-- ==== Sys2Proof/Machine/Sha.lean ====
section
/-!
DEFINITION. SHA-256, which R248, R250, R254 and R255 name: the digest of a byte string as 32 bytes. Its constants are computed from the
prime numbers, and one fold over them carries the chaining values and the 16 words of the schedule that are still needed.
-/
namespace Sys2Proof.Machine

/-! ### Constants: fraction bits of the roots of the primes -/

/-- The prime numbers below 312, of which there are 64: no smaller prime up to 17 divides them. -/
def smallPrimes : List Nat := ((List.range 312).drop 2).filter fun n => [2, 3, 5, 7, 11, 13, 17].all fun d => n == d || n % d != 0

/-- The whole part of the root of degree `deg` of a number, found bit by bit, over so many bits. -/
def wholeRoot (deg x : Nat) : Nat → Nat → Nat
  | 0, r => r
  | n + 1, r => wholeRoot deg x n (if (r + 2 ^ n) ^ deg ≤ x then r + 2 ^ n else r)

/-- The first 32 fraction bits of the root of degree `deg` of a small number. -/
def rootFraction (deg p : Nat) : Word := BitVec.ofNat 32 (wholeRoot deg (p * 2 ^ (32 * deg)) 40 0)

/-- The constants of the 64 rounds. -/
def roundConstants : List Word := smallPrimes.map (rootFraction 3)

/-! ### Compression -/

/-- The chaining values. -/
structure Chain where
  a : Word
  b : Word
  c : Word
  d : Word
  e : Word
  f : Word
  g : Word
  h : Word
deriving DecidableEq, Repr

/-- The chaining values before the first block. -/
def firstChain : Chain :=
  let v (p : Nat) : Word := rootFraction 2 p
  { a := v 2, b := v 3, c := v 5, d := v 7, e := v 11, f := v 13, g := v 17, h := v 19 }

/-- The chaining values of two blocks added. -/
def Chain.plus (x y : Chain) : Chain :=
  { a := x.a + y.a, b := x.b + y.b, c := x.c + y.c, d := x.d + y.d, e := x.e + y.e, f := x.f + y.f, g := x.g + y.g, h := x.h + y.h }

/-- A word rotated right by each of some distances, combined by exclusive or. -/
def mixRot (rs : List Nat) (x : Word) : Word := rs.foldl (fun y r => y ^^^ x.rotateRight r) 0

/-- A word of the schedule, from the sixteen before it, the oldest first. -/
def nextSchedule (win : List Word) : Word :=
  let at' (k : Nat) : Word := (listAt win k).getD 0
  at' 0 + (mixRot [7, 18] (at' 1) ^^^ at' 1 >>> 3) + at' 9 + (mixRot [17, 19] (at' 14) ^^^ at' 14 >>> 10)

/-- One round, with its constant and its word of the schedule. -/
def Chain.round (x : Chain) (k w : Word) : Chain :=
  let pick := (x.e &&& x.f) ||| (x.g &&& ~~~x.e)
  let most := (x.a &&& (x.b ||| x.c)) ||| (x.b &&& x.c)
  let t := x.h + k + w + mixRot [6, 11, 25] x.e + pick
  { x with a := t + mixRot [2, 13, 22] x.a + most, b := x.a, c := x.b, d := x.c, e := x.d + t, f := x.e, g := x.f, h := x.g }

/-- A round, in which the window on the schedule moves on by one word. -/
def roundStep (y : Chain × List Word) (k : Word) : Chain × List Word :=
  (y.1.round k ((y.2.head?).getD 0), y.2.drop 1 ++ [nextSchedule y.2])

/-- The sixteen words of a block of 64 bytes, each with its first byte most significant. -/
def blockWords (block : List Byte) : List Word :=
  (List.range 16).map fun k => BitVec.ofNat 32 (natOf ((block.drop (4 * k)).take 4).reverse)

/-- The chaining values after one block. -/
def Chain.block (x : Chain) (block : List Byte) : Chain :=
  x.plus (roundConstants.foldl roundStep (x, blockWords block)).1

/-! ### The digest -/

/-- What follows a message of n bytes: a one bit, zeros, and the count of its bits in 64, most significant byte first, to a whole number of
blocks. -/
def endOfMessage (n : Nat) : List Byte :=
  BitVec.ofNat 8 0x80 :: (List.replicate ((119 - n % 64) % 64) 0 ++ (bytesOf 8 (8 * n)).reverse)

/-- SHA-256 of a byte string, as 32 bytes. -/
def sha256 (msg : List Byte) : List Byte :=
  let p := msg ++ endOfMessage msg.length
  let x := (List.range (p.length / 64)).foldl (fun x n => x.block ((p.drop (64 * n)).take 64)) firstChain
  [x.a, x.b, x.c, x.d, x.e, x.f, x.g, x.h].flatMap fun w => (bytesOf 4 w.toNat).reverse

/-- A byte string of 32 bytes as a 256-bit value, byte 0 in bits [7:0] (R3). -/
def digestBits (bs : List Byte) : BitVec 256 := BitVec.ofNat 256 (natOf bs)

end Sys2Proof.Machine
end

