-- ==== Sys2Proof/Machine/Security.lean ====
section
/-!
DEFINITION. Reset and boot (14 R248, R249), attestation (R250, R251), the signwriter (R253 to R255), management requests and the end
of a snapshot's drain (13 R234, R236), throttling (01 R23).
-/
namespace Sys2Proof.Machine

/-! ### Reset and boot -/

/-- Whether an image of the boot chain is accepted (R248): its key's digest must be among those given. -/
def imageOk (allowed : List (BitVec 256)) (x : BootImage) : Bool :=
  Config.signatureVerifies x.key x.image x.sig && allowed.contains (digestBits (sha256 x.key)) && decide (Config.rollback ≤ x.version)

/-- The images that Tsuwa accepts, in order (R248): the firmware of Tsuwa under the fused root digest, then the two that it
verifies. The chain stops at the first failure. -/
def acceptedImages : List BootImage → List BootImage
  | [] => []
  | t :: rest =>
    if imageOk [Config.rootDigest] t then t :: ((rest.take 2).takeWhile (imageOk t.vouches)) else []

/-- A measurement register after an image's digest is folded in (R250). -/
def foldMeasure (m : BitVec 256) (x : BootImage) : BitVec 256 := digestBits (sha256 (bytesOf 32 m.toNat ++ sha256 x.image))

/-- The measurement registers after boot: stage n is folded into register n (log 20). -/
def measures (xs : List BootImage) : List (BitVec 256) :=
  (List.range 8).map fun n => match listAt xs n with
    | some x => foldMeasure 0 x
    | none => 0

/-- The core clusters with no spare to stand in: those whose spare the repair data puts in a slot, and those in which some slot has no
core left to fill it (R11). -/
def spentSpares (cores : BitVec 192) (spares : BitVec 24) : BitVec 24 :=
  (List.range 24).foldl (fun m k =>
    if (clusterCores k).all cores.getLsbD then m else m ||| (1#24 <<< k)) spares

/-- RESET (R11, R248): every register takes its reset value, the cores and the spares that stand in are those of the repair data, and
Tsuwa verifies the chain. The MODEL's own fields go on. -/
def execReset (repair : RepairData) (images : List BootImage) (s : State) : Out :=
  let ok := acceptedImages images
  let whole := decide (ok.length = 3)
  .next { State.reset with
    coreMap := repair.cores, sparesUsed := spentSpares repair.cores repair.spares, chainok := whole, measure := measures ok, agenda := s.agenda, freeCtr := s.freeCtr,
    signatures := s.signatures, outputs := if whole then s.outputs else s.outputs ++ [.bootFailure] }

/-! ### Attestation -/

/-- The signature made now over some bytes. -/
def signNow (s : State) (bs : List Byte) : List Byte := (List.range 384).map (Config.identitySignature s.signatures bs)

/-- The answer to an attestation request, from the nonce to the signature: it stands from byte 64 of the buffer (R250, R251). The bytes
between the certificate's end and the signature's 8-byte boundary, to which the spec gives no value, are zero and are signed (DESIGN
CHOICE, log 118). -/
def attestation (s : State) (nonce : List Byte) : List Byte :=
  let n := Config.certLen.val + 1
  let body := nonce ++ s.measure.flatMap (fun m => bytesOf 32 m.toNat) ++ bytesOf 4 n ++ (List.range n).map Config.certByte
  let body := body ++ List.replicate (ceilDiv (356 + n) 8 * 8 - (356 + n)) 0
  body ++ signNow s body

/-- ATREQ (R251). -/
def execAtreq (v : BitVec 64) (s : State) : Out :=
  let pa := bits64 v 51 0
  .next (if pa % 4096 ≠ 0 ∨ !inFast pa (pa + 4096) then { s with aterr := 1 }
    else if s.atbusy then { s with aterr := 2 }
    else { s with atbusy := true, atdone := false, aterr := 0, atbuf := pa })

/-- ATTESTATION_ANSWER (R251). -/
def execAttestationAnswer (s : State) : Out :=
  .next (if !s.atbusy then s
    else
      let s := flushQuanta s s.atbuf (s.atbuf + 32)
      let bs := attestation s (homeBytes s s.atbuf 32)
      { unitStore s (s.atbuf + 64) bs with atbusy := false, atdone := true, signatures := s.signatures + 1 })

/-- ATTESTATION_MANAGEMENT_REQUEST (R250): answered over the management port. -/
def execAttestationManagementRequest (nonce : BitVec 256) (s : State) : Out :=
  .next { s with
    outputs := s.outputs ++ [.management (attestation s (bytesOf 32 nonce.toNat))]
    signatures := s.signatures + 1 }

/-! ### The signwriter -/

/-- Every byte of [lo, hi) lies in a well-formed EGRESS range of an ASID, over fuel (R253). -/
def egressCovers (s : State) (asid hi : Nat) : Nat → Nat → Bool
  | 0, _ => false
  | fuel + 1, lo =>
    if hi ≤ lo then true
    else match findRange s asid lo with
      | some (_, e) => entryOk s e && e.egress && egressCovers s asid hi fuel e.limit
      | none => false

/-- Where the contents of a byte of an ASID stand, whatever its range permits: in its window, or in its backing copy; none where it has
no contents (R119). -/
def physOf (s : State) (asid va : Nat) : Option Nat :=
  match findRange s asid va with
  | some (_, e) =>
    if residentAt e va then some (e.pbase + (va - e.base))
    else if e.back then some (e.cbase + (va - e.base)) else none
  | none => none

/-- Recalls the tokens of the regions that a frame touches (R253). -/
def recallFrame (s : State) (f : Frame) : State :=
  (s.tokHolder.map (·.1)).foldl (fun s r =>
    if (List.range 512).any fun k => frameHolds s f (512 * r + k) then passToken s r homeHolder else s) s

/-- SWSUBMIT (R253): the frame is checked, numbered and locked. -/
def execSwsubmit (v : BitVec 64) (s : State) : Out :=
  let pa := bits64 v 51 0
  if !populated pa 32 then .fault (.unpopulated pa)
  else
    let s := flushQuanta s pa (pa + 32)
    let w := recWord (physBytes s pa 32)
    let serial := (s.serial.toNat + 1) % 2 ^ 56
    let f : Frame :=
      { serial := serial, asid := bitsN (w 2) 12 0, base := bitsN (w 0) 55 0, width := bitsN (w 1) 15 0, height := bitsN (w 1) 31 16,
        pitch := bitsN (w 1) 51 32, wide := bitN (w 1) 52, marked := false, digest := [], batched := false, locked := true }
    .next (
      if bitsN (w 0) 63 56 ≠ 0 ∨ bitsN (w 1) 63 53 ≠ 0 ∨ bitsN (w 2) 63 13 ≠ 0 ∨ w 3 ≠ 0 then { s with swst := 2 }
      else if !egressCovers s f.asid (f.base + frameLen f) ((asidDesc s f.asid).count + 1) f.base then { s with swst := 1 }
      else recallFrame { s with swst := 0, serial := BitVec.ofNat 56 serial, frames := s.frames ++ [f] } f)

/-- The mark of a luma block (R254): row, column and the bit. -/
def blockMark (serial bx by_ : Nat) : Nat × Nat × Nat :=
  let h := sha256 (bytesOf 32 Config.markKey.toNat ++ bytesOf 8 serial ++ bytesOf 2 bx ++ bytesOf 2 by_)
  let h0 := ((h.head?).getD 0).toNat
  (bitsN h0 5 3, bitsN h0 2 0, ((listAt h 1).getD 0).toNat % 2)

/-- Sets bit 0 of a byte of memory, as the signwriter writes the frames that it has locked. -/
def markByte (s : State) (pa bit : Nat) : State :=
  let s := flushQuanta s pa (pa + 1)
  moduleStore s pa [BitVec.ofNat 8 ((homeByte s pa).toNat / 2 * 2 + bit)]

/-- Marks a frame (R254). -/
def markFrame (s : State) (f : Frame) : State :=
  (List.range (f.height / 8)).foldl (fun s y => (List.range (f.width / 8)).foldl (fun s x =>
    let (row, col, bit) := blockMark f.serial x y
    let va := f.base + (8 * y + row) * f.pitch + (8 * x + col) * (if f.wide then 2 else 1)
    match physOf s f.asid va with
    | some pa => markByte s pa bit
    | none => s) s) s

/-- The pending sums of a frame's words are applied, since the signwriter reads them (R155). -/
def flushFrame (s : State) (f : Frame) : State :=
  (s.quanta.filter fun x => (List.range x.len).any fun k => frameHolds s f (x.addr + k)).foldl
    (fun s x => flushQuanta s x.addr (x.addr + x.len)) s

/-- The bytes of a frame as they stand in memory; one without contents is zero (R119). -/
def frameBytes (s : State) (f : Frame) : List Byte :=
  (List.range (frameLen f)).map fun k => ((physOf s f.asid (f.base + k)).map (homeByte s)).getD 0

/-- SIGNWRITER_MARK (R254): the earliest frame that is locked and not marked. -/
def execSignwriterMark (s : State) : Out :=
  .next (match s.frames.find? fun f => f.locked && !f.marked with
    | none => s
    | some f =>
      let s := markFrame (flushFrame s f) f
      let d := sha256 (frameBytes s f)
      { s with frames := s.frames.map fun x => if x.serial == f.serial then { x with marked := true, digest := d } else x })

/-- A frame of which nothing more can come: unlocked, and, where it was marked, listed in a batch. -/
def frameDone (f : Frame) : Bool := !f.locked && (f.batched || !f.marked)

/-- SWBATCH (R255): the manifest of the frames marked since the previous batch. -/
def execSwbatch (v : BitVec 64) (s : State) : Out :=
  let fs := s.frames.filter fun f => f.marked && !f.batched
  let body := bytesOf 8 s.batchNo ++ bytesOf 8 fs.length ++ sha256 Config.identityKey ++
    fs.flatMap fun f => bytesOf 8 f.serial ++ f.digest
  let frames := (s.frames.map fun f => if f.marked then { f with batched := true } else f).filter fun f => !frameDone f
  controlStore { s with batchNo := s.batchNo + 1, frames := frames, signatures := s.signatures + 1 } (bits64 v 51 0)
    (body ++ signNow s body)

/-- SWFREE (R253): unlocks the frame of a serial. -/
def execSwfree (v : BitVec 64) (s : State) : Out :=
  let serial := bits64 v 55 0
  .next { s with frames :=
    (s.frames.map fun f => if f.serial == serial then { f with locked := false } else f).filter fun f => !frameDone f }

/-! ### Management and power -/

/-- MANAGEMENT_SNAPSHOT_REQUEST (R234). -/
def execManagementSnapshotRequest (s : State) : Out := .next (firePlumb s 2 0 0 0)

/-- SNAPSHOT_DRAIN_END (R234, R236): Tsuwa has written the snapshot; bytes beyond the last section are zero. Where the SNAPSIZE bytes from
SNAPBUF do not lie in the fast tier the drain ends and writes nothing: the spec does not say what it does there (DESIGN CHOICE,
log 116). -/
def execSnapshotDrainEnd (s : State) : Out :=
  .next (match s.latched with
    | none => s
    | some x =>
      match x.taken with
      | none => s
      | some (cycle, secs, omitted) =>
        let img := snapImage x cycle omitted secs
        let put := if inFast x.buf (x.buf + Config.snapSize) then unitStore s x.buf else fun _ => s
        { put (img ++ List.replicate (Config.snapSize - img.length) 0) with busy := false, latched := none })

/-- THROTTLING (R23): issue slots are withheld, or given back. -/
def execThrottling (on : Bool) (s : State) : Out := .next { s with throttled := on }

end Sys2Proof.Machine
end

