-- ==== Sys2Proof/Machine/Links.lean ====
section
/-!
DEFINITION. What arrives over UALink and PCIe (14 R237 to R247, R256): training, replay and lane repair, inbound peer accesses,
messages, the answers to this module's own requests, and the requests of PCIe devices.
-/
namespace Sys2Proof.Machine

/-! ### A port's service (R237, R245, R231) -/

/-- The usable lanes of a port. -/
def goodLanes (p : Port) : Nat := countP p.laneok.getLsbD (List.range 4)

/-- The widest width that so many good lanes allow (R237). -/
def widestWidth (n : Nat) : Nat := if 4 ≤ n then 4 else if 2 ≤ n then 2 else n

/-- A port that is down or out of service begins to train (R237). -/
def startTraining (s : State) (port : Nat) : State :=
  modPort s port fun p => if p.pstate = 0 ∨ p.pstate = 3 then { p with pstate := 1 } else p

/-- LINK_TRAINED (R237, R245, R19): the port enters service. One that retrains for a lane repair does so at the widest width that its good
lanes allow, and counts a repair where its width has changed; its peer stays (log 92). -/
def execLinkTrained (port : BitVec 4) (width : BitVec 3) (peer : BitVec 16) (s : State) : Out :=
  let p := portOf s port.toNat
  let w := width.toNat
  .next (if p.pstate = 2 ∨ !(w == 1 || w == 2 || w == 4) ∨ goodLanes p < w then s
    else match p.retrainFrom with
      | some old =>
        if w ≠ widestWidth (goodLanes p) then s
        else modPort s port.toNat fun p =>
          { p with pstate := 2, width := width, retrainFrom := none, repairs := if width = old then p.repairs else p.repairs + 1 }
      | none =>
        { modPort s port.toNat (fun p => { p with pstate := 2, width := width, peerid := peer }) with
          linkMap := s.linkMap ||| (1#16 <<< port.toNat) })

/-- The requests that a port has sent and that are not acknowledged. -/
def unacked (s : State) (port : Nat) : List PeerRequest := s.peers.filter fun r => r.port == port && r.answer.isNone

/-- The retry point of a port: its oldest unacknowledged flit (R245). -/
def retryPoint (s : State) (port : Nat) : Nat := (unacked s port).foldl (fun m r => min m r.seq) (portOf s port).nextSeq

/-- FLIT_REJECTED (R245): a replay episode begins, unless one is outstanding. -/
def execFlitRejected (port : BitVec 4) (seq : Nat) (s : State) : Out :=
  let n := port.toNat
  let p := portOf s n
  .next (if p.pstate ≠ 2 ∨ seq < retryPoint s n ∨ p.nextSeq ≤ seq then s
    else match p.replaying with
      | some m => modPort s n fun p => { p with replaying := some (max m seq) }
      | none => modPort s n fun p => { p with replays := p.replays + 1, replaying := some seq })

/-- The outcome of a request of this module (R239, R241): a returning one holds its answer, for its team or for the scheduler's read of a
step declaration (R215); a write is acknowledged, or its failure is recorded for its stream. -/
def answerRequest (s : State) (r : PeerRequest) (ok : Bool) (bytes : List Byte) : State :=
  let len := match r.kind with
    | .read n => n
    | .atomic _ w64 _ _ => if w64 then 8 else 4
    | .swap w64 _ _ => if w64 then 8 else 4
    | .write _ => 0
    | .masked _ => 0
    | .several w64 ops _ => ops.length * if w64 then 8 else 4
  let data := if ok then (List.range len).map fun k => (listAt bytes k).getD 0 else []
  let answered : State := { s with peers := s.peers.map fun x => if x.id == r.id then { x with answer := some (ok, data) } else x }
  match teamIdx s r.lid r.tid with
  | none =>
    if r.tid = stepReader ∧ (launchOf s r.lid).any stepUnread then answered
    else { s with peers := s.peers.filter fun x => x.id != r.id }
  | some t =>
    if r.returning then answered
    else
      let s := { s with peers := s.peers.filter fun x => x.id != r.id }
      if ok then s else recordPeerFailure s t r.who r.va

/-- A replay is over when the flit that was rejected has been acknowledged. -/
def endReplay (s : State) (n : Nat) : State :=
  modPort s n fun p => match p.replaying with
    | some m => if m < retryPoint s n then { p with replaying := none } else p
    | none => p

/-- PEER_RESPONSE (R239, R241). -/
def execPeerResponse (n : Nat) (ok : Bool) (bytes : List (BitVec 8)) (s : State) : Out :=
  .next (match s.peers.find? fun r => r.id == n && r.answer.isNone with
    | none => s
    | some r => if (portOf s r.port).pstate = 2 then endReplay (answerRequest s r ok bytes) r.port else s)

/-- A replacement is requested, and Tsuwa reports it (R231). -/
def requestReplacement (s : State) : State := { s with req := true, outputs := s.outputs ++ [.replacement] }

/-- A port leaves service (R245, R231): its unacknowledged accesses fail (R241). -/
def leaveService (s : State) (n : Nat) : State :=
  let gone := unacked s n
  let s := modPort s n fun p => { p with pstate := 3, width := 0, replaying := none, retrainFrom := none }
  let s := { s with linkMap := s.linkMap &&& ~~~(1#16 <<< n) }
  requestReplacement (gone.foldl (fun s r => answerRequest s r false []) s)

/-- LANE_REPAIR (R245): a port in service drains to its retry point and retrains, which LINK_TRAINED ends; with no good lane it leaves
service. Every flit from the retry point is sent again and accepted once, so no access that it had sent changes (log 92). -/
def execLaneRepair (port : BitVec 4) (lane : BitVec 2) (s : State) : Out :=
  let n := port.toNat
  let s := modPort s n fun p => { p with laneok := p.laneok &&& ~~~(1#4 <<< lane.toNat) }
  let p := portOf s n
  .next (if p.pstate ≠ 2 ∧ p.retrainFrom.isNone then s
    else if goodLanes p = 0 then leaveService s n
    else if p.retrainFrom.isSome then s
    else modPort s n fun p => { p with pstate := 1, width := 0, retrainFrom := some p.width })

/-! ### The egress lock and the places that outside agents reach (R253, R256) -/

/-- A physical byte stores a byte of an EGRESS range of some address space, at its place under PBASE or in the range's backing
copy (R119, R256). -/
def egressByte (s : State) (pa : Nat) : Bool :=
  s.asids.any fun a => a.2.en && (tableEntries s a.1).any fun e =>
    let stores (lo : Nat) : Bool := decide (lo ≤ pa) && decide (pa < lo + (e.limit - e.base))
    e.egress && (stores e.pbase || (e.back && stores e.cbase))

/-- A read of bytes in an EGRESS range is refused unless they lie in a frame that has been marked and not freed (R256). -/
def egressRefused (s : State) (pa len : Nat) : Bool :=
  (List.range len).any fun k => egressByte s (pa + k) &&
    !(s.frames.any fun f => f.marked && f.locked && frameHolds s f (pa + k))

/-- A span that lies in memory of one tier. -/
def inMemory (lo len : Nat) : Bool := inFast lo (lo + len) || (decide (Config.capLo ≤ lo) && decide (lo + len ≤ Config.capHi))

/-- A write of an outside agent at the home slice (R244, R246): not race-checked. What a link station writes in a GTH range reaches
DRAM too, since it is an engine's (R135, R152). -/
def outsideWrite (s : State) (holder : Nat) (ws : List (Nat × Byte)) : State :=
  let s := homeWrite (ws.foldl (fun s w => flushQuanta s w.1 (w.1 + 1)) s) holder ws
  if isStation holder then writeThrough s fun x => (sectorsOf ws).contains x.sector else s

/-! ### Inbound peer accesses (R244) -/

/-- The holder code of a link station (R145, R236). -/
def stationHolder (n : Nat) : Nat := 3840 + n

/-- What an inbound access needs: reads, writes, and its length. -/
def accessNeeds : PeerKind → Bool × Bool × Nat
  | .read n => (true, false, n)
  | .write bs => (false, true, bs.length)
  | .masked bs => (false, true, bs.length)
  | .atomic _ w64 _ ret => (ret, true, if w64 then 8 else 4)
  | .swap w64 _ _ => (true, true, if w64 then 8 else 4)
  | .several w64 ops ret => (ret, true, ops.foldl (fun n x => max n (x.1 + if w64 then 8 else 4)) 0)

/-- One entry of the inbound filter admits an access (R244). -/
def filterAdmits (p : Port) (src : BitVec 16) (pa len : Nat) (rd wr : Bool) : Bool :=
  (List.range 16).any fun e =>
    let x := smGet noFilter p.filter e
    x.en && x.src == src && decide (x.base ≤ pa) && decide (pa + len ≤ x.lim) && (!rd || x.r) && (!wr || x.w)

/-- An atomic that arrives from a peer (R240): aligned, of a defined operation, on a sector that is not poisoned; several of them stand
in one sector (R108). -/
def peerAtomicOk (s : State) (kind : PeerKind) (pa : Nat) : Bool :=
  let ok (w64 : Bool) (a : Nat) : Bool := a % (if w64 then 8 else 4) == 0 && !(homeSector s (sectorOf a)).2
  match kind with
  | .atomic op w64 _ _ => atomicOpOk op w64 && ok w64 pa
  | .swap w64 _ _ => ok w64 pa
  | .several w64 ops _ => ops.all fun x => ok w64 (pa + x.1) && sectorOf (pa + x.1) == sectorOf pa && (match x.2 with
      | .op op _ => atomicOpOk op w64
      | .swap .. => true)
  | _ => true

/-- A peer's atomic on a word, in the port atomic unit of a station (R21, R156, R240): the pending sums of the word are applied, the
unit takes the token and holds the word, and its new value, where it has one, stands there until the unit writes it back. -/
def stationAtomic (s : State) (station pa len : Nat) (step : Nat → Option Nat) : State × Nat :=
  let s := stationTake (applySums s pa (pa + len)) station (sectorOf pa)
  let old := natOf (homeBytes s pa len)
  (match step old with
    | some new => stationWrite s station (sectorOf pa) (writesAt pa (bytesOf len new))
    | none => s, old)

/-- An atomic of a peer's lane on a word of `len` bytes, and the old value's bytes (R240, R277, R281). -/
def stationWord (s : State) (station len pa : Nat) (x : WordOp) : State × List Byte :=
  let r := stationAtomic s station pa len fun old => match x with
    | .op op x => some (atomicValue op.toNat (8 * len) old (x.toNat % 2 ^ (8 * len)))
    | .swap c x => if old = c.toNat % 2 ^ (8 * len) then some (x.toNat % 2 ^ (8 * len)) else none
  (r.1, bytesOf len r.2)

/-- The atomics of several lanes one after the other (R108, R139). -/
def stationWords (station len pa : Nat) : List (Nat × WordOp) → State → State × List Byte
  | [], s => (s, [])
  | x :: xs, s =>
    let (s, old) := stationWord s station len (pa + x.1) x.2
    let (s, rest) := stationWords station len pa xs s
    (s, old ++ rest)

/-- Performs an admitted access (R240, R244): the state and the answer. -/
def performInbound (s : State) (n : Nat) (req : PeerAccess) : State × Option (List Byte) :=
  let pa := req.addr
  let h := stationHolder n
  match req.kind with
  | .read len =>
    let s := flushQuanta s pa (pa + len)
    if (List.range len).any fun k => (homeSector s (sectorOf (pa + k))).2 then (s, none) else (s, some (homeBytes s pa len))
  | .write bs => (outsideWrite s h (writesAt pa bs), some [])
  | .masked bs => (outsideWrite s h (bs.zipIdx.filterMap fun x => x.1.map fun b => (pa + x.2, b)), some [])
  | .atomic op w64 x ret =>
    let r := stationWord s h (if w64 then 8 else 4) pa (.op op x)
    (r.1, some (if ret then r.2 else []))
  | .swap w64 c x =>
    let r := stationWord s h (if w64 then 8 else 4) pa (.swap c x)
    (r.1, some r.2)
  | .several w64 ops ret =>
    let r := stationWords h (if w64 then 8 else 4) pa ops s
    (r.1, some (if ret then r.2 else []))

/-- INBOUND_PEER_ACCESS (R244): performed, or refused with no effect. -/
def execInboundPeerAccess (port : BitVec 4) (req : PeerAccess) (s : State) : Out :=
  let n := port.toNat
  let p := portOf s n
  let (rd, wr, len) := accessNeeds req.kind
  let answer (a : Option (List Byte)) (s : State) : State := { s with outputs := s.outputs ++ [.peerAnswer n a] }
  .next (
    if p.pstate ≠ 2 then s
    else if !filterAdmits p req.src req.addr len rd wr ∨ !inMemory req.addr len ∨ (rd ∧ egressRefused s req.addr len) ∨
        (wr ∧ locked s req.addr len) ∨ !peerAtomicOk s req.kind req.addr then answer none s
    else
      let r := performInbound s n req
      answer r.2 r.1)

/-- MESSAGE_ARRIVAL (R242, R243): a message of 128 bytes is appended to the ring; while the ring is full its sender waits. -/
def execMessageArrival (port : BitVec 4) (sender : BitVec 16) (bytes : List (BitVec 8)) (s : State) : Out :=
  let n := port.toNat
  let p := portOf s n
  let s := flushQuanta s p.rxtaddr (p.rxtaddr + 8)
  let tail := ringTail s p
  let slot := p.rxbase + 128 * (tail % p.rxn)
  let answer (a : Option (List Byte)) (s : State) : State := { s with outputs := s.outputs ++ [.peerAnswer n a] }
  .next (
    if p.pstate ≠ 2 ∨ bytes.length ≠ 128 then s
    else if p.rxn = 0 then answer none s
    else if tail - p.rxhead.toNat ≥ p.rxn then s
    else if !filterAdmits p sender slot 128 false true ∨ !inFast slot (slot + 128) ∨ locked s slot 128 then answer none s
    else answer (some []) (putWord (outsideWrite s (stationHolder n) (writesAt slot bytes)) p.rxtaddr ((tail + 1) % 2 ^ 64)))

/-! ### PCIe (R246, R247) -/

/-- The physical address at which a window maps a request of so many bytes; none where the window does not match (R247). -/
def pcieMaps (w : PcieWindow) (addr len : Nat) : Option Nat :=
  let span := w.lim - w.bus
  if w.en && decide (w.bus < w.lim) && inMemory w.phys span && decide (w.bus ≤ addr) && decide (addr + len ≤ w.lim) then
    some (w.phys + (addr - w.bus))
  else none

/-- The lowest-numbered window of a root port that matches, with the physical address. -/
def pcieMatch (s : State) (rp addr len : Nat) : Option (PcieWindow × Nat) :=
  (List.range 256).findSome? fun k =>
    let w := smGet noPcie s.pcie (rp * 256 + k)
    (pcieMaps w addr len).map fun pa => (w, pa)

/-- PCIE_INBOUND_REQUEST (R246): performed at the home slice, or Unsupported Request. -/
def execPcieInboundRequest (rp : BitVec 1) (req : BusAccess) (s : State) : Out :=
  let answer (a : Option (List Byte)) (s : State) : State := { s with outputs := s.outputs ++ [.pcie rp a] }
  .next (match req with
    | .read addr len =>
      match pcieMatch s rp.toNat addr len with
      | some (w, pa) =>
        if !w.r ∨ egressRefused s pa len then answer none s
        else
          let s := flushQuanta s pa (pa + len)
          answer (some (homeBytes s pa len)) s
      | none => answer none s
    | .write addr bs =>
      match pcieMatch s rp.toNat addr bs.length with
      | some (w, pa) =>
        if !w.w ∨ locked s pa bs.length then answer none s else answer (some []) (outsideWrite s homeHolder (writesAt pa bs))
      | none => answer none s)

end Sys2Proof.Machine
end

