-- ==== Sys2Proof/Machine/Matrix.lean ====
section
/-!
DEFINITION. Matrix operations (10 R174 to R193, R84): configurations, operand layouts, the sums, and one step of the sequencer
for each kind of instruction, with storage errors.
-/
namespace Sys2Proof.Machine

/-! ### The configuration -/

/-- A matrix configuration (R174). -/
structure Config10 where
  fmt : Nat
  n : Nat
  kr : Nat
  gv : Bool
deriving DecidableEq, Repr

/-- Reads a configuration from its word (R174). -/
def readConfig (w : DWord) : Config10 :=
  { fmt := bits64 w 3 0, n := if w.getLsbD 4 then 128 else 64, kr := 2 ^ bits64 w 6 5, gv := w.getLsbD 7 }

/-- Bits of an element (R175). -/
def elemBits (fmt : Nat) : Nat := if fmt ≤ 1 then 16 else if fmt = 6 then 4 else 8

/-- K_base of a format (R175). -/
def kBase (fmt : Nat) : Nat := if fmt ≤ 1 then 32 else if fmt = 6 then 128 else if fmt ≥ 8 then 256 else 64

/-- Products in a chunk (R84, R175). -/
def chunkOf (fmt : Nat) : Nat := kBase fmt / 4

/-- K_total (R175). -/
def kTotal (c : Config10) : Nat := kBase c.fmt * c.kr

/-- Registers of A without scales (R175). -/
def regsA (kr : Nat) : Nat := 16 * kr
/-- Registers of B without scales (R175). -/
def regsB (n kr : Nat) : Nat := 16 * kr * n / 64
/-- Registers of A with the scales of FMT 6 (R175). -/
def spanA (fmt kr : Nat) : Nat := regsA kr + if fmt = 6 then kr else 0
/-- Registers of B with the scales of FMT 6 (R175). -/
def spanB (fmt n kr : Nat) : Nat := regsB n kr + if fmt = 6 then kr * n / 64 else 0

/-- A grant's word (R174). -/
def grantWord (fmt n kr : Nat) (gv : Bool) (regs : Nat) : DWord :=
  BitVec.ofNat 64 (fmt + (if n = 128 then 16 else 0) + Nat.log2 kr * 32 + (if gv then 128 else 0) + regs * 256)

/-- The grant for a request, none where it traps (R174, R175). In FMT 6 the scale registers, which R175 adds to A and B, count in the test
RA + RB ≤ V and in REGS: R177 gives RA and RB without them, and the spec does not say which it means (DESIGN CHOICE, log 112). -/
def grantFor (req : DWord) (v : Nat) : Option DWord :=
  let c := readConfig req
  if bits64 req 63 16 ≠ 0 ∨ c.gv ∨ bits64 req 15 8 ≠ 0 ∨ 10 ≤ c.fmt ∨ bits64 req 6 5 = 3 then none
  else if 8 ≤ c.fmt then some (grantWord c.fmt c.n c.kr true 0)
  else
    let ns := if c.n = 128 then [128, 64] else [64]
    let krs := [4, 2, 1].filter fun k => decide (k ≤ c.kr)
    let tries := ns.flatMap fun n => krs.map fun k => (n, k)
    match tries.find? fun x => decide (spanA c.fmt x.2 + spanB c.fmt x.1 x.2 ≤ v) with
    | some (n, k) => some (grantWord c.fmt n k true (spanA c.fmt k + spanB c.fmt n k))
    | none => some (grantWord c.fmt 64 1 false 0)

/-! ### Elements and sums -/

/-- The number format of an operand's elements (R175). -/
def elemFmt (fmt : Nat) (isB : Bool) : Fmt :=
  match fmt with
  | 0 => fp16
  | 1 => bf16
  | 2 => fpE4M3
  | 3 => fpE5M2
  | 4 => if isB then fpE5M2 else fpE4M3
  | 5 => if isB then fpE4M3 else fpE5M2
  | _ => fpE2M1

/-- A value times a power of two given by an E8M0 scale (R77). -/
def scaleF (scale : Nat) (x : FVal) : FVal :=
  if scale = 255 then .nan
  else match x with
    | .fin s m e => .fin s m (e + scale - 127)
    | y => y

/-- An operand element's value (R76, R77, R78). -/
def elemValue (fmt : Nat) (isB : Bool) (raw scale : Nat) : FVal :=
  if fmt = 7 then ofIntF (sextN 8 raw)
  else if fmt = 6 then scaleF scale (decodeF fpE2M1 raw)
  else decodeF (elemFmt fmt isB) raw

/-- Element k of some packed 32-bit words (R77). -/
def packedElem (bits k : Nat) (word : Nat → Word) : Nat :=
  let e := 32 / bits
  (word (k / e)).toNat / 2 ^ (bits * (k % e)) % 2 ^ bits

/-- An accumulator element as a value (R178). -/
def accValue (fmt : Nat) (x : Word) : FVal := if fmt = 7 then ofIntF x.toInt else f32 x

/-- The integer that an exact integral value is. -/
def intOfF : FVal → Int
  | .fin s m e => (if s then -1 else 1) * (m * 2 ^ e.toNat : Nat)
  | _ => 0

/-- One chunk added to an accumulator element: an exact sum, rounded once, or wrapped for FMT 7 (R84, R185). -/
def addChunk (fmt : Nat) (acc : Word) (terms : List FVal) : Word :=
  let t := terms.foldl (addF .rn) (accValue fmt acc)
  if fmt = 7 then BitVec.ofInt 32 (intOfF t) else toF32 .rn t

/-! ### Tiles -/

/-- An element of a tile (R178). -/
def accElem (tm : Team) (tile x : Nat) : Word := smGet 0 tm.acc (tile * 8192 + x)

/-- A tile with new contents in every element. -/
def setTile (tm : Team) (tile : Nat) (f : Nat → Word) : Team :=
  let mine := ((List.range 8192).map fun x => (tile * 8192 + x, f x)).filter fun kv => kv.2 ≠ 0
  let below := tm.acc.filter fun kv => decide (kv.1 < tile * 8192)
  let above := tm.acc.filter fun kv => decide ((tile + 1) * 8192 ≤ kv.1)
  { tm with acc := below ++ mine ++ above }

/-- A row of a tile has an uncorrectable error (R193). -/
def rowBad (tm : Team) (tile row : Nat) : Bool := tm.badRows.contains (tile, row)

/-- Rows written whole lose their errors (R193). -/
def clearRows (tm : Team) (tile : Nat) (p : Nat → Bool) : Team :=
  { tm with badRows := tm.badRows.filter fun x => !(x.1 == tile && p x.2) }

/-- Writes one whole row of a tile. -/
def setRow (tm : Team) (tile row : Nat) (f : Nat → Word) : Team :=
  clearRows (setTile tm tile fun x => if x / 128 = row then f (x % 128) else accElem tm tile x) tile (· == row)

/-- Records a matrix storage error of an instruction: the first of a team stands (R194). -/
def recordMatrix (tm : Team) (op : MatrixOp) (cls : Option EngineClass) : Team :=
  let r : Report := { cause := .engineError, addr := 0, cls := cls, batch := op.batch }
  if tm.matrixReport.isSome then tm else { tm with matrixReport := some (op.gang, op.id, r) }

/-- A tile or operand error during a step of the MMA family (R193): the destination tile is filled. -/
def failTile (tm : Team) (op : MatrixOp) (fmt tile : Nat) (cls : Option EngineClass) : Team :=
  let w : Word := if fmt = 7 then 0 else 0x7FC00000
  recordMatrix (clearRows (setTile tm tile fun _ => w) tile fun _ => true) op cls

/-- The state of some scratchpad lines for an operand fetch (R106, R184). -/
inductive Lines where
  | ready | faulted | waiting
deriving DecidableEq, Repr

/-- What the tags of some lines say. -/
def linesState (tm : Team) (ls : List Nat) : Lines :=
  if ls.any fun l => fillTag tm l == tagEmpty || fillTag tm l == tagPending then .waiting
  else if ls.any fun l => fillTag tm l == tagFaulted then .faulted else .ready

/-- A 32-bit word of scratchpad. -/
def scratchWord (tm : Team) (a : Nat) : Word := BitVec.ofNat 32 (natOf (scratchBytes tm a 4))

/-! ### Steps -/

/-- What one step of an instruction answers (R192). -/
inductive StepRes where
  /-- The step is done; `last` says that no step is left. -/
  | ran (tm : Team) (op : MatrixOp) (last : Bool)
  | waiting

/-- A register operand at issue. -/
def opReg (op : MatrixOp) (n : Nat) : Lanes := smGet zeroLanes op.regs n

/-- The value of A[i][k] in registers (R177). -/
def regA (op : MatrixOp) (c : Config10) (va i k : Nat) : FVal :=
  let raw := packedElem (elemBits c.fmt) k fun r => laneOf (opReg op (va + r)) i
  let t := k / 32
  let scale := (laneOf (opReg op (va + regsA c.kr + t / 4)) i).toNat / 2 ^ (8 * (t % 4)) % 256
  elemValue c.fmt false raw scale

/-- The lane and the register block of column j of B (R177). -/
def columnPlace (n j : Nat) : Nat × Nat :=
  let q := j / (n / 4)
  let r := j % (n / 4)
  (16 * q + r / (n / 64), r % (n / 64))

/-- The value of B[k][j] in registers (R177). -/
def regB (op : MatrixOp) (c : Config10) (vb k j : Nat) : FVal :=
  let (l, u) := columnPlace c.n j
  let raw := packedElem (elemBits c.fmt) k fun r => laneOf (opReg op (vb + 16 * c.kr * u + r)) l
  let t := k / 32
  let scale := (laneOf (opReg op (vb + regsB c.n c.kr + c.kr * u + t / 4)) l).toNat / 2 ^ (8 * (t % 4)) % 256
  elemValue c.fmt true raw scale

/-- One chunk added in the rows of a mask and the columns below N (R185, R190). -/
def chunkStep (tm : Team) (c : Config10) (tile : Nat) (rows : Nat → Bool) (terms : Nat → Nat → List FVal) : Team :=
  setTile tm tile fun x =>
    let i := x / 128
    let j := x % 128
    if rows i && decide (j < c.n) then addChunk c.fmt (accElem tm tile x) (terms i j) else accElem tm tile x

/-- One step of a form whose operands are ready: an error of a row read fills the tile (R193). -/
def sumStep (tm : Team) (op : MatrixOp) (c : Config10) (tile steps : Nat) (rows : Nat → Bool)
    (terms : Nat → Nat → List FVal) : StepRes :=
  if (List.range 64).any fun i => rows i && rowBad tm tile i then .ran (failTile tm op c.fmt tile none) op true
  else .ran (chunkStep tm c tile rows terms) { op with stepNo := op.stepNo + 1 } (decide (steps ≤ op.stepNo + 1))

/-- The k of a chunk. -/
def chunkKs (size n : Nat) : List Nat := (List.range size).map (· + n * size)

/-- A step of MMA with register operands (R185). -/
def stepMma (tm : Team) (op : MatrixOp) (tile va vb : Nat) : StepRes :=
  let c := readConfig op.cfg
  let ks := chunkKs (chunkOf c.fmt) op.stepNo
  sumStep tm op c tile (kTotal c / chunkOf c.fmt) (fun _ => true)
    fun i j => ks.map fun k => mulF (regA op c va i k) (regB op c vb k j)

/-- The step set of MMAS (R187). -/
def stepSet (c : Config10) (g0 g1 : DWord) : List Nat :=
  (List.range (kTotal c)).filter fun k => g0.getLsbD k && g1.getLsbD k

/-- A step of MMAS: the next k of S (R187). STEP holds that k (R192). -/
def stepMmas (tm : Team) (op : MatrixOp) (tile va vb : Nat) : StepRes :=
  let c := readConfig op.cfg
  match op.gvals with
  | [g0, g1] =>
    match (stepSet c g0 g1).filter fun k => decide (op.stepNo ≤ k) with
    | [] => .ran tm op true
    | k :: rest =>
      sumStep tm { op with stepNo := k } c tile (if rest.isEmpty then k + 1 else kTotal c + 1) (fun _ => true)
        fun i j => [mulF (regA op c va i k) (regB op c vb k j)]
  | _ => .ran tm op true

/-- A step of MMAN with n values of 16 (R188). A logical k that no index names adds no term. R188 says that it contributes zero, not of
which sign; so an accumulator element of -0 that meets no product keeps its sign (DESIGN CHOICE, log 100). -/
def stepMman (tm : Team) (op : MatrixOp) (n tile va vb : Nat) : StepRes :=
  let c := readConfig op.cfg
  let size := chunkOf c.fmt
  let lo := op.stepNo * size
  let bits := elemBits c.fmt
  sumStep tm op c tile (kTotal c / size) (fun _ => true)
    fun i j =>
      let gs := (List.range (kTotal c / 16)).filter fun g => decide (16 * g < lo + size) && decide (lo < 16 * g + 16)
      gs.flatMap fun g => (List.range n).filterMap fun t =>
        let p := g * n + t
        let x := packedElem 4 p fun r => laneOf (opReg op (op.index + r)) i
        let k := 16 * g + x
        if lo ≤ k ∧ k < lo + size then
          some (mulF (elemValue c.fmt false (packedElem bits p fun r => laneOf (opReg op (va + r)) i) 127) (regB op c vb k j))
        else none

/-- The element of lane k mod 64 of a block in a plane tile, one mantissa bit held (R186). -/
def planeElem (tm : Team) (d : PlaneDesc) (mid : Bool) (b l : Nat) : FVal :=
  let bit (p : Nat) : Bool := (scratchByte tm (planeAddr d p b + l / 8)).getLsbD (l % 8)
  decodeBp (scratchByte tm (planeAddr d 0 b)).toNat (bit 1) [bit 2] d.m mid

/-- The lines of planes 0 to 2 of some blocks (R186). -/
def planeLines (d : PlaneDesc) (bs : List Nat) : List Nat :=
  bs.flatMap fun b => [0, 1, 2].map fun p => planeAddr d p b / 128

/-- A step of MMA with plane operands: one block of each row and column (R186). -/
def stepPlane (tm : Team) (op : MatrixOp) (tile : Nat) : StepRes :=
  let c := readConfig op.cfg
  match op.gvals with
  | [a0, a1, b0, b1] =>
    match planeDesc a0 a1, planeDesc b0 b1 with
    | some da, some db =>
      let blockA (i : Nat) : Nat := da.block + 4 * c.kr * i + op.stepNo
      let blockB (j : Nat) : Nat := db.block + 4 * c.kr * j + op.stepNo
      match linesState tm (planeLines da ((List.range 64).map blockA) ++ planeLines db ((List.range c.n).map blockB)) with
      | .waiting => .waiting
      | .faulted => .ran (failTile tm op c.fmt tile (some .mx)) op true
      | .ready =>
        sumStep tm op c tile (4 * c.kr) (fun _ => true)
          fun i j => (List.range 64).map fun l =>
            mulF (planeElem tm da (c.fmt == 9) (blockA i) l) (planeElem tm db (c.fmt == 9) (blockB j) l)
    | _, _ => .ran tm op true
  | _ => .ran tm op true

/-- An entry of a block table (R189). -/
structure BlockEntry where
  aoff : Nat
  boff : Nat
  acc : Nat
  zero : Bool
  rmask : Mask
  clean : Bool
deriving DecidableEq, Repr

/-- Reads entry n of a table (R189). -/
def blockEntry (tm : Team) (toff n : Nat) : BlockEntry :=
  let bs := scratchBytes tm (toff + 16 * n) 16
  let w0 := natOf (bs.take 8)
  { aoff := bitsN w0 22 0, boff := bitsN w0 45 23, acc := bitsN w0 49 46, zero := bitN w0 50
    rmask := BitVec.ofNat 64 (natOf (bs.drop 8)), clean := bitsN w0 63 51 == 0 }

/-- TOFF and NENT of a table operand (R189). -/
def tableOf (g : DWord) : Nat × Nat := (bits64 g 22 0, bits64 g 38 23 + 1)

/-- Whether an entry fails (R190). -/
def entryFails (tm : Team) (c : Config10) (e : BlockEntry) : Bool :=
  let r := kTotal c * elemBits c.fmt / 8
  !e.clean || e.aoff % 128 != 0 || e.boff % 128 != 0 || decide (scratchSize tm < e.aoff + 64 * r) ||
    decide (scratchSize tm < e.boff + c.n * r) || decide (tm.acct ≤ e.acc)

/-- The lines that a chunk of a tile in scratchpad touches, for some rows of it. -/
def tileLines (base rowBytes lo len : Nat) (rows : List Nat) : List Nat :=
  rows.flatMap fun i => linesOf (base + i * rowBytes + lo) len

/-- An element of a tile in scratchpad (R189). -/
def tileElem (tm : Team) (fmt : Nat) (isB : Bool) (base rowBytes i k : Nat) : FVal :=
  elemValue fmt isB (packedElem (elemBits fmt) k fun r => scratchWord tm (base + i * rowBytes + 4 * r)) 127

/-- The step counter after a chunk of an entry on a tile (R192). -/
def nextBlock (op : MatrixOp) (chunks nent tile : Nat) : MatrixOp × Bool :=
  if op.stepNo + 1 < chunks then ({ op with stepNo := op.stepNo + 1 }, false)
  else ({ op with stepNo := 0, entry := op.entry + 1, tiles := setAdd op.tiles tile }, decide (nent ≤ op.entry + 1))

/-- A step of MMAB: one chunk of one entry (R190). ZERO clears the columns that MMAB touches (R178) and removes no row's error, as R193's
list of what does has it not. -/
def stepMmab (tm : Team) (op : MatrixOp) : StepRes :=
  let c := readConfig op.cfg
  match op.gvals with
  | [g] =>
    let (toff, nent) := tableOf g
    match linesState tm [(toff + 16 * op.entry) / 128] with
    | .waiting => .waiting
    | .faulted => .ran (recordMatrix tm op (some .mx)) op true
    | .ready =>
      let e := blockEntry tm toff op.entry
      if entryFails tm c e then .ran (recordMatrix tm op none) op true
      else
        let size := chunkOf c.fmt
        let r := kTotal c * elemBits c.fmt / 8
        let lo := op.stepNo * size * elemBits c.fmt / 8
        let len := size * elemBits c.fmt / 8
        let rows (i : Nat) : Bool := inMask e.rmask i
        match linesState tm (tileLines e.aoff r lo len ((List.range 64).filter rows) ++
            tileLines e.boff r lo len (List.range c.n)) with
        | .waiting => .waiting
        | .faulted => .ran (failTile tm op c.fmt e.acc (some .mx)) op true
        | .ready =>
          let tm := if e.zero ∧ op.stepNo = 0 then
              setTile tm e.acc fun x => if rows (x / 128) && decide (x % 128 < c.n) then 0 else accElem tm e.acc x
            else tm
          let ks := chunkKs size op.stepNo
          match sumStep tm op c e.acc 1 rows
              (fun i j => ks.map fun k => mulF (tileElem tm c.fmt false e.aoff r i k) (tileElem tm c.fmt true e.boff r j k)) with
          | .ran tm' _ _ =>
            if (List.range 64).any fun i => rows i && rowBad tm e.acc i then .ran tm' op true
            else
              let (op', last) := nextBlock op (kTotal c / size) nent e.acc
              .ran tm' op' last
          | .waiting => .waiting
  | _ => .ran tm op true

/-- The next row of an instruction on whole tiles. -/
def nextRow (tm : Team) (op : MatrixOp) : StepRes := .ran tm { op with stepNo := op.stepNo + 1 } (decide (64 ≤ op.stepNo + 1))

/-- A step of ACCZ (R191). -/
def stepAccz (tm : Team) (op : MatrixOp) (tile : Nat) : StepRes := nextRow (setRow tm tile op.stepNo fun _ => 0) op

/-- A step of ACCMOV (R191, R193). -/
def stepAccmov (tm : Team) (op : MatrixOp) (d src : Nat) : StepRes :=
  if d = src then .ran tm op true
  else
    let bad := rowBad tm src op.stepNo
    let tm' := setRow tm d op.stepNo fun j => if bad then 0x7FC00000 else accElem tm src (128 * op.stepNo + j)
    nextRow (if bad then recordMatrix tm' op none else tm') op

/-- A step of ACCLD (R191, R193): words of a FAULTED line become 0x7FC0_0000. -/
def stepAccld (tm : Team) (op : MatrixOp) (tile base : Nat) : StepRes :=
  let a := base + 512 * op.stepNo
  let ls := linesOf a 512
  match linesState tm ls with
  | .waiting => .waiting
  | r =>
    let bad (x : Nat) : Bool := fillTag tm (x / 128) == tagFaulted
    let tm' := setRow tm tile op.stepNo fun j => if bad (a + 4 * j) then 0x7FC00000 else scratchWord tm (a + 4 * j)
    nextRow (if r = .faulted then recordMatrix tm' op (some .mx) else tm') op

/-- A step of ACCST (R191, R193). `race` says that writer marks are kept (R150). -/
def stepAccst (race : Bool) (tm : Team) (op : MatrixOp) (tile base : Nat) : StepRes :=
  let a := base + 512 * op.stepNo
  let ls := linesOf a 512
  let bytes := (List.range 128).flatMap fun j => bytesOf 4 (accElem tm tile (128 * op.stepNo + j)).toNat
  let bad := rowBad tm tile op.stepNo
  let tm := setScratch tm (writesAt a bytes)
  let tm := if race then ls.foldl (fun tm l => setMark tm l op.gang) tm else tm
  let tm := if bad then recordMatrix (ls.foldl (fun tm l => setFill tm l tagFaulted) tm) op none else tm
  nextRow tm op

/-- ACCLD.R (R191, R193): the registers are written when it completes. -/
def stepAccldR (tm : Team) (op : MatrixOp) (tile vd j0 n : Nat) : StepRes :=
  let bad := (List.range 64).any (rowBad tm tile)
  let val (k i : Nat) : Word := if rowBad tm tile i then 0x7FC00000 else accElem tm tile (128 * i + j0 + k)
  let ds := (List.range n).map fun k => Deposit.lanes (.v (vd + k)) allLanes (mkLanes (val k))
  .ran (if bad then recordMatrix tm op none else tm) { op with deposits := ds } true

/-- ACCST.R (R191). -/
def stepAccstR (tm : Team) (op : MatrixOp) (tile vs j0 n : Nat) : StepRes :=
  .ran (setTile tm tile fun x =>
    let j := x % 128
    if j0 ≤ j ∧ j < j0 + n then laneOf (opReg op (vs + (j - j0))) (x / 128) else accElem tm tile x) op true

/-- One step of a matrix instruction (R192). -/
def stepMatrix (race : Bool) (tm : Team) (op : MatrixOp) : StepRes :=
  match op.instr with
  | .mma c a b => stepMma tm op c.toNat a.toNat b.toNat
  | .mmaPlane c _ _ => stepPlane tm op c.toNat
  | .mmas c a b _ => stepMmas tm op c.toNat a.toNat b.toNat
  | .mmanN2 c a b => stepMman tm op 2 c.toNat a.toNat b.toNat
  | .mmanN4 c a b => stepMman tm op 4 c.toNat a.toNat b.toNat
  | .mmanN8 c a b => stepMman tm op 8 c.toNat a.toNat b.toNat
  | .mmab _ => stepMmab tm op
  | .accld c _ => stepAccld tm op c.toNat ((op.gvals.head?).getD 0).toNat
  | .accst c _ => stepAccst race tm op c.toNat ((op.gvals.head?).getD 0).toNat
  | .accldR c v j n => stepAccldR tm op c.toNat v.toNat j.toNat (n.toNat + 1)
  | .accstR c v j n => stepAccstR tm op c.toNat v.toNat j.toNat (n.toNat + 1)
  | .accz c => stepAccz tm op c.toNat
  | .accmov d src => stepAccmov tm op d.toNat src.toNat
  | _ => .ran tm op true

/-! ### Tile order (R181) -/

/-- The tiles that a table's entries name, those finished too, since the instruction has not completed (R181); every tile where an entry
cannot be read yet. -/
def tableTiles (tm : Team) (op : MatrixOp) : List Nat :=
  match op.gvals with
  | [g] =>
    let (toff, nent) := tableOf g
    let es := (List.range (nent - op.entry)).map (· + op.entry)
    if es.any fun n => linesState tm [(toff + 16 * n) / 128] == .waiting then List.range 16
    else op.tiles ++ es.map fun n => (blockEntry tm toff n).acc
  | _ => []

/-- The tiles that an instruction writes. -/
def tilesWritten (tm : Team) (op : MatrixOp) : List Nat :=
  match op.instr with
  | .mma c _ _ => [c.toNat] | .mmaPlane c _ _ => [c.toNat] | .mmas c _ _ _ => [c.toNat]
  | .mmanN2 c _ _ => [c.toNat] | .mmanN4 c _ _ => [c.toNat] | .mmanN8 c _ _ => [c.toNat]
  | .mmab _ => tableTiles tm op
  | .accld c _ => [c.toNat] | .accstR c _ _ _ => [c.toNat] | .accz c => [c.toNat] | .accmov d _ => [d.toNat]
  | _ => []

/-- The tiles that an instruction reads without writing them. -/
def tilesRead (op : MatrixOp) : List Nat :=
  match op.instr with
  | .accst c _ => [c.toNat] | .accldR c _ _ _ => [c.toNat] | .accmov _ src => [src.toNat]
  | _ => []

/-- Whether an instruction must wait for an earlier one on a common tile (R181). -/
def tileConflict (tm : Team) (earlier later : MatrixOp) : Bool :=
  let wl := tilesWritten tm later
  (tilesWritten tm earlier).any (fun t => wl.contains t || (tilesRead later).contains t) || (tilesRead earlier).any wl.contains

/-- Whether an outstanding instruction may take a step (R181). -/
def mayStep (tm : Team) (op : MatrixOp) : Bool :=
  !((tm.mops.takeWhile fun x => x.id != op.id).any fun x => tileConflict tm x op)

/-- Writes deposits into a gang's registers (R180, R260): a v register's tag was cleared at issue. -/
def applyDeposits (gg : Gang) (ds : List Deposit) : Gang :=
  ds.foldl (fun gg d => match d with
    | .lanes (.v n) m x => setV gg n m x
    | .lanes (.o n) m x => setO gg n m x
    | .pred n m x => setP gg n m x
    | .gpr n x => setG gg n x
    | .tag n x => setTag gg n x
    | _ => gg) gg

/-- Takes an instruction out of the sequencer and writes its registers (R182). -/
def finishMatrix (tm : Team) (op : MatrixOp) : Team :=
  { tm with mops := tm.mops.filter fun x => x.id != op.id
            gangs := listModify (fun gg => applyDeposits gg op.deposits) tm.gangs op.gang }

/-- An uncorrectable error in a v register that the sequencer reads (R193): an instruction of the MMA family fills its tile, and its later
steps are not performed. The rule gives ACCST.R no value: the elements that it writes are free (log 91). -/
def failRegister (tm : Team) (op : MatrixOp) (free : Nat → Word) : Team :=
  match op.instr, tilesWritten tm op with
  | .accstR c _ j n, _ =>
    let lo := j.toNat
    let hi := j.toNat + (n.toNat + 1)
    finishMatrix (recordMatrix (setTile tm c.toNat fun x =>
      if lo ≤ x % 128 ∧ x % 128 < hi then free x else accElem tm c.toNat x) op none) op
  | _, tile :: _ => finishMatrix (failTile tm op (readConfig op.cfg).fmt tile none) op
  | _, [] => tm

/-- Runs the steps of an instruction that are left, over fuel; none where it must wait. -/
def runSteps (race : Bool) : Nat → Team → MatrixOp → Option Team
  | 0, _, _ => none
  | n + 1, tm, op =>
    match stepMatrix race tm op with
    | .waiting => none
    | .ran tm op true => some (finishMatrix tm op)
    | .ran tm op false => runSteps race n tm op

/-- One step of the sequencer on an instruction; the last one completes it. -/
def oneStep (race : Bool) (tm : Team) (op : MatrixOp) : Team :=
  match stepMatrix race tm op with
  | .waiting => tm
  | .ran tm op true => finishMatrix tm op
  | .ran tm op false => { tm with mops := tm.mops.map fun x => if x.id == op.id then op else x }

end Sys2Proof.Machine
end

