-- ==== Sys2Proof/Machine/MatrixWords.lean ====
section
/-!
DEFINITION. The matrix words of major 0xA: SHAPE, the batches, and the issue of the matrix instructions (10 R174 to R194,
R278, R335, R336, R360).
-/
namespace Sys2Proof.Machine

/-! ### SHAPE and batches -/

/-- Sets the configuration that a grant gives, none where GV is 0 (R175). -/
def setConfig (gg : Gang) (w : DWord) : Gang := { gg with mcfg := if w.getLsbD 7 then w else 0 }

/-- SHAPE (R174, R175, R360). -/
def shapeBody (d src : Nat) (c : GCtx) (s : State) : GRes :=
  if c.act = 0 then .done s
  else match grantFor (gReg c.gg src) c.tm.vregs with
    | none => .trap .illegalOperand c.act 0
    | some w => .done (modGang s c.t c.g fun gg => setConfig (setG gg d w) w)

/-- SHAPE (R360). -/
def execShape (d : BitVec 5) (sc : BitVec 5) (s : State) : Out :=
  gangOnly (.shape d sc) (fun _ => { plainInfo with reads := [.g sc.toNat], writes := [.g d.toNat] })
    (shapeBody d.toNat sc.toNat) s

/-- Whether an instruction of the gang in the batch last closed with number b is outstanding (R182). -/
def batchBusy (tm : Team) (g b : Nat) : Bool := tm.mops.any fun m => m.gang == g && m.batch == some b

/-- Whether the gang has a matrix instruction outstanding. -/
def matrixBusy (tm : Team) (g : Nat) : Bool := tm.mops.any fun m => m.gang == g

/-- The team's matrix report, where it is this gang's and a wait on these batches delivers it (R194). -/
def reportAt (tm : Team) (g : Nat) (p : Option Nat → Bool) : Option Report :=
  match tm.matrixReport with
  | some (gang, _, r) => if gang = g ∧ p r.batch then some r else none
  | none => none

/-- Delivers a matrix report at a wait: it is consumed (R194, R228). -/
def deliverMatrix (r : Report) (c : GCtx) (s : State) : GRes :=
  .report 15 r 0 (modTeam s c.t fun tm => { tm with matrixReport := none })

/-- Numbers the open batch of a gang, and the report of an instruction of it (R182, R194). -/
def closeBatch (tm : Team) (g b : Nat) : Team :=
  { tm with
    mops := tm.mops.map fun m => if m.gang = g ∧ m.batch = none then { m with batch := some b } else m
    matrixReport := tm.matrixReport.map fun x =>
      if x.1 = g ∧ x.2.2.batch = none then (x.1, x.2.1, { x.2.2 with batch := some b }) else x }

/-- MFENCE, with the register of its second form (R182, R335). -/
def mfenceBody (d : Option Nat) (c : GCtx) (s : State) : GRes :=
  let b := c.gg.mseq % 16
  if c.act = 0 then .done s
  else if batchBusy c.tm c.g b then .wait .interlock s
  else match reportAt c.tm c.g (· == some b) with
    | some r => deliverMatrix r c s
    | none =>
      .done (modGang (modTeam s c.t fun tm => closeBatch tm c.g b) c.t c.g fun gg =>
        let gg := { gg with mseq := gg.mseq + 1 }
        match d with
        | some n => setG gg n (BitVec.ofNat 64 b)
        | none => gg)

/-- MFENCE (R335). -/
def execMfence (s : State) : Out := gangOnly .mfence (fun _ => plainInfo) (mfenceBody none) s
/-- MFENCE gd (R335). -/
def execMfenceGd (d : BitVec 5) (s : State) : Out :=
  gangOnly (.mfenceGd d) (fun _ => { plainInfo with writes := [.g d.toNat] }) (mfenceBody (some d.toNat)) s

/-- MWAIT b (R183, R335). -/
def mwaitBody (b : Nat) (c : GCtx) (s : State) : GRes :=
  if c.act = 0 then .done s
  else if batchBusy c.tm c.g b then .wait .interlock s
  else match reportAt c.tm c.g (· == some b) with
    | some r => deliverMatrix r c s
    | none => .done s

/-- MWAIT b (R335). -/
def execMwait (b : BitVec 4) (s : State) : Out := gangOnly (.mwait b) (fun _ => plainInfo) (mwaitBody b.toNat) s

/-- MWAIT.ALL (R183, R335). -/
def mwaitAllBody (c : GCtx) (s : State) : GRes :=
  if c.act = 0 then .done s
  else if matrixBusy c.tm c.g then .wait .interlock s
  else match reportAt c.tm c.g fun _ => true with
    | some r => deliverMatrix r c s
    | none => .done s

/-- MWAIT.ALL (R335). -/
def execMwaitAll (s : State) : Out := gangOnly .mwaitAll (fun _ => plainInfo) mwaitAllBody s

/-! ### Issue -/

/-- What an instruction needs at issue beside its word. -/
structure MatrixNeeds where
  /-- Check 3 of R179. -/
  legal : Bool
  /-- The v registers read, the v registers written, the g registers read. -/
  reads : List Nat
  writes : List Nat
  gregs : List Nat
  /-- Scratchpad extents: offset and length (check 4 of R179). -/
  extents : List (Nat × Nat)
  index : Nat
deriving DecidableEq, Repr

/-- An instruction with no operand but its tile. -/
def noNeeds : MatrixNeeds := { legal := true, reads := [], writes := [], gregs := [], extents := [], index := 0 }

/-- The numbers from a to a + n - 1. -/
def runOf (a n : Nat) : List Nat := (List.range n).map (· + a)

/-- What R267 and R179 need of a matrix word. The full mask is checked before the operands' limits (R179), so with a partial mask those are
left to the word itself; the check of pending registers comes first all the same (R267). -/
def matrixInfo (acc : Accepts) (needs : GCtx → MatrixNeeds) (c : GCtx) : WordInfo :=
  let n := needs c
  { plainInfo with
    accepts := acc, legal := decide (c.act ≠ allLanes) || n.legal
    reads := n.reads.map RegName.v ++ n.gregs.map RegName.g
    writes := n.writes.map RegName.v }

/-- The registers of a gang as an instruction finds them at issue. -/
def snapRegs (gg : Gang) (l : List Nat) : Smap Lanes := l.foldl (fun m n => smSet zeroLanes m n (vReg gg n)) []

/-- Issues a matrix instruction: it joins the open batch and the core's order (R179 to R182). ACCLD.R clears the tags of its
registers (R191). -/
def issueMatrix (i : Instr) (needs : GCtx → MatrixNeeds) (c : GCtx) (s : State) : GRes :=
  let n := needs c
  if c.act ≠ allLanes then .trap .illegalConvergence c.act 0
  else match n.extents.find? fun x => decide (scratchSize c.tm < x.1 + x.2) with
    | some x => .trapAcc s .scratchBounds allLanes (BitVec.ofNat 64 x.1) .mx
    | none =>
      if 8 ≤ countP (fun m => m.gang == c.g) c.tm.mops then .wait .interlock s
      else
        let op (id : Nat) : MatrixOp :=
          { id := id, gang := c.g, instr := i, cfg := c.gg.mcfg, batch := none, regs := snapRegs c.gg n.reads,
            index := n.index, gvals := n.gregs.map (gReg c.gg), reads := n.reads, writes := n.writes, entry := 0,
            stepNo := 0, deposits := [] }
        .done (modTeam s c.t fun tm =>
          { tm with
            mops := tm.mops ++ [op tm.nextOp]
            nextOp := tm.nextOp + 1
            gangs := listModify (fun gg => n.writes.foldl clearTag gg) tm.gangs c.g })

/-- A matrix word. -/
def matrixWord (i : Instr) (acc : Accepts) (needs : GCtx → MatrixNeeds) (s : State) : Out :=
  gangOnly i (matrixInfo acc needs) (issueMatrix i needs) s

/-- The configuration in force. -/
def configOf (c : GCtx) : Config10 := readConfig c.gg.mcfg

/-- A tile below A (R68). -/
def tileOk (c : GCtx) (a : BitVec 4) : Bool := decide (a.toNat < c.tm.acct)

/-- Formats 0 to 5 and 7 (R187 to R189). -/
def plainFormat (fmt : Nat) : Bool := decide (fmt ≤ 5) || fmt == 7

/-- Register operands A and B of a format, with their spans. -/
def registersAB (c : GCtx) (accd : BitVec 4) (va vb lenA lenB : Nat) (more : Bool) : MatrixNeeds :=
  { noNeeds with
    legal := (configOf c).gv && tileOk c accd && decide (va + lenA ≤ c.tm.vregs) && decide (vb + lenB ≤ c.tm.vregs) && more
    reads := runOf va lenA ++ runOf vb lenB }

/-- MMA with register operands (R185, R336). -/
def execMma (c : BitVec 4) (a : BitVec 7) (b : BitVec 7) (s : State) : Out :=
  matrixWord (.mma c a b) acceptsNone
    (fun x =>
      let f := configOf x
      registersAB x c a.toNat b.toNat (spanA f.fmt f.kr) (spanB f.fmt f.n f.kr) (decide (f.fmt ≤ 7))) s

/-- The extents that MMA with plane operands reads: planes 0 to 2 of some blocks (R186). -/
def planeExtents (d : PlaneDesc) (blocks : Nat) : List (Nat × Nat) :=
  [0, 1, 2].map fun p => (planeAddr d p d.block, planeLen p * blocks)

/-- MMA with plane operands (R186, R336). -/
def planeNeeds (cc : BitVec 4) (a b : BitVec 5) (x : GCtx) : MatrixNeeds :=
  let f := configOf x
  let g (n : Nat) : DWord := gReg x.gg n
  let na := 4 * f.kr * 64
  let nb := 4 * f.kr * f.n
  match planeDesc (g a.toNat) (g (a.toNat + 1)), planeDesc (g b.toNat) (g (b.toNat + 1)) with
  | some da, some db =>
    { noNeeds with
      legal := f.gv && decide (8 ≤ f.fmt) && tileOk x cc && a.toNat % 2 == 0 && b.toNat % 2 == 0 && da.loc && db.loc &&
        decide (da.block + na ≤ da.bcount) && decide (db.block + nb ≤ db.bcount) &&
        (planeHint x.cl.hints).all fun k => decide (k ≤ 16)
      gregs := [a.toNat, a.toNat + 1, b.toNat, b.toNat + 1]
      extents := planeExtents da na ++ planeExtents db nb }
  | _, _ => { noNeeds with legal := false }

/-- MMA with plane operands (R336). -/
def execMmaPlane (c : BitVec 4) (a : BitVec 5) (b : BitVec 5) (s : State) : Out :=
  matrixWord (.mmaPlane c a b) ⟨false, false, false, false, true⟩ (planeNeeds c a b) s

/-- MMAS (R187, R336). -/
def execMmas (c : BitVec 4) (a : BitVec 7) (b : BitVec 7) (g : BitVec 5) (s : State) : Out :=
  matrixWord (.mmas c a b g) acceptsNone
    (fun x =>
      let f := configOf x
      { registersAB x c a.toNat b.toNat (spanA f.fmt f.kr) (spanB f.fmt f.n f.kr)
          (plainFormat f.fmt && decide (kTotal f ≤ 64) && g.toNat % 2 == 0) with
        gregs := [g.toNat, g.toNat + 1] }) s

/-- The operands of MMAN with n values of 16 (R188, R336). -/
def mmanNeeds (n : Nat) (cc : BitVec 4) (a b : BitVec 7) (x : GCtx) : MatrixNeeds :=
  let f := configOf x
  let e := 32 / elemBits f.fmt
  let lenA := ceilDiv (kTotal f * n / 16) e
  let lenX := ceilDiv (kTotal f * n) 128
  let base := registersAB x cc a.toNat b.toNat lenA (regsB f.n f.kr) (plainFormat f.fmt)
  match operHint x.cl.hints with
  | none => { base with legal := false }
  | some o =>
    { base with
      legal := base.legal && decide (o.sc ≤ 111) && decide (o.sc + lenX ≤ x.tm.vregs) && o.pc == 0 && o.rm == 0 && !o.sat && o.el == 0
      reads := base.reads ++ runOf o.sc lenX, index := o.sc }

/-- MMAN.N2 (R188). -/
def execMmanN2 (c : BitVec 4) (a : BitVec 7) (b : BitVec 7) (s : State) : Out :=
  matrixWord (.mmanN2 c a b) acceptsOper (mmanNeeds 2 c a b) s
/-- MMAN.N4 (R188). -/
def execMmanN4 (c : BitVec 4) (a : BitVec 7) (b : BitVec 7) (s : State) : Out :=
  matrixWord (.mmanN4 c a b) acceptsOper (mmanNeeds 4 c a b) s
/-- MMAN.N8 (R188). -/
def execMmanN8 (c : BitVec 4) (a : BitVec 7) (b : BitVec 7) (s : State) : Out :=
  matrixWord (.mmanN8 c a b) acceptsOper (mmanNeeds 8 c a b) s

/-- MMAB (R189, R336). -/
def execMmab (g : BitVec 5) (s : State) : Out :=
  matrixWord (.mmab g) acceptsNone
    (fun x =>
      let f := configOf x
      let w := gReg x.gg g.toNat
      let (toff, nent) := tableOf w
      { noNeeds with
        legal := f.gv && plainFormat f.fmt && bits64 w 63 39 == 0 && toff % 16 == 0
        gregs := [g.toNat]
        extents := [(toff, 16 * nent)] }) s

/-- The operands of ACCLD and ACCST (R191, R278). -/
def imageNeeds (cc : BitVec 4) (g : BitVec 5) (x : GCtx) : MatrixNeeds :=
  let w := gReg x.gg g.toNat
  { noNeeds with
    legal := tileOk x cc && w.toNat % 128 == 0 && decide (w.toNat < 2 ^ 23)
    gregs := [g.toNat]
    extents := [(w.toNat, 32768)] }

/-- ACCLD (R191, R278). -/
def execAccld (c : BitVec 4) (g : BitVec 5) (s : State) : Out := matrixWord (.accld c g) acceptsNone (imageNeeds c g) s
/-- ACCST (R191, R278). -/
def execAccst (c : BitVec 4) (g : BitVec 5) (s : State) : Out := matrixWord (.accst c g) acceptsNone (imageNeeds c g) s

/-- The limits of the .R forms (R191). -/
def columnsOk (x : GCtx) (cc : BitVec 4) (v j : BitVec 7) (n : BitVec 3) : Bool :=
  tileOk x cc && decide (j.toNat + (n.toNat + 1) ≤ 128) && decide (v.toNat + (n.toNat + 1) ≤ x.tm.vregs)

/-- ACCLD.R (R191, R278). -/
def execAccldR (c : BitVec 4) (v : BitVec 7) (j : BitVec 7) (n : BitVec 3) (s : State) : Out :=
  matrixWord (.accldR c v j n) acceptsNone
    (fun x => { noNeeds with legal := columnsOk x c v j n, writes := runOf v.toNat (n.toNat + 1) }) s
/-- ACCST.R (R191, R278). -/
def execAccstR (c : BitVec 4) (v : BitVec 7) (j : BitVec 7) (n : BitVec 3) (s : State) : Out :=
  matrixWord (.accstR c v j n) acceptsNone
    (fun x => { noNeeds with legal := columnsOk x c v j n, reads := runOf v.toNat (n.toNat + 1) }) s
/-- ACCZ (R191). -/
def execAccz (c : BitVec 4) (s : State) : Out :=
  matrixWord (.accz c) acceptsNone (fun x => { noNeeds with legal := tileOk x c }) s
/-- ACCMOV (R191). -/
def execAccmov (d : BitVec 4) (sc : BitVec 4) (s : State) : Out :=
  matrixWord (.accmov d sc) acceptsNone (fun x => { noNeeds with legal := tileOk x d && tileOk x sc }) s

/-- A core's matrix sequencer performs one step of an instruction that has issued, where the order of tiles lets it (R181,
R192). The team must be on its core; while it is being swapped out its instructions have stopped. -/
def sequencerTurn (s : State) (lid tid op : Nat) : State :=
  match teamIdx s lid tid with
  | none => s
  | some t =>
    modTeam s t fun tm =>
      match tm.mops.find? fun m => m.id == op with
      | none => tm
      | some m =>
        if (tm.st = .running ∨ tm.st = .retiring) ∧ mayStep tm m then oneStep (raceMode s tm) tm m else tm

end Sys2Proof.Machine
end

