-- ==== Sys2Proof/Machine/RangeWords.lean ====
section
/-!
DEFINITION. The range instructions of major 0xE (07 R124, R125, R131, R132, 19 R350, R351), SEAL and UNSEAL (08 R157, 19 R354), and
how a change, a widening or a move of a range ends.

The table is changed when the range unit takes the instruction; the stream is then held until RANGE_CHANGE_COMPLETE. A widening
or a move changes the entry when it ends.
-/
namespace Sys2Proof.Machine

/-! ### Physical spans -/

/-- The numbers of the 32-byte sectors of a physical span. -/
def spanSectors (lo hi : Nat) : List Nat := if hi ≤ lo then [] else (List.range ((hi - 1) / 32 - lo / 32 + 1)).map (· + lo / 32)

/-- Whether a sector lies in a physical span. -/
def inSpan (lo hi sector : Nat) : Bool := decide (lo / 32 ≤ sector) && decide (32 * sector < hi)

/-- Whether a physical span is memory. -/
def isStorage (pa : Nat) : Bool := isFast pa || isCap pa

/-- Clears D of the sectors of a physical span (R350). -/
def clearD (s : State) (lo hi : Nat) : State := mapTrack s (fun k _ => inSpan lo hi k) fun x => { x with d := false }

/-- Writes zero to a physical span (R125), at the home slice; a locked frame's bytes keep theirs (R253). -/
def zeroSpan (s : State) (lo hi : Nat) : State :=
  if isStorage lo && decide (lo < hi) then unitStore s lo (List.replicate (hi - lo) 0) else s

/-- Recalls the write tokens of a physical span: their holders write their dirty sectors back (R132, R157). -/
def recallTokens (s : State) (lo hi : Nat) : State :=
  (s.tokHolder.filter fun x => decide (512 * x.1 < hi) && decide (lo < 512 * x.1 + 512)).foldl
    (fun s x => passToken s x.1 homeHolder) s

/-- Writes back and invalidates every cached sector of a physical span, at both levels (R125). -/
def flushSpan (s : State) (lo hi : Nat) : State :=
  let mine (e : CacheSector) : Bool := inSpan lo hi e.sector
  let s := l1Drop (cleanL1 s mine) mine
  l2Drop (cleanL2 s mine) mine

/-- The first-level copies of a physical span are written back and invalidated (R157). -/
def flushFirst (s : State) (lo hi : Nat) : State := l1Drop (cleanL1 s fun e => inSpan lo hi e.sector) fun e => inSpan lo hi e.sector

/-- Writes the dirty sectors of a physical span back, at both levels (R157). -/
def cleanSpan (s : State) (lo hi : Nat) : State :=
  cleanL2 (cleanL1 s fun e => inSpan lo hi e.sector) fun e => inSpan lo hi e.sector

/-- A cached sector of a physical span is dirty no more. -/
def forgetDirty (lo hi : Nat) (l : List CacheSector) : List CacheSector :=
  l.map fun e => if inSpan lo hi e.sector then { e with dirty := false } else e

/-- Invalidates every cached sector of a physical span, at both levels, without writing it back: DRAM keeps what it held (R131). -/
def discardSpan (s : State) (lo hi : Nat) : State :=
  let mine (e : CacheSector) : Bool := inSpan lo hi e.sector
  l2Drop (l1Drop { s with l1 := forgetDirty lo hi s.l1, l2 := forgetDirty lo hi s.l2 } mine) mine

/-- The sectors of a physical span that are dirty in a cache of either level, each once (R131). -/
def dirtyCount (s : State) (lo hi : Nat) : Nat :=
  (((s.l1 ++ s.l2).filter fun e => e.dirty && inSpan lo hi e.sector).foldl (fun m e => setAdd m e.sector) []).length

/-- A sector as it is copied: its destination, its bytes and its poison. -/
abbrev SectorCopy := Nat × List Byte × Bool

/-- The sectors of [lo, hi) of one physical span, as the home slice serves them, for the same place of another span (R127, R132). -/
def readSectors (s : State) (src dst len : Nat) : List SectorCopy :=
  (List.range (len / 32)).map fun k => let d := homeSector s (src / 32 + k); (dst / 32 + k, d.1, d.2)

/-- Writes copied sectors, with their poison (R127); a locked frame's bytes keep theirs (R253). -/
def writeSectors (s : State) (l : List SectorCopy) : State :=
  l.foldl (fun s x =>
    let u := unitStore s (32 * x.1) x.2.1
    if x.2.2 && !locked s (32 * x.1) 32 then l2SetPoison u x.1 else u) s

/-- Copies a physical span to another, with poison. -/
def copySpan (s : State) (src dst len : Nat) : State :=
  let s := flushQuanta s src (src + len)
  writeSectors s (readSectors s src dst len)

/-! ### Entries by slot -/

/-- The first byte past the physical span of a range. -/
def spanEnd (e : RangeEntry) : Nat := e.pbase + (e.limit - e.base)

/-- The slot and entry whose BASE is an address. -/
def slotOfBase (s : State) (asid base : Nat) : Option (Nat × RangeEntry) :=
  ((tableEntries s asid).zipIdx.find? fun x => x.1.base == base).map fun x => (x.2, x.1)

/-- Replaces the entries from a slot on: so many are removed and others stand in their place (R125). -/
def spliceEntries (s : State) (asid k drop : Nat) (new : List RangeEntry) : State :=
  let es := tableEntries s asid
  putEntries s asid k (new ++ es.drop (k + drop))

/-- The resident window of a range, as [lo, hi); empty when lo ≥ hi (R117). -/
def windowOf (e : RangeEntry) : Nat × Nat := (max (e.wlo * 2 ^ 16) e.base, min (e.whi * 2 ^ 16) e.limit)

/-- Whether a window is empty. -/
def emptyWindow (w : Nat × Nat) : Bool := decide (w.2 ≤ w.1)

/-! ### What a range instruction answers -/

/-- The answer of the range unit. -/
inductive RangeRes where
  | trap (c : Cause) (addr : Nat)
  /-- A range with one of these BASEs is MIGRATING, is being widened, or is named by an instruction that waits: the instruction waits
  in the range unit behind it (R132, R133). -/
  | busy (bases : List Nat)
  /-- Done at once, with no change. -/
  | none
  /-- The table has been changed, or a widening or a move begins: the stream is held until it completes (R125). -/
  | changed (s : State) (kind : RangeKind)

/-- Whether an operation in progress changes the entry of a range when it ends, or an instruction waits for the range (R133). -/
def rangeBusy (s : State) (asid base : Nat) : Bool :=
  s.rangeOps.any fun o => o.asid == asid && (match o.kind with
    | .widen b _ _ => b == base
    | .migrIn b _ _ => b == base
    | .move b _ _ _ => b == base
    | .queued _ _ _ bases _ => bases.contains base
    | .change .. => false)

/-- An operand is not aligned, or names an address beyond the virtual address space (R124). -/
def badOperand (align x : Nat) : Bool := x % align != 0 || decide (2 ^ 56 ≤ x)

/-- The checks that R124 makes of every range instruction, then what the instruction does with the range that holds ga. -/
def onRange (s : State) (tm : Team) (align : Nat) (ops : List Nat) (k : Nat → Nat → RangeEntry → RangeRes) : RangeRes :=
  let asid := asidOf s tm
  let ga := ops.headD 0
  if ops.any (badOperand align) then .trap .illegalOperand 0
  else match findRange s asid ga with
  | none => .trap .noRange ga
  | some (n, e) =>
    if e.st = rsMigrating ∨ rangeBusy s asid e.base then .busy [e.base]
    else if !sysMode s tm && !e.self then .trap .rangePermission ga
    else k asid n e

/-- RGSPLIT (R124, R125). -/
def rangeSplit (s : State) (tm : Team) (ga : Nat) : RangeRes :=
  onRange s tm 128 [ga] fun asid n e =>
    let d := asidDesc s asid
    if ga = e.base ∨ d.count = d.tsize then .trap .illegalOperand 0
    else
      let left := { e with limit := ga, glim := ga }
      let right := { e with base := ga, pbase := e.pbase + (ga - e.base), cbase := (e.cbase + (ga - e.base)) % 2 ^ 52 }
      .changed (spliceEntries s asid n 1 [left, right]) (.change 0 e.base e.limit)

/-- Two adjacent ranges agree where RGMERGE needs it: word 3 but for WLO, GRAIN, and the two offsets (R124). -/
def mergeable (l r : RangeEntry) : Bool :=
  l.limit == r.base && l.asid == r.asid && l.r == r.r && l.w == r.w && l.x == r.x && l.sealed == r.sealed && l.gth == r.gth &&
  l.plane == r.plane && l.cap == r.cap && l.self == r.self && l.egress == r.egress && l.back == r.back && l.grain == r.grain &&
  (l.pbase : Int) - l.base == (r.pbase : Int) - r.base && (l.cbase : Int) - l.base == (r.cbase : Int) - r.base

/-- The union of two windows of adjacent ranges, where it is one interval (R124). The merged WLO and WHI are whole multiples of
64 KiB: where one of the windows is empty and ga is not one, the other range's bytes of that 64 KiB come into the window as they stand,
which the spec leaves open (log 88). -/
def windowUnion (l r : RangeEntry) : Option (Nat × Nat) :=
  let a := windowOf l
  let b := windowOf r
  if emptyWindow a then some b
  else if emptyWindow b then some a
  else if a.2 = b.1 then some (a.1, b.2) else none

/-- RGMERGE (R124, R125): ga is where the right range begins. LIMIT and GLIM both take the right range's GLIM, as the table of R125
has it (log 48). A bound of the union that is no multiple of 64 KiB is rounded outwards (DESIGN CHOICE, log 88). -/
def rangeMerge (s : State) (tm : Team) (ga : Nat) : RangeRes :=
  onRange s tm 128 [ga] fun asid n r =>
    if n = 0 ∨ r.base ≠ ga then .trap .illegalOperand 0
    else
      let l := tableEntry s (asidDesc s asid) (n - 1)
      if l.limit ≠ ga then .trap .illegalOperand 0
      else if l.st = rsMigrating ∨ rangeBusy s asid l.base then .busy [l.base, r.base]
      else match windowUnion l r with
      | none => .trap .illegalOperand 0
      | some (lo, hi) =>
        if !mergeable l r then .trap .illegalOperand 0
        else
          let e := { l with limit := r.glim, glim := r.glim, wlo := lo / 2 ^ 16, whi := if hi ≤ lo then lo / 2 ^ 16 else ceilDiv hi (2 ^ 16) }
          .changed (spliceEntries s asid (n - 1) 2 [e]) (.change 0 l.base r.glim)

/-- RGTRIM (R124, R125, R350). -/
def rangeTrim (s : State) (tm : Team) (ga gb : Nat) : RangeRes :=
  onRange s tm 128 [ga, gb] fun asid n e =>
    if gb ≤ e.base ∨ e.limit < gb then .trap .illegalOperand 0
    else
      let s := clearD s (e.pbase + (gb - e.base)) (spanEnd e)
      .changed (putEntry s asid n { e with limit := gb, whi := min e.whi (ceilDiv gb (2 ^ 16)) }) (.change 0 e.base e.limit)

/-- The physical spans of some spans of a range's addresses that are not empty, where the range stands at a physical base. -/
def physSpans (e : RangeEntry) (base : Nat) (l : List (Nat × Nat)) : List (Nat × Nat) :=
  (l.filter fun x => decide (x.1 < x.2)).map fun x => (base + (x.1 - e.base), base + (x.2 - e.base))

/-- Some byte of some physical spans is a locked frame's: a write to it fails with SEALED_WRITE (R253). -/
def spansLocked (s : State) (l : List (Nat × Nat)) : Bool := l.any fun x => locked s x.1 (x.2 - x.1)

/-- The physical spans of the grown bytes that have storage, in the window and in the backing copy (R125). -/
def grownSpans (e : RangeEntry) (gb : Nat) : List (Nat × Nat) :=
  physSpans e e.pbase [if wholeResident e then (e.limit, gb) else (max e.limit (e.wlo * 2 ^ 16), min gb (e.whi * 2 ^ 16))] ++
    if e.back then physSpans e e.cbase [(e.limit, gb)] else []

/-- Zeroes the grown bytes that have storage (R125), and clears their D (R350). -/
def zeroGrown (s : State) (e : RangeEntry) (gb : Nat) : State :=
  (grownSpans e gb).foldl (fun s x => clearD (zeroSpan s x.1 x.2) x.1 x.2) s

/-- The addresses that a widening to [nlo, nhi) fills: those of the range outside the old window (R127). -/
def newSpans (e : RangeEntry) (nlo nhi : Nat) : List (Nat × Nat) :=
  let w := windowOf e
  let clip (lo hi : Nat) : Nat × Nat := (max lo e.base, min hi e.limit)
  if emptyWindow w then [clip nlo nhi] else [clip nlo (min w.1 nhi), clip (max w.2 nlo) nhi]

/-- The addresses that a move writes at the new span (R132): the whole range when CAP is set on either side, else the window. -/
def movedSpan (e : RangeEntry) (cap : Bool) : Nat × Nat := if wholeResident e || cap then (e.base, e.limit) else windowOf e

/-- RGGROW (R124, R125, R350). A range instruction that would write a byte of a locked frame traps with SEALED_WRITE, after its other checks
(R253; DEDUCED, log 49). -/
def rangeGrow (s : State) (tm : Team) (ga gb : Nat) : RangeRes :=
  onRange s tm 128 [ga, gb] fun asid n e =>
    if gb < e.limit ∨ e.glim < gb ∨ (tableEntries s asid).any (fun x => decide (e.base < x.base) && decide (x.base < gb)) then
      .trap .illegalOperand 0
    else if e.sealed || spansLocked s (grownSpans e gb) then .trap .sealedWrite ga
    else .changed (putEntry (zeroGrown s e gb) asid n { e with limit := gb }) (.change 0 e.base gb)

/-- The interval of RGMIGR.IN or .OUT lies within the range (R124). -/
def badInterval (e : RangeEntry) (ga gb : Nat) : Bool := decide (gb ≤ ga) || decide (ga < e.base) || decide (e.limit < gb)

/-- RGMIGR.IN (R124, R125, R127). A range that is wholly resident has nothing to widen (R118, R119). -/
def rangeIn (s : State) (tm : Team) (ga gb : Nat) : RangeRes :=
  onRange s tm (2 ^ 16) [ga, gb] fun _ _ e =>
    let (nlo, nhi) := widened e ga gb
    if badInterval e ga gb then .trap .illegalOperand 0
    else if wholeResident e then .none
    else if spansLocked s (physSpans e e.pbase (newSpans e nlo nhi)) then .trap .sealedWrite ga
    else .changed s (.migrIn e.base ga gb)

/-- RGMIGR.OUT (R124, R125, R350): the interval's data go to the backing copy, and the window loses it. -/
def rangeOut (s : State) (tm : Team) (ga gb : Nat) : RangeRes :=
  onRange s tm (2 ^ 16) [ga, gb] fun asid n e =>
    let w := windowOf e
    if badInterval e ga gb then .trap .illegalOperand 0
    else if e.cap then .none
    else if !((ga = w.1 ∧ gb ≤ w.2) ∨ (gb = w.2 ∧ w.1 ≤ ga)) ∨ !e.back then .trap .illegalOperand 0
    else if spansLocked s (physSpans e e.cbase [(ga, gb)]) then .trap .sealedWrite ga
    else
      let pa := e.pbase + (ga - e.base)
      let s := flushSpan (copySpan s pa (e.cbase + (ga - e.base)) (gb - ga)) pa (pa + (gb - ga))
      let s := clearD s pa (pa + (gb - ga))
      let e' := if ga = w.1 then { e with wlo := gb / 2 ^ 16 } else { e with whi := ga / 2 ^ 16 }
      .changed (putEntry s asid n e') (.change 0 e.base e.limit)

/-- Step 1 of a move (R132): the range becomes MIGRATING, and its lookaside copies are invalidated. -/
def beginMove (s : State) (asid n : Nat) (e : RangeEntry) : State :=
  dropLook (putEntry s asid n { e with st := rsMigrating }) asid e.base e.limit

/-- RGMIGR.MOVE (R124, R132): the move begins. -/
def rangeMove (s : State) (tm : Team) (ga gb : Nat) : RangeRes :=
  onRange s tm 128 [ga, gb] fun asid n e =>
    if !sysMode s tm then .trap .rangePermission ga
    else if !entryOk s { e with pbase := gb } then .trap .illegalOperand 0
    else if spansLocked s (physSpans e gb [movedSpan e e.cap]) then .trap .sealedWrite ga
    else .changed (beginMove s asid n e) (.move e.base gb e.cbase e.cap)

/-- RGINV and RGINV.DISCARD (R125, R131, R350). Sums that wait for a word of the range are applied to it first (R155). -/
def rangeInv (s : State) (tm : Team) (discard : Bool) (ga : Nat) : RangeRes :=
  onRange s tm 128 [ga] fun asid n e =>
    let s := flushQuanta s e.pbase (spanEnd e)
    let count := if discard then dirtyCount s e.pbase (spanEnd e) else 0
    let s := if discard then discardSpan s e.pbase (spanEnd e) else flushSpan s e.pbase (spanEnd e)
    .changed (spliceEntries (clearD s e.pbase (spanEnd e)) asid n 1 []) (.change count e.base e.limit)

/-- The agents other than one that have written sectors of a span since their last release (R157). -/
def dirtyByOther (s : State) (agent lo hi : Nat) : Bool :=
  s.track.any fun x => inSpan lo hi x.1 && x.2.d && x.2.wr != agent

/-- SEAL's checks, and its change (R157, R354). -/
def rangeSeal (s : State) (tm : Team) (who : StreamName) (ga : Nat) : RangeRes :=
  onRange s tm 128 [ga] fun asid n e =>
    if e.sealed then .none
    else if raceMode s tm && dirtyByOther s (agentId tm who) e.pbase (spanEnd e) then .trap .memoryModel ga
    else .changed (putEntry (recallTokens (cleanSpan s e.pbase (spanEnd e)) e.pbase (spanEnd e)) asid n { e with sealed := true })
      (.change 0 e.base e.limit)

/-- UNSEAL (R157, R354). -/
def rangeUnseal (s : State) (tm : Team) (ga : Nat) : RangeRes :=
  onRange s tm 128 [ga] fun asid n e =>
    if !e.sealed then .none
    else .changed (putEntry (flushFirst s e.pbase (spanEnd e)) asid n { e with sealed := false }) (.change 0 e.base e.limit)

/-! ### The words -/

/-- What the range unit answers to an instruction with its operands (R124, R157). -/
def rangeUnit (i : Instr) (s : State) (tm : Team) (who : StreamName) (ga gb : Nat) : RangeRes :=
  match i with
  | .rgsplit _ => rangeSplit s tm ga
  | .rgmerge _ => rangeMerge s tm ga
  | .rgtrim .. => rangeTrim s tm ga gb
  | .rggrow .. => rangeGrow s tm ga gb
  | .rginv _ => rangeInv s tm false ga
  | .rginvDiscard _ => rangeInv s tm true ga
  | .rgmigrIn .. => rangeIn s tm ga gb
  | .rgmigrOut .. => rangeOut s tm ga gb
  | .rgmigrMove .. => rangeMove s tm ga gb
  | .seal _ => rangeSeal s tm who ga
  | .unseal _ => rangeUnseal s tm ga
  | _ => .none

/-- What the range unit answers to an instruction whose turn it is, and the state that it leaves where it answers with no change: SEAL
releases for its stream once the checks of R124 have let it through, and before its own (R354). -/
def rangeAnswer (i : Instr) (s : State) (t : Nat) (tm : Team) (who : StreamName) (ga gb : Nat) : State × RangeRes :=
  let r := rangeUnit i s tm who ga gb
  let u := releaseBy s t who 6
  match i, r with
  | .seal _, .trap .memoryModel y => (u, .trap .memoryModel y)
  | .seal _, .none => (u, .none)
  | .seal _, .changed .. => (u, rangeUnit i u tm who ga gb)
  | _, r => (s, r)

/-- Adds an operation that holds its stream to the range unit (R125). -/
def enterRange (s : State) (x : Issuer) (kind : RangeKind) : State :=
  { s with nextRange := s.nextRange + 1
           rangeOps := s.rangeOps ++ [{ id := s.nextRange, asid := asidOf s x.tm, holder := some (x.tm.lid, x.tm.tid, x.who),
                                        kind := kind, trowel := none }] }

/-- A word of the range unit: a change is an escaped effect (R218), and holds the stream
until it completes; one that must wait stays in the unit (R125, R133). -/
def rangeBody (i : Instr) (a b : Nat) (x : Issuer) (s : State) : ERes :=
  let ga := (x.reg a).toNat
  let gb := (x.reg b).toNat
  match rangeAnswer i s x.t x.tm x.who ga gb with
  | (s, .trap c y) => .trapIn s c y none
  | (s, .busy bases) => .wait (.rangeOp s.nextRange) (enterRange s x (.queued i ga gb bases none))
  | (s, .none) => .done (escape s x.t)
  | (_, .changed s' kind) => .wait (.rangeOp s'.nextRange) (escape (enterRange s' x kind) x.t)

/-- A word of the range unit. -/
def rangeWord (i : Instr) (reads : List Nat) (body : Issuer → State → ERes) (s : State) : Out :=
  onceWord i (quickInfo true reads [] (.hold true)) 0 body s

/-- RGSPLIT (R350). -/
def execRgsplit (a : BitVec 6) (s : State) : Out := rangeWord (.rgsplit a) [a.toNat] (rangeBody (.rgsplit a) a.toNat a.toNat) s
/-- RGMERGE (R350). -/
def execRgmerge (a : BitVec 6) (s : State) : Out := rangeWord (.rgmerge a) [a.toNat] (rangeBody (.rgmerge a) a.toNat a.toNat) s
/-- RGTRIM (R350). -/
def execRgtrim (a : BitVec 6) (b : BitVec 6) (s : State) : Out :=
  rangeWord (.rgtrim a b) [a.toNat, b.toNat] (rangeBody (.rgtrim a b) a.toNat b.toNat) s
/-- RGGROW (R350). -/
def execRggrow (a : BitVec 6) (b : BitVec 6) (s : State) : Out :=
  rangeWord (.rggrow a b) [a.toNat, b.toNat] (rangeBody (.rggrow a b) a.toNat b.toNat) s
/-- RGINV (R350). -/
def execRginv (a : BitVec 6) (s : State) : Out :=
  rangeWord (.rginv a) [a.toNat] (rangeBody (.rginv a) a.toNat a.toNat) s
/-- RGINV.DISCARD (R131, R350). -/
def execRginvDiscard (a : BitVec 6) (s : State) : Out :=
  rangeWord (.rginvDiscard a) [a.toNat] (rangeBody (.rginvDiscard a) a.toNat a.toNat) s
/-- RGMIGR.IN (R350). -/
def execRgmigrIn (a : BitVec 6) (b : BitVec 6) (s : State) : Out :=
  rangeWord (.rgmigrIn a b) [a.toNat, b.toNat] (rangeBody (.rgmigrIn a b) a.toNat b.toNat) s
/-- RGMIGR.OUT (R350). -/
def execRgmigrOut (a : BitVec 6) (b : BitVec 6) (s : State) : Out :=
  rangeWord (.rgmigrOut a b) [a.toNat, b.toNat] (rangeBody (.rgmigrOut a b) a.toNat b.toNat) s
/-- RGMIGR.MOVE (R350). -/
def execRgmigrMove (a : BitVec 6) (b : BitVec 6) (s : State) : Out :=
  rangeWord (.rgmigrMove a b) [a.toNat, b.toNat] (rangeBody (.rgmigrMove a b) a.toNat b.toNat) s
/-- SEAL (R354). -/
def execSeal (a : BitVec 6) (s : State) : Out := rangeWord (.seal a) [a.toNat] (rangeBody (.seal a) a.toNat a.toNat) s
/-- UNSEAL (R354). -/
def execUnseal (a : BitVec 6) (s : State) : Out := rangeWord (.unseal a) [a.toNat] (rangeBody (.unseal a) a.toNat a.toNat) s

/-! ### RGPROBE (R124, R351) -/

/-- The words of the entry that holds an address, with the sums that wait for them (R155), as they stand in the table; zeros where no range holds it. A launch that is
not a system launch reads PBASE and CBASE as zero (R124). -/
def probeWord (s : State) (tm : Team) (va w : Nat) : DWord :=
  let asid := asidOf s tm
  match findRange s asid va with
  | none => 0
  | some (n, _) =>
    let x := walkWord s ((asidDesc s asid).tbase + 64 * n + 8 * w)
    if !sysMode s tm && (w == 2 || w == 4) then BitVec.ofNat 64 (x % 128 + x / 2 ^ 52 * 2 ^ 52) else BitVec.ofNat 64 x

/-- RGPROBE's operands (R124): an even destination, and word 0, 2, 4 or 6. -/
def probeOk (d : BitVec 6) (w : BitVec 3) : Bool := d.toNat % 2 == 0 && w.toNat % 2 == 0

/-- RGPROBE (R351). Its reads apply the sums that wait for what they read (R155). -/
def probeBody (d a w : Nat) (x : Issuer) (s : State) : ERes :=
  let va := (x.reg a).toNat
  let u := match findRange s (asidOf s x.tm) va with
    | some (n, _) => let lo := (asidDesc s (asidOf s x.tm)).tbase + 64 * n + 8 * w; flushQuanta (walkLines s (asidOf s x.tm) va) lo (lo + 16)
    | none => walkLines s (asidOf s x.tm) va
  .done (putReg x (d + 1) (probeWord s x.tm va (w + 1)) (putReg x d (probeWord s x.tm va w) u))

/-- RGPROBE (R351): inside a window it is held and its registers are pending. -/
def execRgprobe (d : BitVec 6) (a : BitVec 6) (w : BitVec 3) (s : State) : Out :=
  bothWord (.rgprobe d a w)
    (fun _ => gangInfo (quickInfo (probeOk d w) [a.toNat] [d.toNat, d.toNat + 1] (.hold true)))
    (fun c s => if c.act = 0 then .done s else toGang c s (probeBody d.toNat a.toNat w.toNat (gangIssuer c 0) s))
    (fun _ => hawkInfo (quickInfo (probeOk d w) [a.toNat] [d.toNat, d.toNat + 1] (.hold true)))
    (fun c s => toHawk s (probeBody d.toNat a.toNat w.toNat (hawkIssuer c 0) s)) s

/-! ### The end of a widening and of a move -/

/-- Fills the bytes of [nlo, nhi) outside the old window and within the range: from the backing copy, or with zero (R127). -/
def fillWindow (s : State) (e : RangeEntry) (nlo nhi : Nat) : State :=
  (physSpans e e.pbase (newSpans e nlo nhi)).foldl (fun s x =>
    if e.back then copySpan s (e.cbase + (x.1 - e.pbase)) x.1 (x.2 - x.1) else zeroSpan s x.1 x.2) s

/-- Ends a widening to cover [clo, chi): the new bytes are filled, then the window is written in one update (R127). A window that ends at
2^56 would need WHI = 2^40, which its 40 bits do not hold: they take it modulo 2^40, and the spec says nothing of it (DESIGN CHOICE,
log 103). -/
def endWiden (s : State) (asid base clo chi : Nat) : State :=
  match slotOfBase s asid base with
  | none => s
  | some (n, e) =>
    if wholeResident e then s
    else
      let (nlo, nhi) := widened e clo chi
      putEntry (fillWindow s e nlo nhi) asid n { e with wlo := nlo / 2 ^ 16, whi := nhi / 2 ^ 16 }

/-- Carries the race fields of a span to another (R350). -/
def carryTrack (s : State) (src dst len : Nat) : State :=
  let old := (List.range (len / 32)).map fun k => (dst / 32 + k, trackOf s (src / 32 + k))
  let s := (List.range (len / 32)).foldl (fun s k => setTrack s (src / 32 + k) noTrack) s
  old.foldl (fun s x => setTrack s x.1 x.2) s

/-- What a move copies: the whole range when CAP is set on either side, else the window (R132). Bytes of a range that had a
window and no contents outside it become zero (R119). -/
def movePlan (s : State) (e : RangeEntry) (pbase : Nat) (cap : Bool) : List SectorCopy :=
  let part (lo hi : Nat) : List SectorCopy := if hi ≤ lo then [] else readSectors s (e.pbase + (lo - e.base)) (pbase + (lo - e.base)) (hi - lo)
  let zero (lo hi : Nat) : List SectorCopy :=
    if hi ≤ lo then [] else (List.range ((hi - lo) / 32)).map fun k => ((pbase + (lo - e.base)) / 32 + k, List.replicate 32 0, false)
  let w := windowOf e
  if wholeResident e then part e.base e.limit
  else if cap then
    if emptyWindow w then zero e.base e.limit else zero e.base w.1 ++ part w.1 w.2 ++ zero w.2 e.limit
  else part w.1 w.2

/-- Steps 2 to 4 of a move (R132, R350). -/
def endMove (s : State) (asid base pbase cbase : Nat) (cap : Bool) : State :=
  match slotOfBase s asid base with
  | none => s
  | some (n, e) =>
    let s := flushQuanta s e.pbase (spanEnd e)
    let s := flushSpan (recallTokens s e.pbase (spanEnd e)) e.pbase (spanEnd e)
    let s := writeSectors s (movePlan s e pbase cap)
    let s := if e.pbase = pbase then s else carryTrack s e.pbase pbase (e.limit - e.base)
    putEntry s asid n { e with st := rsValid, pbase := pbase, cbase := cbase, cap := cap }

/-- An operation of the range unit, by id. -/
def rangeOpOf (s : State) (id : Nat) : Option RangeOp := s.rangeOps.find? fun o => o.id == id

/-- Removes an operation. -/
def dropRangeOp (s : State) (id : Nat) : State := { s with rangeOps := s.rangeOps.filter fun o => o.id != id }

end Sys2Proof.Machine
end

