-- ==== Sys2Proof/Machine/Predicate.lean ====
section
/-!
DEFINITION. The predicate and lane words of major 0x5 (R284, R307, R331, R339, R341, R345, R361, R373).
-/
namespace Sys2Proof.Machine

/-- What R267 needs of a P word of two sources. -/
def cmpInfo (c : GCtx) (p : BitVec 5) (a b : BitVec 8) : WordInfo :=
  let v := c.tm.vregs
  { plainInfo with
    legal := decide (p.toNat < 24) && srcOk v a.toNat && srcOk v b.toNat
    count := max (srcCount a.toNat) (srcCount b.toNat)
    reads := srcRegs a.toNat ++ srcRegs b.toNat
    writes := [.p p.toNat] }

/-- A comparison word: its result in each lane is combined into the predicate (R307). -/
def cmpWord (i : Instr) (p : BitVec 5) (cmb : BitVec 2) (a b : BitVec 8) (f : State → GCtx → Nat → Bool) (s : State) : Out :=
  gangOnly i (fun c => cmpInfo c p a b) (fun c s => .done (writeCmb s c p.toNat cmb (maskOf (f s c)))) s

/-- ICMP with a condition (R307). -/
def icmpWord (i : Instr) (cond : Nat) (p : BitVec 5) (cmb : BitVec 2) (a b : BitVec 8) (s : State) : Out :=
  cmpWord i p cmb a b (fun s c l => icmp cond (srcLane s c a.toNat l) (srcLane s c b.toNat l)) s

/-- FCMP with a condition (R307). -/
def fcmpWord (i : Instr) (cond : Nat) (p : BitVec 5) (cmb : BitVec 2) (a b : BitVec 8) (s : State) : Out :=
  cmpWord i p cmb a b (fun s c l => fcmp cond (srcF32 s c a.toNat l) (srcF32 s c b.toNat l)) s

/-- ICMP.EQ (R307). -/
def execIcmpEq (p : BitVec 5) (c : BitVec 2) (a b : BitVec 8) (s : State) : Out := icmpWord (.icmpEq p c a b) 0 p c a b s
/-- ICMP.NE (R307). -/
def execIcmpNe (p : BitVec 5) (c : BitVec 2) (a b : BitVec 8) (s : State) : Out := icmpWord (.icmpNe p c a b) 1 p c a b s
/-- ICMP.LT (R307). -/
def execIcmpLt (p : BitVec 5) (c : BitVec 2) (a b : BitVec 8) (s : State) : Out := icmpWord (.icmpLt p c a b) 2 p c a b s
/-- ICMP.LE (R307). -/
def execIcmpLe (p : BitVec 5) (c : BitVec 2) (a b : BitVec 8) (s : State) : Out := icmpWord (.icmpLe p c a b) 3 p c a b s
/-- ICMP.GT (R307). -/
def execIcmpGt (p : BitVec 5) (c : BitVec 2) (a b : BitVec 8) (s : State) : Out := icmpWord (.icmpGt p c a b) 4 p c a b s
/-- ICMP.GE (R307). -/
def execIcmpGe (p : BitVec 5) (c : BitVec 2) (a b : BitVec 8) (s : State) : Out := icmpWord (.icmpGe p c a b) 5 p c a b s
/-- ICMP.LTU (R307). -/
def execIcmpLtu (p : BitVec 5) (c : BitVec 2) (a b : BitVec 8) (s : State) : Out := icmpWord (.icmpLtu p c a b) 6 p c a b s
/-- ICMP.LEU (R307). -/
def execIcmpLeu (p : BitVec 5) (c : BitVec 2) (a b : BitVec 8) (s : State) : Out := icmpWord (.icmpLeu p c a b) 7 p c a b s
/-- ICMP.GTU (R307). -/
def execIcmpGtu (p : BitVec 5) (c : BitVec 2) (a b : BitVec 8) (s : State) : Out := icmpWord (.icmpGtu p c a b) 8 p c a b s
/-- ICMP.GEU (R307). -/
def execIcmpGeu (p : BitVec 5) (c : BitVec 2) (a b : BitVec 8) (s : State) : Out := icmpWord (.icmpGeu p c a b) 9 p c a b s
/-- FCMP.EQ (R307). -/
def execFcmpEq (p : BitVec 5) (c : BitVec 2) (a b : BitVec 8) (s : State) : Out := fcmpWord (.fcmpEq p c a b) 0 p c a b s
/-- FCMP.NE (R307). -/
def execFcmpNe (p : BitVec 5) (c : BitVec 2) (a b : BitVec 8) (s : State) : Out := fcmpWord (.fcmpNe p c a b) 1 p c a b s
/-- FCMP.LT (R307). -/
def execFcmpLt (p : BitVec 5) (c : BitVec 2) (a b : BitVec 8) (s : State) : Out := fcmpWord (.fcmpLt p c a b) 2 p c a b s
/-- FCMP.LE (R307). -/
def execFcmpLe (p : BitVec 5) (c : BitVec 2) (a b : BitVec 8) (s : State) : Out := fcmpWord (.fcmpLe p c a b) 3 p c a b s
/-- FCMP.GT (R307). -/
def execFcmpGt (p : BitVec 5) (c : BitVec 2) (a b : BitVec 8) (s : State) : Out := fcmpWord (.fcmpGt p c a b) 4 p c a b s
/-- FCMP.GE (R307). -/
def execFcmpGe (p : BitVec 5) (c : BitVec 2) (a b : BitVec 8) (s : State) : Out := fcmpWord (.fcmpGe p c a b) 5 p c a b s
/-- FCMP.NUM (R307). -/
def execFcmpNum (p : BitVec 5) (c : BitVec 2) (a b : BitVec 8) (s : State) : Out := fcmpWord (.fcmpNum p c a b) 6 p c a b s
/-- FCMP.NAN (R307). -/
def execFcmpNan (p : BitVec 5) (c : BitVec 2) (a b : BitVec 8) (s : State) : Out := fcmpWord (.fcmpNan p c a b) 7 p c a b s

/-- Bit 2 × pa + pb of a lookup table (R339). -/
def lutBit (lut : BitVec 4) (pa pb : Bool) : Bool := lut.getLsbD ((if pa then 2 else 0) + if pb then 1 else 0)

/-- PLOP (R339). -/
def execPlop (p : BitVec 5) (c : BitVec 2) (a b : BitVec 5) (l : BitVec 4) (s : State) : Out :=
  gangOnly (.plop p c a b l)
    (fun _ => { plainInfo with
      legal := decide (p.toNat < 24) && decide (a.toNat < 24) && decide (b.toNat < 24)
      reads := [.p a.toNat, .p b.toNat], writes := [.p p.toNat] })
    (fun x s =>
      let r := maskOf fun n => lutBit l (inMask (pReg x.gg a.toNat) n) (inMask (pReg x.gg b.toNat) n)
      .done (writeCmb s x p.toNat c r)) s

/-- PSET (R341). -/
def execPset (p : BitVec 5) (c : BitVec 2) (a : BitVec 8) (s : State) : Out :=
  gangOnly (.pset p c a)
    (fun _ => { plainInfo with
      legal := decide (p.toNat < 24) && (gCode a.toNat).isSome, reads := srcRegs a.toNat, writes := [.p p.toNat] })
    (fun x s => .done (writeCmb s x p.toNat c (gReg x.gg (a.toNat - 128)))) s

/-- BALLOT (R284). -/
def execBallot (d : BitVec 5) (p : BitVec 5) (s : State) : Out :=
  gangOnly (.ballot d p)
    (fun _ => { plainInfo with legal := decide (p.toNat < 24), reads := [.p p.toNat], writes := [.g d.toNat] })
    (fun c s => .done (if c.act = 0 then s else writeG s c d.toNat (c.act &&& pReg c.gg p.toNat))) s

/-- The result of VOTE over the active lanes: ANY, ALL or UNI (R373). -/
def voteHolds (mode : BitVec 2) (act p : Mask) : Bool :=
  match mode.toNat with
  | 0 => act &&& p != 0
  | 1 => act &&& ~~~p == 0
  | _ => act &&& p == 0 || act &&& ~~~p == 0

/-- VOTE (R373). -/
def execVote (p : BitVec 5) (m : BitVec 2) (a : BitVec 5) (s : State) : Out :=
  gangOnly (.vote p m a)
    (fun _ => { plainInfo with
      legal := decide (p.toNat < 24) && decide (a.toNat < 24) && m != 3, reads := [.p a.toNat], writes := [.p p.toNat] })
    (fun c s =>
      let r := voteHolds m c.act (pReg c.gg a.toNat)
      .done (writeP s c p.toNat c.act (if r then BitVec.allOnes 64 else 0))) s

/-- A source read from another lane: its value there if the lane is in the home mask, else zero (R345, R361). -/
def srcFrom (s : State) (c : GCtx) (code p : Nat) : Word := if inMask c.fr.home p then srcLane s c code p else 0

/-- What R267 needs of a lane exchange. -/
def exchangeInfo (c : GCtx) (d : BitVec 7) (a : BitVec 8) (b : Option (BitVec 7)) : WordInfo :=
  let v := c.tm.vregs
  { plainInfo with
    legal := dstOk v d.toNat && srcOk v a.toNat && b.all fun b => srcOk v b.toNat
    count := max (srcCount a.toNat) (b.elim 0 fun b => srcCount b.toNat)
    reads := srcRegs a.toNat ++ b.elim [] fun b => srcRegs b.toNat
    writes := dstRegs d.toNat }

/-- SHFL (R361). -/
def execShfl (m : BitVec 1) (d : BitVec 7) (a : BitVec 8) (b : BitVec 7) (s : State) : Out :=
  gangOnly (.shfl m d a b) (fun c => exchangeInfo c d a (some b))
    (laneResult d fun s c l =>
      let i := (srcLane s c b.toNat l).toNat % 64
      srcFrom s c a.toNat (if flag1 m then Nat.xor l i else i)) s

/-- QSWAP (R345). -/
def execQswap (d : BitVec 7) (a : BitVec 8) (x : BitVec 2) (s : State) : Out :=
  gangOnly (.qswap d a x) (fun c => let w := exchangeInfo c d a none; { w with legal := w.legal && x != 0 })
    (laneResult d fun s c l => srcFrom s c a.toNat (l / 4 * 4 + Nat.xor (l % 4) x.toNat)) s

/-- QBCAST (R345). -/
def execQbcast (d : BitVec 7) (a : BitVec 8) (x : BitVec 2) (s : State) : Out :=
  gangOnly (.qbcast d a x) (fun c => exchangeInfo c d a none)
    (laneResult d fun s c l => srcFrom s c a.toNat (l / 4 * 4 + x.toNat)) s

/-- MASKRD (R331). -/
def execMaskrd (d : BitVec 5) (s : State) : Out :=
  gangOnly (.maskrd d) (fun _ => { plainInfo with writes := [.g d.toNat] })
    (fun c s => .done (writeG s c d.toNat c.fr.exmask)) s

/-- A write of EXMASK (R57): only bits of the home mask may be set. -/
def writeExmask (s : State) (c : GCtx) (x : Mask) : GRes :=
  if x &&& ~~~c.fr.home ≠ 0 then .trap .illegalConvergence c.act 0
  else .done (modFrag s c.t c.g c.f fun fr => { fr with exmask := x })

/-- MASKWR (R331). -/
def execMaskwr (a : BitVec 8) (s : State) : Out :=
  gangOnly (.maskwr a)
    (fun _ => { plainInfo with legal := (gCode a.toNat).isSome, reads := srcRegs a.toNat })
    (fun c s =>
      if c.cl.guard ≠ 31 then .trap .illegalConvergence c.act 0
      else writeExmask s c (gReg c.gg (a.toNat - 128))) s

end Sys2Proof.Machine
end

