-- ==== Sys2Proof/Machine/SystemWords.lean ====
section
/-!
DEFINITION. The system words of major 0xE: CSRD and CSWR (04 R72 to R75, 16 R294), FLTRD (17 R311), SNAP (19 R364) and ERET (13 R227,
17 R303).
-/
namespace Sys2Proof.Machine

/-! ### The fault record (R224) -/

/-- The fault record of a stream. -/
def recordOf (tm : Team) : StreamName → FaultRecord
  | .gang g => ((gangOf tm g).map (·.flt)).getD noFault
  | .hawk => tm.hawk.flt

/-- FLTRD (R311). -/
def execFltrd (d : BitVec 6) (w : BitVec 3) (s : State) : Out :=
  onceWord (.fltrd d w) (quickInfo true [] [d.toNat] .run) 0
    (fun x s => .done (putReg x d.toNat (faultWord (recordOf x.tm x.who) w.toNat) s)) s

/-! ### CSRD and CSWR (R72, R73) -/

/-- A CSR that both streams have, as CSRD reads it; none for a number that is not assigned (R72). A read in the core cycle of a
write returns the value before it (R74, R75). -/
def readCsr (s : State) (tm : Team) (who : StreamName) (n : Nat) : Option DWord :=
  let r := recordOf tm who
  match n with
  | 0x001 => some (faultWord r 1)
  | 0x002 => some (faultWord r 0)
  | 0x003 => some (BitVec.ofNat 64 (bits64 (faultWord r 4) 8 0))
  | 0x004 => some (faultWord r 3)
  | 0x009 => some (BitVec.ofNat 64 (tm.tid % 2 ^ 32))
  | 0x00A => some (BitVec.ofNat 64 (tm.lid % 2 ^ 32))
  | 0x00B => some (tm.stepnoSeen.zeroExtend 64)
  | 0x010 => some ((swapWait s tm.core).zeroExtend 64)
  | 0x011 => some (smGet 0 s.discardCnt (asidOf s tm))
  | 0x012 => some (tm.skimtauSeen.zeroExtend 64)
  | 0x013 => some (BitVec.ofNat 64 tm.prioSeen)
  | 0x014 => some (BitVec.ofNat 64 (asidOf s tm))
  | _ => none

/-- A CSR as a gang's fragment reads it (R73). -/
def gangCsr (s : State) (c : GCtx) (n : Nat) : Option DWord :=
  match n with
  | 0x000 => some c.fr.exmask
  | 0x008 => some (BitVec.ofNat 64 c.g)
  | _ => readCsr s c.tm (.gang c.g) n

/-- How the hawk's CSRD is treated inside a window: where the window holds work that may change a CSR, it waits for it, because
prediction changes only timing (R30, R31; log 42). -/
def csrdTreat (hk : Hawk) : Treat :=
  let changes : Instr → Bool
    | .cswr .. | .rginvDiscard _ => true
    | _ => false
  if hk.window.any fun w => w.held.any fun h => changes h.instr then .stall else .run

/-- CSRD (R294). -/
def execCsrd (a : BitVec 6) (n : BitVec 12) (s : State) : Out :=
  bothWord (.csrd a n)
    (fun _ => { plainInfo with legal := decide (a.toNat < 32), writes := [.g a.toNat] })
    (fun c s =>
      if c.act = 0 then .done s
      else match gangCsr s c n.toNat with
      | some x => .done (setGang s c fun gg => setG gg a.toNat x)
      | none => .trap .illegalOperand c.act 0)
    (fun c => { plainHInfo with writes := [a.toNat], treat := csrdTreat c.hk })
    (fun c s =>
      match readCsr s c.tm .hawk n.toNat with
      | some x => .done (writeK s c.t a.toNat x)
      | none => .trap .illegalOperand 0) s

/-- Whether SKIMTAU may hold a value (R73): no NaN, and no sign but that of −0. -/
def tauOk (x : Word) : Bool := !isNanF (f32 x) && (!x.getLsbD 31 || x == 0x80000000)

/-- A write of a team's CSR (R72, R73); none where it traps. -/
def writeCsr (s : State) (t : Nat) (tm : Team) (n : Nat) (x : DWord) : Option State :=
  let w : Word := x.setWidth 32
  match n with
  | 0x00B => some (modTeam s t fun tm => { tm with stepno := w })
  | 0x012 => if tauOk w then some (modTeam s t fun tm => { tm with skimtau := if w = 0x80000000 then 0 else w }) else none
  | 0x013 =>
    if bits64 x 5 0 ≤ launchField s tm 63 (·.prio) then some (modTeam s t fun tm => { tm with prio := bits64 x 5 0 }) else none
  | _ => none

/-- The effect of the hawk's CSWR outside a window, and at commit (R294). -/
def cswrBody (a n : Nat) (c : HCtx) (s : State) : HRes :=
  match writeCsr s c.t c.tm n (kReg c.hk a) with
  | some s => .done s
  | none => .trap .illegalOperand 0

/-- CSWR (R294): a write of EXMASK goes by R57. -/
def execCswr (a : BitVec 6) (n : BitVec 12) (s : State) : Out :=
  bothWord (.cswr a n)
    (fun _ => { plainInfo with legal := decide (a.toNat < 32), reads := [.g a.toNat] })
    (fun c s =>
      if c.act = 0 then .done s
      else if n = 0 then writeExmask s c (gReg c.gg a.toNat)
      else match writeCsr s c.t c.tm n.toNat (gReg c.gg a.toNat) with
      | some s => .done s
      | none => .trap .illegalOperand c.act 0)
    (fun _ => { plainHInfo with reads := [a.toNat], treat := .hold true })
    (cswrBody a.toNat n.toNat) s

/-! ### SNAP -/

/-- The effect of SNAP (R234, R364). -/
def snapBody (x : Issuer) (s : State) : ERes :=
  .done (if snapMode s x.tm && s.isnap then firePlumb s 0 0 x.tm.lid x.tm.tid else s)

/-- SNAP (R364). -/
def execSnap (s : State) : Out := onceWord .snap (quickInfo true [] [] (.hold true)) 0 snapBody s

/-! ### ERET (R227, R303) -/

/-- Where the contents of a byte of code stand (R119): under PBASE, or, outside the window, in the backing copy. -/
def codePlace (s : State) (asid va : Nat) : Option Nat :=
  match findRange s asid va with
  | none => none
  | some (_, e) =>
    if residentAt e va then some (e.pbase + (va - e.base)) else if e.back then some (e.cbase + (va - e.base)) else none

/-- What a read of a header word answers. -/
inductive HeaderRead where
  | word (s : State) (w : Word)
  | wait (s : State) (w : Wait)

/-- The word of a clause header that trapped: the record has it, but where its fetch faulted, after which it is read where it stands,
from a peer as a fetch would (R227, R239). Zero where no word can be read (log 75). -/
def headerWord (s : State) (x : Sender) (tm : Team) (pc : DWord) (word : Word) : HeaderRead :=
  if word ≠ 0 then .word s word
  else match codePlace s (asidOf s tm) pc.toNat with
  | none => .word s 0
  | some pa =>
    if pa < Config.devLo then
      let s := flushQuanta s pa (pa + 4)
      .word s (BitVec.ofNat 32 (natOf (homeBytes s pa 4)))
    else match inPeerWindow pa (pa + 4) with
      | none => .word s (BitVec.ofNat 32 (natOf (devBytes s pa 4)))
      | some w =>
        match askPeer s x { va := pc.toNat, len := 4, place := .peer w pa, plane := false } w pa (.read 4) with
        | (s, .waiting id) => .wait s (.peer id)
        | (s, .full) => .wait s .interlock
        | (s, .got _ bs) => .word (consumePeers s x.lid x.tid x.who (· == x.lane)) (BitVec.ofNat 32 (natOf bs))

/-- The header after the clause with a header word at an address: LEN stands in it (R227). -/
def afterClause (pc : DWord) (word : Word) : DWord := pc + BitVec.ofNat 64 (4 * (bitsN word.toNat 11 9 + 2))

/-- The check of R303 that the gang's divergence stands as at handler entry: as many split-stack entries, and no fragment that
was created in handler mode. -/
def divergedSince (gg : Gang) (f : Nat) (h : HandlerSave) : Bool :=
  gg.stack.length != h.depth || (liveFrags gg).any fun x => x.1 != f && x.2.home &&& h.home != 0

/-- Where a gang goes on after ERET (R227), and what the instruction at PC still owes. -/
inductive Resume where
  /-- The word or header at PC issues again, in these lanes where a mask is given. -/
  | again (r : Option Replay)
  /-- The word at PC, or the whole clause at PC, is skipped. -/
  | skip
deriving DecidableEq, Repr

/-- What ERET makes of the instruction at PC (R227). -/
def resumeGang (flt : FaultRecord) (h : HandlerSave) (exmask : Mask) : Resume :=
  if flt.imp && flt.replay == 0 then .again none
  else
    let r := flt.replay &&& exmask
    if r = 0 then .skip
    else if h.clause.isNone then .again none
    else
      let owed := h.replay.getD { lanes := r, traps := [], counted := false, raised := false, placement := r }
      .again (some { owed with lanes := r })

/-- The gang as ERET restores it (R226, R227): the o and y registers in the fragment's lanes, the result count, the peel flag and the
position in the clause. -/
def restoreGang (gg : Gang) (f : Nat) (fr : Frag) (h : HandlerSave) : Gang :=
  let regs (cur old : Smap Lanes) : Smap Lanes :=
    (List.range 8).foldl (fun m n => smSet zeroLanes m n (mergeLanes fr.home (smGet zeroLanes old n) (smGet zeroLanes m n))) cur
  modFragOf { gg with o := regs gg.o h.o, y0 := mergeLanes fr.home h.y0 gg.y0, y1 := mergeLanes fr.home h.y1 gg.y1, handler := none, marked := h.marked } f
    fun fr => { fr with pc := h.pc, clause := h.clause, count := h.count, yPending := h.yPending, st := .issuing, replay := none, peel := h.peel }

/-- ERET of a gang (R227, R303). -/
def eretGang (c : GCtx) (s : State) : GRes :=
  match c.gg.handler with
  | none => .trap .illegalInstruction c.act 0
  | some h =>
    if c.fr.home &&& h.home = 0 then .trap .illegalInstruction c.act 0
    else if c.cl.guard ≠ 31 ∨ divergedSince c.gg c.f h then .trap .illegalConvergence c.act 0
    else
      let back (gg : Gang) : Gang := restoreGang (closeClause gg c.fr.home c.cl.keep) c.f c.fr h
      match resumeGang c.gg.flt h c.fr.exmask with
      | .again r => .moved (modGang s c.t c.g fun gg => modFragOf (back gg) c.f fun fr => { fr with replay := r })
      | .skip =>
        if h.clause.isSome then .moved (modGang s c.t c.g fun gg => advanceGang s.cycle (back gg) c.f)
        else match headerWord s (fragSender c) c.tm h.pc c.gg.flt.word with
          | .wait s w => .wait w s
          | .word s w => .moved (modGang s c.t c.g fun gg =>
              parkCheck s.cycle (modFragOf (back gg) c.f fun fr => { fr with pc := afterClause h.pc w }) c.f)

/-- ERET of the hawk (R227, R303). -/
def eretHawk (c : HCtx) (s : State) : HRes :=
  match c.hk.handler with
  | none => .trap .illegalInstruction 0
  | some (pc, cl) =>
    let back (s : State) : State := modHawk s c.t fun hk => { hk with pc := pc, clause := cl, handler := none, st := .issuing }
    if c.hk.flt.imp ∧ c.hk.flt.flag ≠ 15 ∨ c.hk.flt.replay.getLsbD 0 then .moved (back s)
    else match cl with
    | some _ => .moved (advanceHawk (back s) c.t)
    | none =>
      match headerWord s (hawkSender c) c.tm pc c.hk.flt.word with
      | .wait s w => .wait w s
      | .word s w => .moved (moveHawk (back s) c.t (afterClause pc w))

/-- ERET (R303). -/
def execEret (s : State) : Out :=
  bothWord .eret (fun _ => endsInfo acceptsNone true []) eretGang
    (fun _ => { plainHInfo with ends := true, treat := .stall }) eretHawk s

end Sys2Proof.Machine
end

