-- ==== Sys2Proof/Machine/Waits.lean ====
section
/-!
DEFINITION. What satisfies a swappable wait (02 R34) and how a stream goes on from one, in a resident team or in a saved context
(R36); and the completion of a long-latency load, store or atomic (15 R260, 02 R30).
-/
namespace Sys2Proof.Machine

/-! ### Waits -/

/-- The range that holds a byte is still MIGRATING (R132). -/
def stillMigrating (s : State) (asid va : Nat) : Bool :=
  match findRange s asid va with
  | some (_, e) => e.st == rsMigrating
  | none => false

/-- Every line of a fill stall is FULL or FAULTED (R106). -/
def linesReady (tm : Team) (ls : List Nat) : Bool := ls.all fun l => fillTag tm l == tagFull || fillTag tm l == tagFaulted

/-- Whether an engine operation of a stream has still to replay an access that a MIGRATING range has held: the stream's parked access comes
after it (R132). -/
def replaysFirst (tm : Team) (who : StreamName) : Bool := tm.eops.any fun o => o.who == who && o.held != []

/-- Whether what satisfies a gang's wait has come about (R34, R168, R171, R344). -/
def gangWaitDone (s : State) (tm : Team) (g : Nat) (gg : Gang) : Wait → Bool
  | .qpop q => !(queueOf tm q).isEmpty || othersGone tm (.gang g)
  | .qpush q => (decide (0 < allowance tm q g) && decide ((queueOf tm q).length < 16)) || othersGone tm (.gang g)
  | .dqpop => match gg.dq with
    | [] => tm.hawk.st == .stopped
    | e :: _ => !e.spec
  | .fill ls => linesReady tm ls
  | .residency va => !stillAbsent s (asidOf s tm) va
  | .migrating va => !stillMigrating s (asidOf s tm) va && !replaysFirst tm (.gang g)
  | .joinw => tm.join == 0
  | .spawn => decide (tm.join < 65535)
  | .yieldFlag f _ => flagOf gg.flags f == 0
  | _ => false

/-- Whether what satisfies the hawk's wait has come about (R34). -/
def hawkWaitDone (s : State) (tm : Team) : Wait → Bool
  | .qpop q => !(queueOf tm q).isEmpty || othersGone tm .hawk
  | .qpush q => (decide (0 < allowance tm q 16) && decide ((queueOf tm q).length < 16)) || othersGone tm .hawk
  | .fill ls => linesReady tm ls
  | .residency va => !stillAbsent s (asidOf s tm) va
  | .migrating va => !stillMigrating s (asidOf s tm) va && !replaysFirst tm .hawk
  | .dqpush g => match gangOf tm g with
    | some gg => gangExited gg || decide (gg.dq.length < 16)
    | none => true
  | .kwait flags => flagsClear tm.hawk.flags flags
  | _ => false

/-- The waits that only an outside event satisfies (R34): the ones a saved context takes part in. -/
def outsideKind : Wait → Bool
  | .residency _ | .migrating _ | .joinw | .spawn => true
  | _ => false

/-- Whether a team in this state may have a wait ended. -/
def mayWake (tm : Team) (w : Wait) : Bool :=
  tm.st == .running || (outsideKind w && (tm.st == .swapped || tm.st == .swapout || tm.st == .swapin))

/-- A fragment that waits for a pool entry after a trap was delivered to it (R59). -/
def needEntry (s : State) (lid tid g f : Nat) : State :=
  match teamIdx s lid tid with
  | none => s
  | some t => modFrag s t g f fun fr => if fr.st == .issuing then { fr with st := goState fr } else fr

/-- A fragment goes on from its wait, where the wait is satisfied: JOINW at the next instruction (R40), YIELD at its label (R168),
any other at the instruction that waits. -/
def wakeFrag (keep : Wait → Bool) (lid tid g f : Nat) (s : State) : State :=
  match teamIdx s lid tid with
  | none => s
  | some t =>
    match listAt s.teams t with
    | none => s
    | some tm =>
      match (gangOf tm g).bind fun gg => (fragOf gg f).map fun fr => (gg, fr) with
      | none => s
      | some (gg, fr) =>
        match fr.st with
        | .waiting w =>
          if !keep w || !mayWake tm w || !gangWaitDone s tm g gg w then s
          else match w, fr.clause with
          | .joinw, _ => modGang s t g fun gg => advanceGang s.cycle gg f
          | .yieldFlag n label, some cl =>
            let c := fragCtx t g f tm gg fr cl
            needEntry (finish .nop s c (yieldGo c n label s)) lid tid g f
          | _, _ => modFrag s t g f fun fr => { fr with st := goState fr }
        | _ => s

/-- The hawk goes on from its wait, where the wait is satisfied. -/
def wakeHawk (keep : Wait → Bool) (lid tid : Nat) (s : State) : State :=
  match teamIdx s lid tid with
  | none => s
  | some t =>
    match listAt s.teams t with
    | none => s
    | some tm =>
      match tm.hawk.st with
      | .waiting w =>
        if keep w && mayWake tm w && hawkWaitDone s tm w then modHawk s t fun hk => { hk with st := .issuing } else s
      | _ => s

/-- Ends the satisfied waits of a stream; a saved team that becomes ready takes its place in the order of readiness (R36, R388). -/
def wakeStream (keep : Wait → Bool) (lid tid : Nat) (who : StreamName) (s : State) : State :=
  let before := (teamBy s lid tid).any teamReady
  let s := match who with
    | .gang g => (List.range 8).foldl (fun s f => wakeFrag keep lid tid g f s) s
    | .hawk => wakeHawk keep lid tid s
  match teamIdx s lid tid with
  | some t => if before then s else stampReady s t
  | none => s

/-- Ends the satisfied waits of every stream of a team. -/
def wakeTeam (keep : Wait → Bool) (lid tid : Nat) (s : State) : State :=
  match teamBy s lid tid with
  | none => s
  | some tm => (streamsOf tm).foldl (fun s who => wakeStream keep lid tid who s) s

/-- Ends the satisfied waits of every team: what a widening or a move does for the accesses parked on it (R128, R132). -/
def wakeAll (keep : Wait → Bool) (s : State) : State :=
  (s.teams.map fun tm => (tm.lid, tm.tid)).foldl (fun s x => wakeTeam keep x.1 x.2 s) s

/-- Waits that the end of a widening or of a move satisfies. -/
def rangeWait : Wait → Bool
  | .residency _ | .migrating _ => true
  | _ => false

/-- SWAPPABLE_WAIT_SATISFIED (R34, R36). -/
def execSwappableWaitSatisfied (lid tid : Nat) (who : StreamName) (s : State) : Out := .next (wakeStream (fun _ => true) lid tid who s)

/-! ### Completion of a load, store or atomic (R260) -/

/-- What a completion deposits in a gang's register. -/
def deposit (gg : Gang) : Deposit → Gang
  | .lanes (.v n) m x => setV gg n m x
  | .lanes (.o n) m x => setO gg n m x
  | .lanes .y0 m x => { gg with y0 := mergeLanes m x gg.y0 }
  | .lanes _ _ _ => gg
  | .pred n m x => setP gg n m x
  | .gpr n x => setG gg n x
  | .kpr _ _ => gg
  | .tag n x => setTag gg n x

/-- A condition source once a load has come. -/
def fillSource (id : Nat) (x : DWord) : CmpSource → CmpSource
  | .load n => if n = id then .value x else .load n
  | .value y => .value y

/-- The condition bits that have been computed: (window place, bit, value), and the compares still pending (R30). -/
def resolveCmps (l : List PendingCmp) : List (Option Nat × Nat × Bool) × List PendingCmp :=
  l.foldr (fun p r =>
    match p.a, p.b with
    | .value x, .value y => ((p.inWindow, p.cbit, kcmpHolds p.cond x y) :: r.1, r.2)
    | _, _ => (r.1, p :: r.2)) ([], [])

/-- A condition bit reaches the hawk, and, where the KCMP stood before them, the window's checkpoint and the registers of held
words (R30, R32). -/
def applyBit (hk : Hawk) (x : Option Nat × Nat × Bool) : Hawk :=
  let set (c : BitVec 8) : BitVec 8 := setCBit c x.2.1 x.2.2
  let after (n : Nat) : Bool := match x.1 with
    | none => true
    | some m => decide (m < n)
  let win (w : SpecWindow) : SpecWindow :=
    { w with c := if x.1.isNone then set w.c else w.c,
             held := w.held.map fun h => if after h.count then { h with c := set h.c } else h }
  { hk with c := set hk.c, window := hk.window.map win }

/-- A KLD's value reaches its register: the hawk's, the checkpoint where the KLD stood before the window, and those of held words
that stood after it; the compares that it completes are computed (R30, R32, R322). -/
def depositK (id n : Nat) (x : DWord) (hk : Hawk) : Hawk :=
  let set (k : Smap DWord) : Smap DWord := smSet 0 k n x
  let win (w : SpecWindow) : SpecWindow :=
    { w with k := if id < w.firstOp then set w.k else w.k,
             held := w.held.map fun h => if id < h.firstOp then { h with k := set h.k } else h }
  let hk := { hk with k := set hk.k, kpend := hk.kpend.filter fun p => p.2 != id, window := hk.window.map win }
  let r := resolveCmps (hk.cpend.map fun p => { p with a := fillSource id x p.a, b := fillSource id x p.b })
  r.1.foldl applyBit { hk with cpend := r.2 }

/-- Completes an outstanding load: its deposits are written and its flag falls (R260). -/
def completeLoad (s : State) (t : Nat) (l : LoadOp) : State :=
  let s := modTeam s t fun tm => { tm with loads := tm.loads.filter fun x => x.id != l.id }
  match l.who with
  | .gang g => modGang s t g fun gg => { l.deposits.foldl deposit gg with flags := smSet 0 gg.flags l.flag (flagOf gg.flags l.flag - 1) }
  | .hawk =>
    modHawk s t fun hk =>
      let hk := { hk with flags := smSet 0 hk.flags l.flag (flagOf hk.flags l.flag - 1) }
      l.deposits.foldl (fun hk d => match d with
        | .kpr n x => depositK l.id n x hk
        | _ => hk) hk

/-- Whether writes through a peer window of an instruction in flight have not been acknowledged (R239, R370). -/
def writesOut (s : State) (lid tid op : Nat) : Bool := s.peers.any fun r => r.lid == lid && r.tid == tid && r.op == some op

/-- LONG_LATENCY_COMPLETION (R260): of a team that holds its slots, once every byte that the instruction writes has completed (R370). -/
def execLongLatencyCompletion (lid tid op : Nat) (s : State) : Out :=
  .next (match teamIdx s lid tid with
    | none => s
    | some t =>
      match listAt s.teams t with
      | none => s
      | some tm =>
        match tm.loads.find? fun l => l.id == op with
        | none => s
        | some l => if resident tm ∧ !writesOut s lid tid op then honour (completeLoad s t l) t else s)

end Sys2Proof.Machine
end

