-- ==== Sys2Proof/Machine/Window.lean ====
section
/-!
DEFINITION. The resolution of the hawk's speculation window (02 R32): the held work performed in program order, and the squash.
-/
namespace Sys2Proof.Machine

/-- The effect of a held word, in the context that it was held with (R31, R32). -/
def heldBody (i : Instr) (c : HCtx) (s : State) : HRes :=
  let run (fs : BitVec 1) (body : Issuer → State → ERes) : HRes := toHawk s (body (hawkIssuer c fs) s)
  match i with
  | .kst d a o => kstBody d a o c s
  | .kstAtomic d a o w => kstAtomicBody d a o w c s
  | .rgsplit a => run 0 (rangeBody i a.toNat a.toNat)
  | .rgmerge a => run 0 (rangeBody i a.toNat a.toNat)
  | .rgtrim a b => run 0 (rangeBody i a.toNat b.toNat)
  | .rggrow a b => run 0 (rangeBody i a.toNat b.toNat)
  | .rginv a => run 0 (rangeBody i a.toNat a.toNat)
  | .rginvDiscard a => run 0 (rangeBody i a.toNat a.toNat)
  | .rgmigrIn a b => run 0 (rangeBody i a.toNat b.toNat)
  | .rgmigrOut a b => run 0 (rangeBody i a.toNat b.toNat)
  | .rgmigrMove a b => run 0 (rangeBody i a.toNat b.toNat)
  | .rgprobe d a w => run 0 (probeBody d.toNat a.toNat w.toNat)
  | .seal a => run 0 (rangeBody i a.toNat a.toNat)
  | .unseal a => run 0 (rangeBody i a.toNat a.toNat)
  | .launch d a => launchBody d a c s
  | .snap => run 0 snapBody
  | .cswr a n => cswrBody a.toNat n.toNat c s
  | i => match engineWord i with
    | some (fs, body) => run fs body
    | none => .done s

/-- The context of a held word at commit: the team as it stands, the registers as the word read them. -/
def heldCtx (t : Nat) (tm : Team) (h : HeldWork) : HCtx :=
  { t := t, tm := tm, cl := h.clause, act := true
    hk := { tm.hawk with k := h.k, c := h.c, ret := h.ret, pc := h.pc, clause := some h.clause, window := none } }

/-- The window's held work is replaced, and the window is committing. -/
def setHeld (s : State) (t : Nat) (held : List HeldWork) : State :=
  modHawk s t fun hk => { hk with window := hk.window.map fun w => { w with held := held, committing := true } }

/-- The registers that a performed word has written reach the younger held words (R31). -/
def passResults (s : State) (t : Nat) (h : HeldWork) (rest : List HeldWork) : List HeldWork :=
  match listAt s.teams t with
  | none => rest
  | some tm => rest.map fun x => { x with k := (heldWrites h.instr).foldl (fun k n => smSet 0 k n (kReg tm.hawk n)) x.k }

/-- A fault met at commit: the work younger than the word is discarded, loads from peers among it, and the trap is taken at the
word (R32). -/
def stopAt (s : State) (t : Nat) (h : HeldWork) (r : FaultRecord) : State :=
  takeHawkTrap (modTeam (dropHawkPeers s t) t fun tm =>
    clearMarks (rewindHawk tm h.k h.c h.ret h.pc (some h.clause) h.pushes h.firstOp (some h.count))) t r

/-- The DQPUSHes that stand before a held word are committed with it (R29, R32): their entries lose the mark, which is a release at
team scope (R140, R146). -/
def commitPushes (s : State) (t : Nat) (h : HeldWork) : State :=
  if h.pushes.all (· == 0) then s
  else modTeam (releaseBy s t .hawk 3) t fun tm =>
    { tm with gangs := tm.gangs.zipIdx.map fun x =>
        let plain := countP (fun e => !e.spec) x.1.dq
        let n := plain + (listAt h.pushes x.2).getD 0
        { x.1 with dq := (x.1.dq.take n).map (fun e => { e with spec := false }) ++ x.1.dq.drop n } }

/-- A held word after the DQPUSHes that stand before another have been committed. -/
def lessPushes (done : List Nat) (h : HeldWork) : HeldWork := { h with pushes := List.zipWith (· - ·) h.pushes done }

/-- The window closes when all held work has been performed: marks are removed, which is a release at team scope where a DQPUSH has set
one (R140), and a held fault is delivered (R32). A load at which the hawk waits for a peer is asked for again: what the window has
performed comes before it (R31). -/
def closeWindow (s : State) (t : Nat) (w : SpecWindow) : State :=
  let pushed := (listAt s.teams t).any fun tm => tm.gangs.any fun gg => gg.dq.any (·.spec)
  let s := modTeam (dropHawkPeers (if pushed then releaseBy s t .hawk 3 else s) t) t fun tm =>
    clearMarks { tm with hawk := { tm.hawk with
      window := none, cpend := tm.hawk.cpend.map fun p => { p with inWindow := none }
      st := if tm.hawk.st == .waiting .interlock then .issuing else tm.hawk.st } }
  match w.fault with
  | some r => takeHawkTrap s t r
  | none => s

/-- The range unit's record of a held word whose instruction waits there. -/
def holdQueued (s : State) (id : Nat) (h : HeldWork) : State :=
  { s with rangeOps := s.rangeOps.map fun o => match o.kind with
      | .queued i ga gb bases _ => if o.id == id then { o with kind := .queued i ga gb bases (some h) } else o
      | _ => o }

/-- Performs held work in program order until it ends, waits, or traps (R32), over fuel. A word that waits holds the hawk in its wait
(R34). -/
def commitLoop (t : Nat) : Nat → State → State
  | 0, s => s
  | fuel + 1, s =>
    match listAt s.teams t with
    | none => s
    | some tm =>
      match tm.hawk.window with
      | none => s
      | some w =>
        match w.held with
        | [] => closeWindow s t w
        | h :: rest =>
          if (heldFlag h).any fun f => decide (63 ≤ flagOf tm.hawk.flags f) then s
          else
            let rest := rest.map (lessPushes h.pushes)
            let s := commitPushes s t h
            let h := lessPushes h.pushes h
            let s := setHeld s t (h :: rest)
            let c := heldCtx t ((listAt s.teams t).getD tm) h
            match heldBody h.instr c s with
            | .done s' => commitLoop t fuel (setHeld s' t (passResults s' t h rest))
            | .moved s' => commitLoop t fuel (setHeld s' t (passResults s' t h rest))
            | .wait (.rangeOp id) s' => waitHawk (setHeld (holdQueued s' id h) t rest) t (.rangeOp id)
            | .wait w s' => waitHawk s' t w
            | .trap cause addr => stopAt s t h (hawkRecord c.hk h.instr cause addr none)
            | .trapAcc s' cause addr cls => stopAt s' t h (hawkRecord c.hk h.instr cause addr (some cls))
            | .trapIn s' cause addr => stopAt s' t h (hawkRecord c.hk h.instr cause addr none)
            | .report flag r again s' => stopAt s' t h (reportRecord h.pc (if again then 1 else 0) flag r)

/-- What begins with a window's commit: the predictor learns (R30), and a load of the window that went through a link station has
escaped (R218). -/
def beginCommit (s : State) (t : Nat) (w : SpecWindow) (taken : Bool) : State :=
  let s := modHawk s t fun hk => trainPredictor hk w.pc taken
  if w.link then escape s t else s

/-- Starts or continues the commit of a window (R32): a word that held the hawk is tried again. -/
def commitWindow (s : State) (t : Nat) (w : SpecWindow) (taken : Bool) : State :=
  let s := if w.committing then waitHawk s t .interlock else beginCommit s t w taken
  commitLoop t (w.held.length + 1) (setHeld s t w.held)

/-- The hawk stands in the wait for a range operation. -/
def holdsRange (hk : Hawk) : Bool :=
  match hk.st with
  | .waiting (.rangeOp _) => true
  | _ => false

/-- The team, its window and the direction that its condition gives, where the window resolves (R32). -/
def resolving (s : State) (lid tid : Nat) : Option (Nat × SpecWindow × Bool) :=
  match teamIdx s lid tid with
  | none => none
  | some t =>
    match listAt s.teams t with
    | none => none
    | some tm =>
      match tm.hawk.window, windowTaken tm.hawk with
      | some w, some taken => if tm.st = .running ∧ !holdsRange tm.hawk then some (t, w, taken) else none
      | _, _ => none

/-- A held CSWR (R31, R74). -/
def isCswr (h : HeldWork) : Bool :=
  match h.instr with
  | .cswr .. => true
  | _ => false

/-- WINDOW_COMMIT (R32). A CSWR that it performs is the hawk's write of this core cycle, which the writes of gangs precede (R74). -/
def execWindowCommit (lid tid : Nat) (s : State) : Out :=
  .next (match resolving s lid tid with
    | some (t, w, taken) =>
      if taken = w.predicted then
        commitWindow (if w.held.any isCswr then { s with spent := .hawk lid tid :: s.spent } else s) t w taken
      else s
    | none => s)

/-- WINDOW_SQUASH (R32): the hawk goes on at the other target. -/
def execWindowSquash (lid tid : Nat) (s : State) : Out :=
  .next (match resolving s lid tid with
    | some (t, w, taken) =>
      if taken = w.predicted then s
      else modTeam (dropHawkPeers s t) t fun tm =>
        let tm := squashWindow tm (if taken then w.target else w.pc + 4) none
        { tm with hawk := trainPredictor tm.hawk w.pc taken }
    | none => s)

/-! ### The end of range operations (R125, R128, R132) -/

/-- The stream that a range operation held goes on with its next instruction (R125). -/
def releaseHolder (s : State) (o : RangeOp) : State :=
  match o.holder with
  | none => s
  | some (lid, tid, who) =>
    match teamIdx s lid tid with
    | none => s
    | some t =>
      match who with
      | .gang g =>
        (List.range 8).foldl (fun s f =>
          match ((listAt s.teams t).bind fun tm => gangOf tm g).bind fun gg => fragOf gg f with
          | some fr => if fr.st == .waiting (.rangeOp o.id) then modGang s t g fun gg => advanceGang s.cycle gg f else s
          | none => s) s
      | .hawk =>
        match listAt s.teams t with
        | none => s
        | some tm =>
          if tm.hawk.st ≠ .waiting (.rangeOp o.id) then s
          else match tm.hawk.window with
            | some w =>
              let s := waitHawk s t .interlock
              if tm.st = .running then s else modTeam (dropHawkPeers s t) t fun tm => stopCommit tm w
            | none => advanceHawk s t

/-- The stream that an operation holds, where it still stands in the wait: its team and, for a gang, the fragment. -/
def heldStream (s : State) (o : RangeOp) : Option (Nat × Team × Option (Nat × Nat)) :=
  match o.holder with
  | none => none
  | some (lid, tid, who) =>
    match teamIdx s lid tid with
    | none => none
    | some t =>
      match listAt s.teams t with
      | none => none
      | some tm =>
        match who with
        | .gang g =>
          ((gangOf tm g).bind fun gg => ((liveFrags gg).find? fun x => x.2.st == .waiting (.rangeOp o.id)).map (·.1)).map fun f =>
            (t, tm, some (g, f))
        | .hawk => if tm.hawk.st = .waiting (.rangeOp o.id) then some (t, tm, none) else none

/-- A check that fails when an instruction's turn in the range unit has come: its stream takes the trap at it (R124, R32). -/
def trapHeld (s : State) (t : Nat) (tm : Team) (at_ : Option (Nat × Nat)) (i : Instr) (h : Option HeldWork) (c : Cause) (addr : Nat) : State :=
  match at_ with
  | some (g, f) =>
    match (gangOf tm g).bind fun gg => (fragOf gg f).bind fun fr => fr.clause.map fun cl => fragCtx t g f tm gg fr cl with
    | some x => needEntry (trapAll s x i c x.act (BitVec.ofNat 64 addr)) tm.lid tm.tid g f
    | none => s
  | none =>
    match h with
    | some h => stopAt s t h (hawkRecord { tm.hawk with pc := h.pc } h.instr c (BitVec.ofNat 64 addr) none)
    | none => takeHawkTrap s t (hawkRecord tm.hawk i c (BitVec.ofNat 64 addr) none)

/-- Whether an operation is an instruction that waits its turn. -/
def isQueued (o : RangeOp) : Bool :=
  match o.kind with
  | .queued .. => true
  | _ => false

/-- The operations that an instruction which waits its turn finds in the unit: not itself, nor those that wait behind it (R133). -/
def unitBefore (s : State) (n : Nat) : State := { s with rangeOps := s.rangeOps.filter fun x => decide (x.id < n) || !isQueued x }

/-- An instruction that waits in the range unit is checked against the table as it stands, where its turn has come (R132, R133). -/
def queuedTurn (s : State) (o : RangeOp) (i : Instr) (ga gb : Nat) (h : Option HeldWork) : State :=
  match heldStream s o with
  | none => dropRangeOp s o.id
  | some (t, tm, at_) =>
    match rangeAnswer i (unitBefore s o.id) t tm ((o.holder.map (·.2.2)).getD .hawk) ga gb with
    | (_, .busy _) => s
    | (u, .trap c addr) => trapHeld (dropRangeOp { u with rangeOps := s.rangeOps } o.id) t tm at_ i h c addr
    | (u, .none) => releaseHolder (dropRangeOp (escape { u with rangeOps := s.rangeOps } t) o.id) o
    | (_, .changed s' kind) => escape { s' with rangeOps := s.rangeOps.map fun x => if x.id == o.id then { x with kind := kind } else x } t

/-- A SKIMPUT has begun to write a slot of which a byte lies in [lo, hi) of an address space (R200). -/
def putUnderway (s : State) (asid lo hi : Nat) : Bool :=
  s.teams.any fun tm => asidOf s tm == asid && tm.eops.any fun o => match o.kind with
    | .skimput key _ st _ =>
      let base := skimSlotAddr st key
      o.sent != [] && decide (base < hi) && decide (lo < base + skimOutput st + 128 * st.olines)
    | _ => false

/-- An access to a span of an address space that has been translated has still to complete: a peer has not answered it, or a SKIMPUT has
still to make it (R125). -/
def accessesOut (s : State) (asid lo hi : Nat) : Bool :=
  putUnderway s asid lo hi ||
  s.peers.any fun r => r.answer.isNone && decide (lo ≤ r.va.toNat) && decide (r.va.toNat < hi) &&
    (launchOf s r.lid).any fun l => l.record.asid == asid

/-- RANGE_CHANGE_COMPLETE (R125, R131): an instruction that waits in the range unit is performed when its turn has come; a change
completes when every access translated through the old entries has, and the lookasides have lost them; RGMIGR.IN writes its window;
RGINV.DISCARD adds to DISCARDCNT. -/
def execRangeChangeComplete (n : Nat) (s : State) : Out :=
  .next (match rangeOpOf s n with
    | none => s
    | some o =>
      match o.kind with
      | .queued i ga gb _ h => queuedTurn s o i ga gb h
      | .change d lo hi =>
        if accessesOut s o.asid lo hi then s
        else
          let s := if d = 0 then s
            else { s with discardCnt := smSet 0 s.discardCnt o.asid (smGet 0 s.discardCnt o.asid + BitVec.ofNat 64 d) }
          releaseHolder (dropRangeOp (dropLook s o.asid lo hi) n) o
      | .migrIn base lo hi => wakeAll rangeWait (releaseHolder (dropRangeOp (endWiden s o.asid base lo hi) n) o)
      | _ => s)

/-- RESIDENCY_WIDENING_END (R127, R128): the window is written, and the accesses parked on it are replayed. -/
def execResidencyWideningEnd (n : Nat) (s : State) : Out :=
  .next (match rangeOpOf s n with
    | none => s
    | some o =>
      match o.kind with
      | .widen base lo hi => wakeAll rangeWait (dropRangeOp (endWiden s o.asid base lo hi) n)
      | _ => s)

/-- The trowel's completion word, written as a module-scope release (R130). -/
def trowelDone (s : State) (addr status : Nat) : State :=
  let s := unitStore s (addr + 28) (bytesOf 4 (status + 256))
  { s with trowel := s.trowel.drop 1 }

/-- MOVE_COMPLETE (R132): every access translated before the move has completed, the range stands at its new place, and the held
accesses are replayed. -/
def execMoveComplete (n : Nat) (s : State) : Out :=
  .next (match rangeOpOf s n with
    | none => s
    | some o =>
      match o.kind with
      | .move base pbase cbase cap =>
        let limit := ((slotOfBase s o.asid base).map (·.2.limit)).getD base
        if accessesOut s o.asid base limit then s else
        let s := releaseHolder (dropRangeOp (endMove s o.asid base pbase cbase cap) n) o
        wakeAll rangeWait (match o.trowel with
          | some a => trowelDone s a 0
          | none => s)
      | _ => s)

/-! ### The trowel (R129, R130) -/

/-- The command that a trowel word list holds, checked (R130): its status where it fails, else the slot, the entry and the target. -/
inductive TrowelRes where
  | fails (status : Nat)
  | busy
  | moves (k : Nat) (e : RangeEntry) (target : RangeEntry)

/-- Checks a trowel command (R129, R130). -/
def checkTrowel (s : State) (c : TrowelCmd) : TrowelRes :=
  let asid := bits64 c.w3 12 0
  let reserved := bits64 c.w0 63 56 ≠ 0 ∨ bits64 c.w0 6 0 ≠ 0 ∨ bits64 c.w1 63 52 ≠ 0 ∨ bits64 c.w1 6 0 ≠ 0 ∨
    bits64 c.w2 63 55 ≠ 0 ∨ bits64 c.w2 6 0 ≠ 0 ∨ bits64 c.w3 31 13 ≠ 0
  if reserved then .fails 1
  else if !(asidDesc s asid).en then .fails 2
  else match slotOfBase s asid (bits64 c.w0 55 0) with
    | none => .fails 2
    | some (k, e) =>
      if e.st = rsMigrating ∨ rangeBusy s asid e.base then .busy
      else
        let target := { e with
          pbase := bits64 c.w1 51 0
          cbase := if c.w2.getLsbD 52 then bits64 c.w2 51 0 else e.cbase
          cap := if c.w2.getLsbD 53 then c.w2.getLsbD 54 else e.cap }
        if entryOk s target then .moves k e target else .fails 3

/-- A move for the trowel is in progress. -/
def trowelBusy (s : State) : Bool := s.rangeOps.any fun o => o.trowel.isSome

/-- TROWEL_COMMAND (R129): the head of the queue is performed as a move, or completes with an error. -/
def execTrowelCommand (s : State) : Out :=
  .next (match s.trowel with
    | [] => s
    | c :: _ =>
      if trowelBusy s then s
      else match checkTrowel s c with
        | .fails st => trowelDone s c.addr st
        | .busy => s
        | .moves k e target =>
          let asid := bits64 c.w3 12 0
          let s := beginMove s asid k e
          { s with nextRange := s.nextRange + 1
                   rangeOps := s.rangeOps ++ [{ id := s.nextRange, asid := asid, holder := none,
                                                kind := .move e.base target.pbase target.cbase target.cap, trowel := some c.addr }] })

/-- TRSUBMIT (R130): the command is copied and queued, or refused. -/
def execTrsubmit (v : BitVec 64) (s : State) : Out :=
  let pa := bits64 v 51 0
  if pa % 32 ≠ 0 ∨ !inFast pa (pa + 32) ∨ 64 ≤ s.trowel.length then .next { s with trref := true }
  else
    let s := flushQuanta s pa (pa + 32)
    let w (k : Nat) : DWord := BitVec.ofNat 64 (homeWord s (pa + 8 * k))
    .next { s with trref := false
                   trowel := s.trowel ++ [{ addr := pa, w0 := w 0, w1 := w 1, w2 := w 2, w3 := w 3 &&& 0xFFFFFFFF }] }

end Sys2Proof.Machine
end

