-- ==== Sys2Proof/Machine/Placement.lean ====
section
/-!
DEFINITION. The launch scheduler: the order of work that waits for slots (12 R388, R209), placement (R37, R41, R210, R215, R219),
declared inputs (09 R167), the scheduler's own pre-emption requests and the pre-emption port (R213), timer swaps (02 R35), the
starvation guard (R211), pool entries (03 R59) and completion (R208).
-/
namespace Sys2Proof.Machine

/-! ### The order of waiting work (R388) -/

/-- Work that waits for slots. -/
inductive Work where
  | resume (lid tid : Nat)
  | relaunch (lid tid : Nat)
  | child (lid tid : Nat)
  | fresh (lid : Nat)
deriving DecidableEq, Repr

/-- Work with its place: 63 less the launch's priority, its class, and its order within the class. -/
structure Ranked where
  urgency : Nat
  cls : Nat
  order : Nat
  work : Work
deriving DecidableEq, Repr

/-- Whether one piece of work ranks before another. -/
def Ranked.before (a b : Ranked) : Bool :=
  decide (a.urgency < b.urgency) || (a.urgency == b.urgency &&
    (decide (a.cls < b.cls) || (a.cls == b.cls && decide (a.order < b.order))))

/-- Every predecessor of a launch has completed with status 0 (R208). -/
def predsDone (l : Launch) : Bool := l.preds.all fun p => p.2 == some 0

/-- A predecessor of a launch has completed with another status (R208). -/
def predFailed (l : Launch) : Bool := l.preds.any fun p => p.2.any (· != 0)

/-- 63 less the priority of a team's launch. -/
def urgencyOf (s : State) (tm : Team) : Nat := 63 - launchField s tm 0 (·.prio)

/-- A team's place in the ranking, where it waits for slots. -/
def rankTeam (s : State) (tm : Team) : Option Ranked :=
  let r (c : Nat) (w : Work) : Ranked := { urgency := urgencyOf s tm, cls := c, order := tm.stamp, work := w }
  if tm.st = .swapped ∧ mayResume tm then some (r 0 (.resume tm.lid tm.tid))
  else if tm.st = .queued ∧ tm.relaunches ≠ 0 then some (r 1 (.relaunch tm.lid tm.tid))
  else if tm.st = .queued then some (r 2 (.child tm.lid tm.tid))
  else none

/-- A queue head's place in the ranking (R209). -/
def rankHead (s : State) (lid : Nat) : Option Ranked :=
  match launchOf s lid with
  | none => none
  | some l =>
    if predsDone l ∧ !l.cancelled then some { urgency := 63 - l.record.prio, cls := 3, order := l.order, work := .fresh lid }
    else none

/-- A launch of which a team is still to be placed. -/
def unplaced (s : State) (lid : Nat) : Bool := (launchOf s lid).any fun l => !l.cancelled && decide (l.nextTid < l.record.tcount)

/-- All work that waits for slots, in no order: of each queue, the first launch of which a team is still to be placed (R209). -/
def waitingWork (s : State) : List Ranked :=
  s.teams.filterMap (rankTeam s) ++ s.queues.filterMap fun q => (q.2.find? (unplaced s)).bind (rankHead s)

/-- The highest-ranked work (R388). -/
def topWork (s : State) : Option Ranked :=
  (waitingWork s).foldl (fun m x => match m with
    | none => some x
    | some y => if x.before y then some x else some y) none

/-! ### Room (R37, R210, R219) -/

/-- The slots that a team needs. -/
structure Need where
  gangs : Nat
  lines : Nat
  acct : Nat
  /-- Cores needed. -/
  cores : Nat
  /-- The only core cluster that will do, if one. -/
  cluster : Option Nat
  /-- The other teams of its cluster, by launch and team identifier: no core that holds one will do (R37). -/
  mates : List (Nat × Nat)
deriving DecidableEq, Repr

/-- The other teams of a team's cluster. -/
def clusterMates (s : State) (tm : Team) : List (Nat × Nat) :=
  (s.teams.filter fun x => x.tid != tm.tid && sameCluster s tm x).map fun x => (x.lid, x.tid)

/-- What a team needs that has been placed before, or that is a child. -/
def needOf (s : State) (tm : Team) : Need :=
  { gangs := tm.gangCount, lines := tm.lines, acct := tm.acct, cores := 1
    cluster := if cptOf s tm > 1 then tm.cluster else none, mates := if cptOf s tm > 1 then clusterMates s tm else [] }

/-- What some work needs. -/
def workNeed (s : State) : Work → Option Need
  | .resume lid tid => (teamBy s lid tid).map (needOf s)
  | .relaunch lid tid => (teamBy s lid tid).map (needOf s)
  | .child lid tid => (teamBy s lid tid).map (needOf s)
  | .fresh lid => (launchOf s lid).map fun l =>
    { gangs := l.record.gangs, lines := l.record.splines, acct := l.record.acct, cores := l.record.cpt, cluster := none, mates := [] }

/-- The teams that hold slots of a core, but for those counted as gone. -/
def coreTeams (s : State) (gone : Team → Bool) (core : Nat) : List Team :=
  s.teams.filter fun tm => resident tm && tm.core == core && !gone tm

/-- The sum of a number over some teams. -/
def total (f : Team → Nat) (l : List Team) : Nat := l.foldl (fun n tm => n + f tm) 0

/-- A core has room for one team, once some teams are gone (R210): no team goes to a core being retested (R230). -/
def coreFits (s : State) (gone : Team → Bool) (n : Need) (core : Nat) : Bool :=
  let ts := coreTeams s gone core
  corePresent s core && !s.recovering.getLsbD (core / 8) && !(ts.any fun x => n.mates.contains (x.lid, x.tid)) &&
  decide (ts.length < Config.teamSlots) &&
  decide (total (·.gangCount) ts + n.gangs ≤ Config.gangSlots) && decide (total (·.lines) ts + n.lines ≤ Config.scratchLines) &&
  decide (total (·.acct) ts + n.acct ≤ Config.tiles)

/-- The cores of a core cluster, from one of them on. -/
def coresFrom (cluster first : Nat) : List Nat := (List.range 8).map fun k => cluster * 8 + (first + k) % 8

/-- Distinct cores of a core cluster on which some work can be placed, once some teams are gone. -/
def placeOn (s : State) (gone : Team → Bool) (n : Need) (cluster first : Nat) : Option (List Nat) :=
  let ok := (coresFrom cluster first).filter (coreFits s gone n)
  if (n.cluster.all (· == cluster)) && decide (n.cores ≤ ok.length) then some (ok.take n.cores) else none

/-- Whether some work can be placed somewhere, once some teams are gone. -/
def placeable (s : State) (gone : Team → Bool) (n : Need) : Bool := (List.range 24).any fun cl => (placeOn s gone n cl 0).isSome

/-! ### Entering a core -/

/-- The lowest numbers below a bound that are not in a list. -/
def lowestFree (bound count : Nat) (used : List Nat) : List Nat := ((List.range bound).filter fun k => !used.contains k).take count

/-- A team takes its slots on a core (R43). -/
def seat (s : State) (t core : Nat) (st : TeamState) : State :=
  let here := coreTeams s (fun _ => false) core
  let slot := ((lowestFree Config.teamSlots 1 (here.map (·.slot))).head?).getD 0
  let used := here.flatMap (·.slots)
  let s := modTeam s t fun tm =>
    { tm with st := st, core := core, slot := slot, slots := lowestFree Config.gangSlots tm.gangCount used
              cluster := some (core / 8), placed := s.stamp, timer := 0 }
  { s with stamp := s.stamp + 1 }

/-! ### Declared inputs (R167) -/

/-- What reading a declared input's descriptor answers. -/
inductive InputRes where
  | held
  | ok (d : CopyDesc)
  | fails (r : Report)

/-- The report of a declared input's failed check. -/
def inputReport (c : Cause) (addr : DWord) : InputRes := .fails { cause := c, addr := addr, cls := some .cp, batch := none }

/-- Reads bytes for a declared input, and goes on with them. -/
def inputRead (e : EngCtx) (va len : Nat) (s : State) (k : List Byte → State → State × InputRes) : State × InputRes :=
  match readSpan e none va len s with
  | (s, .held) => (s, .held)
  | (s, .got _ (r :: _)) => (s, inputReport r.cause r.addr)
  | (s, .got bs []) => k (bs.map fun b => b.value.getD 0) s

/-- Reads and checks the descriptor that entry n of the list names, with the checks of R292. -/
def readInput (e : EngCtx) (inlist n : Nat) (s : State) : State × InputRes :=
  inputRead e (inlist + 8 * n) 8 s fun bs s =>
    let a := natOf bs
    if a % 32 ≠ 0 then (s, inputReport .misaligned 0)
    else inputRead e a 32 s fun hdr s =>
      match copyHeader hdr with
      | none => (s, inputReport .illegalOperand 0)
      | some (d, ndim) => inputRead e (a + 32) (16 * ndim) s fun rest s =>
        match copyDims ndim rest with
        | none => (s, inputReport .illegalOperand 0)
        | some dims =>
          let d := { d with dims := dims }
          let size := scratchSize e.tm
          (s, if extentFails size d true || extentFails size d false then inputReport .scratchBounds 0 else .ok d)

/-- A declared input that is skipped moves nothing. -/
def noCopy : CopyDesc :=
  { src := 0, sloc := false, dst := 0, dloc := false, esize := 1, moddim := none, mside := false, modcnt := 0, modbase := 0
    dims := [{ count := 0, sstride := 0, dstride := 0 }] }

/-- Adds the operation of a declared input. -/
def addInput (s : State) (t : Nat) (d : CopyDesc) (r : Option Report) : State :=
  let lines := scratchLinesOf (allMoves d)
  let s := { s with stamp := s.stamp + 1 }
  modTeam s t fun tm =>
    { lines.foldl (fun tm l => setFill tm l tagPending) tm with
      eops := tm.eops ++ [{ newOp tm.nextOp s.stamp (.gang 0) none (.input d) lines with report := r }]
      nextOp := tm.nextOp + 1, inputsLeft := tm.inputsLeft - 1 }

/-- Issues the declared inputs that are left, in list order, until one is held (R167). -/
def issueInputs (t : Nat) : Nat → State → State
  | 0, s => s
  | fuel + 1, s =>
    match listAt s.teams t with
    | none => s
    | some tm =>
      if tm.st ≠ .preload ∨ tm.inputsLeft = 0 then s
      else
        let e : EngCtx := { t := t, tm := tm, asid := asidOf s tm, who := .gang 0, id := tm.nextOp, cls := .cp, own := [] }
        let n := launchField s tm 0 (·.ninput) - tm.inputsLeft
        let finish (s : State) : State := { s with peers := s.peers.filter fun r =>
          !(r.lid == tm.lid && r.tid == tm.tid && r.op == some tm.nextOp) }
        match readInput e (launchField s tm 0 (·.inlist)) n s with
        | (s, .held) => s
        | (s, .ok d) => issueInputs t fuel (addInput (finish s) t d none)
        | (s, .fails r) => issueInputs t fuel (addInput (finish s) t noCopy (some r))

/-- A team enters PRELOAD on a core, and its declared inputs begin (R43, R44, R105). -/
def enterPreload (s : State) (t core : Nat) : State :=
  let s := seat s t core .preload
  let n := match listAt s.teams t with
    | some tm => if tm.parent.isSome then 0 else launchField s tm 0 (·.ninput)
    | none => 0
  issueInputs t n (modTeam s t fun tm => { tm with inputsLeft := n })

/-! ### The first team of a launch (R215, R225) -/

/-- What the read of the step declaration answers. -/
inductive StepRead where
  | held
  | ok (sd : StepDecl)
  | fails (cause : Nat)
deriving DecidableEq, Repr

/-- Reads a step declaration (R215). -/
def readStep (bs : List Byte) : Option StepDecl :=
  let w := recWord bs
  if bitsN (w 2) 63 26 ≠ 0 ∨ w 3 ≠ 0 then none
  else some { vlive := BitVec.ofNat 112 (w 0 + bitsN (w 1) 47 0 * 2 ^ 64), alive := BitVec.ofNat 16 (bitsN (w 1) 63 48),
              splo := bitsN (w 2) 12 0, spn := bitsN (w 2) 25 13 }

/-- A step declaration as it was read: one that is malformed or does not fit the launch's shape fails (R215). -/
def judgeStep (r : LaunchRecord) (bs : List Byte) : StepRead :=
  match readStep bs with
  | some sd => if stepFits sd r.vregs r.acct r.splines then .ok sd else .fails 2
  | none => .fails 2

/-- The sender of the scheduler's own read for a launch. -/
def stepSender (lid : Nat) : Sender := { lid := lid, tid := stepReader, who := .hawk, lane := none, op := none }

/-- The scheduler's read of STEPD, in the launch's ASID (R215). Through a peer window it asks the peer, and POISON is the answer where the
access fails (R239, R241). -/
def fetchStep (s : State) (lid : Nat) (r : LaunchRecord) : State × StepRead :=
  match translate s r.asid .read r.stepd with
  | .fault c => (s, .fails (causeCode c))
  | .absent _ => (startWiden s r.asid r.stepd, .held)
  | .held _ => (s, .held)
  | .at pa _ =>
    if pa < Config.devLo then
      let s := flushQuanta s pa (pa + 32)
      (s, if (homeSector s (sectorOf pa)).2 then .fails (causeCode .poison) else judgeStep r (homeBytes s pa 32))
    else match inPeerWindow pa (pa + 32) with
      | none => (s, judgeStep r (devBytes s pa 32))
      | some w =>
        match askPeer s (stepSender lid) { va := r.stepd, len := 32, place := .peer w pa, plane := false } w pa (.read 32) with
        | (s, .got true bs) => (consumePeers s lid stepReader .hawk Option.isNone, judgeStep r bs)
        | (s, .got false _) => (consumePeers s lid stepReader .hawk Option.isNone, .fails (causeCode .poison))
        | (s, _) => (s, .held)

/-- The scheduler's read of a step declaration, where it is still to be made: a faulty one ends the launch (R215). -/
def readDeclaration (s : State) (lid : Nat) : State :=
  match launchOf s lid with
  | none => s
  | some l =>
    if !stepUnread l then s
    else match fetchStep s lid l.record with
      | (s, .held) => s
      | (s, .ok sd) => modLaunch s lid fun l => { l with stepDecl := some sd }
      | (s, .fails c) => escalate s lid c 0

/-- The first placement reads the launch's vector (R225) and its step declaration (R215). -/
def openLaunch (s : State) (l : Launch) : State :=
  let v := smGet (0, 0) s.vectors l.record.asid
  readDeclaration (modLaunch s l.lid fun l => { l with vector := some v }) l.lid

/-! ### SCHEDULER_PLACEMENT -/

/-- Removes a launch from its queue. -/
def leaveQueue (s : State) (lid : Nat) : State :=
  { s with queues := (s.queues.map fun q => (q.1, q.2.filter (· != lid))).filter fun q => q.2 ≠ [] }

/-- Places the next cluster of a launch on some cores, all in one cycle (R210). -/
def placeCluster (s : State) (l : Launch) (cores : List Nat) : State :=
  let r := l.record
  let s := cores.zipIdx.foldl (fun s x =>
    let tm := freshTeam l.lid (l.nextTid + x.2) none r.gangs r.vregs r.acct r.splines r.prio r.gentry r.hentry r.param 0 s.stamp none
    let s := { s with teams := s.teams ++ [tm] }
    enterPreload s (s.teams.length - 1) x.1) s
  let s := modLaunch s l.lid fun l => { l with nextTid := l.nextTid + r.cpt }
  if r.tcount ≤ l.nextTid + r.cpt then leaveQueue s l.lid else s

/-- Places some work on some cores. -/
def placeWork (s : State) (w : Work) (cores : List Nat) : State :=
  let core := (cores.head?).getD 0
  let onTeam (lid tid : Nat) (f : Nat → State) : State := match teamIdx s lid tid with
    | some t => f t
    | none => s
  match w with
  | .resume lid tid => onTeam lid tid fun t => modTeam (seat s t core .swapin) t fun tm => { tm with entered := s.stamp }
  | .relaunch lid tid => onTeam lid tid fun t => enterPreload s t core
  | .child lid tid => onTeam lid tid fun t => enterPreload s t core
  | .fresh lid =>
    match launchOf s lid with
    | none => s
    | some l =>
      let s := if l.nextTid = 0 then openLaunch s l else s
      match launchOf s lid with
      | some l => if l.cancelled then s else placeCluster s l cores
      | none => s

/-! ### Pre-emption requests (R213) -/

/-- A request to a team with PCLASS 2, or in another state, is dropped; requests merge (R213). -/
def requestPreempt (s : State) (t : Nat) (force : Bool) : State :=
  match listAt s.teams t with
  | none => s
  | some tm =>
    if preemptClass s tm = 2 ∨ !(tm.st == .running || tm.st == .preload || tm.st == .swapin) then s
    else honour (modTeam s t fun tm => { tm with preempt := some (force || tm.preempt.getD false) }) t

/-- PRE_EMPTION_PORT (R213, R214). -/
def execPreEmptionPort (v : BitVec 64) (s : State) : Out :=
  let lid := bits64 v 31 0
  let tid := bits64 v 55 32
  let hit := s.teams.filter fun tm => tm.lid == lid && (tid == 0xFFFFFF || tm.tid == tid)
  .next (hit.foldl (fun s tm => match teamIdx s tm.lid tm.tid with
    | some t => requestPreempt s t (v.getLsbD 56)
    | none => s) s)

/-- The resident teams below a priority, in the order in which the scheduler chooses them: ascending PRIO, most recently placed
first (R213). -/
def teamsBelow (s : State) (p : Nat) : List Team :=
  sortBy (fun tm => tm.prio) ((sortBy (fun tm => tm.placed) (s.teams.filter fun tm => decide (tm.prio < p) && resident tm)).reverse)

/-- Whether a list of teams holds a team. -/
def isOneOf (l : List Team) (tm : Team) : Bool := l.any fun x => x.lid == tm.lid && x.tid == tm.tid

/-- The first teams of a list whose slots let work be placed in a core cluster. -/
def takeUntil (ok : List Team → Bool) : List Team → List Team → Option (List Team)
  | acc, [] => if ok acc then some acc else none
  | acc, tm :: rest => if ok acc then some acc else takeUntil ok (acc ++ [tm]) rest

/-- The set of teams of the fewest members, in the lowest core cluster among equals (R213). -/
def bestSet (s : State) (n : Need) (vs : List Team) : Option (List Team) :=
  (List.range 24).foldl (fun best cl =>
    let ok (l : List Team) : Bool := (placeOn s (isOneOf l) n cl 0).isSome
    match takeUntil ok [] (vs.filter fun tm => tm.core / 8 == cl), best with
    | some l, some b => if l.length < b.length then some l else some b
    | some l, none => some l
    | none, b => b) none

/-- The teams of which the scheduler requests pre-emption for work that it cannot place (R213). A request that R213 drops changes
nothing. -/
def chosenVictims (s : State) (p : Nat) (n : Need) : List Team :=
  let vs := teamsBelow s p
  match vs.find? fun v => placeable s (isOneOf [v]) n with
  | some v => [v]
  | none => (bestSet s n vs).getD []

/-- SCHEDULER_PLACEMENT (R388, R210, R213): the highest-ranked work is placed in a core cluster, from a core of it on; where it can
be placed nowhere, the scheduler requests pre-emption for it. -/
def execSchedulerPlacement (cluster first : Nat) (s : State) : Out :=
  .next (match topWork s with
    | none => s
    | some r =>
      match workNeed s r.work with
      | none => s
      | some n =>
        if cluster < 24 ∧ (placeOn s (fun _ => false) n cluster first).isSome then
          match placeOn s (fun _ => false) n cluster first with
          | some cores => placeWork s r.work cores
          | none => s
        else if placeable s (fun _ => false) n then s
        else (chosenVictims s (63 - r.urgency) n).foldl (fun s tm => match teamIdx s tm.lid tm.tid with
          | some t => requestPreempt s t false
          | none => s) s)

/-! ### Timer swaps, the starvation guard, pool entries -/

/-- The highest-ranked waiting work can be placed with the slots that a team frees on its core (R35, R388). -/
def servedBy (s : State) (tm : Team) (n : Need) : Bool :=
  coreFits s (isOneOf [tm]) n tm.core && (placeOn s (isOneOf [tm]) n (tm.core / 8) (tm.core % 8)).isSome

/-- SWAP_TIMER_EXPIRY (R35): the team is swapped out where the highest-ranked waiting work can be placed with its slots. -/
def execSwapTimerExpiry (core slot : Nat) (s : State) : Out :=
  .next (match s.teams.find? fun tm => tm.st == .running && tm.core == core && tm.slot == slot with
    | none => s
    | some tm =>
      let limit := (swapWait s core).toNat
      match teamIdx s tm.lid tm.tid, freeContext s tm.lid, (topWork s).bind fun r => workNeed s r.work with
      | some t, some ctx, some n =>
        if limit ≠ 0 ∧ limit ≤ tm.timer ∧ timerRuns tm ∧ servedBy s tm n then
          startSwapout s t ctx .swap
        else s
      | _, _, _ => s)

/-- A gang with a fragment that may issue and is not held by an interlock (R211). -/
def candidate (gg : Gang) : Bool := (liveFrags gg).any fun x => x.2.st == .issuing && handlerLeaves gg x.2

/-- The starved gangs of a core, with the cycle of their last issue (R211). -/
def starved (s : State) (core : Nat) : List (Nat × Nat × Nat × Nat) :=
  (s.teams.filter fun tm => tm.core == core && tm.st == .running).flatMap fun tm =>
    tm.gangs.zipIdx.filterMap fun x =>
      if candidate x.1 ∧ x.1.lastIssue + 512 ≤ s.cycle then some (x.1.lastIssue, tm.lid, tm.tid, x.2) else none

/-- STARVATION_GUARD (R211): the oldest gang that has not issued for 512 cycles takes the core's first issue slot. -/
def execStarvationGuard (core : Nat) (s : State) : Out :=
  .next (match (sortBy (·.1) (starved s core)).head? with
    | some (_, lid, tid, g) =>
      if s.forced.contains (core, lid, tid, g) then s else { s with forced := s.forced ++ [(core, lid, tid, g)] }
    | none => s)

/-- Whether a fragment of a gang holds the entry reserved for the gang's slot (R59). -/
def holdsReserved (gg : Gang) : Bool := (liveFrags gg).any fun x => x.2.pool == .reserved

/-- The shared pool entries in use on a core (R59). -/
def sharedUsed (s : State) (core : Nat) : Nat :=
  (coreTeams s (fun _ => false) core).foldl (fun n tm => tm.gangs.foldl (fun n gg => n + countP (fun x => x.2.pool == .shared) (liveFrags gg)) n) 0

/-- The entry that a waiting fragment of a gang would be granted: the reserved one where it is free, else a shared one (R59). -/
def entryFor (s : State) (core : Nat) (gg : Gang) : PoolEntry :=
  if !holdsReserved gg then .reserved else if sharedUsed s core < Config.sharedEntries then .shared else .none

/-- The fragments that wait for a pool entry on a core and can be granted one: priority and age (R59). -/
def waitingEntries (s : State) (core : Nat) : List (Nat × Nat × Nat × Nat × Nat × Nat) :=
  (s.teams.filter fun tm => tm.core == core && tm.st == .running).flatMap fun tm =>
    tm.gangs.zipIdx.flatMap fun x =>
      ((liveFrags x.1).filter fun y => y.2.st == .noEntry && entryFor s core x.1 != .none).map
        fun y => (63 - tm.prio, y.2.waitStamp, tm.lid, tm.tid, x.2, y.1)

/-- POOL_ENTRY_GRANT (R59): the highest team priority first, then the oldest. -/
def execPoolEntryGrant (core : Nat) (s : State) : Out :=
  .next (match (sortBy (·.1) (sortBy (fun x => x.2.1) (waitingEntries s core))).head? with
    | some (_, _, lid, tid, g, f) =>
      match teamIdx s lid tid with
      | some t =>
        match (listAt s.teams t).bind fun tm => gangOf tm g with
        | some gg => modFrag s t g f fun fr => { fr with pool := entryFor s core gg, st := .issuing }
        | none => s
      | none => s
    | none => s)

end Sys2Proof.Machine
end

