-- ==== Sys2Proof/Machine/Skim.lean ====
section
/-!
DEFINITION. The skim cache (11 R195 to R204, R363): its words and the effect of its operations.
-/
namespace Sys2Proof.Machine

/-! ### Descriptors and keys -/

/-- Reads and checks a skim store descriptor (R195). -/
def skimDesc (w0 w1 : DWord) : Option SkimDesc :=
  let d : SkimDesc :=
    { sbase := bits64 w0 55 7 * 128, nslot := bits64 w1 19 0, cpl := bits64 w1 23 20, iblk := bits64 w1 30 24 + 1,
      olines := bits64 w1 38 31 + 1 }
  if bits64 w0 6 0 ≠ 0 ∨ bits64 w0 63 56 ≠ 0 ∨ bits64 w1 63 39 ≠ 0 ∨ d.nslot = 0 ∨ d.cpl = 0 then none else some d

/-- Reads a skim key (R197). -/
def skimKey (w : DWord) : Option SkimKey :=
  if bits64 w 63 52 ≠ 0 then none
  else some { layer := bits64 w 15 0, blk := bits64 w 39 16, oline := bits64 w 51 40 }

/-! ### Issue -/

/-- The operands of a skim word. -/
structure SkimArgs where
  key : SkimKey
  d : PlaneDesc
  store : SkimDesc

/-- The operands, where they pass check 3 of R198. -/
def skimArgs (c : GCtx) (k d sc : BitVec 5) : Option SkimArgs :=
  let g (n : Nat) : DWord := gReg c.gg n
  match skimKey (g k.toNat), planeDesc (g d.toNat) (g (d.toNat + 1)), skimDesc (g sc.toNat) (g (sc.toNat + 1)) with
  | some key, some pd, some sd =>
    if d.toNat % 2 = 0 ∧ sc.toNat % 2 = 0 ∧ sd.cpl ≤ pd.m ∧ pd.block + sd.iblk ≤ pd.bcount then
      some { key := key, d := pd, store := sd }
    else none
  | _, _, _ => none

/-- What R267 needs of a skim word. With a partial mask the operands are left to the word itself, which takes ILLEGAL_CONVERGENCE before
them (R198); the checks of fields and of pending registers come first all the same (R267). -/
def skimInfo (acc : Accepts) (fs : BitVec 1) (k d sc : BitVec 5) (more : Bool) (writes : List RegName) (c : GCtx) : WordInfo :=
  { plainInfo with
    accepts := acc, fs := some fs, legal := more && (decide (c.act ≠ allLanes) || (skimArgs c k d sc).isSome)
    reads := [.g k.toNat, .g d.toNat, .g (d.toNat + 1), .g sc.toNat, .g (sc.toNat + 1)], writes := writes }

/-- The scratchpad accesses that read a skim operation's input from a plane tile, in ascending plane and block order (R106). -/
def tileReads (a : SkimArgs) : List (Nat × Nat) :=
  if a.d.loc then
    (List.range (a.store.cpl + 2)).flatMap fun p =>
      (List.range a.store.iblk).map fun b => (planeAddr a.d p (a.d.block + b), planeLen p)
  else []

/-- Whether a skim operation reads its input, as far as its issue can tell: a SKIMPUT does, and a SKIMCHK where the header it finds
matches and is near (R199; log 90). -/
def readsInput (s : State) (tm : Team) (a : SkimArgs) (kind : EngineKind) : Bool :=
  skimOn s tm && (match kind with
    | .skimchk _ key d st step _ dist =>
      (peekHeader s (asidOf s tm) st key).any fun h => h.matches key d.m && h.near step dist
    | _ => true)

/-- A skim word's stall or trap on the tags of an input plane tile that it reads (R106): none where it may issue. The stall comes first,
and the trap's FLTADDR is the first access of a FAULTED line (log 90). -/
def tileStop (s : State) (tm : Team) (a : SkimArgs) (kind : EngineKind) : Option (List Nat ⊕ Nat) :=
  if !readsInput s tm a kind then none
  else
    let rs := tileReads a
    let lines := rs.foldl (fun m x => (linesOf x.1 x.2).foldl setAdd m) []
    match lines.filter fun l => fillTag tm l == tagEmpty || fillTag tm l == tagPending with
    | [] =>
      (rs.find? fun x => (linesOf x.1 x.2).any fun l => fillTag tm l == tagFaulted).map fun x => .inr x.1
    | l :: ls => some (.inl (l :: ls))

/-- Issues a skim operation (R198). -/
def issueSkim (fs : BitVec 1) (k d sc : BitVec 5) (kind : SkimArgs → EngineKind) (writes : List RegName) (c : GCtx) (s : State) : GRes :=
  if c.act ≠ allLanes then .trap .illegalConvergence c.act 0
  else match skimArgs c k d sc with
    | none => .trap .illegalOperand c.act 0
    | some a =>
      if c.tm.lines < a.key.oline + a.store.olines then .trapAcc s .scratchBounds allLanes (BitVec.ofNat 64 (128 * a.key.oline)) .cp
      else if !planesFit (scratchSize c.tm) a.d 0 (a.store.cpl + 1) a.store.iblk then
        .trapAcc s .scratchBounds allLanes (BitVec.ofNat 64 a.d.ebase) .cp
      else match tileStop s c.tm a (kind a) with
        | some (.inl ls) => .wait (.fill ls) s
        | some (.inr off) => .trapAcc s .poison allLanes (BitVec.ofNat 64 off) .cp
        | none =>
          let s := modGang s c.t c.g fun gg => setPending gg writes (flagFor c fs)
          .done (issueOp (gangIssuer c fs) (kind a) [] s)

/-- The step distance of the team's launch (R198). -/
def stepDistance (s : State) (tm : Team) : Nat := launchField s tm 0 (·.sdist)

/-- SKIMCHK (R198, R363). -/
def execSkimchk (f : BitVec 1) (p : BitVec 5) (k : BitVec 5) (d : BitVec 5) (sc : BitVec 5) (s : State) : Out :=
  gangOnly (.skimchk f p k d sc)
    (fun c => skimInfo ⟨false, false, false, false, true⟩ f k d sc
      (decide (p.toNat < 24) && (planeHint c.cl.hints).all fun k => decide (k ≤ 16)) [.p p.toNat] c)
    (fun c s => issueSkim f k d sc
      (fun a => .skimchk p.toNat a.key a.d a.store c.tm.stepnoSeen c.tm.skimtauSeen (stepDistance s c.tm)) [.p p.toNat] c s) s

/-- SKIMPUT (R198, R363). -/
def execSkimput (f : BitVec 1) (k : BitVec 5) (d : BitVec 5) (sc : BitVec 5) (s : State) : Out :=
  gangOnly (.skimput f k d sc) (skimInfo acceptsNone f k d sc true [])
    (fun c s => issueSkim f k d sc (fun a => .skimput a.key a.d a.store c.tm.stepnoSeen) [] c s) s

/-- Whether a skim operation of a gang is in progress. -/
def skimBusy (tm : Team) (g : Nat) : Bool :=
  tm.eops.any fun o => o.who == .gang g && (match o.kind with
    | .skimchk .. => true
    | .skimput .. => true
    | _ => false)

/-- SKIMRD and SKIMRD.CLR (R203, R204, R363). -/
def skimrdBody (d cnt : Nat) (clear : Bool) (c : GCtx) (s : State) : GRes :=
  if c.act = 0 then .done s
  else if skimBusy c.tm c.g then .wait .interlock s
  else if !skimOn s c.tm then .done (modGang s c.t c.g fun gg => setG gg d 0)
  else
    let s := modGang s c.t c.g fun gg => setG gg d (smGet 0 c.tm.skimCnt cnt)
    .done (if clear then modTeam s c.t fun tm => { tm with skimCnt := smSet 0 tm.skimCnt cnt 0 } else s)

/-- SKIMRD (R203). -/
def execSkimrd (d : BitVec 5) (c : BitVec 2) (s : State) : Out :=
  gangOnly (.skimrd d c) (fun _ => { plainInfo with writes := [.g d.toNat] }) (skimrdBody d.toNat c.toNat false) s
/-- SKIMRD.CLR (R203). -/
def execSkimrdClr (d : BitVec 5) (c : BitVec 2) (s : State) : Out :=
  gangOnly (.skimrdClr d c) (fun _ => { plainInfo with writes := [.g d.toNat] }) (skimrdBody d.toNat c.toNat true) s

/-! ### The operations -/

/-- The input's planes 0 to h + 1 for the blocks of a skim block: a list of bytes for each plane (R199, R200). -/
def skimInput (e : EngCtx) (d : PlaneDesc) (st : SkimDesc) (s : State) : State × ReadOut :=
  (skimSpans d st).foldl (fun x p =>
    let (s, r) := readSide e d.loc none p.1 p.2 x.1
    (s, joinReads x.2 r)) (s, .got [] [])

/-- The bytes of plane p of some blocks in what skimInput read: plane 0 holds n bytes, each other plane 8 n. -/
def planeRun (n p : Nat) (bs : List Byte) : List Byte :=
  if p = 0 then bs.take n else (bs.drop (n + (p - 1) * (8 * n))).take (8 * n)

/-- The element of lane l of block b with h bits held, midpoint fill (R199). -/
def skimElem (n m h : Nat) (bs : List Byte) (b l : Nat) : FVal :=
  let bit (p : Nat) : Bool := ((listAt (planeRun n p bs) (8 * b + l / 8)).getD 0).getLsbD (l % 8)
  decodeBp ((listAt (planeRun n 0 bs) b).getD 0).toNat (bit 1) ((List.range h).map fun k => bit (k + 2)) m true

/-- The stored copy in the layout of skimInput: exponents, then the planes' runs (R196). -/
def storedPlanes (d : SkimDesc) (slot : List Byte) : List Byte :=
  (slot.drop 128).take d.iblk ++ (List.range (d.cpl + 1)).flatMap fun q =>
    (slot.drop (128 * (2 + q * skimP d))).take (8 * d.iblk)

/-- |x - y| rounded to FP32 (R199). -/
def skimDiff (x y : FVal) : Word := toF32 .rn (match addF .rn x (negF y) with
  | .fin _ m e => .fin false m e
  | v => v)

/-- The largest difference of two copies; none where an element is not finite (R199). -/
def skimMetric (n m h : Nat) (a b : List Byte) : Option Word :=
  let xs := (List.range n).flatMap fun k => laneIdx.map fun l => (skimElem n m h a k l, skimElem n m h b k l)
  if xs.any fun x => !isFinF x.1 || !isFinF x.2 then none
  else some (xs.foldl (fun mx x => let w := skimDiff x.1 x.2; if cmpF (f32 mx) (f32 w) < 0 then w else mx) 0)

/-- mx <= SKIMTAU (R199). -/
def withinTau (mx tau : Word) : Bool := !isNanF (f32 tau) && decide (cmpF (f32 mx) (f32 tau) ≤ 0)

/-- A header line (R196). -/
def headerBytes (h : SkimHeader) : List Byte :=
  bytesOf 8 (h.layer + h.blk * 2 ^ 16 + (if h.valid then 2 ^ 40 else 0) + h.sm * 2 ^ 41) ++ bytesOf 8 h.tag ++ List.replicate 112 0

/-- Adds one to a skim counter (R203). -/
def bumpSkim (c : Nat) (tm : Team) : Team := { tm with skimCnt := smSet 0 tm.skimCnt c (smGet 0 tm.skimCnt c + 1) }

/-- The values of bytes that were all read. -/
def goodBytes (bs : List EByte) : List Byte := bs.map fun b => b.value.getD 0

/-- The first report that is not of poison. -/
def hardFault (rs : List Report) : Option Report := rs.find? fun r => r.cause != .poison

/-- Whether a read met poison or a FAULTED line. -/
def metPoison (bs : List EByte) (rs : List Report) : Bool := !rs.isEmpty || bs.any fun b => !b.good

/-- The core's tag array takes up the header that an operation has used (R201). -/
def useTag (s : State) (core asid : Nat) (st : SkimDesc) (key : SkimKey) : State :=
  match slotHome s asid st key with
  | some pa =>
    if Config.devLo ≤ pa then s
    else
      let rest := s.skimTags.filter fun x => !(x.core == core && x.asid == asid && x.addr == pa)
      { s with
        skimTags := keepFirst (·.core == core) Config.skimEntries
          ({ core := core, asid := asid, addr := pa, w0 := homeWord s pa, w1 := homeWord s (pa + 8) } :: rest) }
  | none => s

/-- The gang of a stream. -/
def gangIndex : StreamName → Nat
  | .gang g => g
  | .hawk => 0

/-- Ends a SKIMCHK that has not hit: pd in all lanes, counters, and a report (R199, R202). -/
def endSkimchk (t g : Nat) (op : EngineOp) (pd : Nat) (counters : List Nat) (r : Option Report) (s : State) : State :=
  let s := modGang s t g fun gg => setP gg pd allLanes 0
  let s := modTeam s t fun tm => counters.foldl (fun tm c => bumpSkim c tm) tm
  endOp t op.id (putOp s t (addReports op r.toList))

/-- A hit (R199): the output lines become PENDING and pd is true; the lines land afterwards. What another gang reads of counter 0 includes
the hit from the operation's completion on (R203), and counter 0 rises then. -/
def hitSkim (t g : Nat) (op : EngineOp) (pd : Nat) (lines : List Nat) (s : State) : State :=
  let s := modTeam s t fun tm => lines.foldl (fun tm l => setFill tm l tagPending) tm
  let s := modGang s t g fun gg => setP gg pd allLanes allLanes
  putOp s t { op with pending := lines }

/-- A fault of an input read: its first report, or POISON at the first access of a plane tile that met a FAULTED line (R202, log 90). -/
def inputFault (d : PlaneDesc) (st : SkimDesc) (bs : List EByte) (rs : List Report) : Option Report :=
  match rs.head? with
  | some r => some r
  | none =>
    ((((skimSpans d st).flatMap fun x => (List.range x.2).map (x.1 + ·)).zip bs).find? fun x => !x.2.good).map fun x =>
      engineFault .cp .poison x.1

/-- The rest of SKIMCHK's decision when the key matches and the step is near (R199, R202). R202 gives no order between a poisoned coarse
sector, a miss that is not reported, and a fault of an input byte, which is: the fault stands (DESIGN CHOICE, log 99). -/
def compareSkim (t g : Nat) (e : EngCtx) (op : EngineOp) (pd : Nat) (key : SkimKey) (d : PlaneDesc) (st : SkimDesc) (tau : Word)
    (s : State) : State :=
  let base := skimSlotAddr st key
  match readSpan e none base (skimOutput st) s with
  | (s, .held) => s
  | (s, .got cs crs) =>
    match skimInput e d st s with
    | (s, .held) => s
    | (s, .got bs rs) =>
      match hardFault crs, inputFault d st bs rs with
      | some r, _ => endSkimchk t g op pd [] (some r) s
      | none, some r => endSkimchk t g op pd [] (some r) s
      | none, none =>
        if metPoison cs crs then endSkimchk t g op pd [1] none s
        else
          let mx := skimMetric st.iblk d.m st.cpl (goodBytes bs) (storedPlanes st (goodBytes cs))
          if !(mx.any fun w => withinTau w tau) then endSkimchk t g op pd [1] none s
          else
            let hit := hitSkim t g op pd ((List.range st.olines).map (· + key.oline))
            match readSpan e none (base + skimOutput st) (128 * st.olines) s with
            | (s, .held) => hit s
            | (s, .got _ ors) =>
              match hardFault ors with
              | some r => endSkimchk t g op pd [] (some r) s
              | none => hit s

/-- The header of the slot that a skim operation names. -/
def slotOf (s : State) (tm : Team) (op : EngineOp) : Option Nat :=
  match op.kind with
  | .skimchk _ key _ st _ _ _ => slotHome s (asidOf s tm) st key
  | .skimput key _ st _ => slotHome s (asidOf s tm) st key
  | _ => none

/-- Whether a skim operation has begun to read or write through a peer window or is under way otherwise, and has not ended. -/
def skimBegun (s : State) (tm : Team) (op : EngineOp) : Bool :=
  op.pending != [] || op.sent != [] || s.peers.any fun r => r.lid == tm.lid && r.tid == tm.tid && r.op == some op.id

/-- Whether an operation of the same slot, which must take effect whole before or after this one, is under way (R201): any for a SKIMPUT,
and a SKIMPUT for a SKIMCHK; or SVALID of the slot has still to be cleared (R202). -/
def slotBusy (s : State) (tm : Team) (op : EngineOp) : Bool :=
  let isPut (o : EngineOp) : Bool := match o.kind with
    | .skimput .. => true
    | _ => false
  (slotOf s tm op).any fun pa =>
    (s.teams.any fun x => x.eops.any fun o =>
      (x.lid != tm.lid || x.tid != tm.tid || o.id != op.id) && (isPut op || isPut o) && skimBegun s x o && slotOf s x o == some pa) ||
    s.slotClears.any fun r => r.pa == pa + 5

/-- SKIMCHK's decision (R199, R202, R204). -/
def runSkimchk (t g : Nat) (e : EngCtx) (op : EngineOp) (pd : Nat) (key : SkimKey) (d : PlaneDesc) (st : SkimDesc) (step tau : Word)
    (dist : Nat) (s : State) : State :=
  if !skimOn s e.tm then endSkimchk t g op pd [] none s
  else if slotBusy s e.tm op then s
  else match readSpan e none (skimSlotAddr st key) 128 s with
    | (s, .held) => s
    | (s, .got bs rs) =>
      match hardFault rs with
      | some r => endSkimchk t g op pd [] (some r) s
      | none =>
        if metPoison bs rs then endSkimchk t g op pd [1] none s
        else
          let s := useTag s e.tm.core e.asid st key
          let h := readHeader (goodBytes bs)
          if !h.matches key d.m then endSkimchk t g op pd [1] none s
          else if h.near step dist then compareSkim t g e op pd key d st tau s
          else endSkimchk t g op pd [1, 2] none s

/-- A hit whose output lines meet a store access fault after the decision is none: pd becomes false, before the flag lets it be read
(R202, R261), and no counter changes. -/
def undoHit (t g pd : Nat) (s : State) : State := modGang s t g fun gg => setP gg pd allLanes 0

/-- Lands one output line of a hit, where its access does not wait (R105, R199, R202): a poisoned one becomes FAULTED; any other fault
ends the copy and the hit. -/
def landSkimLine (t id line : Nat) (s : State) : State :=
  match (listAt s.teams t).bind fun tm => (engineOp tm id).map fun op => (tm, op) with
  | none => s
  | some (tm, op) =>
    match op.kind with
    | .skimchk pd key _ st _ _ _ =>
      if !op.pending.contains line ∨ unitBlocked s tm op ∨ replayWaits tm op (fun x => decide (x ≤ line)) then s
      else
        let e := engCtx s t tm op (line + 1)
        let op := tryPart (line + 1) op
        match readSpan e none (skimSlotAddr st key + skimOutput st + 128 * (line - key.oline)) 128 (putOp s t op) with
        | (s, .held) => s
        | (s, .got bs rs) =>
          match hardFault rs with
          | some r =>
            putOp (modTeam (undoHit t (gangIndex op.who) pd s) t (landLines (fun _ => true) op.pending)) t
              { addReports op [r] with pending := [], bad := [line] }
          | none =>
            let s := modTeam s t fun tm => setScratch tm (placed (128 * line) bs)
            putOp (modTeam s t (landLines (fun _ => metPoison bs rs) [line])) t
              { addReports op rs with pending := op.pending.filter (· ≠ line) }
    | _ => s

/-- Lands the output lines of a hit in order, and ends the operation with the last, which counts the hit where it stands (R199, R202). -/
def landSkim (t id : Nat) (lines : List Nat) (s : State) : State :=
  let s := lines.foldl (fun s l => landSkimLine t id l s) s
  match (listAt s.teams t).bind fun tm => engineOp tm id with
  | some op => if op.pending.isEmpty then endOp t id (if op.bad.isEmpty then modTeam s t (bumpSkim 0) else s) else s
  | none => s

/-- Takes a SKIMPUT's writes on, over fuel: those queued go out as far as the ports have room (R245), the next phase follows once they
have all been acknowledged (R200), and after the last the header stands. Where one has failed, nothing follows it (R202). -/
def drainSkimput (t : Nat) (e : EngCtx) : Nat → EngineOp → State → State
  | 0, _, s => s
  | fuel + 1, op, s =>
    match sendQueued (engSender e) op.queued (s, []) with
    | ((s, rs), rest) =>
      let op := { addReports op rs with queued := rest }
      let s := putOp s t op
      if rs ≠ [] ∨ (writesAnswered s e.tm op.id ∧ writeFailures s e.tm op.id ≠ []) then endOp t op.id s
      else if rest ≠ [] ∨ !writesAnswered s e.tm op.id then s
      else match op.phases with
        | q :: qs => drainSkimput t e fuel { op with queued := q, phases := qs } s
        | [] => endOp t op.id (storeOut e { noOut with mem := op.lastly } (fun _ => false) s)

/-- A SKIMPUT has begun to take effect, with these phases of peer writes still to send, these bytes to write last, and a report, if any. -/
def endSkimput (t : Nat) (e : EngCtx) (op : EngineOp) (rs : List Report) (phases : List (List PeerBurst)) (last : List (Nat × Byte))
    (s : State) : State :=
  drainSkimput t e 4 { addReports op rs with sent := [0], phases := phases.filter (· ≠ []), lastly := last } s

/-- Writes what a skim operation has prepared to this module's memory, and answers what it has to send to peers: its writes are no
escaped effect (R204). -/
def commitSkim (e : EngCtx) (o : EngOut) (s : State) : State × List PeerBurst :=
  let rs := engineBursts s o.peer
  (storeOut e o (fun _ => false) (useFiller s rs), rs)

/-- A coarse-copy run of one plane, filled with zeros to whole lines (R200). -/
def coarseRun (st : SkimDesc) (p : Nat) (bs : List Byte) : List Byte :=
  let run := planeRun st.iblk p bs
  run ++ List.replicate ((if p = 0 then 128 else 128 * skimP st) - run.length) 0

/-- The output lines as SKIMPUT writes them: a FAULTED line as poison (R200). -/
def outputBytes (tm : Team) (key : SkimKey) (st : SkimDesc) : List EByte :=
  (List.range (128 * st.olines)).map fun k =>
    let a := 128 * key.oline + k
    if fillTag tm (a / 128) == tagFaulted then .poisoned (scratchByte tm a) else .val (scratchByte tm a)

/-- SKIMPUT after its input has been read (R200, R202): SVALID is cleared, the lines are written, then the header. What stands in this
module is written at once where no write to a peer has to come before it. -/
def storeSkim (t : Nat) (e : EngCtx) (op : EngineOp) (key : SkimKey) (d : PlaneDesc) (st : SkimDesc) (step : Word) (input : List Byte)
    (tm : Team) (s : State) : State :=
  let base := skimSlotAddr st key
  match readSpan e none base 128 s with
  | (s, .held) => s
  | (s, .got bs rs) =>
    let h := readHeader (goodBytes bs)
    let evict := !metPoison bs rs && h.valid && (h.layer != key.layer || h.blk != key.blk)
    match writeSide e false none (base + 5) [.val ((goodBytes bs).getD 5 0 &&& 0xFE)] (s, noOut) with
    | (s, clear) =>
      if clear.held then s
      else match hardFault rs, clear.reports.head? with
        | some r, _ =>
          let (s, rest) := commitSkim e clear s
          endSkimput t e op [r] [rest] [] s
        | none, some r => endSkimput t e op [r] [] [] s
        | none, none =>
          let evicts (s : State) : State := if evict then modTeam s t (bumpSkim 3) else s
          let hdr := headerBytes { layer := key.layer, blk := key.blk, valid := true, sm := d.m, tag := step.toNat }
          let coarse := (List.range (st.cpl + 2)).flatMap fun p => coarseRun st p input
          match writeSide e false none (base + 128) (coarse.map EByte.val ++ outputBytes tm key st) (s, noOut) with
          | (s, body) =>
            match writeSide e false none base (hdr.map EByte.val) (s, noOut) with
            | (s, head) =>
              if body.held ∨ head.held then s
              else
                let (s, first) := commitSkim e clear (evicts s)
                if (body.reports ++ head.reports) ≠ [] then endSkimput t e op (body.reports ++ head.reports) [first] [] s
                else
                  let (s, second) := commitSkim e body s
                  if first.isEmpty ∧ second.isEmpty then
                    let (s, third) := commitSkim e head s
                    endSkimput t e op [] [third] [] (useTag s e.tm.core e.asid st key)
                  else
                    let third := engineBursts s head.peer
                    endSkimput t e op [] [first, second, third] head.mem (useFiller s third)

/-- SKIMPUT (R200 to R202, R204): its effect begins once, where nothing that it reads or writes waits. -/
def runSkimput (t : Nat) (e : EngCtx) (op : EngineOp) (key : SkimKey) (d : PlaneDesc) (st : SkimDesc) (step : Word) (s : State) : State :=
  if !skimOn s e.tm then endSkimput t e op [] [] [] s
  else match listAt s.teams t with
    | none => s
    | some tm =>
      let ls := (List.range st.olines).map (· + key.oline)
      if (ls.any fun l => fillTag tm l == tagEmpty || fillTag tm l == tagPending) ∨ slotBusy s tm op then s
      else match skimInput e d st s with
        | (s, .held) => s
        | (s, .got bs rs) =>
          match inputFault d st bs rs with
          | some r => endSkimput t e op [r] [] [] s
          | none => storeSkim t e op key d st step (goodBytes bs) tm s

/-- Takes a skim operation on, where none of its accesses waits: a SKIMPUT whole, after which its writes to peers alone are left, a
SKIMCHK to its decision, and, once it has hit, to the end of its output lines (R199 to R201). -/
def finishSkim (t id : Nat) (s : State) : State :=
  match (listAt s.teams t).bind fun tm => (engineOp tm id).map fun op => (tm, op) with
  | none => s
  | some (tm, op) =>
    let e := engCtx s t tm op
    let whole := tryPart 0 op
    let go (k : State → State) : State := if replayWaits tm op (fun _ => false) then s else k (putOp s t whole)
    if op.sent = [] ∧ unitBlocked s tm op then s
    else match op.kind with
    | .skimchk pd key d st step tau dist =>
      if op.pending.isEmpty then go (runSkimchk t (gangIndex op.who) e whole pd key d st step tau dist)
      else landSkim t id op.pending s
    | .skimput key d st step => if op.sent = [] then go (runSkimput t e whole key d st step) else drainSkimput t e 4 op s
    | _ => s

end Sys2Proof.Machine
end

