-- ==== Sys2Proof/Machine/TeamEvents.lean ====
section
/-!
DEFINITION. The life of a team (02 R43): entry to RUNNING (R44, R45, 09 R167), the saving and the reload of a context (12 R212, R214,
R216), retirement (17 R304), the completion of a launch (12 R208), and the completion of engine operations and matrix instructions
(09 R159, R173, 06 R105, 10 R182, R192).
-/
namespace Sys2Proof.Machine

/-! ### DECLARED_INPUTS_DONE (R43, R44, R167) -/

/-- Whether an operation is a declared input. -/
def isInput (op : EngineOp) : Bool :=
  match op.kind with
  | .input _ => true
  | _ => false

/-- The team's gangs and hawk begin (R45). -/
def startRunning (s : State) (t : Nat) : State :=
  modTeam s t fun tm => { tm with st := .running, gangs := tm.gangs.map fun gg => { gg with lastIssue := s.cycle } }

/-- The declared inputs of a team have all completed: their earliest report goes to gang 0 (R167). -/
def finishInputs (s : State) (t : Nat) (ids : List Nat) : State :=
  let s := ids.foldl (fun s id => endOp t id s) s
  let s := startRunning s t
  let s := modTeam s t fun tm =>
    let r := (tm.eops.filter isInput).findSome? (·.report)
    { tm with eops := tm.eops.filter fun op => !isInput op, entered := s.stamp
              gangs := listModify (fun gg => { gg with inputReport := r }) tm.gangs 0 }
  honour { s with stamp := s.stamp + 1 } t

/-- DECLARED_INPUTS_DONE (R43, R167): inputs that were held are issued, and a step declaration whose read was held is read (R215); the team
runs when every input has completed. -/
def execDeclaredInputsDone (lid tid : Nat) (s : State) : Out :=
  .next (
    let s := readDeclaration s lid
    match teamIdx s lid tid with
    | none => s
    | some t =>
      let s := issueInputs t 255 s
      match listAt s.teams t with
      | none => s
      | some tm =>
        let ops := tm.eops.filter isInput
        if tm.st = .preload ∧ !(launchOf s lid).any stepUnread ∧ tm.inputsLeft = 0 ∧ ops.all (fun op => allLanded op && writesAnswered s tm op.id) then
          finishInputs s t (ops.map (·.id))
        else s)

/-! ### CONTEXT_SAVE (R212, R214, R216) -/

/-- A stream of the team is held by a range operation, which completes before the save (R214). -/
def heldByRange (tm : Team) : Bool :=
  holdsRange tm.hawk || tm.gangs.any fun gg => (liveFrags gg).any fun x => match x.2.st with
    | .waiting (.rangeOp _) => true
    | _ => false

/-- The state of a fragment in a saved context: it has no pool entry, and an instruction that was tried again is issued anew. -/
def savedState : FragState → FragState
  | .issuing | .noEntry => .noEntry
  | .waiting w => if retried w || w == .stepBoundary then .noEntry else .waiting w
  | .barrier cl => .barrier cl

/-- A fragment in a saved context (R59). Its wait for a pool entry counts as begun when the context was saved, also where it wakes or is
swapped in later, and R59 does not say from when (DESIGN CHOICE, log 102). -/
def savedFrag (stamp : Nat) (fr : Frag) : Frag := { fr with st := savedState fr.st, pool := .none, buf := [], waitStamp := stamp }

/-- The scratchpad lines that a step-boundary save keeps. -/
def keptLine (sd : StepDecl) (line : Nat) : Bool := decide (sd.splo ≤ line) && decide (line < sd.splo + sd.spn)

/-- A gang as a step-boundary save leaves it: undeclared registers, o and y read zero, flag counts are zero, and nothing is pending
(R216, R261). The whole tag of an undeclared register is dropped, FILL with it: R98 says only that VALID is clear (log 89). -/
def compactGang (sd : StepDecl) (gg : Gang) : Gang :=
  { gg with
    v := gg.v.filter fun x => sd.vlive.getLsbD x.1, tags := gg.tags.filter fun x => sd.vlive.getLsbD x.1, o := []
    y0 := zeroLanes, y1 := zeroLanes, flags := [], pend := [], marked := false
    frags := gg.frags.map (Option.map fun fr => { fr with count := 0, yPending := 0 }) }

/-- A team as a step-boundary save leaves it (R216). -/
def compactTeam (sd : StepDecl) (tm : Team) : Team :=
  { tm with
    gangs := tm.gangs.map (compactGang sd)
    hawk := { tm.hawk with flags := [] }
    acc := tm.acc.filter fun x => sd.alive.getLsbD (x.1 / 8192)
    badRows := tm.badRows.filter fun x => sd.alive.getLsbD x.1
    scratch := tm.scratch.filter fun x => keptLine sd (x.1 / 128)
    tags := tm.tags.filter fun x => keptLine sd x.1
    marks := tm.marks.filter fun x => keptLine sd x.1 }

/-- What a save writes (R212, R216). -/
def savedParts (tm : Team) (sd : Option StepDecl) : Saved :=
  match tm.swapKind, sd with
  | .step, some sd => savedStep sd
  | _, _ => savedFull tm

/-- Writes the image of a context into its slot (log 10). -/
def writeContext (s : State) (l : Launch) (tm : Team) : State :=
  let image := (contextImage (Config.contextByte s.freeCtr) tm (savedParts tm l.stepDecl)).take (slotSize l.record)
  { unitStore s (contextAddr l.record (tm.ctxSlot.getD 0)) image with freeCtr := s.freeCtr + 1 }

/-- The context as it is saved. -/
def savedTeam (stamp : Nat) (sd : Option StepDecl) (tm : Team) : Team :=
  let tm := match tm.swapKind, sd with
    | .step, some sd => compactTeam sd tm
    | _, _ => tm
  { tm with
    st := .swapped, slots := [], timer := 0
    gangs := tm.gangs.map fun gg => { gg with frags := gg.frags.map (Option.map (savedFrag stamp)) } }

/-- A skim operation that has issued completes before its team is saved (R204). -/
def skimOut (tm : Team) : Bool :=
  tm.eops.any fun op => match op.kind with
    | .skimchk .. | .skimput .. => true
    | _ => false

/-- CONTEXT_SAVE (R212, R214, R216): the context is written as a module-scope release, and the slots are freed. -/
def execContextSave (lid tid : Nat) (s : State) : Out :=
  .next (match teamIdx s lid tid, launchOf s lid with
    | some t, some l =>
      match listAt s.teams t with
      | none => s
      | some tm =>
        if tm.st ≠ .swapout ∨ tm.loads ≠ [] ∨ skimOut tm ∨ heldByRange tm then s
        else
          let s := writeContext (releaseTeam s t) l tm
          let s := modTeam s t (savedTeam s.cycle l.stepDecl)
          if tm.swapKind = .swap then stampReady s t
          else { modTeam s t (fun tm => { tm with stamp := s.stamp }) with stamp := s.stamp + 1 }
    | _, _ => s)

/-! ### SWAPIN_COMPLETE -/

/-- A drain is copying the slot of a saved team (R235). -/
def drainHolds (s : State) (tm : Team) : Bool :=
  s.latched.any fun x => x.taken.any fun y => y.2.1.any fun sec =>
    sec.kind == 7 && sec.inst == tm.tid && sec.data.take 8 == bytesOf 8 tm.lid

/-- SWAPIN_COMPLETE (R43, R212, R235). -/
def execSwapinComplete (lid tid : Nat) (s : State) : Out :=
  .next (match teamIdx s lid tid with
    | none => s
    | some t =>
      match listAt s.teams t with
      | none => s
      | some tm =>
        if tm.st ≠ .swapin ∨ drainHolds s tm then s
        else honour (modTeam (startRunning s t) t fun tm => { tm with ctxSlot := none, swapKind := .swap }) t)

/-! ### TEAM_RETIRE (R43, R304) -/

/-- The causes of the reports that a retiring team has not delivered, in the order of R304. -/
def undelivered (tm : Team) : List Cause :=
  (tm.matrixReport.map fun r => r.2.2.cause).toList ++ (tm.peerReport.map fun r => r.2.cause).toList ++
  (tm.gangs.flatMap fun gg => gg.reports.map fun x => x.2.cause) ++ tm.hawk.reports.map fun x => x.2.cause

/-- Everything of a retiring team has drained (R43). -/
def retireReady (s : State) (tm : Team) : Bool :=
  tm.st == .retiring && tm.eops.all inertOp && tm.mops.isEmpty && tm.loads.isEmpty && tm.join == 0 &&
  !(s.peers.any fun r => r.lid == tm.lid && r.tid == tm.tid)

/-- Waits that the retirement of a child satisfies (R34). -/
def childWait : Wait → Bool
  | .joinw | .spawn => true
  | _ => false

/-- A child's retirement lowers its parent's join counter (R39). -/
def lowerJoin (s : State) (lid : Nat) (parent : Option Nat) : State :=
  match parent with
  | none => s
  | some p =>
    match teamIdx s lid p with
    | none => s
    | some t => wakeTeam childWait lid p (modTeam s t fun tm => { tm with join := tm.join - 1 })

/-- TEAM_RETIRE (R43, R304): an undelivered report is escalated. -/
def execTeamRetire (lid tid : Nat) (s : State) : Out :=
  .next (match teamIdx s lid tid with
    | none => s
    | some t =>
      match listAt s.teams t with
      | none => s
      | some tm =>
        if !retireReady s tm then s
        else
          let s := releaseTeam s t
          match undelivered tm with
          | c :: _ => escalate s lid (causeCode c) tid
          | [] => lowerJoin { s with teams := s.teams.filter fun x => !(x.lid == lid && x.tid == tid) } lid tm.parent)

/-! ### LAUNCH_COMPLETION (R208) -/

/-- The completion word (R208): FTEAM is 24 bits. -/
def doneWord (status cause team : Nat) : Nat := status + cause * 2 ^ 8 + team % 2 ^ 24 * 2 ^ 16

/-- Removes what the lookasides and skim tag arrays hold for an ASID, from each core on which no live launch of it has a team: its last
launch there has retired (R122, R252). -/
def forgetAsid (s : State) (asid : Nat) : State :=
  let stays (core : Nat) : Bool := s.teams.any fun tm => tm.core == core && resident tm && asidOf s tm == asid
  { s with look := s.look.filter fun e => e.asid != asid || stays e.core
           skimTags := s.skimTags.filter fun e => e.asid != asid || stays e.core }

/-- A launch's completion passes its status over the links to it (R208). -/
def passStatus (lid status : Nat) (l : Launch) : Launch :=
  { l with preds := l.preds.map fun p => if p.1 == lid && p.2.isNone then (p.1, some status) else p }

/-- A launch completes with a status. -/
def completeLaunch (s : State) (l : Launch) (status cause team : Nat) : State :=
  let s := leaveQueue (unitStore s l.record.done (bytesOf 8 (doneWord status cause team))) l.lid
  let s := { s with launches := (s.launches.filter fun x => x.lid != l.lid).map (passStatus l.lid status)
                    completed := (l.lid, status) :: s.completed.filter fun x => x.1 != l.lid }
  forgetAsid s l.record.asid

/-- LAUNCH_COMPLETION (R208, R210). -/
def execLaunchCompletion (lid : Nat) (s : State) : Out :=
  .next (match launchOf s lid with
    | none => s
    | some l =>
      let empty := !(s.teams.any fun tm => tm.lid == lid)
      if l.cancelled then (if empty then completeLaunch s l l.status l.fcause l.fteam else s)
      else if l.nextTid = 0 ∧ predFailed l then completeLaunch s l 2 0 0
      else if l.record.tcount ≤ l.nextTid ∧ empty then completeLaunch s l l.status 0 0
      else s)

/-! ### Engine operations and matrix instructions -/

/-- Whether an operation of a team in this state goes on: while the team runs or retires, a declared input in PRELOAD, and a skim
operation, which is a whole one, while the team's engines stop (R173, R214). -/
def mayProceed (st : TeamState) (op : EngineOp) : Bool :=
  match op.kind with
  | .input _ => st == .preload
  | .skimchk .. | .skimput .. => st == .running || st == .retiring || st == .swapout
  | _ => st == .running || st == .retiring

/-- An operation that may go on, with its team. -/
def proceeding (s : State) (lid tid op : Nat) : Option (Nat × Team × EngineOp) :=
  match teamIdx s lid tid with
  | none => none
  | some t =>
    match listAt s.teams t with
    | none => none
    | some tm =>
      match engineOp tm op with
      | none => none
      | some o => if mayProceed tm.st o then some (t, tm, o) else none

/-- Takes an operation to its end, as far as its accesses can be performed. -/
def finishOp (s : State) (t : Nat) (tm : Team) (o : EngineOp) : State :=
  match o.kind with
  | .copy _ | .pcopy .. | .input _ => finishMoves t o.id s
  | .gather d | .scatter d => finishElems t o.id d.count s
  | .mcast .. => finishMcast t o.id (cptOf s tm) (teamInCluster s tm) s
  | .skimchk .. | .skimput .. => finishSkim t o.id s

/-- ENGINE_OPERATION_COMPLETION (R159). -/
def execEngineOperationCompletion (lid tid op : Nat) (s : State) : Out :=
  .next (match proceeding s lid tid op with
    | none => s
    | some (t, tm, o) => honour (finishOp s t tm o) t)

/-- The part of an operation that a line number names (R173): a copy's 128-byte line, the elements of a gather or scatter whose data begin
in a 32-byte burst of scratchpad, or a line of a multicast's own slice. -/
def landPart (s : State) (t line : Nat) (o : EngineOp) : State :=
  match o.kind with
  | .copy _ | .pcopy .. | .input _ => landLine t o.id line s
  | .gather d | .scatter d => landElems t o.id (elemsOfBurst d line).contains s
  | .mcast .. =>
    match listAt s.teams t with
    | some tm => if o.flag.isSome then landSlice t o.id (cptOf s tm) (teamInCluster s tm) line s else s
    | none => s
  | .skimchk .. | .skimput .. => if o.pending.isEmpty then s else landSkim t o.id [line] s

/-- LINE_LANDED (R105, R173). -/
def execLineLanded (lid tid op line : Nat) (s : State) : Out :=
  .next (match proceeding s lid tid op with
    | none => s
    | some (t, _, o) => landPart s t line o)

/-- Steps that an instruction can have at most: the chunks of 65,536 block-table entries. -/
def stepLimit : Nat := 2 ^ 21

/-- MATRIX_INSTRUCTION_COMPLETION (R182, R192): the steps that are left are performed, where none of them waits. -/
def execMatrixInstructionCompletion (lid tid op : Nat) (s : State) : Out :=
  .next (match teamIdx s lid tid with
    | none => s
    | some t =>
      match listAt s.teams t with
      | none => s
      | some tm =>
        match tm.mops.find? fun m => m.id == op with
        | none => s
        | some m =>
          if (tm.st = .running ∨ tm.st = .retiring) ∧ mayStep tm m then
            match runSteps (raceMode s tm) stepLimit tm m with
            | some tm' => honour (modTeam s t fun _ => tm') t
            | none => s
          else s)

end Sys2Proof.Machine
end

