-- ==== Sys2Proof/Machine/Health.lean ====
section
/-!
DEFINITION. Losses of hardware, recovery and uncorrectable errors (13 R229 to R232, 12 R210, R219, 06 R105, R113, R115, 10 R193).
-/
namespace Sys2Proof.Machine

/-! ### Losses and recovery (R230, R231) -/

/-- A team takes an unrecoverable fault (R219, R229). -/
def unrecoverable (s : State) (lid tid code : Nat) : State :=
  match teamIdx s lid tid with
  | none => s
  | some t =>
    match listAt s.teams t with
    | none => s
    | some tm => killTeam (plumbEvent s tm code) t code

/-- A lost core's cache contents, lookaside, skim tags and tokens are gone (log 22). -/
def dropCore (s : State) (core : Nat) : State :=
  { s with l1 := s.l1.filter fun e => e.core != core, look := s.look.filter fun e => e.core != core
           skimTags := s.skimTags.filter fun e => e.core != core, tokHolder := s.tokHolder.filter fun x => x.2 != core }

/-- CORE_LOST (R219, R230, R231): the teams on the core are killed, and its cluster is in recovery. -/
def execCoreLost (core : Nat) (s : State) : Out :=
  .next (if core ≥ 192 ∨ !corePresent s core ∨ s.lostCores.contains core then s
    else
      let hit := s.teams.filter fun tm => resident tm && tm.core == core
      let s := { dropCore s core with lostCores := setAdd s.lostCores core, recovering := s.recovering ||| (1#24 <<< (core / 8)) }
      hit.foldl (fun s tm => unrecoverable s tm.lid tm.tid 0x12) s)

/-- One lost core when recovery ends: the spare stands in, or the identifier becomes absent (R231, R13). -/
def settleCore (s : State) (core : Nat) : State :=
  let cl := core / 8
  if s.sparesUsed.getLsbD cl then
    requestReplacement { s with coreMap := s.coreMap &&& ~~~(1#192 <<< core), lost := s.lost + 1 }
  else { s with sparesUsed := s.sparesUsed ||| (1#24 <<< cl), spare := true }

/-- A team that waits for a core of a core cluster which has too few left (R219). -/
def strandedTeam (s : State) (tm : Team) : Bool :=
  (tm.st == .swapped || tm.st == .queued) && decide (cptOf s tm > 1) &&
    tm.cluster.any fun cl => decide (clusterPresent s cl < cptOf s tm)

/-- The cause of a stranded team's escalation (R219): that of the fault for which it waits to be relaunched, or the loss of the core. -/
def strandedCause (tm : Team) : Nat := if tm.st = .queued ∧ 0 < tm.relaunches then tm.killCause else 0x12

/-- The launches that can place none of their remaining clusters complete with status 0x03 once their teams have retired (R210). -/
def markUnplaceable (s : State) : State :=
  (s.launches.filter fun l => !l.cancelled && decide (l.nextTid < l.record.tcount) &&
    !((List.range 24).any fun cl => decide (l.record.cpt ≤ clusterPresent s cl))).foldl
      (fun s l => modLaunch s l.lid fun l => { l with status := 3, nextTid := l.record.tcount }) s

/-- RECOVERY_END (R230, R231): the core map is up to date and the cluster's cores have been retested. Of several cores of a cluster that
were lost before it, the one with the lowest identifier takes an unused spare, and R231 does not say which (DESIGN CHOICE, log 22). -/
def execRecoveryEnd (cluster : Nat) (s : State) : Out :=
  .next (if cluster ≥ 24 ∨ !s.recovering.getLsbD cluster then s
    else
      let s := (s.lostCores.filter fun c => c / 8 == cluster).foldl settleCore s
      let s := { s with lostCores := s.lostCores.filter fun c => c / 8 != cluster
                        recovering := s.recovering &&& ~~~(1#24 <<< cluster) }
      let s := (s.teams.filter (strandedTeam s)).foldl (fun s tm =>
        if (teamBy s tm.lid tm.tid).isSome then escalate s tm.lid (strandedCause tm) tm.tid else s) s
      markUnplaceable s)

/-- STACK_REDUNDANCY_LOST (R231). -/
def execStackRedundancyLost (stack : BitVec 3) (s : State) : Out :=
  .next (if s.stackMap.getLsbD stack.toNat then requestReplacement { s with stackMap := s.stackMap &&& ~~~(1#8 <<< stack.toNat) } else s)

/-- LPDDR_REDUNDANCY_LOST (R231). -/
def execLpddrRedundancyLost (s : State) : Out := .next (if s.lpdeg then s else requestReplacement { s with lpdeg := true })

/-! ### Uncorrectable errors -/

/-- A sector or line has been poisoned or faulted by an uncorrectable error (R232). -/
def countError (s : State) : State := { s with uecount := s.uecount + 1 }

/-- A single-bit error in some array is read corrected and written back corrected: no value changes, and the count of
corrected soft errors rises (R113, R232). -/
def correctError (s : State) : State := { s with cecount := s.cecount + 1 }

/-- SCRATCHPAD_UNCORRECTABLE_ERROR (R105). -/
def execScratchpadUncorrectableError (lid tid line : Nat) (s : State) : Out :=
  .next (match teamIdx s lid tid with
    | none => s
    | some t =>
      if (listAt s.teams t).any fun tm => resident tm && decide (line < tm.lines) then
        countError (modTeam s t fun tm => setFill tm line tagFaulted)
      else s)

/-- DRAM_UNCORRECTABLE_ERROR (R113): the sector is poisoned in DRAM; a copy in the second-level cache is not. -/
def execDramUncorrectableError (sector : Nat) (s : State) : Out :=
  .next (if isFast (32 * sector) ∨ isCap (32 * sector) then countError (setPoison s sector true) else s)

/-- CACHE_UNCORRECTABLE_ERROR (R115): in a core's first-level cache, or in the second-level cache. -/
def execCacheUncorrectableError (core : Option Nat) (sector : Nat) (s : State) : Out :=
  .next (match core with
    | none =>
      match l2Find s sector with
      | some e => countError (l2Put s { e with poison := true })
      | none => s
    | some c =>
      match l1Find s c sector with
      | some e => countError (l1Put s { e with poison := true })
      | none => s)

/-- ACCUMULATOR_UNCORRECTABLE_ERROR (R193): the row is bad until it is rewritten whole. -/
def execAccumulatorUncorrectableError (lid tid tile row : Nat) (s : State) : Out :=
  .next (match teamIdx s lid tid with
    | none => s
    | some t => modTeam s t fun tm =>
      if resident tm && decide (tile < tm.acct) && decide (row < 64) && !tm.badRows.contains (tile, row) then
        { tm with badRows := tm.badRows ++ [(tile, row)] }
      else tm)

/-- A team that has a context. -/
def hasContext (tm : Team) : Bool := tm.st != .queued && tm.st != .preload

/-- REGISTER_UNCORRECTABLE_ERROR (R229, R193): the team is killed; an error that the sequencer meets in a v register which a matrix
instruction reads is that instruction's alone. The operand names the team by launch and identifier. -/
def execRegisterUncorrectableError (team : Nat × Nat) (op : Option Nat) (s : State) : Out :=
  .next (match (teamIdx s team.1 team.2).bind fun t => (listAt s.teams t).map fun tm => (t, tm) with
    | none => s
    | some (t, tm) =>
      match op with
      | none => if hasContext tm then killTeam s t 0 else s
      | some n =>
        match tm.mops.find? fun m => m.id == n with
        | none => s
        | some m =>
          if (tm.st ≠ .running ∧ tm.st ≠ .retiring) ∨ m.reads.isEmpty ∨ !mayStep tm m then s
          else
            let free (x : Nat) : Word := (Config.freeValue (s.freeCtr + x)).setWidth 32
            { modTeam s t (fun tm => failRegister tm m free) with freeCtr := s.freeCtr + 8192 })

end Sys2Proof.Machine
end

