-- ==== Sys2Proof/Machine/Hints.lean ====
section
/-!
DEFINITION. The hint words of major 0x1 and NOP (R265, R266, R317, R334, R374): a hint is kept with its clause until the next
non-hint word, which judges its placement and uses it.
-/
namespace Sys2Proof.Machine

/-- IMMX, immediate form (R266). -/
def execImmxImmediate (imm : BitVec 24) (s : State) : Out := hintBoth (.immxImmediate imm) s
/-- IMMX, operand form (R266, R316). -/
def execImmxOperand (e : BitVec 3) (sc : BitVec 1) (r : BitVec 2) (p : BitVec 5) (c : BitVec 8) (s : State) : Out :=
  hintBoth (.immxOperand e sc r p c) s
/-- XCACHE (R374). -/
def execXcache (p : BitVec 2) (s : State) : Out := hintBoth (.xcache p) s
/-- XSCOPE (R374). -/
def execXscope (q : BitVec 4) (u : BitVec 3) (sc : BitVec 3) (o : BitVec 2) (s : State) : Out := hintBoth (.xscope q u sc o) s
/-- XPLANE, of gangs alone (R374). -/
def execXplane (k : BitVec 5) (s : State) : Out := hintGang (.xplane k) s
/-- XNOP (R374). -/
def execXnop (s : State) : Out := hintBoth .xnop s
/-- MERGEAT, of gangs alone (R334). -/
def execMergeat (o : BitVec 25) (s : State) : Out := hintGang (.mergeat o) s

/-- NOP (R317): no effect. -/
def execNop (s : State) : Out :=
  bothWord .nop (fun _ => plainInfo) (fun _ s => .done s) (fun _ => plainHInfo) (fun _ s => .done s) s

end Sys2Proof.Machine
end

