-- ==== Sys2Proof/Machine/Integer.lean ====
section
/-!
DEFINITION. The integer words of major 0x2 and the integer VI words of major 0x4 (R279, R287, R289, R315, R330, R337, R355,
R362).
-/
namespace Sys2Proof.Machine

/-! ### Operations on 32-bit values -/

/-- An exact integer saturated to a signed 32-bit value, or modulo 2^32 (R315). -/
def narrow (sat : BitVec 1) (x : Int) : Word :=
  BitVec.ofInt 32 (if flag1 sat then satInt x (-(2 ^ 31)) (2 ^ 31 - 1) else x)

/-- IADD (R315). -/
def intAdd (sat : BitVec 1) (a b : Word) : Word := narrow sat (a.toInt + b.toInt)
/-- ISUB (R315). -/
def intSub (sat : BitVec 1) (a b : Word) : Word := narrow sat (a.toInt - b.toInt)
/-- IMULHI: floor(A × B ÷ 2^32), signed or unsigned (R315). -/
def intMulHi (u : BitVec 1) (a b : Word) : Word :=
  if flag1 u then BitVec.ofNat 32 (a.toNat * b.toNat / 2 ^ 32) else BitVec.ofInt 32 ((a.toInt * b.toInt) / (2 ^ 32 : Int))
/-- IMAD (R315). -/
def intMad (sat : BitVec 1) (a b d : Word) : Word := narrow sat (a.toInt * b.toInt + d.toInt)
/-- IMIN, signed or unsigned (R315). -/
def intMin (u : BitVec 1) (a b : Word) : Word := if (if flag1 u then a.ule b else a.sle b) then a else b
/-- IMAX, signed or unsigned (R315). -/
def intMax (u : BitVec 1) (a b : Word) : Word := if (if flag1 u then b.ule a else b.sle a) then a else b
/-- IABS (R315). -/
def intAbs (sat : BitVec 1) (a : Word) : Word := narrow sat a.toInt.natAbs
/-- SHL by b[5:0] (R362). -/
def shiftLeft (a b : Word) : Word := a <<< (b.toNat % 64)
/-- SHR by b[5:0] (R362). -/
def shiftRight (a b : Word) : Word := a >>> (b.toNat % 64)
/-- SHRA by b[5:0] (R362). -/
def shiftRightA (a b : Word) : Word := a.sshiftRight (b.toNat % 64)
/-- BFE (R287). -/
def fieldExtract (u : BitVec 1) (a b : Word) : Word :=
  let off := b.toNat % 32
  let wd := b.toNat / 2 ^ 8 % 32
  if wd = 0 then 0
  else
    let x := if flag1 u then a >>> off else a.sshiftRight off
    if flag1 u then BitVec.ofNat 32 (x.toNat % 2 ^ wd) else BitVec.ofInt 32 (sextN wd x.toNat)
/-- BFI (R287). -/
def fieldInsert (a b d : Word) : Word :=
  let off := b.toNat % 32
  let wd := b.toNat / 2 ^ 8 % 32
  let m : Word := BitVec.ofNat 32 (2 ^ wd - 1) <<< off
  (d &&& ~~~m) ||| ((a <<< off) &&& m)
/-- The indices of the set bits of a word. -/
def bitsSet (a : Word) : List Nat := (List.range 32).filter fun k => a.getLsbD k
/-- POPC (R289). -/
def popCount (a : Word) : Word := BitVec.ofNat 32 (bitsSet a).length
/-- CLZ (R289). -/
def leadingZeros (a : Word) : Word := if a = 0 then 32 else BitVec.ofNat 32 (31 - Nat.log2 a.toNat)
/-- BREV (R289). -/
def bitReverse (a : Word) : Word := a.reverse

/-! ### Major 0x2 -/

/-- IADD (R315). -/
def execIadd (m : BitVec 1) (d : BitVec 7) (a : BitVec 8) (b : BitVec 7) (s : State) : Out :=
  intWord (.iadd m d a b) d a b (intAdd m) s
/-- ISUB (R315). -/
def execIsub (m : BitVec 1) (d : BitVec 7) (a : BitVec 8) (b : BitVec 7) (s : State) : Out :=
  intWord (.isub m d a b) d a b (intSub m) s
/-- IMUL (R315). -/
def execImul (d : BitVec 7) (a : BitVec 8) (b : BitVec 7) (s : State) : Out :=
  intWord (.imul d a b) d a b (fun x y => x * y) s
/-- IMULHI (R315). -/
def execImulhi (m : BitVec 1) (d : BitVec 7) (a : BitVec 8) (b : BitVec 7) (s : State) : Out :=
  intWord (.imulhi m d a b) d a b (intMulHi m) s
/-- IMAD (R315). -/
def execImad (m : BitVec 1) (d : BitVec 7) (a : BitVec 8) (b : BitVec 7) (s : State) : Out :=
  intWord3 (.imad m d a b) d a b (intMad m) s
/-- IMIN (R315). -/
def execImin (m : BitVec 1) (d : BitVec 7) (a : BitVec 8) (b : BitVec 7) (s : State) : Out :=
  intWord (.imin m d a b) d a b (intMin m) s
/-- IMAX (R315). -/
def execImax (m : BitVec 1) (d : BitVec 7) (a : BitVec 8) (b : BitVec 7) (s : State) : Out :=
  intWord (.imax m d a b) d a b (intMax m) s
/-- IABS (R315). -/
def execIabs (m : BitVec 1) (d : BitVec 7) (a : BitVec 8) (s : State) : Out :=
  intWord1 (.iabs m d a) d a (intAbs m) s
/-- AND (R279). -/
def execAnd (d : BitVec 7) (a : BitVec 8) (b : BitVec 7) (s : State) : Out := intWord (.and d a b) d a b (fun x y => x &&& y) s
/-- OR (R279). -/
def execOr (d : BitVec 7) (a : BitVec 8) (b : BitVec 7) (s : State) : Out := intWord (.or d a b) d a b (fun x y => x ||| y) s
/-- XOR (R279). -/
def execXor (d : BitVec 7) (a : BitVec 8) (b : BitVec 7) (s : State) : Out := intWord (.xor d a b) d a b (fun x y => x ^^^ y) s
/-- SHL (R362). -/
def execShl (d : BitVec 7) (a : BitVec 8) (b : BitVec 7) (s : State) : Out := intWord (.shl d a b) d a b shiftLeft s
/-- SHR (R362). -/
def execShr (d : BitVec 7) (a : BitVec 8) (b : BitVec 7) (s : State) : Out := intWord (.shr d a b) d a b shiftRight s
/-- SHRA (R362). -/
def execShra (d : BitVec 7) (a : BitVec 8) (b : BitVec 7) (s : State) : Out := intWord (.shra d a b) d a b shiftRightA s
/-- BFE (R287). -/
def execBfe (m : BitVec 1) (d : BitVec 7) (a : BitVec 8) (b : BitVec 7) (s : State) : Out :=
  intWord (.bfe m d a b) d a b (fieldExtract m) s
/-- BFI (R287). -/
def execBfi (d : BitVec 7) (a : BitVec 8) (b : BitVec 7) (s : State) : Out := intWord3 (.bfi d a b) d a b fieldInsert s
/-- POPC (R289). -/
def execPopc (d : BitVec 7) (a : BitVec 8) (s : State) : Out := intWord1 (.popc d a) d a popCount s
/-- CLZ (R289). -/
def execClz (d : BitVec 7) (a : BitVec 8) (s : State) : Out := intWord1 (.clz d a) d a leadingZeros s
/-- BREV (R289). -/
def execBrev (d : BitVec 7) (a : BitVec 8) (s : State) : Out := intWord1 (.brev d a) d a bitReverse s

/-- SELP (R355): it requires an operand-form IMMX, which names the predicate. -/
def execSelp (d : BitVec 7) (a : BitVec 8) (b : BitVec 7) (s : State) : Out :=
  gangOnly (.selp d a b)
    (fun c =>
      let w := v3Info c { useNone with pc := true } d a (some b) false
      match operHint c.cl.hints with
      | none => { w with legal := false }
      | some o => { w with legal := w.legal && decide (o.pc < 24), reads := .p o.pc :: w.reads })
    (laneResult d fun s c l =>
      if inMask (pReg c.gg ((operHint c.cl.hints).elim 0 (·.pc))) l then srcLane s c a.toNat l
      else srcLane s c (secondCode c b) l) s

/-- The sum of LEA in a lane (R330). -/
def leaSum (m : BitVec 1) (a : DWord) (b : Word) : DWord :=
  a + if flag1 m then b.zeroExtend 64 else b.signExtend 64

/-- LEA (R330). -/
def execLea (m : BitVec 1) (d : BitVec 7) (a : BitVec 8) (b : BitVec 7) (s : State) : Out :=
  gangOnly (.lea m d a b)
    (fun c =>
      let v := c.tm.vregs
      let y := secondCode c b
      { plainInfo with
        accepts := acceptsOper
        legal := pairOk v d.toNat && addrOk v a.toNat && srcOk v y && operLegal c useNone (b == 127)
        count := srcCount y
        reads := (match gCode a.toNat with
          | some n => [.g n]
          | none => [.v a.toNat, .v (a.toNat + 1)]) ++ srcRegs y
        writes := [.v d.toNat, .v (d.toNat + 1)] })
    (fun c s =>
      let x (l : Nat) : DWord := leaSum m (addrLane c a.toNat l) (srcLane s c (secondCode c b) l)
      .done (writePair s c d.toNat (writeLanes c) (mkLanes fun l => (x l).truncate 32)
        (mkLanes fun l => (x l >>> 32).truncate 32))) s

/-- MOV (R337). -/
def execMov (d : BitVec 7) (a : BitVec 8) (s : State) : Out := intWord1 (.mov d a) d a id s

/-! ### Major 0x4, integer -/

/-- IADD with an immediate (R315). -/
def execIaddImm (d : BitVec 7) (a : BitVec 8) (imm : BitVec 8) (s : State) : Out :=
  viWord (.iaddImm d a imm) d a imm (fun x y => x + y) s
/-- IMUL with an immediate (R315). -/
def execImulImm (d : BitVec 7) (a : BitVec 8) (imm : BitVec 8) (s : State) : Out :=
  viWord (.imulImm d a imm) d a imm (fun x y => x * y) s
/-- IMIN with an immediate, signed (R315). -/
def execIminImm (d : BitVec 7) (a : BitVec 8) (imm : BitVec 8) (s : State) : Out :=
  viWord (.iminImm d a imm) d a imm (intMin 0) s
/-- IMAX with an immediate, signed (R315). -/
def execImaxImm (d : BitVec 7) (a : BitVec 8) (imm : BitVec 8) (s : State) : Out :=
  viWord (.imaxImm d a imm) d a imm (intMax 0) s
/-- AND with an immediate (R279). -/
def execAndImm (d : BitVec 7) (a : BitVec 8) (imm : BitVec 8) (s : State) : Out :=
  viWord (.andImm d a imm) d a imm (fun x y => x &&& y) s
/-- OR with an immediate (R279). -/
def execOrImm (d : BitVec 7) (a : BitVec 8) (imm : BitVec 8) (s : State) : Out :=
  viWord (.orImm d a imm) d a imm (fun x y => x ||| y) s
/-- XOR with an immediate (R279). -/
def execXorImm (d : BitVec 7) (a : BitVec 8) (imm : BitVec 8) (s : State) : Out :=
  viWord (.xorImm d a imm) d a imm (fun x y => x ^^^ y) s
/-- SHL by an immediate (R362). -/
def execShlImm (d : BitVec 7) (a : BitVec 8) (imm : BitVec 8) (s : State) : Out :=
  viWord (.shlImm d a imm) d a imm shiftLeft s
/-- SHR by an immediate (R362). -/
def execShrImm (d : BitVec 7) (a : BitVec 8) (imm : BitVec 8) (s : State) : Out :=
  viWord (.shrImm d a imm) d a imm shiftRight s
/-- SHRA by an immediate (R362). -/
def execShraImm (d : BitVec 7) (a : BitVec 8) (imm : BitVec 8) (s : State) : Out :=
  viWord (.shraImm d a imm) d a imm shiftRightA s
/-- MOV of an immediate (R337). -/
def execMovImm (d : BitVec 7) (imm : BitVec 8) (s : State) : Out :=
  gangOnly (.movImm d imm) (fun c => viInfo c d none false) (laneResult d fun _ c _ => viInt c imm) s

end Sys2Proof.Machine
end

