-- ==== Sys2Proof/Machine/Select.lean ====
section
/-!
DEFINITION. The words of major 0xC: ARGMAX (R280), REDUX and SCAN (R346, R347), SORT64 (R365), MERGE (R333), TOPK and SELTH
(R356 to R359).
-/
namespace Sys2Proof.Machine

/-! ### Keys and their order -/

/-- A source read as a type: 0 FP32, 1 signed, 2 unsigned. -/
def typedSrc (s : State) (c : GCtx) (ty code l : Nat) : Word := if ty = 0 then srcF32 s c code l else srcLane s c code l

/-- The order of FP32 sorting (R280): every NaN above +inf and equal, -0 = +0. -/
def sortF (a b : Word) : Int :=
  let x := f32 a
  let y := f32 b
  if isNanF x then (if isNanF y then 0 else 1) else if isNanF y then -1 else cmpF x y

/-- Whether a key is strictly below another, ascending (R280, R333). -/
def keyBelow (ty : Nat) (a b : Word) : Bool :=
  if ty = 0 then decide (sortF a b < 0) else if ty = 1 then a.slt b else a.ult b

/-- before() of R333: ascending, or descending with every NaN after every other key. -/
def keyBefore (ty : Nat) (desc : Bool) (a b : Word) : Bool :=
  if !desc then keyBelow ty a b
  else if ty = 0 then
    if isNanF (f32 a) then false else if isNanF (f32 b) then true else decide (0 < sortF a b)
  else keyBelow ty b a

/-! ### ARGMAX -/

/-- The lane of a list with the greatest key, the lowest among equals (R280). -/
def argmaxLane (ty : Nat) (key : Nat → Word) : List Nat → Option Nat
  | [] => none
  | l :: ls => some (ls.foldl (fun w x => if keyBelow ty (key w) (key x) then x else w) l)

/-- ARGMAX (R280). -/
def execArgmax (m : BitVec 1) (d : BitVec 7) (a : BitVec 8) (t : BitVec 2) (s : State) : Out :=
  gangOnly (.argmax m d a t) (fun c => let w := v3Info c useNone d a none false; { w with legal := w.legal && t != 3 })
    (laneResult d fun s c _ =>
      let key := typedSrc s c t.toNat a.toNat
      match argmaxLane t.toNat key (lanesIn c.act) with
      | some w => if flag1 m then key w else BitVec.ofNat 32 w
      | none => 0) s

/-! ### REDUX and SCAN -/

/-- combine() of R346 over FP32 terms. -/
def combineF (op : Nat) (xs : List Word) : Word :=
  match xs with
  | [] => if op = 0 then 0 else BitVec.ofNat 32 (infBits fp32 (op == 2))
  | x :: rest =>
    if op = 0 then toF32 .rn (rest.foldl (fun a y => addF .rn a (f32 y)) (f32 x))
    else if xs.all fun y => isNanF (f32 y) then BitVec.ofNat 32 (canonNan fp32)
    else rest.foldl (fun a y => BitVec.ofNat 32 ((if op = 1 then fminF else fmaxF) fp32 a.toNat y.toNat)) x

/-- combine() of R346 over integer terms. -/
def combineI (op : Nat) (signed : Bool) (xs : List Word) : Word :=
  match op with
  | 0 => xs.foldl (· + ·) 0
  | 1 => xs.foldl (fun a y => if (if signed then y.slt a else y.ult a) then y else a) (if signed then 0x7FFFFFFF else 0xFFFFFFFF)
  | 2 => xs.foldl (fun a y => if (if signed then a.slt y else a.ult y) then y else a) (if signed then 0x80000000 else 0)
  | 3 => xs.foldl (· &&& ·) 0xFFFFFFFF
  | 4 => xs.foldl (· ||| ·) 0
  | _ => xs.foldl (· ^^^ ·) 0

/-- combine() of R346. -/
def combineAll (op ty : Nat) (xs : List Word) : Word := if ty = 0 then combineF op xs else combineI op (ty == 1) xs

/-- The checks of R347. -/
def reduceInfo (d : BitVec 7) (a : BitVec 8) (o : BitVec 3) (t : BitVec 2) (c : GCtx) : WordInfo :=
  let w := v3Info c useNone d a none false
  { w with legal := w.legal && t != 3 && decide (o.toNat ≤ 5) && (t != 0 || decide (o.toNat ≤ 2)) }

/-- REDUX (R346). -/
def execRedux (d : BitVec 7) (a : BitVec 8) (o : BitVec 3) (t : BitVec 2) (s : State) : Out :=
  gangOnly (.redux d a o t) (reduceInfo d a o t)
    (laneResult d fun s c _ => combineAll o.toNat t.toNat ((lanesIn c.act).map (typedSrc s c t.toNat a.toNat))) s

/-- SCAN and SCAN.EXCL (R346). -/
def execScan (e : BitVec 1) (d : BitVec 7) (a : BitVec 8) (o : BitVec 3) (t : BitVec 2) (s : State) : Out :=
  gangOnly (.scan e d a o t) (reduceInfo d a o t)
    (laneResult d fun s c l =>
      combineAll o.toNat t.toNat
        (((lanesIn c.act).filter fun m => if flag1 e then decide (m < l) else decide (m ≤ l)).map
          (typedSrc s c t.toNat a.toNat))) s

/-! ### SORT64 and MERGE -/

/-- The type and direction that an operand-form IMMX gives (R333, R365). -/
def sortMode (c : GCtx) : Nat × Bool :=
  match operHint c.cl.hints with
  | some o => (o.el % 4, o.el / 4 == 1)
  | none => (0, false)

/-- The use of an operand-form IMMX by SORT64 and MERGE. -/
def useEl : OperUse := { useNone with el := true }

/-- Inserts a lane into lanes in order, after its equals. -/
def insertKey (before : Word → Word → Bool) (x : Nat × Word) : List (Nat × Word) → List (Nat × Word)
  | [] => [x]
  | y :: ys => if before x.2 y.2 then x :: y :: ys else y :: insertKey before x ys

/-- A stable order of keyed lanes (R365). -/
def sortKeys (before : Word → Word → Bool) (l : List (Nat × Word)) : List (Nat × Word) :=
  l.foldl (fun acc x => insertKey before x acc) []

/-- SORT64 (R365). -/
def execSort64 (m : BitVec 1) (d : BitVec 7) (a : BitVec 8) (s : State) : Out :=
  gangOnly (.sort64 m d a) (fun c => let w := v3Info c useEl d a none false; { w with legal := w.legal && (sortMode c).1 != 3 })
    (fun c s =>
      if c.act ≠ allLanes then .trap .illegalConvergence c.act 0
      else
        let (ty, desc) := sortMode c
        let l := sortKeys (keyBefore ty desc) (laneIdx.map fun l => (l, typedSrc s c ty a.toNat l))
        .done (writeResult s c d.toNat allLanes (l.map fun x => if flag1 m then BitVec.ofNat 32 x.1 else x.2))) s

/-- The procedure of R333 over fuel: keys with their positions. -/
def mergeKeys (before : Word → Word → Bool) : Nat → List (Nat × Word) → List (Nat × Word) → List (Nat × Word)
  | 0, _, _ => []
  | _ + 1, [], [] => []
  | n + 1, x :: xs, [] => x :: mergeKeys before n xs []
  | n + 1, [], y :: ys => y :: mergeKeys before n [] ys
  | n + 1, x :: xs, y :: ys =>
    if before y.2 x.2 then y :: mergeKeys before n (x :: xs) ys else x :: mergeKeys before n xs (y :: ys)

/-- MERGE (R333). -/
def execMerge (m : BitVec 1) (d : BitVec 7) (a : BitVec 8) (b : BitVec 7) (s : State) : Out :=
  gangOnly (.merge m d a b)
    (fun c =>
      let w := v3Info c useEl d a (some b) false
      { w with
        legal := w.legal && (sortMode c).1 != 3 && pairOk c.tm.vregs d.toNat
        writes := [.v d.toNat, .v (d.toNat + 1)] })
    (fun c s =>
      if c.act ≠ allLanes then .trap .illegalConvergence c.act 0
      else
        let (ty, desc) := sortMode c
        let xs := laneIdx.map fun l => (l, typedSrc s c ty a.toNat l)
        let ys := laneIdx.map fun l => (64 + l, typedSrc s c ty (secondCode c b) l)
        let out := (mergeKeys (keyBefore ty desc) 128 xs ys).map fun x => if flag1 m then BitVec.ofNat 32 x.1 else x.2
        .done (writePair s c d.toNat allLanes (out.take 64) (out.drop 64))) s

/-! ### TOPK and SELTH -/

/-- An entry of a list (R356). -/
structure TopEntry where
  lo : Word
  id : Word
  hi : Word
deriving DecidableEq, Repr

/-- greater() of R357, by the comparisons of FP32: with a NaN neither holds (R81). -/
def topGreater (x y : TopEntry) : Bool :=
  fcmp 4 x.lo y.lo || (fcmp 0 x.lo y.lo && x.id.ult y.id)

/-- less() of R357. -/
def topLess (x y : TopEntry) : Bool := topGreater y x

/-- No entry. -/
def noEntry : TopEntry := ⟨0, 0, 0⟩

/-- Entry i of a heap. -/
def heapAt (h : List TopEntry) (i : Nat) : TopEntry := (listAt h i).getD noEntry

/-- Exchanges two entries. -/
def heapSwap (h : List TopEntry) (i j : Nat) : List TopEntry := listSet (listSet h i (heapAt h j)) j (heapAt h i)

/-- sift_up of R357, over fuel. -/
def siftUp : Nat → List TopEntry → Nat → List TopEntry
  | 0, h, _ => h
  | n + 1, h, i =>
    if 0 < i ∧ topLess (heapAt h i) (heapAt h ((i - 1) / 2)) then siftUp n (heapSwap h i ((i - 1) / 2)) ((i - 1) / 2) else h

/-- sift_down of R357, over fuel. -/
def siftDown : Nat → List TopEntry → Nat → List TopEntry
  | 0, h, _ => h
  | n + 1, h, i =>
    if 2 * i + 1 < h.length then
      let c := if 2 * i + 2 < h.length ∧ topLess (heapAt h (2 * i + 2)) (heapAt h (2 * i + 1)) then 2 * i + 2 else 2 * i + 1
      if topLess (heapAt h c) (heapAt h i) then siftDown n (heapSwap h c i) c else h
    else h

/-- offer() of R357 to a list of at most K entries. -/
def offer (k : Nat) (h : List TopEntry) (c : TopEntry) : List TopEntry :=
  if h.length < k then siftUp (h.length + 1) (h ++ [c]) h.length
  else if topGreater c (heapAt h 0) then siftDown (h.length + 1) (listSet h 0 c) 0
  else h

/-- Inserts an entry before those that it is greater than. -/
def insertTop (x : TopEntry) : List TopEntry → List TopEntry
  | [] => [x]
  | y :: ys => if topGreater x y then x :: y :: ys else y :: insertTop x ys

/-- The descending order of TOPK.FIN (R357). -/
def sortTop (h : List TopEntry) : List TopEntry := h.foldl (fun acc x => insertTop x acc) []

/-- The margin of a lane (R356). -/
def marginOf (s : State) (c : GCtx) (l : Nat) : Word :=
  match operHint c.cl.hints with
  | some o => srcF32 s c o.sc l &&& 0x7FFFFFFF
  | none => 0

/-- x + m or x - m rounded up or down (R357, R358). -/
def boundUp (x m : Word) : Word := toF32 .rp (addF .rp (f32 x) (f32 m))
/-- x - m rounded down. -/
def boundDown (x m : Word) : Word := toF32 .rm (addF .rm (f32 x) (negF (f32 m)))

/-- The margin's source code must be one that may be read. -/
def marginInfo (c : GCtx) (w : WordInfo) : WordInfo :=
  match operHint c.cl.hints with
  | some o =>
    { w with legal := w.legal && srcOk c.tm.vregs o.sc, count := max w.count (srcCount o.sc), reads := w.reads ++ srcRegs o.sc }
  | none => w

/-- LOFF and K of a list operand, where its reserved bits and alignment allow (R356, R359). -/
def listOperand (g : DWord) : Option (Nat × Nat) :=
  if bits64 g 63 43 ≠ 0 ∨ bits64 g 22 0 % 128 ≠ 0 then none else some (bits64 g 22 0, bits64 g 42 23 + 1)

/-- The bytes of an entry. -/
def topBytes (e : TopEntry) : List Byte :=
  bytesOf 4 e.lo.toNat ++ bytesOf 4 e.id.toNat ++ bytesOf 4 e.hi.toNat ++ bytesOf 4 0

/-- Entry n of a list in scratchpad. -/
def readTop (tm : Team) (loff n : Nat) : TopEntry :=
  let at4 (k : Nat) : Word := BitVec.ofNat 32 (natOf (scratchBytes tm (loff + 16 + 16 * n + 4 * k) 4))
  ⟨at4 0, at4 1, at4 2⟩

/-- The checks of R359 at execution on a run of scratchpad bytes, as an LS access of the gang that waits on tags or not. -/
def topCheck (s : State) (c : GCtx) (off len : Nat) (tagged : Bool) : Option GRes :=
  match checkScratch s c.tm (.gang c.g) off len 0 tagged with
  | .ok => none
  | .stall ls => some (.wait (.fill ls) s)
  | .bad cause =>
    let at' := (linesOf off len).find? fun l => (cause == .poison && fillTag c.tm l == tagFaulted) || markHit s c.tm (.gang c.g) l
    some (.trapAcc s cause c.act (BitVec.ofNat 64 (max off (128 * at'.getD 0))) .ls)

/-- Writes the changed parts of a list: marks are checked first, tags stay (R359, R371). -/
def writeTop (s : State) (c : GCtx) (ws : List (Nat × List Byte)) (k : State → GRes) : GRes :=
  match ws.findSome? fun w => topCheck s c w.1 w.2.length false with
  | some r => r
  | none => k (scratchStore s c.t (.gang c.g) (ws.flatMap fun w => writesAt w.1 w.2))

/-- The entries that changed, with their bytes. -/
def changedTop (loff : Nat) (old new : List TopEntry) : List (Nat × List Byte) :=
  (new.zipIdx.filter fun x => listAt old x.2 != some x.1).map fun x => (loff + 16 + 16 * x.2, topBytes x.1)

/-- Reads a list whole, in the checks of R359: the header first, then the entries in use. -/
def withList (g : DWord) (c : GCtx) (s : State) (k : Nat → Nat → List TopEntry → Word → State → GRes) : GRes :=
  if c.act = 0 then k 0 0 [] 0 s
  else match listOperand g with
  | none => .trap .illegalOperand c.act 0
  | some (loff, kk) =>
    if scratchSize c.tm < loff + 16 + 16 * kk then .trapAcc s .scratchBounds c.act (BitVec.ofNat 64 loff) .ls
    else match topCheck s c loff 16 true with
      | some r => r
      | none =>
        let h := natOf (scratchBytes c.tm loff 16)
        let count := bitsN h 31 0
        if kk < count ∨ h / 2 ^ 96 ≠ 0 then .trap .illegalOperand c.act 0
        else match (if count = 0 then none else topCheck s c (loff + 16) (16 * count) true) with
          | some r => r
          | none => k loff kk ((List.range count).map (readTop c.tm loff)) (BitVec.ofNat 32 (bitsN h 63 32)) s

/-- The candidates of the active lanes, in ascending order (R357). -/
def candidates (s : State) (c : GCtx) (code : Nat) (nseen : Word) : List TopEntry :=
  (lanesIn c.act).filterMap fun l =>
    let x := srcF32 s c code l
    let m := marginOf s c l
    let lo := boundDown x m
    let hi := boundUp x m
    if isNanF (f32 lo) ∨ isNanF (f32 hi) then none else some ⟨lo, nseen + BitVec.ofNat 32 l, hi⟩

/-- TOPK (R357, R359). -/
def execTopk (d : BitVec 7) (a : BitVec 8) (b : BitVec 7) (s : State) : Out :=
  gangOnly (.topk d a b)
    (fun c =>
      let w := v3Info c { useNone with sc := true } d a (some b) false
      marginInfo c { w with legal := w.legal && (gCode a.toNat).isSome && decide (b.toNat ≤ 121) })
    (fun c s => withList (gReg c.gg (a.toNat - 128)) c s fun loff k old nseen s =>
      if c.act = 0 then .done (writeResult s c d.toNat 0 zeroLanes)
      else
        let new := (candidates s c b.toNat nseen).foldl (offer k) old
        let thr : Word := if new.length = k then (heapAt new 0).lo else 0xFF800000
        let hdr := bytesOf 4 new.length ++ bytesOf 4 (nseen + 64).toNat ++ bytesOf 4 thr.toNat ++ bytesOf 4 0
        writeTop s c ((loff, hdr) :: changedTop loff old new) fun s =>
          .done (writeResult s c d.toNat (writeLanes c) (mkLanes fun _ => thr))) s

/-- TOPK.FIN (R357, R359). -/
def execTopkFin (a : BitVec 8) (s : State) : Out :=
  gangOnly (.topkFin a)
    (fun c =>
      { plainInfo with
        accepts := acceptsOper, legal := (gCode a.toNat).isSome && operLegal c useNone false, reads := srcRegs a.toNat })
    (fun c s => withList (gReg c.gg (a.toNat - 128)) c s fun loff _ old _ s =>
      if c.act = 0 then .done s else writeTop s c (changedTop loff old (sortTop old)) .done) s

/-- The lanes that SELTH keeps (R358). -/
def kept (s : State) (c : GCtx) (a b : Nat) : Mask :=
  maskOf fun l => inMask c.act l &&
    (let hi := boundUp (srcF32 s c a l) (marginOf s c l)
     fcmp 5 hi (srcF32 s c b l))

/-- SELTH and SELTH.P (R358, R359). -/
def execSelth (m : BitVec 1) (d : BitVec 7) (a : BitVec 8) (b : BitVec 7) (s : State) : Out :=
  gangOnly (.selth m d a b)
    (fun c =>
      let pc := (operHint c.cl.hints).map (·.pc)
      let w := v3Info c { useNone with sc := true, pc := flag1 m } d a (some b) false
      let w := marginInfo c { w with legal := w.legal && b != 127 && (!flag1 m || pc.any fun p => decide (p < 24)) }
      { w with writes := w.writes ++ if flag1 m then pc.elim [] fun p => [.p p] else [] })
    (fun c s =>
      let k := kept s c a.toNat b.toNat
      let x := mkLanes fun l => if inMask k l then BitVec.ofNat 32 (countP (fun j => j < l) (lanesIn k)) else 0xFFFFFFFF
      let s := writeResult s c d.toNat (writeLanes c) x
      match flag1 m, operHint c.cl.hints with
      | true, some o => .done (writeP s c o.pc c.act k)
      | _, _ => .done s) s

end Sys2Proof.Machine
end

