-- ==== Sys2Proof/Machine/Dispatch.lean ====
section
/-!
DEFINITION. One arm for each instruction of the opcode table: a direct call of its meaning, or a refusal by its name.
-/
namespace Sys2Proof.Machine

/-- The meaning of an instruction in a state, for the stream that `cur` names. -/
def exec (i : Instr) (s : State) : Host.Outcome State Fault Refusal :=
  match i with
  | .clauseHeader w a b l g n y k => Sys2Proof.Machine.execClauseHeader w a b l g n y k s
  | .immxImmediate imm => Sys2Proof.Machine.execImmxImmediate imm s
  | .immxOperand e sc r p c => Sys2Proof.Machine.execImmxOperand e sc r p c s
  | .xcache p => Sys2Proof.Machine.execXcache p s
  | .xscope q u sc o => Sys2Proof.Machine.execXscope q u sc o s
  | .xplane k => Sys2Proof.Machine.execXplane k s
  | .xnop => Sys2Proof.Machine.execXnop s
  | .mergeat o => Sys2Proof.Machine.execMergeat o s
  | .iadd m d a b => Sys2Proof.Machine.execIadd m d a b s
  | .isub m d a b => Sys2Proof.Machine.execIsub m d a b s
  | .imul d a b => Sys2Proof.Machine.execImul d a b s
  | .imulhi m d a b => Sys2Proof.Machine.execImulhi m d a b s
  | .imad m d a b => Sys2Proof.Machine.execImad m d a b s
  | .imin m d a b => Sys2Proof.Machine.execImin m d a b s
  | .imax m d a b => Sys2Proof.Machine.execImax m d a b s
  | .iabs m d a => Sys2Proof.Machine.execIabs m d a s
  | .and d a b => Sys2Proof.Machine.execAnd d a b s
  | .or d a b => Sys2Proof.Machine.execOr d a b s
  | .xor d a b => Sys2Proof.Machine.execXor d a b s
  | .shl d a b => Sys2Proof.Machine.execShl d a b s
  | .shr d a b => Sys2Proof.Machine.execShr d a b s
  | .shra d a b => Sys2Proof.Machine.execShra d a b s
  | .bfe m d a b => Sys2Proof.Machine.execBfe m d a b s
  | .bfi d a b => Sys2Proof.Machine.execBfi d a b s
  | .popc d a => Sys2Proof.Machine.execPopc d a s
  | .clz d a => Sys2Proof.Machine.execClz d a s
  | .brev d a => Sys2Proof.Machine.execBrev d a s
  | .selp d a b => Sys2Proof.Machine.execSelp d a b s
  | .lea m d a b => Sys2Proof.Machine.execLea m d a b s
  | .mov d a => Sys2Proof.Machine.execMov d a s
  | .fadd d a b => Sys2Proof.Machine.execFadd d a b s
  | .fsub d a b => Sys2Proof.Machine.execFsub d a b s
  | .fmul d a b => Sys2Proof.Machine.execFmul d a b s
  | .ffma d a b => Sys2Proof.Machine.execFfma d a b s
  | .ffmay d a b => Sys2Proof.Machine.execFfmay d a b s
  | .fmin d a b => Sys2Proof.Machine.execFmin d a b s
  | .fmax d a b => Sys2Proof.Machine.execFmax d a b s
  | .fscale d a b => Sys2Proof.Machine.execFscale d a b s
  | .fclass d a => Sys2Proof.Machine.execFclass d a s
  | .hadd2 m d a b => Sys2Proof.Machine.execHadd2 m d a b s
  | .hmul2 m d a b => Sys2Proof.Machine.execHmul2 m d a b s
  | .hfma2 m d a b => Sys2Proof.Machine.execHfma2 m d a b s
  | .iaddImm d a imm => Sys2Proof.Machine.execIaddImm d a imm s
  | .imulImm d a imm => Sys2Proof.Machine.execImulImm d a imm s
  | .iminImm d a imm => Sys2Proof.Machine.execIminImm d a imm s
  | .imaxImm d a imm => Sys2Proof.Machine.execImaxImm d a imm s
  | .andImm d a imm => Sys2Proof.Machine.execAndImm d a imm s
  | .orImm d a imm => Sys2Proof.Machine.execOrImm d a imm s
  | .xorImm d a imm => Sys2Proof.Machine.execXorImm d a imm s
  | .shlImm d a imm => Sys2Proof.Machine.execShlImm d a imm s
  | .shrImm d a imm => Sys2Proof.Machine.execShrImm d a imm s
  | .shraImm d a imm => Sys2Proof.Machine.execShraImm d a imm s
  | .movImm d imm => Sys2Proof.Machine.execMovImm d imm s
  | .faddImm d a imm => Sys2Proof.Machine.execFaddImm d a imm s
  | .fmulImm d a imm => Sys2Proof.Machine.execFmulImm d a imm s
  | .fminImm d a imm => Sys2Proof.Machine.execFminImm d a imm s
  | .fmaxImm d a imm => Sys2Proof.Machine.execFmaxImm d a imm s
  | .ffmaImm d a imm => Sys2Proof.Machine.execFfmaImm d a imm s
  | .icmpEq p c a b => Sys2Proof.Machine.execIcmpEq p c a b s
  | .icmpNe p c a b => Sys2Proof.Machine.execIcmpNe p c a b s
  | .icmpLt p c a b => Sys2Proof.Machine.execIcmpLt p c a b s
  | .icmpLe p c a b => Sys2Proof.Machine.execIcmpLe p c a b s
  | .icmpGt p c a b => Sys2Proof.Machine.execIcmpGt p c a b s
  | .icmpGe p c a b => Sys2Proof.Machine.execIcmpGe p c a b s
  | .icmpLtu p c a b => Sys2Proof.Machine.execIcmpLtu p c a b s
  | .icmpLeu p c a b => Sys2Proof.Machine.execIcmpLeu p c a b s
  | .icmpGtu p c a b => Sys2Proof.Machine.execIcmpGtu p c a b s
  | .icmpGeu p c a b => Sys2Proof.Machine.execIcmpGeu p c a b s
  | .fcmpEq p c a b => Sys2Proof.Machine.execFcmpEq p c a b s
  | .fcmpNe p c a b => Sys2Proof.Machine.execFcmpNe p c a b s
  | .fcmpLt p c a b => Sys2Proof.Machine.execFcmpLt p c a b s
  | .fcmpLe p c a b => Sys2Proof.Machine.execFcmpLe p c a b s
  | .fcmpGt p c a b => Sys2Proof.Machine.execFcmpGt p c a b s
  | .fcmpGe p c a b => Sys2Proof.Machine.execFcmpGe p c a b s
  | .fcmpNum p c a b => Sys2Proof.Machine.execFcmpNum p c a b s
  | .fcmpNan p c a b => Sys2Proof.Machine.execFcmpNan p c a b s
  | .plop p c a b l => Sys2Proof.Machine.execPlop p c a b l s
  | .pset p c a => Sys2Proof.Machine.execPset p c a s
  | .ballot d p => Sys2Proof.Machine.execBallot d p s
  | .vote p m a => Sys2Proof.Machine.execVote p m a s
  | .shfl m d a b => Sys2Proof.Machine.execShfl m d a b s
  | .qswap d a x => Sys2Proof.Machine.execQswap d a x s
  | .qbcast d a x => Sys2Proof.Machine.execQbcast d a x s
  | .maskrd d => Sys2Proof.Machine.execMaskrd d s
  | .maskwr a => Sys2Proof.Machine.execMaskwr a s
  | .cvt t d a sf => Sys2Proof.Machine.execCvt t d a sf s
  | .cvtsr t d a sf => Sys2Proof.Machine.execCvtsr t d a sf s
  | .exp2 d a => Sys2Proof.Machine.execExp2 d a s
  | .log2 d a => Sys2Proof.Machine.execLog2 d a s
  | .rcp d a => Sys2Proof.Machine.execRcp d a s
  | .rsqrt d a => Sys2Proof.Machine.execRsqrt d a s
  | .sqrt d a => Sys2Proof.Machine.execSqrt d a s
  | .sinpi d a => Sys2Proof.Machine.execSinpi d a s
  | .cospi d a => Sys2Proof.Machine.execCospi d a s
  | .rng d j => Sys2Proof.Machine.execRng d j s
  | .rngsave d => Sys2Proof.Machine.execRngsave d s
  | .rngset a => Sys2Proof.Machine.execRngset a s
  | .ldU8 f d a o => Sys2Proof.Machine.execLdU8 f d a o s
  | .ldS8 f d a o => Sys2Proof.Machine.execLdS8 f d a o s
  | .ldU16 f d a o => Sys2Proof.Machine.execLdU16 f d a o s
  | .ldS16 f d a o => Sys2Proof.Machine.execLdS16 f d a o s
  | .ldB32 f d a o => Sys2Proof.Machine.execLdB32 f d a o s
  | .ldB64 f d a o => Sys2Proof.Machine.execLdB64 f d a o s
  | .stB8 d a o => Sys2Proof.Machine.execStB8 d a o s
  | .stB16 d a o => Sys2Proof.Machine.execStB16 d a o s
  | .stB32 d a o => Sys2Proof.Machine.execStB32 d a o s
  | .stB64 d a o => Sys2Proof.Machine.execStB64 d a o s
  | .ldsU8 f d a o => Sys2Proof.Machine.execLdsU8 f d a o s
  | .ldsS8 f d a o => Sys2Proof.Machine.execLdsS8 f d a o s
  | .ldsU16 f d a o => Sys2Proof.Machine.execLdsU16 f d a o s
  | .ldsS16 f d a o => Sys2Proof.Machine.execLdsS16 f d a o s
  | .ldsB32 f d a o => Sys2Proof.Machine.execLdsB32 f d a o s
  | .ldsB64 f d a o => Sys2Proof.Machine.execLdsB64 f d a o s
  | .stsB8 d a o => Sys2Proof.Machine.execStsB8 d a o s
  | .stsB16 d a o => Sys2Proof.Machine.execStsB16 d a o s
  | .stsB32 d a o => Sys2Proof.Machine.execStsB32 d a o s
  | .stsB64 d a o => Sys2Proof.Machine.execStsB64 d a o s
  | .ldp f d a o => Sys2Proof.Machine.execLdp f d a o s
  | .ldpMid f d a o => Sys2Proof.Machine.execLdpMid f d a o s
  | .refine f d a o => Sys2Proof.Machine.execRefine f d a o s
  | .stp f d a => Sys2Proof.Machine.execStp f d a s
  | .cstoreB32 d a o => Sys2Proof.Machine.execCstoreB32 d a o s
  | .cstoreB64 d a o => Sys2Proof.Machine.execCstoreB64 d a o s
  | .xload f d a o => Sys2Proof.Machine.execXload f d a o s
  | .pref p a o => Sys2Proof.Machine.execPref p a o s
  | .atom f d a o w => Sys2Proof.Machine.execAtom f d a o w s
  | .acas f d a w => Sys2Proof.Machine.execAcas f d a w s
  | .red d a o w => Sys2Proof.Machine.execRed d a o w s
  | .atoms f d a o w => Sys2Proof.Machine.execAtoms f d a o w s
  | .fence o sc => Sys2Proof.Machine.execFence o sc s
  | .fencex b a => Sys2Proof.Machine.execFencex b a s
  | .bra o => Sys2Proof.Machine.execBra o s
  | .brc p n o => Sys2Proof.Machine.execBrc p n o s
  | .brx a => Sys2Proof.Machine.execBrx a s
  | .call o => Sys2Proof.Machine.execCall o s
  | .ret => Sys2Proof.Machine.execRet s
  | .exit => Sys2Proof.Machine.execExit s
  | .bar => Sys2Proof.Machine.execBar s
  | .barc => Sys2Proof.Machine.execBarc s
  | .yield f o => Sys2Proof.Machine.execYield f o s
  | .trap c => Sys2Proof.Machine.execTrap c s
  | .spawn a => Sys2Proof.Machine.execSpawn a s
  | .joinw => Sys2Proof.Machine.execJoinw s
  | .stepmark => Sys2Proof.Machine.execStepmark s
  | .dqpop a => Sys2Proof.Machine.execDqpop a s
  | .nop => Sys2Proof.Machine.execNop s
  | .shape d sc => Sys2Proof.Machine.execShape d sc s
  | .mma c a b => Sys2Proof.Machine.execMma c a b s
  | .mmaPlane c a b => Sys2Proof.Machine.execMmaPlane c a b s
  | .mmas c a b g => Sys2Proof.Machine.execMmas c a b g s
  | .mmanN2 c a b => Sys2Proof.Machine.execMmanN2 c a b s
  | .mmanN4 c a b => Sys2Proof.Machine.execMmanN4 c a b s
  | .mmanN8 c a b => Sys2Proof.Machine.execMmanN8 c a b s
  | .mmab g => Sys2Proof.Machine.execMmab g s
  | .mfence => Sys2Proof.Machine.execMfence s
  | .mfenceGd d => Sys2Proof.Machine.execMfenceGd d s
  | .mwait b => Sys2Proof.Machine.execMwait b s
  | .mwaitAll => Sys2Proof.Machine.execMwaitAll s
  | .accld c g => Sys2Proof.Machine.execAccld c g s
  | .accst c g => Sys2Proof.Machine.execAccst c g s
  | .accldR c v j n => Sys2Proof.Machine.execAccldR c v j n s
  | .accstR c v j n => Sys2Proof.Machine.execAccstR c v j n s
  | .accz c => Sys2Proof.Machine.execAccz c s
  | .accmov d sc => Sys2Proof.Machine.execAccmov d sc s
  | .skimchk f p k d sc => Sys2Proof.Machine.execSkimchk f p k d sc s
  | .skimput f k d sc => Sys2Proof.Machine.execSkimput f k d sc s
  | .skimrd d c => Sys2Proof.Machine.execSkimrd d c s
  | .skimrdClr d c => Sys2Proof.Machine.execSkimrdClr d c s
  | .copy f sc a => Sys2Proof.Machine.execCopy f sc a s
  | .pcopy f d a c => Sys2Proof.Machine.execPcopy f d a c s
  | .mcast f sc a => Sys2Proof.Machine.execMcast f sc a s
  | .gather f a => Sys2Proof.Machine.execGather f a s
  | .scatter f a => Sys2Proof.Machine.execScatter f a s
  | .qpush a q => Sys2Proof.Machine.execQpush a q s
  | .qpop d q => Sys2Proof.Machine.execQpop d q s
  | .qtry d p q => Sys2Proof.Machine.execQtry d p q s
  | .qallow m a n q => Sys2Proof.Machine.execQallow m a n q s
  | .fillclr a b => Sys2Proof.Machine.execFillclr a b s
  | .filltst d a n => Sys2Proof.Machine.execFilltst d a n s
  | .sort64 m d a => Sys2Proof.Machine.execSort64 m d a s
  | .merge m d a b => Sys2Proof.Machine.execMerge m d a b s
  | .topk d a b => Sys2Proof.Machine.execTopk d a b s
  | .topkFin a => Sys2Proof.Machine.execTopkFin a s
  | .selth m d a b => Sys2Proof.Machine.execSelth m d a b s
  | .argmax m d a t => Sys2Proof.Machine.execArgmax m d a t s
  | .redux d a o t => Sys2Proof.Machine.execRedux d a o t s
  | .scan e d a o t => Sys2Proof.Machine.execScan e d a o t s
  | .kadd imm d a b => Sys2Proof.Machine.execKadd imm d a b s
  | .ksub imm d a b => Sys2Proof.Machine.execKsub imm d a b s
  | .kmul imm d a b => Sys2Proof.Machine.execKmul imm d a b s
  | .kand imm d a b => Sys2Proof.Machine.execKand imm d a b s
  | .kor imm d a b => Sys2Proof.Machine.execKor imm d a b s
  | .kxor imm d a b => Sys2Proof.Machine.execKxor imm d a b s
  | .kshl imm d a b => Sys2Proof.Machine.execKshl imm d a b s
  | .kshr imm d a b => Sys2Proof.Machine.execKshr imm d a b s
  | .kmov imm d b => Sys2Proof.Machine.execKmov imm d b s
  | .kld f d a o => Sys2Proof.Machine.execKld f d a o s
  | .kst d a o => Sys2Proof.Machine.execKst d a o s
  | .kstAtomic d a o w => Sys2Proof.Machine.execKstAtomic d a o w s
  | .kcmp imm d c a b => Sys2Proof.Machine.execKcmp imm d c a b s
  | .kbr n c l o => Sys2Proof.Machine.execKbr n c l o s
  | .kcall o => Sys2Proof.Machine.execKcall o s
  | .kret => Sys2Proof.Machine.execKret s
  | .kwait f => Sys2Proof.Machine.execKwait f s
  | .kstop => Sys2Proof.Machine.execKstop s
  | .dqpush a b n => Sys2Proof.Machine.execDqpush a b n s
  | .launch d a => Sys2Proof.Machine.execLaunch d a s
  | .rgsplit a => Sys2Proof.Machine.execRgsplit a s
  | .rgmerge a => Sys2Proof.Machine.execRgmerge a s
  | .rgtrim a b => Sys2Proof.Machine.execRgtrim a b s
  | .rggrow a b => Sys2Proof.Machine.execRggrow a b s
  | .rginv a => Sys2Proof.Machine.execRginv a s
  | .rginvDiscard a => Sys2Proof.Machine.execRginvDiscard a s
  | .rgprobe d a w => Sys2Proof.Machine.execRgprobe d a w s
  | .rgmigrIn a b => Sys2Proof.Machine.execRgmigrIn a b s
  | .rgmigrOut a b => Sys2Proof.Machine.execRgmigrOut a b s
  | .rgmigrMove a b => Sys2Proof.Machine.execRgmigrMove a b s
  | .seal a => Sys2Proof.Machine.execSeal a s
  | .unseal a => Sys2Proof.Machine.execUnseal a s
  | .csrd a c => Sys2Proof.Machine.execCsrd a c s
  | .cswr a c => Sys2Proof.Machine.execCswr a c s
  | .eret => Sys2Proof.Machine.execEret s
  | .snap => Sys2Proof.Machine.execSnap s
  | .fltrd d w => Sys2Proof.Machine.execFltrd d w s
  | .reset repair images => Sys2Proof.Machine.execReset repair images s
  | .submit q v => Sys2Proof.Machine.execSubmit q v s
  | .preEmptionPort v => Sys2Proof.Machine.execPreEmptionPort v s
  | .trsubmit v => Sys2Proof.Machine.execTrsubmit v s
  | .atreq v => Sys2Proof.Machine.execAtreq v s
  | .swsubmit v => Sys2Proof.Machine.execSwsubmit v s
  | .swbatch v => Sys2Proof.Machine.execSwbatch v s
  | .swfree v => Sys2Proof.Machine.execSwfree v s
  | .bootdone v => Sys2Proof.Machine.execBootdone v s
  | .rxn port v => Sys2Proof.Machine.execRxn port v s
  | .rxhead port v => Sys2Proof.Machine.execRxhead port v s
  | .swapwait core v => Sys2Proof.Machine.execSwapwait core v s
  | .asidDescriptorWrite asid word v => Sys2Proof.Machine.execAsidDescriptorWrite asid word v s
  | .registerWrite off v => Sys2Proof.Machine.execRegisterWrite off v s
  | .swapTimerExpiry core slot => Sys2Proof.Machine.execSwapTimerExpiry core slot s
  | .starvationGuard core => Sys2Proof.Machine.execStarvationGuard core s
  | .schedulerPlacement cluster first => Sys2Proof.Machine.execSchedulerPlacement cluster first s
  | .declaredInputsDone lid tid => Sys2Proof.Machine.execDeclaredInputsDone lid tid s
  | .contextSave lid tid => Sys2Proof.Machine.execContextSave lid tid s
  | .swapinComplete lid tid => Sys2Proof.Machine.execSwapinComplete lid tid s
  | .teamRetire lid tid => Sys2Proof.Machine.execTeamRetire lid tid s
  | .launchCompletion lid => Sys2Proof.Machine.execLaunchCompletion lid s
  | .engineOperationCompletion lid tid op => Sys2Proof.Machine.execEngineOperationCompletion lid tid op s
  | .lineLanded lid tid op line => Sys2Proof.Machine.execLineLanded lid tid op line s
  | .longLatencyCompletion lid tid op => Sys2Proof.Machine.execLongLatencyCompletion lid tid op s
  | .matrixInstructionCompletion lid tid op => Sys2Proof.Machine.execMatrixInstructionCompletion lid tid op s
  | .windowCommit lid tid => Sys2Proof.Machine.execWindowCommit lid tid s
  | .windowSquash lid tid => Sys2Proof.Machine.execWindowSquash lid tid s
  | .residencyWideningEnd n => Sys2Proof.Machine.execResidencyWideningEnd n s
  | .rangeChangeComplete n => Sys2Proof.Machine.execRangeChangeComplete n s
  | .trowelCommand => Sys2Proof.Machine.execTrowelCommand s
  | .moveComplete n => Sys2Proof.Machine.execMoveComplete n s
  | .poolEntryGrant core => Sys2Proof.Machine.execPoolEntryGrant core s
  | .swappableWaitSatisfied lid tid who => Sys2Proof.Machine.execSwappableWaitSatisfied lid tid who s
  | .coreLost core => Sys2Proof.Machine.execCoreLost core s
  | .stackRedundancyLost stack => Sys2Proof.Machine.execStackRedundancyLost stack s
  | .lpddrRedundancyLost => Sys2Proof.Machine.execLpddrRedundancyLost s
  | .recoveryEnd cluster => Sys2Proof.Machine.execRecoveryEnd cluster s
  | .scratchpadUncorrectableError lid tid line => Sys2Proof.Machine.execScratchpadUncorrectableError lid tid line s
  | .dramUncorrectableError sector => Sys2Proof.Machine.execDramUncorrectableError sector s
  | .cacheUncorrectableError core sector => Sys2Proof.Machine.execCacheUncorrectableError core sector s
  | .accumulatorUncorrectableError lid tid tile row => Sys2Proof.Machine.execAccumulatorUncorrectableError lid tid tile row s
  | .registerUncorrectableError team op => Sys2Proof.Machine.execRegisterUncorrectableError team op s
  | .managementSnapshotRequest => Sys2Proof.Machine.execManagementSnapshotRequest s
  | .snapshotDrainEnd => Sys2Proof.Machine.execSnapshotDrainEnd s
  | .attestationManagementRequest nonce => Sys2Proof.Machine.execAttestationManagementRequest nonce s
  | .attestationAnswer => Sys2Proof.Machine.execAttestationAnswer s
  | .signwriterMark => Sys2Proof.Machine.execSignwriterMark s
  | .linkTrained port width peer => Sys2Proof.Machine.execLinkTrained port width peer s
  | .flitRejected port seq => Sys2Proof.Machine.execFlitRejected port seq s
  | .laneRepair port lane => Sys2Proof.Machine.execLaneRepair port lane s
  | .inboundPeerAccess port req => Sys2Proof.Machine.execInboundPeerAccess port req s
  | .messageArrival port sender bytes => Sys2Proof.Machine.execMessageArrival port sender bytes s
  | .peerResponse n ok bytes => Sys2Proof.Machine.execPeerResponse n ok bytes s
  | .pcieInboundRequest rp req => Sys2Proof.Machine.execPcieInboundRequest rp req s
  | .throttling on => Sys2Proof.Machine.execThrottling on s

end Sys2Proof.Machine
end

