-- ==== Sys2Proof/Machine/Step.lean ====
section
/-!
DEFINITION. One step: the first turn of the agenda is taken (log 1), or one core cycle passes; and the placing of an
instruction word where the next step fetches it.
-/
namespace Sys2Proof.Machine

/-- Runs what an issue answers. -/
def runIssue : Issue → Out
  | .run i s => exec i s
  | .ended s => .next s

/-- Tries a candidate of a core's issue slots: one that is held by a wait which is not swappable keeps its wait and is no candidate
(R211). Gives the candidates found so far. -/
def tryCand (y : State × List Cand) (x : Cand) : State × List Cand :=
  match runIssue (issueFrag y.1 x.lid x.tid x.g x.f) with
  | .next s' => if heldBack y.1 s' x then (s', y.2) else (y.1, y.2 ++ [x])
  | _ => (y.1, y.2 ++ [x])

/-- Issues some candidates in order. -/
def issueAll : List Cand → State → Out
  | [], s => .next s
  | x :: xs, s =>
    match runIssue (issueFrag s x.lid x.tid x.g x.f) with
    | .next s' => issueAll xs (noteIssue s' x)
    | .fault r => .fault r
    | .refused r => .refused r

/-- A core's issue slots in one core cycle: up to two gangs issue (R211). -/
def coreIssue (s : State) (core : Nat) : Out :=
  let y := (urgentCands s core).foldl tryCand (s, [])
  let z := (coreCands s core).foldl tryCand (y.1, [])
  let slots := slotPair y.2 z.2
  issueAll (actOrder slots) (noteOrder z.1 (slots.map (orderKey s core)))

/-- Takes one turn. A core's gangs issue once in a core cycle, and a hawk in each of its two hawk cycles, at 2.1 GHz (R22, R28), after
the gangs of its core (R74, R171); throttling withholds the slots (R23). -/
def takeTurn (turn : Turn) (s : State) : Out :=
  match turn with
  | .core c =>
    if s.throttled ∨ s.spent.contains turn ∨ hawkSpent s c then .next s else coreIssue { s with spent := turn :: s.spent } c
  | .hawk lid tid =>
    if s.throttled ∨ 2 ≤ countP (· == turn) s.spent then .next s else runIssue (issueHawk { s with spent := turn :: s.spent } lid tid)
  | .event i => if (encode i).isSome then .next s else exec i { s with cur := .none }
  | .evict core sector => .next (evictL1 s core (lineOf sector))
  | .evictL2 sector => .next (evictL2 s (lineOf sector))
  | .ctlWrite addr data => controlStore s addr data
  | .sequencer lid tid op => .next (sequencerTurn s lid tid op)
  | .corrected => .next (correctError s)
  | .train port => .next (startTraining s port.toNat)

/-- One step of the module. -/
def step (s : State) : Host.Outcome State Fault Refusal :=
  match s.agenda with
  | [] => .next (tick s)
  | turn :: rest => takeTurn turn { s with agenda := rest }

/-- The state with an instruction word where the next step fetches it: a launch with one running team whose gang (for a hawk
word, whose hawk) stands at that word inside a clause, or, for a clause header, at its header; a range that maps it; and the
turn of that stream (log 16). -/
def State.withFetchWord (s : State) (nbits w : Nat) : State := placeWord s (BitVec.ofNat 32 (w % 2 ^ nbits))

end Sys2Proof.Machine
end

