-- ==== Sys2Proof/Safety.lean ====
section
/-!
DEFINITION. The terms in which claims are made: what counts as a safe run, when a word of a gang or of the hawk executes (the
checks of R265, R267, R180, R260 and R261 on the state and the operands), and what an instruction of each shape leaves in the
registers of its stream. A gang's word that names its outcome as "the gang becomes gg" leaves every other part of the module
as it was, memory among it.
-/
namespace Sys2Proof.Machine

/-- A state from which one step answers a next state. -/
def Steps (s : State) : Prop := ∃ t, step s = .next t

/-- The canonical form of memory. -/
def MemCanonical (s : State) : Prop := Memory.wf s.mem = true

/-! ### When a word executes -/

/-- The checks of a gang's word: its hints (R265, R266), its place in the clause (R259), its flag and the room on it (R260), its
operand codes, the result count and pending registers (R63, R65, R261, R263), and the outstanding matrix instructions (R180). -/
def gangReady (w : WordInfo) (c : GCtx) : Bool :=
  (badHint w.accepts c.cl.hints []).isNone && (!w.ends || c.cl.left == 1) &&
  w.fs.all (fun fs => setField c.cl fs != 15 && (decide (flagOf c.gg.flags (flagFor c fs) < 63) || c.act == 0)) &&
  operandsOk c w && !matrixHeld c w.reads w.writes

/-- The fragment c of a running team issues, inside a clause, and the word's checks pass. -/
def GangRuns (s : State) (c : GCtx) (info : GCtx → WordInfo) : Prop :=
  gangCtx s = some c ∧ gangReady (info c) c = true

/-- The checks of a hawk's word: its hints, its place in the clause, its flag and the room on it, its operand codes, the guard
(R26), pending registers and conditions (R30, R261), and, inside a speculation window, that the word is executed there and the
window has room (R30, R31). -/
def hawkReady (w : HInfo) (c : HCtx) : Bool :=
  (badHint w.accepts c.cl.hints []).isNone && (!w.ends || c.cl.left == 1) &&
  w.fs.all (fun fs => setField c.cl fs != 15 && decide (flagOf c.hk.flags (hawkFlag c fs) < 63)) &&
  w.legal && c.act && !((w.reads ++ w.writes).any (kPending c.hk)) && !(w.cwrites.any (cPending c.hk)) &&
  (match c.hk.window with
    | none => true
    | some win => w.treat == .run && win.fault.isNone && !win.committing && decide (win.count < 64))

/-- The hawk c of a running team issues, inside a clause, and the word's checks pass. -/
def HawkRuns (s : State) (c : HCtx) (info : HCtx → HInfo) : Prop :=
  hawkCtx s = some c ∧ gangCtx s = none ∧ hawkReady (info c) c = true

/-- The same, with no speculation window open. -/
def HawkRunsPlain (s : State) (c : HCtx) (info : HCtx → HInfo) : Prop :=
  HawkRuns s c info ∧ c.hk.window = none

/-! ### What a word leaves in its stream -/

/-- The issuing gang becomes gg, and nothing else changes. -/
def GangBecomes (s t : State) (c : GCtx) (gg : Gang) : Prop := t = modGang s c.t c.g fun _ => gg

/-- The o registers after a word: the clause's end with KEEP 0 zeroes them in the fragment's lanes (R64). -/
def OpFile (c : GCtx) (gg : Gang) (val : Nat → Nat → Word) : Prop :=
  ∀ n l, n < 8 → l < 64 →
    laneOf (oReg gg n) l = if c.cl.left ≤ 1 ∧ c.cl.keep = false ∧ inMask c.fr.home l = true then 0 else val n l

/-- Inside its clause the fragment goes on with the next word (R257), its masks as they were. -/
def GoesOn (c : GCtx) (gg : Gang) (count : Nat) : Prop :=
  1 < c.cl.left → ∃ fr, fragOf gg c.f = some fr ∧ fr.pc = c.fr.pc + 4 ∧ fr.home = c.fr.home ∧ fr.exmask = c.fr.exmask ∧
    fr.clause = some { c.cl with left := c.cl.left - 1, hints := [] } ∧ fr.count = count

/-- The result count after one more result (R65); a replay whose instruction has raised it does not raise it again (R227). -/
def countUp (fr : Frag) : Nat :=
  match fr.replay with
  | some r => if r.counted then fr.count else min 2 (fr.count + 1)
  | none => min 2 (fr.count + 1)

/-- What a lane instruction with a 32-bit result leaves (R26, R27, R65, R71, R263): the value in the destination's written lanes
(active and helper lanes), the destination's tag invalid, the last-result file shifted, and every other register, flag and
queue of the gang as it was. -/
def LaneDone (c : GCtx) (gg : Gang) (d : Nat) (written : Mask) (val : Nat → Word) : Prop :=
  (∀ n l, l < 64 →
    laneOf (vReg gg n) l = if n = d ∧ n ≤ 111 ∧ inMask written l = true then val l else laneOf (vReg c.gg n) l) ∧
  OpFile c gg (fun n l => if n + 112 = d ∧ inMask written l = true then val l else laneOf (oReg c.gg n) l) ∧
  (∀ n, tagOf gg n = if n = d ∧ n ≤ 111 then tagOf c.gg n &&& ~~~1 else tagOf c.gg n) ∧
  (1 < c.cl.left → ∀ l, l < 64 →
    laneOf gg.y0 l = (if inMask written l then val l else laneOf c.gg.y0 l) ∧
    laneOf gg.y1 l = (if inMask written l then laneOf c.gg.y0 l else laneOf c.gg.y1 l)) ∧
  gg = { c.gg with v := gg.v, o := gg.o, y0 := gg.y0, y1 := gg.y1, tags := gg.tags, frags := gg.frags, stack := gg.stack } ∧
  GoesOn c gg (countUp c.fr)

/-- The rest of a gang after a word that writes no vector register: v registers, tags, and inside the clause the last-result
file and the result count, are as they were. -/
def Settled (c : GCtx) (gg : Gang) : Prop :=
  OpFile c gg (fun n l => laneOf (oReg c.gg n) l) ∧
  (1 < c.cl.left → gg.y0 = c.gg.y0 ∧ gg.y1 = c.gg.y1) ∧
  GoesOn c gg c.fr.count

/-- What a word with a predicate result leaves (R26, R307): p in the active lanes, and nothing else. -/
def PredDone (c : GCtx) (gg : Gang) (p : Nat) (val : Nat → Bool) : Prop :=
  (∀ n l, l < 64 →
    inMask (pReg gg n) l = if n = p ∧ inMask c.act l = true then val l else inMask (pReg c.gg n) l) ∧
  gg = { c.gg with p := gg.p, o := gg.o, y0 := gg.y0, y1 := gg.y1, frags := gg.frags, stack := gg.stack } ∧ Settled c gg

/-- What a word with a g result leaves: the g register, and nothing else. -/
def GprDone (c : GCtx) (gg : Gang) (d : Nat) (x : DWord) : Prop :=
  (∀ n, gReg gg n = if n = d then x else gReg c.gg n) ∧
  gg = { c.gg with g := gg.g, o := gg.o, y0 := gg.y0, y1 := gg.y1, frags := gg.frags, stack := gg.stack } ∧ Settled c gg

/-- What a word with a 64-bit vector result leaves in v[d] and v[d+1] (R5, R65, R71): the last-result file is as it was. -/
def PairDone (c : GCtx) (gg : Gang) (d : Nat) (written : Mask) (lo hi : Nat → Word) : Prop :=
  (∀ n l, l < 64 → laneOf (vReg gg n) l =
    if n = d ∧ inMask written l = true then lo l
    else if n = d + 1 ∧ inMask written l = true then hi l else laneOf (vReg c.gg n) l) ∧
  (∀ n, tagOf gg n = if n = d ∨ n = d + 1 then tagOf c.gg n &&& ~~~1 else tagOf c.gg n) ∧
  gg = { c.gg with v := gg.v, tags := gg.tags, o := gg.o, y0 := gg.y0, y1 := gg.y1, frags := gg.frags, stack := gg.stack } ∧
  Settled c gg

/-- A word that changes no register of its gang. -/
def NoRegister (c : GCtx) (gg : Gang) : Prop :=
  gg = { c.gg with o := gg.o, y0 := gg.y0, y1 := gg.y1, frags := gg.frags, stack := gg.stack } ∧ Settled c gg

/-! ### Completion with a result: exec answers a next state, and that state is as said -/

/-- A lane instruction completes with a 32-bit result in each written lane. -/
def LaneOut (i : Instr) (s : State) (c : GCtx) (d : BitVec 7) (val : Nat → Word) : Prop :=
  ∃ t gg, exec i s = .next t ∧ GangBecomes s t c gg ∧ LaneDone c gg d.toNat (writeLanes c) val

/-- A word completes with a predicate result in each active lane. -/
def PredOut (i : Instr) (s : State) (c : GCtx) (p : BitVec 5) (val : Nat → Bool) : Prop :=
  ∃ t gg, exec i s = .next t ∧ GangBecomes s t c gg ∧ PredDone c gg p.toNat val

/-- A word completes with a g result. -/
def GprOut (i : Instr) (s : State) (c : GCtx) (d : Nat) (x : DWord) : Prop :=
  ∃ t gg, exec i s = .next t ∧ GangBecomes s t c gg ∧ GprDone c gg d x

/-- A lane instruction completes with a 64-bit result in each written lane. -/
def PairOut (i : Instr) (s : State) (c : GCtx) (d : BitVec 7) (val : Nat → DWord) : Prop :=
  ∃ t gg, exec i s = .next t ∧ GangBecomes s t c gg ∧
    PairDone c gg d.toNat (writeLanes c) (fun l => (val l).truncate 32) (fun l => (val l >>> 32).truncate 32)

/-! ### What a word leaves in the hawk -/

/-- The hawk becomes hk, and nothing else changes. -/
def HawkBecomes (s t : State) (c : HCtx) (hk : Hawk) : Prop := t = modHawk s c.t fun _ => hk

/-- The hawk goes on with the next word of its clause, or at the next header (R257); inside a window the word counts (R30). -/
def HawkGoesOn (c : HCtx) (hk : Hawk) : Prop :=
  hk.pc = c.hk.pc + 4 ∧ hk.st = .issuing ∧
  hk.clause = (if c.cl.left ≤ 1 then none else some { c.cl with left := c.cl.left - 1, hints := [] }) ∧
  hk.window = c.hk.window.map fun w => { w with count := w.count + 1 }

/-- What a hawk word with a k result leaves: the k register, and nothing else (R319). -/
def KDone (c : HCtx) (hk : Hawk) (d : Nat) (x : DWord) : Prop :=
  (∀ n, kReg hk n = if n = d then x else kReg c.hk n) ∧
  hk = { c.hk with k := hk.k, pc := hk.pc, st := hk.st, clause := hk.clause, window := hk.window } ∧ HawkGoesOn c hk

/-- The end of a hawk word whose effect has left a state: the advance, and inside a window the count (R30, R257). -/
def hawkEnd (c : HCtx) (s : State) : State :=
  match c.hk.window with
  | none => advanceHawk s c.t
  | some _ => countWindow (advanceHawk s c.t) c.t

/-- A hawk word completes with a k result. -/
def KOut (i : Instr) (s : State) (c : HCtx) (d : Nat) (x : DWord) : Prop :=
  ∃ t hk, exec i s = .next t ∧ HawkBecomes s t c hk ∧ KDone c hk d x

/-- A hawk's word that changes no register. -/
def NoK (c : HCtx) (hk : Hawk) : Prop :=
  hk = { c.hk with pc := hk.pc, st := hk.st, clause := hk.clause, window := hk.window } ∧ HawkGoesOn c hk

/-! ### Words that either stream executes once -/

/-- A word that each stream executes once completes with the effect of its issuer, where the condition holds, and goes on. In a
gang with no active lane it only goes on (R158, R171). -/
def OnceOut (i : Instr) (s : State) (info : EInfo) (fs : BitVec 1) (cond : Issuer → Prop) (dest : Issuer → State) : Prop :=
  (∀ c, GangRuns s c (fun _ => gangInfo info) →
    (c.act = 0 → exec i s = .next (advance s c)) ∧
    (c.act ≠ 0 → cond (gangIssuer c fs) → exec i s = .next (advance (dest (gangIssuer c fs)) c))) ∧
  (∀ k, HawkRunsPlain s k (fun _ => hawkInfo info) → cond (hawkIssuer k fs) → exec i s = .next (hawkEnd k (dest (hawkIssuer k fs))))

/-- A word that each stream executes once traps with a cause and an address, where the condition holds, in the state that what it does
before its checks leaves (R158, R171, R354). -/
def OnceTrapsIn (i : Instr) (s : State) (info : EInfo) (fs : BitVec 1) (cause : Cause) (addr : Nat) (cls : Option EngineClass)
    (cond : Issuer → Prop) (dest : Issuer → State) : Prop :=
  (∀ c, GangRuns s c (fun _ => gangInfo info) → c.act ≠ 0 → cond (gangIssuer c fs) →
    exec i s = .next (trapAll (dest (gangIssuer c fs)) c i cause c.act (BitVec.ofNat 64 addr) cls)) ∧
  (∀ k, HawkRunsPlain s k (fun _ => hawkInfo info) → cond (hawkIssuer k fs) →
    exec i s = .next (trapHawk (dest (hawkIssuer k fs)) k i cause (BitVec.ofNat 64 addr) cls))

/-- A word that each stream executes once traps with a cause and an address, where the condition holds (R158, R171). -/
def OnceTraps (i : Instr) (s : State) (info : EInfo) (fs : BitVec 1) (cause : Cause) (addr : Nat) (cls : Option EngineClass)
    (cond : Issuer → Prop) : Prop :=
  OnceTrapsIn i s info fs cause addr cls cond fun _ => s

/-- A word that each stream executes once waits in a state, where the condition holds. -/
def OnceWaitsIn (i : Instr) (s : State) (info : EInfo) (w : Wait) (cond : Issuer → Prop) (dest : Issuer → State) : Prop :=
  (∀ c, GangRuns s c (fun _ => gangInfo info) → c.act ≠ 0 → cond (gangIssuer c 0) →
    exec i s = .next (waitFrag (dest (gangIssuer c 0)) c w)) ∧
  (∀ k, HawkRunsPlain s k (fun _ => hawkInfo info) → cond (hawkIssuer k 0) →
    exec i s = .next (waitHawk (dest (hawkIssuer k 0)) k.t w))

/-- A word that each stream executes once waits, where the condition holds: nothing else changes. -/
def OnceWaits (i : Instr) (s : State) (info : EInfo) (w : Wait) (cond : Issuer → Prop) : Prop :=
  OnceWaitsIn i s info w cond fun _ => s

end Sys2Proof.Machine
end

