-- ==== Sys2Proof/Certificates/Slice0/Obligations.lean ====
section
/-!
DEFINITION. The statements for the provers. Each docstring says what its statement says; the vocabulary (when a word executes,
what a word leaves) stands in Safety.lean.
-/
open Sys2Proof Sys2Proof.Machine

/-- Where the checks of the word pass, IADD, ISUB, IMUL, IMULHI, IMIN and IMAX (two sources), IMAD (which reads its destination)
and IABS (one source) answer a next state for every operand value. In each active and helper lane the destination holds the
exact integer result, modulo 2^32 or saturated with .SAT, read unsigned with .U where the word has it. The last-result file
shifts, the tag of a v destination is cleared, and no other register, flag, queue, team, byte of memory or other part of the
module changes. With destination code 120 only the last-result file is written. -/
def Obligations.IntegerArithmetic : Prop :=
  ∀ (s : State) (c : GCtx) (m : BitVec 1) (d : BitVec 7) (a : BitVec 8) (b : BitVec 7),
    let x := srcLane s c a.toNat
    let y := srcLane s c (secondCode c b)
    let z := srcLane s c d.toNat
    let narrowed (n : Int) : Word := BitVec.ofInt 32 (if m = 1 then satInt n (-(2 ^ 31)) (2 ^ 31 - 1) else n)
    (GangRuns s c (fun c => v3Info c useNone d a (some b) false) →
      LaneOut (.iadd m d a b) s c d (fun l => narrowed ((x l).toInt + (y l).toInt)) ∧
      LaneOut (.isub m d a b) s c d (fun l => narrowed ((x l).toInt - (y l).toInt)) ∧
      LaneOut (.imul d a b) s c d (fun l => x l * y l) ∧
      LaneOut (.imulhi m d a b) s c d (fun l =>
        if m = 1 then BitVec.ofNat 32 ((x l).toNat * (y l).toNat / 2 ^ 32)
        else BitVec.ofInt 32 ((x l).toInt * (y l).toInt / 2 ^ 32)) ∧
      LaneOut (.imin m d a b) s c d (fun l =>
        if m = 1 then (if (x l).toNat ≤ (y l).toNat then x l else y l) else if (x l).toInt ≤ (y l).toInt then x l else y l) ∧
      LaneOut (.imax m d a b) s c d (fun l =>
        if m = 1 then (if (y l).toNat ≤ (x l).toNat then x l else y l) else if (y l).toInt ≤ (x l).toInt then x l else y l)) ∧
    (GangRuns s c (fun c => v3Info c useNone d a (some b) true) →
      LaneOut (.imad m d a b) s c d (fun l => narrowed ((x l).toInt * (y l).toInt + (z l).toInt))) ∧
    (GangRuns s c (fun c => v3Info c useNone d a none false) →
      LaneOut (.iabs m d a) s c d (fun l => narrowed (if (x l).toInt < 0 then -(x l).toInt else (x l).toInt)))

/-- Where the checks of the word pass, AND, OR and XOR give the bitwise result, and SHL, SHR and SHRA shift by the low six bits of
the second source, in each active and helper lane. A count of 32 or more gives 0, and for SHRA 0xFFFFFFFF where the sign bit
is set. Nothing else of the module changes but the last-result file and the destination's tag. -/
def Obligations.BitwiseAndShifts : Prop :=
  ∀ (s : State) (c : GCtx) (d : BitVec 7) (a : BitVec 8) (b : BitVec 7),
    let x := srcLane s c a.toNat
    let y := srcLane s c (secondCode c b)
    let n (l : Nat) : Nat := (y l).toNat % 64
    GangRuns s c (fun c => v3Info c useNone d a (some b) false) →
      LaneOut (.and d a b) s c d (fun l => x l &&& y l) ∧
      LaneOut (.or d a b) s c d (fun l => x l ||| y l) ∧
      LaneOut (.xor d a b) s c d (fun l => x l ^^^ y l) ∧
      LaneOut (.shl d a b) s c d (fun l => if n l < 32 then BitVec.ofNat 32 ((x l).toNat * 2 ^ n l) else 0) ∧
      LaneOut (.shr d a b) s c d (fun l => if n l < 32 then BitVec.ofNat 32 ((x l).toNat / 2 ^ n l) else 0) ∧
      LaneOut (.shra d a b) s c d (fun l =>
        if n l < 32 then BitVec.ofInt 32 ((x l).toInt / 2 ^ n l) else if (x l).msb then 0xFFFFFFFF else 0)

/-- Where the checks of the word pass: BFE gives the field of width b[12:8] at offset b[4:0] of the first source, zero-extended
with .U and sign-extended otherwise, with bits above bit 31 read as 0 or as the sign, and 0 for width 0. BFI replaces that
field of the destination's old value by the low bits of the first source and keeps the other bits. POPC counts the set bits,
CLZ the zero bits above the highest set bit (32 for zero), and BREV reverses the bits. Nothing else of the module changes but
the last-result file and the destination's tag. -/
def Obligations.BitFieldsAndCounts : Prop :=
  ∀ (s : State) (c : GCtx) (m : BitVec 1) (d : BitVec 7) (a : BitVec 8) (b : BitVec 7),
    let x := srcLane s c a.toNat
    let off (l : Nat) : Nat := (srcLane s c (secondCode c b) l).toNat % 32
    let wd (l : Nat) : Nat := (srcLane s c (secondCode c b) l).toNat / 2 ^ 8 % 32
    (GangRuns s c (fun c => v3Info c useNone d a (some b) false) →
      LaneOut (.bfe m d a b) s c d (fun l =>
        if wd l = 0 then 0
        else if m = 1 then BitVec.ofNat 32 ((x l).toNat / 2 ^ off l % 2 ^ wd l)
        else BitVec.ofInt 32 (((x l).toInt / 2 ^ off l).bmod (2 ^ wd l)))) ∧
    (GangRuns s c (fun c => v3Info c useNone d a (some b) true) →
      ∃ val, LaneOut (.bfi d a b) s c d val ∧ ∀ l k, l < 64 → k < 32 →
        (val l).getLsbD k = if off l ≤ k ∧ k < off l + wd l then (x l).getLsbD (k - off l)
          else (srcLane s c d.toNat l).getLsbD k) ∧
    (GangRuns s c (fun c => v3Info c useNone d a none false) →
      LaneOut (.popc d a) s c d (fun l => BitVec.ofNat 32 (countP (fun k => (x l).getLsbD k) (List.range 32))) ∧
      LaneOut (.clz d a) s c d (fun l => if x l = 0 then 32 else BitVec.ofNat 32 (31 - Nat.log2 (x l).toNat)) ∧
      ∃ val, LaneOut (.brev d a) s c d val ∧ ∀ l k, l < 64 → k < 32 → (val l).getLsbD k = (x l).getLsbD (31 - k))

/-- Where the hints, the result count, pending registers and the interlocks let the word run: with an even destination pair below
V, a first source that is an even pair below V or a g register and a second source that may be read, LEA completes, and in
each active and helper lane v[d+1]:v[d] holds the 64-bit sum of the address and the second source, sign-extended or with .U
zero-extended, modulo 2^64. Both tags are cleared and the last-result file is unchanged. With operands that are not such, it
takes the trap ILLEGAL_OPERAND, whose record names the active lanes in FLTMASK. -/
def Obligations.LeaPair : Prop :=
  ∀ (s : State) (c : GCtx) (m : BitVec 1) (d : BitVec 7) (a : BitVec 8) (b : BitVec 7),
    let y := secondCode c b
    GangRuns s c (fun c => { plainInfo with
      accepts := acceptsOper, count := srcCount (secondCode c b), writes := [.v d.toNat, .v (d.toNat + 1)]
      reads := (match gCode a.toNat with
        | some n => [.g n]
        | none => [.v a.toNat, .v (a.toNat + 1)]) ++ srcRegs (secondCode c b) }) →
    if pairOk c.tm.vregs d.toNat && addrOk c.tm.vregs a.toNat && srcOk c.tm.vregs y && operLegal c useNone (b == 127) then
      PairOut (.lea m d a b) s c d (fun l =>
        addrLane c a.toNat l + if m = 1 then (srcLane s c y l).zeroExtend 64 else (srcLane s c y l).signExtend 64)
    else exec (.lea m d a b) s = .next (trapAll s c (.lea m d a b) .illegalOperand c.act 0)

/-- Where the checks of the word pass: MOV copies a source. SELP gives the first source in a lane where the predicate that its
operand-form IMMX names is true, and the second elsewhere. The immediate forms of MOV, IADD, IMUL, IMIN, IMAX, AND, OR, XOR,
SHL, SHR and SHRA use their 8-bit immediate sign-extended, or the 32-bit value that an immediate-form IMMX completes. Shifts
use the immediate's low six bits. Nothing else of the module changes but the last-result file and the destination's tag. -/
def Obligations.MovSelpAndImmediates : Prop :=
  ∀ (s : State) (c : GCtx) (d : BitVec 7) (a : BitVec 8) (b : BitVec 7) (imm : BitVec 8),
    let x := srcLane s c a.toNat
    let y := srcLane s c (secondCode c b)
    let k : Word := match immHint c.cl.hints with
      | some p => BitVec.ofNat 32 (p * 2 ^ 8 + imm.toNat)
      | none => imm.signExtend 32
    let n : Nat := k.toNat % 64
    (GangRuns s c (fun c => v3Info c useNone d a none false) → LaneOut (.mov d a) s c d x) ∧
    (∀ o, operHint c.cl.hints = some o → o.pc < 24 → isPending c.gg (.p o.pc) = false →
      GangRuns s c (fun c => v3Info c { useNone with pc := true } d a (some b) false) →
      LaneOut (.selp d a b) s c d (fun l => if inMask (pReg c.gg o.pc) l then x l else y l)) ∧
    (GangRuns s c (fun c => viInfo c d none false) → LaneOut (.movImm d imm) s c d (fun _ => k)) ∧
    (GangRuns s c (fun c => viInfo c d (some a) false) →
      LaneOut (.iaddImm d a imm) s c d (fun l => x l + k) ∧
      LaneOut (.imulImm d a imm) s c d (fun l => x l * k) ∧
      LaneOut (.iminImm d a imm) s c d (fun l => if (x l).toInt ≤ k.toInt then x l else k) ∧
      LaneOut (.imaxImm d a imm) s c d (fun l => if k.toInt ≤ (x l).toInt then x l else k) ∧
      LaneOut (.andImm d a imm) s c d (fun l => x l &&& k) ∧
      LaneOut (.orImm d a imm) s c d (fun l => x l ||| k) ∧
      LaneOut (.xorImm d a imm) s c d (fun l => x l ^^^ k) ∧
      LaneOut (.shlImm d a imm) s c d (fun l => if n < 32 then BitVec.ofNat 32 ((x l).toNat * 2 ^ n) else 0) ∧
      LaneOut (.shrImm d a imm) s c d (fun l => if n < 32 then BitVec.ofNat 32 ((x l).toNat / 2 ^ n) else 0) ∧
      LaneOut (.shraImm d a imm) s c d (fun l =>
        if n < 32 then BitVec.ofInt 32 ((x l).toInt / 2 ^ n) else if (x l).msb then 0xFFFFFFFF else 0))

/-- CMB of R307: set, AND, OR or XOR with the predicate's old value. -/
def Sys2Proof.Machine.cmbLane (c : BitVec 2) (old r : Bool) : Bool :=
  if c = 0 then r else if c = 1 then old && r else if c = 2 then old || r else old != r

/-- Where the checks of the word pass, FADD, FSUB, FMUL, FFMA (its destination is the addend) and FFMAY (y0 is the addend) give
the exact result of their FP32 sources rounded once in the mode that the operand-form IMMX names, nearest even without one.
FMIN and FMAX give the lesser and the greater under R81. FSCALE multiplies by 2 to the power of its integer second source,
rounded to nearest even. FCLASS gives the one-hot class mask. Each completes for every operand, NaN and infinity included, in
each active and helper lane, and nothing else of the module changes but the last-result file and the destination's tag. -/
def Obligations.FloatArithmetic : Prop :=
  ∀ (s : State) (c : GCtx) (d : BitVec 7) (a : BitVec 8) (b : BitVec 7),
    let x (l : Nat) : FVal := f32 (srcF32 s c a.toNat l)
    let y (l : Nat) : FVal := f32 (srcF32 s c (secondCode c b) l)
    let rm := roundingMode c
    (GangRuns s c (fun c => v3Info c useRm d a (some b) false) →
      LaneOut (.fadd d a b) s c d (fun l => toF32 rm (addF rm (x l) (y l))) ∧
      LaneOut (.fsub d a b) s c d (fun l => toF32 rm (addF rm (x l) (negF (y l)))) ∧
      LaneOut (.fmul d a b) s c d (fun l => toF32 rm (mulF (x l) (y l))) ∧
      (1 ≤ c.fr.count → c.fr.yPending.getLsbD 0 = false →
        LaneOut (.ffmay d a b) s c d (fun l => toF32 rm (addF rm (mulF (x l) (y l)) (f32 (laneOf c.gg.y0 l)))))) ∧
    (GangRuns s c (fun c => v3Info c useRm d a (some b) true) →
      LaneOut (.ffma d a b) s c d (fun l => toF32 rm (addF rm (mulF (x l) (y l)) (f32 (srcLane s c d.toNat l))))) ∧
    (GangRuns s c (fun c => v3Info c useNone d a (some b) false) →
      LaneOut (.fmin d a b) s c d (fun l =>
        BitVec.ofNat 32 (fminF fp32 (srcF32 s c a.toNat l).toNat (srcF32 s c (secondCode c b) l).toNat)) ∧
      LaneOut (.fmax d a b) s c d (fun l =>
        BitVec.ofNat 32 (fmaxF fp32 (srcF32 s c a.toNat l).toNat (srcF32 s c (secondCode c b) l).toNat)) ∧
      LaneOut (.fscale d a b) s c d (fun l => toF32 .rn (match x l with
        | .fin neg m e => .fin neg m (e + (srcLane s c (secondCode c b) l).toInt)
        | v => v))) ∧
    (GangRuns s c (fun c => v3Info c useNone d a none false) →
      LaneOut (.fclass d a) s c d (fun l => fClass (srcF32 s c a.toNat l)))

/-- Where the checks of the word pass, HADD2, HMUL2 and HFMA2 compute each of the two 16-bit elements, FP16 or with .BF BF16,
exactly and round it once in the selected mode. FADD, FMUL, FMIN, FMAX and FFMA with an immediate use the immediate converted
to FP32, or the bit pattern that an IMMX completes, and round to nearest even. Nothing else of the module changes but the
last-result file and the destination's tag. -/
def Obligations.PackedAndImmediateFloats : Prop :=
  ∀ (s : State) (c : GCtx) (m : BitVec 1) (d : BitVec 7) (a : BitVec 8) (b : BitVec 7) (imm : BitVec 8),
    let fm : Fmt := if m = 1 then bf16 else fp16
    let x (l j : Nat) : FVal := decodeF fm (halfOf (srcHalves s c fm a.toNat l) j)
    let y (l j : Nat) : FVal := decodeF fm (halfOf (srcHalves s c fm (secondCode c b) l) j)
    let z (l j : Nat) : FVal := decodeF fm (halfOf (srcLane s c d.toNat l) j)
    let rm := roundingMode c
    let u (l : Nat) : FVal := f32 (srcF32 s c a.toNat l)
    let k : FVal := f32 (viFloat c imm)
    (GangRuns s c (fun c => v3Info c useRm d a (some b) false) →
      LaneOut (.hadd2 m d a b) s c d (fun l => packHalves fun j => roundF fm rm (addF rm (x l j) (y l j))) ∧
      LaneOut (.hmul2 m d a b) s c d (fun l => packHalves fun j => roundF fm rm (mulF (x l j) (y l j)))) ∧
    (GangRuns s c (fun c => v3Info c useRm d a (some b) true) →
      LaneOut (.hfma2 m d a b) s c d (fun l => packHalves fun j => roundF fm rm (addF rm (mulF (x l j) (y l j)) (z l j)))) ∧
    (GangRuns s c (fun c => viInfo c d (some a) false) →
      LaneOut (.faddImm d a imm) s c d (fun l => toF32 .rn (addF .rn (u l) k)) ∧
      LaneOut (.fmulImm d a imm) s c d (fun l => toF32 .rn (mulF (u l) k)) ∧
      LaneOut (.fminImm d a imm) s c d (fun l =>
        BitVec.ofNat 32 (fminF fp32 (srcF32 s c a.toNat l).toNat (viFloat c imm).toNat)) ∧
      LaneOut (.fmaxImm d a imm) s c d (fun l =>
        BitVec.ofNat 32 (fmaxF fp32 (srcF32 s c a.toNat l).toNat (viFloat c imm).toNat))) ∧
    (GangRuns s c (fun c => viInfo c d (some a) true) →
      LaneOut (.ffmaImm d a imm) s c d (fun l => toF32 .rn (addF .rn (mulF (u l) k) (f32 (srcLane s c d.toNat l)))))

/-- Where the checks of the word pass, each ICMP completes: in every active lane the predicate is set to the comparison of the two
32-bit values, or combined with it by AND, OR or XOR under CMB. Helper and inactive lanes keep it, and no other register
changes. -/
def Obligations.IntegerCompares : Prop :=
  ∀ (s : State) (c : GCtx) (p : BitVec 5) (m : BitVec 2) (a b : BitVec 8), GangRuns s c (fun c => cmpInfo c p a b) →
    let x := srcLane s c a.toNat
    let y := srcLane s c b.toNat
    let into (f : Nat → Bool) (l : Nat) : Bool := cmbLane m (inMask (pReg c.gg p.toNat) l) (f l)
    PredOut (.icmpEq p m a b) s c p (into fun l => decide (x l = y l)) ∧
    PredOut (.icmpNe p m a b) s c p (into fun l => decide (x l ≠ y l)) ∧
    PredOut (.icmpLt p m a b) s c p (into fun l => decide ((x l).toInt < (y l).toInt)) ∧
    PredOut (.icmpLe p m a b) s c p (into fun l => decide ((x l).toInt ≤ (y l).toInt)) ∧
    PredOut (.icmpGt p m a b) s c p (into fun l => decide ((y l).toInt < (x l).toInt)) ∧
    PredOut (.icmpGe p m a b) s c p (into fun l => decide ((y l).toInt ≤ (x l).toInt)) ∧
    PredOut (.icmpLtu p m a b) s c p (into fun l => decide ((x l).toNat < (y l).toNat)) ∧
    PredOut (.icmpLeu p m a b) s c p (into fun l => decide ((x l).toNat ≤ (y l).toNat)) ∧
    PredOut (.icmpGtu p m a b) s c p (into fun l => decide ((y l).toNat < (x l).toNat)) ∧
    PredOut (.icmpGeu p m a b) s c p (into fun l => decide ((y l).toNat ≤ (x l).toNat))

/-- Where the checks of the word pass, each FCMP completes: in every active lane the predicate takes the comparison of the two
FP32 values, -0 equal to +0, under CMB. With a NaN operand EQ, LT, LE, GT, GE and NUM are false, and NE and NAN are true.
Helper and inactive lanes keep the predicate, and no other register changes. -/
def Obligations.FloatCompares : Prop :=
  ∀ (s : State) (c : GCtx) (p : BitVec 5) (m : BitVec 2) (a b : BitVec 8), GangRuns s c (fun c => cmpInfo c p a b) →
    let x (l : Nat) : FVal := f32 (srcF32 s c a.toNat l)
    let y (l : Nat) : FVal := f32 (srcF32 s c b.toNat l)
    let nan (l : Nat) : Bool := isNanF (x l) || isNanF (y l)
    let into (f : Nat → Bool) (l : Nat) : Bool := cmbLane m (inMask (pReg c.gg p.toNat) l) (f l)
    PredOut (.fcmpEq p m a b) s c p (into fun l => !nan l && decide (cmpF (x l) (y l) = 0)) ∧
    PredOut (.fcmpNe p m a b) s c p (into fun l => nan l || decide (cmpF (x l) (y l) ≠ 0)) ∧
    PredOut (.fcmpLt p m a b) s c p (into fun l => !nan l && decide (cmpF (x l) (y l) < 0)) ∧
    PredOut (.fcmpLe p m a b) s c p (into fun l => !nan l && decide (cmpF (x l) (y l) ≤ 0)) ∧
    PredOut (.fcmpGt p m a b) s c p (into fun l => !nan l && decide (0 < cmpF (x l) (y l))) ∧
    PredOut (.fcmpGe p m a b) s c p (into fun l => !nan l && decide (0 ≤ cmpF (x l) (y l))) ∧
    PredOut (.fcmpNum p m a b) s c p (into fun l => !nan l) ∧
    PredOut (.fcmpNan p m a b) s c p (into nan)

/-- Where the word's hints, pending registers and the interlocks let it run: with predicate numbers below 24 (and a g source for
PSET, a mode of 0 to 2 for VOTE), PLOP puts bit 2 pa + pb of its table and PSET bit L of a g register into the predicate of
each active lane, under CMB. BALLOT writes the mask of the active lanes whose predicate is true to a g register, and writes
nothing with no active lane. VOTE writes ANY, ALL or UNI over the active lanes to the predicate of every active lane, and
nothing with no active lane. Nothing else of the module changes. Other numbers and modes trap with ILLEGAL_OPERAND. -/
def Obligations.PredicateLogicAndVotes : Prop :=
  ∀ (s : State) (c : GCtx) (p q r : BitVec 5) (m : BitVec 2) (a : BitVec 8) (t : BitVec 4),
    let pr (n l : Nat) : Bool := inMask (pReg c.gg n) l
    let traps (i : Instr) : Prop := exec i s = .next (trapAll s c i .illegalOperand c.act 0)
    (GangRuns s c (fun _ => { plainInfo with reads := [.p q.toNat, .p r.toNat], writes := [.p p.toNat] }) →
      if p.toNat < 24 ∧ q.toNat < 24 ∧ r.toNat < 24 then
        PredOut (.plop p m q r t) s c p (fun l => cmbLane m (pr p.toNat l)
          (t.getLsbD (2 * (pr q.toNat l).toNat + (pr r.toNat l).toNat)))
      else traps (.plop p m q r t)) ∧
    (GangRuns s c (fun _ => { plainInfo with reads := srcRegs a.toNat, writes := [.p p.toNat] }) →
      if p.toNat < 24 ∧ 128 ≤ a.toNat ∧ a.toNat ≤ 159 then
        PredOut (.pset p m a) s c p (fun l => cmbLane m (pr p.toNat l) ((gReg c.gg (a.toNat - 128)).getLsbD l))
      else traps (.pset p m a)) ∧
    (GangRuns s c (fun _ => { plainInfo with reads := [.p p.toNat], writes := [.g q.toNat] }) →
      if p.toNat < 24 then
        (c.act ≠ 0 → GprOut (.ballot q p) s c q.toNat (c.act &&& pReg c.gg p.toNat)) ∧
        (c.act = 0 → ∃ t gg, exec (.ballot q p) s = .next t ∧ GangBecomes s t c gg ∧ NoRegister c gg)
      else traps (.ballot q p)) ∧
    (GangRuns s c (fun _ => { plainInfo with reads := [.p q.toNat], writes := [.p p.toNat] }) →
      if p.toNat < 24 ∧ q.toNat < 24 ∧ m ≠ 3 then
        let any := (List.range 64).any fun l => inMask c.act l && pr q.toNat l
        let all := (List.range 64).all fun l => !inMask c.act l || pr q.toNat l
        PredOut (.vote p m q) s c p (fun _ => if m = 0 then any else if m = 1 then all else all || !any)
      else traps (.vote p m q))

/-- Where the checks of the word pass, SHFL reads the source in the lane that the second source names (XORed with the lane's own
index with .BFLY), QSWAP in the XOR partner and QBCAST in the named lane of the quad. A lane outside the fragment's home mask
gives zero. MASKRD writes EXMASK to a g register. MASKWR in an unguarded clause sets EXMASK to a subset of the home mask, and
otherwise traps with ILLEGAL_CONVERGENCE and leaves EXMASK as it was. QSWAP with a partner of 0 and MASKWR of a source that is
no g register trap with ILLEGAL_OPERAND. -/
def Obligations.LaneExchangesAndMasks : Prop :=
  ∀ (s : State) (c : GCtx) (m : BitVec 1) (d : BitVec 7) (a : BitVec 8) (b : BitVec 7) (x : BitVec 2) (g : BitVec 5),
    -- An operand value that the form does not have, behind no bad hint.
    let refuses (i : Instr) : Prop := gangCtx s = some c → badHint acceptsNone c.cl.hints [] = none →
      exec i s = .next (trapAll s c i .illegalOperand c.act 0)
    let from' (k : Nat) : Word := if inMask c.fr.home k then srcLane s c a.toNat k else 0
    (GangRuns s c (fun c => exchangeInfo c d a (some b)) →
      LaneOut (.shfl m d a b) s c d (fun l =>
        let i := (srcLane s c b.toNat l).toNat % 64
        from' (if m = 1 then Nat.xor l i else i))) ∧
    refuses (.qswap d a 0) ∧ (a.toNat < 128 ∨ 159 < a.toNat → refuses (.maskwr a)) ∧
    (GangRuns s c (fun c => exchangeInfo c d a none) →
      (x ≠ 0 → LaneOut (.qswap d a x) s c d (fun l => from' (l / 4 * 4 + Nat.xor (l % 4) x.toNat))) ∧
      LaneOut (.qbcast d a x) s c d (fun l => from' (l / 4 * 4 + x.toNat))) ∧
    (GangRuns s c (fun _ => { plainInfo with writes := [.g g.toNat] }) → GprOut (.maskrd g) s c g.toNat c.fr.exmask) ∧
    (128 ≤ a.toNat → a.toNat ≤ 159 → GangRuns s c (fun _ => { plainInfo with reads := srcRegs a.toNat }) →
      let v := gReg c.gg (a.toNat - 128)
      (if c.cl.guard = 31 ∧ v &&& ~~~c.fr.home = 0 then
        ∃ t gg, exec (.maskwr a) s = .next t ∧ GangBecomes s t c gg ∧
          gg = { c.gg with o := gg.o, y0 := gg.y0, y1 := gg.y1, frags := gg.frags, stack := gg.stack } ∧
          (1 < c.cl.left → ∃ fr, fragOf gg c.f = some fr ∧ fr.exmask = v ∧ fr.home = c.fr.home ∧ fr.pc = c.fr.pc + 4)
      else exec (.maskwr a) s = .next (trapAll s c (.maskwr a) .illegalConvergence c.act 0)))

/-- Stochastic rounding to a format (R83), with low an exponent below those of the format's values and of the number rounded: a
value of the format stays as it is, between two neighbours the random word chooses, and past the largest finite value the
result is the infinity of an IEEE format, else the largest finite value. -/
def Sys2Proof.Machine.StochasticRounding (f : Fmt) : Prop :=
  ∀ (u m : Nat) (neg : Bool) (e low : Int), m ≠ 0 → low ≤ e → low ≤ 1 - (f.bias : Int) - f.fbits →
    let x := alignedAt low false m e
    let v (b : Nat) : Int := match decodeF f b with
      | .fin _ mb eb => alignedAt low false mb eb
      | _ => 0
    let y := roundSr f u (.fin neg m e)
    (∀ b, b ≤ maxFinite f → v b = x → y = signBit f neg + b) ∧
    (∀ b, b < maxFinite f → v b < x → x < v (b + 1) →
      y = signBit f neg + if 2 ^ 32 ≤ u + ((x - v b) * 2 ^ 32 / (v (b + 1) - v b)).toNat then b + 1 else b) ∧
    (v (maxFinite f) < x → y = if f.top = .ieee then infBits f neg else signBit f neg + maxFinite f)

/-- What a conversion to E2M1 leaves (R297, R298): the destination's written lanes hold the word elem, the low byte of the scale
register is 0xFF in the written lanes whose source is a NaN, both registers' tags are invalid, and the last-result file, the
result count and every other register are as they were. -/
def Sys2Proof.Machine.ScaledDone (c : GCtx) (gg : Gang) (d sc : Nat) (elem : Nat → Word) (nan : Nat → Bool) : Prop :=
  let into (n l : Nat) (old : Word) : Word :=
    let w := if n = d ∧ inMask (writeLanes c) l = true then elem l else old
    if n = sc ∧ inMask (writeLanes c) l = true ∧ nan l = true then w ||| 0xFF else w
  (∀ n l, l < 64 → laneOf (vReg gg n) l =
    if n ≤ 111 then into n l (laneOf (vReg c.gg n) l) else laneOf (vReg c.gg n) l) ∧
  OpFile c gg (fun n l => into (n + 112) l (laneOf (oReg c.gg n) l)) ∧
  (∀ n, tagOf gg n = if n ≤ 111 ∧ (n = d ∨ n = sc) then tagOf c.gg n &&& ~~~1 else tagOf c.gg n) ∧
  (1 < c.cl.left → gg.y0 = c.gg.y0 ∧ gg.y1 = c.gg.y1) ∧ GoesOn c gg c.fr.count ∧
  gg = { c.gg with v := gg.v, o := gg.o, y0 := gg.y0, y1 := gg.y1, tags := gg.tags, frags := gg.frags, stack := gg.stack }

/-- Where the checks of the word pass, CVT to a format of at most 32 bits other than E2M1 converts the source element of each
active and helper lane and writes it to the element that EL selects, keeping the destination's other elements. A 64-bit target
fills the register pair. CVTSR does the same with the stochastic rounding of R83 by the lane's random word, and then advances
the generator's counter by one exactly when a lane is active. To E2M1 either writes the element of the value times 2^(127 -
s), where s is the low byte of the scale register, an infinity as 6 with its sign, and 0 for a NaN or where s is 0xFF. In a
lane with a NaN the low byte of the scale register becomes 0xFF. Stochastic rounding keeps a value of the format, takes
between two neighbours the one away from zero exactly when the random word plus the fraction times 2^32 reaches 2^32, and past
the largest finite value gives infinity, or in E4M3 and E2M1 the largest finite value. -/
def Obligations.Conversions : Prop :=
  ∀ (s : State) (c : GCtx) (t : BitVec 4) (d : BitVec 7) (a : BitVec 8) (sf : BitVec 4),
    let el := (operOr c).el
    let sc := (operOr c).sc
    let w := widthOf t.toNat
    let x (l : Nat) : FVal := (cvtSource s c sf.toNat a.toNat l).toF
    let mode : Rounding := .mode (roundingMode c) (operOr c).sat
    let random (l : Nat) : Nat := (rngWord c.gg.rng (rngKey s c) (l + 64 * (el % 4))).toNat
    let kept (l y : Nat) : Word := putElement w el (srcLane s c d.toNat l) y
    let scale (l : Nat) : Nat := (srcLane s c sc l).toNat % 256
    let scaled (r : Rounding) (l : Nat) : Word := putElement 4 el (srcLane s c d.toNat l)
      (if scale l = 255 then 0 else match x l with
        | .nan => 0
        | .inf neg => if neg then 15 else 7
        | .fin neg m e => roundBy fpE2M1 r (.fin neg m (e + 127 - (scale l : Int))))
    let counted : BitVec 128 := if c.act = 0 then c.gg.rng else c.gg.rng + 1
    (GangRuns s c (fun c => cvtInfo c t d a sf true) →
      let y (l : Nat) : Nat := cvtResult t.toNat mode (cvtSource s c sf.toNat a.toNat l)
      (t.toNat ≠ 5 → w < 64 → LaneOut (.cvt t d a sf) s c d (fun l => if w = 32 then BitVec.ofNat 32 (y l) else kept l (y l))) ∧
      (w = 64 → PairOut (.cvt t d a sf) s c d (fun l => BitVec.ofNat 64 (y l))) ∧
      (t.toNat = 5 → ∃ u gg, exec (.cvt t d a sf) s = .next u ∧ GangBecomes s u c gg ∧
        ScaledDone c gg d.toNat sc (scaled mode) (fun l => isNanF (x l)))) ∧
    (1 ≤ t.toNat → t.toNat ≤ 5 → sf = 0 → (operOr c).rm = 0 → (operOr c).sat = false →
      GangRuns s c (fun c => cvtInfo c t d a sf true) →
      ∃ u gg, exec (.cvtsr t d a sf) s = .next u ∧ GangBecomes s u c { gg with rng := counted } ∧
        (∀ f, t.toNat ≠ 5 → fmtOf t.toNat = some f →
          LaneDone c gg d.toNat (writeLanes c) (fun l => kept l (roundSr f (random l) (x l)))) ∧
        (t.toNat = 5 → ScaledDone c gg d.toNat sc (fun l => scaled (.stoch (random l)) l) (fun l => isNanF (x l)))) ∧
    (∀ f ∈ [fp16, bf16, fpE5M2, fpE4M3, fpE2M1], StochasticRounding f)

/-- Where the checks of the word pass, EXP2, LOG2, RCP, RSQRT, SINPI and COSPI give the function of the FP32 source rounded to
nearest even, and SQRT in the selected mode; that these are computed with 400 fraction bits and rounded once is the model's
inference from R85's correct rounding (log 73). RNG gives each lane its random word and advances the counter C by one when a
lane is active. RNGSAVE writes C to an even g register and the next, and RNGSET loads C from such a pair, each only with an
active lane. An odd index traps with ILLEGAL_OPERAND. -/
def Obligations.SpecialFunctionsAndGenerator : Prop :=
  ∀ (s : State) (c : GCtx) (d : BitVec 7) (a : BitVec 8) (j : BitVec 2) (g : BitVec 5),
    let x (l : Nat) : FVal := f32 (srcF32 s c a.toNat l)
    (GangRuns s c (fun c => v3Info c useNone d a none false) →
      LaneOut (.exp2 d a) s c d (fun l => toF32 .rn (exp2F (x l))) ∧
      LaneOut (.log2 d a) s c d (fun l => toF32 .rn (log2F (x l))) ∧
      LaneOut (.rcp d a) s c d (fun l => toF32 .rn (rcpF (x l))) ∧
      LaneOut (.rsqrt d a) s c d (fun l => toF32 .rn (rsqrtF (x l))) ∧
      LaneOut (.sinpi d a) s c d (fun l => toF32 .rn (sinpiF (x l))) ∧
      LaneOut (.cospi d a) s c d (fun l => toF32 .rn (cospiF (x l)))) ∧
    (GangRuns s c (fun c => v3Info c useRm d a none false) →
      LaneOut (.sqrt d a) s c d (fun l => toF32 (roundingMode c) (sqrtF (x l)))) ∧
    (GangRuns s c (fun c => { plainInfo with
        accepts := acceptsOper, legal := dstOk c.tm.vregs d.toNat && operLegal c useNone false, writes := dstRegs d.toNat }) →
      ∃ s', exec (.rng d j) s = .next (advance s' c) ∧
        s' = rngAdvance (writeResult s c d.toNat (writeLanes c) (mkLanes fun l =>
          rngWord c.gg.rng (rngKey s c) (l + 64 * j.toNat))) c ∧
        ∃ gg, s' = (modGang s c.t c.g fun _ => gg) ∧ gg.rng = if c.act = 0 then c.gg.rng else c.gg.rng + 1) ∧
    (GangRuns s c (fun c => { plainInfo with
        accepts := acceptsOper, legal := operLegal c useNone false, writes := [.g g.toNat, .g (g.toNat + 1)] }) →
      if g.toNat % 2 = 0 then
        ∃ t gg, exec (.rngsave g) s = .next t ∧ GangBecomes s t c gg ∧ ∀ n, gReg gg n =
          if c.act ≠ 0 ∧ n = g.toNat then c.gg.rng.truncate 64
          else if c.act ≠ 0 ∧ n = g.toNat + 1 then (c.gg.rng >>> 64).truncate 64 else gReg c.gg n
      else exec (.rngsave g) s = .next (trapAll s c (.rngsave g) .illegalOperand c.act 0)) ∧
    (128 ≤ a.toNat → a.toNat ≤ 159 → GangRuns s c (fun c => { plainInfo with
        accepts := acceptsOper, legal := operLegal c useNone false, reads := srcRegs a.toNat ++ srcRegs (a.toNat + 1) }) →
      if a.toNat % 2 = 0 then
        ∃ t gg, exec (.rngset a) s = .next t ∧ GangBecomes s t c gg ∧ gg.rng =
          if c.act = 0 then c.gg.rng
          else BitVec.ofNat 128 ((gReg c.gg (a.toNat - 128)).toNat + (gReg c.gg (a.toNat - 127)).toNat * 2 ^ 64)
      else exec (.rngset a) s = .next (trapAll s c (.rngset a) .illegalOperand c.act 0))

/-- What a load completes with, once every lane's access is let through: its destinations pending on its flag, which rises by one
when a lane is active, and the bytes read deposited when it completes. No register holds the data yet, and the vector, g and p
registers are as they were. -/
def Sys2Proof.Machine.LoadIssued (i : Instr) (s : State) (c : GCtx) (f : BitVec 1) (dests : LoadDest) (m : Mask)
    (data : Nat → List Byte) : Prop :=
  ∃ t tm gg, exec i s = .next t ∧ listAt t.teams c.t = some tm ∧ gangOf tm c.g = some gg ∧
    (∀ x ∈ dests, isPending gg (regOfCode x.1) = true) ∧ gg.v = c.gg.v ∧ gg.g = c.gg.g ∧ gg.p = c.gg.p ∧
    flagOf gg.flags (flagFor c f) = flagOf c.gg.flags (flagFor c f) + (if c.act = 0 then 0 else 1) ∧
    tm.scratch = c.tm.scratch ∧
    tm.loads = c.tm.loads ++ (if c.act = 0 then []
      else [{ id := c.tm.nextOp, who := .gang c.g, flag := flagFor c f, deposits := loadDeposits dests m data }])

/-- A global load issues wherever every active lane passes its alignment, translation, permission, race and poison checks, every
peer has answered with its bytes, and the release that a releasing order asks for may go ahead. A helper lane is not race-
checked. A lane that reads local memory in one sector takes the bytes that a load of its core reads there. -/
def Sys2Proof.Machine.GlobalLoad (i : Instr) (s : State) (c : GCtx) (f : BitVec 1) (a : BitVec 8) (o : BitVec 7) (len scale : Nat)
    (dests : LoadDest) : Prop :=
  let va := laneAddr c a scale (memOff c.cl.hints o)
  let align := if orderOf c ≠ 0 then len else 0
  let q := lsReq s c .read
  let rs : LaneList := (lanesIn c.act).map fun l => (l, laneCheck s q align len (va l))
  let hs : LaneList := (lanesIn c.helper).map fun l => (l, laneCheck s { q with race := false } align len (va l))
  let ps := okPieces (rs ++ hs)
  let opened := openPieces (touchLanes s q c.tm.core align len va (lanesIn c.act ++ lanesIn c.helper)) ps
  let asked := askSectors (fragSender c) (peerSectors ps) opened
  let data := laneData ((rs ++ hs).map fun x => (x.1, laneRead asked.1 (some c.tm.core) asked.2 (va x.1) x.2))
  (∀ l ∈ lanesIn c.act, (align ≠ 0 → va l % align = 0) ∧
    ∃ ps, checkSpan s q (va l) len = .ok ps ∧ ps.any (pieceFailed asked.2) = false) →
  askedWait asked.2 = none → c.fr.replay = none →
  (releases (orderOf c) = true → relGate s c.t c.tm (.gang c.g) (scopeOf c) = .go) →
  ∃ m, LoadIssued i s c f dests (m ||| c.helper) data ∧ (∀ l < 64, inMask m l = inMask c.act l) ∧
    (s.quanta = [] → (∀ x ∈ s.tokHolder, isStation x.2 = false) → ∀ l ∈ lanesIn c.act, ∀ pa tracked plane,
      checkSpan s q (va l) len = .ok [{ va := va l, len := len, place := .mem pa tracked, plane := plane }] →
      data l = (List.range len).map fun k => lsByte s c.tm.core (pa + k))

/-- Where the checks of the word pass, every active lane's access is let through and every peer has answered, LD.U8, LD.S8,
LD.U16, LD.S16, LD.B32, LD.B64 and XLOAD answer a next state in which the destinations are pending on the selected flag, the
flag has risen by one if a lane is active, and the completion will deposit in the active and helper lanes the bytes read,
zero- or sign-extended, as a pair, or as four words. Where no quantum sum and no station's token stands in the way, a lane
that reads one sector of local memory takes the bytes that a load of its core reads at its physical address. That the bytes
are those of the issue, and not of a later cycle before the completion, is the model's choice (log 9); that a helper lane
takes its value without the race check is its choice between two rules (log 84). -/
def Obligations.GlobalLoadsComplete : Prop :=
  ∀ (s : State) (c : GCtx) (f : BitVec 1) (d : BitVec 7) (a : BitVec 8) (o : BitVec 7),
    (GangRuns s c (loadInfo f d a false) →
      GlobalLoad (.ldU8 f d a o) s c f a o 1 1 [(d.toNat, zeroExt)] ∧
      GlobalLoad (.ldS8 f d a o) s c f a o 1 1 [(d.toNat, signExt)] ∧
      GlobalLoad (.ldU16 f d a o) s c f a o 2 2 [(d.toNat, zeroExt)] ∧
      GlobalLoad (.ldS16 f d a o) s c f a o 2 2 [(d.toNat, signExt)] ∧
      GlobalLoad (.ldB32 f d a o) s c f a o 4 4 [(d.toNat, zeroExt)]) ∧
    (GangRuns s c (loadInfo f d a true) →
      GlobalLoad (.ldB64 f d a o) s c f a o 8 8 [(d.toNat, wordAt 0), (d.toNat + 1, wordAt 4)]) ∧
    (GangRuns s c (fun c => { plainInfo with
        accepts := acceptsPolicy, fs := some f, reads := addrRegs a
        writes := (List.range 4).map fun k => .v (d.toNat + k)
        legal := d.toNat % 4 == 0 && decide (d.toNat + 3 < c.tm.vregs) && decide (d.toNat + 3 ≤ 111) &&
          addrOk c.tm.vregs a.toNat }) →
      GlobalLoad (.xload f d a o) s c f a o 16 16 ((List.range 4).map fun k => (d.toNat + k, wordAt (4 * k))))

/-- Where the checks of the word pass and every active lane's offset lies in the allocation, is a multiple of the size, and
touches lines that are FULL and not marked by another stream under race detection, each LDS answers a next state in which its
destinations are pending on the selected flag, and the completion will deposit the scratchpad bytes, extended or as a pair. A
helper lane takes the bytes of its offset where the same checks let it, and otherwise zero. That they are the bytes of the
issue, and not of a later cycle before the completion, is the model's choice (log 9). -/
def Obligations.ScratchpadLoadsComplete : Prop :=
  ∀ (s : State) (c : GCtx) (f : BitVec 1) (d : BitVec 7) (a : BitVec 8) (o : BitVec 7),
    let lds (i : Instr) (len : Nat) (dests : LoadDest) : Prop :=
      let off (l : Nat) : Int := laneOffset c a len (memOff c.cl.hints o) l
      (∀ l, l < 64 → inMask c.act l = true → checkScratch s c.tm (.gang c.g) (off l) len len true = .ok) →
      c.fr.replay = none →
      ∃ data, LoadIssued i s c f dests (c.act ||| c.helper) data ∧
        (∀ l, l < 64 → inMask c.act l = true → data l = scratchBytes c.tm (off l).toNat len) ∧
        ∀ l, l < 64 → inMask c.act l = false → inMask c.helper l = true →
          if checkScratch s c.tm (.gang c.g) (off l) len len true = .ok then data l = scratchBytes c.tm (off l).toNat len
          else ∀ x ∈ dests, x.2 (data l) = 0
    (GangRuns s c (ldsInfo f d a false) →
      lds (.ldsU8 f d a o) 1 [(d.toNat, zeroExt)] ∧ lds (.ldsS8 f d a o) 1 [(d.toNat, signExt)] ∧
      lds (.ldsU16 f d a o) 2 [(d.toNat, zeroExt)] ∧ lds (.ldsS16 f d a o) 2 [(d.toNat, signExt)] ∧
      lds (.ldsB32 f d a o) 4 [(d.toNat, zeroExt)]) ∧
    (GangRuns s c (ldsInfo f d a true) → lds (.ldsB64 f d a o) 8 [(d.toNat, wordAt 0), (d.toNat + 1, wordAt 4)])

/-- What the checks of R267 need of a store: its source, its address and the hints and orders it takes. -/
def Sys2Proof.Machine.storeNeeds (d : BitVec 7) (a : BitVec 8) (len : Nat) (c : GCtx) : WordInfo :=
  { plainInfo with
    accepts := acceptsMem
    legal := storeSrcOk c.tm.vregs d (len == 8) && addrOk c.tm.vregs a.toNat && plainOrders c.cl.hints [0, 2, 3]
    count := if len = 8 then 0 else srcCount d.toNat
    reads := addrRegs a ++ storeRegs d (len == 8) }

/-- A state in which a store of a core to a sector touches that sector alone: no quantum sum is pending, no link station holds a
token, and either the caches are empty or the core holds the region's token and the only copy of the sector, and every cached
plane line has its prefix. -/
def Sys2Proof.Machine.QuietStore (s : State) (core sec : Nat) : Prop :=
  s.quanta = [] ∧ (∀ x ∈ s.tokHolder, isStation x.2 = false) ∧
  ((s.l1 = [] ∧ s.l2 = []) ∨
   (holderOf s (regionOf sec) = core ∧ (l1Find s core sec).isSome = true ∧ (∀ e ∈ s.l1, e.sector = sec → e.core = core) ∧
     ∀ e ∈ s.l1, prefixOk s.l1 e = true))

/-- Where the checks of the word pass, every active lane passes its checks and a release that the order asks for may go ahead,
each ST word performs the stores of all its active lanes in lane order (a higher lane over a lower one) and goes on, and
CSTORE does so at the packed addresses. Where the lanes' bytes all lie in one sector of local memory, a load of the core then
reads at each lane's address, byte for byte, what the highest lane that stores there has stored, and, where the store touches
that sector alone and does not release, every byte outside the lanes' bytes as before. PREF completes and changes nothing but
its gang's place. That the stores are performed at issue (log 9), how they install in the caches (logs 46, 79), and that a
store to a device register is dropped (log 57) are the model's choices. -/
def Obligations.GlobalStoresComplete : Prop :=
  ∀ (s : State) (c : GCtx) (d : BitVec 7) (a : BitVec 8) (o : BitVec 7) (p : BitVec 2),
    let q := lsReq s c .write
    let stored (len : Nat) (ps : Nat → List Piece) : List (Nat × List Piece × List Byte) :=
      (lanesIn c.act).map fun l => (l, ps l, storeBytes s c d len l)
    -- What the memory of the core then holds, where every lane stores in one sector.
    let held (len : Nat) (rel : Bool) (ps : Nat → List Piece) (t : State) : Prop :=
      ∀ (sec : Nat) (pa : Nat → Nat),
        (∀ l ∈ lanesIn c.act, sectorOf (pa l) = sec ∧ pa l % 32 + len ≤ 32 ∧
          ∃ va tracked plane, ps l = [{ va := va, len := len, place := .mem (pa l) tracked, plane := plane }]) →
        (∀ l ∈ lanesIn c.act, ∀ k < len,
          (∀ h ∈ lanesIn c.act, l < h → ¬(pa h ≤ pa l + k ∧ pa l + k < pa h + len)) →
          some (lsByte t c.tm.core (pa l + k)) = (storeBytes s c d len l)[k]?) ∧
        (QuietStore s c.tm.core sec → rel = false →
          ∀ x, (∀ l ∈ lanesIn c.act, ¬(pa l ≤ x ∧ x < pa l + len)) → lsByte t c.tm.core x = lsByte s c.tm.core x)
    let st (i : Instr) (len : Nat) : Prop :=
      let at' := laneAddr c a len (memOff c.cl.hints o)
      ∀ ps : Nat → List Piece, (∀ l ∈ lanesIn c.act, checkSpan s q (at' l) len = .ok (ps l)) →
        (orderOf c ≠ 0 → ∀ l ∈ lanesIn c.act, at' l % len = 0) → c.fr.replay = none →
        (releases (orderOf c) = true → relGate s c.t c.tm (.gang c.g) (scopeOf c) = .go) →
        hasRoom s ((peerSectors ((lanesIn c.act).flatMap ps)).map fun x => (x.window, x.pa)) = true →
        let u := touchLanes s q c.tm.core (if orderOf c ≠ 0 then len else 0) len at' (lanesIn c.act)
        let t := advance (performStores c (orderOf c == 0) (cacheHint c.cl.hints) (stored len ps)
          (if releases (orderOf c) = true ∧ c.act ≠ 0 then releaseBy u c.t (.gang c.g) (scopeOf c) else u)) c
        exec i s = .next t ∧ held len (releases (orderOf c)) ps t
    let cst (i : Instr) (len : Nat) : Prop :=
      let at' := packedAddr c a o len
      ∀ ps : Nat → List Piece, (∀ l ∈ lanesIn c.act, checkSpan s q (at' l) len = .ok (ps l)) → c.fr.replay = none →
        hasRoom s ((peerSectors ((lanesIn c.act).flatMap ps)).map fun x => (x.window, x.pa)) = true →
        let t := advance (performStores c true (cacheHint c.cl.hints) (stored len ps)
          (touchLanes s q c.tm.core 0 len at' (lanesIn c.act))) c
        exec i s = .next t ∧ held len false ps t
    let cNeeds (len : Nat) (c : GCtx) : WordInfo := { storeNeeds d a len c with
      accepts := acceptsPolicy, legal := storeSrcOk c.tm.vregs d (len == 8) && (gCode a.toNat).isSome }
    (GangRuns s c (storeNeeds d a 1) → st (.stB8 d a o) 1) ∧ (GangRuns s c (storeNeeds d a 2) → st (.stB16 d a o) 2) ∧
    (GangRuns s c (storeNeeds d a 4) → st (.stB32 d a o) 4) ∧ (GangRuns s c (storeNeeds d a 8) → st (.stB64 d a o) 8) ∧
    (GangRuns s c (cNeeds 4) → cst (.cstoreB32 d a o) 4) ∧ (GangRuns s c (cNeeds 8) → cst (.cstoreB64 d a o) 8) ∧
    (GangRuns s c (fun c => { plainInfo with accepts := acceptsPolicy, legal := addrOk c.tm.vregs a.toNat, reads := addrRegs a }) →
      ∃ t gg, exec (.pref p a o) s = .next t ∧ GangBecomes s t c gg ∧ NoRegister c gg)

/-- Where the checks of the word pass and every active lane's offset lies in the allocation, is a multiple of the size and touches
no line marked by another stream under race detection, each STS completes. A scratchpad byte in the run of some active lane
holds the byte that the highest such lane stores there, and every other scratchpad byte reads as before. Fill tags do not
change, and neither do memory, the caches and the gang's vector, g and p registers. -/
def Obligations.ScratchpadStoresFrame : Prop :=
  ∀ (s : State) (c : GCtx) (d : BitVec 7) (a : BitVec 8) (o : BitVec 7),
    let sts (i : Instr) (len : Nat) : Prop :=
      let off (l : Nat) : Int := laneOffset c a len (memOff c.cl.hints o) l
      GangRuns s c (fun c => { plainInfo with
        accepts := acceptsImm, legal := storeSrcOk c.tm.vregs d (len == 8) && offOk c.tm.vregs a.toNat
        count := if len = 8 then 0 else srcCount d.toNat, reads := offRegs a ++ storeRegs d (len == 8) }) →
      (∀ l, l < 64 → inMask c.act l = true → checkScratch s c.tm (.gang c.g) (off l) len len false = .ok) →
      c.fr.replay = none →
      ∃ t tm gg, exec i s = .next t ∧ listAt t.teams c.t = some tm ∧ gangOf tm c.g = some gg ∧
        (∀ x : Nat, (∀ l, l < 64 → inMask c.act l = true → ¬((off l).toNat ≤ x ∧ x < (off l).toNat + len)) →
          scratchByte tm x = scratchByte c.tm x) ∧
        (∀ l x : Nat, l < 64 → inMask c.act l = true → x < len →
          (∀ k, l < k → k < 64 → inMask c.act k = true →
            ¬((off k).toNat ≤ (off l).toNat + x ∧ (off l).toNat + x < (off k).toNat + len)) →
          some (scratchByte tm ((off l).toNat + x)) = (storeBytes s c d len l)[x]?) ∧
        tm.tags = c.tm.tags ∧ gg.v = c.gg.v ∧ gg.g = c.gg.g ∧ gg.p = c.gg.p ∧ t.mem = s.mem ∧ t.l1 = s.l1 ∧ t.l2 = s.l2
    sts (.stsB8 d a o) 1 ∧ sts (.stsB16 d a o) 2 ∧ sts (.stsB32 d a o) 4 ∧ sts (.stsB64 d a o) 8

/-- Where the checks of the word pass: with all 64 lanes active, a legal descriptor, planes within the format and every plane
read, LDP and LDP.MID make the destination pending, with the rounded value of planes 0 to n and its tag to be deposited.
REFINE of a fresh tag that already holds the bits reads nothing. With more planes than it holds it reads planes 0 and 1 and
those that it lacks, and where no element is stale, deposits in each lane the value of the bits recovered with the bits read,
and the tag of n planes. A register that is stale, by its tag or by an element, makes it trap with PLANE_TAG in strict mode;
in another launch it reads planes 0 to n anew in the tag's fill mode, as LDP does. STP writes every plane of the quantised
block to scratchpad or to local memory and goes on. With a lane inactive each traps with ILLEGAL_CONVERGENCE, and with an
illegal descriptor or too many planes with ILLEGAL_OPERAND. That planes are read at issue (log 9), that checks fail before a
stall or park (logs 25, 85), the order of the traps (log 85), and that REFINE's accesses are judged before the values it holds
(log 26) are the model's choices. -/
def Obligations.PlaneWordsComplete : Prop :=
  ∀ (s : State) (c : GCtx) (f : BitVec 1) (d : BitVec 7) (a : BitVec 8) (o : BitVec 7),
    let desc := planeDesc (gReg c.gg (a.toNat - 128)) (gReg c.gg (a.toNat - 127))
    let n := o.toNat
    let tag := (tagOf c.gg d.toNat).toNat
    let traps (i : Instr) (ok : PlaneDesc → Bool) : Prop :=
      (∀ ds, desc = some ds → ok ds = true → c.act ≠ allLanes → exec i s = .next (trapAll s c i .illegalConvergence c.act 0)) ∧
      ((∀ ds, desc = some ds → ok ds = false) → exec i s = .next (trapAll s c i .illegalOperand c.act 0))
    -- The destination pending on the flag, its value and its tag to be deposited.
    let loads (i : Instr) (x : Lanes) (tag' : BitVec 26) (s' : State) : Prop :=
      exec i s = .next (advance (addLoad (raiseFlag (modGang s' c.t c.g fun gg => setPending gg [.v d.toNat] (flagFor c f)) c
        (flagFor c f)) c.t (.gang c.g) (flagFor c f) [.lanes (.v d.toNat) allLanes x, .tag d.toNat tag']) c)
    -- A load of planes 0 to n in a fill mode.
    let whole (i : Instr) (mid : Bool) (ds : PlaneDesc) : Prop := ∀ s' data,
      readPlanes s c ds (List.range (n + 1)) = .ok s' data →
      loads i (mkLanes fun l => toF32 .rn (decodeBp (planeValue data 0) (bitN (planeValue data 1) l) (planeBits data 1 (n - 1) l)
        ds.m mid)) (makeTag (n - 1) ds.m (if mid then 1 else 0) (planeCheck ds)) s'
    let load (i : Instr) (mid : Bool) : Prop := ∀ ds, desc = some ds → n ≤ ds.m + 1 → c.act = allLanes → whole i mid ds
    let refine : Instr := .refine f d a o
    let stale (ds : PlaneDesc) : Prop :=
      (strictMode s c.tm = true → exec refine s = .next (trapAll s c refine .planeTag allLanes 0)) ∧
      (strictMode s c.tm = false → whole refine (bitN tag 9) ds)
    (GangRuns s c (planeInfo f d a o false) →
      load (.ldp f d a o) false ∧ load (.ldpMid f d a o) true ∧
      traps (.ldp f d a o) (fun ds => decide (n ≤ ds.m + 1)) ∧ traps (.ldpMid f d a o) (fun ds => decide (n ≤ ds.m + 1))) ∧
    (GangRuns s c (planeInfo f d a o true) →
      traps refine (fun ds => decide (n ≤ ds.m + 1)) ∧
      ∀ ds, desc = some ds → n ≤ ds.m + 1 → c.act = allLanes →
        let fresh := bitN tag 0 = true ∧ bitsN tag 25 10 = planeCheck ds ∧ bitsN tag 8 5 = ds.m
        let h := bitsN tag 4 1
        (fresh → n - 1 ≤ h → ∃ t gg, exec refine s = .next t ∧ GangBecomes s t c gg ∧
          gg.v = c.gg.v ∧ gg.tags = c.gg.tags ∧ gg.flags = c.gg.flags) ∧
        (¬fresh → stale ds) ∧
        (fresh → h < n - 1 → ∀ s' data,
          readPlanes s c ds ([0, 1] ++ (List.range (n - 1 - h)).map (· + h + 2)) = .ok s' data →
          let e := planeValue data 0
          let sgn (l : Nat) := bitN (planeValue data 1) l
          let held (l : Nat) := heldBits e ds.m h (bitN tag 9) (sgn l) (laneOf (vReg c.gg d.toNat) l)
          ((∃ l, l < 64 ∧ held l = .stale) → stale ds) ∧
          (∀ val : Nat → Word, (∀ l, l < 64 → held l = .known (val l) ∨
              ∃ bs, held l = .bits bs ∧
                val l = toF32 .rn (decodeBp e (sgn l) (bs ++ planeBits data (h + 1) (n - 1) l) ds.m (bitN tag 9))) →
            loads refine (mkLanes val) (makeTag (n - 1) ds.m (if bitN tag 9 then 1 else 0) (planeCheck ds)) s'))) ∧
    (GangRuns s c (fun c => { plainInfo with
        accepts := ⟨false, false, true, false, false⟩, fs := some f
        legal := decide (d.toNat < c.tm.vregs) && decide (d.toNat ≤ 111) && (gCode a.toNat).isSome && a.toNat % 2 == 0
        reads := [.g (a.toNat - 128), .g (a.toNat - 127), .v d.toNat] }) →
      traps (.stp f d a) (fun _ => true) ∧
      ∀ ds, desc = some ds → c.act = allLanes →
        let ps := List.range (ds.m + 2)
        let bytes (p : Nat) := bytesOf (planeLen p) (blockPlane ds.m (quantBlock ds.m (vReg c.gg d.toNat)) p)
        let stores (s' : State) : Prop :=
          exec (.stp f d a) s = .next (advance (addLoad (raiseFlag s' c (flagFor c f)) c.t (.gang c.g) (flagFor c f) []) c)
        (ds.loc = true → tileChecks s c ds ps false = none →
          stores (scratchStore s c.t (.gang c.g) (ps.flatMap fun p => writesAt (planeAddr ds p ds.block) (bytes p)))) ∧
        (ds.loc = false → ∀ rs, planeChecks s c (lsReq s c .write) ds ps = .ok rs → (∀ x ∈ rs, ∀ p ∈ x.2, isMemory p = true) →
          ∃ how : Nat → Install,
            let all := rs.flatMap (·.2)
            let s1 := lsWrite (openPieces (touchPlanes s c ds ps) all) c.tm.core how (rs.flatMap fun x => memWrites x.2 (bytes x.1))
            let s2 := if raceMode s c.tm then markStore s1 (agentId c.tm (.gang c.g)) (trackedSectors all) else s1
            stores (if all.any isMemory then modTeam s2 c.t fun tm => { tm with plainStore := true } else s2)))

/-- The state in which a global atomic of every active lane has been performed in ascending lane order, and the old values, when
each lane's access has been let through and any release has been made. -/
def Sys2Proof.Machine.atomicsDone (s : State) (c : GCtx) (len : Nat) (returning : Bool) (op : Nat → LaneAtomic) (rs : LaneList)
    (s1 : State) : State × LaneList :=
  let x := atomicScope c.cl.hints
  let s2 := if releases x.order = true ∧ c.act ≠ 0 then releaseBy s1 c.t (.gang c.g) x.scope else s1
  let s3 := if c.act ≠ 0 ∧ x.use ≠ 2 then escape s2 c.t else s2
  performLanes c x len returning op rs s3

/-- Where the checks of the word pass, every active lane's word is aligned and passes its checks, every peer has answered, for RED
the ports have room, and any release may go ahead, ATOM, ACAS and RED perform their lanes' atomics one at a time in ascending
order: the word at each address takes the operation's new value, for ACAS the new value only where the old one matches. ATOM
and ACAS return the old values through the destinations on the selected flag, and RED goes on. Where one lane is active on a
word of local memory, without a quantum, the word that a load of the core then reads is the operation's value on the old value
that is returned. That the atomics are performed at issue (log 9), at the core or at the home slice as the predictor chooses
(log 80), and that helper lanes of ATOM and ACAS keep their destination (log 43) are the model's choices. -/
def Obligations.AtomicsComplete : Prop :=
  ∀ (s : State) (c : GCtx) (f : BitVec 1) (d : BitVec 7) (a : BitVec 8) (o : BitVec 5) (w : BitVec 1),
    let len := atomicLen w
    let n := if w = 1 then 2 else 1
    let x := atomicScope c.cl.hints
    let word (k l : Nat) : Nat := (laneOf (vReg c.gg (d.toNat + k)) l).toNat
    let swap (l : Nat) : LaneAtomic :=
      if w = 1 then swapAtomic w (word 0 l + word 1 l * 2 ^ 32) (word 2 l + word 3 l * 2 ^ 32) else swapAtomic w (word 0 l) (word 1 l)
    let checks (returning : Bool) (op : Nat → LaneAtomic) : State × Option Wait × LaneList :=
      readyLanes c a len (x.use == 4) returning op s
    let through (r : State × Option Wait × LaneList) : Prop := r.2.1 = none ∧ (∀ y ∈ r.2.2, ∃ ps bs, y.2 = .ok ps bs) ∧
      c.fr.replay = none ∧ (releases x.order = true → relGate s c.t c.tm (.gang c.g) x.scope = .go)
    -- The word that one lane's atomic leaves in local memory.
    let wordHeld (op : Nat → LaneAtomic) (rs : LaneList) (r' : State × LaneList) (t : State) : Prop :=
      ∀ l p pa tracked bs, rs = [(l, .ok [p] bs)] → p.place = .mem pa tracked → pa % 32 + len ≤ 32 → x.use ≠ 4 →
        ∃ old, r'.2 = [(l, .ok [p] (bytesOf len old))] ∧
          ∀ k < len, some (lsByte t c.tm.core (pa + k)) = (bytesOf len ((op l).step old))[k]?
    let returns (i : Instr) (op : Nat → LaneAtomic) : Prop :=
      let r := checks true op
      through r →
      let r' := atomicsDone s c len true op r.2.2 r.1
      LoadIssued i s c f (oldDests d w) (okLanes r'.2) (laneData r'.2) ∧
        ∃ t, exec i s = .next t ∧ t.mem = r'.1.mem ∧ t.l1 = r'.1.l1 ∧ t.l2 = r'.1.l2 ∧ t.quanta = r'.1.quanta ∧ wordHeld op r.2.2 r' t
    (GangRuns s c (fun c => { plainInfo with
        accepts := acceptsAtomic, fs := some f, reads := addrRegs a ++ vBlock d n, writes := vBlock d n
        legal := atomicDataOk c.tm.vregs d w && addrOk c.tm.vregs a.toNat && atomicOpOk o (flag1 w) &&
          useOk (atomicScope c.cl.hints) [1, 2, 3] (if o = 0 then [1, 3, 4] else [1, 3]) }) →
      returns (.atom f d a o w) (fun l => opAtomic o w (atomicOperand s c d w l))) ∧
    (GangRuns s c (fun c => { plainInfo with
        accepts := acceptsAtomic, fs := some f, reads := addrRegs a ++ vBlock d (2 * n), writes := vBlock d n
        legal := (if flag1 w then d.toNat % 4 == 0 else true) && decide (d.toNat + 2 * n - 1 < c.tm.vregs) &&
          decide (d.toNat + 2 * n - 1 ≤ 111) && addrOk c.tm.vregs a.toNat &&
          useOk (atomicScope c.cl.hints) [1, 2, 3] [1, 3] }) →
      returns (.acas f d a w) swap) ∧
    (GangRuns s c (fun c => { plainInfo with
        accepts := acceptsAtomic, reads := addrRegs a ++ storeRegs d (flag1 w), count := if flag1 w then 0 else srcCount d.toNat
        legal := storeSrcOk c.tm.vregs d (flag1 w) && addrOk c.tm.vregs a.toNat && atomicOpOk o (flag1 w) &&
          useOk (atomicScope c.cl.hints) [2, 3] (if commutes o then [1, 2, 5] else [1, 5]) }) →
      let op (l : Nat) := opAtomic o w (atomicOperand s c d w l)
      let r := checks false op
      through r →
      let r' := atomicsDone s c len false op r.2.2 r.1
      exec (.red d a o w) s = .next (advance r'.1 c) ∧ wordHeld op r.2.2 r' (advance r'.1 c))

/-- Where the checks of the word pass and every active lane's scratchpad word is in bounds, aligned, ready and unmarked, ATOMS
applies its operation lane by lane, ascending, the allocation then holds the result of all of them, and each lane's old value
is to be deposited. FENCE by a gang or, at team scope (3) or wider, by the hawk performs its release, if it has one that may
go ahead, and goes on. FENCEX waits for no class when none of its two is busy, writes the core's first-level cache back and
invalidates it when one of them is LS, passes the second level's dirty sectors of GTH ranges on to DRAM when LS or LK goes
with GA (with LK also the stations' words), and goes on. That ATOMS is performed at issue (log 9), that FENCEX invalidates
every copy of the core, and that it passes on every such sector, whoever wrote it (log 45), are the model's choices. -/
def Obligations.ScratchpadAtomicsAndFences : Prop :=
  ∀ (s : State) (c : GCtx) (k : HCtx) (f : BitVec 1) (d : BitVec 7) (a : BitVec 8) (o : BitVec 5) (w : BitVec 1) (od : BitVec 2)
      (sc x y : BitVec 3),
    let len := atomicLen w
    let off (l : Nat) : Int := laneOffset c a 0 0 l
    let rel : Bool := releases od.toNat
    -- The class fence: with LS the core's cache is written back and invalidated, with LK and GA the stations' words return, and
    -- with GA and one of them the dirty sectors of GTH ranges go on to DRAM.
    let fenced (core : Nat) : State :=
      let ls : Prop := x = 0 ∨ y = 0
      let ga : Prop := x = 2 ∨ y = 2
      let lk : Prop := x = 4 ∨ y = 4
      let s1 := if ls then flushCore s core else s
      let s2 := if lk ∧ ga then recallStations s1 0 Config.physHi else s1
      if ga ∧ (ls ∨ lk) then writeThrough s2 fun _ => true else s2
    (GangRuns s c (fun c => { plainInfo with
        accepts := ⟨false, false, false, true, false⟩, fs := some f
        reads := offRegs a ++ vBlock d (if flag1 w then 2 else 1), writes := vBlock d (if flag1 w then 2 else 1)
        legal := atomicDataOk c.tm.vregs d w && offOk c.tm.vregs a.toNat && atomicOpOk o (flag1 w) &&
          useOk (atomicScope c.cl.hints) [1, 2, 3] [1, 3] && decide ((atomicScope c.cl.hints).scope ≤ 3) }) →
      (∀ l ∈ lanesIn c.act, checkScratch s c.tm (.gang c.g) (off l) len len true = .ok) → c.fr.replay = none →
      -- The team after the operations of some lanes in order, and the old value that a lane meets.
      let after (ls : List Nat) : Team := ls.foldl (fun (tm : Team) l => setScratch tm (writesAt (off l).toNat (bytesOf len
        (atomicValue o.toNat (8 * len) (natOf (scratchBytes tm (off l).toNat len)) (atomicOperand s c d w l))))) c.tm
      let old (l : Nat) : List Byte :=
        bytesOf len (natOf (scratchBytes (after ((lanesIn c.act).filter fun h => decide (h < l))) (off l).toNat len))
      ∃ t tm data, exec (.atoms f d a o w) s = .next t ∧ listAt t.teams c.t = some tm ∧ t.mem = s.mem ∧
        tm.scratch = (after (lanesIn c.act)).scratch ∧ (∀ l, l < 64 → inMask c.act l = true → data l = old l) ∧
        tm.loads = c.tm.loads ++ (if c.act = 0 then []
          else [{ id := c.tm.nextOp, who := .gang c.g, flag := flagFor c f, deposits := loadDeposits (oldDests d w) c.act data }])) ∧
    (GangRuns s c (fun _ => { plainInfo with legal := od != 0 }) →
      (rel = true → c.act ≠ 0 → relGate s c.t c.tm (.gang c.g) sc.toNat = .go) →
      exec (.fence od sc) s =
        .next (advance (if rel = true ∧ c.act ≠ 0 then releaseBy s c.t (.gang c.g) sc.toNat else s) c)) ∧
    (HawkRunsPlain s k (fun _ => { plainHInfo with legal := od != 0 && decide (3 ≤ sc.toNat), treat := .stall }) →
      (rel = true → relGate s k.t k.tm .hawk sc.toNat = .go) →
      exec (.fence od sc) s = .next (hawkEnd k (if rel = true then releaseBy s k.t .hawk sc.toNat else s))) ∧
    (x.toNat ≤ 4 → y.toNat ≤ 4 → x ≠ y → GangRuns s c (fun _ => plainInfo) →
      classBusy s c.tm (.gang c.g) x.toNat = false → classBusy s c.tm (.gang c.g) y.toNat = false →
      exec (.fencex x y) s =
        .next (advance (if c.act ≠ 0 then fenced c.tm.core else s) c)) ∧
    (x.toNat ≤ 4 → y.toNat ≤ 4 → x ≠ y → HawkRunsPlain s k (fun _ => { plainHInfo with treat := .stall }) →
      classBusy s k.tm .hawk x.toNat = false → classBusy s k.tm .hawk y.toNat = false →
      exec (.fencex x y) s = .next (hawkEnd k (fenced k.tm.core)))

/-- At a gang's header with defined values, no failed declared input or report to deliver, the clause's last unit fetched, every
flag of WAIT clear and the guard not pending: the fragment goes on at the next word with the clause of LEN words, the guard
read in each lane, the result count 0, and y0 and y1 zero in its home lanes. For the hawk the guard bit decides the whole
clause. In either stream a header with an undefined SET or guard value (for the hawk a guard of 8 to 30) traps with
ILLEGAL_CLAUSE at the header. That a fault of the last unit's fetch belongs to the header is the model's choice (log 18). -/
def Obligations.ClauseHeaderOpensClause : Prop :=
  ∀ (s : State) (w : BitVec 12) (a b : BitVec 4) (l : BitVec 3) (g : BitVec 5) (n y k : BitVec 1) (t gi f : Nat) (tm : Team),
    listAt s.teams t = some tm → tm.st = .running →
    let i : Instr := .clauseHeader w a b l g n y k
    (∀ gg fr x s', s.cur = .gang t gi f → gangOf tm gi = some gg → fragOf gg f = some fr → fr.clause = none →
      gg.inputReport = none →
      (headerOk 24 a b g n = false → exec i s = .next (headerTrap s t gi f fr .illegalClause 0 (wordOf i))) ∧
      (headerOk 24 a b g n = true → lastUnit s (fun x => fetchGang s tm t gi f { fr with pc := x }) fr.pc l = (s', .word x) → flagsClear gg.flags w = true →
        reportIn gg.reports w = none → (g = 31 ∨ isPending (unpend gg fun x => w.getLsbD x) (.p g.toNat) = false) →
        ∃ u gg' fr', exec i s = .next u ∧ u = (modGang s' t gi fun _ => gg') ∧ fragOf gg' f = some fr' ∧
          fr'.pc = fr.pc + 4 ∧ fr'.clause = some (openClause fr.pc a b l g n k (guardMask gg g (n == 1))) ∧ fr'.count = 0 ∧
          fr'.st = .issuing ∧ fr'.exmask = fr.exmask ∧ gg'.v = gg.v ∧ gg'.o = gg.o ∧ gg'.g = gg.g ∧ gg'.p = gg.p ∧
          (∀ j, j < 64 → inMask fr.home j = true → laneOf gg'.y0 j = 0 ∧ laneOf gg'.y1 j = 0))) ∧
    (s.cur = .hawk t → tm.hawk.clause = none → (∀ win, tm.hawk.window = some win → win.fault = none ∧ win.committing = false) →
      headerOk 8 a b g n = false → exec i s = .next (hawkHeaderTrap s t tm.hawk .illegalClause 0 (wordOf i))) ∧
    (∀ x s', s.cur = .hawk t → tm.hawk.clause = none → tm.hawk.window = none → headerOk 8 a b g n = true →
      lastUnit s (fetchHawk s tm) tm.hawk.pc l = (s', .word x) → flagsClear tm.hawk.flags w = true →
      reportIn tm.hawk.reports w = none → (g = 31 ∨ cPending tm.hawk g.toNat = false) →
      ∃ u hk, exec i s = .next u ∧ u = (modHawk s' t fun _ => hk) ∧ hk.pc = tm.hawk.pc + 4 ∧ hk.k = tm.hawk.k ∧
        hk.c = tm.hawk.c ∧ hk.clause = some (openClause tm.hawk.pc a b l g n k
          (if g = 31 ∨ (tm.hawk.c.getLsbD g.toNat != (n == 1)) = true then BitVec.allOnes 64 else 0)))

/-- What a divergent branch or peel leaves in a gang (R52, R53), T going to the target and the rest staying at an address: the
entry that it pushes, or the innermost entry with one more path outstanding; the fragment that stays, and the new one. Without
a free slot a branch defers T, and a peel goes on as the current fragment and defers the others. A path that starts at the
reconvergence address parks at once. -/
def Sys2Proof.Machine.SplitHolds (stamp : Nat) (c : GCtx) (T : Mask) (target rest rpc : DWord) (push peel : Bool) : Prop :=
  let gs := splitFrag stamp c.gg c.f c.fr T target rest rpc push peel c.cl.keep
  ∃ k e,
    (push = true → entryOf c.gg k = none ∧ e.jmask = c.fr.home ∧ e.amask = 0 ∧ e.rpc = rpc ∧ e.outst = 2 ∧ e.link = false ∧
      e.deferred = false ∧ e.parent = c.fr.entry) ∧
    (push = false → ∀ k0 e0, c.fr.entry = some k0 → entryOf c.gg k0 = some e0 → k = k0 ∧ e = { e0 with outst := e0.outst + 1 }) ∧
    (target ≠ rpc ∨ (push = true ∧ (peel = true ∨ rest ≠ rpc)) → ∀ j ≠ k, entryOf gs j = entryOf c.gg j) ∧
    let stays : Prop := ∃ fr, fragOf gs c.f = some fr ∧ fr.home = c.fr.home &&& ~~~T ∧ fr.exmask = c.fr.exmask &&& ~~~T ∧
      fr.entry = some k ∧ fr.peel = peel ∧ if peel then fr.pc = c.fr.pc ∧ fr.clause = c.fr.clause.map (fun x => { x with begun := true })
        else fr.pc = rest ∧ fr.clause = none
    let taken (f : Nat) : Prop := fragOf gs f = some (newFrag T T target (some k) stamp)
    (target ≠ rpc → (peel = true ∨ rest ≠ rpc) → ∀ f, freeSlot c.gg = some f → entryOf gs k = some e ∧ stays ∧ taken f) ∧
    (target ≠ rpc → (peel = true ∨ rest ≠ rpc) → freeSlot c.gg = none →
      if peel then
        entryOf gs k = some { e with outst := e.outst - 1, deferred := true, dmask := c.fr.exmask &&& ~~~T, dpc := c.fr.pc
                                     dpeel := true, dguard := c.cl.guard, dgneg := c.cl.gneg, dkeep := c.cl.keep } ∧
        ∃ fr, fragOf gs c.f = some fr ∧ fr.home = T ∧ fr.exmask = T ∧ fr.entry = some k ∧ fr.pc = target ∧ fr.clause = none ∧
          fr.peel = false
      else entryOf gs k = some { e with outst := e.outst - 1, deferred := true, dmask := T, dpc := target } ∧ stays) ∧
    (push = true → target = rpc → (peel = true ∨ rest ≠ rpc) → entryOf gs k = some { e with outst := 1, amask := T } ∧ stays) ∧
    (push = true → peel = false → target ≠ rpc → rest = rpc →
      entryOf gs k = some { e with outst := 1, amask := c.fr.exmask &&& ~~~T } ∧
      taken (match freeSlot c.gg with
        | some f => min f c.f
        | none => c.f))

/-- What a fragment that has come to the reconvergence address of its innermost join entry at a header leaves in its gang (R48,
R54): its lanes have arrived, and the last arrival starts the deferred path, or pops the entry and resumes at that address
with the lanes that arrived. -/
def Sys2Proof.Machine.ArrivalHolds (stamp : Nat) (gg : Gang) (f : Nat) : Prop :=
  ∀ fr k e, fragOf gg f = some fr → fr.clause = none → fr.entry = some k → entryOf gg k = some e → e.link = false → fr.pc = e.rpc →
    let r := parkCheck stamp gg f
    let arrived := e.amask ||| fr.exmask
    -- The gang's table gains at most one fragment, in a slot that is free once this one has gone.
    let left : Prop := ∀ x, fragOf r x = if x = f then none else fragOf gg x
    let gains (fr' : Frag) : Prop := ∃ x, (x = f ∨ fragOf gg x = none) ∧ fragOf r x = some fr' ∧
      ∀ y, y ≠ x → fragOf r y = if y = f then none else fragOf gg y
    (2 ≤ e.outst → left ∧ entryOf r k = some { e with amask := arrived, outst := e.outst - 1 } ∧
      ∀ j ≠ k, entryOf r j = entryOf gg j) ∧
    (e.outst = 1 → e.deferred = true → e.dmask ≠ 0 →
      (∃ fr', gains fr' ∧ fr'.home = e.dmask ∧ fr'.exmask = e.dmask ∧ fr'.pc = e.dpc ∧ fr'.entry = some k ∧ fr'.peel = e.dpeel ∧
        (e.dpeel = false → fr'.clause = none) ∧ (e.dpeel = true → ∃ cl, fr'.clause = some cl ∧ cl.left = 1 ∧ cl.guard = e.dguard ∧
          cl.gneg = e.dgneg ∧ cl.keep = e.dkeep ∧ cl.seta = 15 ∧ cl.setb = 15)) ∧
      ∃ e', entryOf r k = some e' ∧ e'.amask = arrived ∧ e'.outst = 1 ∧ e'.deferred = false ∧ e'.jmask = e.jmask ∧ e'.rpc = e.rpc) ∧
    (e.outst = 1 → ¬(e.deferred = true ∧ e.dmask ≠ 0) → e.jmask ≠ 0 →
      (∀ pk, e.parent = some pk → ∃ p, entryOf gg pk = some p ∧ (p.link = true ∨ p.rpc ≠ e.rpc)) →
      entryOf r k = none ∧ (∀ j ≠ k, entryOf r j = entryOf gg j) ∧
      ∃ fr', gains fr' ∧ fr'.home = e.jmask ∧ fr'.exmask = arrived ∧ fr'.pc = e.rpc ∧ fr'.entry = e.parent ∧ fr'.clause = none ∧
        fr'.st = .noEntry ∧ fr'.peel = false) ∧
    (e.outst = 1 → ¬(e.deferred = true ∧ e.dmask ≠ 0) → e.jmask = 0 →
      (e.parent = none → left ∧ entryOf r k = none) ∧
      (∀ pk p, e.parent = some pk → pk ≠ k → entryOf gg pk = some p → 2 ≤ p.outst →
        left ∧ entryOf r k = none ∧ entryOf r pk = some { p with outst := p.outst - 1 }))

/-- What CALL leaves in a gang (R56): a join entry for the lanes left behind, if there are any, a link entry under it, and the
fragment with the calling lanes at the callee. -/
def Sys2Proof.Machine.CallHolds (c : GCtx) (target : DWord) : Prop :=
  let gs := callFrag c.gg c.f c.fr c.act target c.cl.keep
  let left := c.fr.home &&& ~~~c.act
  ∃ k1 k2, (left ≠ 0 → k1 ≠ k2 ∧ entryOf c.gg k1 = none) ∧ entryOf c.gg k2 = none ∧
    (∀ j, j ≠ k2 → (j ≠ k1 ∨ left = 0) → entryOf gs j = entryOf c.gg j) ∧
    (left ≠ 0 → ∃ e, entryOf gs k1 = some e ∧ e.jmask = c.fr.home ∧ e.amask = c.fr.exmask &&& ~~~c.act ∧ e.rpc = c.fr.pc + 4 ∧
      e.outst = 1 ∧ e.link = false ∧ e.deferred = false ∧ e.parent = c.fr.entry) ∧
    (∃ e, entryOf gs k2 = some e ∧ e.jmask = c.act ∧ e.rpc = c.fr.pc + 4 ∧ e.outst = 1 ∧ e.link = true ∧ e.deferred = false ∧
      e.parent = if left = 0 then c.fr.entry else some k1) ∧
    (∃ fr, fragOf gs c.f = some fr ∧ fr.home = c.act ∧ fr.exmask = c.act ∧ fr.pc = target ∧ fr.entry = some k2 ∧ fr.clause = none) ∧
    ∀ f ≠ c.f, fragOf gs f = fragOf c.gg f

/-- What EXIT leaves in a gang (R55): the lanes gone from the fragment and from every entry, and, where no lane of EXMASK is left,
the fragment ended with its home mask and a path less outstanding at its innermost entry. -/
def Sys2Proof.Machine.ExitHolds (stamp : Nat) (c : GCtx) : Prop :=
  let ge := exitLanes stamp c.gg c.f c.act
  let without (m : Mask) (e : SplitEntry) : SplitEntry :=
    { e with jmask := e.jmask &&& ~~~m, amask := e.amask &&& ~~~m, dmask := e.dmask &&& ~~~m }
  (c.fr.exmask &&& ~~~c.act ≠ 0 →
    (∀ k, entryOf ge k = (entryOf c.gg k).map (without c.act)) ∧
    (∃ fr, fragOf ge c.f = some fr ∧ fr = { c.fr with home := c.fr.home &&& ~~~c.act, exmask := c.fr.exmask &&& ~~~c.act }) ∧
    ∀ f ≠ c.f, fragOf ge f = fragOf c.gg f) ∧
  (c.fr.exmask &&& ~~~c.act = 0 →
    (c.fr.entry = none → (∀ k, entryOf ge k = (entryOf c.gg k).map (without c.fr.home)) ∧ fragOf ge c.f = none ∧
      ∀ f ≠ c.f, fragOf ge f = fragOf c.gg f) ∧
    ∀ k e, c.fr.entry = some k → entryOf c.gg k = some e → 2 ≤ e.outst →
      entryOf ge k = some { without c.fr.home e with outst := e.outst - 1 } ∧
      (∀ j ≠ k, entryOf ge j = (entryOf c.gg j).map (without c.fr.home)) ∧ fragOf ge c.f = none ∧
      ∀ f ≠ c.f, fragOf ge f = fragOf c.gg f)

/-- Where the checks of the word pass, with T the active lanes where the condition holds: with T empty the fragment goes on at the
next header. With T all of EXMASK it goes to the target. Otherwise the fragment splits at the address that a MERGEAT names,
traps with ILLEGAL_CONVERGENCE without one and with STACK_OVERFLOW when the split stack is full. The split pushes a join entry
with the home mask and leaves the other lanes at the next header and the taken ones in a new fragment, or deferred; a path
that starts at the reconvergence address parks at once. A fragment that comes to the reconvergence address of its innermost
join entry parks: its lanes have arrived, and the last arrival starts the deferred path or pops the entry and resumes there
with the arrived lanes. BRA has a true condition; BRC with PB 24 to 30, or 31 with NEG, traps with ILLEGAL_OPERAND. BRX with
no active lane goes on; with one target it behaves as BRC; it traps with ILLEGAL_OPERAND when an active lane's target is no
header's address, naming those lanes; when targets differ it peels the lanes of the lowest lane's target, or traps without a
MERGEAT or, on the first peel, with a full split stack. That the later peels of one BRX, where no MERGEAT stands before it
again, take the reconvergence address of the join entry that the first peel pushed is the model's inference (log 19), and so
is the table slot that a new fragment takes (log 93). -/
def Obligations.Branches : Prop :=
  ∀ (s : State) (c : GCtx) (p : BitVec 5) (n : BitVec 1) (o : BitVec 17) (a : BitVec 8),
    let branch (i : Instr) (T : Mask) (target : DWord) : Prop :=
      exec i s = .next (
        if T = 0 then advance s c
        else if T = c.act ∧ (c.fr.home &&& ~~~T) &&& c.fr.exmask = 0 then
          modGang s c.t c.g fun gg => moveFrag s.cycle gg c.f c.fr target c.cl.keep
        else match mergeAddr c with
          | none => trapAll s c i .illegalConvergence c.act 0
          | some rpc =>
            if c.gg.stack.length + 1 ≤ 256 then
              modGang s c.t c.g fun gg => splitFrag s.cycle gg c.f c.fr T target (c.fr.pc + 4) rpc true false c.cl.keep
            else trapAll s c i .stackOverflow c.act 0) ∧
      ∀ rpc, c.gg.stack.length + 1 ≤ 256 → SplitHolds s.cycle c T target (c.fr.pc + 4) rpc true false
    let target := wordTarget c.fr.pc (branchOff c.cl.hints o)
    let goal (l : Nat) : DWord := pairLane c.gg a.toNat l
    -- A fragment that goes to an address stands there, and parks where it has arrived.
    (∀ gg fr pc keep, moveFrag s.cycle gg c.f fr pc keep = parkCheck s.cycle (putFrag (closeClause gg fr.home keep) c.f
      { fr with pc := pc, clause := none, st := goState fr, replay := none, peel := false, count := 0, yPending := 0 }) c.f) ∧
    (∀ gg, ArrivalHolds s.cycle gg c.f) ∧
    (GangRuns s c (fun _ => endsInfo acceptsImm true []) → branch (.bra o) c.act target) ∧
    (gangCtx s = some c → badHint acceptsImm c.cl.hints [] = none → c.cl.left = 1 →
      ((24 ≤ p.toNat ∧ p.toNat ≤ 30) ∨ (p = 31 ∧ n = 1)) →
      exec (.brc p n o) s = .next (trapAll s c (.brc p n o) .illegalOperand c.act 0)) ∧
    (p.toNat < 24 → GangRuns s c (fun _ => endsInfo acceptsImm true [.p p.toNat]) →
      branch (.brc p n o) (c.act &&& if n = 1 then ~~~(pReg c.gg p.toNat) else pReg c.gg p.toNat) target) ∧
    (GangRuns s c (fun _ => endsInfo acceptsImm true []) → branch (.brc 31 0 o) c.act target) ∧
    (GangRuns s c (fun c => endsInfo acceptsNone (pairOk c.tm.vregs a.toNat) [.v a.toNat, .v (a.toNat + 1)]) →
      let bad := c.act &&& maskOf fun l => (goal l).toNat % 4 != 0 || decide (2 ^ 56 ≤ (goal l).toNat)
      (bad ≠ 0 → exec (.brx a) s = .next (trapAll s c (.brx a) .illegalOperand bad 0)) ∧
      (c.act = 0 → exec (.brx a) s = .next (advance s c)) ∧
      (bad = 0 → ∀ l0, lowestLane c.act = some l0 →
        let differ : Prop := ¬∀ l, l < 64 → inMask c.act l = true → goal l = goal l0
        let T := c.act &&& maskOf fun l => goal l == goal l0
        (¬differ → branch (.brx a) c.act (goal l0)) ∧
        (differ → mergeAddr c = none → exec (.brx a) s = .next (trapAll s c (.brx a) .illegalConvergence c.act 0)) ∧
        (∀ rpc, differ → mergeAddr c = some rpc →
          if c.fr.peel = true ∨ c.gg.stack.length + 1 ≤ 256 then
            exec (.brx a) s = .next (modGang s c.t c.g fun gg =>
              splitFrag s.cycle gg c.f c.fr T (goal l0) c.fr.pc rpc (!c.fr.peel) true c.cl.keep) ∧
            SplitHolds s.cycle c T (goal l0) c.fr.pc rpc (!c.fr.peel) true
          else exec (.brx a) s = .next (trapAll s c (.brx a) .stackOverflow c.act 0))))

/-- Where the checks of the word pass: CALL with no active lane goes on; with room on the split stack it pushes a join entry for
the lanes left behind, if there are any, with their EXMASK already arrived, and a link entry with the active lanes, both with
the next header as RPC, and its active lanes go on at the callee; without room it traps with STACK_OVERFLOW. RET in an
unguarded clause whose fragment's innermost entry is a link entry pops it and goes to its return address with the lanes of the
entry, and otherwise traps with ILLEGAL_CONVERGENCE. EXIT removes the active lanes from the fragment and from every entry,
ends the fragment with its whole home mask when no lane of EXMASK is left, lowers the innermost entry's count then, and lets
the gang exit, its decision queue discarded, when none is. -/
def Obligations.CallsAndExits : Prop :=
  ∀ (s : State) (c : GCtx) (o : BitVec 17),
    (GangRuns s c (fun _ => endsInfo acceptsImm true []) →
      (c.act = 0 → exec (.call o) s = .next (advance s c)) ∧
      (c.act ≠ 0 →
        if c.gg.stack.length + (if c.fr.home &&& ~~~c.act = 0 then 1 else 2) ≤ 256 then
          exec (.call o) s = .next (modGang s c.t c.g fun gg =>
            callFrag gg c.f c.fr c.act (wordTarget c.fr.pc (branchOff c.cl.hints o)) c.cl.keep) ∧
          CallHolds c (wordTarget c.fr.pc (branchOff c.cl.hints o))
        else exec (.call o) s = .next (trapAll s c (.call o) .stackOverflow c.act 0))) ∧
    (GangRuns s c (fun _ => endsInfo acceptsNone true []) →
      (∀ k e, c.cl.guard = 31 → c.fr.entry = some k → entryOf c.gg k = some e → e.link = true →
        exec .ret s = .next (modGang s c.t c.g fun gg =>
          moveFrag s.cycle (popEntry gg k) c.f { c.fr with home := e.jmask, exmask := e.jmask, entry := e.parent } e.rpc
            c.cl.keep)) ∧
      ((c.cl.guard ≠ 31 ∨ (c.fr.entry.bind (entryOf c.gg)).all (fun e => !e.link) = true) →
        exec .ret s = .next (trapAll s c .ret .illegalConvergence c.act 0)) ∧
      exec .exit s = .next (afterExit
        (let u := modGang s c.t c.g fun gg => exitLanes s.cycle gg c.f c.act
         if c.fr.exmask &&& ~~~c.act = 0 then u else advance u c) c.t c.g) ∧
      ExitHolds s.cycle c ∧ ∀ ge, gangExited ge = true → (closeGang ge).dq = [])

/-- Where the checks of the word pass: BAR and BARC in an unguarded clause release at team and at cluster scope, put the fragment
into BARRIER, and the barrier's completion is then judged; in a guarded one they trap with ILLEGAL_CONVERGENCE. YIELD with
every lane of EXMASK active goes to its label when the flag is clear with no report, with a clear flag and a report it takes
the trap that delivers the report, with the YIELD's own address as PC and the report consumed, and with a set flag it waits
for the label. With some lanes of EXMASK inactive it traps with ILLEGAL_CONVERGENCE, and with no active lane it goes on. A
flag of 12 to 31 traps with ILLEGAL_OPERAND. -/
def Obligations.BarriersAndYield : Prop :=
  ∀ (s : State) (c : GCtx) (f : BitVec 5) (o : BitVec 17),
    let label := wordTarget c.fr.pc (branchOff c.cl.hints o)
    let arrive (scope : Nat) (cluster : Bool) : State :=
      checkBarriers (modFrag (releaseBy s c.t (.gang c.g) scope) c.t c.g c.f fun fr => { fr with st := .barrier cluster }) c.t
    (GangRuns s c (fun _ => endsInfo acceptsNone true []) →
      (c.cl.guard = 31 → exec .bar s = .next (arrive 3 false) ∧ exec .barc s = .next (arrive 4 true)) ∧
      (c.cl.guard ≠ 31 → exec .bar s = .next (trapAll s c .bar .illegalConvergence c.act 0) ∧
        exec .barc s = .next (trapAll s c .barc .illegalConvergence c.act 0))) ∧
    (12 ≤ f.toNat → gangCtx s = some c → badHint acceptsImm c.cl.hints [] = none → c.cl.left = 1 →
      exec (.yield f o) s = .next (trapAll s c (.yield f o) .illegalOperand c.act 0)) ∧
    (f.toNat ≤ 11 → GangRuns s c (fun _ => endsInfo acceptsImm true []) →
      (c.act = 0 → exec (.yield f o) s = .next (advance s c)) ∧
      (c.act ≠ 0 → c.act ≠ c.fr.exmask → exec (.yield f o) s = .next (trapAll s c (.yield f o) .illegalConvergence c.act 0)) ∧
      (c.act ≠ 0 → c.act = c.fr.exmask →
        (flagOf c.gg.flags f.toNat = 0 → (∀ x ∈ c.gg.reports, x.1 ≠ f.toNat) →
          exec (.yield f o) s = .next (modGang s c.t c.g fun gg =>
            moveFrag s.cycle (unpend gg (· == f.toNat)) c.f c.fr label c.cl.keep)) ∧
        (∀ n r, flagOf c.gg.flags f.toNat = 0 → c.gg.reports.find? (fun x => x.1 == f.toNat) = some (n, r) →
          exec (.yield f o) s = .next (takeGangTrap
            (modGang s c.t c.g fun gg => { gg with reports := smErase gg.reports f.toNat }) c.t c.g c.f
            { pc := c.fr.pc.truncate 56, mask := 0, replay := 0, addr := r.addr, cause := BitVec.ofNat 8 (causeCode r.cause),
              imp := true, flag := BitVec.ofNat 4 f.toNat, batch := BitVec.ofNat 5 (r.batch.getD 31),
              cls := BitVec.ofNat 3 (classCode r.cls), word := 0 } none)) ∧
        (flagOf c.gg.flags f.toNat ≠ 0 →
          exec (.yield f o) s = .next (modFrag s c.t c.g c.f fun fr => { fr with st := .waiting (.yieldFlag f.toNat label) }))))

/-- Where the checks of the word pass: SPAWN of an aligned descriptor that is read and legal, with a live launch and fewer than
65,535 children, releases at module scope, queues the child under the launch's next child identifier, raises the join counter
and goes on. With a full join counter it waits, the descriptor copied and the release made once. JOINW with no child left goes
on; with one it waits, and a team with a free context slot begins its swap-out. STEPMARK on a gang with one fragment and an
empty split stack raises its boundary count and marks the clause, else it has no effect. DQPOP takes the oldest entry of the
decision queue into a g register; at a speculative entry it waits, and at an empty queue it waits while the hawk can still
push and traps with QUEUE_MISUSE once it has stopped. With no active lane it goes on. NOP changes nothing in either stream but
the place. -/
def Obligations.TeamWordsComplete : Prop :=
  ∀ (s : State) (c : GCtx) (k : HCtx) (a : BitVec 6),
    (a.toNat < 32 → GangRuns s c (fun _ => { plainInfo with reads := [.g a.toNat] }) →
      (c.act = 0 → exec (.spawn a) s = .next (advance s c)) ∧
      -- The child queued, or the wait for room in the join counter with the descriptor kept.
      let spawns (s' : State) (l : Launch) (d : SpawnDesc) : Prop :=
        let keep (x : Option SpawnDesc) := modFrag s' c.t c.g c.f fun fr => { fr with spawn := x }
        (c.tm.join < 65535 → exec (.spawn a) s = .next (advance (queueChild (keep none) c.t c.tm l d) c)) ∧
        (c.tm.join = 65535 → exec (.spawn a) s = .next (waitFrag (keep (some d)) c .spawn))
      (∀ s' bs d l, c.act ≠ 0 → c.fr.spawn = none → (gReg c.gg a.toNat).toNat % 32 = 0 →
        gangRead s c (gReg c.gg a.toNat).toNat 32 = .ok s' bs → spawnDesc bs = some d → launchOf s' c.tm.lid = some l →
        ¬(l.record.pclass = 1 ∧ (l.stepDecl.any fun sd => !stepFits sd d.vregs d.acct d.splines) = true) →
        spawns (releaseBy s' c.t (.gang c.g) 6) l d) ∧
      (∀ d l, c.act ≠ 0 → c.fr.spawn = some d → launchOf s c.tm.lid = some l → spawns s l d)) ∧
    (GangRuns s c (fun _ => endsInfo acceptsNone true []) →
      ((c.act = 0 ∨ c.tm.join = 0) → exec .joinw s = .next (advance s c)) ∧
      (c.act ≠ 0 → c.tm.join ≠ 0 → exec .joinw s = .next (waitFrag (match freeContext s c.tm.lid with
        | some slot => startSwapout s c.t slot .swap
        | none => s) c .joinw))) ∧
    (GangRuns s c (fun _ => plainInfo) →
      (if c.act = 0 ∨ (liveFrags c.gg).length ≠ 1 ∨ c.gg.stack ≠ [] then exec .stepmark s = .next (advance s c)
      else exec .stepmark s = .next (advance (modTeam (modGang s c.t c.g fun gg =>
        { gg with boundary := gg.boundary + 1, marked := true }) c.t advanceStep) c)) ∧
      ∃ t gg, exec .nop s = .next t ∧ GangBecomes s t c gg ∧ NoRegister c gg) ∧
    (a.toNat < 32 → GangRuns s c (fun _ => { plainInfo with writes := [.g a.toNat] }) →
      (c.act = 0 → exec (.dqpop a) s = .next (advance s c)) ∧
      (c.act ≠ 0 → c.gg.dq = [] → exec (.dqpop a) s = .next (
        if c.tm.hawk.st = .stopped then trapAll s c (.dqpop a) .queueMisuse c.act 0 else waitFrag s c .dqpop)) ∧
      ∀ e rest, c.act ≠ 0 → c.gg.dq = e :: rest →
        if e.spec = true then exec (.dqpop a) s = .next (waitFrag s c .dqpop)
        else ∃ t gg, exec (.dqpop a) s = .next t ∧ GangBecomes s t c gg ∧ gg.dq = rest ∧ gg.v = c.gg.v ∧ gg.p = c.gg.p ∧
          ∀ n, gReg gg n = if n = a.toNat then e.val else gReg c.gg n) ∧
    (HawkRuns s k (fun _ => plainHInfo) → ∃ t hk, exec .nop s = .next t ∧ HawkBecomes s t k hk ∧ NoK k hk)

/-- Where the checks of the word pass and a lane is active, TRAP in a gang whose launch has a gang handler and which is not in
handler mode takes a trap: the fault record holds the address of the word, its active lanes, no replay mask, the code in
FLTADDR and cause 0x10, the operand registers, the last results, the result count, the place in the clause and the clause's
mark as a step boundary are saved for ERET, and the fragment goes on at GHANDLER at a clause header with its masks as they
were and the vector, predicate and g registers unchanged. With no active lane it goes on. The hawk does the same at KHANDLER.
Without a handler, or in handler mode, the team is killed. An armed launch's plumb line may fire first. -/
def Obligations.SoftwareTraps : Prop :=
  ∀ (s : State) (code : BitVec 16),
    let saved (pc : DWord) (mask : Mask) : FaultRecord :=
      { pc := BitVec.ofNat 56 pc.toNat, mask := mask, replay := 0, addr := code.zeroExtend 64, cause := 0x10, imp := false,
        flag := 15, batch := 31, cls := 7, word := wordOf (.trap code) }
    (∀ c, GangRuns s c (fun _ => endsInfo acceptsNone true []) →
      (c.act = 0 → exec (.trap code) s = .next (advance s c)) ∧
      (c.act ≠ 0 →
        ((vectorOf s c.tm).1 ≠ 0 → c.gg.handler = none →
          ∃ gg fr save, exec (.trap code) s = .next (modGang (plumbEvent s c.tm 0x10) c.t c.g fun _ => gg) ∧
            gg.flt = saved c.fr.pc c.act ∧ gg.handler = some save ∧
            save.home = c.fr.home ∧ save.pc = c.fr.pc ∧ save.clause = c.fr.clause ∧ save.count = c.fr.count ∧
            save.peel = c.fr.peel ∧ save.o = c.gg.o ∧ save.marked = c.gg.marked ∧ gg.marked = false ∧ save.y0 = c.gg.y0 ∧ save.y1 = c.gg.y1 ∧
            fragOf gg c.f = some fr ∧ fr.pc = (vectorOf s c.tm).1 ∧ fr.clause = none ∧ fr.st = .issuing ∧ fr.count = 0 ∧
            fr.home = c.fr.home ∧ fr.exmask = c.fr.exmask ∧ gg.v = c.gg.v ∧ gg.p = c.gg.p ∧ gg.g = c.gg.g ∧
            gg.flags = c.gg.flags ∧ gg.stack = c.gg.stack) ∧
        (((vectorOf s c.tm).1 = 0 ∨ c.gg.handler ≠ none) →
          exec (.trap code) s = .next (killTeam (plumbEvent s c.tm 0x10) c.t 0x10)))) ∧
    (∀ k, HawkRunsPlain s k (fun _ => { plainHInfo with ends := true, treat := .stall }) →
      ((vectorOf s k.tm).2 ≠ 0 → k.hk.handler = none →
        exec (.trap code) s = .next (modHawk (plumbEvent s k.tm 0x10) k.t fun hk =>
          { hk with flt := saved k.hk.pc 0, handler := some (k.hk.pc, k.hk.clause), pc := (vectorOf s k.tm).2, clause := none
                    st := .issuing })) ∧
      (((vectorOf s k.tm).2 = 0 ∨ k.hk.handler ≠ none) →
        exec (.trap code) s = .next (killTeam (plumbEvent s k.tm 0x10) k.t 0x10)))

/-- Where the checks of the word pass, ERET in a gang's unguarded clause, by the fragment whose lanes the trap concerned, with the
divergence as at handler entry, leaves handler mode: the operand registers and the last results hold their saved values in the
fragment's lanes and are unchanged in other lanes, and the fragment has the saved address, place in the clause, peel flag and
result count. With replay lanes the word issues again in those that still execute, without any it is skipped, a header with
its whole clause, by the LEN of its word, which the record gives or memory where its fetch had faulted; after an imprecise
report with no replay mask it issues as it would have. Out of handler mode it is ILLEGAL_INSTRUCTION, and in a guarded clause
or with another divergence ILLEGAL_CONVERGENCE. The hawk's ERET returns to the saved address, or past the instruction where
its replay bit is 0. That the registers are restored in the fragment's lanes alone is the model's inference (log 34), and that
a fragment which the trap does not concern meets ILLEGAL_INSTRUCTION is its choice (log 75). -/
def Obligations.EretRestores : Prop :=
  ∀ (s : State),
    (∀ c, GangRuns s c (fun _ => endsInfo acceptsNone true []) →
      (c.gg.handler = none → exec .eret s = .next (trapAll s c .eret .illegalInstruction c.act 0)) ∧
      (∀ h, c.gg.handler = some h → c.fr.home &&& h.home = 0 →
        exec .eret s = .next (trapAll s c .eret .illegalInstruction c.act 0)) ∧
      (∀ h, c.gg.handler = some h → c.fr.home &&& h.home ≠ 0 →
        ((c.cl.guard ≠ 31 ∨ divergedSince c.gg c.f h = true) →
          exec .eret s = .next (trapAll s c .eret .illegalConvergence c.act 0)) ∧
        (c.cl.guard = 31 → divergedSince c.gg c.f h = false →
          ∃ gg, (∀ n l, n < 8 → l < 64 → laneOf (oReg gg n) l =
              if inMask c.fr.home l then laneOf (smGet zeroLanes h.o n) l else laneOf (oReg c.gg n) l) ∧
            (∀ l, l < 64 → laneOf gg.y0 l = (if inMask c.fr.home l then laneOf h.y0 l else laneOf c.gg.y0 l) ∧
              laneOf gg.y1 l = (if inMask c.fr.home l then laneOf h.y1 l else laneOf c.gg.y1 l)) ∧
            gg = { c.gg with o := gg.o, y0 := gg.y0, y1 := gg.y1, frags := gg.frags, handler := none, marked := h.marked } ∧
            fragOf gg c.f = some { c.fr with pc := h.pc, clause := h.clause, count := h.count, yPending := h.yPending
                                             st := .issuing, replay := none, peel := h.peel } ∧
            let lanes := c.gg.flt.replay &&& c.fr.exmask
            ((c.gg.flt.imp = true ∧ c.gg.flt.replay = 0 → exec .eret s = .next (modGang s c.t c.g fun _ => gg)) ∧
              (¬(c.gg.flt.imp = true ∧ c.gg.flt.replay = 0) →
                (lanes ≠ 0 → h.clause = none → exec .eret s = .next (modGang s c.t c.g fun _ => gg)) ∧
                (lanes ≠ 0 → h.clause ≠ none → ∃ r, r.lanes = lanes ∧
                  exec .eret s = .next (modGang s c.t c.g fun _ =>
                    modFragOf gg c.f fun fr => { fr with replay := some r })) ∧
                (lanes = 0 → h.clause ≠ none →
                  exec .eret s = .next (modGang s c.t c.g fun _ => advanceGang s.cycle gg c.f)) ∧
                (lanes = 0 → h.clause = none → ∀ s' x, headerWord s (fragSender c) c.tm h.pc c.gg.flt.word = .word s' x →
                  exec .eret s = .next (modGang s' c.t c.g fun _ => parkCheck s'.cycle
                    (modFragOf gg c.f fun fr => { fr with pc := afterClause h.pc x }) c.f))))))) ∧
    (∀ k, HawkRunsPlain s k (fun _ => { plainHInfo with ends := true, treat := .stall }) →
      (k.hk.handler = none → exec .eret s = .next (trapHawk s k .eret .illegalInstruction 0)) ∧
      (∀ pc cl, k.hk.handler = some (pc, cl) →
        let again := (k.hk.flt.imp = true ∧ k.hk.flt.flag ≠ 15) ∨ k.hk.flt.replay.getLsbD 0 = true
        let back : State := modHawk s k.t fun hk => { hk with pc := pc, clause := cl, handler := none, st := .issuing }
        (again → exec .eret s = .next back) ∧
        (¬again → cl ≠ none → exec .eret s = .next (advanceHawk back k.t)) ∧
        (¬again → cl = none → ∀ s' x, headerWord s (hawkSender k) k.tm pc k.hk.flt.word = .word s' x →
          exec .eret s = .next (moveHawk (modHawk s' k.t fun hk =>
            { hk with pc := pc, clause := cl, handler := none, st := .issuing }) k.t (afterClause pc x))))) ∧
    -- The header's word, from which the length of a skipped clause is taken: the record's, or, where its fetch had faulted, the word
    -- that memory holds at its place, in or outside its range's window.
    (∀ x tm pc word pa, (word ≠ 0 → headerWord s x tm pc word = .word s word) ∧
      (word = 0 → codePlace s (asidOf s tm) pc.toNat = some pa → pa < Config.devLo →
        let u := flushQuanta s pa (pa + 4)
        headerWord s x tm pc word = .word u (BitVec.ofNat 32 (natOf (homeBytes u pa 4)))) ∧
      afterClause pc word = pc + BitVec.ofNat 64 (4 * (word.toNat / 512 % 8 + 2)))

/-- Where the checks of the word pass: CSRD gives the value of the CSR of its number: EXMASK and GANGID in a gang, and in either
stream FLTMASK, FLTPC, FLTCAUSE with IMP, FLTADDR, TEAMID, LAUNCHID, STEPNO, SWAPWAIT of the core, DISCARDCNT and ASIDCUR of
the launch's ASID, SKIMTAU and PRIO. STEPNO, SKIMTAU and PRIO are read as they stood when the core cycle began: each cycle's
end takes them over, and a CSWR leaves the values to be read in its cycle alone. Any other number, and EXMASK and GANGID in
the hawk, trap with ILLEGAL_OPERAND. CSWR writes STEPNO, SKIMTAU where the value is no NaN and has no sign but that of -0,
which stores +0, and PRIO up to the launch's priority; another value of the two and another number trap with ILLEGAL_OPERAND,
in either stream. By a gang to EXMASK, a value within the home mask is written and any other traps with ILLEGAL_CONVERGENCE.
FLTRD gives a word of the stream's fault record, 0 for words 6 and 7. SNAP fires the plumb line of an armed launch where ISNAP
is set and has no other effect. With no active lane a gang's word only goes on. That a hawk's CSRD waits in a window for held
work that may change a CSR is the model's choice (log 42). -/
def Obligations.SystemRegisters : Prop :=
  ∀ (s : State) (a : BitVec 6) (n : BitVec 12) (w : BitVec 3),
    -- The registers that both streams have.
    let value (tm : Team) (flt : FaultRecord) : Option DWord :=
      match n.toNat with
      | 0x001 => some flt.mask
      | 0x002 => some (flt.pc.zeroExtend 64)
      | 0x003 => some (BitVec.ofNat 64 (flt.cause.toNat + if flt.imp then 256 else 0))
      | 0x004 => some flt.addr
      | 0x009 => some (BitVec.ofNat 64 (tm.tid % 2 ^ 32))
      | 0x00A => some (BitVec.ofNat 64 (tm.lid % 2 ^ 32))
      | 0x00B => some (tm.stepnoSeen.zeroExtend 64)
      | 0x010 => some ((smGet 20000 s.swapwait tm.core).zeroExtend 64)
      | 0x011 => some (smGet 0 s.discardCnt (asidOf s tm))
      | 0x012 => some (tm.skimtauSeen.zeroExtend 64)
      | 0x013 => some (BitVec.ofNat 64 tm.prioSeen)
      | 0x014 => some (BitVec.ofNat 64 (asidOf s tm))
      | _ => none
    -- What a write of a team's register leaves; none where it traps.
    let written (t : Nat) (tm : Team) (x : DWord) : Option State :=
      let v : Word := x.setWidth 32
      if n = 0x0B then some (modTeam s t fun tm => { tm with stepno := v })
      else if n = 0x12 then
        if isNanF (f32 v) = true ∨ (v.getLsbD 31 = true ∧ v ≠ 0x80000000) then none
        else some (modTeam s t fun tm => { tm with skimtau := if v = 0x80000000 then 0 else v })
      else if n = 0x13 then
        if x.toNat % 64 ≤ launchField s tm 63 (·.prio) then some (modTeam s t fun tm => { tm with prio := x.toNat % 64 }) else none
      else none
    (∀ c, a.toNat < 32 → GangRuns s c (fun _ => { plainInfo with writes := [.g a.toNat] }) →
      let read := if n = 0 then some c.fr.exmask else if n = 8 then some (BitVec.ofNat 64 c.g) else value c.tm c.gg.flt
      (c.act = 0 → exec (.csrd a n) s = .next (advance s c)) ∧
      (c.act ≠ 0 →
        (∀ x, read = some x → GprOut (.csrd a n) s c a.toNat x) ∧
        (read = none → exec (.csrd a n) s = .next (trapAll s c (.csrd a n) .illegalOperand c.act 0)))) ∧
    (∀ k, HawkRuns s k (fun c => { plainHInfo with writes := [a.toNat], treat := csrdTreat c.hk }) →
      (∀ x, value k.tm k.hk.flt = some x → KOut (.csrd a n) s k a.toNat x) ∧
      (value k.tm k.hk.flt = none → exec (.csrd a n) s = .next (trapHawk s k (.csrd a n) .illegalOperand 0))) ∧
    (∀ t tm, listAt (tick s).teams t = some tm → tm.stepnoSeen = tm.stepno ∧ tm.skimtauSeen = tm.skimtau ∧ tm.prioSeen = tm.prio) ∧
    (∀ t tm x u tm', listAt s.teams t = some tm → written t tm x = some u → listAt u.teams t = some tm' →
      tm'.stepnoSeen = tm.stepnoSeen ∧ tm'.skimtauSeen = tm.skimtauSeen ∧ tm'.prioSeen = tm.prioSeen) ∧
    (∀ c, a.toNat < 32 → GangRuns s c (fun _ => { plainInfo with reads := [.g a.toNat] }) →
      let x := gReg c.gg a.toNat
      let out := exec (.cswr a n) s
      (c.act = 0 → out = .next (advance s c)) ∧
      (c.act ≠ 0 →
        (n = 0 → out = .next (if x &&& ~~~c.fr.home = 0 then advance (modFrag s c.t c.g c.f fun fr => { fr with exmask := x }) c
          else trapAll s c (.cswr a n) .illegalConvergence c.act 0)) ∧
        (n ≠ 0 → ∀ u, written c.t c.tm x = some u → out = .next (advance u c)) ∧
        (n ≠ 0 → written c.t c.tm x = none → out = .next (trapAll s c (.cswr a n) .illegalOperand c.act 0)))) ∧
    (∀ k, HawkRunsPlain s k (fun _ => { plainHInfo with reads := [a.toNat], treat := .hold true }) →
      let x := kReg k.hk a.toNat
      (∀ u, written k.t k.tm x = some u → exec (.cswr a n) s = .next (hawkEnd k u)) ∧
      (written k.t k.tm x = none → exec (.cswr a n) s = .next (trapHawk s k (.cswr a n) .illegalOperand 0))) ∧
    (∀ c, GangRuns s c (fun _ => gangInfo (quickInfo true [] [a.toNat] .run)) →
      (c.act = 0 → exec (.fltrd a w) s = .next (advance s c)) ∧
      (c.act ≠ 0 → GprOut (.fltrd a w) s c a.toNat (if w.toNat < 6 then faultWord c.gg.flt w.toNat else 0))) ∧
    (∀ k, HawkRuns s k (fun _ => hawkInfo (quickInfo true [] [a.toNat] .run)) →
      KOut (.fltrd a w) s k a.toNat (if w.toNat < 6 then faultWord k.hk.flt w.toNat else 0)) ∧
    OnceOut .snap s (quickInfo true [] [] (.hold true)) 0 (fun _ => True) (fun x =>
      if snapMode s x.tm = true ∧ s.isnap = true then firePlumb s 0 0 x.tm.lid x.tm.tid else s)

/-- In a gang's clause, before the clause's last word, IMMX in both forms, XCACHE, XSCOPE, XPLANE, XNOP and MERGEAT are kept with
their address for the next word that is no hint, and the fragment goes on, and nothing else changes. As the clause's last word
they trap with ILLEGAL_CLAUSE. In the hawk IMMX, XCACHE, XSCOPE and XNOP do the same, and XPLANE and MERGEAT trap with
ILLEGAL_INSTRUCTION. NOP after a hint that it does not accept, or after a second hint of one kind, traps with ILLEGAL_CLAUSE
at that hint. -/
def Obligations.HintsStandForNextWord : Prop :=
  ∀ (s : State) (imm : BitVec 24) (e : BitVec 3) (sc : BitVec 1) (r : BitVec 2) (p : BitVec 5) (cd : BitVec 8) (q : BitVec 4)
      (u f : BitVec 3) (o : BitVec 2) (m : BitVec 25),
    let gangKeeps (i : Instr) : Prop := ∀ c, gangCtx s = some c →
      (1 < c.cl.left → exec i s = .next (modFrag s c.t c.g c.f fun fr =>
        { fr with pc := fr.pc + 4, replay := none, st := .issuing
                  clause := some { c.cl with left := c.cl.left - 1, hints := c.cl.hints ++ [(c.fr.pc, i)] } })) ∧
      (c.cl.left ≤ 1 → exec i s = .next (trapAll s c i .illegalClause c.act 0))
    let hawkKeeps (i : Instr) : Prop := ∀ k, hawkCtx s = some k →
      (1 < k.cl.left → exec i s = .next (modHawk s k.t fun hk =>
        { hk with pc := hk.pc + 4, st := .issuing
                  clause := some { k.cl with left := k.cl.left - 1, hints := k.cl.hints ++ [(k.hk.pc, i)] } })) ∧
      (k.cl.left ≤ 1 → exec i s = .next (trapHawk s k i .illegalClause 0))
    let both (i : Instr) : Prop := gangKeeps i ∧ hawkKeeps i
    let gangAlone (i : Instr) : Prop :=
      gangKeeps i ∧ ∀ k, hawkCtx s = some k → exec i s = .next (trapHawk s k i .illegalInstruction 0)
    both (.immxImmediate imm) ∧ both (.immxOperand e sc r p cd) ∧ both (.xcache o) ∧ both (.xscope q u f o) ∧ both .xnop ∧
      gangAlone (.xplane p) ∧ gangAlone (.mergeat m) ∧
      (∀ c h, gangCtx s = some c → badHint acceptsNone c.cl.hints [] = some h → exec .nop s = .next (trapAtHint s c h)) ∧
      (∀ k h, hawkCtx s = some k → badHint acceptsNone k.cl.hints [] = some h → exec .nop s = .next (trapAtHawkHint s k h))

/-- Where the checks of the word pass and a lane is active: SHAPE writes the grant and sets the gang's configuration, none where
the grant gives none, and a request with a reserved field, a grant field or the reserved repeat or format is ILLEGAL_OPERAND.
MFENCE numbers the open batch with the sequence number modulo 16, which its second form also writes to a g register, and
counts on, where no instruction of the last batch with that number is outstanding, and waits otherwise. MWAIT waits while its
batch has an instruction outstanding and MWAIT.ALL while any has. Each of the three delivers the gang's matrix report where it
is of the batch waited for, and otherwise goes on. -/
def Obligations.ShapeAndBatches : Prop :=
  ∀ (s : State) (c : GCtx) (d a : BitVec 5) (b : BitVec 4),
    let last := c.gg.mseq % 16
    let closed (wr : Gang → Gang) : State :=
      advance (modGang (modTeam s c.t fun tm => closeBatch tm c.g last) c.t c.g fun gg => wr { gg with mseq := gg.mseq + 1 }) c
    let report (i : Instr) (r : Report) : State := takeGangTrap (modTeam s c.t fun tm => { tm with matrixReport := none }) c.t c.g c.f
      (reportRecord c.fr.pc 0 15 r) none
    let quiet (i : Instr) (busy : Bool) (p : Option Nat → Bool) (dest : State) : Prop :=
      (busy = true → exec i s = .next (waitFrag s c .interlock)) ∧
      (busy = false → ∀ r, reportAt c.tm c.g p = some r → exec i s = .next (report i r)) ∧
      (busy = false → reportAt c.tm c.g p = none → exec i s = .next dest)
    (c.act ≠ 0 → GangRuns s c (fun _ => { plainInfo with reads := [.g a.toNat], writes := [.g d.toNat] }) →
      let req := gReg c.gg a.toNat
      (∀ w, grantFor req c.tm.vregs = some w → exec (.shape d a) s = .next (advance (modGang s c.t c.g fun gg =>
        { setG gg d.toNat w with mcfg := if w.getLsbD 7 = true then w else 0 }) c)) ∧
      ((256 ≤ req.toNat ∨ 128 ≤ req.toNat % 256 ∨ 10 ≤ req.toNat % 16 ∨ req.toNat / 32 % 4 = 3) →
        exec (.shape d a) s = .next (trapAll s c (.shape d a) .illegalOperand c.act 0))) ∧
    (c.act ≠ 0 → GangRuns s c (fun _ => plainInfo) →
      quiet .mfence (batchBusy c.tm c.g last) (· == some last) (closed fun gg => gg) ∧
      quiet (.mwait b) (batchBusy c.tm c.g b.toNat) (· == some b.toNat) (advance s c) ∧
      quiet .mwaitAll (matrixBusy c.tm c.g) (fun _ => true) (advance s c)) ∧
    (c.act ≠ 0 → GangRuns s c (fun _ => { plainInfo with writes := [.g d.toNat] }) →
      quiet (.mfenceGd d) (batchBusy c.tm c.g last) (· == some last) (closed fun gg => setG gg d.toNat (BitVec.ofNat 64 last)))

/-- A matrix instruction issues: it joins the open batch of its gang and the team's order with its operand registers as they
stand, the tags of the registers it will write are cleared, and the fragment goes on (R179 to R182). It waits while eight of
the gang's are outstanding, traps where a scratchpad extent runs past the allocation, and with lanes missing is
ILLEGAL_CONVERGENCE. -/
def Sys2Proof.Machine.MatrixIssues (i : Instr) (s : State) (c : GCtx) (acc : Accepts) (needs : GCtx → MatrixNeeds) : Prop :=
  GangRuns s c (matrixInfo acc needs) →
    (c.act ≠ allLanes → exec i s = .next (trapAll s c i .illegalConvergence c.act 0)) ∧
    (c.act = allLanes →
      (∀ x, (needs c).extents.find? (fun x => decide (scratchSize c.tm < x.1 + x.2)) = some x →
        exec i s = .next (trapAll s c i .scratchBounds allLanes (BitVec.ofNat 64 x.1) (some .mx))) ∧
      ((∀ x ∈ (needs c).extents, x.1 + x.2 ≤ scratchSize c.tm) →
        (8 ≤ (c.tm.mops.filter fun m => m.gang == c.g).length → exec i s = .next (waitFrag s c .interlock)) ∧
        ((c.tm.mops.filter fun m => m.gang == c.g).length < 8 →
          exec i s = .next (advance (modTeam s c.t fun tm =>
            { tm with
              mops := tm.mops ++ [{ id := tm.nextOp, gang := c.g, instr := i, cfg := c.gg.mcfg, batch := none
                                    regs := snapRegs c.gg (needs c).reads, index := (needs c).index
                                    gvals := (needs c).gregs.map (gReg c.gg), reads := (needs c).reads
                                    writes := (needs c).writes, entry := 0, stepNo := 0, deposits := [] }]
              nextOp := tm.nextOp + 1
              gangs := listModify (fun gg => (needs c).writes.foldl clearTag gg) tm.gangs c.g }) c))))

/-- Where the checks of the word pass and all 64 lanes are active, MMA in both forms, MMAS, MMAN with N 2, 4 and 8, MMAB, ACCLD,
ACCST, their .R forms, ACCZ and ACCMOV join the open batch with the values of their registers, each with the operands, spans
and scratchpad extents that its entry gives, and the fragment goes on. A clear or move of a tile that is not below the team's
number of tiles, and the image forms with a misaligned or too large offset, are ILLEGAL_OPERAND. An extent past the allocation
is SCRATCH_BOUNDS: that FLTADDR is the extent's first offset and CLASS the matrix engine's is the model's inference (log 54). -/
def Obligations.MatrixWordsIssue : Prop :=
  ∀ (s : State) (c : GCtx) (d e : BitVec 4) (a b : BitVec 7) (g h : BitVec 5) (n : BitVec 3),
    let f := configOf
    let both (x : GCtx) (more : Bool) : MatrixNeeds :=
      registersAB x d a.toNat b.toNat (spanA (f x).fmt (f x).kr) (spanB (f x).fmt (f x).n (f x).kr) more
    let illegal (i : Instr) (acc : Accepts) (needs : GCtx → MatrixNeeds) : Prop :=
      c.act = allLanes → (needs c).legal = false → GangRuns s c (fun c => { matrixInfo acc needs c with legal := true }) →
        exec i s = .next (trapAll s c i .illegalOperand c.act 0)
    let issues (i : Instr) (acc : Accepts) (needs : GCtx → MatrixNeeds) : Prop := MatrixIssues i s c acc needs ∧ illegal i acc needs
    let image (x : GCtx) : MatrixNeeds :=
      { noNeeds with
        legal := decide (d.toNat < x.tm.acct) && (gReg x.gg g.toNat).toNat % 128 == 0 && decide ((gReg x.gg g.toNat).toNat < 2 ^ 23)
        gregs := [g.toNat], extents := [((gReg x.gg g.toNat).toNat, 32768)] }
    let columns (x : GCtx) : Bool :=
      decide (d.toNat < x.tm.acct) && decide (b.toNat + (n.toNat + 1) ≤ 128) && decide (a.toNat + (n.toNat + 1) ≤ x.tm.vregs)
    let run : List Nat := (List.range (n.toNat + 1)).map (· + a.toNat)
    issues (.mma d a b) acceptsNone (fun x => both x (decide ((f x).fmt ≤ 7))) ∧
    issues (.mmaPlane d g h) ⟨false, false, false, false, true⟩ (planeNeeds d g h) ∧
    issues (.mmas d a b g) acceptsNone (fun x =>
      { both x ((decide ((f x).fmt ≤ 5) || (f x).fmt == 7) && decide (kTotal (f x) ≤ 64) && g.toNat % 2 == 0) with
        gregs := [g.toNat, g.toNat + 1] }) ∧
    issues (.mmanN2 d a b) acceptsOper (mmanNeeds 2 d a b) ∧ issues (.mmanN4 d a b) acceptsOper (mmanNeeds 4 d a b) ∧
    issues (.mmanN8 d a b) acceptsOper (mmanNeeds 8 d a b) ∧
    issues (.mmab g) acceptsNone (fun x =>
      let w := (gReg x.gg g.toNat).toNat
      { noNeeds with
        legal := (f x).gv && (decide ((f x).fmt ≤ 5) || (f x).fmt == 7) && w / 2 ^ 39 == 0 && w % 2 ^ 23 % 16 == 0
        gregs := [g.toNat], extents := [(w % 2 ^ 23, 16 * (w / 2 ^ 23 % 2 ^ 16 + 1))] }) ∧
    issues (.accld d g) acceptsNone image ∧ issues (.accst d g) acceptsNone image ∧
    issues (.accldR d a b n) acceptsNone (fun x => { noNeeds with legal := columns x, writes := run }) ∧
    issues (.accstR d a b n) acceptsNone (fun x => { noNeeds with legal := columns x, reads := run }) ∧
    issues (.accz d) acceptsNone (fun x => { noNeeds with legal := decide (d.toNat < x.tm.acct) }) ∧
    issues (.accmov d e) acceptsNone (fun x =>
      { noNeeds with legal := decide (d.toNat < x.tm.acct) && decide (e.toNat < x.tm.acct) })

/-- Where the checks of the word pass with all lanes active, legal descriptors, output lines and planes inside the allocation, and
no line of an input tile that they read EMPTY, PENDING (they wait for it) or FAULTED (they trap with POISON at the access),
SKIMCHK makes its predicate pending, and SKIMCHK and SKIMPUT start an operation on the selected flag that carries the key, the
descriptors, STEPNO and, for SKIMCHK, SKIMTAU and the launch's step distance, and the fragment goes on. With lanes missing
they are ILLEGAL_CONVERGENCE, with output lines or planes past the allocation SCRATCH_BOUNDS, whose FLTADDR and CLASS are the
model's inference (log 54). When the tags are judged, and the order of a stall and a trap on them, are the model's choice (log
90). SKIMRD with no skim operation of the gang in progress reads the counter, or 0 where the launch has no skim, and
SKIMRD.CLR also clears it, and both wait while one is in progress. -/
def Obligations.SkimWords : Prop :=
  ∀ (s : State) (c : GCtx) (fs : BitVec 1) (p k d st : BitVec 5) (n : BitVec 2),
    let issued (i : Instr) (info : GCtx → WordInfo) (kind : SkimArgs → EngineKind) (pend : List RegName) : Prop :=
      GangRuns s c info →
        (c.act ≠ allLanes → exec i s = .next (trapAll s c i .illegalConvergence c.act 0)) ∧
        (c.act = allLanes → ∀ a, skimArgs c k d st = some a →
          (c.tm.lines < a.key.oline + a.store.olines →
            exec i s = .next (trapAll s c i .scratchBounds allLanes (BitVec.ofNat 64 (128 * a.key.oline)) (some .cp))) ∧
          (a.key.oline + a.store.olines ≤ c.tm.lines →
            (planesFit (scratchSize c.tm) a.d 0 (a.store.cpl + 1) a.store.iblk = false →
              exec i s = .next (trapAll s c i .scratchBounds allLanes (BitVec.ofNat 64 a.d.ebase) (some .cp))) ∧
            (planesFit (scratchSize c.tm) a.d 0 (a.store.cpl + 1) a.store.iblk = true →
              (∀ ls, tileStop s c.tm a (kind a) = some (.inl ls) → exec i s = .next (waitFrag s c (.fill ls))) ∧
              (∀ off, tileStop s c.tm a (kind a) = some (.inr off) →
                exec i s = .next (trapAll s c i .poison allLanes (BitVec.ofNat 64 off) (some .cp))) ∧
              (tileStop s c.tm a (kind a) = none →
                exec i s = .next (advance (issueOp (gangIssuer c fs) (kind a) []
                  (modGang s c.t c.g fun gg => setPending gg pend (flagFor c fs))) c)))))
    let reads (i : Instr) (clear : Bool) : Prop := c.act ≠ 0 → GangRuns s c (fun _ => { plainInfo with writes := [.g d.toNat] }) →
      (skimBusy c.tm c.g = true → exec i s = .next (waitFrag s c .interlock)) ∧
      (skimBusy c.tm c.g = false → skimOn s c.tm = false → GprOut i s c d.toNat 0) ∧
      (skimBusy c.tm c.g = false → skimOn s c.tm = true →
        exec i s = .next (advance
          (let u := modGang s c.t c.g fun gg => setG gg d.toNat (smGet 0 c.tm.skimCnt n.toNat)
           if clear then modTeam u c.t fun tm => { tm with skimCnt := smSet 0 tm.skimCnt n.toNat 0 } else u) c))
    issued (.skimchk fs p k d st) (fun c => skimInfo ⟨false, false, false, false, true⟩ fs k d st
        (decide (p.toNat < 24) && (planeHint c.cl.hints).all fun x => decide (x ≤ 16)) [.p p.toNat] c)
      (fun a => .skimchk p.toNat a.key a.d a.store c.tm.stepnoSeen c.tm.skimtauSeen (stepDistance s c.tm)) [.p p.toNat] ∧
    issued (.skimput fs k d st) (skimInfo acceptsNone fs k d st true [])
      (fun a => .skimput a.key a.d a.store c.tm.stepnoSeen) [] ∧
    reads (.skimrd d n) false ∧ reads (.skimrdClr d n) true

/-- Where the checks of the word pass, an aligned descriptor has been read whole and is legal, and its scratchpad extents lie
inside the allocation, COPY, MCAST of a global source and a scratchpad destination, GATHER and SCATTER without overlapping
areas, and PCOPY start one operation of their kind: the flag rises, the scratchpad lines to be written become PENDING and the
stream goes on. MCAST in a cluster of one team is a COPY, and each MCAST raises the team's group number. A descriptor address
of COPY, MCAST, GATHER or SCATTER that is no multiple of 32 is MISALIGNED, an illegal descriptor or area ILLEGAL_OPERAND, and
in each of the five a scratchpad extent past the allocation, of a copy's or plane copy's source, then of its destination, or
of an area, SCRATCH_BOUNDS. COPY and MCAST leave, at an issue as at a trap, what their reads of the descriptor have left, with
the answers that peers gave to them consumed (R239); a MCAST in a larger cluster also joins its group (R164). That FLTADDR is
then the extent's first offset and CLASS the engine's is the model's inference (log 54). -/
def Obligations.EngineCommandsIssue : Prop :=
  ∀ (s s1 s2 : State) (hdr rest : List Byte) (d0 : CopyDesc) (nd : Nat) (dims : List CopyDim) (f sd : BitVec 1) (a b r : BitVec 6)
      (g : GatherDesc) (pd ps : PlaneDesc),
    let info := commandInfo f acceptsCache true [a.toNat]
    let scratch : Bool := sd == 1
    let d := { d0 with dims := dims }
    let off (x : Issuer) : Nat := (x.reg a.toNat).toNat
    let got (x : Issuer) : Prop := off x % 32 = 0 ∧ streamLoad s x scratch (off x) 32 = .ok s1 hdr ∧ copyHeader hdr = some (d0, nd) ∧
      streamLoad s1 x scratch (off x + 32) (16 * nd) = .ok s2 rest ∧ copyDims nd rest = some dims
    let fits (x : Issuer) : Prop := extentFails (scratchSize x.tm) d true = false ∧ extentFails (scratchSize x.tm) d false = false
    let lines := scratchLinesOf (allMoves d)
    let area (x : Issuer) : Prop := off x % 32 = 0 ∧ streamScratch s x (off x) 32 = .ok s1 hdr ∧ gatherDesc hdr = some g
    let inside (x : Issuer) : Prop := (∀ y ∈ gatherAreas g, y.1 + y.2 ≤ scratchSize x.tm) ∧ anyMeet (gatherAreas g) = false
    -- The answers of peers to the reads at issue have been consumed.
    let used (x : Issuer) (u : State) : State := consumePeers u x.tm.lid x.tm.tid x.who (· == x.lane)
    -- The traps that COPY and MCAST share.
    let copyTraps (i : Instr) : Prop :=
      (∀ n cls, OnceTraps i s info f .misaligned n (some cls) (fun x => off x = n ∧ n % 32 ≠ 0 ∧
        cls = if scratch then .ls else classAt s (asidOf s x.tm) n)) ∧
      OnceTrapsIn i s info f .illegalOperand 0 none (fun x =>
        off x % 32 = 0 ∧ streamLoad s x scratch (off x) 32 = .ok s1 hdr ∧ copyHeader hdr = none) (fun x => used x s1) ∧
      OnceTrapsIn i s info f .illegalOperand 0 none (fun x =>
        off x % 32 = 0 ∧ streamLoad s x scratch (off x) 32 = .ok s1 hdr ∧ copyHeader hdr = some (d0, nd) ∧
        streamLoad s1 x scratch (off x + 32) (16 * nd) = .ok s2 rest ∧ copyDims nd rest = none) (fun x => used x s2) ∧
      OnceTrapsIn i s info f .scratchBounds (addrOf (copyExtent d true).1) (some .cp) (fun x =>
        got x ∧ extentFails (scratchSize x.tm) d true = true) (fun x => used x s2) ∧
      OnceTrapsIn i s info f .scratchBounds (addrOf (copyExtent d false).1) (some .cp) (fun x =>
        got x ∧ extentFails (scratchSize x.tm) d true = false ∧ extentFails (scratchSize x.tm) d false = true) (fun x => used x s2)
    -- Those of GATHER and SCATTER.
    let gatherTraps (i : Instr) : Prop :=
      (∀ n, OnceTraps i s info f .misaligned n (some .ls) (fun x => off x = n ∧ n % 32 ≠ 0)) ∧
      OnceTraps i s info f .illegalOperand 0 none (fun x =>
        off x % 32 = 0 ∧ streamScratch s x (off x) 32 = .ok s1 hdr ∧ gatherDesc hdr = none) ∧
      (∀ y, OnceTraps i s info f .scratchBounds y.1 (some .ga) (fun x => area x ∧
        (gatherAreas g).find? (fun y => decide (scratchSize x.tm < y.1 + y.2)) = some y)) ∧
      OnceTraps i s info f .illegalOperand 0 none (fun x => area x ∧
        (∀ y ∈ gatherAreas g, y.1 + y.2 ≤ scratchSize x.tm) ∧ anyMeet (gatherAreas g) = true)
    (OnceOut (.copy f sd a) s info f (fun x => got x ∧ fits x) (fun x => used x (issueOp x (.copy d) lines s2)) ∧
      copyTraps (.copy f sd a)) ∧
    (OnceOut (.mcast f sd a) s info f (fun x => got x ∧ fits x ∧ d.sloc = false ∧ d.dloc = true) (fun x =>
        let c := cptOf s2 x.tm
        let u := modTeam (issueOp x (if c = 1 then .copy d else .mcast d x.tm.mcastNo) lines s2) x.t fun tm =>
          { tm with mcastNo := tm.mcastNo + 1 }
        used x (if c = 1 then u else joinGroup u x.tm c x.tm.mcastNo d)) ∧
      OnceTrapsIn (.mcast f sd a) s info f .illegalOperand 0 none
        (fun x => got x ∧ fits x ∧ (d.sloc = true ∨ d.dloc = false)) (fun x => used x s2) ∧
      copyTraps (.mcast f sd a)) ∧
    (OnceOut (.gather f a) s info f (fun x => area x ∧ inside x) (fun x => issueOp x (.gather g) (gatherLines g true) s1) ∧
      OnceOut (.scatter f a) s info f (fun x => area x ∧ inside x) (fun x => issueOp x (.scatter g) (gatherLines g false) s1) ∧
      gatherTraps (.gather f a) ∧ gatherTraps (.scatter f a)) ∧
    (let pinfo (hs : List (DWord × Instr)) : EInfo := commandInfo f ⟨false, false, true, false, true⟩
        (a.toNat % 2 == 0 && b.toNat % 2 == 0 && (planeHint hs).all fun k => decide (k ≤ 16))
        [a.toNat, a.toNat + 1, b.toNat, b.toNat + 1, r.toNat]
      let w (x : Issuer) : Nat := (x.reg r.toNat).toNat
      let plo (x : Issuer) : Nat := w x % 32
      let phi (x : Issuer) : Nat := w x / 32 % 32
      let nb (x : Issuer) : Nat := w x / 1024 % 2 ^ 22
      let ok (x : Issuer) : Prop := planeDesc (x.reg a.toNat) (x.reg (a.toNat + 1)) = some pd ∧
        planeDesc (x.reg b.toNat) (x.reg (b.toNat + 1)) = some ps ∧ w x < 2 ^ 32 ∧ nb x ≠ 0 ∧ pd.m = ps.m ∧ plo x ≤ phi x ∧
        phi x ≤ pd.m + 1 ∧ pd.block + nb x ≤ pd.bcount ∧ ps.block + nb x ≤ ps.bcount
      let fit (x : Issuer) (p : PlaneDesc) : Bool := planesFit (scratchSize x.tm) p (plo x) (phi x) (nb x)
      let dest (x : Issuer) : State :=
        issueOp x (.pcopy pd ps (plo x) (phi x) (nb x)) (scratchLinesOf (pcopyMoves pd ps (plo x) (phi x) (nb x))) s
      -- What a gang and the hawk answer where a condition holds: the operation, or a trap at an address.
      let issues (cond : Issuer → Prop) : Prop :=
        (∀ c, GangRuns s c (fun c => gangInfo (pinfo c.cl.hints)) → c.act ≠ 0 → cond (gangIssuer c f) →
          exec (.pcopy f a b r) s = .next (advance (dest (gangIssuer c f)) c)) ∧
        (∀ k, HawkRunsPlain s k (fun k => hawkInfo (pinfo k.cl.hints)) → cond (hawkIssuer k f) →
          exec (.pcopy f a b r) s = .next (hawkEnd k (dest (hawkIssuer k f))))
      let traps (cause : Cause) (addr : Issuer → Nat) (cls : Option EngineClass) (cond : Issuer → Prop) : Prop :=
        (∀ c, GangRuns s c (fun c => gangInfo (pinfo c.cl.hints)) → c.act ≠ 0 → cond (gangIssuer c f) →
          exec (.pcopy f a b r) s =
            .next (trapAll s c (.pcopy f a b r) cause c.act (BitVec.ofNat 64 (addr (gangIssuer c f))) cls)) ∧
        (∀ k, HawkRunsPlain s k (fun k => hawkInfo (pinfo k.cl.hints)) → cond (hawkIssuer k f) →
          exec (.pcopy f a b r) s = .next (trapHawk s k (.pcopy f a b r) cause (BitVec.ofNat 64 (addr (hawkIssuer k f))) cls))
      issues (fun x => ok x ∧ fit x ps = true ∧ fit x pd = true) ∧
        traps .scratchBounds (fun x => planesStart ps (plo x)) (some .cp) (fun x => ok x ∧ fit x ps = false) ∧
        traps .scratchBounds (fun x => planesStart pd (plo x)) (some .cp) (fun x => ok x ∧ fit x ps = true ∧ fit x pd = false) ∧
        traps .illegalOperand (fun _ => 0) none (fun x => planeDesc (x.reg a.toNat) (x.reg (a.toNat + 1)) = none ∨
          planeDesc (x.reg b.toNat) (x.reg (b.toNat + 1)) = none))

/-- Where the checks of the word pass, FILLCLR of an aligned run of 1 to 4,096 lines inside the allocation, none of them PENDING,
makes each of them EMPTY and goes on. An offset that is not aligned, a count outside the range or a PENDING line is
ILLEGAL_OPERAND, and a run past the allocation SCRATCH_BOUNDS, with the first offset as FLTADDR and the class LS by the
model's inference (log 54). FILLTST of an aligned run inside the allocation writes the fill tags of its lines, two bits each
from the lowest, to its register. An offset of it that is not aligned is ILLEGAL_OPERAND, and a run past the allocation
SCRATCH_BOUNDS in the same way. Inside a speculation window FILLTST is executed too, and reads the tags with the lines of the
engine commands held there PENDING, by the model's inference (log 42). The scratchpad's bytes are as they were. -/
def Obligations.FillTagsOfLines : Prop :=
  ∀ (s : State) (d a b : BitVec 6) (n : BitVec 5) (m : Nat),
    let off (x : Issuer) : Nat := (x.reg a.toNat).toNat
    let cnt (x : Issuer) : Nat := (x.reg b.toNat).toNat
    let cinfo := quickInfo true [a.toNat, b.toNat] [] .stall
    let tinfo := quickInfo true [a.toNat] [d.toNat] .run
    let runLines (x : Issuer) : List Nat := linesOf (off x) (128 * cnt x)
    let legal (x : Issuer) : Prop := off x % 128 = 0 ∧ 1 ≤ cnt x ∧ cnt x ≤ 4096
    OnceOut (.fillclr a b) s cinfo 0
      (fun x => legal x ∧ off x + 128 * cnt x ≤ scratchSize x.tm ∧ ∀ l ∈ runLines x, fillTag x.tm l ≠ tagPending)
      (fun x => modTeam s x.t fun tm => (runLines x).foldl (fun tm l => setFill tm l tagEmpty) tm) ∧
    OnceTraps (.fillclr a b) s cinfo 0 .illegalOperand 0 none (fun x => ¬legal x ∨
      (off x + 128 * cnt x ≤ scratchSize x.tm ∧ ∃ l ∈ runLines x, fillTag x.tm l = tagPending)) ∧
    OnceTraps (.fillclr a b) s cinfo 0 .scratchBounds m (some .ls)
      (fun x => off x = m ∧ legal x ∧ scratchSize x.tm < off x + 128 * cnt x) ∧
    OnceOut (.filltst d a n) s tinfo 0 (fun x => off x % 128 = 0 ∧ off x + 128 * (n.toNat + 1) ≤ scratchSize x.tm)
      (fun x => putReg x d.toNat (BitVec.ofNat 64 (packTags x.tm (off x / 128) (n.toNat + 1))) s) ∧
    (∀ k, HawkRuns s k (fun _ => hawkInfo tinfo) →
      let x := { hawkIssuer k 0 with tm := heldMarks k s }
      off x % 128 = 0 → off x + 128 * (n.toNat + 1) ≤ scratchSize x.tm → exec (.filltst d a n) s =
        .next (hawkEnd k (putReg x d.toNat (BitVec.ofNat 64 (packTags x.tm (off x / 128) (n.toNat + 1))) s))) ∧
    OnceTraps (.filltst d a n) s tinfo 0 .illegalOperand 0 none (fun x => off x % 128 ≠ 0) ∧
    OnceTraps (.filltst d a n) s tinfo 0 .scratchBounds m (some .ls)
      (fun x => off x = m ∧ off x % 128 = 0 ∧ scratchSize x.tm < off x + 128 * (n.toNat + 1)) ∧
    (∀ tm l j, (packTags tm l (n.toNat + 1) / 4 ^ j % 4 = if j ≤ n.toNat then (fillTag tm (l + j)).toNat else 0)) ∧
    (∀ tm l k, (setFill tm l tagEmpty).scratch = tm.scratch ∧
      fillTag (setFill tm l tagEmpty) k = if k = l then tagEmpty else fillTag tm k)

/-- Where the checks of the word pass: QPUSH of a handle whose lines lie inside the allocation, with an allowance left and fewer
than 16 handles in the queue, appends the handle, takes one from the allowance, and is a release at team scope. Without them
it waits, or is QUEUE_MISUSE when every other stream of the team has finished. QPOP takes the oldest handle into its register
and clears the writer marks of its lines, and on an empty queue waits, or is QUEUE_MISUSE in the same way. QTRY does the same
where a handle stands and sets its predicate or condition, and clears it where none does. QALLOW sets a producer's allowance
and QALLOW.ADD raises it, up to 65,535. A producer that the team has not is QUEUE_MISUSE in either stream. In the hawk, a hint
of QALLOW whose payload is above 31 is ILLEGAL_CLAUSE at the hint, whatever the guard. -/
def Obligations.NamedQueues : Prop :=
  ∀ (s : State) (d a : BitVec 6) (q : BitVec 4) (p : BitVec 5) (n : BitVec 11) (h : Word) (rest : List Word),
    let handle (x : Issuer) : Word := (x.reg a.toNat).setWidth 32
    let first (h : Word) : Nat := h.toNat % 2 ^ 13
    let count (h : Word) : Nat := h.toNat / 2 ^ 13 % 2 ^ 13 + 1
    let legal (x : Issuer) : Prop := first (handle x) + count (handle x) ≤ 4096 ∧ first (handle x) + count (handle x) ≤ x.tm.lines
    let room (x : Issuer) : Prop := allowance x.tm q.toNat (producerOf x.who) ≠ 0 ∧ (queueOf x.tm q.toNat).length < 16
    let pushInfo := quickInfo true [a.toNat] [] .stall
    let popInfo := quickInfo true [] [d.toNat] .stall
    let taken (x : Issuer) : State :=
      putReg x d.toNat (h.setWidth 64) (modTeam s x.t fun tm =>
        ((List.range (count h)).map (· + first h)).foldl (fun tm l => setMark tm l 31) (setQueue tm q.toNat rest))
    OnceOut (.qpush a q) s pushInfo 0 (fun x => legal x ∧ room x) (fun x => modTeam (releaseBy s x.t x.who 3) x.t fun tm =>
      setAllowance (setQueue tm q.toNat (queueOf tm q.toNat ++ [handle x])) q.toNat (producerOf x.who)
        (allowance tm q.toNat (producerOf x.who) - 1)) ∧
    OnceWaits (.qpush a q) s pushInfo (.qpush q.toNat) (fun x => legal x ∧ ¬room x ∧ othersGone x.tm x.who = false) ∧
    OnceTraps (.qpush a q) s pushInfo 0 .queueMisuse 0 none (fun x => legal x ∧ ¬room x ∧ othersGone x.tm x.who = true) ∧
    OnceOut (.qpop d q) s popInfo 0 (fun x => queueOf x.tm q.toNat = h :: rest) taken ∧
    OnceWaits (.qpop d q) s popInfo (.qpop q.toNat) (fun x => queueOf x.tm q.toNat = [] ∧ othersGone x.tm x.who = false) ∧
    OnceTraps (.qpop d q) s popInfo 0 .queueMisuse 0 none (fun x => queueOf x.tm q.toNat = [] ∧ othersGone x.tm x.who = true) ∧
    (∀ c, d.toNat < 32 → p.toNat < 24 → GangRuns s c (fun _ => { plainInfo with writes := [.g d.toNat, .p p.toNat] }) →
      (c.act = 0 → exec (.qtry d p q) s = .next (advance s c)) ∧
      (c.act ≠ 0 → queueOf c.tm q.toNat = [] → PredOut (.qtry d p q) s c p fun _ => false) ∧
      (c.act ≠ 0 → queueOf c.tm q.toNat = h :: rest → exec (.qtry d p q) s = .next (advance
        (modGang (taken (gangIssuer c 0)) c.t c.g fun gg => setP gg p.toNat c.act allLanes) c))) ∧
    (∀ k, p.toNat < 8 →
      HawkRunsPlain s k (fun _ => { plainHInfo with writes := [d.toNat], cwrites := [p.toNat], treat := .stall }) →
      (queueOf k.tm q.toNat = [] → exec (.qtry d p q) s = .next (hawkEnd k
        (modHawk s k.t fun hk => { hk with c := setCBit hk.c p.toNat false }))) ∧
      (queueOf k.tm q.toNat = h :: rest → exec (.qtry d p q) s = .next (hawkEnd k
        (modHawk (taken (hawkIssuer k 0)) k.t fun hk => { hk with c := setCBit hk.c p.toNat true })))) ∧
    (∀ (m : BitVec 1) (x : Issuer) (dest : State),
      let who := (x.reg a.toNat).toNat
      let v (hs : List (DWord × Instr)) : Nat := (immHint hs).getD 0 % 32 * 2 ^ 11 + n.toNat
      dest = (modTeam s x.t fun tm => setAllowance tm q.toNat who
        (if m = 1 then min 65535 (allowance tm q.toNat who + v x.hints) else v x.hints)) →
      (∀ c, x = gangIssuer c 0 → a.toNat < 32 → badAllowHint c.cl.hints = none → c.act ≠ 0 →
        GangRuns s c (fun _ => { plainInfo with accepts := acceptsImm, reads := [.g a.toNat] }) →
        ((who = 16 ∨ who < c.tm.gangCount) → exec (.qallow m a n q) s = .next (advance dest c)) ∧
        (who ≠ 16 → c.tm.gangCount ≤ who →
          exec (.qallow m a n q) s = .next (trapAll s c (.qallow m a n q) .queueMisuse c.act 0))) ∧
      (∀ k, x = hawkIssuer k 0 → badAllowHint k.cl.hints = none → (who = 16 ∨ who < k.tm.gangCount) →
        HawkRunsPlain s k (fun _ => { plainHInfo with accepts := acceptsImm, reads := [a.toNat], treat := .stall }) →
        exec (.qallow m a n q) s = .next (hawkEnd k dest)) ∧
      (∀ k, x = hawkIssuer k 0 → badAllowHint k.cl.hints = none → who ≠ 16 → k.tm.gangCount ≤ who →
        HawkRunsPlain s k (fun _ => { plainHInfo with accepts := acceptsImm, reads := [a.toNat], treat := .stall }) →
        exec (.qallow m a n q) s = .next (trapHawk s k (.qallow m a n q) .queueMisuse 0))) ∧
    (∀ (m : BitVec 1) k h, hawkCtx s = some k → gangCtx s = none → badHint acceptsImm k.cl.hints [] = none →
      badAllowHint k.cl.hints = some h → exec (.qallow m a n q) s = .next (trapAtHawkHint s k h))

/-- Where the checks of the word pass and the type is one of the three, ARGMAX gives the lowest active lane whose key no other
active lane's key exceeds, or with .VAL that key, and 0 without an active lane. REDUX gives every written lane the combination
of the active lanes' values in ascending order, and SCAN that of the active lanes at or below the lane, with .EXCL below it.
Integer addition is the sum modulo 2^32. In each of the three the type 3 is ILLEGAL_OPERAND, and in REDUX and SCAN an
operation above 5 or a bitwise operation on FP32. Nothing else changes but the last-result file and the destination's tag. -/
def Obligations.ReductionsOverLanes : Prop :=
  ∀ (s : State) (c : GCtx) (m : BitVec 1) (d : BitVec 7) (a : BitVec 8) (o : BitVec 3) (t : BitVec 2),
    let x (l : Nat) : Word := if t = 0 then srcF32 s c a.toNat l else srcLane s c a.toNat l
    let info (more : Bool) (c : GCtx) : WordInfo := let w := v3Info c useNone d a none false; { w with legal := w.legal && more }
    let opOk : Bool := t != 3 && decide (o.toNat ≤ 5) && (t != 0 || decide (o.toNat ≤ 2))
    let total (ls : List Nat) : Word := combineAll o.toNat t.toNat (ls.map x)
    (GangRuns s c (info (t != 3)) →
      ∃ val, LaneOut (.argmax m d a t) s c d (fun _ => val) ∧ (c.act = 0 → val = 0) ∧
        (c.act ≠ 0 → ∃ w, w < 64 ∧ inMask c.act w = true ∧ val = (if m = 1 then x w else BitVec.ofNat 32 w) ∧
          (∀ l, l < 64 → inMask c.act l = true → keyBelow t.toNat (x w) (x l) = false ∧
            (l < w → keyBelow t.toNat (x l) (x w) = true)))) ∧
    (GangRuns s c (info opOk) →
      LaneOut (.redux d a o t) s c d (fun _ => total (lanesIn c.act)) ∧
      LaneOut (.scan m d a o t) s c d (fun l => total ((lanesIn c.act).filter fun j => decide (j < l) || (m == 0 && j == l)))) ∧
    (t = 3 → GangRuns s c (fun c => { info true c with legal := true }) →
      exec (.argmax m d a t) s = .next (trapAll s c (.argmax m d a t) .illegalOperand c.act 0)) ∧
    (opOk = false → GangRuns s c (fun c => { info true c with legal := true }) →
      exec (.redux d a o t) s = .next (trapAll s c (.redux d a o t) .illegalOperand c.act 0) ∧
      exec (.scan m d a o t) s = .next (trapAll s c (.scan m d a o t) .illegalOperand c.act 0)) ∧
    (∀ xs, combineAll 0 1 xs = BitVec.ofNat 32 (xs.map (·.toNat)).sum ∧ combineAll 0 2 xs = BitVec.ofNat 32 (xs.map (·.toNat)).sum)

/-- Where the checks of the word pass and all 64 lanes are active, SORT64 leaves the lanes' keys in the order of the type and
direction that the IMMX names, or with .IDX the lanes that they came from, as a permutation of the lanes in which no key
stands before one that must precede it and equal keys keep their order. MERGE leaves in the register pair the 128 keys, or
their positions, that its procedure gives, a permutation of both inputs. With lanes missing both are ILLEGAL_CONVERGENCE.
Nothing else changes but the tags and, for SORT64, the last-result file. -/
def Obligations.SortAndMerge : Prop :=
  ∀ (s : State) (c : GCtx) (m : BitVec 1) (d : BitVec 7) (a : BitVec 8) (b : BitVec 7),
    let ty := (sortMode c).1
    let before := keyBefore ty (sortMode c).2
    let key (code l : Nat) : Word := if ty = 0 then srcF32 s c code l else srcLane s c code l
    let xs := laneIdx.map fun l => (l, key a.toNat l)
    let ys := laneIdx.map fun l => (64 + l, key (secondCode c b) l)
    let shown (x : Nat × Word) : Word := if m = 1 then BitVec.ofNat 32 x.1 else x.2
    (GangRuns s c (fun c => let w := v3Info c useEl d a none false; { w with legal := w.legal && (sortMode c).1 != 3 }) →
      (c.act ≠ allLanes → exec (.sort64 m d a) s = .next (trapAll s c (.sort64 m d a) .illegalConvergence c.act 0)) ∧
      (c.act = allLanes → ∃ out : List (Nat × Word), LaneOut (.sort64 m d a) s c d (fun l => laneOf (out.map shown) l) ∧ out.Perm xs ∧
        out.Pairwise fun x y => before y.2 x.2 = false ∧ (before x.2 y.2 = false → x.1 < y.1))) ∧
    (GangRuns s c (fun c =>
        let w := v3Info c useEl d a (some b) false
        { w with legal := w.legal && (sortMode c).1 != 3 && pairOk c.tm.vregs d.toNat, writes := [.v d.toNat, .v (d.toNat + 1)] }) →
      (c.act ≠ allLanes → exec (.merge m d a b) s = .next (trapAll s c (.merge m d a b) .illegalConvergence c.act 0)) ∧
      (c.act = allLanes → ∃ t gg out, exec (.merge m d a b) s = .next t ∧ GangBecomes s t c gg ∧
        out = mergeKeys before 128 xs ys ∧ out.Perm (xs ++ ys) ∧
        PairDone c gg d.toNat allLanes (laneOf ((out.take 64).map shown)) (laneOf ((out.drop 64).map shown))))

/-- Where the checks of the word pass and the list's operand, extent, header and entries in use pass the checks of their entry,
TOPK with an active lane offers each active lane's candidate in ascending order, writes the header and the entries that
change, and gives the K-th largest bound, or minus infinity while the list is not full, in each active and helper lane.
TOPK.FIN writes the entries in descending order where they change and no register. A list operand with a reserved bit or a
misaligned offset is ILLEGAL_OPERAND and a list past the allocation SCRATCH_BOUNDS. That the checks of the list are made where
a lane is active (log 55), and FLTADDR, the list's offset, and class LS of that trap (log 54), are the model's inferences.
SELTH gives each kept lane its rank among the kept lanes and 0xFFFFFFFF elsewhere, and .P also the predicate of the active
lanes. -/
def Obligations.SelectionLists : Prop :=
  ∀ (s : State) (c : GCtx) (d : BitVec 7) (a : BitVec 8) (b : BitVec 7) (loff k : Nat),
    let gl := gReg c.gg (a.toNat - 128)
    let header := natOf (scratchBytes c.tm loff 16)
    let count := header % 2 ^ 32
    let nseen : Word := BitVec.ofNat 32 (header / 2 ^ 32)
    let old := (List.range count).map (readTop c.tm loff)
    let listOk : Prop := listOperand gl = some (loff, k) ∧ loff + 16 + 16 * k ≤ scratchSize c.tm ∧ topCheck s c loff 16 true = none ∧
      count ≤ k ∧ header < 2 ^ 96 ∧ (count ≠ 0 → topCheck s c (loff + 16) (16 * count) true = none)
    let may (ws : List (Nat × List Byte)) : Prop := ∀ w ∈ ws, topCheck s c w.1 w.2.length false = none
    let stored (ws : List (Nat × List Byte)) : State := scratchStore s c.t (.gang c.g) (ws.flatMap fun w => writesAt w.1 w.2)
    let topInfo (c : GCtx) : WordInfo :=
      let w := v3Info c { useNone with sc := true } d a (some b) false
      marginInfo c { w with legal := w.legal && (gCode a.toNat).isSome && decide (b.toNat ≤ 121) }
    let finInfo (c : GCtx) : WordInfo :=
      { plainInfo with
        accepts := acceptsOper, legal := (gCode a.toNat).isSome && operLegal c useNone false, reads := srcRegs a.toNat }
    let kept (l : Nat) : Bool := inMask c.act l && fcmp 5 (boundUp (srcF32 s c a.toNat l) (marginOf s c l)) (srcF32 s c b.toNat l)
    let rank (l : Nat) : Word :=
      if kept l then BitVec.ofNat 32 ((List.range 64).filter fun j => decide (j < l) && kept j).length else 0xFFFFFFFF
    let selInfo (p : Bool) (c : GCtx) : WordInfo :=
      let w := v3Info c { useNone with sc := true, pc := p } d a (some b) false
      let pc := (operHint c.cl.hints).map (·.pc)
      let w := marginInfo c { w with legal := w.legal && b != 127 && (!p || pc.any fun p => decide (p < 24)) }
      { w with writes := w.writes ++ if p then pc.elim [] fun p => [.p p] else [] }
    (GangRuns s c topInfo → c.act ≠ 0 → (listOk →
      let new := (candidates s c b.toNat nseen).foldl (offer k) old
      let thr : Word := if new.length = k then (heapAt new 0).lo else 0xFF800000
      let ws := (loff, bytesOf 4 new.length ++ bytesOf 4 (nseen + 64).toNat ++ bytesOf 4 thr.toNat ++ bytesOf 4 0) ::
        changedTop loff old new
      may ws → exec (.topk d a b) s =
        .next (advance (writeResult (stored ws) c d.toNat (writeLanes c) (mkLanes fun _ => thr)) c)) ∧
      ((gl.toNat / 2 ^ 43 ≠ 0 ∨ gl.toNat % 128 ≠ 0) →
        exec (.topk d a b) s = .next (trapAll s c (.topk d a b) .illegalOperand c.act 0)) ∧
      (listOperand gl = some (loff, k) → scratchSize c.tm < loff + 16 + 16 * k →
        exec (.topk d a b) s = .next (trapAll s c (.topk d a b) .scratchBounds c.act (BitVec.ofNat 64 loff) (some .ls)))) ∧
    (GangRuns s c finInfo → c.act ≠ 0 → listOk → may (changedTop loff old (sortTop old)) →
      exec (.topkFin a) s = .next (advance (stored (changedTop loff old (sortTop old))) c)) ∧
    (GangRuns s c (selInfo false) → LaneOut (.selth 0 d a b) s c d rank) ∧
    (∀ o, operHint c.cl.hints = some o → GangRuns s c (selInfo true) → ∃ t gg, exec (.selth 1 d a b) s = .next t ∧
      GangBecomes s t c gg ∧
      (∀ l, l < 64 → inMask (pReg gg o.pc) l = if inMask c.act l = true then kept l else inMask (pReg c.gg o.pc) l) ∧
      (∀ n l, l < 64 → laneOf (vReg gg n) l =
        if n = d.toNat ∧ n ≤ 111 ∧ inMask (writeLanes c) l = true then rank l else laneOf (vReg c.gg n) l))

/-- Where the checks of the word pass, in and outside a speculation window, KADD, KSUB and KMUL compute modulo 2^64, KAND, KOR and
KXOR bitwise, KSHL and KSHR shift by the low six bits of the second operand, and KMOV copies it, into one k register. The
second operand is a k register, or the 10-bit immediate sign-extended, or the 34-bit one that an immediate-form IMMX
completes. No other register and nothing else of the module changes. With a register operand, high bits of its field that are
not zero are ILLEGAL_INSTRUCTION in each of them. A gang that issues one takes ILLEGAL_INSTRUCTION. -/
def Obligations.HawkArithmetic : Prop :=
  ∀ (s : State) (im : BitVec 1) (d a : BitVec 6) (b : BitVec 10),
    let info : HInfo := { plainHInfo with
      accepts := if im = 1 then acceptsImm else acceptsNone, reads := a.toNat :: (if im = 1 then [] else [b.toNat]), writes := [d.toNat] }
    let movInfo : HInfo := { info with reads := if im = 1 then [] else [b.toNat] }
    let y (k : HCtx) : DWord :=
      if im = 1 then (match immHint k.cl.hints with
        | some p => ((BitVec.ofNat 34 (p * 2 ^ 10 + b.toNat)).signExtend 64)
        | none => b.signExtend 64)
      else kReg k.hk b.toNat
    let wide : Prop := im = 0 ∧ 64 ≤ b.toNat
    let sh (k : HCtx) : Nat := (y k).toNat % 64
    (∀ k, ¬wide → HawkRuns s k (fun _ => info) →
      let x := kReg k.hk a.toNat
      KOut (.kadd im d a b) s k d.toNat (x + y k) ∧
      KOut (.ksub im d a b) s k d.toNat (x - y k) ∧
      KOut (.kmul im d a b) s k d.toNat (x * y k) ∧
      KOut (.kand im d a b) s k d.toNat (x &&& y k) ∧
      KOut (.kor im d a b) s k d.toNat (x ||| y k) ∧
      KOut (.kxor im d a b) s k d.toNat (x ^^^ y k) ∧
      KOut (.kshl im d a b) s k d.toNat (BitVec.ofNat 64 (x.toNat * 2 ^ sh k)) ∧
      KOut (.kshr im d a b) s k d.toNat (BitVec.ofNat 64 (x.toNat / 2 ^ sh k))) ∧
    (∀ k, ¬wide → HawkRuns s k (fun _ => movInfo) → KOut (.kmov im d b) s k d.toNat (y k)) ∧
    let words : List Instr := [.kadd im d a b, .ksub im d a b, .kmul im d a b, .kand im d a b, .kor im d a b, .kxor im d a b,
      .kshl im d a b, .kshr im d a b, .kmov im d b]
    ∀ i ∈ words,
      (∀ k, wide → hawkCtx s = some k → exec i s = .next (trapHawk s k i .illegalInstruction 0)) ∧
      (∀ c, gangCtx s = some c → exec i s = .next (trapAll s c i .illegalInstruction c.act 0))

/-- Where the checks of the word pass: KCMP of registers with their values at hand sets its condition bit, by equality, a signed
order or, for conditions 6 and 7, the unsigned less and greater-or-equal, and nothing else; with one or two sources that loads
still owe it makes the bit pending, and a register that held work will write it waits for. KBR on a condition at hand goes to
its target or the next header, KBR.ALWAYS to its target; on a pending condition it stalls in a window, and outside one opens a
window with the registers as its checkpoint and goes on in the predicted direction, taken where the counter of its address is
2 or 3. KCALL pushes the return address, with 16 pushed traps with STACK_OVERFLOW, and goes to its target, and KRET goes to
the last one, and with none traps. Each that goes on counts in an open window. KWAIT with its flags clear and no report goes
on and with a flag up waits. KSTOP stops the hawk, leaves handler mode and lets the team retire. -/
def Obligations.HawkBranchesAndWindows : Prop :=
  ∀ (s : State) (im n l : BitVec 1) (cd : BitVec 3) (cond : BitVec 3) (a : BitVec 6) (b : BitVec 10) (o : BitVec 17) (f : BitVec 12),
    let target (k : HCtx) : DWord := wordTarget k.hk.pc (branchOff k.cl.hints o)
    let goes (k : HCtx) (hk : Hawk) (pc : DWord) : State := modHawk s k.t fun _ => { hk with pc := pc, clause := none, st := .issuing }
    -- The same for a word that counts in an open window.
    let counts (k : HCtx) (hk : Hawk) (pc : DWord) : State :=
      goes k { hk with window := hk.window.map fun w => { w with count := w.count + 1 } } pc
    -- A register as a source of KCMP: its value, or the load that still owes it.
    let source (hk : Hawk) (r : Nat) : CmpSource → Prop
      | .value v => heldPending hk r = false ∧ (∀ p ∈ hk.kpend, p.1 ≠ r) ∧ v = kReg hk r
      | .load id => heldPending hk r = false ∧ ∃ p, hk.kpend.find? (fun q => q.1 == r) = some (p, id)
    let holds (x y : DWord) : Bool :=
      if cond = 0 then x == y else if cond = 1 then x != y else if cond = 2 then decide (x.toInt < y.toInt)
      else if cond = 3 then decide (x.toInt ≤ y.toInt) else if cond = 4 then decide (y.toInt < x.toInt)
      else if cond = 5 then decide (y.toInt ≤ x.toInt) else if cond = 6 then decide (x.toNat < y.toNat) else decide (y.toNat ≤ x.toNat)
    let branch : HInfo := { plainHInfo with accepts := acceptsImm, ends := true }
    (∀ k, HawkRuns s k (fun _ => { plainHInfo with accepts := if im = 1 then acceptsImm else acceptsNone, cwrites := [cd.toNat] }) →
      (im = 1 ∨ b.toNat < 64) →
      (∀ x y, source k.hk a.toNat x → (if im = 1 then y = .value (kImm k.cl.hints b) else source k.hk b.toNat y) →
        ∃ t hk, exec (.kcmp im cd cond a b) s = .next t ∧ HawkBecomes s t k hk ∧ HawkGoesOn k hk ∧
          (∀ u v, x = .value u → y = .value v →
            hk = { k.hk with c := hk.c, pc := hk.pc, st := hk.st, clause := hk.clause, window := hk.window } ∧
            ∀ j, j < 8 → hk.c.getLsbD j = if j = cd.toNat then holds u v else k.hk.c.getLsbD j) ∧
          ((∃ id, x = .load id ∨ y = .load id) →
            hk = { k.hk with
              pc := hk.pc, st := hk.st, clause := hk.clause, window := hk.window
              cpend := k.hk.cpend ++
                [{ inWindow := k.hk.window.map (·.count), cbit := cd.toNat, cond := cond, a := x, b := y }] })) ∧
      ((heldPending k.hk a.toNat = true ∨ (im = 0 ∧ heldPending k.hk b.toNat = true)) →
        exec (.kcmp im cd cond a b) s = .next (waitHawk s k.t .interlock))) ∧
    (∀ k, HawkRuns s k (fun _ => branch) →
      exec (.kbr 0 0 1 o) s = .next (counts k k.hk (target k)) ∧
      (cPending k.hk cd.toNat = false →
        exec (.kbr n cd 0 o) s =
          .next (counts k k.hk (if k.hk.c.getLsbD cd.toNat ≠ (n == 1) then target k else k.hk.pc + 4))) ∧
      (cPending k.hk cd.toNat = true → k.hk.window ≠ none → exec (.kbr n cd 0 o) s = .next (waitHawk s k.t .interlock)) ∧
      (cPending k.hk cd.toNat = true → k.hk.window = none →
        let taken : Bool := decide (2 ≤ (smGet 0 k.hk.predictor (k.hk.pc.toNat / 4 % 256)).toNat)
        let w : SpecWindow :=
          { pc := k.hk.pc, clause := k.cl, cbit := cd.toNat, neg := n == 1, target := target k, predicted := taken, k := k.hk.k
            c := k.hk.c, ret := k.hk.ret, firstOp := k.tm.nextOp, count := 0, held := [], fault := none, committing := false
            link := false }
        exec (.kbr n cd 0 o) s =
          .next (goes k { k.hk with window := some w } (if taken then target k else k.hk.pc + 4))) ∧
      (k.hk.ret.length < 16 →
        exec (.kcall o) s = .next (counts k { k.hk with ret := (k.hk.pc + 4) :: k.hk.ret } (target k))) ∧
      (16 ≤ k.hk.ret.length → exec (.kcall o) s = .next (trapHawk s k (.kcall o) .stackOverflow 0))) ∧
    (∀ k, HawkRuns s k (fun _ => { plainHInfo with ends := true }) →
      (∀ x rest, k.hk.ret = x :: rest → exec .kret s = .next (counts k { k.hk with ret := rest } x)) ∧
      (k.hk.ret = [] → exec .kret s = .next (trapHawk s k .kret .stackOverflow 0))) ∧
    (∀ k, HawkRunsPlain s k (fun _ => { plainHInfo with treat := .stall }) →
      (flagsClear k.hk.flags f = false → exec (.kwait f) s = .next (waitHawk s k.t (.kwait f))) ∧
      (flagsClear k.hk.flags f = true → reportIn k.hk.reports f = none → exec (.kwait f) s = .next (advanceHawk s k.t))) ∧
    (∀ k, HawkRunsPlain s k (fun _ => { plainHInfo with ends := true, treat := .stall }) →
      exec .kstop s = .next (honour (checkRetire (modHawk s k.t fun _ =>
        { k.hk with pc := k.hk.pc + 4, clause := none, st := .stopped, handler := none }) k.t) k.t))

/-- Where the checks of the word pass, DQPUSH to a gang that has not exited and whose queue holds fewer than 16 entries appends
the register's value there, marked speculative inside a window and after a release at team scope outside one, and the hawk
goes on. With .B it appends to every gang that has not exited, where each has room. To a full queue it waits, with .B for the
first full one, to a gang that has exited or does not exist it is QUEUE_MISUSE, held in an open window as its fault, and .B
with a gang number is ILLEGAL_INSTRUCTION. -/
def Obligations.DecisionQueuePushes : Prop :=
  ∀ (s : State) (k : HCtx) (a : BitVec 6) (n : BitVec 4),
    let e : DqEntry := { val := kReg k.hk a.toNat, spec := k.hk.window.isSome }
    let s0 : State := if k.hk.window.isSome then s else releaseBy s k.t .hawk 3
    let push (g : Nat) (s : State) : State := modGang s k.t g fun gg => { gg with dq := gg.dq ++ [e] }
    HawkRuns s k (fun _ => { plainHInfo with reads := [a.toNat] }) →
      (∀ gg, gangOf k.tm n.toNat = some gg → gangExited gg = false →
        (gg.dq.length < 16 → exec (.dqpush a 0 n) s = .next (hawkEnd k (push n.toNat s0))) ∧
        (16 ≤ gg.dq.length → exec (.dqpush a 0 n) s = .next (waitHawk s k.t (.dqpush n.toNat)))) ∧
      ((∀ gg, gangOf k.tm n.toNat = some gg → gangExited gg = true) →
        exec (.dqpush a 0 n) s = .next (trapHawk s k (.dqpush a 0 n) .queueMisuse 0)) ∧
      (let live := (List.range k.tm.gangCount).filter fun g => !((gangOf k.tm g).all gangExited)
       let full (g : Nat) : Bool := (gangOf k.tm g).any fun gg => decide (16 ≤ gg.dq.length)
       ((∀ g ∈ live, full g = false) →
        exec (.dqpush a 1 0) s = .next (hawkEnd k (live.foldl (fun s g => push g s) s0))) ∧
       (∀ g, live.find? full = some g → exec (.dqpush a 1 0) s = .next (waitHawk s k.t (.dqpush g)))) ∧
      (n ≠ 0 → exec (.dqpush a 1 n) s = .next (trapHawk s k (.dqpush a 1 n) .illegalInstruction 0))

/-- The byte that a held KST of a window leaves at place p + n, if it covers it (R31): in memory under the same virtual address,
or under another one of the same physical address. -/
def Sys2Proof.Machine.heldByte (phys : Nat → Option Nat) (p : KPlace) (n : Nat) (h : HeldWork) : Option Byte :=
  let same (a b : Nat) : Bool := a == b || ((phys a).isSome && phys a == phys b)
  match h.instr with
  | .kst d a o =>
    let bs := bytesOf 8 (smGet 0 h.k d.toNat).toNat
    match p, kPlace (kAddr h.k a o) with
    | .mem x, .mem y => ((List.range 8).find? fun m => same (x + n) (y + m)).bind fun m => bs[m]?
    | .scratch x, .scratch y => if y ≤ x + n then bs[x + n - y]? else none
    | _, _ => none
  | _ => none

/-- Where the checks of the word pass: KLD of eight bytes that may be read raises its flag, makes its register pending and keeps
the little-endian value for its completion. Inside a window that holds no atomic, each byte which held KSTs cover, in memory
under any name of the byte, is that of the youngest of them; behind a held engine command a read of scratchpad, and behind a
held range change a read of memory, waits for the window, which is the model's choice (log 42). Outside a window and without
an order, KST writes the eight bytes of its register where all its checks pass, in global memory that is not a peer's and in
the scratchpad, and the atomic forms replace the word with their operation's result: a load of the core then reads those bytes
in local memory. That accesses are performed at issue is the model's choice (log 9). A failing check traps with its cause at
the address. An address with bit 63 set names the scratchpad, and with a bit of 62 to 23 set it is ILLEGAL_OPERAND. -/
def Obligations.HawkLoadsAndStores : Prop :=
  ∀ (s : State) (k : HCtx) (f : BitVec 1) (d a : BitVec 6) (o : BitVec 10) (op : BitVec 5) (w : BitVec 1),
    let ea : DWord := kReg k.hk a.toNat + BitVec.ofInt 64 (8 * o.toInt)
    let ldInfo : HCtx → HInfo := fun k => { plainHInfo with
      accepts := acceptsK, fs := some f, legal := plainOrders k.cl.hints [0, 1, 3], reads := [a.toNat], writes := [d.toNat]
      treat := kldTreat k a o }
    let stInfo : HCtx → HInfo := fun k => { plainHInfo with
      accepts := acceptsK, legal := plainOrders k.cl.hints [0, 2, 3], reads := [a.toNat, d.toNat], treat := .hold false }
    let far (e : DWord) : Prop := e.getLsbD 63 = true ∧ e.toNat / 2 ^ 23 % 2 ^ 40 ≠ 0
    let near (e : DWord) (off : Nat) : Prop := e.getLsbD 63 = true ∧ e.toNat / 2 ^ 23 % 2 ^ 40 = 0 ∧ off = e.toNat % 2 ^ 23
    let pend (u : State) (bs : List Byte) : State :=
      let fl := hawkFlag k f
      addLoad (modHawk (raiseHawkFlag u k.t fl) k.t fun hk => { hk with kpend := hk.kpend ++ [(d.toNat, k.tm.nextOp)] }) k.t .hawk fl
        [.kpr d.toNat (BitVec.ofNat 64 (natOf bs))]
    let len := atomicLen w
    let x := (kReg k.hk d.toNat).toNat % 2 ^ (8 * len)
    let atInfo : HCtx → HInfo := fun k => { plainHInfo with
      accepts := acceptsK
      legal := atomicOpOk op (flag1 w) && useOk (atomicScope k.cl.hints) [2, 3] (if commutes op then [1, 2, 5] else [1, 5])
      reads := [a.toNat, d.toNat], treat := if (atomicScope k.cl.hints).use = 5 then .hold false else .stall }
    let local_ (ps : List Piece) : Prop := ∀ p ∈ ps, isPeer p = false
    let req (acc : Access) : Req := hawkReq s k acc
    -- The state after the lookaside has been used for an access (R122), and the one in which bytes have been read, with the bytes.
    let touched (va n : Nat) : State := touchSpan s k.tm.core (asidOf s k.tm) va n
    let opened (ps : List Piece) : State := openPieces (touched ea.toNat 8) ps
    let loaded (ps : List Piece) : State := allocPieces (consumeHawk (opened ps) k) k.tm.core (cacheHint k.cl.hints) ps
    let bytes (ps : List Piece) : List Byte := readPieces (opened ps) (some k.tm.core) (answered []) ps
    -- What a load of the core then reads of a piece that lies in one sector.
    let held (t : State) (pa : Nat) (bs : List Byte) : Prop :=
      pa % 32 + bs.length ≤ 32 → ∀ n < bs.length, some (lsByte t k.tm.core (pa + n)) = bs[n]?
    (∀ w, HawkRuns s k ldInfo → k.hk.window = some w → (∀ h ∈ w.held, ∀ d a o z, h.instr ≠ .kstAtomic d a o z) → kOrder k = 0 →
      let covered (p : KPlace) (u : State) (bs : List Byte) : Prop :=
        ∃ out : List Byte, out.length = bs.length ∧
          (∀ n < bs.length, out[n]? = (w.held.reverse.findSome? (heldByte (physAlias u (asidOf u k.tm)) p n)).or bs[n]?) ∧
          exec (.kld f d a o) s = .next (hawkEnd k (pend u out))
      (∀ off, near ea off → checkScratch s k.tm .hawk off 8 8 true = .ok → covered (.scratch off) s (scratchBytes k.tm off 8)) ∧
      (∀ ps, ea.getLsbD 63 = false → checkSpan s (req .read) ea.toNat 8 = .ok ps → local_ ps →
        covered (.mem ea.toNat) (loaded ps) (bytes ps))) ∧
    (HawkRunsPlain s k ldInfo →
      (far ea → exec (.kld f d a o) s = .next (trapHawk s k (.kld f d a o) .illegalOperand 0)) ∧
      (∀ off, near ea off → kOrder k = 0 →
        (checkScratch s k.tm .hawk off 8 8 true = .ok →
          exec (.kld f d a o) s = .next (advanceHawk (pend s (scratchBytes k.tm off 8)) k.t)) ∧
        (∀ cause, checkScratch s k.tm .hawk off 8 8 true = .bad cause →
          exec (.kld f d a o) s = .next (trapHawk s k (.kld f d a o) cause (BitVec.ofNat 64 off) (some .ls)))) ∧
      (ea.getLsbD 63 = false → kOrder k = 0 →
        (∀ ps, checkSpan s (req .read) ea.toNat 8 = .ok ps → local_ ps →
          exec (.kld f d a o) s = .next (advanceHawk (pend (loaded ps) (bytes ps)) k.t)) ∧
        (∀ cause y, checkSpan s (req .read) ea.toNat 8 = .bad cause y →
          let u := touched ea.toNat 8
          exec (.kld f d a o) s =
            .next (trapHawk u k (.kld f d a o) cause (BitVec.ofNat 64 ea.toNat) (some (classAt u (asidOf s k.tm) ea.toNat)))))) ∧
    (HawkRunsPlain s k stInfo →
      (far ea → exec (.kst d a o) s = .next (trapHawk s k (.kst d a o) .illegalOperand 0)) ∧
      (∀ off, near ea off → kOrder k = 0 → checkScratch s k.tm .hawk off 8 8 false = .ok →
        exec (.kst d a o) s =
          .next (advanceHawk (scratchStore s k.t .hawk (writesAt off (bytesOf 8 (kReg k.hk d.toNat).toNat))) k.t)) ∧
      (∀ ps, ea.getLsbD 63 = false → kOrder k = 0 → checkSpan s (req .write) ea.toNat 8 = .ok ps → local_ ps →
        ∃ t, exec (.kst d a o) s = .next t ∧
          let u := lsWrite (opened ps) k.tm.core (storeInstall (cacheHint k.cl.hints) ps)
            (memWrites ps (bytesOf 8 (kReg k.hk d.toNat).toNat))
          t.mem = u.mem ∧ t.l1 = u.l1 ∧ t.l2 = u.l2 ∧ t.poison = u.poison ∧
          ∀ p pa b, ps = [p] → p.len = 8 → p.place = .mem pa b → held t pa (bytesOf 8 (kReg k.hk d.toNat).toNat))) ∧
    (HawkRunsPlain s k atInfo → releases (atomicScope k.cl.hints).order = false →
      (∀ off, near (kReg k.hk a.toNat) off → (atomicScope k.cl.hints).scope ≤ 3 →
        checkScratch s k.tm .hawk off len len true = .ok →
        exec (.kstAtomic d a op w) s = .next (advanceHawk (scratchStore s k.t .hawk (writesAt off (bytesOf len
          (atomicValue op.toNat (8 * len) (natOf (scratchBytes k.tm off len)) x)))) k.t)) ∧
      (∀ p pa b, (kReg k.hk a.toNat).getLsbD 63 = false → (kReg k.hk a.toNat).toNat % len = 0 →
        checkSpan s (req .atomic) (kReg k.hk a.toNat).toNat len = .ok [p] → p.place = .mem pa b →
        let v := touched (kReg k.hk a.toNat).toNat len
        let u := openPieces (if (atomicScope k.cl.hints).use = 2 then v else escape v k.t) [p]
        let y := placedAtomic u k.tm.core (cacheHint k.cl.hints) len pa [p] fun old => atomicValue op.toNat (8 * len) old x
        exec (.kstAtomic d a op w) s = .next (advanceHawk y.1 k.t) ∧
          held (advanceHawk y.1 k.t) pa (bytesOf len (atomicValue op.toNat (8 * len) y.2 x))) ∧
      ((kReg k.hk a.toNat).getLsbD 63 = false → (kReg k.hk a.toNat).toNat % len ≠ 0 →
        exec (.kstAtomic d a op w) s = .next (trapHawk s k (.kstAtomic d a op w) .misaligned
          (BitVec.ofNat 64 (kReg k.hk a.toNat).toNat) (some (classAt s (asidOf s k.tm) (kReg k.hk a.toNat).toNat)))))

/-- Where the checks of the word pass outside a window, with an aligned record address and a queue up to 511 and the record read,
LAUNCH releases at module scope. With a record that passes the checks of a submission and, in a launch that is no system
launch, its restrictions, it puts the launch at the end of its queue under the next identifier, writes that identifier and
marks an escaped effect. With another record it writes the code of the first failing check in bits 32 and up, 10 for a
restriction, and nothing else. An operand that is not such is ILLEGAL_OPERAND. In an open window with room, LAUNCH, KST, its
atomics with the speculative use, COPY, MCAST, GATHER, SCATTER, RGSPLIT, SEAL, UNSEAL, CSWR and SNAP are held with the
registers as they stand, perform nothing, and the hawk goes on; KSTOP, ERET, TRAP, KWAIT, an atomic of another use and a
command beyond the sixteenth held one stall the hawk. -/
def Obligations.LaunchAndHeldWork : Prop :=
  ∀ (s : State) (k : HCtx) (d a : BitVec 6) (o : BitVec 10) (n : BitVec 12) (f sc : BitVec 1) (op : BitVec 5) (code : BitVec 16),
    let info : HCtx → HInfo := fun k => { plainHInfo with
      legal := a.toNat % 2 == 0, reads := [a.toNat, a.toNat + 1], writes := [d.toNat]
      treat := if launchOk a k.hk.k then .hold true else .run }
    let va := (kReg k.hk a.toNat).toNat
    let q := (kReg k.hk (a.toNat + 1)).toNat
    let ok : Prop := va % 128 = 0 ∧ q ≤ 511
    (HawkRunsPlain s k info →
      (¬ok → exec (.launch d a) s = .next (trapHawk s k (.launch d a) .illegalOperand 0)) ∧
      (ok → ∀ s' bs, streamRead (releaseBy s k.t .hawk 6) (hawkIssuer k 0) va 128 = .ok s' bs →
        let u := consumePeers s' k.tm.lid k.tm.tid .hawk (· == (hawkIssuer k 0).lane)
        let barred : Bool := launchRestricted u k.tm (readRecord bs)
        (checkRecord u q bs = 0 → barred = false → exec (.launch d a) s = .next (advanceHawk
          (writeK (escape (acceptLaunch u q bs) k.t) k.t d.toNat (BitVec.ofNat 64 u.nextLid)) k.t)) ∧
        (checkRecord u q bs = 0 → barred = true → exec (.launch d a) s =
          .next (advanceHawk (writeK u k.t d.toNat (BitVec.ofNat 64 (10 * 2 ^ 32))) k.t)) ∧
        (checkRecord u q bs ≠ 0 → exec (.launch d a) s =
          .next (advanceHawk (writeK u k.t d.toNat (BitVec.ofNat 64 (checkRecord u q bs * 2 ^ 32))) k.t)))) ∧
    (∀ w, k.hk.window = some w → hawkCtx s = some k →
      let room : Bool := w.fault.isNone && !w.committing && decide (w.count < 64)
      let few : Bool := decide ((w.held.filter fun h => isCommand h.instr).length < 16)
      let open_ (i : HCtx → HInfo) : Prop := hawkReady { i k with treat := .run } k = true
      let holds (i : Instr) (inf : HCtx → HInfo) (command : Bool) : Prop := open_ inf → room = true → (command = true → few = true) →
        exec i s = .next (holdWord i s k w)
      (launchOk a k.hk.k = true → holds (.launch d a) info true) ∧
      holds (.kst d a o) (fun k => { plainHInfo with
        accepts := acceptsK, legal := plainOrders k.cl.hints [0, 2, 3], reads := [a.toNat, d.toNat] }) false ∧
      holds (.copy f sc a) (fun _ => hawkInfo (commandInfo f acceptsCache true [a.toNat])) true ∧
      holds (.cswr a n) (fun _ => { plainHInfo with reads := [a.toNat] }) true ∧
      holds .snap (fun _ => plainHInfo) true ∧
      holds (.gather f a) (fun _ => hawkInfo (commandInfo f acceptsCache true [a.toNat])) true ∧
      holds (.scatter f a) (fun _ => hawkInfo (commandInfo f acceptsCache true [a.toNat])) true ∧
      holds (.mcast f sc a) (fun _ => hawkInfo (commandInfo f acceptsCache true [a.toNat])) true ∧
      holds (.rgsplit a) (fun _ => hawkInfo (quickInfo true [a.toNat] [] (.hold true))) true ∧
      holds (.seal a) (fun _ => hawkInfo (quickInfo true [a.toNat] [] (.hold true))) true ∧
      holds (.unseal a) (fun _ => hawkInfo (quickInfo true [a.toNat] [] (.hold true))) true ∧
      -- What may not be held, and the command beyond the sixteenth, stalls.
      let stalls (i : Instr) (inf : HCtx → HInfo) : Prop := open_ inf → exec i s = .next (waitHawk s k.t .interlock)
      let atomic : HCtx → HInfo := fun k => { plainHInfo with
        accepts := acceptsK, reads := [a.toNat, d.toNat]
        legal := atomicOpOk op (flag1 f) && useOk (atomicScope k.cl.hints) [2, 3] (if commutes op then [1, 2, 5] else [1, 5]) }
      stalls .kstop (fun _ => { plainHInfo with ends := true }) ∧
      stalls .eret (fun _ => { plainHInfo with ends := true }) ∧
      stalls (.trap code) (fun _ => { plainHInfo with ends := true }) ∧
      stalls (.kwait n) (fun _ => plainHInfo) ∧
      ((atomicScope k.cl.hints).use ≠ 5 → stalls (.kstAtomic d a op f) atomic) ∧
      ((atomicScope k.cl.hints).use = 5 → holds (.kstAtomic d a op f) atomic false) ∧
      (few = false → stalls (.copy f sc a) (fun _ => hawkInfo (commandInfo f acceptsCache true [a.toNat])) ∧
        stalls (.cswr a n) (fun _ => { plainHInfo with reads := [a.toNat] }) ∧ stalls .snap (fun _ => plainHInfo)))

/-- Where the checks of the word pass, RGSPLIT to RGMIGR.MOVE, SEAL and UNSEAL in either stream take the range unit's answer: with
a change, made by SEAL after a module-scope release, the table stands changed, an operation of the range unit is added under
the next number, the stream waits for it and the team has an escaped effect. With nothing to change the stream goes on, SEAL's
release made. Beside a move or a widening of the same range it waits in the unit with its operands, and a failed check traps
with its cause and address and no other effect, but for MEMORY_MODEL, which SEAL meets after its release. A misaligned operand
is ILLEGAL_OPERAND, an address that no range holds NO_RANGE, and a range that the launch may not change RANGE_PERMISSION. That
FLTADDR of the last two is the operand, that the unit queues what must wait, and that the table changes at issue are the
model's inferences (log 48), and that SEAL makes the checks of R124 before its release is as log 70 says. RGSPLIT inside a
range with room in the table leaves two ranges that meet at the operand. RGPROBE writes two words of the range's entry to a
register pair, and the sums that wait for the words it read are then applied. -/
def Obligations.RangeInstructions : Prop :=
  ∀ (s : State) (d a b : BitVec 6) (w : BitVec 3),
    let other (i : Instr) : BitVec 6 :=
      match i with
      | .rgtrim _ b | .rggrow _ b | .rgmigrIn _ b | .rgmigrOut _ b | .rgmigrMove _ b => b
      | _ => a
    let words (i : Instr) (reads : List Nat) (pre : Issuer → State) (f : State → Issuer → RangeRes) : Prop :=
      let info := quickInfo true reads [] (.hold true)
      let entered (u : State) (x : Issuer) (kind : RangeKind) : State := { u with
        nextRange := u.nextRange + 1
        rangeOps := u.rangeOps ++ [{ id := u.nextRange, asid := asidOf u x.tm, holder := some (x.tm.lid, x.tm.tid, x.who)
                                     kind := kind, trowel := none }] }
      (∀ u kind, OnceWaitsIn i s info (.rangeOp u.nextRange)
        (fun x => (∃ v k, f s x = .changed v k) ∧ f (pre x) x = .changed u kind) (fun x => escape (entered u x kind) x.t)) ∧
      OnceOut i s info 0 (fun x => f s x = .none) (fun x => escape (pre x) x.t) ∧
      (∀ bases, OnceWaitsIn i s info (.rangeOp s.nextRange) (fun x => f s x = .busy bases) (fun x =>
        entered s x (.queued i (x.reg a.toNat).toNat (x.reg (other i).toNat).toNat bases none))) ∧
      (∀ cause y, OnceTrapsIn i s info 0 cause y none (fun x => f s x = .trap cause y)
        (fun x => if cause = .memoryModel then pre x else s))
    let one (g : State → Team → Nat → RangeRes) (s : State) (x : Issuer) : RangeRes := g s x.tm (x.reg a.toNat).toNat
    let two (g : State → Team → Nat → Nat → RangeRes) (s : State) (x : Issuer) : RangeRes :=
      g s x.tm (x.reg a.toNat).toNat (x.reg b.toNat).toNat
    words (.rgsplit a) [a.toNat] (fun _ => s) (one rangeSplit) ∧
    words (.rgmerge a) [a.toNat] (fun _ => s) (one rangeMerge) ∧
    words (.rgtrim a b) [a.toNat, b.toNat] (fun _ => s) (two rangeTrim) ∧
    words (.rggrow a b) [a.toNat, b.toNat] (fun _ => s) (two rangeGrow) ∧
    words (.rginv a) [a.toNat] (fun _ => s) (one fun s tm => rangeInv s tm false) ∧
    words (.rginvDiscard a) [a.toNat] (fun _ => s) (one fun s tm => rangeInv s tm true) ∧
    words (.rgmigrIn a b) [a.toNat, b.toNat] (fun _ => s) (two rangeIn) ∧
    words (.rgmigrOut a b) [a.toNat, b.toNat] (fun _ => s) (two rangeOut) ∧
    words (.rgmigrMove a b) [a.toNat, b.toNat] (fun _ => s) (two rangeMove) ∧
    words (.unseal a) [a.toNat] (fun _ => s) (one rangeUnseal) ∧
    words (.seal a) [a.toNat] (fun x => releaseBy s x.t x.who 6) (fun s x => rangeSeal s x.tm x.who (x.reg a.toNat).toNat) ∧
    (∀ tm ga, (ga % 128 ≠ 0 → rangeSplit s tm ga = .trap .illegalOperand 0) ∧
      (ga % 128 = 0 → ga < 2 ^ 56 → findRange s (asidOf s tm) ga = none → rangeSplit s tm ga = .trap .noRange ga) ∧
      (∀ n e, ga % 128 = 0 → ga < 2 ^ 56 → findRange s (asidOf s tm) ga = some (n, e) → e.st ≠ rsMigrating →
        rangeBusy s (asidOf s tm) e.base = false →
        (sysMode s tm = false → e.self = false → rangeSplit s tm ga = .trap .rangePermission ga) ∧
        ((sysMode s tm = true ∨ e.self = true) → ga ≠ e.base → (asidDesc s (asidOf s tm)).count ≠ (asidDesc s (asidOf s tm)).tsize →
          rangeSplit s tm ga = .changed (spliceEntries s (asidOf s tm) n 1
            [{ e with limit := ga, glim := ga },
             { e with base := ga, pbase := e.pbase + (ga - e.base), cbase := (e.cbase + (ga - e.base)) % 2 ^ 52 }])
            (.change 0 e.base e.limit))) ∧
      (∀ n e, ga % 128 = 0 → ga < 2 ^ 56 → findRange s (asidOf s tm) ga = some (n, e) →
        (e.st = rsMigrating ∨ rangeBusy s (asidOf s tm) e.base = true) → rangeSplit s tm ga = .busy [e.base])) ∧
    OnceOut (.rgprobe d a w) s (quickInfo (d.toNat % 2 == 0 && w.toNat % 2 == 0) [a.toNat] [d.toNat, d.toNat + 1] (.hold true)) 0
      (fun _ => True) (fun x =>
        let va := (x.reg a.toNat).toNat
        let u := walkLines s (asidOf s x.tm) va
        let v := match findRange s (asidOf s x.tm) va with
          | some (n, _) => let lo := (asidDesc s (asidOf s x.tm)).tbase + 64 * n + 8 * w.toNat; flushQuanta u lo (lo + 16)
          | none => u
        putReg x (d.toNat + 1) (probeWord s x.tm va (w.toNat + 1)) (putReg x d.toNat (probeWord s x.tm va w.toNat) v))

/-- RESET leaves every field as State.reset has it but the core map of the repair data, the spares that stand in by them, the
outcome of the boot chain and its measurements, and the model's own fields, and reports a failure of the chain. A cluster's
spare is spent where the repair data put it in a slot or leave a slot without a core. That the chain has three images, and
that stage n is measured in register n, is the model's choice (log 20), and so are the repair data as operands (log 4) and
what RESET keeps (logs 1, 7, 12, 23). BOOTDONE is set by a write of 1 where the chain was verified and by nothing else.
THROTTLING only sets whether issue slots are withheld. A management request for a snapshot fires the plumb line, and is
dropped and counted while a drain is in progress. The end of a drain writes the image with zeros after it and frees the plumb
line (log 11). -/
def Obligations.ResetAndBootEvents : Prop :=
  ∀ (s : State) (cores : BitVec 192) (spares : BitVec 24) (images : List BootImage) (v : BitVec 64) (on : Bool),
    (∃ t, exec (.reset { cores := cores, spares := spares } images) s = .next t ∧
      let ok := acceptedImages images
      t = { State.reset with
        coreMap := cores, sparesUsed := t.sparesUsed, chainok := decide (ok.length = 3), measure := measures ok, agenda := s.agenda
        freeCtr := s.freeCtr, signatures := s.signatures, outputs := t.outputs } ∧
      (∀ cl, cl < 24 → (t.sparesUsed.getLsbD cl = true ↔ spares.getLsbD cl = true ∨ ∃ n < 8, cores.getLsbD (8 * cl + n) = false)) ∧
      (ok.length = 3 → t.outputs = s.outputs) ∧ (ok.length ≠ 3 → t.outputs = s.outputs ++ [.bootFailure]) ∧
      (∀ n x, n < 8 → listAt ok n = some x → listAt t.measure n = some (foldMeasure 0 x))) ∧
    exec (.bootdone v) s =
      .next (if v.getLsbD 0 = true ∧ s.chainok = true then { s with bootdone := true } else s) ∧
    exec (.throttling on) s = .next { s with throttled := on } ∧
    (s.busy = false → exec .managementSnapshotRequest s = .next { s with
      busy := true, seq := s.seq + 1
      latched := some { seq := s.seq + 1, src := 2, cause := 0, lid := 0, tid := 0, buf := s.snapbuf, taken := none } }) ∧
    (s.busy = true → exec .managementSnapshotRequest s =
      .next { s with drop := if s.drop = BitVec.allOnes 16 then s.drop else s.drop + 1 }) ∧
    ((s.latched = none ∨ (∃ x, s.latched = some x ∧ x.taken = none)) → exec .snapshotDrainEnd s = .next s) ∧
    (∀ x cycle secs om, s.latched = some x → x.taken = some (cycle, secs, om) → ∃ t, exec .snapshotDrainEnd s = .next t ∧
      t.busy = false ∧ t.latched = none ∧ t.teams = s.teams ∧ t.seq = s.seq ∧
      (inFast x.buf (x.buf + Config.snapSize) = true →
        t = { unitStore s x.buf (snapImage x cycle om secs ++
            List.replicate (Config.snapSize - (snapImage x cycle om secs).length) 0) with busy := false, latched := none }))

/-- A pre-emption request that reaches a team (R213, R214, R216). It is dropped for class 2 and in a state that takes none. It
stays pending, merged with one that is there, before the team runs, while no context slot is free, or until the step boundary
that class 1 waits for. Else the team goes to SWAPOUT with a context slot. -/
def Sys2Proof.Machine.RequestMade (s u : State) (t : Nat) (tm : Team) (force : Bool) : Prop :=
  let asked : Bool := force || tm.preempt.getD false
  let pending := modTeam s t fun tm => { tm with preempt := some asked }
  let now : Bool := asked || preemptClass s tm == 0
  let boundary : Bool := atBoundary { tm with preempt := some asked } && opsDrained tm
  ((preemptClass s tm = 2 ∨ (tm.st ≠ .running ∧ tm.st ≠ .preload ∧ tm.st ≠ .swapin)) → u = s) ∧
  (preemptClass s tm ≠ 2 → (tm.st = .preload ∨ tm.st = .swapin) → u = pending) ∧
  (preemptClass s tm ≠ 2 → tm.st = .running →
    (freeContext s tm.lid = none → u = pending) ∧
    (now = false → boundary = false → u = pending) ∧
    (∀ slot, freeContext s tm.lid = some slot → tm.hawk.window = none → (now || boundary) = true →
      u = modTeam s t fun tm => { tm with
        st := .swapout, swapKind := if now = true then .preempt else .step, ctxSlot := some slot, preempt := none, timer := 0 }))

/-- A write to a core's SWAPWAIT waits for the next cycle, where the core is present. A write to an ASID descriptor sets its first
word, or its counts where they are in range, and while a launch of the ASID is live only RSV, by a write with EN set; where EN
rises DISCARDCNT becomes zero. A write to RXN empties the ring, and one to RXHEAD moves the head where it lies between head
and tail. Each register without an event of its own takes its bits: the plumb line's, the buffer's, those of PCIe windows,
ports, filters, peer windows and trap vectors; a read-only register takes nothing. SUBMIT before BOOTDONE is rejected with 9,
and of a record in populated memory is accepted under the next identifier or rejected with the code of the first failing
check; elsewhere no memory is there (log 71). A write to the pre-emption port that names one team requests its pre-emption,
with FORCE from bit 56: the request is dropped, stays pending, or takes the team to SWAPOUT, as its class and state say.
TRSUBMIT queues an aligned command of the fast tier where fewer than 64 stand, or is refused. -/
def Obligations.ControlRegisterEvents : Prop :=
  ∀ (s : State) (q : BitVec 9) (v : BitVec 64) (core : Nat) (asid : BitVec 13) (port : BitVec 4) (off : BitVec 38),
    let out (i : Instr) (t : State) : Prop := exec i s = .next t
    let rej (n : Nat) (t : State) : State := { t with portRej := smSet 0 t.portRej q.toNat (BitVec.ofNat 8 n) }
    let pa := v.toNat % 2 ^ 52
    let d := asidDesc s asid.toNat
    let put (d : AsidDesc) : State := { s with asids := smSet noAsid s.asids asid.toNat d }
    let live : Prop := ∃ l ∈ s.launches, l.record.asid = asid.toNat
    let count := v.toNat % 2 ^ 17
    let tsize := v.toNat / 2 ^ 17 % 2 ^ 17
    out (.swapwait core v) (if core < 192 ∧ corePresent s core = true then
      { s with swapwaitNew := s.swapwaitNew ++ [(core, v.setWidth 32)] } else s) ∧
    (¬live → let u := put { d with en := v.getLsbD 0, rsv := v.getLsbD 1, tbase := v.toNat / 2 ^ 7 % 2 ^ 45 * 128 }
      out (.asidDescriptorWrite asid 0 v)
        (if v.getLsbD 0 = true ∧ d.en = false then { u with discardCnt := smSet 0 s.discardCnt asid.toNat 0 } else u)) ∧
    (live → out (.asidDescriptorWrite asid 0 v) (if v.getLsbD 0 = true then put { d with rsv := v.getLsbD 1 } else s) ∧
      out (.asidDescriptorWrite asid 1 v) s) ∧
    (¬live → out (.asidDescriptorWrite asid 1 v)
      (if count ≤ tsize ∧ tsize ≤ 65536 then put { d with count := count, tsize := tsize } else s)) ∧
    (s.bootdone = false → out (.submit q v) (rej 9 s)) ∧
    (s.bootdone = true → populated pa 128 = true →
      let u := flushQuanta s pa (pa + 128)
      let bs := physBytes u pa 128
      (checkRecord u q.toNat bs ≠ 0 → out (.submit q v) (rej (checkRecord u q.toNat bs) u)) ∧
      (checkRecord u q.toNat bs = 0 → out (.submit q v)
        (rej 0 { acceptLaunch u q.toNat bs with portLid := smSet 0 u.portLid q.toNat (BitVec.ofNat 32 u.nextLid) }))) ∧
    (s.bootdone = true → populated pa 128 = false → exec (.submit q v) s = .fault (.unpopulated pa)) ∧
    (∃ t, exec (.preEmptionPort v) s = .next t ∧
      let hit := s.teams.filter fun tm =>
        tm.lid == v.toNat % 2 ^ 32 && (v.toNat / 2 ^ 32 % 2 ^ 24 == 0xFFFFFF || tm.tid == v.toNat / 2 ^ 32 % 2 ^ 24)
      (hit = [] → t = s) ∧
      (∀ tm n, hit = [tm] → teamIdx s tm.lid tm.tid = some n → RequestMade s t n tm (v.getLsbD 56))) ∧
    ((pa % 32 ≠ 0 ∨ inFast pa (pa + 32) = false ∨ 64 ≤ s.trowel.length) → out (.trsubmit v) { s with trref := true }) ∧
    (pa % 32 = 0 → inFast pa (pa + 32) = true → s.trowel.length < 64 →
      let u := flushQuanta s pa (pa + 32)
      let w (k : Nat) : DWord := BitVec.ofNat 64 (homeWord u (pa + 8 * k))
      out (.trsubmit v) { u with
        trref := false, trowel := u.trowel ++ [{ addr := pa, w0 := w 0, w1 := w 1, w2 := w 2, w3 := w 3 &&& 0xFFFFFFFF }] }) ∧
    (let u := putWord s (portOf s port.toNat).rxtaddr 0
     out (.rxn port v) (modPort u port.toNat fun p => { p with rxn := v.toNat % 2 ^ 20, rxhead := 0 })) ∧
    (let p := portOf s port.toNat
     let u := flushQuanta s p.rxtaddr (p.rxtaddr + 8)
     out (.rxhead port v) (if p.rxhead.toNat ≤ v.toNat ∧ v.toNat ≤ ringTail u p then
       modPort u port.toNat fun p => { p with rxhead := v } else u)) ∧
    -- The registers without an event of their own.
    (let sets (at' : Nat) (t : State) : Prop := off.toNat = at' → out (.registerWrite off v) t
     (off.toNat % 8 ≠ 0 → out (.registerWrite off v) s) ∧
     sets 0x4000 { s with isnap := v.getLsbD 0, ievt := v.getLsbD 1, evmask := (v >>> 2).setWidth 18 } ∧
     sets 0x4008 { s with snapbuf := pa } ∧
     (off.toNat < 0x8000 → off.toNat ≠ 0x4000 → off.toNat ≠ 0x4008 → out (.registerWrite off v) s) ∧
     (∀ rp k, rp < 2 → k < 256 →
       let at' := 0x80000 + 0x10000 * rp + 32 * k
       let x := smGet noPcie s.pcie (256 * rp + k)
       let put (x : PcieWindow) : State := { s with pcie := smSet noPcie s.pcie (256 * rp + k) x }
       sets at' (put { x with en := v.getLsbD 0, r := v.getLsbD 1, w := v.getLsbD 2, bus := v.toNat / 4096 * 4096 }) ∧
       sets (at' + 8) (put { x with lim := v.toNat / 4096 * 4096 }) ∧
       sets (at' + 16) (put { x with phys := pa / 4096 * 4096 })) ∧
     (let at' := 0x100000 + 0x1000 * port.toNat
      let port' (f : Port → Port) : State := modPort s port.toNat f
      let filter' (e : Nat) (f : FilterEntry → FilterEntry) : State :=
        port' fun p => { p with filter := smSet noFilter p.filter e (f (smGet noFilter p.filter e)) }
      sets at' s ∧ sets (at' + 8) s ∧ sets (at' + 0x10) s ∧
      sets (at' + 0x20) (port' fun p => { p with rxbase := pa }) ∧ sets (at' + 0x30) (port' fun p => { p with rxtaddr := pa }) ∧
      (∀ e < 16,
        sets (at' + 0x100 + 32 * e) (filter' e fun x =>
          { x with src := v.setWidth 16, r := v.getLsbD 16, w := v.getLsbD 17, en := v.getLsbD 18 }) ∧
        sets (at' + 0x108 + 32 * e) (filter' e fun x => { x with base := pa }) ∧
        sets (at' + 0x110 + 32 * e) (filter' e fun x => { x with lim := pa }))) ∧
     (∀ k < 64,
       let x := peerWindow s k
       let put (x : PeerWindow) : State := { s with windows := smSet noWindow s.windows k x }
       sets (0x200000 + 16 * k) (put { x with
         wen := v.getLsbD 0, msg := v.getLsbD 1, pmod := (v >>> 2).setWidth 16, ports := (v >>> 18).setWidth 16 }) ∧
       sets (0x200008 + 16 * k) (put { x with ppbase := pa })) ∧
     (let x := smGet (0, 0) s.vectors asid.toNat
      let put (x : DWord × DWord) : State := { s with vectors := smSet (0, 0) s.vectors asid.toNat x }
      sets (0x2000000 + 16 * asid.toNat) (put (v &&& 0xFFFFFFFFFFFFFF, x.2)) ∧
      sets (0x2000008 + 16 * asid.toNat) (put (x.1, v &&& 0xFFFFFFFFFFFFFF))))

/-- Where its condition holds each event changes the fields that its rule names, and where it does not the state is unchanged. A
placement gives the highest-ranked work its cores: a saved team enters SWAPIN, a killed one or a child PRELOAD, on the lowest
free slots, and a launch gains its next cluster of fresh teams. The end of a team's declared inputs starts it, with their
report in gang 0. A save, with no load, skim operation or range operation outstanding, releases the team, writes its context's
image to its slot (its layout, and its free bytes, are the model's: log 10) and leaves it SWAPPED without slots and, but after
a step boundary, with its registers, tiles and scratchpad. A reload lets it run and frees the context slot. A retired team is
gone, and its parent's join counter lower. A launch without a team left completes: the completion word is written, its status
is held and passed to the launches linked to it, and it leaves its queue. The timer, where the waiting work fits the slots,
takes a team to SWAPOUT. The starvation guard forces the oldest gang. A pool entry lets a fragment issue, and so does the end
of a satisfied wait (log 72). -/
def Obligations.TeamLifeEvents : Prop :=
  ∀ (s : State) (lid tid core slot cl first : Nat) (who : StreamName),
    let out (i : Instr) (t : State) : Prop := exec i s = .next t
    -- A team on the lowest free slots of a core.
    let seated (st : TeamState) (core : Nat) (tm : Team) : Team :=
      let here := s.teams.filter fun x => resident x && x.core == core
      { tm with
        st := st, core := core, slot := ((lowestFree 4 1 (here.map (·.slot))).head?).getD 0
        slots := lowestFree 16 tm.gangCount (here.flatMap (·.slots)), cluster := some (core / 8), placed := s.stamp, timer := 0 }
    (∀ r n cores, topWork s = some r → workNeed s r.work = some n → cl < 24 → placeOn s (fun _ => false) n cl first = some cores →
      out (.schedulerPlacement cl first) (placeWork s r.work cores) ∧
      (∀ i t c, r.work = .resume lid i → teamIdx s lid i = some t → cores.head? = some c → out (.schedulerPlacement cl first)
        { modTeam s t (fun tm => { seated .swapin c tm with entered := s.stamp }) with stamp := s.stamp + 1 }) ∧
      (∀ i t c tm, (r.work = .relaunch lid i ∨ r.work = .child lid i) → teamIdx s lid i = some t → listAt s.teams t = some tm →
        cores.head? = some c → (tm.parent.isSome = true ∨ launchField s tm 0 (·.ninput) = 0) → out (.schedulerPlacement cl first)
          { modTeam s t (fun tm => { seated .preload c tm with inputsLeft := 0 }) with stamp := s.stamp + 1 }) ∧
      (∀ l, r.work = .fresh lid → launchOf s lid = some l → l.cancelled = false → l.record.ninput = 0 →
        (l.nextTid ≠ 0 ∨ l.record.pclass ≠ 1) → ∃ u, out (.schedulerPlacement cl first) u ∧
          u.teams.length = s.teams.length + l.record.cpt ∧ u.teams.take s.teams.length = s.teams ∧
          launchOf u lid = some { l with
            nextTid := l.nextTid + l.record.cpt
            vector := if l.nextTid = 0 then some (smGet (0, 0) s.vectors l.record.asid) else l.vector } ∧
          ∀ k < l.record.cpt, ∃ tm, listAt u.teams (s.teams.length + k) = some tm ∧ tm.lid = lid ∧ tm.tid = l.nextTid + k ∧
            tm.st = .preload ∧ listAt cores k = some tm.core ∧ tm.inputsLeft = 0 ∧
            tm.gangs = List.replicate l.record.gangs (freshGang l.record.gentry l.record.param) ∧
            tm.hawk = freshHawk l.record.hentry l.record.param)) ∧
    (topWork s = none → out (.schedulerPlacement cl first) s) ∧
    (∀ t, (launchOf s lid).any stepUnread = false → teamIdx s lid tid = some t →
      let u := issueInputs t 255 s
      ∀ tm, listAt u.teams t = some tm →
        let ops := tm.eops.filter isInput
        let done : Prop := tm.st = .preload ∧ (launchOf u lid).any stepUnread = false ∧ tm.inputsLeft = 0 ∧
          ∀ op ∈ ops, allLanded op = true ∧ writesAnswered u tm op.id = true
        let runs (v : State) (rep : Option Report) : State := { modTeam v t (fun tm => { tm with
            st := .running, eops := [], entered := u.stamp
            gangs := listModify (fun gg => { gg with inputReport := rep }) (tm.gangs.map fun gg => { gg with lastIssue := u.cycle }) 0 })
          with stamp := u.stamp + 1 }
        (done → out (.declaredInputsDone lid tid) (finishInputs u t (ops.map (·.id)))) ∧
        (done → tm.preempt = none → tm.eops = [] → out (.declaredInputsDone lid tid) (runs u none)) ∧
        (∀ op, done → tm.preempt = none → tm.eops = [op] → isInput op = true → op.flag = none → writeFailures u tm op.id = [] →
          out (.declaredInputsDone lid tid) (runs { u with
            peers := u.peers.filter fun r => !(r.lid == tm.lid && r.tid == tm.tid && r.op == some op.id) } op.report)) ∧
        (¬done → out (.declaredInputsDone lid tid) u)) ∧
    (∀ t tm l, teamIdx s lid tid = some t → listAt s.teams t = some tm → launchOf s lid = some l →
      let idle : Prop := tm.st = .swapout ∧ tm.loads = [] ∧ skimOut tm = false ∧ heldByRange tm = false
      let r := releaseTeam s t
      let saved := modTeam (writeContext r l tm) t (savedTeam (writeContext r l tm).cycle l.stepDecl)
      let at' := contextAddr l.record (tm.ctxSlot.getD 0)
      let image := (contextImage (Config.contextByte r.freeCtr) tm (savedParts tm l.stepDecl)).take (slotSize l.record)
      (idle → tm.swapKind = .swap → out (.contextSave lid tid) (stampReady saved t)) ∧
      (idle → tm.swapKind ≠ .swap → out (.contextSave lid tid)
        { modTeam saved t (fun tm => { tm with stamp := saved.stamp }) with stamp := saved.stamp + 1 }) ∧
      (idle → ∃ v tm', out (.contextSave lid tid) v ∧ listAt v.teams t = some tm' ∧ tm'.st = .swapped ∧ tm'.slots = [] ∧
        tm'.ctxSlot = tm.ctxSlot ∧
        (∀ k < image.length, locked r (at' + k) 1 = false → some (homeByte v (at' + k)) = image[k]?) ∧
        (tm.swapKind ≠ .step → tm'.hawk = tm.hawk ∧ tm'.scratch = tm.scratch ∧ tm'.tags = tm.tags ∧ tm'.acc = tm.acc ∧
          tm'.eops = tm.eops ∧ tm'.mops = tm.mops ∧
          tm'.gangs.map (fun gg => { gg with frags := [] }) = tm.gangs.map (fun gg => { gg with frags := [] }))) ∧
      (¬idle → out (.contextSave lid tid) s) ∧
      ((tm.st ≠ .swapin ∨ drainHolds s tm = true) → out (.swapinComplete lid tid) s) ∧
      (tm.st = .swapin → drainHolds s tm = false → tm.preempt = none → out (.swapinComplete lid tid) (modTeam s t fun tm => { tm with
        st := .running, ctxSlot := none, swapKind := .swap, gangs := tm.gangs.map fun gg => { gg with lastIssue := s.cycle } })) ∧
      (tm.st = .swapin → drainHolds s tm = false → out (.swapinComplete lid tid)
        (honour (modTeam (startRunning s t) t fun tm => { tm with ctxSlot := none, swapKind := .swap }) t)) ∧
      (retireReady s tm = false → out (.teamRetire lid tid) s) ∧
      (retireReady s tm = true → undelivered tm = [] →
        let gone : State := { r with teams := r.teams.filter fun x => !(x.lid == lid && x.tid == tid) }
        out (.teamRetire lid tid) (lowerJoin gone lid tm.parent) ∧ (tm.parent = none → out (.teamRetire lid tid) gone) ∧
        (∀ p n q, tm.parent = some p → teamIdx gone lid p = some n → listAt gone.teams n = some q →
          ∃ v q', out (.teamRetire lid tid) v ∧ listAt v.teams n = some q' ∧ q'.join = q.join - 1)) ∧
      (∀ c cs, retireReady s tm = true → undelivered tm = c :: cs →
        out (.teamRetire lid tid) (escalate r lid (causeCode c) tid))) ∧
    (∀ l, launchOf s lid = some l →
      let gone : Prop := ∀ tm ∈ s.teams, tm.lid ≠ lid
      let completes (status cause team : Nat) : Prop :=
        ∃ v, out (.launchCompletion lid) v ∧ v.completed = (lid, status) :: s.completed.filter (fun x => x.1 != lid) ∧
          v.launches = (s.launches.filter fun x => x.lid != lid).map (fun x => { x with
            preds := x.preds.map fun p => if p.1 = lid ∧ p.2 = none then (p.1, some status) else p }) ∧
          (∀ q ∈ v.queues, lid ∉ q.2) ∧ v.teams = s.teams ∧
          ∀ k < 8, locked s (l.record.done + k) 1 = false →
            some (homeByte v (l.record.done + k)) = (bytesOf 8 (status + cause * 2 ^ 8 + team % 2 ^ 24 * 2 ^ 16))[k]?
      (l.cancelled = true → gone → completes l.status l.fcause l.fteam) ∧
      (l.cancelled = false → (l.nextTid ≠ 0 ∨ predFailed l = false) → l.record.tcount ≤ l.nextTid → gone → completes l.status 0 0) ∧
      (l.cancelled = false → l.nextTid = 0 → predFailed l = true → completes 2 0 0)) ∧
    ((s.teams.find? fun tm => tm.st == .running && tm.core == core && tm.slot == slot) = none → out (.swapTimerExpiry core slot) s) ∧
    (∀ tm t ctx r n, (s.teams.find? fun tm => tm.st == .running && tm.core == core && tm.slot == slot) = some tm →
      teamIdx s tm.lid tm.tid = some t → freeContext s tm.lid = some ctx → topWork s = some r → workNeed s r.work = some n →
      (swapWait s core).toNat ≠ 0 → (swapWait s core).toNat ≤ tm.timer → timerRuns tm = true → servedBy s tm n = true →
      out (.swapTimerExpiry core slot) (startSwapout s t ctx .swap) ∧
      (tm.hawk.window = none → listAt s.teams t = some tm → out (.swapTimerExpiry core slot) (modTeam s t fun tm => { tm with
        st := .swapout, swapKind := .swap, ctxSlot := some ctx, preempt := none, timer := 0 }))) ∧
    (starved s core = [] → out (.starvationGuard core) s) ∧
    (∀ x rest, sortBy (·.1) (starved s core) = x :: rest → s.forced.contains (core, x.2) = false →
      out (.starvationGuard core) { s with forced := s.forced ++ [(core, x.2)] }) ∧
    (waitingEntries s core = [] → out (.poolEntryGrant core) s) ∧
    (∀ p w l i g f rest t tm gg, sortBy (·.1) (sortBy (fun x => x.2.1) (waitingEntries s core)) = (p, w, l, i, g, f) :: rest →
      teamIdx s l i = some t → listAt s.teams t = some tm → gangOf tm g = some gg →
      out (.poolEntryGrant core) (modFrag s t g f fun fr => { fr with pool := entryFor s core gg, st := .issuing })) ∧
    out (.swappableWaitSatisfied lid tid who) (wakeStream (fun _ => true) lid tid who s) ∧
    (∀ t tm w, teamIdx s lid tid = some t → listAt s.teams t = some tm → tm.st = .running → tm.hawk.st = .waiting w →
      out (.swappableWaitSatisfied lid tid .hawk)
        (if hawkWaitDone s tm w = true then modHawk s t fun hk => { hk with st := .issuing } else s)) ∧
    (∀ t tm g gg f fr w, teamIdx s lid tid = some t → listAt s.teams t = some tm → tm.st = .running → gangOf tm g = some gg →
      f < 8 → fragOf gg f = some fr → fr.st = .waiting w → (∀ f' fr' w', f' ≠ f → fragOf gg f' = some fr' → fr'.st ≠ .waiting w') →
      (gangWaitDone s tm g gg w = false → out (.swappableWaitSatisfied lid tid (.gang g)) s) ∧
      (gangWaitDone s tm g gg w = true → w = .joinw →
        out (.swappableWaitSatisfied lid tid (.gang g)) (modGang s t g fun gg => advanceGang s.cycle gg f)) ∧
      (gangWaitDone s tm g gg w = true → w ≠ .joinw → (∀ n label, w ≠ .yieldFlag n label) →
        out (.swappableWaitSatisfied lid tid (.gang g)) (modFrag s t g f fun fr => { fr with st := goState fr })))

/-- An outstanding load of a resident team completes: its lanes, predicates, g or k registers and tags are written, it is gone and
its flag falls; an engine operation all of whose lines or elements have landed lowers its flag and records its report unless
one stands there. A line of an operation of moves lands as it is read: its bytes are in the scratchpad, its tag is FULL,
FAULTED where a read failed, and its report is the operation's first. A matrix instruction that may step ends where none of
its steps waits. A window whose condition has been computed, with no work left, closes where the prediction was right, its
queue entries unmarked; where it was wrong the checkpoint is restored, its loads and entries are gone and the hawk stands at
the other target; both train the predictor. A range change ends when no access through the old entries is outstanding, with
the lookasides cleared and DISCARDCNT raised; a queued instruction meets the unit anew, and goes on, traps or waits as at its
issue; a widening and a move end as their kind says, and the trowel's head command begins its move or completes with its
status. Without such an operation nothing changes. What the model adds is in logs 48, 49, 72 and 79. -/
def Obligations.CompletionEvents : Prop :=
  ∀ (s : State) (lid tid op line n : Nat),
    let out (i : Instr) (t : State) : Prop := exec i s = .next t
    -- Loads.
    (∀ t tm l, teamIdx s lid tid = some t → listAt s.teams t = some tm → (tm.loads.find? fun l => l.id == op) = some l →
      let others := tm.loads.filter fun x => x.id != l.id
      (resident tm = true → out (.longLatencyCompletion lid tid op) (honour (completeLoad s t l) t)) ∧
      (resident tm = true → tm.preempt = none →
        (∀ g, l.who = .gang g → out (.longLatencyCompletion lid tid op) (modTeam s t fun tm => { tm with
          loads := others
          gangs := listModify (fun gg => { l.deposits.foldl deposit gg with
            flags := smSet 0 gg.flags l.flag (flagOf gg.flags l.flag - 1) }) tm.gangs g })) ∧
        (∀ d x, l.who = .hawk → l.deposits = [.kpr d x] → tm.hawk.cpend = [] → tm.hawk.window = none →
          out (.longLatencyCompletion lid tid op) (modTeam s t fun tm => { tm with
            loads := others
            hawk := { tm.hawk with
              k := smSet 0 tm.hawk.k d x, kpend := tm.hawk.kpend.filter fun p => p.2 != l.id
              flags := smSet 0 tm.hawk.flags l.flag (flagOf tm.hawk.flags l.flag - 1) } }))) ∧
      (resident tm = false → out (.longLatencyCompletion lid tid op) s)) ∧
    (∀ (gg : Gang) d m x y z q k lane, lane < 64 →
      tagOf (deposit gg (.tag d z)) k = (if k = d then z else tagOf gg k) ∧
      inMask (pReg (deposit gg (.pred d m q)) k) lane = (if k = d ∧ inMask m lane = true then inMask q lane else inMask (pReg gg k) lane) ∧
      laneOf (vReg (deposit gg (.lanes (.v d) m x)) k) lane = (if k = d ∧ inMask m lane = true then laneOf x lane else laneOf (vReg gg k) lane) ∧
      laneOf (oReg (deposit gg (.lanes (.o d) m x)) k) lane = (if k = d ∧ inMask m lane = true then laneOf x lane else laneOf (oReg gg k) lane) ∧
      laneOf (deposit gg (.lanes .y0 m x)).y0 lane = (if inMask m lane = true then laneOf x lane else laneOf gg.y0 lane) ∧
      gReg (deposit gg (.gpr d y)) k = (if k = d then y else gReg gg k)) ∧
    -- Engine operations.
    (∀ t tm o, proceeding s lid tid op = some (t, tm, o) →
      let all : Prop := match o.kind with
        | .copy _ | .pcopy .. => allLanded o = true
        | .gather d | .scatter d => o.pending = [] ∧ ∀ k < d.count, k ∈ o.landed
        | _ => False
      let recorded (f : Nat) (m : Smap Report) : Smap Report :=
        match o.report with
        | some r => if (m.any fun x => x.1 == f) = true then m else smInsert m f r
        | none => m
      let others := tm.eops.filter fun x => x.id != op
      out (.engineOperationCompletion lid tid op) (honour (finishOp s t tm o) t) ∧
      out (.lineLanded lid tid op line) (landPart s t line o) ∧
      (∀ f, all → engineWrites s tm op = [] → tm.preempt = none → o.flag = some f →
        (∀ g, o.who = .gang g → out (.engineOperationCompletion lid tid op) (modTeam s t fun tm => { tm with
          eops := others
          gangs := listModify (fun gg => { gg with
            flags := smSet 0 gg.flags f (flagOf gg.flags f - 1), reports := recorded f gg.reports }) tm.gangs g })) ∧
        (o.who = .hawk → out (.engineOperationCompletion lid tid op) (modTeam s t fun tm => { tm with
          eops := others
          hawk := { tm.hawk with
            flags := smSet 0 tm.hawk.flags f (flagOf tm.hawk.flags f - 1), reports := recorded f tm.hawk.reports } }))) ∧
      (∀ m u bs rs, lineMoves o line = [m] → m.dloc = true → line ∉ o.landed → lineBehind s tm o line = false →
        unitBlocked s tm o = false → replayWaits tm o ((linesLeft o).takeWhile (· ≠ line)).contains = false →
        readSide (engCtx s t tm o line) m.sloc m.stag m.src m.len (putOp s t (tryPart line o)) = (u, .got bs rs) →
        bs.length = m.len → ∃ v tm' o', out (.lineLanded lid tid op line) v ∧ listAt v.teams t = some tm' ∧
          (∀ a, scratchByte tm' a =
            ((if m.dst ≤ a ∧ a < m.dst + m.len then (bs[a - m.dst]?).bind EByte.value else none).getD (scratchByte tm a))) ∧
          (∀ x, fillTag tm' x = if x = line ∧ line ∈ o.pending then (if ∀ b ∈ bs, b.good = true then tagFull else tagFaulted) else fillTag tm x) ∧
          engineOp tm' op = some o' ∧ o'.landed = o.landed ++ [line] ∧ o'.pending = o.pending.filter (fun x => decide (x ≠ line)) ∧
          o'.report = o.report.orElse (fun _ => rs.head?))) ∧
    (proceeding s lid tid op = none → out (.engineOperationCompletion lid tid op) s ∧ out (.lineLanded lid tid op line) s) ∧
    (∀ t tm m, teamIdx s lid tid = some t → listAt s.teams t = some tm → (tm.mops.find? fun m => m.id == op) = some m →
      (tm.st = .running ∨ tm.st = .retiring) → mayStep tm m = true →
      (∀ tm', runSteps (raceMode s tm) stepLimit tm m = some tm' →
        out (.matrixInstructionCompletion lid tid op) (honour (modTeam s t fun _ => tm') t) ∧ ∀ x ∈ tm'.mops, x.id ≠ op) ∧
      (runSteps (raceMode s tm) stepLimit tm m = none → out (.matrixInstructionCompletion lid tid op) s)) ∧
    -- Windows.
    (∀ t w taken, resolving s lid tid = some (t, w, taken) →
      (taken ≠ w.predicted → out (.windowCommit lid tid) s) ∧ (taken = w.predicted → out (.windowSquash lid tid) s) ∧
      (taken = w.predicted → out (.windowCommit lid tid)
        (commitWindow (if w.held.any isCswr = true then { s with spent := .hawk lid tid :: s.spent } else s) t w taken)) ∧
      (∀ tm, taken = w.predicted → w.held = [] → w.fault = none → w.committing = false → listAt s.teams t = some tm →
        ∃ v tm', out (.windowCommit lid tid) v ∧ listAt v.teams t = some tm' ∧ tm'.hawk.window = none ∧
          tm'.hawk.k = tm.hawk.k ∧ tm'.hawk.c = tm.hawk.c ∧ tm'.hawk.pc = tm.hawk.pc ∧ (∀ p ∈ tm'.hawk.cpend, p.inWindow = none) ∧
          tm'.hawk.predictor = (trainPredictor tm.hawk w.pc taken).predictor ∧ (w.link = true → tm'.escaped = true) ∧
          tm'.gangs.map (·.dq) = tm.gangs.map fun gg => gg.dq.map fun e => { e with spec := false }) ∧
      (∀ tm, taken ≠ w.predicted → listAt s.teams t = some tm →
        ∃ v tm', out (.windowSquash lid tid) v ∧ listAt v.teams t = some tm' ∧ tm'.hawk.window = none ∧
          tm'.hawk.k = w.k ∧ tm'.hawk.c = w.c ∧ tm'.hawk.ret = w.ret ∧ tm'.hawk.st = .issuing ∧ tm'.hawk.clause = none ∧
          tm'.hawk.pc = (if taken = true then w.target else w.pc + 4) ∧
          tm'.hawk.predictor = (trainPredictor tm.hawk w.pc taken).predictor ∧
          tm'.loads = tm.loads.filter (fun l => !(l.who == .hawk && decide (w.firstOp ≤ l.id))) ∧
          tm'.gangs.map (·.dq) = tm.gangs.map fun gg => gg.dq.take (gg.dq.length - countP (fun e => e.spec) gg.dq))) ∧
    (resolving s lid tid = none → out (.windowCommit lid tid) s ∧ out (.windowSquash lid tid) s) ∧
    -- Range operations.
    (∀ o, rangeOpOf s n = some o →
      let rest := s.rangeOps.filter fun x => x.id != n
      (∀ d lo hi, o.kind = .change d lo hi → (accessesOut s o.asid lo hi = true → out (.rangeChangeComplete n) s) ∧
        (accessesOut s o.asid lo hi = false → ∃ u, out (.rangeChangeComplete n) (releaseHolder u o) ∧ u = { s with
          rangeOps := rest, look := s.look.filter fun e => !(e.asid == o.asid && decide (e.base < hi) && decide (lo < e.limit))
          discardCnt := if d = 0 then s.discardCnt
            else smSet 0 s.discardCnt o.asid (smGet 0 s.discardCnt o.asid + BitVec.ofNat 64 d) })) ∧
      (∀ base lo hi, o.kind = .migrIn base lo hi → out (.rangeChangeComplete n)
        (wakeAll rangeWait (releaseHolder (dropRangeOp (endWiden s o.asid base lo hi) n) o))) ∧
      (∀ i ga gb bases h, o.kind = .queued i ga gb bases h → (heldStream s o = none → out (.rangeChangeComplete n) { s with rangeOps := rest }) ∧
        (∀ t tm at', heldStream s o = some (t, tm, at') →
          let ans := rangeAnswer i (unitBefore s n) t tm ((o.holder.map (·.2.2)).getD .hawk) ga gb
          let left : State := { ans.1 with rangeOps := s.rangeOps }
          (∀ bs, ans.2 = .busy bs → out (.rangeChangeComplete n) s) ∧
          (ans.2 = .none → out (.rangeChangeComplete n) (releaseHolder (dropRangeOp (escape left t) n) o)) ∧
          (∀ c y, ans.2 = .trap c y → out (.rangeChangeComplete n) (trapHeld (dropRangeOp left n) t tm at' i h c y)) ∧
          ((∀ a, i ≠ .seal a) → ans = (unitBefore s n, rangeUnit i (unitBefore s n) tm ((o.holder.map (·.2.2)).getD .hawk) ga gb)) ∧
          (∀ u kind, ans.2 = .changed u kind → out (.rangeChangeComplete n)
            (escape { u with rangeOps := s.rangeOps.map fun x => if x.id = n then { x with kind := kind } else x } t)))) ∧
      (∀ base lo hi, o.kind = .widen base lo hi → out (.residencyWideningEnd n)
        (wakeAll rangeWait (dropRangeOp (endWiden s o.asid base lo hi) n))) ∧
      (∀ base pb cb cap, o.kind = .move base pb cb cap →
        let u := releaseHolder (dropRangeOp (endMove s o.asid base pb cb cap) n) o
        let busy := accessesOut s o.asid base (((slotOfBase s o.asid base).map (·.2.limit)).getD base)
        (busy = true → out (.moveComplete n) s) ∧
        (busy = false → o.trowel = none → out (.moveComplete n) (wakeAll rangeWait u)) ∧
        (∀ a, busy = false → o.trowel = some a → out (.moveComplete n) (wakeAll rangeWait (trowelDone u a 0)))) ∧
      -- The stream that an operation held goes on.
      (∀ u l i t tm, o.holder = some (l, i, .hawk) → teamIdx u l i = some t → listAt u.teams t = some tm →
        tm.hawk.st = .waiting (.rangeOp n) → tm.hawk.window = none → releaseHolder u o = advanceHawk u t) ∧
      (∀ u l i g f t tm gg, o.holder = some (l, i, .gang g) → teamIdx u l i = some t → listAt u.teams t = some tm →
        gangOf tm g = some gg → f < 8 → (∃ fr, fragOf gg f = some fr ∧ fr.st = .waiting (.rangeOp n)) →
        (∀ f' fr', f' ≠ f → fragOf gg f' = some fr' → fr'.st ≠ .waiting (.rangeOp n)) →
        releaseHolder u o = modGang u t g fun gg => advanceGang u.cycle gg f)) ∧
    (rangeOpOf s n = none → out (.rangeChangeComplete n) s ∧ out (.residencyWideningEnd n) s ∧ out (.moveComplete n) s) ∧
    ((s.trowel = [] ∨ trowelBusy s = true) → out .trowelCommand s) ∧
    (∀ c rest, s.trowel = c :: rest → trowelBusy s = false →
      (checkTrowel s c = .busy → out .trowelCommand s) ∧
      (∀ st, checkTrowel s c = .fails st → ∃ v, out .trowelCommand v ∧ v.trowel = rest ∧ v.teams = s.teams ∧
        ∀ k < 4, locked s (c.addr + 28 + k) 1 = false → some (homeByte v (c.addr + 28 + k)) = (bytesOf 4 (st + 256))[k]?) ∧
      (∀ k e x, checkTrowel s c = .moves k e x →
        let u := putEntry s (c.w3.toNat % 2 ^ 13) k { e with st := rsMigrating }
        out .trowelCommand { u with
          look := u.look.filter fun y => !(y.asid == c.w3.toNat % 2 ^ 13 && decide (y.base < e.limit) && decide (e.base < y.limit))
          nextRange := u.nextRange + 1
          rangeOps := u.rangeOps ++ [{ id := u.nextRange, asid := c.w3.toNat % 2 ^ 13, holder := none
                                       kind := .move e.base x.pbase x.cbase x.cap, trowel := some c.addr }] }))

/-- A team that an unrecoverable fault has killed (R219): an idempotent launch whose team has not escaped, has relaunches left and
has room gets it back, queued with a fresh context. Else its launch is cancelled with status 1 and has no team left. -/
def Sys2Proof.Machine.TeamKilled (s t : State) (n : Nat) (tm : Team) (cause : Nat) : Prop :=
  ∀ l, launchOf s tm.lid = some l →
    let again : Prop := l.record.idem = true ∧ tm.escaped = false ∧ tm.relaunches < l.record.retry ∧ l.cancelled = false ∧
      ∀ cl, tm.cluster = some cl → cptOf s tm = 1 ∨ cptOf s tm ≤ clusterPresent s cl
    (again → ∃ x, listAt t.teams n = some x ∧ x.lid = tm.lid ∧ x.tid = tm.tid ∧ x.st = .queued ∧ x.relaunches = tm.relaunches + 1 ∧
      x.killCause = cause ∧ x.barc = tm.barc ∧ x.gangs = List.replicate tm.gangCount (freshGang tm.gentry tm.param) ∧
      x.hawk = freshHawk tm.hentry tm.param ∧ x.scratch = [] ∧ x.acc = [] ∧ x.escaped = false) ∧
    (¬again → (∀ x ∈ t.teams, x.lid ≠ tm.lid) ∧ ∃ l', launchOf t tm.lid = some l' ∧ l'.cancelled = true ∧
      (l.cancelled = false → l'.status = 1 ∧ l'.fcause = cause ∧ l'.fteam = tm.tid))

/-- The loss of a present core kills every resident team on it, with cause 0x12, and puts its cluster into recovery. Where
recovery ends the spare stands in, SPARE set and CORE_MAP, REQ and LOST as they were, or, where it had been used, the core's
bit of CORE_MAP is cleared, REQ set, LOST raised and a replacement reported; a team whose cluster has too few cores left is
escalated, and a launch that no cluster can hold has nothing left to place. A lost redundancy of a stack or of LPDDR clears
its bit or sets LPDEG, requests a replacement and reports it, once. An uncorrectable error makes a scratchpad line of a
resident team FAULTED, poisons a sector of DRAM or of a cache, each counted in UECOUNT, marks an accumulator row bad, and in a
register file kills the team, or, in a register that a matrix instruction reads, ends that instruction. An event at a place
that does not exist has no effect. What is lost with a core's cache (log 22), the cause 0 and what is counted (log 51), and
free values for ACCST.R (log 91) are the model's choices. -/
def Obligations.HealthEvents : Prop :=
  ∀ (s : State) (lid tid line core cl sector tile row n : Nat) (stack : BitVec 3),
    let out (i : Instr) (t : State) : Prop := exec i s = .next t
    let report (t : State) : State := { t with req := true, outputs := t.outputs ++ [.replacement] }
    ((192 ≤ core ∨ corePresent s core = false ∨ s.lostCores.contains core = true) → out (.coreLost core) s) ∧
    (core < 192 → corePresent s core = true → s.lostCores.contains core = false → ∃ t, out (.coreLost core) t ∧
      t.lostCores = setAdd s.lostCores core ∧ t.recovering.getLsbD (core / 8) = true ∧ t.coreMap = s.coreMap ∧
      (∀ e ∈ t.l1, e.core ≠ core) ∧
      (∀ tm ∈ s.teams, resident tm = true → tm.core = core →
        ∀ k x, teamIdx t tm.lid tm.tid = some k → listAt t.teams k = some x → x.st = .queued) ∧
      (∀ tm k, (s.teams.filter fun tm => resident tm && tm.core == core) = [tm] → teamIdx s tm.lid tm.tid = some k →
        listAt s.teams k = some tm → TeamKilled s t k tm 0x12)) ∧
    ((24 ≤ cl ∨ s.recovering.getLsbD cl = false) → out (.recoveryEnd cl) s) ∧
    (cl < 24 → s.recovering.getLsbD cl = true → ∃ t, out (.recoveryEnd cl) t ∧ t.recovering.getLsbD cl = false ∧
      (∀ c, c ∈ t.lostCores ↔ c ∈ s.lostCores ∧ c / 8 ≠ cl) ∧
      (∀ c, (s.lostCores.filter fun c => c / 8 == cl) = [c] →
        (s.sparesUsed.getLsbD cl = false → t.coreMap = s.coreMap ∧ t.spare = true ∧ t.sparesUsed.getLsbD cl = true ∧
          t.req = s.req ∧ t.lost = s.lost ∧ t.outputs = s.outputs) ∧
        (s.sparesUsed.getLsbD cl = true → t.coreMap = s.coreMap &&& ~~~(1#192 <<< c) ∧ t.spare = s.spare ∧ t.req = true ∧
          t.lost = s.lost + 1 ∧ t.outputs = s.outputs ++ [.replacement])) ∧
      (∀ tm ∈ t.teams, strandedTeam t tm = false) ∧
      (∀ l ∈ t.launches, l.cancelled = false → l.nextTid < l.record.tcount → ∃ k < 24, l.record.cpt ≤ clusterPresent t k)) ∧
    out (.stackRedundancyLost stack)
      (if s.stackMap.getLsbD stack.toNat = true then report { s with stackMap := s.stackMap &&& ~~~(1#8 <<< stack.toNat) } else s) ∧
    out .lpddrRedundancyLost (if s.lpdeg = true then s else report { s with lpdeg := true }) ∧
    (∀ t tm, teamIdx s lid tid = some t → listAt s.teams t = some tm →
      out (.scratchpadUncorrectableError lid tid line) (if resident tm = true ∧ line < tm.lines then
        { (modTeam s t fun tm => setFill tm line tagFaulted) with uecount := s.uecount + 1 } else s) ∧
      out (.accumulatorUncorrectableError lid tid tile row) (modTeam s t fun tm =>
        if resident tm && decide (tile < tm.acct) && decide (row < 64) && !tm.badRows.contains (tile, row) then
          { tm with badRows := tm.badRows ++ [(tile, row)] } else tm) ∧
      ((tm.st = .queued ∨ tm.st = .preload) → out (.registerUncorrectableError (lid, tid) none) s) ∧
      (tm.st ≠ .queued → tm.st ≠ .preload → ∃ u, out (.registerUncorrectableError (lid, tid) none) u ∧ TeamKilled s u t tm 0) ∧
      ((tm.mops.find? fun m => m.id == n) = none → out (.registerUncorrectableError (lid, tid) (some n)) s) ∧
      (∀ m, (tm.mops.find? fun m => m.id == n) = some m →
        let steps : Prop := (tm.st = .running ∨ tm.st = .retiring) ∧ m.reads ≠ [] ∧ mayStep tm m = true
        (¬steps → out (.registerUncorrectableError (lid, tid) (some n)) s) ∧
        (steps → ∃ u tm', out (.registerUncorrectableError (lid, tid) (some n)) u ∧ listAt u.teams t = some tm' ∧
          u.freeCtr = s.freeCtr + 8192 ∧ tm'.st = tm.st ∧ (tilesWritten tm m ≠ [] → ∀ x ∈ tm'.mops, x.id ≠ n) ∧
          tm' = failRegister tm m fun x => (Config.freeValue (s.freeCtr + x)).setWidth 32))) ∧
    (teamIdx s lid tid = none → out (.scratchpadUncorrectableError lid tid line) s ∧
      out (.accumulatorUncorrectableError lid tid tile row) s ∧ out (.registerUncorrectableError (lid, tid) none) s ∧
      out (.registerUncorrectableError (lid, tid) (some n)) s) ∧
    (let memory : Prop := isFast (32 * sector) = true ∨ isCap (32 * sector) = true
     (memory → out (.dramUncorrectableError sector) { setPoison s sector true with uecount := s.uecount + 1 }) ∧
     (¬memory → out (.dramUncorrectableError sector) s)) ∧
    (∀ e, l2Find s sector = some e → out (.cacheUncorrectableError none sector)
      { l2Put s { e with poison := true } with uecount := s.uecount + 1 }) ∧
    (l2Find s sector = none → out (.cacheUncorrectableError none sector) s) ∧
    (∀ e, l1Find s core sector = some e → out (.cacheUncorrectableError (some core) sector)
      { l1Put s { e with poison := true } with uecount := s.uecount + 1 }) ∧
    (l1Find s core sector = none → out (.cacheUncorrectableError (some core) sector) s)

/-- ATREQ of an aligned page of the fast tier that finds no request in progress begins one, and otherwise sets its error. The
answer writes the nonce that stands in the buffer, the measurements, the certificate and a signature after it, and a request
of the management port is answered there. SWSUBMIT of a legal record whose frame lies in EGRESS ranges locks the frame under
the next serial number and recalls its tokens, else only sets its status. The mark of the earliest locked unmarked frame is
written and its digest kept, SWBATCH writes the manifest of the frames marked since the previous batch at its address: the
batch number, their count, the digest of the identity key, each frame's serial and digest, and a signature over these, byte
for byte but where a frame is locked. Where no cache, pending sum or link station holds anything, every byte outside it stays.
It raises the batch number and notes those frames as listed. SWFREE unlocks a frame. The order of the checks and when the
nonce is read (log 65), the order of the checks of a frame and the first serial and batch numbers (log 66), the order of the
marks and when the digest is taken (log 67) are the model's choices, and so are which register measures which stage (log 20)
and the fault where no memory is (log 71). -/
def Obligations.AttestationAndSignwriterEvents : Prop :=
  ∀ (s : State) (v : BitVec 64) (nonce : BitVec 256),
    let out (i : Instr) (t : State) : Prop := exec i s = .next t
    let pa := v.toNat % 2 ^ 52
    let page : Prop := pa % 4096 = 0 ∧ inFast pa (pa + 4096) = true
    (¬page → out (.atreq v) { s with aterr := 1 }) ∧
    (page → s.atbusy = true → out (.atreq v) { s with aterr := 2 }) ∧
    (page → s.atbusy = false → out (.atreq v) { s with atbusy := true, atdone := false, aterr := 0, atbuf := pa }) ∧
    (s.atbusy = false → out .attestationAnswer s) ∧
    (s.atbusy = true → let u := flushQuanta s s.atbuf (s.atbuf + 32)
      out .attestationAnswer { unitStore u (s.atbuf + 64) (attestation u (homeBytes u s.atbuf 32)) with
        atbusy := false, atdone := true, signatures := s.signatures + 1 }) ∧
    out (.attestationManagementRequest nonce) { s with
      outputs := s.outputs ++ [.management (attestation s (bytesOf 32 nonce.toNat))], signatures := s.signatures + 1 } ∧
    (∀ bs, (attestation s bs).take (bs.length + 256) = bs ++ s.measure.flatMap (fun m => bytesOf 32 m.toNat) ∨
      s.measure.length ≠ 8) ∧
    (populated pa 32 = false → exec (.swsubmit v) s = .fault (.unpopulated pa)) ∧
    (populated pa 32 = true →
      let u := flushQuanta s pa (pa + 32)
      let w := recWord (physBytes u pa 32)
      let reserved : Prop := w 0 / 2 ^ 56 ≠ 0 ∨ w 1 / 2 ^ 53 ≠ 0 ∨ w 2 / 2 ^ 13 ≠ 0 ∨ w 3 ≠ 0
      let serial := (s.serial.toNat + 1) % 2 ^ 56
      let f : Frame :=
        { serial := serial, asid := w 2 % 2 ^ 13, base := w 0 % 2 ^ 56, width := w 1 % 2 ^ 16, height := w 1 / 2 ^ 16 % 2 ^ 16
          pitch := w 1 / 2 ^ 32 % 2 ^ 20, wide := w 1 / 2 ^ 52 % 2 == 1, marked := false, digest := [], batched := false, locked := true }
      let covered := egressCovers u f.asid (f.base + frameLen f) ((asidDesc u f.asid).count + 1) f.base
      (reserved → out (.swsubmit v) { u with swst := 2 }) ∧
      (¬reserved → covered = false → out (.swsubmit v) { u with swst := 1 }) ∧
      (¬reserved → covered = true → out (.swsubmit v)
        (recallFrame { u with swst := 0, serial := BitVec.ofNat 56 serial, frames := u.frames ++ [f] } f))) ∧
    ((∀ f ∈ s.frames, f.locked = true → f.marked = true) → out .signwriterMark s) ∧
    (∀ f, (s.frames.find? fun f => f.locked && !f.marked) = some f → ∃ t, out .signwriterMark t ∧
      let u := markFrame (flushFrame s f) f
      t.frames = u.frames.map (fun x => if x.serial = f.serial then { x with marked := true, digest := sha256 (frameBytes u f) } else x) ∧
      t.mem = u.mem) ∧
    (let fs := s.frames.filter fun f => f.marked && !f.batched
     let body := bytesOf 8 s.batchNo ++ bytesOf 8 fs.length ++ sha256 Config.identityKey ++
       fs.flatMap fun f => bytesOf 8 f.serial ++ f.digest
     let manifest := body ++ signNow s body
     let closed : State := { s with
       batchNo := s.batchNo + 1, signatures := s.signatures + 1
       frames := (s.frames.map fun f => { f with batched := f.batched || f.marked }).filter fun f => !frameDone f }
     let t := unitStore closed pa manifest
     (pa + manifest.length ≤ Config.fastHi → out (.swbatch v) t ∧
       (∀ k < manifest.length, locked closed (pa + k) 1 = false → some (homeByte t (pa + k)) = manifest[k]?) ∧
       (s.l1 = [] → s.l2 = [] → s.quanta = [] → (∀ x ∈ s.tokHolder, isStation x.2 = false) →
         ∀ a, (a < pa ∨ pa + manifest.length ≤ a) → homeByte t a = homeByte s a)) ∧
     (∀ w, ((writesAt pa manifest).find? fun w => !(isFast w.1 || isCap w.1 || isDev w.1)) = some w →
       exec (.swbatch v) s = .fault (.unpopulated w.1))) ∧
    (∀ t, exec (.swbatch v) s = .next t → t.batchNo = s.batchNo + 1 ∧ ∀ f ∈ t.frames, f.marked = true → f.batched = true) ∧
    ((∀ f ∈ s.frames, f.digest.length ≤ 32) → pa + 384 + 48 + 40 * s.frames.length ≤ Config.fastHi → ∃ t, out (.swbatch v) t) ∧
    out (.swfree v) { s with frames :=
      (s.frames.map fun f => if f.serial = v.toNat % 2 ^ 56 then { f with locked := false } else f).filter fun f => !frameDone f }

/-- A port that is not in service with enough good lanes enters service at a legal width; one that retrains does so at the widest
width of its good lanes, counts a repair where its width has changed, and keeps its peer. A rejected unacknowledged flit
starts one replay episode, counted once, and any other rejection changes nothing. The loss of a lane makes a port in service
retrain, or takes it out of service and fails its requests when none is good. An inbound access in service that the filter
admits, that lies in memory, is no refused read of egress data nor a write of a locked frame is performed and answered, and
any other is answered with refusal and no effect. A message of 128 bytes with room in the ring is appended there, waits while
the ring is full, and is refused without a ring or where the filter, the tier or a frame lock refuses its slot. An answer to
an outstanding request of this module reaches it. A PCIe request that a window maps and permits is performed, and else
refused. Flits of one request (log 21), what is refused (log 68), an episode's length (log 69) and what a port does while it
retrains (log 92) are the model's choices. -/
def Obligations.LinkAndHostEvents : Prop :=
  ∀ (s : State) (port : BitVec 4) (width : BitVec 3) (peer : BitVec 16) (seq n addr len : Nat) (lane : BitVec 2) (req : PeerAccess)
      (bytes : List (BitVec 8)) (ok : Bool) (rp : BitVec 1),
    let out (i : Instr) (t : State) : Prop := exec i s = .next t
    let k := port.toNat
    let p := portOf s k
    let told (o : Output) (t : State) : State := { t with outputs := t.outputs ++ [o] }
    (p.pstate ≠ 2 → (width = 1 ∨ width = 2 ∨ width = 4) → width.toNat ≤ goodLanes p →
      (p.retrainFrom = none → out (.linkTrained port width peer)
        { modPort s k (fun p => { p with pstate := 2, width := width, peerid := peer }) with linkMap := s.linkMap ||| (1#16 <<< k) }) ∧
      (∀ old, p.retrainFrom = some old → out (.linkTrained port width peer)
        (if width.toNat = (if 4 ≤ goodLanes p then 4 else if 2 ≤ goodLanes p then 2 else 1) then modPort s k fun p => { p with
          pstate := 2, width := width, retrainFrom := none, repairs := if width = old then p.repairs else p.repairs + 1 } else s))) ∧
    ((p.pstate = 2 ∨ ¬(width = 1 ∨ width = 2 ∨ width = 4) ∨ goodLanes p < width.toNat) → out (.linkTrained port width peer) s) ∧
    (p.pstate = 2 → retryPoint s k ≤ seq → seq < p.nextSeq →
      (p.replaying = none → out (.flitRejected port seq) (modPort s k fun p => { p with replays := p.replays + 1, replaying := some seq })) ∧
      (∀ m, p.replaying = some m → out (.flitRejected port seq) (modPort s k fun p => { p with replaying := some (max m seq) }))) ∧
    ((p.pstate ≠ 2 ∨ seq < retryPoint s k ∨ p.nextSeq ≤ seq) → out (.flitRejected port seq) s) ∧
    (let u := modPort s k fun p => { p with laneok := p.laneok &&& ~~~(1#4 <<< lane.toNat) }
     let q := portOf u k
     (q.pstate ≠ 2 → q.retrainFrom = none → out (.laneRepair port lane) u) ∧
     ((q.pstate = 2 ∨ q.retrainFrom ≠ none) → goodLanes q = 0 → out (.laneRepair port lane) (leaveService u k) ∧
       (portOf (leaveService u k) k).pstate = 3 ∧ (leaveService u k).linkMap.getLsbD k = false ∧ (leaveService u k).req = true ∧
       ∀ r ∈ (leaveService u k).peers, r.port = k → r.answer ≠ none) ∧
     (q.pstate = 2 → q.retrainFrom = none → goodLanes q ≠ 0 → out (.laneRepair port lane)
       (modPort u k fun p => { p with pstate := 1, width := 0, retrainFrom := some p.width })) ∧
     (q.retrainFrom ≠ none → goodLanes q ≠ 0 → out (.laneRepair port lane) u)) ∧
    (let needs := accessNeeds req.kind
     let admitted : Prop := filterAdmits p req.src req.addr needs.2.2 needs.1 needs.2.1 = true ∧ inMemory req.addr needs.2.2 = true ∧
       ¬(needs.1 = true ∧ egressRefused s req.addr needs.2.2 = true) ∧ ¬(needs.2.1 = true ∧ locked s req.addr needs.2.2 = true) ∧
       peerAtomicOk s req.kind req.addr = true
     (p.pstate ≠ 2 → out (.inboundPeerAccess port req) s) ∧
     (p.pstate = 2 → admitted → out (.inboundPeerAccess port req)
       (told (.peerAnswer k (performInbound s k req).2) (performInbound s k req).1)) ∧
     (p.pstate = 2 → ¬admitted → out (.inboundPeerAccess port req) (told (.peerAnswer k none) s))) ∧
    (let u := flushQuanta s p.rxtaddr (p.rxtaddr + 8)
     let tail := ringTail u p
     let slot := p.rxbase + 128 * (tail % p.rxn)
     ((p.pstate ≠ 2 ∨ bytes.length ≠ 128) → out (.messageArrival port peer bytes) u) ∧
     (p.pstate = 2 → bytes.length = 128 → p.rxn = 0 → out (.messageArrival port peer bytes) (told (.peerAnswer k none) u)) ∧
     (p.pstate = 2 → bytes.length = 128 → p.rxn ≠ 0 → p.rxn ≤ tail - p.rxhead.toNat → out (.messageArrival port peer bytes) u) ∧
     (p.pstate = 2 → bytes.length = 128 → tail - p.rxhead.toNat < p.rxn → filterAdmits p peer slot 128 false true = true →
       inFast slot (slot + 128) = true → locked u slot 128 = false → out (.messageArrival port peer bytes) (told (.peerAnswer k (some []))
         (putWord (outsideWrite u (stationHolder k) (writesAt slot bytes)) p.rxtaddr ((tail + 1) % 2 ^ 64)))) ∧
     (p.pstate = 2 → bytes.length = 128 → tail - p.rxhead.toNat < p.rxn → (filterAdmits p peer slot 128 false true = false ∨
       inFast slot (slot + 128) = false ∨ locked u slot 128 = true) →
       out (.messageArrival port peer bytes) (told (.peerAnswer k none) u))) ∧
    (∀ r, (s.peers.find? fun r => r.id == n && r.answer.isNone) = some r → out (.peerResponse n ok bytes)
      (if (portOf s r.port).pstate = 2 then endReplay (answerRequest s r ok bytes) r.port else s)) ∧
    ((∀ r ∈ s.peers, r.id = n → r.answer ≠ none) → out (.peerResponse n ok bytes) s) ∧
    (∀ w pa, pcieMatch s rp.toNat addr len = some (w, pa) →
      let u := flushQuanta s pa (pa + len)
      out (.pcieInboundRequest rp (.read addr len)) (if w.r = true ∧ egressRefused s pa len = false then
        told (.pcie rp (some (homeBytes u pa len))) u else told (.pcie rp none) s)) ∧
    (∀ w pa, pcieMatch s rp.toNat addr bytes.length = some (w, pa) →
      out (.pcieInboundRequest rp (.write addr bytes)) (if w.w = true ∧ locked s pa bytes.length = false then
        told (.pcie rp (some [])) (outsideWrite s homeHolder (writesAt pa bytes)) else told (.pcie rp none) s)) ∧
    (pcieMatch s rp.toNat addr len = none → out (.pcieInboundRequest rp (.read addr len)) (told (.pcie rp none) s)) ∧
    (pcieMatch s rp.toNat addr bytes.length = none → out (.pcieInboundRequest rp (.write addr bytes)) (told (.pcie rp none) s))

/-- For every instruction with a word, a clause header apart: where a gang inside a clause executes a word of major 0xD, it takes
ILLEGAL_INSTRUCTION with its active lanes in FLTMASK and FLTADDR zero, whatever hints stand before the word and whatever its
operands are. Where the hawk inside a clause executes a word of gangs alone (XPLANE, MERGEAT, majors 0x2 to 0x7, ATOM, ACAS,
RED, ATOMS, major 0x9 but TRAP and NOP, majors 0xA and 0xC), it takes ILLEGAL_INSTRUCTION with FLTADDR zero. Nothing of the
word's own effect happens: the state is that of the trap. -/
def Obligations.WrongStreamTraps : Prop :=
  ∀ (s : State) (i : Instr) (w : Word), encode i = some w → (∀ w' : Word, decodeHeader w' ≠ .instr i) →
    let major := w.toNat / 2 ^ 28
    let minor := w.toNat / 2 ^ 23 % 32
    let hint := w.toNat / 2 ^ 25 % 8
    let gangsAlone : Prop := (major = 1 ∧ (hint = 3 ∨ hint = 5)) ∨ (2 ≤ major ∧ major ≤ 7) ∨ (major = 8 ∧ minor < 4) ∨
      (major = 9 ∧ minor ≠ 9 ∧ minor ≠ 14) ∨ major = 10 ∨ major = 12
    (∀ c, gangCtx s = some c → major = 13 → exec i s = .next (trapAll s c i .illegalInstruction c.act 0)) ∧
    (∀ k, hawkCtx s = some k → gangsAlone → exec i s = .next (trapHawk s k i .illegalInstruction 0))

/-- Taking a trap of a gang's fragment, where the launch's vector has a gang handler and the gang is not in handler mode: the
record becomes the gang's fault record, the o and y registers, the result count, the peel flag, the address, the place in the
clause and the mark of a step boundary are saved, the gang is in handler mode, and the fragment stands at the header GHANDLER
with its home mask and EXMASK unchanged. The gang's v, y, g and p registers, tags and flags, every other gang, the hawk, every
other team and all of memory are as they were; beside that team only the plumb line may have changed. For the hawk the same
with KHANDLER. Without a handler, or in handler mode, the team is killed: an idempotent team with no escaped effect and a
relaunch left, whose cluster still fits, is queued again with a fresh context and one relaunch more, and otherwise its launch
is cancelled with status 0x01, the cause and the team, and none of its teams is left. -/
def Obligations.TakingATrap : Prop :=
  ∀ (s : State) (t g f : Nat) (r : FaultRecord) (owed : Option Replay) (tm : Team) (gg : Gang) (fr : Frag) (cause : Nat),
    listAt s.teams t = some tm →
    let plumb (u : State) : Prop :=
      u = { s with teams := u.teams, busy := u.busy, drop := u.drop, seq := u.seq, latched := u.latched } ∧
      (∀ n, n ≠ t → listAt u.teams n = listAt s.teams n)
    (gangOf tm g = some gg → fragOf gg f = some fr → (vectorOf s tm).1 ≠ 0 → gg.handler = none →
      let u := takeGangTrap s t g f r owed
      plumb u ∧ (∀ a, memByte u a = memByte s a) ∧
      ∃ (tm' : Team) (gg' : Gang) (saved : HandlerSave), listAt u.teams t = some tm' ∧ gangOf tm' g = some gg' ∧
        tm' = { tm with gangs := tm'.gangs } ∧ (∀ n, n ≠ g → gangOf tm' n = gangOf tm n) ∧
        gg' = { gg with flt := r, handler := some saved, o := gg'.o, frags := gg'.frags, marked := false } ∧
        saved = { home := fr.home, o := gg.o, y0 := gg.y0, y1 := gg.y1, count := fr.count, yPending := fr.yPending, pc := fr.pc,
                  clause := fr.clause, replay := owed, depth := gg.stack.length, marked := gg.marked, peel := fr.peel } ∧
        fragOf gg' f = some { fr with pc := (vectorOf s tm).1, clause := none, st := .issuing, count := 0, yPending := 0, replay := none,
                                          peel := false } ∧
        (∀ n, n ≠ f → fragOf gg' n = fragOf gg n)) ∧
    ((vectorOf s tm).2 ≠ 0 → tm.hawk.handler = none →
      let u := takeHawkTrap s t r
      plumb u ∧ (∀ a, memByte u a = memByte s a) ∧
      listAt u.teams t = some { tm with hawk := { tm.hawk with
        flt := r, handler := some (tm.hawk.pc, tm.hawk.clause), pc := (vectorOf s tm).2, clause := none, st := .issuing } }) ∧
    (gangOf tm g = some gg → fragOf gg f = some fr → ((vectorOf s tm).1 = 0 ∨ gg.handler ≠ none) →
      takeGangTrap s t g f r owed = killTeam (plumbEvent s tm r.cause.toNat) t r.cause.toNat) ∧
    (((vectorOf s tm).2 = 0 ∨ tm.hawk.handler ≠ none) →
      takeHawkTrap s t r = killTeam (plumbEvent s tm r.cause.toNat) t r.cause.toNat) ∧
    (∀ l, launchOf s tm.lid = some l →
      let u := killTeam s t cause
      let again : Prop := l.record.idem = true ∧ tm.escaped = false ∧ tm.relaunches < l.record.retry ∧ l.cancelled = false ∧
        (∀ cl, tm.cluster = some cl → cptOf s tm ≤ clusterPresent s cl ∨ cptOf s tm = 1)
      (again → ∃ tm' : Team, listAt u.teams t = some tm' ∧ tm'.lid = tm.lid ∧ tm'.tid = tm.tid ∧ tm'.st = .queued ∧
        tm'.relaunches = tm.relaunches + 1 ∧ tm'.gangs = List.replicate tm.gangCount (freshGang tm.gentry tm.param) ∧
        tm'.hawk = freshHawk tm.hentry tm.param ∧ tm'.eops = [] ∧ tm'.mops = [] ∧ tm'.loads = []) ∧
      (¬again → (∀ x ∈ u.teams, x.lid ≠ tm.lid) ∧
        ∃ l' : Launch, launchOf u tm.lid = some l' ∧ l'.cancelled = true ∧
          (l.cancelled = false → l'.status = 1 ∧ l'.fcause = cause ∧ l'.fteam = tm.tid)))

/-- Sixteen words, each assembled by hand from the format of its major and its opcode map, decode to the instruction that the
tables give them, and two words read at a header's place decode to the clause headers that they are. A word of major 0x0 or
0xF is illegal where an instruction stands, and so is an unassigned minor. This is a sanity statement: it is about these words
alone. -/
def Obligations.DecodeSampleWords : Prop :=
  decodeWord 0x1A000007 = .instr (.mergeat 7) ∧
  decodeWord 0x20024182 = .instr (.iadd 0 4 131 2) ∧
  decodeWord 0x20418205 = .instr (.iadd 1 3 4 5) ∧
  decodeWord 0x30038306 = .instr (.fadd 7 6 6) ∧
  decodeWord 0x4007037F = .instr (.iaddImm 7 3 0x7F) ∧
  decodeWord 0x5108A0F0 = .instr (.icmpLt 2 0 160 240) ∧
  decodeWord 0x61028300 = .instr (.exp2 5 6) ∧
  decodeWord 0x72034000 = .instr (.ldB32 0 6 128 0) ∧
  decodeWord 0x82200006 = .instr (.fence 1 6) ∧
  decodeWord 0x90880004 = .instr (.brc 2 0 4) ∧
  decodeWord 0x907C0003 = .instr (.bra 3) ∧
  decodeWord 0xA5000003 = .instr (.mwait 3) ∧
  decodeWord 0xB0010000 = .instr (.copy 0 0 2) ∧
  decodeWord 0xC0040480 = .instr (.sort64 0 8 9) ∧
  decodeWord 0xD0020C04 = .instr (.kadd 0 2 3 4) ∧
  decodeWord 0xE6000000 = .instr .snap ∧
  decodeHeader 0x0003F9F0 = .instr (.clauseHeader 0 3 15 4 31 0 0 0) ∧
  decodeHeader 0x008FF3F0 = .instr (.clauseHeader 8 15 15 1 31 0 0 0) ∧
  decodeWord 0x0003F9F0 = .reject .illegalMajor ∧
  decodeWord 0xF0000000 = .reject .illegalMajor ∧
  decodeWord 0x2B000000 = .reject .unassignedMinor

/-- For every instruction that has a word, every operand at every value of its field: a clause header's word read at a header's
place decodes to it, and any other instruction's word decodes to it. The other direction as well: a word that decodes to an
instruction is that instruction's word, at an instruction's place and at a header's place, so that no bit of a word is read by
no instruction (unused fields must be zero, R267). Two instructions that are not clause headers never share a word. An event
of the opcode table has no word, and the statement is empty for it. -/
def Obligations.EncodeDecodeAgree : Prop :=
  (∀ (i : Instr) (w : Word), encode i = some w →
    match i with
    | .clauseHeader .. => decodeHeader w = .instr i
    | _ => decodeWord w = .instr i) ∧
  (∀ (w : Word) (i : Instr), decodeWord w = .instr i → encode i = some w) ∧
  (∀ (w : Word) (i : Instr), decodeHeader w = .instr i → encode i = some w) ∧
  (∀ (i j : Instr) (w : Word), encode i = some w → encode j = some w →
    (∀ w' i', decodeHeader w' = .instr i' → i' ≠ i ∧ i' ≠ j) → i = j)

/-- A core's turn (the agenda's, log 1), not throttled, the first of its kind in the cycle and before its hawks': where none of
its candidates is held by a wait that is tried again, the first slot goes to the first candidate, a starved gang's before
those by priority, and the second to the first candidate by priority of another gang. They issue in that order, two gangs of
one team in ascending gang index, and both are noted as the last issued at their priorities. With one candidate that only
stands in such a wait, the wait is kept. In whatever state a fragment of a running team issues, its word is read in its pool
entry, or in the 128-byte unit that holds it, as the home slice serves the unit where its address translates to memory, and
the unit is kept in the entry. The word decodes to an instruction i (to a clause header where the fragment expects one): exec
runs i at the state in which that fragment is the issuing stream. A word that does not decode traps, at a header or inside a
clause, where a destination field alone is illegal once the hints before it have been judged. -/
def Obligations.StepRunsTheDecodedWordOfAGang : Prop :=
  ∀ (s : State) (rest : List Turn) (core : Nat) (x : Cand) (v : State),
    let u : State := { s with agenda := rest, spent := .core core :: s.spent }
    let run (v : State) (x : Cand) : Host.Outcome State Fault Refusal := runIssue (issueFrag v x.lid x.tid x.g x.f)
    -- The turn.
    (s.agenda = .core core :: rest → s.throttled = false → s.spent.contains (.core core) = false →
      hawkSpent { s with agenda := rest } core = false →
      let starved := urgentCands u core
      let normal := coreCands u core
      let key (x : Cand) : Nat × Nat × Nat × Nat × Nat :=
        (core * 64 + ((teamBy u x.lid x.tid).map (·.prio)).getD 0, x.lid, x.tid, x.g, ((teamBy u x.lid x.tid).map (·.entered)).getD 0)
      ((∀ y ∈ starved ++ normal, ∀ a, run u y = .next a → heldBack u a y = false) →
        (starved ++ normal = [] → step s = .next u) ∧
        (∀ more, starved ++ normal = x :: more →
          ((∀ y ∈ normal, sameGang x y = true) → step s = issueAll [x] (noteOrder u [key x])) ∧
          (∀ y, (normal.find? fun y => !sameGang x y) = some y →
            step s = issueAll (if x.lid = y.lid ∧ x.tid = y.tid ∧ y.g < x.g then [y, x] else [x, y]) (noteOrder u [key x, key y])))) ∧
      (∀ a, starved = [] → normal = [x] → run u x = .next a → heldBack u a x = true → step s = .next a)) ∧
    -- The slots' words, one after the other.
    issueAll [] v = .next v ∧
    (∀ xs, issueAll (x :: xs) v = match run v x with
      | .next a => issueAll xs (noteIssue a x)
      | .fault r => .fault r
      | .refused r => .refused r) ∧
    -- The issue of a fragment.
    (∀ t tm gg fr, teamIdx v x.lid x.tid = some t → listAt v.teams t = some tm → tm.st = .running → gangOf tm x.g = some gg →
      fragOf gg x.f = some fr → waitsAtBoundary v tm gg fr = false →
      let d : State := { v with cur := .gang t x.g x.f }
      let unit := fr.pc.toNat / 128 * 128
      ∀ bytes c,
        ((∃ k, fr.buf.find? (fun b => b.1 == unit) = some (k, bytes)) ∧ c = d ∨
          fr.buf.find? (fun b => b.1 == unit) = none ∧ ∃ pa e, translate d (asidOf d tm) .fetch unit = .at pa e ∧ pa < Config.devLo ∧
            let m := flushQuanta (touchLook d tm.core (asidOf d tm) unit) pa (pa + 128)
            bytes = homeBytes m pa 128 ∧ c = modFrag m t x.g x.f fun fr => { fr with buf := ((unit, bytes) :: fr.buf).take 2 }) →
        let w : Word := BitVec.ofNat 32 (natOf ((bytes.drop (fr.pc.toNat % 128)).take 4))
        (∀ i, fr.clause = none → decodeHeader w = .instr i → run v x = exec i c) ∧
        (∀ i cl, fr.clause = some cl → decodeWord w = .instr i → run v x = exec i c) ∧
        (∀ err, fr.clause = none → decodeHeader w = .reject err →
          run v x = .next (headerTrap c t x.g x.f fr (rejectCause false err) 0 w)) ∧
        (∀ err cl, fr.clause = some cl → decodeWord w = .reject err →
          run v x = .next (if err = .operandField then trapOperandField c t x.g x.f tm fr cl w
            else trapRaw c t x.g x.f fr cl (rejectCause false err) 0 w)))

/-- The hawk's turn (the agenda is the model's, log 1), not throttled and at most the second in this core cycle, of two hawk
cycles, its team running and not held at a step boundary, the hawk issuing or in a wait that is tried again, and its program
counter translating to memory: the four bytes there (log 83) decode to an instruction i, and the step is exec of i at the
state in which the hawk is the issuing stream and its team's swap timer is zero. Bytes that do not decode trap in the hawk.
The turn of an event of the opcode table executes that event, with no stream issuing. While issue slots are withheld, or where
the core has had its turn in this cycle, or one of its hawks, or the hawk its two, a stream's turn is over at once. With no
turn left, the step is the passing of one core cycle, and the cycle count is one more. -/
def Obligations.StepRunsTheDecodedWordOfAHawkOrAnEvent : Prop :=
  ∀ (s : State) (rest : List Turn) (lid tid : Nat) (t : Nat) (tm : Team) (pa : Nat) (e : RangeEntry),
    let u : State := { s with agenda := rest }
    (s.agenda = .hawk lid tid :: rest → s.throttled = false → countP (· == Turn.hawk lid tid) s.spent ≤ 1 →
      teamIdx s lid tid = some t → listAt s.teams t = some tm → tm.st = .running → atBoundary tm = false →
      (tm.hawk.st = .issuing ∨ ∃ w, tm.hawk.st = .waiting w ∧ retried w = true) →
      translate s (asidOf s tm) .fetch tm.hawk.pc.toNat = .at pa e → pa < Config.devLo →
      let d : State := modTeam { u with spent := .hawk lid tid :: s.spent, cur := .hawk t } t fun tm => { tm with timer := 0 }
      let c : State := flushQuanta (touchLook d tm.core (asidOf s tm) tm.hawk.pc.toNat) pa (pa + 4)
      let bytes := homeBytes c pa 4
      (∀ i, decodeBytes tm.hawk.clause.isNone bytes = .instr i → step s = exec i c) ∧
      (∀ err w, decodeBytes tm.hawk.clause.isNone bytes = .reject err → wordOfBytes bytes = some w →
        step s = .next (hawkHeaderTrap c t tm.hawk (rejectCause true err) 0 w))) ∧
    (∀ i, s.agenda = .event i :: rest → encode i = none → step s = exec i { u with cur := .none }) ∧
    (∀ core, s.agenda = .core core :: rest → (s.throttled = true ∨ s.spent.contains (.core core) = true ∨ hawkSpent u core = true) →
      step s = .next u) ∧
    (s.agenda = .hawk lid tid :: rest → (s.throttled = true ∨ 2 ≤ countP (· == Turn.hawk lid tid) s.spent) → step s = .next u) ∧
    (s.agenda = [] → step s = .next (tick s) ∧ (tick s).cycle = s.cycle + 1)

/-- Right after reset: STACK_MAP is 0xFF and LINK_MAP zero, the recovery registers and counts, LID and REJ of every launch port,
the ASID descriptors, trap vectors, discard counts, the plumb-line, boot, measurement, attestation and signwriter registers,
the port and window registers are zero but for LANEOK, which is 0b1111, and SWAPWAIT of every core is 20,000. The next launch
identifier is 1, and no launch, team, frame, range operation or peer request exists. Memory is in its canonical form and lists
nothing: what a byte then reads as, all 192 cores present, and empty caches are the model's choices (logs 2, 3, 4). -/
def Obligations.ResetState : Prop :=
  let s := State.reset
  MemCanonical s ∧ s.mem = [] ∧ s.teams = [] ∧ s.launches = [] ∧ s.frames = [] ∧ s.rangeOps = [] ∧ s.peers = [] ∧
  s.stackMap = 0xFF ∧ s.linkMap = 0 ∧ s.nextLid = 1 ∧
  s.req = false ∧ s.spare = false ∧ s.lost = 0 ∧ s.lpdeg = false ∧ s.cecount = 0 ∧ s.uecount = 0 ∧
  (∀ n, smGet 0 s.portLid n = 0 ∧ smGet 0 s.portRej n = 0 ∧ smGet [] s.queues n = []) ∧
  (∀ core, swapWait s core = 20000) ∧
  (∀ asid, asidDesc s asid = { en := false, rsv := false, tbase := 0, count := 0, tsize := 0 } ∧
    smGet (0, 0) s.vectors asid = (0, 0) ∧ smGet 0 s.discardCnt asid = 0) ∧
  s.isnap = false ∧ s.ievt = false ∧ s.evmask = 0 ∧ s.snapbuf = 0 ∧ s.seq = 0 ∧ s.busy = false ∧ s.drop = 0 ∧
  s.bootdone = false ∧ s.chainok = false ∧ s.measure = List.replicate 8 0 ∧
  s.atbusy = false ∧ s.atdone = false ∧ s.aterr = 0 ∧ s.swst = 0 ∧ s.serial = 0 ∧
  (∀ n, n < 16 → (portOf s n).pstate = 0 ∧ (portOf s n).width = 0 ∧ (portOf s n).laneok = 0xF ∧ (portOf s n).replays = 0 ∧
    (portOf s n).repairs = 0 ∧ (portOf s n).peerid = 0 ∧ (portOf s n).rxbase = 0 ∧ (portOf s n).rxn = 0 ∧ (portOf s n).rxhead = 0) ∧
  (∀ w, (peerWindow s w).wen = false ∧ (smGet noPcie s.pcie w).en = false)

/-- In the canonical form the addresses strictly rise and no entry equals what an unlisted address reads as, so that equal
memories are equal data. For every state whose memory has this form, whichever turn is next (any word of any gang or hawk, any
event, an eviction, a store of a control core, the passing of a cycle), if the step answers a next state then its memory has
the form too: every store, write-back, atomic, engine write, context save, snapshot, peer or PCIe write keeps it. -/
def Obligations.MemoryStaysCanonical : Prop :=
  ∀ (s t : State), MemCanonical s → step s = .next t → MemCanonical t

/-- In a gang's clause whose hints before SELP are ones that it accepts: without an operand-form IMMX, or with a predicate of 24
or above, a rounding mode, a saturation or an element field, SELP traps with ILLEGAL_OPERAND. With an IMMX that names a
predicate below 24 and has those fields zero, and where the other checks of the word pass, every active and every helper lane
takes the bits of the first source where its own predicate is true and those of the second elsewhere, the second being SC
where SB is 127. The last-result file is updated, and nothing else changes but the destination's tag. -/
def Obligations.SelpChoosesByItsPredicate : Prop :=
  ∀ (s : State) (c : GCtx) (d : BitVec 7) (a : BitVec 8) (b : BitVec 7), gangCtx s = some c → badHint acceptsOper c.cl.hints [] = none →
    ((∀ o, operHint c.cl.hints = some o → 24 ≤ o.pc ∨ o.rm ≠ 0 ∨ o.sat = true ∨ o.el ≠ 0) →
      exec (.selp d a b) s = .next (trapAll s c (.selp d a b) .illegalOperand c.act 0)) ∧
    (∀ o, operHint c.cl.hints = some o → o.pc < 24 → o.rm = 0 → o.sat = false → o.el = 0 →
      GangRuns s c (fun c =>
        let w := v3Info c { useNone with pc := true } d a (some b) false
        { w with reads := .p o.pc :: w.reads }) →
      LaneOut (.selp d a b) s c d fun l =>
        if inMask (pReg c.gg o.pc) l then srcLane s c a.toNat l else srcLane s c (if b = 127 then o.sc else b.toNat) l)
end

