-- ==== Sys2Proof/Laws/Smap.lean ====
section
/-!
SUPPORT. Maps and lists: what a read gives after a write, and that a write keeps the canonical form.
-/
namespace Sys2Proof.Machine

variable {α : Type}

theorem smAbove_weaken [DecidableEq α] (d : α) (m : Smap α) (k : Nat) (lo : Option Nat)
    (h : smAbove d (some k) m = true) (hk : ∀ b, lo = some b → b ≤ k) : smAbove d lo m = true := by
  cases m with
  | nil => cases lo <;> rfl
  | cons e m =>
    obtain ⟨k', v⟩ := e
    cases lo with
    | none => simp [smAbove] at h ⊢; exact ⟨h.1.2, h.2⟩
    | some b =>
      have := hk b rfl
      simp [smAbove] at h ⊢
      exact ⟨⟨by omega, h.1.2⟩, h.2⟩

theorem smAbove_erase [DecidableEq α] (d : α) : ∀ (m : Smap α) (lo : Option Nat) (k : Nat),
    smAbove d lo m = true → smAbove d lo (smErase m k) = true
  | [], _, _, h => h
  | (k', v) :: m, lo, k, h => by
    simp only [smAbove, Bool.and_eq_true] at h
    simp only [smErase]
    split
    · refine smAbove_erase d m lo k (smAbove_weaken d m k' lo h.2 fun b hb => ?_)
      subst hb
      simpa using Nat.le_of_lt (by simpa using h.1.1)
    · simp only [smAbove, Bool.and_eq_true]
      exact ⟨h.1, smAbove_erase d m (some k') k h.2⟩

theorem smAbove_insert [DecidableEq α] (d : α) : ∀ (m : Smap α) (lo : Option Nat) (k : Nat) (v : α), v ≠ d →
    (∀ b, lo = some b → b < k) → smAbove d lo m = true → smAbove d lo (smInsert m k v) = true
  | [], lo, k, v, hv, hlo, _ => by
    cases lo with
    | none => simp [smInsert, smAbove, hv]
    | some b => simp [smInsert, smAbove, hv, hlo b rfl]
  | (k', v') :: m, lo, k, v, hv, hlo, h => by
    simp only [smAbove, Bool.and_eq_true] at h
    simp only [smInsert]
    split
    · rename_i hlt
      have hm : smAbove d (some k) ((k', v') :: m) = true := by
        simp only [smAbove, Bool.and_eq_true]
        exact ⟨⟨by simpa using hlt, h.1.2⟩, h.2⟩
      cases lo with
      | none => simp [smAbove, hv] at hm ⊢; exact hm
      | some b =>
        have := hlo b rfl
        simp [smAbove, hv, this] at hm ⊢
        exact hm
    split
    · rename_i heq
      subst heq
      have hm := h.2
      cases lo with
      | none => simp [smAbove, hv, hm]
      | some b =>
        have := hlo b rfl
        simp [smAbove, hv, this, hm]
    · simp only [smAbove, Bool.and_eq_true]
      exact ⟨h.1, smAbove_insert d m (some k') k v hv (fun b hb => by cases hb; omega) h.2⟩

/-- A write keeps the canonical form. -/
theorem smWf_set [DecidableEq α] (d : α) (m : Smap α) (k : Nat) (v : α) (h : smWf d m = true) : smWf d (smSet d m k v) = true := by
  unfold smSet smWf at *
  split
  · exact smAbove_erase d m none k h
  · exact smAbove_insert d m none k v ‹_› (by simp) h

theorem smGet_erase (d : α) : ∀ (m : Smap α) (k a : Nat), smGet d (smErase m k) a = if a = k then d else smGet d m a
  | [], k, a => by simp [smErase, smGet]
  | (k', v) :: m, k, a => by
    have ih := smGet_erase d m k a
    simp only [smErase]
    split
    · simp only [ih, smGet]
      repeat' split
      all_goals first | rfl | omega
    · simp only [smGet, ih]
      repeat' split
      all_goals first | rfl | omega

theorem smGet_insert (d : α) : ∀ (m : Smap α) (k a : Nat) (v : α),
    smGet d (smInsert m k v) a = if a = k then v else smGet d m a
  | [], k, a, v => by simp [smInsert, smGet]
  | (k', v') :: m, k, a, v => by
    have ih := smGet_insert d m k a v
    simp only [smInsert]
    split
    · simp only [smGet]
    split
    · simp only [smGet]
      repeat' split
      all_goals first | rfl | omega
    · simp only [smGet, ih]
      repeat' split
      all_goals first | rfl | omega

/-- A read after a write: the value written at its key, the old value elsewhere. -/
theorem smGet_set [DecidableEq α] (d : α) (m : Smap α) (k a : Nat) (v : α) :
    smGet d (smSet d m k v) a = if a = k then v else smGet d m a := by
  unfold smSet
  split
  · rename_i hv
    rw [smGet_erase, hv]
  · exact smGet_insert d m k a v

@[simp] theorem smGet_set_self [DecidableEq α] (d : α) (m : Smap α) (k : Nat) (v : α) : smGet d (smSet d m k v) k = v := by
  simp [smGet_set]

theorem smGet_set_other [DecidableEq α] (d : α) (m : Smap α) {k a : Nat} (v : α) (h : a ≠ k) :
    smGet d (smSet d m k v) a = smGet d m a := by
  simp [smGet_set, h]

theorem listAt_modify (f : α → α) : ∀ (l : List α) (n k : Nat),
    listAt (listModify f l n) k = if k = n then (listAt l k).map f else listAt l k
  | [], n, k => by simp [listModify, listAt]
  | y :: l, 0, 0 => by simp [listModify, listAt]
  | y :: l, 0, k + 1 => by simp [listModify, listAt]
  | y :: l, n + 1, 0 => by simp [listModify, listAt]
  | y :: l, n + 1, k + 1 => by simp [listModify, listAt, listAt_modify f l n k]

@[simp] theorem listAt_modify_self (f : α → α) (l : List α) (n : Nat) : listAt (listModify f l n) n = (listAt l n).map f := by
  simp [listAt_modify]

theorem listAt_modify_other (f : α → α) (l : List α) {n k : Nat} (h : k ≠ n) : listAt (listModify f l n) k = listAt l k := by
  simp [listAt_modify, h]

@[simp] theorem listModify_modify (f h : α → α) : ∀ (l : List α) (n : Nat),
    listModify h (listModify f l n) n = listModify (fun x => h (f x)) l n
  | [], _ => rfl
  | y :: l, 0 => rfl
  | y :: l, n + 1 => by simp [listModify, listModify_modify f h l n]

theorem listAt_set_self (x : α) : ∀ (l : List α) (n : Nat), listAt (listSet l n x) n = (listAt l n).map fun _ => x
  | [], _ => rfl
  | _ :: _, 0 => rfl
  | _ :: l, n + 1 => listAt_set_self x l n

/-- Two updates of one element agree where they agree on the element. -/
theorem listModify_congr {f h : α → α} : ∀ (l : List α) (n : Nat), (∀ x, listAt l n = some x → f x = h x) →
    listModify f l n = listModify h l n
  | [], _, _ => rfl
  | y :: l, 0, H => by simp [listModify, H y rfl]
  | y :: l, n + 1, H => by simp [listModify, listModify_congr l n H]

@[simp] theorem listModify_length (f : α → α) : ∀ (l : List α) (n : Nat), (listModify f l n).length = l.length
  | [], _ => rfl
  | y :: l, 0 => rfl
  | y :: l, n + 1 => by simp [listModify, listModify_length f l n]

end Sys2Proof.Machine
end

