-- ==== Sys2Proof/Laws/Bits.lean ====
section
/-!
SUPPORT. Lane masks, lane lists and byte strings: what each helper reads as.
-/
namespace Sys2Proof.Machine

theorem listAt_map {α β : Type} (f : α → β) : ∀ (l : List α) (n : Nat), listAt (l.map f) n = (listAt l n).map f
  | [], _ => rfl
  | _ :: _, 0 => rfl
  | _ :: l, n + 1 => listAt_map f l n

theorem listAt_eq_getElem? {α : Type} : ∀ (l : List α) (n : Nat), listAt l n = l[n]?
  | [], _ => by simp [listAt]
  | _ :: _, 0 => by simp [listAt]
  | _ :: l, n + 1 => by simp [listAt, listAt_eq_getElem? l n]

theorem laneOf_mkLanes (f : Nat → Word) (l : Nat) (h : l < 64) : laneOf (mkLanes f) l = f l := by
  simp [laneOf, mkLanes, laneIdx, listAt_eq_getElem?, h]

theorem laneOf_mergeLanes (m : Mask) (new old : Lanes) (l : Nat) (h : l < 64) :
    laneOf (mergeLanes m new old) l = if inMask m l then laneOf new l else laneOf old l := by
  simp [mergeLanes, laneOf_mkLanes, h]

theorem listAt_replicate {α : Type} (x : α) : ∀ n k, listAt (List.replicate n x) k = if k < n then some x else none
  | 0, k => by simp [listAt]
  | n + 1, 0 => by simp [List.replicate_succ, listAt]
  | n + 1, k + 1 => by simp [List.replicate_succ, listAt, listAt_replicate x n k]

theorem laneOf_zeroLanes (l : Nat) : laneOf zeroLanes l = 0 := by
  unfold laneOf zeroLanes
  rw [listAt_replicate]
  split <;> rfl

theorem inMask_foldr (p : Nat → Bool) (k : Nat) (hk : k < 64) : ∀ ls : List Nat,
    inMask (ls.foldr (fun l acc => if p l then acc ||| (1#64 <<< l) else acc) 0#64) k = (ls.contains k && p k)
  | [] => by simp [inMask]
  | l :: ls => by
    have ih := inMask_foldr p k hk ls
    simp only [inMask] at ih
    by_cases hl : k = l
    · subst hl
      by_cases hp : p k <;> simp_all [inMask]
    · have : (1#64 <<< l).getLsbD k = false := by
        simp [hk]
        omega
      by_cases hp : p l <;> simp_all [inMask]

/-- The mask of a test holds a lane exactly where the test does. -/
theorem inMask_maskOf (p : Nat → Bool) (l : Nat) (h : l < 64) : inMask (maskOf p) l = p l := by
  simp [maskOf, inMask_foldr p l h, laneIdx, h]

theorem inMask_and (a b : Mask) (l : Nat) : inMask (a &&& b) l = (inMask a l && inMask b l) := by simp [inMask]

theorem inMask_or (a b : Mask) (l : Nat) : inMask (a ||| b) l = (inMask a l || inMask b l) := by simp [inMask]

theorem inMask_not (a : Mask) (l : Nat) (h : l < 64) : inMask (~~~a) l = !inMask a l := by simp [inMask, h]

/-- A merged mask: the new bit in the lanes of the mask, the old bit elsewhere. -/
theorem inMask_mergeMask (m new old : Mask) (l : Nat) (h : l < 64) :
    inMask (mergeMask m new old) l = if inMask m l then inMask new l else inMask old l := by
  unfold mergeMask
  rw [inMask_or, inMask_and, inMask_and, inMask_not _ _ h]
  cases inMask m l <;> simp

@[simp] theorem bytesOf_length : ∀ n x, (bytesOf n x).length = n
  | 0, _ => rfl
  | n + 1, x => by simp [bytesOf, bytesOf_length n]

/-- A number laid out as bytes reads back modulo the width. -/
theorem natOf_bytesOf : ∀ n x, natOf (bytesOf n x) = x % 256 ^ n
  | 0, x => by simp [bytesOf, natOf, Nat.mod_one]
  | n + 1, x => by
    have h : x % (256 * 256 ^ n) = x % 256 + 256 * (x / 256 % 256 ^ n) := Nat.mod_mul
    simp [bytesOf, natOf, natOf_bytesOf n, Nat.pow_succ, Nat.mul_comm (256 ^ n) 256, h]

end Sys2Proof.Machine
end

