-- ==== Sys2Proof/Laws/Fetch.lean ====
section
/-!
SUPPORT. What a fetch answers: from a unit that the pool entry holds, from memory, and for a hawk.
-/
namespace Sys2Proof.Machine

/-- A unit that the fragment's pool entry holds gives its word and changes nothing (R60). -/
theorem fetchGang_held {s : State} {tm : Team} {t g f : Nat} {fr : Frag} {x : Nat × List Byte}
    (h : (fr.buf.find? fun b => b.1 == fr.pc.toNat / 128 * 128) = some x) :
    fetchGang s tm t g f fr = (s, .word (unitWord fr.pc.toNat x.2)) := by
  simp [fetchGang, h]

/-- A unit that the entry does not hold, in memory: the entry takes it as the home slice serves it (R59, R60). -/
theorem fetchGang_filled {s : State} {tm : Team} {t g f : Nat} {fr : Frag} {pa : Nat} {e : RangeEntry}
    (h : (fr.buf.find? fun b => b.1 == fr.pc.toNat / 128 * 128) = none)
    (ht : translate s (asidOf s tm) .fetch (fr.pc.toNat / 128 * 128) = .at pa e) (hp : pa < Config.devLo) :
    let unit := fr.pc.toNat / 128 * 128
    let m := flushQuanta (touchLook s tm.core (asidOf s tm) unit) pa (pa + 128)
    let bytes := homeBytes m pa 128
    fetchGang s tm t g f fr =
      (modFrag m t g f fun fr => { fr with buf := ((unit, bytes) :: fr.buf).take 2 }, .word (unitWord fr.pc.toNat bytes)) := by
  simp only [fetchGang, h, fetchBytes, ht, hp, if_true]

/-- A hawk's word in memory, as the home slice serves it when the word issues. -/
theorem fetchHawk_memory {s : State} {tm : Team} {pc : DWord} {pa : Nat} {e : RangeEntry}
    (ht : translate s (asidOf s tm) .fetch pc.toNat = .at pa e) (hp : pa < Config.devLo) :
    let m := flushQuanta (touchLook s tm.core (asidOf s tm) pc.toNat) pa (pa + 4)
    fetchHawk s tm pc = (m, .word (BitVec.ofNat 32 (natOf (homeBytes m pa 4)))) := by
  simp only [fetchHawk, fetchBytes, ht, hp, if_true]

end Sys2Proof.Machine
end

