-- ==== Sys2Proof/Laws/State.lean ====
section
/-!
SUPPORT. What each named update of the state leaves in each field, by rfl: one lemma for each field and update, so that no proof
unfolds a record update.
-/
namespace Sys2Proof.Machine

/-! ### modTeam -/

@[simp] theorem modTeam_agenda (s : State) (t : Nat) (f : Team → Team) : (modTeam s t f).agenda = s.agenda := rfl
@[simp] theorem modTeam_cur (s : State) (t : Nat) (f : Team → Team) : (modTeam s t f).cur = s.cur := rfl
@[simp] theorem modTeam_spent (s : State) (t : Nat) (f : Team → Team) : (modTeam s t f).spent = s.spent := rfl
@[simp] theorem modTeam_cycle (s : State) (t : Nat) (f : Team → Team) : (modTeam s t f).cycle = s.cycle := rfl
@[simp] theorem modTeam_outputs (s : State) (t : Nat) (f : Team → Team) : (modTeam s t f).outputs = s.outputs := rfl
@[simp] theorem modTeam_mem (s : State) (t : Nat) (f : Team → Team) : (modTeam s t f).mem = s.mem := rfl
@[simp] theorem modTeam_poison (s : State) (t : Nat) (f : Team → Team) : (modTeam s t f).poison = s.poison := rfl
@[simp] theorem modTeam_l2 (s : State) (t : Nat) (f : Team → Team) : (modTeam s t f).l2 = s.l2 := rfl
@[simp] theorem modTeam_l1 (s : State) (t : Nat) (f : Team → Team) : (modTeam s t f).l1 = s.l1 := rfl
@[simp] theorem modTeam_look (s : State) (t : Nat) (f : Team → Team) : (modTeam s t f).look = s.look := rfl
@[simp] theorem modTeam_skimTags (s : State) (t : Nat) (f : Team → Team) : (modTeam s t f).skimTags = s.skimTags := rfl
@[simp] theorem modTeam_predict (s : State) (t : Nat) (f : Team → Team) : (modTeam s t f).predict = s.predict := rfl
@[simp] theorem modTeam_tokHolder (s : State) (t : Nat) (f : Team → Team) : (modTeam s t f).tokHolder = s.tokHolder := rfl
@[simp] theorem modTeam_track (s : State) (t : Nat) (f : Team → Team) : (modTeam s t f).track = s.track := rfl
@[simp] theorem modTeam_quanta (s : State) (t : Nat) (f : Team → Team) : (modTeam s t f).quanta = s.quanta := rfl
@[simp] theorem modTeam_coreMap (s : State) (t : Nat) (f : Team → Team) : (modTeam s t f).coreMap = s.coreMap := rfl
@[simp] theorem modTeam_recovering (s : State) (t : Nat) (f : Team → Team) : (modTeam s t f).recovering = s.recovering := rfl
@[simp] theorem modTeam_sparesUsed (s : State) (t : Nat) (f : Team → Team) : (modTeam s t f).sparesUsed = s.sparesUsed := rfl
@[simp] theorem modTeam_lostCores (s : State) (t : Nat) (f : Team → Team) : (modTeam s t f).lostCores = s.lostCores := rfl
@[simp] theorem modTeam_stackMap (s : State) (t : Nat) (f : Team → Team) : (modTeam s t f).stackMap = s.stackMap := rfl
@[simp] theorem modTeam_linkMap (s : State) (t : Nat) (f : Team → Team) : (modTeam s t f).linkMap = s.linkMap := rfl
@[simp] theorem modTeam_req (s : State) (t : Nat) (f : Team → Team) : (modTeam s t f).req = s.req := rfl
@[simp] theorem modTeam_spare (s : State) (t : Nat) (f : Team → Team) : (modTeam s t f).spare = s.spare := rfl
@[simp] theorem modTeam_lost (s : State) (t : Nat) (f : Team → Team) : (modTeam s t f).lost = s.lost := rfl
@[simp] theorem modTeam_lpdeg (s : State) (t : Nat) (f : Team → Team) : (modTeam s t f).lpdeg = s.lpdeg := rfl
@[simp] theorem modTeam_cecount (s : State) (t : Nat) (f : Team → Team) : (modTeam s t f).cecount = s.cecount := rfl
@[simp] theorem modTeam_uecount (s : State) (t : Nat) (f : Team → Team) : (modTeam s t f).uecount = s.uecount := rfl
@[simp] theorem modTeam_portLid (s : State) (t : Nat) (f : Team → Team) : (modTeam s t f).portLid = s.portLid := rfl
@[simp] theorem modTeam_portRej (s : State) (t : Nat) (f : Team → Team) : (modTeam s t f).portRej = s.portRej := rfl
@[simp] theorem modTeam_queues (s : State) (t : Nat) (f : Team → Team) : (modTeam s t f).queues = s.queues := rfl
@[simp] theorem modTeam_launches (s : State) (t : Nat) (f : Team → Team) : (modTeam s t f).launches = s.launches := rfl
@[simp] theorem modTeam_completed (s : State) (t : Nat) (f : Team → Team) : (modTeam s t f).completed = s.completed := rfl
@[simp] theorem modTeam_issued (s : State) (t : Nat) (f : Team → Team) : (modTeam s t f).issued = s.issued := rfl
@[simp] theorem modTeam_nextLid (s : State) (t : Nat) (f : Team → Team) : (modTeam s t f).nextLid = s.nextLid := rfl
@[simp] theorem modTeam_teams (s : State) (t : Nat) (f : Team → Team) : (modTeam s t f).teams = listModify f s.teams t := rfl
@[simp] theorem modTeam_stamp (s : State) (t : Nat) (f : Team → Team) : (modTeam s t f).stamp = s.stamp := rfl
@[simp] theorem modTeam_swapwait (s : State) (t : Nat) (f : Team → Team) : (modTeam s t f).swapwait = s.swapwait := rfl
@[simp] theorem modTeam_swapwaitNew (s : State) (t : Nat) (f : Team → Team) : (modTeam s t f).swapwaitNew = s.swapwaitNew := rfl
@[simp] theorem modTeam_asids (s : State) (t : Nat) (f : Team → Team) : (modTeam s t f).asids = s.asids := rfl
@[simp] theorem modTeam_vectors (s : State) (t : Nat) (f : Team → Team) : (modTeam s t f).vectors = s.vectors := rfl
@[simp] theorem modTeam_discardCnt (s : State) (t : Nat) (f : Team → Team) : (modTeam s t f).discardCnt = s.discardCnt := rfl
@[simp] theorem modTeam_rangeOps (s : State) (t : Nat) (f : Team → Team) : (modTeam s t f).rangeOps = s.rangeOps := rfl
@[simp] theorem modTeam_nextRange (s : State) (t : Nat) (f : Team → Team) : (modTeam s t f).nextRange = s.nextRange := rfl
@[simp] theorem modTeam_trowel (s : State) (t : Nat) (f : Team → Team) : (modTeam s t f).trowel = s.trowel := rfl
@[simp] theorem modTeam_trref (s : State) (t : Nat) (f : Team → Team) : (modTeam s t f).trref = s.trref := rfl
@[simp] theorem modTeam_isnap (s : State) (t : Nat) (f : Team → Team) : (modTeam s t f).isnap = s.isnap := rfl
@[simp] theorem modTeam_ievt (s : State) (t : Nat) (f : Team → Team) : (modTeam s t f).ievt = s.ievt := rfl
@[simp] theorem modTeam_evmask (s : State) (t : Nat) (f : Team → Team) : (modTeam s t f).evmask = s.evmask := rfl
@[simp] theorem modTeam_snapbuf (s : State) (t : Nat) (f : Team → Team) : (modTeam s t f).snapbuf = s.snapbuf := rfl
@[simp] theorem modTeam_seq (s : State) (t : Nat) (f : Team → Team) : (modTeam s t f).seq = s.seq := rfl
@[simp] theorem modTeam_busy (s : State) (t : Nat) (f : Team → Team) : (modTeam s t f).busy = s.busy := rfl
@[simp] theorem modTeam_drop (s : State) (t : Nat) (f : Team → Team) : (modTeam s t f).drop = s.drop := rfl
@[simp] theorem modTeam_latched (s : State) (t : Nat) (f : Team → Team) : (modTeam s t f).latched = s.latched := rfl
@[simp] theorem modTeam_bootdone (s : State) (t : Nat) (f : Team → Team) : (modTeam s t f).bootdone = s.bootdone := rfl
@[simp] theorem modTeam_chainok (s : State) (t : Nat) (f : Team → Team) : (modTeam s t f).chainok = s.chainok := rfl
@[simp] theorem modTeam_measure (s : State) (t : Nat) (f : Team → Team) : (modTeam s t f).measure = s.measure := rfl
@[simp] theorem modTeam_signatures (s : State) (t : Nat) (f : Team → Team) : (modTeam s t f).signatures = s.signatures := rfl
@[simp] theorem modTeam_atbusy (s : State) (t : Nat) (f : Team → Team) : (modTeam s t f).atbusy = s.atbusy := rfl
@[simp] theorem modTeam_atdone (s : State) (t : Nat) (f : Team → Team) : (modTeam s t f).atdone = s.atdone := rfl
@[simp] theorem modTeam_aterr (s : State) (t : Nat) (f : Team → Team) : (modTeam s t f).aterr = s.aterr := rfl
@[simp] theorem modTeam_atbuf (s : State) (t : Nat) (f : Team → Team) : (modTeam s t f).atbuf = s.atbuf := rfl
@[simp] theorem modTeam_swst (s : State) (t : Nat) (f : Team → Team) : (modTeam s t f).swst = s.swst := rfl
@[simp] theorem modTeam_serial (s : State) (t : Nat) (f : Team → Team) : (modTeam s t f).serial = s.serial := rfl
@[simp] theorem modTeam_frames (s : State) (t : Nat) (f : Team → Team) : (modTeam s t f).frames = s.frames := rfl
@[simp] theorem modTeam_batchNo (s : State) (t : Nat) (f : Team → Team) : (modTeam s t f).batchNo = s.batchNo := rfl
@[simp] theorem modTeam_links (s : State) (t : Nat) (f : Team → Team) : (modTeam s t f).links = s.links := rfl
@[simp] theorem modTeam_windows (s : State) (t : Nat) (f : Team → Team) : (modTeam s t f).windows = s.windows := rfl
@[simp] theorem modTeam_peers (s : State) (t : Nat) (f : Team → Team) : (modTeam s t f).peers = s.peers := rfl
@[simp] theorem modTeam_slotClears (s : State) (t : Nat) (f : Team → Team) : (modTeam s t f).slotClears = s.slotClears := rfl
@[simp] theorem modTeam_nextPeer (s : State) (t : Nat) (f : Team → Team) : (modTeam s t f).nextPeer = s.nextPeer := rfl
@[simp] theorem modTeam_pcie (s : State) (t : Nat) (f : Team → Team) : (modTeam s t f).pcie = s.pcie := rfl
@[simp] theorem modTeam_throttled (s : State) (t : Nat) (f : Team → Team) : (modTeam s t f).throttled = s.throttled := rfl
@[simp] theorem modTeam_forced (s : State) (t : Nat) (f : Team → Team) : (modTeam s t f).forced = s.forced := rfl
@[simp] theorem modTeam_lastGang (s : State) (t : Nat) (f : Team → Team) : (modTeam s t f).lastGang = s.lastGang := rfl
@[simp] theorem modTeam_freeCtr (s : State) (t : Nat) (f : Team → Team) : (modTeam s t f).freeCtr = s.freeCtr := rfl

/-! ### modGang -/

@[simp] theorem modGang_agenda (s : State) (t g : Nat) (f : Gang → Gang) : (modGang s t g f).agenda = s.agenda := rfl
@[simp] theorem modGang_cur (s : State) (t g : Nat) (f : Gang → Gang) : (modGang s t g f).cur = s.cur := rfl
@[simp] theorem modGang_spent (s : State) (t g : Nat) (f : Gang → Gang) : (modGang s t g f).spent = s.spent := rfl
@[simp] theorem modGang_cycle (s : State) (t g : Nat) (f : Gang → Gang) : (modGang s t g f).cycle = s.cycle := rfl
@[simp] theorem modGang_outputs (s : State) (t g : Nat) (f : Gang → Gang) : (modGang s t g f).outputs = s.outputs := rfl
@[simp] theorem modGang_mem (s : State) (t g : Nat) (f : Gang → Gang) : (modGang s t g f).mem = s.mem := rfl
@[simp] theorem modGang_poison (s : State) (t g : Nat) (f : Gang → Gang) : (modGang s t g f).poison = s.poison := rfl
@[simp] theorem modGang_l2 (s : State) (t g : Nat) (f : Gang → Gang) : (modGang s t g f).l2 = s.l2 := rfl
@[simp] theorem modGang_l1 (s : State) (t g : Nat) (f : Gang → Gang) : (modGang s t g f).l1 = s.l1 := rfl
@[simp] theorem modGang_look (s : State) (t g : Nat) (f : Gang → Gang) : (modGang s t g f).look = s.look := rfl
@[simp] theorem modGang_skimTags (s : State) (t g : Nat) (f : Gang → Gang) : (modGang s t g f).skimTags = s.skimTags := rfl
@[simp] theorem modGang_predict (s : State) (t g : Nat) (f : Gang → Gang) : (modGang s t g f).predict = s.predict := rfl
@[simp] theorem modGang_tokHolder (s : State) (t g : Nat) (f : Gang → Gang) : (modGang s t g f).tokHolder = s.tokHolder := rfl
@[simp] theorem modGang_track (s : State) (t g : Nat) (f : Gang → Gang) : (modGang s t g f).track = s.track := rfl
@[simp] theorem modGang_quanta (s : State) (t g : Nat) (f : Gang → Gang) : (modGang s t g f).quanta = s.quanta := rfl
@[simp] theorem modGang_coreMap (s : State) (t g : Nat) (f : Gang → Gang) : (modGang s t g f).coreMap = s.coreMap := rfl
@[simp] theorem modGang_recovering (s : State) (t g : Nat) (f : Gang → Gang) : (modGang s t g f).recovering = s.recovering := rfl
@[simp] theorem modGang_sparesUsed (s : State) (t g : Nat) (f : Gang → Gang) : (modGang s t g f).sparesUsed = s.sparesUsed := rfl
@[simp] theorem modGang_lostCores (s : State) (t g : Nat) (f : Gang → Gang) : (modGang s t g f).lostCores = s.lostCores := rfl
@[simp] theorem modGang_stackMap (s : State) (t g : Nat) (f : Gang → Gang) : (modGang s t g f).stackMap = s.stackMap := rfl
@[simp] theorem modGang_linkMap (s : State) (t g : Nat) (f : Gang → Gang) : (modGang s t g f).linkMap = s.linkMap := rfl
@[simp] theorem modGang_req (s : State) (t g : Nat) (f : Gang → Gang) : (modGang s t g f).req = s.req := rfl
@[simp] theorem modGang_spare (s : State) (t g : Nat) (f : Gang → Gang) : (modGang s t g f).spare = s.spare := rfl
@[simp] theorem modGang_lost (s : State) (t g : Nat) (f : Gang → Gang) : (modGang s t g f).lost = s.lost := rfl
@[simp] theorem modGang_lpdeg (s : State) (t g : Nat) (f : Gang → Gang) : (modGang s t g f).lpdeg = s.lpdeg := rfl
@[simp] theorem modGang_cecount (s : State) (t g : Nat) (f : Gang → Gang) : (modGang s t g f).cecount = s.cecount := rfl
@[simp] theorem modGang_uecount (s : State) (t g : Nat) (f : Gang → Gang) : (modGang s t g f).uecount = s.uecount := rfl
@[simp] theorem modGang_portLid (s : State) (t g : Nat) (f : Gang → Gang) : (modGang s t g f).portLid = s.portLid := rfl
@[simp] theorem modGang_portRej (s : State) (t g : Nat) (f : Gang → Gang) : (modGang s t g f).portRej = s.portRej := rfl
@[simp] theorem modGang_queues (s : State) (t g : Nat) (f : Gang → Gang) : (modGang s t g f).queues = s.queues := rfl
@[simp] theorem modGang_launches (s : State) (t g : Nat) (f : Gang → Gang) : (modGang s t g f).launches = s.launches := rfl
@[simp] theorem modGang_completed (s : State) (t g : Nat) (f : Gang → Gang) : (modGang s t g f).completed = s.completed := rfl
@[simp] theorem modGang_issued (s : State) (t g : Nat) (f : Gang → Gang) : (modGang s t g f).issued = s.issued := rfl
@[simp] theorem modGang_nextLid (s : State) (t g : Nat) (f : Gang → Gang) : (modGang s t g f).nextLid = s.nextLid := rfl
@[simp] theorem modGang_teams (s : State) (t g : Nat) (f : Gang → Gang) : (modGang s t g f).teams = listModify (fun tm => { tm with gangs := listModify f tm.gangs g }) s.teams t := rfl
@[simp] theorem modGang_stamp (s : State) (t g : Nat) (f : Gang → Gang) : (modGang s t g f).stamp = s.stamp := rfl
@[simp] theorem modGang_swapwait (s : State) (t g : Nat) (f : Gang → Gang) : (modGang s t g f).swapwait = s.swapwait := rfl
@[simp] theorem modGang_swapwaitNew (s : State) (t g : Nat) (f : Gang → Gang) : (modGang s t g f).swapwaitNew = s.swapwaitNew := rfl
@[simp] theorem modGang_asids (s : State) (t g : Nat) (f : Gang → Gang) : (modGang s t g f).asids = s.asids := rfl
@[simp] theorem modGang_vectors (s : State) (t g : Nat) (f : Gang → Gang) : (modGang s t g f).vectors = s.vectors := rfl
@[simp] theorem modGang_discardCnt (s : State) (t g : Nat) (f : Gang → Gang) : (modGang s t g f).discardCnt = s.discardCnt := rfl
@[simp] theorem modGang_rangeOps (s : State) (t g : Nat) (f : Gang → Gang) : (modGang s t g f).rangeOps = s.rangeOps := rfl
@[simp] theorem modGang_nextRange (s : State) (t g : Nat) (f : Gang → Gang) : (modGang s t g f).nextRange = s.nextRange := rfl
@[simp] theorem modGang_trowel (s : State) (t g : Nat) (f : Gang → Gang) : (modGang s t g f).trowel = s.trowel := rfl
@[simp] theorem modGang_trref (s : State) (t g : Nat) (f : Gang → Gang) : (modGang s t g f).trref = s.trref := rfl
@[simp] theorem modGang_isnap (s : State) (t g : Nat) (f : Gang → Gang) : (modGang s t g f).isnap = s.isnap := rfl
@[simp] theorem modGang_ievt (s : State) (t g : Nat) (f : Gang → Gang) : (modGang s t g f).ievt = s.ievt := rfl
@[simp] theorem modGang_evmask (s : State) (t g : Nat) (f : Gang → Gang) : (modGang s t g f).evmask = s.evmask := rfl
@[simp] theorem modGang_snapbuf (s : State) (t g : Nat) (f : Gang → Gang) : (modGang s t g f).snapbuf = s.snapbuf := rfl
@[simp] theorem modGang_seq (s : State) (t g : Nat) (f : Gang → Gang) : (modGang s t g f).seq = s.seq := rfl
@[simp] theorem modGang_busy (s : State) (t g : Nat) (f : Gang → Gang) : (modGang s t g f).busy = s.busy := rfl
@[simp] theorem modGang_drop (s : State) (t g : Nat) (f : Gang → Gang) : (modGang s t g f).drop = s.drop := rfl
@[simp] theorem modGang_latched (s : State) (t g : Nat) (f : Gang → Gang) : (modGang s t g f).latched = s.latched := rfl
@[simp] theorem modGang_bootdone (s : State) (t g : Nat) (f : Gang → Gang) : (modGang s t g f).bootdone = s.bootdone := rfl
@[simp] theorem modGang_chainok (s : State) (t g : Nat) (f : Gang → Gang) : (modGang s t g f).chainok = s.chainok := rfl
@[simp] theorem modGang_measure (s : State) (t g : Nat) (f : Gang → Gang) : (modGang s t g f).measure = s.measure := rfl
@[simp] theorem modGang_signatures (s : State) (t g : Nat) (f : Gang → Gang) : (modGang s t g f).signatures = s.signatures := rfl
@[simp] theorem modGang_atbusy (s : State) (t g : Nat) (f : Gang → Gang) : (modGang s t g f).atbusy = s.atbusy := rfl
@[simp] theorem modGang_atdone (s : State) (t g : Nat) (f : Gang → Gang) : (modGang s t g f).atdone = s.atdone := rfl
@[simp] theorem modGang_aterr (s : State) (t g : Nat) (f : Gang → Gang) : (modGang s t g f).aterr = s.aterr := rfl
@[simp] theorem modGang_atbuf (s : State) (t g : Nat) (f : Gang → Gang) : (modGang s t g f).atbuf = s.atbuf := rfl
@[simp] theorem modGang_swst (s : State) (t g : Nat) (f : Gang → Gang) : (modGang s t g f).swst = s.swst := rfl
@[simp] theorem modGang_serial (s : State) (t g : Nat) (f : Gang → Gang) : (modGang s t g f).serial = s.serial := rfl
@[simp] theorem modGang_frames (s : State) (t g : Nat) (f : Gang → Gang) : (modGang s t g f).frames = s.frames := rfl
@[simp] theorem modGang_batchNo (s : State) (t g : Nat) (f : Gang → Gang) : (modGang s t g f).batchNo = s.batchNo := rfl
@[simp] theorem modGang_links (s : State) (t g : Nat) (f : Gang → Gang) : (modGang s t g f).links = s.links := rfl
@[simp] theorem modGang_windows (s : State) (t g : Nat) (f : Gang → Gang) : (modGang s t g f).windows = s.windows := rfl
@[simp] theorem modGang_peers (s : State) (t g : Nat) (f : Gang → Gang) : (modGang s t g f).peers = s.peers := rfl
@[simp] theorem modGang_slotClears (s : State) (t g : Nat) (f : Gang → Gang) : (modGang s t g f).slotClears = s.slotClears := rfl
@[simp] theorem modGang_nextPeer (s : State) (t g : Nat) (f : Gang → Gang) : (modGang s t g f).nextPeer = s.nextPeer := rfl
@[simp] theorem modGang_pcie (s : State) (t g : Nat) (f : Gang → Gang) : (modGang s t g f).pcie = s.pcie := rfl
@[simp] theorem modGang_throttled (s : State) (t g : Nat) (f : Gang → Gang) : (modGang s t g f).throttled = s.throttled := rfl
@[simp] theorem modGang_forced (s : State) (t g : Nat) (f : Gang → Gang) : (modGang s t g f).forced = s.forced := rfl
@[simp] theorem modGang_lastGang (s : State) (t g : Nat) (f : Gang → Gang) : (modGang s t g f).lastGang = s.lastGang := rfl
@[simp] theorem modGang_freeCtr (s : State) (t g : Nat) (f : Gang → Gang) : (modGang s t g f).freeCtr = s.freeCtr := rfl

/-! ### modHawk -/

@[simp] theorem modHawk_agenda (s : State) (t : Nat) (f : Hawk → Hawk) : (modHawk s t f).agenda = s.agenda := rfl
@[simp] theorem modHawk_cur (s : State) (t : Nat) (f : Hawk → Hawk) : (modHawk s t f).cur = s.cur := rfl
@[simp] theorem modHawk_spent (s : State) (t : Nat) (f : Hawk → Hawk) : (modHawk s t f).spent = s.spent := rfl
@[simp] theorem modHawk_cycle (s : State) (t : Nat) (f : Hawk → Hawk) : (modHawk s t f).cycle = s.cycle := rfl
@[simp] theorem modHawk_outputs (s : State) (t : Nat) (f : Hawk → Hawk) : (modHawk s t f).outputs = s.outputs := rfl
@[simp] theorem modHawk_mem (s : State) (t : Nat) (f : Hawk → Hawk) : (modHawk s t f).mem = s.mem := rfl
@[simp] theorem modHawk_poison (s : State) (t : Nat) (f : Hawk → Hawk) : (modHawk s t f).poison = s.poison := rfl
@[simp] theorem modHawk_l2 (s : State) (t : Nat) (f : Hawk → Hawk) : (modHawk s t f).l2 = s.l2 := rfl
@[simp] theorem modHawk_l1 (s : State) (t : Nat) (f : Hawk → Hawk) : (modHawk s t f).l1 = s.l1 := rfl
@[simp] theorem modHawk_look (s : State) (t : Nat) (f : Hawk → Hawk) : (modHawk s t f).look = s.look := rfl
@[simp] theorem modHawk_skimTags (s : State) (t : Nat) (f : Hawk → Hawk) : (modHawk s t f).skimTags = s.skimTags := rfl
@[simp] theorem modHawk_predict (s : State) (t : Nat) (f : Hawk → Hawk) : (modHawk s t f).predict = s.predict := rfl
@[simp] theorem modHawk_tokHolder (s : State) (t : Nat) (f : Hawk → Hawk) : (modHawk s t f).tokHolder = s.tokHolder := rfl
@[simp] theorem modHawk_track (s : State) (t : Nat) (f : Hawk → Hawk) : (modHawk s t f).track = s.track := rfl
@[simp] theorem modHawk_quanta (s : State) (t : Nat) (f : Hawk → Hawk) : (modHawk s t f).quanta = s.quanta := rfl
@[simp] theorem modHawk_coreMap (s : State) (t : Nat) (f : Hawk → Hawk) : (modHawk s t f).coreMap = s.coreMap := rfl
@[simp] theorem modHawk_recovering (s : State) (t : Nat) (f : Hawk → Hawk) : (modHawk s t f).recovering = s.recovering := rfl
@[simp] theorem modHawk_sparesUsed (s : State) (t : Nat) (f : Hawk → Hawk) : (modHawk s t f).sparesUsed = s.sparesUsed := rfl
@[simp] theorem modHawk_lostCores (s : State) (t : Nat) (f : Hawk → Hawk) : (modHawk s t f).lostCores = s.lostCores := rfl
@[simp] theorem modHawk_stackMap (s : State) (t : Nat) (f : Hawk → Hawk) : (modHawk s t f).stackMap = s.stackMap := rfl
@[simp] theorem modHawk_linkMap (s : State) (t : Nat) (f : Hawk → Hawk) : (modHawk s t f).linkMap = s.linkMap := rfl
@[simp] theorem modHawk_req (s : State) (t : Nat) (f : Hawk → Hawk) : (modHawk s t f).req = s.req := rfl
@[simp] theorem modHawk_spare (s : State) (t : Nat) (f : Hawk → Hawk) : (modHawk s t f).spare = s.spare := rfl
@[simp] theorem modHawk_lost (s : State) (t : Nat) (f : Hawk → Hawk) : (modHawk s t f).lost = s.lost := rfl
@[simp] theorem modHawk_lpdeg (s : State) (t : Nat) (f : Hawk → Hawk) : (modHawk s t f).lpdeg = s.lpdeg := rfl
@[simp] theorem modHawk_cecount (s : State) (t : Nat) (f : Hawk → Hawk) : (modHawk s t f).cecount = s.cecount := rfl
@[simp] theorem modHawk_uecount (s : State) (t : Nat) (f : Hawk → Hawk) : (modHawk s t f).uecount = s.uecount := rfl
@[simp] theorem modHawk_portLid (s : State) (t : Nat) (f : Hawk → Hawk) : (modHawk s t f).portLid = s.portLid := rfl
@[simp] theorem modHawk_portRej (s : State) (t : Nat) (f : Hawk → Hawk) : (modHawk s t f).portRej = s.portRej := rfl
@[simp] theorem modHawk_queues (s : State) (t : Nat) (f : Hawk → Hawk) : (modHawk s t f).queues = s.queues := rfl
@[simp] theorem modHawk_launches (s : State) (t : Nat) (f : Hawk → Hawk) : (modHawk s t f).launches = s.launches := rfl
@[simp] theorem modHawk_completed (s : State) (t : Nat) (f : Hawk → Hawk) : (modHawk s t f).completed = s.completed := rfl
@[simp] theorem modHawk_issued (s : State) (t : Nat) (f : Hawk → Hawk) : (modHawk s t f).issued = s.issued := rfl
@[simp] theorem modHawk_nextLid (s : State) (t : Nat) (f : Hawk → Hawk) : (modHawk s t f).nextLid = s.nextLid := rfl
@[simp] theorem modHawk_teams (s : State) (t : Nat) (f : Hawk → Hawk) : (modHawk s t f).teams = listModify (fun tm => { tm with hawk := f tm.hawk }) s.teams t := rfl
@[simp] theorem modHawk_stamp (s : State) (t : Nat) (f : Hawk → Hawk) : (modHawk s t f).stamp = s.stamp := rfl
@[simp] theorem modHawk_swapwait (s : State) (t : Nat) (f : Hawk → Hawk) : (modHawk s t f).swapwait = s.swapwait := rfl
@[simp] theorem modHawk_swapwaitNew (s : State) (t : Nat) (f : Hawk → Hawk) : (modHawk s t f).swapwaitNew = s.swapwaitNew := rfl
@[simp] theorem modHawk_asids (s : State) (t : Nat) (f : Hawk → Hawk) : (modHawk s t f).asids = s.asids := rfl
@[simp] theorem modHawk_vectors (s : State) (t : Nat) (f : Hawk → Hawk) : (modHawk s t f).vectors = s.vectors := rfl
@[simp] theorem modHawk_discardCnt (s : State) (t : Nat) (f : Hawk → Hawk) : (modHawk s t f).discardCnt = s.discardCnt := rfl
@[simp] theorem modHawk_rangeOps (s : State) (t : Nat) (f : Hawk → Hawk) : (modHawk s t f).rangeOps = s.rangeOps := rfl
@[simp] theorem modHawk_nextRange (s : State) (t : Nat) (f : Hawk → Hawk) : (modHawk s t f).nextRange = s.nextRange := rfl
@[simp] theorem modHawk_trowel (s : State) (t : Nat) (f : Hawk → Hawk) : (modHawk s t f).trowel = s.trowel := rfl
@[simp] theorem modHawk_trref (s : State) (t : Nat) (f : Hawk → Hawk) : (modHawk s t f).trref = s.trref := rfl
@[simp] theorem modHawk_isnap (s : State) (t : Nat) (f : Hawk → Hawk) : (modHawk s t f).isnap = s.isnap := rfl
@[simp] theorem modHawk_ievt (s : State) (t : Nat) (f : Hawk → Hawk) : (modHawk s t f).ievt = s.ievt := rfl
@[simp] theorem modHawk_evmask (s : State) (t : Nat) (f : Hawk → Hawk) : (modHawk s t f).evmask = s.evmask := rfl
@[simp] theorem modHawk_snapbuf (s : State) (t : Nat) (f : Hawk → Hawk) : (modHawk s t f).snapbuf = s.snapbuf := rfl
@[simp] theorem modHawk_seq (s : State) (t : Nat) (f : Hawk → Hawk) : (modHawk s t f).seq = s.seq := rfl
@[simp] theorem modHawk_busy (s : State) (t : Nat) (f : Hawk → Hawk) : (modHawk s t f).busy = s.busy := rfl
@[simp] theorem modHawk_drop (s : State) (t : Nat) (f : Hawk → Hawk) : (modHawk s t f).drop = s.drop := rfl
@[simp] theorem modHawk_latched (s : State) (t : Nat) (f : Hawk → Hawk) : (modHawk s t f).latched = s.latched := rfl
@[simp] theorem modHawk_bootdone (s : State) (t : Nat) (f : Hawk → Hawk) : (modHawk s t f).bootdone = s.bootdone := rfl
@[simp] theorem modHawk_chainok (s : State) (t : Nat) (f : Hawk → Hawk) : (modHawk s t f).chainok = s.chainok := rfl
@[simp] theorem modHawk_measure (s : State) (t : Nat) (f : Hawk → Hawk) : (modHawk s t f).measure = s.measure := rfl
@[simp] theorem modHawk_signatures (s : State) (t : Nat) (f : Hawk → Hawk) : (modHawk s t f).signatures = s.signatures := rfl
@[simp] theorem modHawk_atbusy (s : State) (t : Nat) (f : Hawk → Hawk) : (modHawk s t f).atbusy = s.atbusy := rfl
@[simp] theorem modHawk_atdone (s : State) (t : Nat) (f : Hawk → Hawk) : (modHawk s t f).atdone = s.atdone := rfl
@[simp] theorem modHawk_aterr (s : State) (t : Nat) (f : Hawk → Hawk) : (modHawk s t f).aterr = s.aterr := rfl
@[simp] theorem modHawk_atbuf (s : State) (t : Nat) (f : Hawk → Hawk) : (modHawk s t f).atbuf = s.atbuf := rfl
@[simp] theorem modHawk_swst (s : State) (t : Nat) (f : Hawk → Hawk) : (modHawk s t f).swst = s.swst := rfl
@[simp] theorem modHawk_serial (s : State) (t : Nat) (f : Hawk → Hawk) : (modHawk s t f).serial = s.serial := rfl
@[simp] theorem modHawk_frames (s : State) (t : Nat) (f : Hawk → Hawk) : (modHawk s t f).frames = s.frames := rfl
@[simp] theorem modHawk_batchNo (s : State) (t : Nat) (f : Hawk → Hawk) : (modHawk s t f).batchNo = s.batchNo := rfl
@[simp] theorem modHawk_links (s : State) (t : Nat) (f : Hawk → Hawk) : (modHawk s t f).links = s.links := rfl
@[simp] theorem modHawk_windows (s : State) (t : Nat) (f : Hawk → Hawk) : (modHawk s t f).windows = s.windows := rfl
@[simp] theorem modHawk_peers (s : State) (t : Nat) (f : Hawk → Hawk) : (modHawk s t f).peers = s.peers := rfl
@[simp] theorem modHawk_slotClears (s : State) (t : Nat) (f : Hawk → Hawk) : (modHawk s t f).slotClears = s.slotClears := rfl
@[simp] theorem modHawk_nextPeer (s : State) (t : Nat) (f : Hawk → Hawk) : (modHawk s t f).nextPeer = s.nextPeer := rfl
@[simp] theorem modHawk_pcie (s : State) (t : Nat) (f : Hawk → Hawk) : (modHawk s t f).pcie = s.pcie := rfl
@[simp] theorem modHawk_throttled (s : State) (t : Nat) (f : Hawk → Hawk) : (modHawk s t f).throttled = s.throttled := rfl
@[simp] theorem modHawk_forced (s : State) (t : Nat) (f : Hawk → Hawk) : (modHawk s t f).forced = s.forced := rfl
@[simp] theorem modHawk_lastGang (s : State) (t : Nat) (f : Hawk → Hawk) : (modHawk s t f).lastGang = s.lastGang := rfl
@[simp] theorem modHawk_freeCtr (s : State) (t : Nat) (f : Hawk → Hawk) : (modHawk s t f).freeCtr = s.freeCtr := rfl

/-! ### setMemByte -/

@[simp] theorem setMemByte_agenda (s : State) (a : Nat) (b : Byte) : (setMemByte s a b).agenda = s.agenda := rfl
@[simp] theorem setMemByte_cur (s : State) (a : Nat) (b : Byte) : (setMemByte s a b).cur = s.cur := rfl
@[simp] theorem setMemByte_spent (s : State) (a : Nat) (b : Byte) : (setMemByte s a b).spent = s.spent := rfl
@[simp] theorem setMemByte_cycle (s : State) (a : Nat) (b : Byte) : (setMemByte s a b).cycle = s.cycle := rfl
@[simp] theorem setMemByte_outputs (s : State) (a : Nat) (b : Byte) : (setMemByte s a b).outputs = s.outputs := rfl
@[simp] theorem setMemByte_mem (s : State) (a : Nat) (b : Byte) : (setMemByte s a b).mem = smSet Config.unwritten s.mem a b := rfl
@[simp] theorem setMemByte_poison (s : State) (a : Nat) (b : Byte) : (setMemByte s a b).poison = s.poison := rfl
@[simp] theorem setMemByte_l2 (s : State) (a : Nat) (b : Byte) : (setMemByte s a b).l2 = s.l2 := rfl
@[simp] theorem setMemByte_l1 (s : State) (a : Nat) (b : Byte) : (setMemByte s a b).l1 = s.l1 := rfl
@[simp] theorem setMemByte_look (s : State) (a : Nat) (b : Byte) : (setMemByte s a b).look = s.look := rfl
@[simp] theorem setMemByte_skimTags (s : State) (a : Nat) (b : Byte) : (setMemByte s a b).skimTags = s.skimTags := rfl
@[simp] theorem setMemByte_predict (s : State) (a : Nat) (b : Byte) : (setMemByte s a b).predict = s.predict := rfl
@[simp] theorem setMemByte_tokHolder (s : State) (a : Nat) (b : Byte) : (setMemByte s a b).tokHolder = s.tokHolder := rfl
@[simp] theorem setMemByte_track (s : State) (a : Nat) (b : Byte) : (setMemByte s a b).track = s.track := rfl
@[simp] theorem setMemByte_quanta (s : State) (a : Nat) (b : Byte) : (setMemByte s a b).quanta = s.quanta := rfl
@[simp] theorem setMemByte_coreMap (s : State) (a : Nat) (b : Byte) : (setMemByte s a b).coreMap = s.coreMap := rfl
@[simp] theorem setMemByte_recovering (s : State) (a : Nat) (b : Byte) : (setMemByte s a b).recovering = s.recovering := rfl
@[simp] theorem setMemByte_sparesUsed (s : State) (a : Nat) (b : Byte) : (setMemByte s a b).sparesUsed = s.sparesUsed := rfl
@[simp] theorem setMemByte_lostCores (s : State) (a : Nat) (b : Byte) : (setMemByte s a b).lostCores = s.lostCores := rfl
@[simp] theorem setMemByte_stackMap (s : State) (a : Nat) (b : Byte) : (setMemByte s a b).stackMap = s.stackMap := rfl
@[simp] theorem setMemByte_linkMap (s : State) (a : Nat) (b : Byte) : (setMemByte s a b).linkMap = s.linkMap := rfl
@[simp] theorem setMemByte_req (s : State) (a : Nat) (b : Byte) : (setMemByte s a b).req = s.req := rfl
@[simp] theorem setMemByte_spare (s : State) (a : Nat) (b : Byte) : (setMemByte s a b).spare = s.spare := rfl
@[simp] theorem setMemByte_lost (s : State) (a : Nat) (b : Byte) : (setMemByte s a b).lost = s.lost := rfl
@[simp] theorem setMemByte_lpdeg (s : State) (a : Nat) (b : Byte) : (setMemByte s a b).lpdeg = s.lpdeg := rfl
@[simp] theorem setMemByte_cecount (s : State) (a : Nat) (b : Byte) : (setMemByte s a b).cecount = s.cecount := rfl
@[simp] theorem setMemByte_uecount (s : State) (a : Nat) (b : Byte) : (setMemByte s a b).uecount = s.uecount := rfl
@[simp] theorem setMemByte_portLid (s : State) (a : Nat) (b : Byte) : (setMemByte s a b).portLid = s.portLid := rfl
@[simp] theorem setMemByte_portRej (s : State) (a : Nat) (b : Byte) : (setMemByte s a b).portRej = s.portRej := rfl
@[simp] theorem setMemByte_queues (s : State) (a : Nat) (b : Byte) : (setMemByte s a b).queues = s.queues := rfl
@[simp] theorem setMemByte_launches (s : State) (a : Nat) (b : Byte) : (setMemByte s a b).launches = s.launches := rfl
@[simp] theorem setMemByte_completed (s : State) (a : Nat) (b : Byte) : (setMemByte s a b).completed = s.completed := rfl
@[simp] theorem setMemByte_issued (s : State) (a : Nat) (b : Byte) : (setMemByte s a b).issued = s.issued := rfl
@[simp] theorem setMemByte_nextLid (s : State) (a : Nat) (b : Byte) : (setMemByte s a b).nextLid = s.nextLid := rfl
@[simp] theorem setMemByte_teams (s : State) (a : Nat) (b : Byte) : (setMemByte s a b).teams = s.teams := rfl
@[simp] theorem setMemByte_stamp (s : State) (a : Nat) (b : Byte) : (setMemByte s a b).stamp = s.stamp := rfl
@[simp] theorem setMemByte_swapwait (s : State) (a : Nat) (b : Byte) : (setMemByte s a b).swapwait = s.swapwait := rfl
@[simp] theorem setMemByte_swapwaitNew (s : State) (a : Nat) (b : Byte) : (setMemByte s a b).swapwaitNew = s.swapwaitNew := rfl
@[simp] theorem setMemByte_asids (s : State) (a : Nat) (b : Byte) : (setMemByte s a b).asids = s.asids := rfl
@[simp] theorem setMemByte_vectors (s : State) (a : Nat) (b : Byte) : (setMemByte s a b).vectors = s.vectors := rfl
@[simp] theorem setMemByte_discardCnt (s : State) (a : Nat) (b : Byte) : (setMemByte s a b).discardCnt = s.discardCnt := rfl
@[simp] theorem setMemByte_rangeOps (s : State) (a : Nat) (b : Byte) : (setMemByte s a b).rangeOps = s.rangeOps := rfl
@[simp] theorem setMemByte_nextRange (s : State) (a : Nat) (b : Byte) : (setMemByte s a b).nextRange = s.nextRange := rfl
@[simp] theorem setMemByte_trowel (s : State) (a : Nat) (b : Byte) : (setMemByte s a b).trowel = s.trowel := rfl
@[simp] theorem setMemByte_trref (s : State) (a : Nat) (b : Byte) : (setMemByte s a b).trref = s.trref := rfl
@[simp] theorem setMemByte_isnap (s : State) (a : Nat) (b : Byte) : (setMemByte s a b).isnap = s.isnap := rfl
@[simp] theorem setMemByte_ievt (s : State) (a : Nat) (b : Byte) : (setMemByte s a b).ievt = s.ievt := rfl
@[simp] theorem setMemByte_evmask (s : State) (a : Nat) (b : Byte) : (setMemByte s a b).evmask = s.evmask := rfl
@[simp] theorem setMemByte_snapbuf (s : State) (a : Nat) (b : Byte) : (setMemByte s a b).snapbuf = s.snapbuf := rfl
@[simp] theorem setMemByte_seq (s : State) (a : Nat) (b : Byte) : (setMemByte s a b).seq = s.seq := rfl
@[simp] theorem setMemByte_busy (s : State) (a : Nat) (b : Byte) : (setMemByte s a b).busy = s.busy := rfl
@[simp] theorem setMemByte_drop (s : State) (a : Nat) (b : Byte) : (setMemByte s a b).drop = s.drop := rfl
@[simp] theorem setMemByte_latched (s : State) (a : Nat) (b : Byte) : (setMemByte s a b).latched = s.latched := rfl
@[simp] theorem setMemByte_bootdone (s : State) (a : Nat) (b : Byte) : (setMemByte s a b).bootdone = s.bootdone := rfl
@[simp] theorem setMemByte_chainok (s : State) (a : Nat) (b : Byte) : (setMemByte s a b).chainok = s.chainok := rfl
@[simp] theorem setMemByte_measure (s : State) (a : Nat) (b : Byte) : (setMemByte s a b).measure = s.measure := rfl
@[simp] theorem setMemByte_signatures (s : State) (a : Nat) (b : Byte) : (setMemByte s a b).signatures = s.signatures := rfl
@[simp] theorem setMemByte_atbusy (s : State) (a : Nat) (b : Byte) : (setMemByte s a b).atbusy = s.atbusy := rfl
@[simp] theorem setMemByte_atdone (s : State) (a : Nat) (b : Byte) : (setMemByte s a b).atdone = s.atdone := rfl
@[simp] theorem setMemByte_aterr (s : State) (a : Nat) (b : Byte) : (setMemByte s a b).aterr = s.aterr := rfl
@[simp] theorem setMemByte_atbuf (s : State) (a : Nat) (b : Byte) : (setMemByte s a b).atbuf = s.atbuf := rfl
@[simp] theorem setMemByte_swst (s : State) (a : Nat) (b : Byte) : (setMemByte s a b).swst = s.swst := rfl
@[simp] theorem setMemByte_serial (s : State) (a : Nat) (b : Byte) : (setMemByte s a b).serial = s.serial := rfl
@[simp] theorem setMemByte_frames (s : State) (a : Nat) (b : Byte) : (setMemByte s a b).frames = s.frames := rfl
@[simp] theorem setMemByte_batchNo (s : State) (a : Nat) (b : Byte) : (setMemByte s a b).batchNo = s.batchNo := rfl
@[simp] theorem setMemByte_links (s : State) (a : Nat) (b : Byte) : (setMemByte s a b).links = s.links := rfl
@[simp] theorem setMemByte_windows (s : State) (a : Nat) (b : Byte) : (setMemByte s a b).windows = s.windows := rfl
@[simp] theorem setMemByte_peers (s : State) (a : Nat) (b : Byte) : (setMemByte s a b).peers = s.peers := rfl
@[simp] theorem setMemByte_slotClears (s : State) (a : Nat) (b : Byte) : (setMemByte s a b).slotClears = s.slotClears := rfl
@[simp] theorem setMemByte_nextPeer (s : State) (a : Nat) (b : Byte) : (setMemByte s a b).nextPeer = s.nextPeer := rfl
@[simp] theorem setMemByte_pcie (s : State) (a : Nat) (b : Byte) : (setMemByte s a b).pcie = s.pcie := rfl
@[simp] theorem setMemByte_throttled (s : State) (a : Nat) (b : Byte) : (setMemByte s a b).throttled = s.throttled := rfl
@[simp] theorem setMemByte_forced (s : State) (a : Nat) (b : Byte) : (setMemByte s a b).forced = s.forced := rfl
@[simp] theorem setMemByte_lastGang (s : State) (a : Nat) (b : Byte) : (setMemByte s a b).lastGang = s.lastGang := rfl
@[simp] theorem setMemByte_freeCtr (s : State) (a : Nat) (b : Byte) : (setMemByte s a b).freeCtr = s.freeCtr := rfl

/-! ### setPoison -/

@[simp] theorem setPoison_agenda (s : State) (k : Nat) (p : Bool) : (setPoison s k p).agenda = s.agenda := rfl
@[simp] theorem setPoison_cur (s : State) (k : Nat) (p : Bool) : (setPoison s k p).cur = s.cur := rfl
@[simp] theorem setPoison_spent (s : State) (k : Nat) (p : Bool) : (setPoison s k p).spent = s.spent := rfl
@[simp] theorem setPoison_cycle (s : State) (k : Nat) (p : Bool) : (setPoison s k p).cycle = s.cycle := rfl
@[simp] theorem setPoison_outputs (s : State) (k : Nat) (p : Bool) : (setPoison s k p).outputs = s.outputs := rfl
@[simp] theorem setPoison_mem (s : State) (k : Nat) (p : Bool) : (setPoison s k p).mem = s.mem := rfl
@[simp] theorem setPoison_poison (s : State) (k : Nat) (p : Bool) : (setPoison s k p).poison = if p then setAdd s.poison k else setDel s.poison k := rfl
@[simp] theorem setPoison_l2 (s : State) (k : Nat) (p : Bool) : (setPoison s k p).l2 = s.l2 := rfl
@[simp] theorem setPoison_l1 (s : State) (k : Nat) (p : Bool) : (setPoison s k p).l1 = s.l1 := rfl
@[simp] theorem setPoison_look (s : State) (k : Nat) (p : Bool) : (setPoison s k p).look = s.look := rfl
@[simp] theorem setPoison_skimTags (s : State) (k : Nat) (p : Bool) : (setPoison s k p).skimTags = s.skimTags := rfl
@[simp] theorem setPoison_predict (s : State) (k : Nat) (p : Bool) : (setPoison s k p).predict = s.predict := rfl
@[simp] theorem setPoison_tokHolder (s : State) (k : Nat) (p : Bool) : (setPoison s k p).tokHolder = s.tokHolder := rfl
@[simp] theorem setPoison_track (s : State) (k : Nat) (p : Bool) : (setPoison s k p).track = s.track := rfl
@[simp] theorem setPoison_quanta (s : State) (k : Nat) (p : Bool) : (setPoison s k p).quanta = s.quanta := rfl
@[simp] theorem setPoison_coreMap (s : State) (k : Nat) (p : Bool) : (setPoison s k p).coreMap = s.coreMap := rfl
@[simp] theorem setPoison_recovering (s : State) (k : Nat) (p : Bool) : (setPoison s k p).recovering = s.recovering := rfl
@[simp] theorem setPoison_sparesUsed (s : State) (k : Nat) (p : Bool) : (setPoison s k p).sparesUsed = s.sparesUsed := rfl
@[simp] theorem setPoison_lostCores (s : State) (k : Nat) (p : Bool) : (setPoison s k p).lostCores = s.lostCores := rfl
@[simp] theorem setPoison_stackMap (s : State) (k : Nat) (p : Bool) : (setPoison s k p).stackMap = s.stackMap := rfl
@[simp] theorem setPoison_linkMap (s : State) (k : Nat) (p : Bool) : (setPoison s k p).linkMap = s.linkMap := rfl
@[simp] theorem setPoison_req (s : State) (k : Nat) (p : Bool) : (setPoison s k p).req = s.req := rfl
@[simp] theorem setPoison_spare (s : State) (k : Nat) (p : Bool) : (setPoison s k p).spare = s.spare := rfl
@[simp] theorem setPoison_lost (s : State) (k : Nat) (p : Bool) : (setPoison s k p).lost = s.lost := rfl
@[simp] theorem setPoison_lpdeg (s : State) (k : Nat) (p : Bool) : (setPoison s k p).lpdeg = s.lpdeg := rfl
@[simp] theorem setPoison_cecount (s : State) (k : Nat) (p : Bool) : (setPoison s k p).cecount = s.cecount := rfl
@[simp] theorem setPoison_uecount (s : State) (k : Nat) (p : Bool) : (setPoison s k p).uecount = s.uecount := rfl
@[simp] theorem setPoison_portLid (s : State) (k : Nat) (p : Bool) : (setPoison s k p).portLid = s.portLid := rfl
@[simp] theorem setPoison_portRej (s : State) (k : Nat) (p : Bool) : (setPoison s k p).portRej = s.portRej := rfl
@[simp] theorem setPoison_queues (s : State) (k : Nat) (p : Bool) : (setPoison s k p).queues = s.queues := rfl
@[simp] theorem setPoison_launches (s : State) (k : Nat) (p : Bool) : (setPoison s k p).launches = s.launches := rfl
@[simp] theorem setPoison_completed (s : State) (k : Nat) (p : Bool) : (setPoison s k p).completed = s.completed := rfl
@[simp] theorem setPoison_issued (s : State) (k : Nat) (p : Bool) : (setPoison s k p).issued = s.issued := rfl
@[simp] theorem setPoison_nextLid (s : State) (k : Nat) (p : Bool) : (setPoison s k p).nextLid = s.nextLid := rfl
@[simp] theorem setPoison_teams (s : State) (k : Nat) (p : Bool) : (setPoison s k p).teams = s.teams := rfl
@[simp] theorem setPoison_stamp (s : State) (k : Nat) (p : Bool) : (setPoison s k p).stamp = s.stamp := rfl
@[simp] theorem setPoison_swapwait (s : State) (k : Nat) (p : Bool) : (setPoison s k p).swapwait = s.swapwait := rfl
@[simp] theorem setPoison_swapwaitNew (s : State) (k : Nat) (p : Bool) : (setPoison s k p).swapwaitNew = s.swapwaitNew := rfl
@[simp] theorem setPoison_asids (s : State) (k : Nat) (p : Bool) : (setPoison s k p).asids = s.asids := rfl
@[simp] theorem setPoison_vectors (s : State) (k : Nat) (p : Bool) : (setPoison s k p).vectors = s.vectors := rfl
@[simp] theorem setPoison_discardCnt (s : State) (k : Nat) (p : Bool) : (setPoison s k p).discardCnt = s.discardCnt := rfl
@[simp] theorem setPoison_rangeOps (s : State) (k : Nat) (p : Bool) : (setPoison s k p).rangeOps = s.rangeOps := rfl
@[simp] theorem setPoison_nextRange (s : State) (k : Nat) (p : Bool) : (setPoison s k p).nextRange = s.nextRange := rfl
@[simp] theorem setPoison_trowel (s : State) (k : Nat) (p : Bool) : (setPoison s k p).trowel = s.trowel := rfl
@[simp] theorem setPoison_trref (s : State) (k : Nat) (p : Bool) : (setPoison s k p).trref = s.trref := rfl
@[simp] theorem setPoison_isnap (s : State) (k : Nat) (p : Bool) : (setPoison s k p).isnap = s.isnap := rfl
@[simp] theorem setPoison_ievt (s : State) (k : Nat) (p : Bool) : (setPoison s k p).ievt = s.ievt := rfl
@[simp] theorem setPoison_evmask (s : State) (k : Nat) (p : Bool) : (setPoison s k p).evmask = s.evmask := rfl
@[simp] theorem setPoison_snapbuf (s : State) (k : Nat) (p : Bool) : (setPoison s k p).snapbuf = s.snapbuf := rfl
@[simp] theorem setPoison_seq (s : State) (k : Nat) (p : Bool) : (setPoison s k p).seq = s.seq := rfl
@[simp] theorem setPoison_busy (s : State) (k : Nat) (p : Bool) : (setPoison s k p).busy = s.busy := rfl
@[simp] theorem setPoison_drop (s : State) (k : Nat) (p : Bool) : (setPoison s k p).drop = s.drop := rfl
@[simp] theorem setPoison_latched (s : State) (k : Nat) (p : Bool) : (setPoison s k p).latched = s.latched := rfl
@[simp] theorem setPoison_bootdone (s : State) (k : Nat) (p : Bool) : (setPoison s k p).bootdone = s.bootdone := rfl
@[simp] theorem setPoison_chainok (s : State) (k : Nat) (p : Bool) : (setPoison s k p).chainok = s.chainok := rfl
@[simp] theorem setPoison_measure (s : State) (k : Nat) (p : Bool) : (setPoison s k p).measure = s.measure := rfl
@[simp] theorem setPoison_signatures (s : State) (k : Nat) (p : Bool) : (setPoison s k p).signatures = s.signatures := rfl
@[simp] theorem setPoison_atbusy (s : State) (k : Nat) (p : Bool) : (setPoison s k p).atbusy = s.atbusy := rfl
@[simp] theorem setPoison_atdone (s : State) (k : Nat) (p : Bool) : (setPoison s k p).atdone = s.atdone := rfl
@[simp] theorem setPoison_aterr (s : State) (k : Nat) (p : Bool) : (setPoison s k p).aterr = s.aterr := rfl
@[simp] theorem setPoison_atbuf (s : State) (k : Nat) (p : Bool) : (setPoison s k p).atbuf = s.atbuf := rfl
@[simp] theorem setPoison_swst (s : State) (k : Nat) (p : Bool) : (setPoison s k p).swst = s.swst := rfl
@[simp] theorem setPoison_serial (s : State) (k : Nat) (p : Bool) : (setPoison s k p).serial = s.serial := rfl
@[simp] theorem setPoison_frames (s : State) (k : Nat) (p : Bool) : (setPoison s k p).frames = s.frames := rfl
@[simp] theorem setPoison_batchNo (s : State) (k : Nat) (p : Bool) : (setPoison s k p).batchNo = s.batchNo := rfl
@[simp] theorem setPoison_links (s : State) (k : Nat) (p : Bool) : (setPoison s k p).links = s.links := rfl
@[simp] theorem setPoison_windows (s : State) (k : Nat) (p : Bool) : (setPoison s k p).windows = s.windows := rfl
@[simp] theorem setPoison_peers (s : State) (k : Nat) (p : Bool) : (setPoison s k p).peers = s.peers := rfl
@[simp] theorem setPoison_slotClears (s : State) (k : Nat) (p : Bool) : (setPoison s k p).slotClears = s.slotClears := rfl
@[simp] theorem setPoison_nextPeer (s : State) (k : Nat) (p : Bool) : (setPoison s k p).nextPeer = s.nextPeer := rfl
@[simp] theorem setPoison_pcie (s : State) (k : Nat) (p : Bool) : (setPoison s k p).pcie = s.pcie := rfl
@[simp] theorem setPoison_throttled (s : State) (k : Nat) (p : Bool) : (setPoison s k p).throttled = s.throttled := rfl
@[simp] theorem setPoison_forced (s : State) (k : Nat) (p : Bool) : (setPoison s k p).forced = s.forced := rfl
@[simp] theorem setPoison_lastGang (s : State) (k : Nat) (p : Bool) : (setPoison s k p).lastGang = s.lastGang := rfl
@[simp] theorem setPoison_freeCtr (s : State) (k : Nat) (p : Bool) : (setPoison s k p).freeCtr = s.freeCtr := rfl

/-! ### setTrack -/

@[simp] theorem setTrack_agenda (s : State) (k : Nat) (x : Track) : (setTrack s k x).agenda = s.agenda := rfl
@[simp] theorem setTrack_cur (s : State) (k : Nat) (x : Track) : (setTrack s k x).cur = s.cur := rfl
@[simp] theorem setTrack_spent (s : State) (k : Nat) (x : Track) : (setTrack s k x).spent = s.spent := rfl
@[simp] theorem setTrack_cycle (s : State) (k : Nat) (x : Track) : (setTrack s k x).cycle = s.cycle := rfl
@[simp] theorem setTrack_outputs (s : State) (k : Nat) (x : Track) : (setTrack s k x).outputs = s.outputs := rfl
@[simp] theorem setTrack_mem (s : State) (k : Nat) (x : Track) : (setTrack s k x).mem = s.mem := rfl
@[simp] theorem setTrack_poison (s : State) (k : Nat) (x : Track) : (setTrack s k x).poison = s.poison := rfl
@[simp] theorem setTrack_l2 (s : State) (k : Nat) (x : Track) : (setTrack s k x).l2 = s.l2 := rfl
@[simp] theorem setTrack_l1 (s : State) (k : Nat) (x : Track) : (setTrack s k x).l1 = s.l1 := rfl
@[simp] theorem setTrack_look (s : State) (k : Nat) (x : Track) : (setTrack s k x).look = s.look := rfl
@[simp] theorem setTrack_skimTags (s : State) (k : Nat) (x : Track) : (setTrack s k x).skimTags = s.skimTags := rfl
@[simp] theorem setTrack_predict (s : State) (k : Nat) (x : Track) : (setTrack s k x).predict = s.predict := rfl
@[simp] theorem setTrack_tokHolder (s : State) (k : Nat) (x : Track) : (setTrack s k x).tokHolder = s.tokHolder := rfl
@[simp] theorem setTrack_track (s : State) (k : Nat) (x : Track) : (setTrack s k x).track = smSet noTrack s.track k x := rfl
@[simp] theorem setTrack_quanta (s : State) (k : Nat) (x : Track) : (setTrack s k x).quanta = s.quanta := rfl
@[simp] theorem setTrack_coreMap (s : State) (k : Nat) (x : Track) : (setTrack s k x).coreMap = s.coreMap := rfl
@[simp] theorem setTrack_recovering (s : State) (k : Nat) (x : Track) : (setTrack s k x).recovering = s.recovering := rfl
@[simp] theorem setTrack_sparesUsed (s : State) (k : Nat) (x : Track) : (setTrack s k x).sparesUsed = s.sparesUsed := rfl
@[simp] theorem setTrack_lostCores (s : State) (k : Nat) (x : Track) : (setTrack s k x).lostCores = s.lostCores := rfl
@[simp] theorem setTrack_stackMap (s : State) (k : Nat) (x : Track) : (setTrack s k x).stackMap = s.stackMap := rfl
@[simp] theorem setTrack_linkMap (s : State) (k : Nat) (x : Track) : (setTrack s k x).linkMap = s.linkMap := rfl
@[simp] theorem setTrack_req (s : State) (k : Nat) (x : Track) : (setTrack s k x).req = s.req := rfl
@[simp] theorem setTrack_spare (s : State) (k : Nat) (x : Track) : (setTrack s k x).spare = s.spare := rfl
@[simp] theorem setTrack_lost (s : State) (k : Nat) (x : Track) : (setTrack s k x).lost = s.lost := rfl
@[simp] theorem setTrack_lpdeg (s : State) (k : Nat) (x : Track) : (setTrack s k x).lpdeg = s.lpdeg := rfl
@[simp] theorem setTrack_cecount (s : State) (k : Nat) (x : Track) : (setTrack s k x).cecount = s.cecount := rfl
@[simp] theorem setTrack_uecount (s : State) (k : Nat) (x : Track) : (setTrack s k x).uecount = s.uecount := rfl
@[simp] theorem setTrack_portLid (s : State) (k : Nat) (x : Track) : (setTrack s k x).portLid = s.portLid := rfl
@[simp] theorem setTrack_portRej (s : State) (k : Nat) (x : Track) : (setTrack s k x).portRej = s.portRej := rfl
@[simp] theorem setTrack_queues (s : State) (k : Nat) (x : Track) : (setTrack s k x).queues = s.queues := rfl
@[simp] theorem setTrack_launches (s : State) (k : Nat) (x : Track) : (setTrack s k x).launches = s.launches := rfl
@[simp] theorem setTrack_completed (s : State) (k : Nat) (x : Track) : (setTrack s k x).completed = s.completed := rfl
@[simp] theorem setTrack_issued (s : State) (k : Nat) (x : Track) : (setTrack s k x).issued = s.issued := rfl
@[simp] theorem setTrack_nextLid (s : State) (k : Nat) (x : Track) : (setTrack s k x).nextLid = s.nextLid := rfl
@[simp] theorem setTrack_teams (s : State) (k : Nat) (x : Track) : (setTrack s k x).teams = s.teams := rfl
@[simp] theorem setTrack_stamp (s : State) (k : Nat) (x : Track) : (setTrack s k x).stamp = s.stamp := rfl
@[simp] theorem setTrack_swapwait (s : State) (k : Nat) (x : Track) : (setTrack s k x).swapwait = s.swapwait := rfl
@[simp] theorem setTrack_swapwaitNew (s : State) (k : Nat) (x : Track) : (setTrack s k x).swapwaitNew = s.swapwaitNew := rfl
@[simp] theorem setTrack_asids (s : State) (k : Nat) (x : Track) : (setTrack s k x).asids = s.asids := rfl
@[simp] theorem setTrack_vectors (s : State) (k : Nat) (x : Track) : (setTrack s k x).vectors = s.vectors := rfl
@[simp] theorem setTrack_discardCnt (s : State) (k : Nat) (x : Track) : (setTrack s k x).discardCnt = s.discardCnt := rfl
@[simp] theorem setTrack_rangeOps (s : State) (k : Nat) (x : Track) : (setTrack s k x).rangeOps = s.rangeOps := rfl
@[simp] theorem setTrack_nextRange (s : State) (k : Nat) (x : Track) : (setTrack s k x).nextRange = s.nextRange := rfl
@[simp] theorem setTrack_trowel (s : State) (k : Nat) (x : Track) : (setTrack s k x).trowel = s.trowel := rfl
@[simp] theorem setTrack_trref (s : State) (k : Nat) (x : Track) : (setTrack s k x).trref = s.trref := rfl
@[simp] theorem setTrack_isnap (s : State) (k : Nat) (x : Track) : (setTrack s k x).isnap = s.isnap := rfl
@[simp] theorem setTrack_ievt (s : State) (k : Nat) (x : Track) : (setTrack s k x).ievt = s.ievt := rfl
@[simp] theorem setTrack_evmask (s : State) (k : Nat) (x : Track) : (setTrack s k x).evmask = s.evmask := rfl
@[simp] theorem setTrack_snapbuf (s : State) (k : Nat) (x : Track) : (setTrack s k x).snapbuf = s.snapbuf := rfl
@[simp] theorem setTrack_seq (s : State) (k : Nat) (x : Track) : (setTrack s k x).seq = s.seq := rfl
@[simp] theorem setTrack_busy (s : State) (k : Nat) (x : Track) : (setTrack s k x).busy = s.busy := rfl
@[simp] theorem setTrack_drop (s : State) (k : Nat) (x : Track) : (setTrack s k x).drop = s.drop := rfl
@[simp] theorem setTrack_latched (s : State) (k : Nat) (x : Track) : (setTrack s k x).latched = s.latched := rfl
@[simp] theorem setTrack_bootdone (s : State) (k : Nat) (x : Track) : (setTrack s k x).bootdone = s.bootdone := rfl
@[simp] theorem setTrack_chainok (s : State) (k : Nat) (x : Track) : (setTrack s k x).chainok = s.chainok := rfl
@[simp] theorem setTrack_measure (s : State) (k : Nat) (x : Track) : (setTrack s k x).measure = s.measure := rfl
@[simp] theorem setTrack_signatures (s : State) (k : Nat) (x : Track) : (setTrack s k x).signatures = s.signatures := rfl
@[simp] theorem setTrack_atbusy (s : State) (k : Nat) (x : Track) : (setTrack s k x).atbusy = s.atbusy := rfl
@[simp] theorem setTrack_atdone (s : State) (k : Nat) (x : Track) : (setTrack s k x).atdone = s.atdone := rfl
@[simp] theorem setTrack_aterr (s : State) (k : Nat) (x : Track) : (setTrack s k x).aterr = s.aterr := rfl
@[simp] theorem setTrack_atbuf (s : State) (k : Nat) (x : Track) : (setTrack s k x).atbuf = s.atbuf := rfl
@[simp] theorem setTrack_swst (s : State) (k : Nat) (x : Track) : (setTrack s k x).swst = s.swst := rfl
@[simp] theorem setTrack_serial (s : State) (k : Nat) (x : Track) : (setTrack s k x).serial = s.serial := rfl
@[simp] theorem setTrack_frames (s : State) (k : Nat) (x : Track) : (setTrack s k x).frames = s.frames := rfl
@[simp] theorem setTrack_batchNo (s : State) (k : Nat) (x : Track) : (setTrack s k x).batchNo = s.batchNo := rfl
@[simp] theorem setTrack_links (s : State) (k : Nat) (x : Track) : (setTrack s k x).links = s.links := rfl
@[simp] theorem setTrack_windows (s : State) (k : Nat) (x : Track) : (setTrack s k x).windows = s.windows := rfl
@[simp] theorem setTrack_peers (s : State) (k : Nat) (x : Track) : (setTrack s k x).peers = s.peers := rfl
@[simp] theorem setTrack_slotClears (s : State) (k : Nat) (x : Track) : (setTrack s k x).slotClears = s.slotClears := rfl
@[simp] theorem setTrack_nextPeer (s : State) (k : Nat) (x : Track) : (setTrack s k x).nextPeer = s.nextPeer := rfl
@[simp] theorem setTrack_pcie (s : State) (k : Nat) (x : Track) : (setTrack s k x).pcie = s.pcie := rfl
@[simp] theorem setTrack_throttled (s : State) (k : Nat) (x : Track) : (setTrack s k x).throttled = s.throttled := rfl
@[simp] theorem setTrack_forced (s : State) (k : Nat) (x : Track) : (setTrack s k x).forced = s.forced := rfl
@[simp] theorem setTrack_lastGang (s : State) (k : Nat) (x : Track) : (setTrack s k x).lastGang = s.lastGang := rfl
@[simp] theorem setTrack_freeCtr (s : State) (k : Nat) (x : Track) : (setTrack s k x).freeCtr = s.freeCtr := rfl

/-! ### l1Put -/

@[simp] theorem l1Put_agenda (s : State) (e : CacheSector) : (l1Put s e).agenda = s.agenda := rfl
@[simp] theorem l1Put_cur (s : State) (e : CacheSector) : (l1Put s e).cur = s.cur := rfl
@[simp] theorem l1Put_spent (s : State) (e : CacheSector) : (l1Put s e).spent = s.spent := rfl
@[simp] theorem l1Put_cycle (s : State) (e : CacheSector) : (l1Put s e).cycle = s.cycle := rfl
@[simp] theorem l1Put_outputs (s : State) (e : CacheSector) : (l1Put s e).outputs = s.outputs := rfl
@[simp] theorem l1Put_mem (s : State) (e : CacheSector) : (l1Put s e).mem = s.mem := rfl
@[simp] theorem l1Put_poison (s : State) (e : CacheSector) : (l1Put s e).poison = s.poison := rfl
@[simp] theorem l1Put_l2 (s : State) (e : CacheSector) : (l1Put s e).l2 = s.l2 := rfl
@[simp] theorem l1Put_l1 (s : State) (e : CacheSector) : (l1Put s e).l1 = e :: s.l1.filter fun x => !(x.core == e.core && x.sector == e.sector) := rfl
@[simp] theorem l1Put_look (s : State) (e : CacheSector) : (l1Put s e).look = s.look := rfl
@[simp] theorem l1Put_skimTags (s : State) (e : CacheSector) : (l1Put s e).skimTags = s.skimTags := rfl
@[simp] theorem l1Put_predict (s : State) (e : CacheSector) : (l1Put s e).predict = s.predict := rfl
@[simp] theorem l1Put_tokHolder (s : State) (e : CacheSector) : (l1Put s e).tokHolder = s.tokHolder := rfl
@[simp] theorem l1Put_track (s : State) (e : CacheSector) : (l1Put s e).track = s.track := rfl
@[simp] theorem l1Put_quanta (s : State) (e : CacheSector) : (l1Put s e).quanta = s.quanta := rfl
@[simp] theorem l1Put_coreMap (s : State) (e : CacheSector) : (l1Put s e).coreMap = s.coreMap := rfl
@[simp] theorem l1Put_recovering (s : State) (e : CacheSector) : (l1Put s e).recovering = s.recovering := rfl
@[simp] theorem l1Put_sparesUsed (s : State) (e : CacheSector) : (l1Put s e).sparesUsed = s.sparesUsed := rfl
@[simp] theorem l1Put_lostCores (s : State) (e : CacheSector) : (l1Put s e).lostCores = s.lostCores := rfl
@[simp] theorem l1Put_stackMap (s : State) (e : CacheSector) : (l1Put s e).stackMap = s.stackMap := rfl
@[simp] theorem l1Put_linkMap (s : State) (e : CacheSector) : (l1Put s e).linkMap = s.linkMap := rfl
@[simp] theorem l1Put_req (s : State) (e : CacheSector) : (l1Put s e).req = s.req := rfl
@[simp] theorem l1Put_spare (s : State) (e : CacheSector) : (l1Put s e).spare = s.spare := rfl
@[simp] theorem l1Put_lost (s : State) (e : CacheSector) : (l1Put s e).lost = s.lost := rfl
@[simp] theorem l1Put_lpdeg (s : State) (e : CacheSector) : (l1Put s e).lpdeg = s.lpdeg := rfl
@[simp] theorem l1Put_cecount (s : State) (e : CacheSector) : (l1Put s e).cecount = s.cecount := rfl
@[simp] theorem l1Put_uecount (s : State) (e : CacheSector) : (l1Put s e).uecount = s.uecount := rfl
@[simp] theorem l1Put_portLid (s : State) (e : CacheSector) : (l1Put s e).portLid = s.portLid := rfl
@[simp] theorem l1Put_portRej (s : State) (e : CacheSector) : (l1Put s e).portRej = s.portRej := rfl
@[simp] theorem l1Put_queues (s : State) (e : CacheSector) : (l1Put s e).queues = s.queues := rfl
@[simp] theorem l1Put_launches (s : State) (e : CacheSector) : (l1Put s e).launches = s.launches := rfl
@[simp] theorem l1Put_completed (s : State) (e : CacheSector) : (l1Put s e).completed = s.completed := rfl
@[simp] theorem l1Put_issued (s : State) (e : CacheSector) : (l1Put s e).issued = s.issued := rfl
@[simp] theorem l1Put_nextLid (s : State) (e : CacheSector) : (l1Put s e).nextLid = s.nextLid := rfl
@[simp] theorem l1Put_teams (s : State) (e : CacheSector) : (l1Put s e).teams = s.teams := rfl
@[simp] theorem l1Put_stamp (s : State) (e : CacheSector) : (l1Put s e).stamp = s.stamp := rfl
@[simp] theorem l1Put_swapwait (s : State) (e : CacheSector) : (l1Put s e).swapwait = s.swapwait := rfl
@[simp] theorem l1Put_swapwaitNew (s : State) (e : CacheSector) : (l1Put s e).swapwaitNew = s.swapwaitNew := rfl
@[simp] theorem l1Put_asids (s : State) (e : CacheSector) : (l1Put s e).asids = s.asids := rfl
@[simp] theorem l1Put_vectors (s : State) (e : CacheSector) : (l1Put s e).vectors = s.vectors := rfl
@[simp] theorem l1Put_discardCnt (s : State) (e : CacheSector) : (l1Put s e).discardCnt = s.discardCnt := rfl
@[simp] theorem l1Put_rangeOps (s : State) (e : CacheSector) : (l1Put s e).rangeOps = s.rangeOps := rfl
@[simp] theorem l1Put_nextRange (s : State) (e : CacheSector) : (l1Put s e).nextRange = s.nextRange := rfl
@[simp] theorem l1Put_trowel (s : State) (e : CacheSector) : (l1Put s e).trowel = s.trowel := rfl
@[simp] theorem l1Put_trref (s : State) (e : CacheSector) : (l1Put s e).trref = s.trref := rfl
@[simp] theorem l1Put_isnap (s : State) (e : CacheSector) : (l1Put s e).isnap = s.isnap := rfl
@[simp] theorem l1Put_ievt (s : State) (e : CacheSector) : (l1Put s e).ievt = s.ievt := rfl
@[simp] theorem l1Put_evmask (s : State) (e : CacheSector) : (l1Put s e).evmask = s.evmask := rfl
@[simp] theorem l1Put_snapbuf (s : State) (e : CacheSector) : (l1Put s e).snapbuf = s.snapbuf := rfl
@[simp] theorem l1Put_seq (s : State) (e : CacheSector) : (l1Put s e).seq = s.seq := rfl
@[simp] theorem l1Put_busy (s : State) (e : CacheSector) : (l1Put s e).busy = s.busy := rfl
@[simp] theorem l1Put_drop (s : State) (e : CacheSector) : (l1Put s e).drop = s.drop := rfl
@[simp] theorem l1Put_latched (s : State) (e : CacheSector) : (l1Put s e).latched = s.latched := rfl
@[simp] theorem l1Put_bootdone (s : State) (e : CacheSector) : (l1Put s e).bootdone = s.bootdone := rfl
@[simp] theorem l1Put_chainok (s : State) (e : CacheSector) : (l1Put s e).chainok = s.chainok := rfl
@[simp] theorem l1Put_measure (s : State) (e : CacheSector) : (l1Put s e).measure = s.measure := rfl
@[simp] theorem l1Put_signatures (s : State) (e : CacheSector) : (l1Put s e).signatures = s.signatures := rfl
@[simp] theorem l1Put_atbusy (s : State) (e : CacheSector) : (l1Put s e).atbusy = s.atbusy := rfl
@[simp] theorem l1Put_atdone (s : State) (e : CacheSector) : (l1Put s e).atdone = s.atdone := rfl
@[simp] theorem l1Put_aterr (s : State) (e : CacheSector) : (l1Put s e).aterr = s.aterr := rfl
@[simp] theorem l1Put_atbuf (s : State) (e : CacheSector) : (l1Put s e).atbuf = s.atbuf := rfl
@[simp] theorem l1Put_swst (s : State) (e : CacheSector) : (l1Put s e).swst = s.swst := rfl
@[simp] theorem l1Put_serial (s : State) (e : CacheSector) : (l1Put s e).serial = s.serial := rfl
@[simp] theorem l1Put_frames (s : State) (e : CacheSector) : (l1Put s e).frames = s.frames := rfl
@[simp] theorem l1Put_batchNo (s : State) (e : CacheSector) : (l1Put s e).batchNo = s.batchNo := rfl
@[simp] theorem l1Put_links (s : State) (e : CacheSector) : (l1Put s e).links = s.links := rfl
@[simp] theorem l1Put_windows (s : State) (e : CacheSector) : (l1Put s e).windows = s.windows := rfl
@[simp] theorem l1Put_peers (s : State) (e : CacheSector) : (l1Put s e).peers = s.peers := rfl
@[simp] theorem l1Put_slotClears (s : State) (e : CacheSector) : (l1Put s e).slotClears = s.slotClears := rfl
@[simp] theorem l1Put_nextPeer (s : State) (e : CacheSector) : (l1Put s e).nextPeer = s.nextPeer := rfl
@[simp] theorem l1Put_pcie (s : State) (e : CacheSector) : (l1Put s e).pcie = s.pcie := rfl
@[simp] theorem l1Put_throttled (s : State) (e : CacheSector) : (l1Put s e).throttled = s.throttled := rfl
@[simp] theorem l1Put_forced (s : State) (e : CacheSector) : (l1Put s e).forced = s.forced := rfl
@[simp] theorem l1Put_lastGang (s : State) (e : CacheSector) : (l1Put s e).lastGang = s.lastGang := rfl
@[simp] theorem l1Put_freeCtr (s : State) (e : CacheSector) : (l1Put s e).freeCtr = s.freeCtr := rfl

/-! ### l2Put -/

@[simp] theorem l2Put_agenda (s : State) (e : CacheSector) : (l2Put s e).agenda = s.agenda := rfl
@[simp] theorem l2Put_cur (s : State) (e : CacheSector) : (l2Put s e).cur = s.cur := rfl
@[simp] theorem l2Put_spent (s : State) (e : CacheSector) : (l2Put s e).spent = s.spent := rfl
@[simp] theorem l2Put_cycle (s : State) (e : CacheSector) : (l2Put s e).cycle = s.cycle := rfl
@[simp] theorem l2Put_outputs (s : State) (e : CacheSector) : (l2Put s e).outputs = s.outputs := rfl
@[simp] theorem l2Put_mem (s : State) (e : CacheSector) : (l2Put s e).mem = s.mem := rfl
@[simp] theorem l2Put_poison (s : State) (e : CacheSector) : (l2Put s e).poison = s.poison := rfl
@[simp] theorem l2Put_l2 (s : State) (e : CacheSector) : (l2Put s e).l2 = e :: s.l2.filter fun x => x.sector != e.sector := rfl
@[simp] theorem l2Put_l1 (s : State) (e : CacheSector) : (l2Put s e).l1 = s.l1 := rfl
@[simp] theorem l2Put_look (s : State) (e : CacheSector) : (l2Put s e).look = s.look := rfl
@[simp] theorem l2Put_skimTags (s : State) (e : CacheSector) : (l2Put s e).skimTags = s.skimTags := rfl
@[simp] theorem l2Put_predict (s : State) (e : CacheSector) : (l2Put s e).predict = s.predict := rfl
@[simp] theorem l2Put_tokHolder (s : State) (e : CacheSector) : (l2Put s e).tokHolder = s.tokHolder := rfl
@[simp] theorem l2Put_track (s : State) (e : CacheSector) : (l2Put s e).track = s.track := rfl
@[simp] theorem l2Put_quanta (s : State) (e : CacheSector) : (l2Put s e).quanta = s.quanta := rfl
@[simp] theorem l2Put_coreMap (s : State) (e : CacheSector) : (l2Put s e).coreMap = s.coreMap := rfl
@[simp] theorem l2Put_recovering (s : State) (e : CacheSector) : (l2Put s e).recovering = s.recovering := rfl
@[simp] theorem l2Put_sparesUsed (s : State) (e : CacheSector) : (l2Put s e).sparesUsed = s.sparesUsed := rfl
@[simp] theorem l2Put_lostCores (s : State) (e : CacheSector) : (l2Put s e).lostCores = s.lostCores := rfl
@[simp] theorem l2Put_stackMap (s : State) (e : CacheSector) : (l2Put s e).stackMap = s.stackMap := rfl
@[simp] theorem l2Put_linkMap (s : State) (e : CacheSector) : (l2Put s e).linkMap = s.linkMap := rfl
@[simp] theorem l2Put_req (s : State) (e : CacheSector) : (l2Put s e).req = s.req := rfl
@[simp] theorem l2Put_spare (s : State) (e : CacheSector) : (l2Put s e).spare = s.spare := rfl
@[simp] theorem l2Put_lost (s : State) (e : CacheSector) : (l2Put s e).lost = s.lost := rfl
@[simp] theorem l2Put_lpdeg (s : State) (e : CacheSector) : (l2Put s e).lpdeg = s.lpdeg := rfl
@[simp] theorem l2Put_cecount (s : State) (e : CacheSector) : (l2Put s e).cecount = s.cecount := rfl
@[simp] theorem l2Put_uecount (s : State) (e : CacheSector) : (l2Put s e).uecount = s.uecount := rfl
@[simp] theorem l2Put_portLid (s : State) (e : CacheSector) : (l2Put s e).portLid = s.portLid := rfl
@[simp] theorem l2Put_portRej (s : State) (e : CacheSector) : (l2Put s e).portRej = s.portRej := rfl
@[simp] theorem l2Put_queues (s : State) (e : CacheSector) : (l2Put s e).queues = s.queues := rfl
@[simp] theorem l2Put_launches (s : State) (e : CacheSector) : (l2Put s e).launches = s.launches := rfl
@[simp] theorem l2Put_completed (s : State) (e : CacheSector) : (l2Put s e).completed = s.completed := rfl
@[simp] theorem l2Put_issued (s : State) (e : CacheSector) : (l2Put s e).issued = s.issued := rfl
@[simp] theorem l2Put_nextLid (s : State) (e : CacheSector) : (l2Put s e).nextLid = s.nextLid := rfl
@[simp] theorem l2Put_teams (s : State) (e : CacheSector) : (l2Put s e).teams = s.teams := rfl
@[simp] theorem l2Put_stamp (s : State) (e : CacheSector) : (l2Put s e).stamp = s.stamp := rfl
@[simp] theorem l2Put_swapwait (s : State) (e : CacheSector) : (l2Put s e).swapwait = s.swapwait := rfl
@[simp] theorem l2Put_swapwaitNew (s : State) (e : CacheSector) : (l2Put s e).swapwaitNew = s.swapwaitNew := rfl
@[simp] theorem l2Put_asids (s : State) (e : CacheSector) : (l2Put s e).asids = s.asids := rfl
@[simp] theorem l2Put_vectors (s : State) (e : CacheSector) : (l2Put s e).vectors = s.vectors := rfl
@[simp] theorem l2Put_discardCnt (s : State) (e : CacheSector) : (l2Put s e).discardCnt = s.discardCnt := rfl
@[simp] theorem l2Put_rangeOps (s : State) (e : CacheSector) : (l2Put s e).rangeOps = s.rangeOps := rfl
@[simp] theorem l2Put_nextRange (s : State) (e : CacheSector) : (l2Put s e).nextRange = s.nextRange := rfl
@[simp] theorem l2Put_trowel (s : State) (e : CacheSector) : (l2Put s e).trowel = s.trowel := rfl
@[simp] theorem l2Put_trref (s : State) (e : CacheSector) : (l2Put s e).trref = s.trref := rfl
@[simp] theorem l2Put_isnap (s : State) (e : CacheSector) : (l2Put s e).isnap = s.isnap := rfl
@[simp] theorem l2Put_ievt (s : State) (e : CacheSector) : (l2Put s e).ievt = s.ievt := rfl
@[simp] theorem l2Put_evmask (s : State) (e : CacheSector) : (l2Put s e).evmask = s.evmask := rfl
@[simp] theorem l2Put_snapbuf (s : State) (e : CacheSector) : (l2Put s e).snapbuf = s.snapbuf := rfl
@[simp] theorem l2Put_seq (s : State) (e : CacheSector) : (l2Put s e).seq = s.seq := rfl
@[simp] theorem l2Put_busy (s : State) (e : CacheSector) : (l2Put s e).busy = s.busy := rfl
@[simp] theorem l2Put_drop (s : State) (e : CacheSector) : (l2Put s e).drop = s.drop := rfl
@[simp] theorem l2Put_latched (s : State) (e : CacheSector) : (l2Put s e).latched = s.latched := rfl
@[simp] theorem l2Put_bootdone (s : State) (e : CacheSector) : (l2Put s e).bootdone = s.bootdone := rfl
@[simp] theorem l2Put_chainok (s : State) (e : CacheSector) : (l2Put s e).chainok = s.chainok := rfl
@[simp] theorem l2Put_measure (s : State) (e : CacheSector) : (l2Put s e).measure = s.measure := rfl
@[simp] theorem l2Put_signatures (s : State) (e : CacheSector) : (l2Put s e).signatures = s.signatures := rfl
@[simp] theorem l2Put_atbusy (s : State) (e : CacheSector) : (l2Put s e).atbusy = s.atbusy := rfl
@[simp] theorem l2Put_atdone (s : State) (e : CacheSector) : (l2Put s e).atdone = s.atdone := rfl
@[simp] theorem l2Put_aterr (s : State) (e : CacheSector) : (l2Put s e).aterr = s.aterr := rfl
@[simp] theorem l2Put_atbuf (s : State) (e : CacheSector) : (l2Put s e).atbuf = s.atbuf := rfl
@[simp] theorem l2Put_swst (s : State) (e : CacheSector) : (l2Put s e).swst = s.swst := rfl
@[simp] theorem l2Put_serial (s : State) (e : CacheSector) : (l2Put s e).serial = s.serial := rfl
@[simp] theorem l2Put_frames (s : State) (e : CacheSector) : (l2Put s e).frames = s.frames := rfl
@[simp] theorem l2Put_batchNo (s : State) (e : CacheSector) : (l2Put s e).batchNo = s.batchNo := rfl
@[simp] theorem l2Put_links (s : State) (e : CacheSector) : (l2Put s e).links = s.links := rfl
@[simp] theorem l2Put_windows (s : State) (e : CacheSector) : (l2Put s e).windows = s.windows := rfl
@[simp] theorem l2Put_peers (s : State) (e : CacheSector) : (l2Put s e).peers = s.peers := rfl
@[simp] theorem l2Put_slotClears (s : State) (e : CacheSector) : (l2Put s e).slotClears = s.slotClears := rfl
@[simp] theorem l2Put_nextPeer (s : State) (e : CacheSector) : (l2Put s e).nextPeer = s.nextPeer := rfl
@[simp] theorem l2Put_pcie (s : State) (e : CacheSector) : (l2Put s e).pcie = s.pcie := rfl
@[simp] theorem l2Put_throttled (s : State) (e : CacheSector) : (l2Put s e).throttled = s.throttled := rfl
@[simp] theorem l2Put_forced (s : State) (e : CacheSector) : (l2Put s e).forced = s.forced := rfl
@[simp] theorem l2Put_lastGang (s : State) (e : CacheSector) : (l2Put s e).lastGang = s.lastGang := rfl
@[simp] theorem l2Put_freeCtr (s : State) (e : CacheSector) : (l2Put s e).freeCtr = s.freeCtr := rfl

end Sys2Proof.Machine
end

