-- ==== Sys2Proof/Laws/Flow.lean ====
section
/-!
SUPPORT. How a gang word ends: what `gangCtx` says of the state, what parking and the advance leave unchanged, and the one lemma
for each shape of result, which the proofs about instructions cite.
-/
namespace Sys2Proof.Machine

/-- What the context of the issuing fragment says of the state. -/
theorem gangCtx_spec {s : State} {c : GCtx} (h : gangCtx s = some c) :
    listAt s.teams c.t = some c.tm ∧ gangOf c.tm c.g = some c.gg ∧ fragOf c.gg c.f = some c.fr ∧ c.fr.clause = some c.cl ∧
      s.cur = .gang c.t c.g c.f ∧ c.tm.st = .running := by
  unfold gangCtx at h
  repeat' (split at h)
  all_goals first
    | (cases h; simp_all [fragCtx])
    | cases h

/-- Two updates of one gang are one. -/
theorem modGang_modGang (s : State) (t g : Nat) (f h : Gang → Gang) :
    modGang (modGang s t g f) t g h = modGang s t g fun gg => h (f gg) := by
  simp [modGang, modTeam]

/-- An update of the issuing gang depends on that gang alone. -/
theorem modGang_ctx {s : State} {c : GCtx} (h : gangCtx s = some c) (f : Gang → Gang) :
    modGang s c.t c.g f = modGang s c.t c.g fun _ => f c.gg := by
  obtain ⟨ht, hg, -, -, -, -⟩ := gangCtx_spec h
  unfold modGang modTeam
  congr 1
  refine listModify_congr _ _ fun tm htm => ?_
  obtain rfl : c.tm = tm := by simpa [ht] using htm
  congr 1
  refine listModify_congr _ _ fun gg hgg => ?_
  obtain rfl : c.gg = gg := by simpa [gangOf] using hg.symm.trans hgg
  rfl

/-- A gang's word whose checks pass runs its own effect. -/
theorem runGang_ready {i : Instr} {info : GCtx → WordInfo} {body : GCtx → State → GRes} {s : State} {c : GCtx}
    (h : gangReady (info c) c = true) : runGang i info body s c = finish i s c (body c s) := by
  unfold gangReady at h
  simp only [Bool.and_eq_true, Bool.not_eq_true', Option.isNone_iff_eq_none, Bool.or_eq_true] at h
  obtain ⟨⟨⟨⟨h1, h2⟩, h3⟩, h4⟩, h5⟩ := h
  unfold runGang
  simp only [h1, h4, h5]
  have e2 : ¬((info c).ends = true ∧ c.cl.left ≠ 1) := by
    rintro ⟨a, b⟩
    simp_all
  rw [if_neg e2]
  cases hf : (info c).fs with
  | none => simp
  | some fs =>
    simp [hf] at h3
    have : (setField c.cl fs == 15) = false := by simpa using h3.1
    simp [this]
    intro ha
    rcases h3.2 with h | h
    · omega
    · simp [h]

/-- A gang's word whose checks pass but for its operand codes traps with ILLEGAL_OPERAND (R267). -/
theorem runGang_illegal {i : Instr} {info : GCtx → WordInfo} {body : GCtx → State → GRes} {s : State} {c : GCtx}
    (h : gangReady { info c with legal := true } c = true) (hl : (info c).legal = false) :
    runGang i info body s c = trapAll s c i .illegalOperand c.act 0 := by
  unfold gangReady at h
  simp only [Bool.and_eq_true, Bool.not_eq_true', Option.isNone_iff_eq_none, Bool.or_eq_true] at h
  obtain ⟨⟨⟨⟨h1, h2⟩, h3⟩, -⟩, -⟩ := h
  have h4 : operandsOk c (info c) = false := by simp [operandsOk, hl]
  unfold runGang
  simp only [h1, h4]
  have e2 : ¬((info c).ends = true ∧ c.cl.left ≠ 1) := by
    rintro ⟨a, b⟩
    simp_all
  rw [if_neg e2]
  cases hf : (info c).fs with
  | none => simp
  | some fs =>
    simp [hf] at h3
    have : (setField c.cl fs == 15) = false := by simpa using h3.1
    simp [this]

theorem gangOnly_illegal {i : Instr} {info : GCtx → WordInfo} {body : GCtx → State → GRes} {s : State} {c : GCtx}
    (hc : gangCtx s = some c) (h : gangReady { info c with legal := true } c = true) (hl : (info c).legal = false) :
    gangOnly i info body s = .next (trapAll s c i .illegalOperand c.act 0) := by
  unfold gangOnly
  rw [hc]
  simp [runGang_illegal h hl]

theorem gangOnly_runs {i : Instr} {info : GCtx → WordInfo} {body : GCtx → State → GRes} {s : State} {c : GCtx}
    (h : GangRuns s c info) : gangOnly i info body s = .next (finish i s c (body c s)) := by
  unfold gangOnly
  rw [h.1]
  simp [runGang_ready h.2]

theorem bothWord_runs {i : Instr} {info : GCtx → WordInfo} {body : GCtx → State → GRes} {hi hb} {s : State} {c : GCtx}
    (h : GangRuns s c info) : bothWord i info body hi hb s = .next (finish i s c (body c s)) := by
  unfold bothWord
  rw [h.1]
  simp [runGang_ready h.2]

/-! ### Parking and the clause's end -/

/-- What parking leaves: fragments, the split stack and the last-result file alone change. -/
def ParkFrame (a b : Gang) : Prop := b = { a with frags := b.frags, stack := b.stack, y0 := b.y0, y1 := b.y1 }

theorem ParkFrame.refl (a : Gang) : ParkFrame a a := rfl

theorem ParkFrame.trans {a b c : Gang} (h1 : ParkFrame a b) (h2 : ParkFrame b c) : ParkFrame a c := by
  unfold ParkFrame at *
  rw [h2, h1]

theorem ParkFrame.of {a b c : Gang} (h2 : ParkFrame b c) (h1 : ParkFrame a b) : ParkFrame a c := h1.trans h2

theorem settle_frame (st : Nat) : ∀ (fuel : Nat) (gg : Gang) (k : Nat), ParkFrame gg (settle st fuel gg k)
  | 0, gg, _ => rfl
  | fuel + 1, gg, k => by
    unfold settle
    dsimp only
    repeat' split
    all_goals first
      | (refine ParkFrame.of (settle_frame st fuel _ _) ?_; rfl)
      | rfl

theorem lowerOutst_frame (st : Nat) (gg : Gang) (k : Option Nat) : ParkFrame gg (lowerOutst st gg k) := by
  unfold lowerOutst
  repeat' split
  all_goals first
    | (refine ParkFrame.of (settle_frame st _ _ _) ?_; rfl)
    | rfl

theorem parkCheck_frame (st : Nat) (gg : Gang) (f : Nat) : ParkFrame gg (parkCheck st gg f) := by
  unfold parkCheck
  repeat' split
  all_goals first
    | (refine ParkFrame.of (lowerOutst_frame st _ _) ?_; rfl)
    | rfl

/-! ### The advance -/

theorem closeClause_o (gg : Gang) (home : Mask) (keep : Bool) (n l : Nat) (hn : n < 8) (hl : l < 64) :
    laneOf (oReg (closeClause gg home keep) n) l =
      if keep = false ∧ inMask home l = true then 0 else laneOf (oReg gg n) l := by
  unfold closeClause
  cases keep
  · have h8 : n = 0 ∨ n = 1 ∨ n = 2 ∨ n = 3 ∨ n = 4 ∨ n = 5 ∨ n = 6 ∨ n = 7 := by omega
    rcases h8 with rfl | rfl | rfl | rfl | rfl | rfl | rfl | rfl <;>
      simp [oReg, List.range, List.range.loop, smGet_set, laneOf_mergeLanes, hl, laneOf_zeroLanes]
  · simp

theorem closeClause_frame (gg : Gang) (home : Mask) (keep : Bool) :
    closeClause gg home keep = { gg with o := (closeClause gg home keep).o } := by
  unfold closeClause
  cases keep <;> rfl

theorem fragOf_putFrag {gg : Gang} {f : Nat} {fr x : Frag} (h : fragOf gg f = some fr) : fragOf (putFrag gg f x) f = some x := by
  unfold fragOf putFrag at *
  rw [listAt_set_self]
  cases hl : listAt gg.frags f <;> simp_all

theorem fragOf_modFragOf (gg : Gang) (f : Nat) (h : Frag → Frag) : fragOf (modFragOf gg f h) f = (fragOf gg f).map h := by
  simp only [fragOf, modFragOf, listAt_modify_self]
  cases listAt gg.frags f with
  | none => rfl
  | some x => cases x <;> rfl

/-- Everything that the advance to the next word does to a gang (R257): within the clause the fragment alone changes; at its end
the o registers are cleared where KEEP is 0, and the fragment may park. -/
theorem advanceGang_spec (st : Nat) {gg : Gang} {f : Nat} {fr : Frag} {cl : Clause} (hf : fragOf gg f = some fr)
    (hc : fr.clause = some cl) :
    (advanceGang st gg f = { gg with
      o := (advanceGang st gg f).o, y0 := (advanceGang st gg f).y0, y1 := (advanceGang st gg f).y1
      frags := (advanceGang st gg f).frags, stack := (advanceGang st gg f).stack }) ∧
    (∀ n l, n < 8 → l < 64 → laneOf (oReg (advanceGang st gg f) n) l =
      if cl.left ≤ 1 ∧ cl.keep = false ∧ inMask fr.home l = true then 0 else laneOf (oReg gg n) l) ∧
    (1 < cl.left → (advanceGang st gg f).y0 = gg.y0 ∧ (advanceGang st gg f).y1 = gg.y1 ∧
      ∃ fr', fragOf (advanceGang st gg f) f = some fr' ∧ fr'.pc = fr.pc + 4 ∧ fr'.home = fr.home ∧ fr'.exmask = fr.exmask ∧
        fr'.clause = some { cl with left := cl.left - 1, hints := [] } ∧ fr'.count = fr.count) := by
  unfold advanceGang
  simp only [hf, hc]
  by_cases hl : cl.left ≤ 1
  · simp only [hl, if_true, true_and]
    refine ⟨?_, ?_, fun h => by omega⟩
    · rw [parkCheck_frame st (putFrag (closeClause gg fr.home cl.keep) f _) f]
      unfold putFrag
      rw [closeClause_frame gg fr.home cl.keep]
    · intro n l hn hl
      rw [parkCheck_frame st (putFrag (closeClause gg fr.home cl.keep) f _) f]
      exact closeClause_o gg fr.home cl.keep n l hn hl
  · simp only [hl, if_false, false_and]
    refine ⟨rfl, fun _ _ _ _ => rfl, fun _ => ⟨rfl, rfl, _, fragOf_putFrag hf, rfl, rfl, rfl, rfl, rfl⟩⟩

theorem setV_lane (gg : Gang) (n k l : Nat) (m : Mask) (x : Lanes) (hl : l < 64) :
    laneOf (vReg (setV gg n m x) k) l = if k = n ∧ inMask m l = true then laneOf x l else laneOf (vReg gg k) l := by
  simp only [vReg, setV, smGet_set]
  by_cases h : k = n
  · subst h
    simp [laneOf_mergeLanes _ _ _ _ hl]
  · simp [h]

theorem setO_lane (gg : Gang) (n k l : Nat) (m : Mask) (x : Lanes) (hl : l < 64) :
    laneOf (oReg (setO gg n m x) k) l = if k = n ∧ inMask m l = true then laneOf x l else laneOf (oReg gg k) l := by
  simp only [oReg, setO, smGet_set]
  by_cases h : k = n
  · subst h
    simp [laneOf_mergeLanes _ _ _ _ hl]
  · simp [h]

theorem clearTag_tag (gg : Gang) (n k : Nat) : tagOf (clearTag gg n) k = if k = n then tagOf gg n &&& ~~~1 else tagOf gg k := by
  simp [tagOf, clearTag, setTag, smGet_set]

/-- A word that ends by updating its gang alone, then advancing. -/
theorem advance_modGang {s : State} {c : GCtx} (h : gangCtx s = some c) (F : Gang → Gang) :
    advance (modGang s c.t c.g F) c = modGang s c.t c.g fun _ => advanceGang s.cycle (F c.gg) c.f := by
  unfold advance
  rw [modGang_modGang, modGang_ctx h]
  rfl

/-- The end of a word that changes no register (R257). -/
theorem plain_done {s : State} {c : GCtx} (h : gangCtx s = some c) :
    ∃ gg, GangBecomes s (advance s c) c gg ∧ NoRegister c gg := by
  obtain ⟨-, -, hf, hc, -, -⟩ := gangCtx_spec h
  obtain ⟨h1, h2, h3⟩ := advanceGang_spec s.cycle hf hc
  refine ⟨advanceGang s.cycle c.gg c.f, ?_, h1, h2, fun hl => ⟨(h3 hl).1, (h3 hl).2.1⟩, fun hl => (h3 hl).2.2⟩
  unfold GangBecomes advance
  exact modGang_ctx h _

/-- The end of a word with a g result. -/
theorem g_done {s : State} {c : GCtx} (h : gangCtx s = some c) (d : Nat) (x : DWord) :
    ∃ gg, GangBecomes s (advance (writeG s c d x) c) c gg ∧ GprDone c gg d x := by
  obtain ⟨-, -, hf, hc, -, -⟩ := gangCtx_spec h
  have hf' : fragOf (setG c.gg d x) c.f = some c.fr := hf
  obtain ⟨h1, h2, h3⟩ := advanceGang_spec s.cycle hf' hc
  refine ⟨_, advance_modGang h _, ?_, ?_, h2, fun hl => ⟨(h3 hl).1, (h3 hl).2.1⟩, fun hl => (h3 hl).2.2⟩
  · intro n
    rw [h1]
    simp [gReg, setG, smGet_set]
  · rw [h1]
    rfl

/-- The end of a word with a predicate result. -/
theorem p_done {s : State} {c : GCtx} (h : gangCtx s = some c) (p : Nat) (x : Mask) :
    ∃ gg, GangBecomes s (advance (writeP s c p c.act x) c) c gg ∧ PredDone c gg p (inMask x) := by
  obtain ⟨-, -, hf, hc, -, -⟩ := gangCtx_spec h
  have hf' : fragOf (setP c.gg p c.act x) c.f = some c.fr := hf
  obtain ⟨h1, h2, h3⟩ := advanceGang_spec s.cycle hf' hc
  refine ⟨_, advance_modGang h _, ?_, ?_, h2, fun hl => ⟨(h3 hl).1, (h3 hl).2.1⟩, fun hl => (h3 hl).2.2⟩
  · intro n l hl
    rw [h1]
    simp only [pReg, setP, smGet_set]
    by_cases hn : n = p
    · subst hn
      simp [inMask_mergeMask _ _ _ _ hl]
    · simp [hn]
  · rw [h1]
    rfl

/-- The end of a word with a 64-bit vector result. -/
theorem pair_done {s : State} {c : GCtx} (h : gangCtx s = some c) (d : Nat) (m : Mask) (lo hi : Lanes) :
    ∃ gg, GangBecomes s (advance (writePair s c d m lo hi) c) c gg ∧ PairDone c gg d m (laneOf lo) (laneOf hi) := by
  obtain ⟨-, -, hf, hc, -, -⟩ := gangCtx_spec h
  have hf' : fragOf (clearTag (clearTag (setV (setV c.gg d m lo) (d + 1) m hi) d) (d + 1)) c.f = some c.fr := hf
  obtain ⟨h1, h2, h3⟩ := advanceGang_spec s.cycle hf' hc
  refine ⟨_, advance_modGang h _, ?_, ?_, ?_, h2, fun hl => ⟨(h3 hl).1, (h3 hl).2.1⟩, fun hl => (h3 hl).2.2⟩
  · intro n l hl
    rw [h1]
    show laneOf (vReg (setV (setV c.gg d m lo) (d + 1) m hi) n) l = _
    rw [setV_lane _ _ _ _ _ _ hl, setV_lane _ _ _ _ _ _ hl]
    cases inMask m l
    · simp
    · simp only [and_true]
      repeat' split
      all_goals first | rfl | omega
  · intro n
    rw [h1]
    show tagOf (clearTag (clearTag (setV (setV c.gg d m lo) (d + 1) m hi) d) (d + 1)) n = _
    rw [clearTag_tag, clearTag_tag, clearTag_tag]
    have ht : ∀ k, tagOf (setV (setV c.gg d m lo) (d + 1) m hi) k = tagOf c.gg k := fun _ => rfl
    simp only [ht]
    by_cases h1 : n = d + 1
    · subst h1
      simp
    · by_cases h2 : n = d
      · subst h2
        simp
      · simp only [h1, h2, or_self, if_false]
  · rw [h1]
    rfl

theorem raiseCount_count (fr : Frag) : (raiseCount fr).count = countUp fr := by
  unfold raiseCount countUp
  cases fr.replay with
  | none => rfl
  | some r => cases hc : r.counted <;> simp [hc]

theorem raiseCount_rest (fr : Frag) : (raiseCount fr).pc = fr.pc ∧ (raiseCount fr).home = fr.home ∧
    (raiseCount fr).exmask = fr.exmask ∧ (raiseCount fr).clause = fr.clause := by
  unfold raiseCount
  cases fr.replay with
  | none => exact ⟨rfl, rfl, rfl, rfl⟩
  | some r => cases hc : r.counted <;> simp [hc]

/-- The end of a lane instruction with a 32-bit result (R65, R71, R263). -/
theorem lane_done {s : State} {c : GCtx} (h : gangCtx s = some c) (d : Nat) (m : Mask) (x : Lanes) :
    ∃ gg, GangBecomes s (advance (writeResult s c d m x) c) c gg ∧ LaneDone c gg d m (laneOf x) := by
  obtain ⟨-, -, hf, hc, -, -⟩ := gangCtx_spec h
  have hf' : fragOf (modFragOf (pushResult (writeDst c.gg d m x) m x) c.f raiseCount) c.f = some (raiseCount c.fr) := by
    rw [fragOf_modFragOf]
    have : fragOf (pushResult (writeDst c.gg d m x) m x) c.f = some c.fr := by
      unfold writeDst
      repeat' split
      all_goals exact hf
    rw [this]
    rfl
  obtain ⟨r1, r2, r3, r4⟩ := raiseCount_rest c.fr
  obtain ⟨h1, h2, h3⟩ := advanceGang_spec s.cycle hf' (r4.trans hc)
  refine ⟨_, advance_modGang h _, ?_, ?_, ?_, ?_, ?_, ?_⟩
  · intro n l hl
    rw [h1]
    show laneOf (vReg (writeDst c.gg d m x) n) l = _
    unfold writeDst
    split
    · show laneOf (vReg (setV c.gg d m x) n) l = _
      rw [setV_lane _ _ _ _ _ _ hl]
      have : n = d ∧ n ≤ 111 ∧ inMask m l = true ↔ n = d ∧ inMask m l = true :=
        ⟨fun h => ⟨h.1, h.2.2⟩, fun h => ⟨h.1, by omega, h.2⟩⟩
      simp only [this]
    · have : ¬(n = d ∧ n ≤ 111 ∧ inMask m l = true) := by omega
      rw [if_neg this]
      split <;> rfl
  · intro n l hn hl
    rw [h2 n l hn hl, r2]
    split
    · rfl
    · show laneOf (oReg (writeDst c.gg d m x) n) l = if n + 112 = d ∧ inMask m l = true then laneOf x l else laneOf (oReg c.gg n) l
      unfold writeDst
      split
      · have : ¬(n + 112 = d ∧ inMask m l = true) := by omega
        rw [if_neg this]
        rfl
      split
      · rw [setO_lane _ _ _ _ _ _ hl]
        have : n = d - 112 ↔ n + 112 = d := by omega
        simp only [this]
      · have : ¬(n + 112 = d ∧ inMask m l = true) := by omega
        rw [if_neg this]
  · intro n
    rw [h1]
    show tagOf (writeDst c.gg d m x) n = _
    unfold writeDst
    split
    · rw [clearTag_tag]
      have ht : ∀ k, tagOf (setV c.gg d m x) k = tagOf c.gg k := fun _ => rfl
      simp only [ht]
      by_cases h2 : n = d
      · subst h2
        simp [*]
      · simp only [h2, false_and, if_false]
    · have : ¬(n = d ∧ n ≤ 111) := by omega
      rw [if_neg this]
      split <;> rfl
  · intro hl l h64
    obtain ⟨e0, e1, -⟩ := h3 hl
    rw [e0, e1]
    have w0 : (writeDst c.gg d m x).y0 = c.gg.y0 ∧ (writeDst c.gg d m x).y1 = c.gg.y1 := by
      unfold writeDst
      repeat' split
      all_goals exact ⟨rfl, rfl⟩
    constructor
    · show laneOf (mergeLanes m x (writeDst c.gg d m x).y0) l = _
      rw [laneOf_mergeLanes _ _ _ _ h64, w0.1]
    · show laneOf (mergeLanes m (writeDst c.gg d m x).y0 (writeDst c.gg d m x).y1) l = _
      rw [laneOf_mergeLanes _ _ _ _ h64, w0.1, w0.2]
  · rw [h1]
    unfold writeDst
    repeat' split
    all_goals rfl
  · intro hl
    obtain ⟨-, -, fr', a, b, b2, b3, b4, b5⟩ := h3 hl
    exact ⟨fr', a, b.trans (by rw [r1]), b2.trans r2, b3.trans r3, b4, b5.trans (raiseCount_count _)⟩

/-- A lane instruction's result, lane by lane. -/
theorem LaneDone.congr {c : GCtx} {gg : Gang} {d : Nat} {m : Mask} {f g : Nat → Word} (h : LaneDone c gg d m f)
    (e : ∀ l, l < 64 → f l = g l) : LaneDone c gg d m g := by
  obtain ⟨h1, h2, h3, h4, h5, h6⟩ := h
  refine ⟨fun n l hl => (h1 n l hl).trans ?_, fun n l hn hl => (h2 n l hn hl).trans ?_, h3, fun hc l hl => ?_, h5, h6⟩
  · rw [e l hl]
  · simp only [e l hl]
  · obtain ⟨a, b⟩ := h4 hc l hl
    exact ⟨a.trans (by rw [e l hl]), b⟩

theorem lane_done_fn {s : State} {c : GCtx} (h : gangCtx s = some c) (d : Nat) (m : Mask) (f : Nat → Word) :
    ∃ gg, GangBecomes s (advance (writeResult s c d m (mkLanes f)) c) c gg ∧ LaneDone c gg d m f := by
  obtain ⟨gg, hb, hd⟩ := lane_done h d m (mkLanes f)
  exact ⟨gg, hb, hd.congr fun l hl => laneOf_mkLanes f l hl⟩

theorem pair_done_fn {s : State} {c : GCtx} (h : gangCtx s = some c) (d : Nat) (m : Mask) (lo hi : Nat → Word) :
    ∃ gg, GangBecomes s (advance (writePair s c d m (mkLanes lo) (mkLanes hi)) c) c gg ∧ PairDone c gg d m lo hi := by
  obtain ⟨gg, hb, h1, h2⟩ := pair_done h d m (mkLanes lo) (mkLanes hi)
  refine ⟨gg, hb, fun n l hl => ?_, h2⟩
  rw [h1 n l hl, laneOf_mkLanes lo l hl, laneOf_mkLanes hi l hl]

/-- A predicate result that holds lane by lane. -/
theorem PredDone.congr {c : GCtx} {gg : Gang} {p : Nat} {f g : Nat → Bool} (h : PredDone c gg p f)
    (e : ∀ l, l < 64 → f l = g l) : PredDone c gg p g := by
  obtain ⟨h1, h2⟩ := h
  exact ⟨fun n l hl => (h1 n l hl).trans (by rw [e l hl]), h2⟩

end Sys2Proof.Machine
end

