-- ==== Sys2Proof/Laws/HawkFlow.lean ====
section
/-!
SUPPORT. How a hawk word ends: what `hawkCtx` says of the state, and the one lemma for each shape of result.
-/
namespace Sys2Proof.Machine

/-- What the context of the issuing hawk says of the state. -/
theorem hawkCtx_spec {s : State} {c : HCtx} (h : hawkCtx s = some c) :
    listAt s.teams c.t = some c.tm ∧ c.tm.hawk = c.hk ∧ c.hk.clause = some c.cl ∧ c.act = (c.cl.gmask != 0) ∧
      s.cur = .hawk c.t ∧ c.tm.st = .running := by
  unfold hawkCtx at h
  repeat' (split at h)
  all_goals first
    | (cases h; simp_all)
    | cases h

/-- Two updates of one hawk are one. -/
theorem modHawk_modHawk (s : State) (t : Nat) (f h : Hawk → Hawk) :
    modHawk (modHawk s t f) t h = modHawk s t fun hk => h (f hk) := by
  simp [modHawk, modTeam]

/-- An update of the issuing hawk depends on that hawk alone. -/
theorem modHawk_ctx {s : State} {c : HCtx} (h : hawkCtx s = some c) (f : Hawk → Hawk) :
    modHawk s c.t f = modHawk s c.t fun _ => f c.hk := by
  obtain ⟨ht, hh, -, -, -, -⟩ := hawkCtx_spec h
  unfold modHawk modTeam
  congr 1
  refine listModify_congr _ _ fun tm htm => ?_
  obtain rfl : c.tm = tm := by simpa [ht] using htm
  rw [hh]

/-- A hawk's word whose checks pass and whose effect is done: the effect, the advance, and the count of an open window. -/
theorem runHawk_done {i : Instr} {info : HCtx → HInfo} {body : HCtx → State → HRes} {s s' : State} {c : HCtx}
    (hr : hawkReady (info c) c = true) (hb : body c s = .done s') :
    runHawk i info body s c =
      match c.hk.window with
      | none => advanceHawk s' c.t
      | some _ => countWindow (advanceHawk s' c.t) c.t := by
  unfold hawkReady at hr
  simp only [Bool.and_eq_true, Bool.not_eq_true', Option.isNone_iff_eq_none, Bool.or_eq_true] at hr
  obtain ⟨⟨⟨⟨⟨⟨⟨h1, h2⟩, h3⟩, h4⟩, h5⟩, h6⟩, h7⟩, h8⟩ := hr
  unfold runHawk
  simp only [h1, h4, h5, h6, h7]
  have e2 : ¬((info c).ends = true ∧ c.cl.left ≠ 1) := by
    rintro ⟨a, b⟩
    simp_all
  rw [if_neg e2]
  have e3 : ((info c).fs.any fun fs => setField c.cl fs == 15) = false := by
    cases hf : (info c).fs with
    | none => rfl
    | some fs => simp [hf] at h3; simpa using h3.1
  have e4 : ((info c).fs.any fun fs => decide (63 ≤ flagOf c.hk.flags (hawkFlag c fs)) &&
      ((c.hk.window.isSome && (info c).treat != .run) || raisesHawk c (hawkFlag c fs) (body c s))) = false := by
    cases hf : (info c).fs with
    | none => rfl
    | some fs =>
      have : decide (63 ≤ flagOf c.hk.flags (hawkFlag c fs)) = false := by simp [hf] at h3; simpa using h3.2
      simp [this]
  simp only [e3, e4]
  cases hwin : c.hk.window with
  | none => simp [hb, finishHawk]
  | some win =>
    simp only [hwin, Bool.and_eq_true, Bool.not_eq_true', Option.isNone_iff_eq_none, decide_eq_true_eq, beq_iff_eq] at h8
    obtain ⟨⟨⟨w1, w2⟩, w3⟩, w4⟩ := h8
    have : ¬ 64 ≤ win.count := by omega
    simp [runInWindow, w1, w2, w3, this, hb]

theorem hawkWord_done {i : Instr} {info : HCtx → HInfo} {body : HCtx → State → HRes} {s s' : State} {c : HCtx}
    (h : HawkRuns s c info) (hb : body c s = .done s') : hawkWord i info body s = .next (hawkEnd c s') := by
  unfold hawkWord
  rw [h.1]
  simp only [runHawk_done h.2.2 hb]
  rfl

theorem bothWord_hawk_done {i : Instr} {ginfo gbody} {info : HCtx → HInfo} {body : HCtx → State → HRes} {s s' : State} {c : HCtx}
    (h : HawkRuns s c info) (hb : body c s = .done s') : bothWord i ginfo gbody info body s = .next (hawkEnd c s') := by
  unfold bothWord
  rw [h.1, h.2.1]
  simp only [runHawk_done h.2.2 hb]
  rfl

/-- The end of a hawk word whose effect is an update of the hawk that leaves its place alone. -/
theorem hawkEnd_mod {s : State} {c : HCtx} (h : hawkCtx s = some c) (F : Hawk → Hawk) (hc : (F c.hk).clause = c.hk.clause)
    (hp : (F c.hk).pc = c.hk.pc) (hw : (F c.hk).window = c.hk.window) :
    ∃ hk, HawkBecomes s (hawkEnd c (modHawk s c.t F)) c hk ∧
      hk = { F c.hk with pc := hk.pc, st := hk.st, clause := hk.clause, window := hk.window } ∧ HawkGoesOn c hk := by
  obtain ⟨-, -, hcl, -, -, -⟩ := hawkCtx_spec h
  unfold hawkEnd HawkBecomes advanceHawk countWindow
  cases hwin : c.hk.window with
  | none =>
    simp only [modHawk_modHawk]
    refine ⟨_, modHawk_ctx h _, ?_, ?_, ?_, ?_, ?_⟩ <;> simp [advanceHawkIn, hc, hcl, hp, hw, hwin]
  | some w =>
    simp only [modHawk_modHawk]
    refine ⟨_, modHawk_ctx h _, ?_, ?_, ?_, ?_, ?_⟩ <;> simp [advanceHawkIn, hc, hcl, hp, hw, hwin]

/-- The end of a hawk word with a k result. -/
theorem k_done {s : State} {c : HCtx} (h : hawkCtx s = some c) (d : Nat) (x : DWord) :
    ∃ hk, HawkBecomes s (hawkEnd c (writeK s c.t d x)) c hk ∧ KDone c hk d x := by
  obtain ⟨hk, hb, he, hg⟩ := hawkEnd_mod h (fun hk => setK hk d x) rfl rfl rfl
  refine ⟨hk, hb, fun n => ?_, ?_, hg⟩
  · rw [he]
    simp [kReg, setK, smGet_set]
  · rw [he]
    rfl

theorem modHawk_id {s : State} {c : HCtx} (h : hawkCtx s = some c) : modHawk s c.t (fun hk => hk) = s := by
  unfold modHawk modTeam
  have : listModify (fun tm : Team => { tm with hawk := tm.hawk }) s.teams c.t = s.teams := by
    generalize s.teams = l
    generalize c.t = n
    induction l generalizing n with
    | nil => rfl
    | cons y l ih => cases n <;> simp [listModify, ih]
  rw [this]

/-- The end of a hawk word that changes no register. -/
theorem hawk_plain_done {s : State} {c : HCtx} (h : hawkCtx s = some c) :
    ∃ hk, HawkBecomes s (hawkEnd c s) c hk ∧ NoK c hk := by
  obtain ⟨hk, hb, he, hg⟩ := hawkEnd_mod h (fun hk => hk) rfl rfl rfl
  rw [modHawk_id h] at hb
  exact ⟨hk, hb, he, hg⟩

/-- The hawk's word of both streams, with no window open and its checks passed, takes what its effect answers. -/
theorem runHawk_plain {i : Instr} {info : HCtx → HInfo} {body : HCtx → State → HRes} {s : State} {k : HCtx}
    (h : HawkRunsPlain s k info) : runHawk i info body s k = finishHawk i s k (body k s) := by
  obtain ⟨⟨h1, h2, h3⟩, h4⟩ := h
  simp only [hawkReady, h4, Bool.and_eq_true, Bool.not_eq_true', Option.isNone_iff_eq_none, Bool.or_eq_true] at h3
  obtain ⟨⟨⟨⟨⟨⟨⟨a1, a2⟩, a3⟩, a4⟩, a5⟩, a6⟩, a7⟩, -⟩ := h3
  have e2 : ¬((info k).ends = true ∧ k.cl.left ≠ 1) := by
    rintro ⟨a, b⟩
    simp_all
  simp only [runHawk, a1, e2, a4, a5, a6, a7, h4, if_false]
  cases hf : (info k).fs with
  | none => simp
  | some fs =>
    simp_all <;> omega

theorem bothWord_hawk_runs {i : Instr} {ginfo gbody} {info : HCtx → HInfo} {body : HCtx → State → HRes} {s : State} {k : HCtx}
    (h : HawkRunsPlain s k info) : bothWord i ginfo gbody info body s = .next (finishHawk i s k (body k s)) := by
  unfold bothWord
  rw [h.1.1, h.1.2.1]
  simp [runHawk_plain h]

theorem hawkWord_runs {i : Instr} {info : HCtx → HInfo} {body : HCtx → State → HRes} {s : State} {k : HCtx}
    (h : HawkRunsPlain s k info) : hawkWord i info body s = .next (finishHawk i s k (body k s)) := by
  unfold hawkWord
  rw [h.1.1]
  simp [runHawk_plain h]

/-- A word that each stream executes once completes where its effect is done. -/
theorem once_out {i : Instr} {info : EInfo} {fs : BitVec 1} {body : Issuer → State → ERes} {s : State} {cond : Issuer → Prop}
    {dest : Issuer → State} (he : exec i s = onceWord i info fs body s) (hb : ∀ x, cond x → body x s = .done (dest x)) :
    OnceOut i s info fs cond dest := by
  refine ⟨fun c h => ⟨fun h0 => ?_, fun h0 hx => ?_⟩, fun k h hx => ?_⟩
  · rw [he, onceWord, bothWord_runs h]
    simp [h0, finish]
  · rw [he, onceWord, bothWord_runs h]
    simp only [if_neg h0, hb _ hx, toGang, finish]
  · rw [he, onceWord, bothWord_hawk_runs h]
    simp [hb _ hx, toHawk, finishHawk, hawkEnd, h.2]

/-- It traps where its effect is a trap. -/
theorem once_traps {i : Instr} {info : EInfo} {fs : BitVec 1} {body : Issuer → State → ERes} {s : State} {cond : Issuer → Prop}
    {cause : Cause} {addr : Nat} {cls : Option EngineClass} (he : exec i s = onceWord i info fs body s)
    (hb : ∀ x, cond x → body x s = .trap cause addr cls) : OnceTraps i s info fs cause addr cls cond := by
  refine ⟨fun c h h0 hx => ?_, fun k h hx => ?_⟩
  · rw [he, onceWord, bothWord_runs h]
    cases cls <;> simp only [if_neg h0, hb _ hx, toGang, finish]
  · rw [he, onceWord, bothWord_hawk_runs h]
    cases cls <;> simp [hb _ hx, toHawk, finishHawk]

/-- It waits where its effect is a wait. -/
theorem once_waits {i : Instr} {info : EInfo} {body : Issuer → State → ERes} {s : State} {cond : Issuer → Prop} {dest : Issuer → State}
    {w : Wait} (he : exec i s = onceWord i info 0 body s) (hb : ∀ x, cond x → body x s = .wait w (dest x)) :
    OnceWaitsIn i s info w cond dest := by
  refine ⟨fun c h h0 hx => ?_, fun k h hx => ?_⟩
  · rw [he, onceWord, bothWord_runs h]
    simp only [if_neg h0, hb _ hx, toGang, finish]
  · rw [he, onceWord, bothWord_hawk_runs h]
    simp only [hb _ hx, toHawk, finishHawk, h.2]

end Sys2Proof.Machine
end

