-- ==== Sys2Proof/Laws/Memory.lean ====
section
/-!
SUPPORT. Memory: what a byte reads as after a write, and that every memory operation keeps the canonical form of memory.
-/
namespace Sys2Proof.Machine

/-! ### What a byte of DRAM reads as -/

theorem dramByte_setMemByte (s : State) (pa a : Nat) (b : Byte) :
    dramByte (setMemByte s pa b) a = if a = pa then b else dramByte s a := smGet_set _ _ _ _ _

/-- After writing consecutive bytes, an address inside them reads its byte and every other address reads as before. -/
theorem dramByte_setMemBytes : ∀ (bs : List Byte) (s : State) (pa a : Nat),
    dramByte (setMemBytes s pa bs) a = if pa ≤ a then (bs[a - pa]?).getD (dramByte s a) else dramByte s a
  | [], s, pa, a => by simp [setMemBytes]
  | b :: bs, s, pa, a => by
    rw [setMemBytes, dramByte_setMemBytes bs, dramByte_setMemByte]
    by_cases h : a = pa
    · subst h
      have h3 : ¬a + 1 ≤ a := by omega
      simp [h3]
    · by_cases h2 : pa ≤ a
      · have e : a - pa = (a - (pa + 1)) + 1 := by omega
        have h3 : pa + 1 ≤ a := by omega
        rw [e]
        simp [h, h2, h3]
      · have h3 : ¬pa + 1 ≤ a := by omega
        simp [h, h2, h3]

/-! ### The canonical form -/

/-- An update that leaves memory alone keeps its form. -/
theorem MemCanonical.of_mem {s t : State} (h : MemCanonical s) (e : t.mem = s.mem) : MemCanonical t := by
  unfold MemCanonical
  rw [e]
  exact h

/-- Both answers of a choice keep the form. -/
theorem MemCanonical.ite {p : Prop} [Decidable p] {a b : State} (ha : MemCanonical a) (hb : MemCanonical b) :
    MemCanonical (if p then a else b) := by
  split
  · exact ha
  · exact hb

theorem memCanonical_reset : MemCanonical State.reset := rfl

/-- A fold of updates that each keep a property keeps it. -/
theorem fold_keeps {α σ : Type} {P : σ → Prop} {f : σ → α → σ} (hf : ∀ s a, P s → P (f s a)) :
    ∀ (l : List α) (s : σ), P s → P (l.foldl f s)
  | [], _, h => h
  | a :: l, s, h => fold_keeps hf l (f s a) (hf s a h)

theorem MemCanonical.setMemByte {s : State} (h : MemCanonical s) (pa : Nat) (b : Byte) : MemCanonical (setMemByte s pa b) :=
  smWf_set _ _ _ _ h

theorem MemCanonical.setMemBytes : ∀ (bs : List Byte) {s : State} (_ : MemCanonical s) (pa : Nat),
    MemCanonical (Machine.setMemBytes s pa bs)
  | [], _, h, _ => h
  | b :: bs, _, h, pa => MemCanonical.setMemBytes bs (h.setMemByte pa b) (pa + 1)

theorem MemCanonical.setPoison {s : State} (h : MemCanonical s) (sec : Nat) (p : Bool) : MemCanonical (setPoison s sec p) := h

theorem MemCanonical.toDram {s : State} (h : MemCanonical s) (sec : Nat) (d : List Byte) (p : Bool) : MemCanonical (toDram s sec d p) :=
  (MemCanonical.setMemBytes (d.take 32) h _).setPoison sec p

/-! #### The second level -/

theorem MemCanonical.l2WriteBack {s : State} (h : MemCanonical s) (e : CacheSector) : MemCanonical (l2WriteBack s e) :=
  MemCanonical.ite (h.toDram _ _ _) h

theorem MemCanonical.l2Drop {s : State} (h : MemCanonical s) (p : CacheSector → Bool) : MemCanonical (l2Drop s p) :=
  fold_keeps (fun _ e h => h.l2WriteBack e) _ _ (h.of_mem rfl)

theorem MemCanonical.cleanL2 {s : State} (h : MemCanonical s) (p : CacheSector → Bool) : MemCanonical (cleanL2 s p) :=
  (fold_keeps (P := MemCanonical) (fun _ e h => h.l2WriteBack e) (s.l2.filter p) s h).of_mem rfl

theorem MemCanonical.l2Put {s : State} (h : MemCanonical s) (e : CacheSector) : MemCanonical (l2Put s e) := h.of_mem rfl

theorem MemCanonical.evictL2 {s : State} (h : MemCanonical s) (line : Nat) : MemCanonical (evictL2 s line) := (h.cleanL2 _).l2Drop _

theorem MemCanonical.l2Room (sec : Nat) : ∀ (fuel : Nat) {s : State}, MemCanonical s → MemCanonical (l2Room s sec fuel)
  | 0, _, h => h
  | fuel + 1, s, h => by
    unfold Machine.l2Room
    refine MemCanonical.ite h ?_
    split
    · exact MemCanonical.l2Room sec fuel (h.evictL2 _)
    · exact h

theorem MemCanonical.l2Other {s : State} (h : MemCanonical s) (sec : Nat) (w : Install) : MemCanonical (l2Other s sec w) :=
  (h.cleanL2 _).l2Drop _

theorem MemCanonical.l2Admit {s t : State} (h : MemCanonical s) {sec : Nat} {w : Install} (e : l2Admit s sec w = some t) :
    MemCanonical t := by
  unfold Machine.l2Admit at e
  dsimp only at e
  split at e
  · split at e
    · exact Option.some.inj e ▸ MemCanonical.l2Room _ _ h
    · cases e
  · cases e

theorem MemCanonical.l2Store {s : State} (h : MemCanonical s) (sec : Nat) (d : List Byte) (p : Bool) (w : Install) :
    MemCanonical (l2Store s sec d p w) := by
  have h' := h.l2Other sec w
  unfold Machine.l2Store
  dsimp only
  split
  · exact h'.l2Put _
  · split
    · rename_i e
      exact (h'.l2Admit e).l2Put _
    · exact h'.toDram _ _ _

theorem MemCanonical.l2SetPoison {s : State} (h : MemCanonical s) (sec : Nat) : MemCanonical (l2SetPoison s sec) := by
  unfold Machine.l2SetPoison
  split
  · exact h.l2Put _
  · exact h.setPoison _ _

theorem MemCanonical.l2Fill {s : State} (h : MemCanonical s) (sec : Nat) (w : Install) : MemCanonical (l2Fill s sec w) := by
  have h' := h.l2Other sec w
  unfold Machine.l2Fill
  dsimp only
  split
  · exact h'
  · split
    · rename_i e
      exact (h'.l2Admit e).l2Put _
    · exact h'

/-! #### The first level -/

theorem MemCanonical.writeBack {s : State} (h : MemCanonical s) (e : CacheSector) : MemCanonical (writeBack s e) :=
  MemCanonical.ite (h.l2Store _ _ _ _) h

theorem MemCanonical.l1Drop {s : State} (h : MemCanonical s) (p : CacheSector → Bool) : MemCanonical (l1Drop s p) :=
  fold_keeps (fun _ e h => h.writeBack e) _ _ (h.of_mem rfl)

theorem MemCanonical.l1Put {s : State} (h : MemCanonical s) (e : CacheSector) : MemCanonical (l1Put s e) := h.of_mem rfl

theorem MemCanonical.cleanL1 {s : State} (h : MemCanonical s) (p : CacheSector → Bool) : MemCanonical (cleanL1 s p) :=
  (fold_keeps (P := MemCanonical) (fun _ e h => h.writeBack e) (s.l1.filter fun e => p e && e.dirty) s h).of_mem rfl

theorem MemCanonical.evictL1 {s : State} (h : MemCanonical s) (core line : Nat) : MemCanonical (evictL1 s core line) :=
  (h.cleanL1 _).l1Drop _

theorem MemCanonical.l1Room (core sec : Nat) : ∀ (fuel : Nat) {s : State}, MemCanonical s → MemCanonical (l1Room s core sec fuel)
  | 0, _, h => h
  | fuel + 1, s, h => by
    unfold Machine.l1Room
    refine MemCanonical.ite h ?_
    split
    · exact MemCanonical.l1Room core sec fuel (h.evictL1 _ _)
    · exact h

theorem MemCanonical.dropOther {s : State} (h : MemCanonical s) (core sec : Nat) (w : Install) :
    MemCanonical (dropOther s core sec w) := (h.cleanL1 _).l1Drop _

theorem MemCanonical.l1Admit {s t : State} (h : MemCanonical s) {core sec : Nat} {w : Install} (e : l1Admit s core sec w = some t) :
    MemCanonical t := by
  unfold Machine.l1Admit at e
  dsimp only at e
  split at e
  · split at e
    · exact Option.some.inj e ▸ MemCanonical.l1Room _ _ _ h
    · cases e
  · cases e

theorem MemCanonical.passToken {s : State} (h : MemCanonical s) (region holder : Nat) : MemCanonical (passToken s region holder) :=
  MemCanonical.ite h (((h.cleanL1 _).l1Drop _).of_mem rfl)

theorem MemCanonical.recallStations {s : State} (h : MemCanonical s) (lo hi : Nat) : MemCanonical (recallStations s lo hi) :=
  fold_keeps (fun _ _ h => h.passToken _ _) _ _ h

theorem MemCanonical.allocSector {s : State} (h : MemCanonical s) (core sec : Nat) (w : Install) :
    MemCanonical (allocSector s core sec w) := by
  have h' := h.dropOther core sec w
  have h2 := (h'.cleanL1 fun e => e.sector == sec).l2Fill sec w
  unfold Machine.allocSector
  dsimp only
  split
  · exact h'
  · split
    · rename_i e
      exact (h2.l1Admit e).l1Put _
    · exact h2

/-! #### Writes -/

theorem MemCanonical.l2WriteSector {s : State} (h : MemCanonical s) (ws : List (Nat × Byte)) (whole : Bool) (w : Install) (sec : Nat) :
    MemCanonical (l2WriteSector s ws whole w sec) := h.l2Store _ _ _ _

theorem MemCanonical.lsWriteSector {s : State} (h : MemCanonical s) (core : Nat) (ws : List (Nat × Byte)) (how : Nat → Install)
    (sec : Nat) : MemCanonical (lsWriteSector s core ws how sec) := by
  have h' := ((h.passToken (regionOf sec) core).l1Drop fun e => e.sector == sec && e.core != core).dropOther core sec (how sec)
  unfold Machine.lsWriteSector
  dsimp only
  split
  · exact h'.l1Put _
  · split
    · rename_i e
      exact ((h'.l1Admit e).l2Fill _ _).l1Put _
    · exact h'.l2WriteSector _ _ _ _

theorem MemCanonical.lsWrite {s : State} (h : MemCanonical s) (core : Nat) (how : Nat → Install) (ws : List (Nat × Byte)) :
    MemCanonical (lsWrite s core how ws) := fold_keeps (fun _ sec h => h.lsWriteSector core ws how sec) _ _ h

theorem MemCanonical.l2Write {s : State} (h : MemCanonical s) (how : Nat → Install) (whole : Nat → Bool) (ws : List (Nat × Byte)) :
    MemCanonical (l2Write s how whole ws) := fold_keeps (fun _ _ h => h.l2WriteSector ws _ _ _) _ _ h

theorem MemCanonical.homeTake {s : State} (h : MemCanonical s) (holder sec : Nat) : MemCanonical (homeTake s holder sec) :=
  ((h.passToken _ _).cleanL1 _).l1Drop _

theorem MemCanonical.homeWriteAs {s : State} (h : MemCanonical s) (holder : Nat) (how : Nat → Install) (ws : List (Nat × Byte)) :
    MemCanonical (homeWriteAs s holder how ws) := fold_keeps (fun _ _ h => (h.homeTake _ _).l2WriteSector _ _ _ _) _ _ h

theorem MemCanonical.homeWrite {s : State} (h : MemCanonical s) (holder : Nat) (ws : List (Nat × Byte)) :
    MemCanonical (homeWrite s holder ws) := h.homeWriteAs _ _ _

theorem MemCanonical.dramWriteSector {s : State} (h : MemCanonical s) (ws : List (Nat × Byte)) (whole : Bool) (sec : Nat) :
    MemCanonical (dramWriteSector s ws whole sec) := (((h.homeTake _ _).cleanL2 _).l2Drop _).toDram _ _ _

theorem MemCanonical.applyQuantum {s : State} (h : MemCanonical s) (x : Quantum) : MemCanonical (applyQuantum s x) := by
  unfold Machine.applyQuantum
  dsimp only
  exact (h.homeTake homeHolder (sectorOf x.addr)).l2WriteSector _ _ _ _

theorem MemCanonical.applySums {s : State} (h : MemCanonical s) (lo hi : Nat) : MemCanonical (applySums s lo hi) :=
  (fold_keeps (P := MemCanonical) (fun _ x h => h.applyQuantum x) (s.quanta.filter (quantumTouches lo hi)) s h).of_mem rfl

theorem MemCanonical.flushQuanta {s : State} (h : MemCanonical s) (lo hi : Nat) : MemCanonical (flushQuanta s lo hi) :=
  (h.recallStations lo hi).applySums lo hi

/-! #### The port atomic units -/

theorem MemCanonical.stationEvict {s : State} (h : MemCanonical s) (station sec : Nat) : MemCanonical (stationEvict s station sec) := by
  unfold Machine.stationEvict
  dsimp only
  exact MemCanonical.ite ((h.cleanL1 _).l1Drop _) (((h.cleanL1 _).l1Drop _).passToken _ _)

theorem MemCanonical.stationRoom {s : State} (h : MemCanonical s) (station sec : Nat) : MemCanonical (stationRoom s station sec) := by
  unfold Machine.stationRoom
  refine MemCanonical.ite h ?_
  split
  · exact h.stationEvict _ _
  · exact h

theorem MemCanonical.stationTake {s : State} (h : MemCanonical s) (station sec : Nat) : MemCanonical (stationTake s station sec) := by
  have h' := (h.stationRoom station sec).passToken (regionOf sec) station
  unfold Machine.stationTake
  dsimp only
  split
  · exact h'
  · exact h'.l1Put _

theorem MemCanonical.stationWrite {s : State} (h : MemCanonical s) (station sec : Nat) (ws : List (Nat × Byte)) :
    MemCanonical (stationWrite s station sec ws) := by
  unfold Machine.stationWrite
  split
  · exact h.l1Put _
  · exact h

theorem MemCanonical.moduleStore {s : State} (h : MemCanonical s) (pa : Nat) (bs : List Byte) : MemCanonical (moduleStore s pa bs) :=
  (h.flushQuanta _ _).homeWrite _ _

theorem MemCanonical.unitStore {s : State} (h : MemCanonical s) (pa : Nat) (bs : List Byte) : MemCanonical (unitStore s pa bs) :=
  (h.flushQuanta _ _).homeWrite _ _

theorem MemCanonical.controlStore {s t : State} (h : MemCanonical s) (pa : Nat) (bs : List Byte) (e : controlStore s pa bs = .next t) :
    MemCanonical t := by
  unfold Machine.controlStore at e
  split at e
  · cases e
  · cases e
    exact h.unitStore _ _

/-! ### The tracking of races and releases -/

theorem MemCanonical.setTrack {s : State} (h : MemCanonical s) (sec : Nat) (t : Track) : MemCanonical (setTrack s sec t) := h.of_mem rfl

theorem MemCanonical.mapTrack {s : State} (h : MemCanonical s) (p : Nat → Track → Bool) (f : Track → Track) :
    MemCanonical (mapTrack s p f) := h.of_mem rfl

theorem MemCanonical.markStore {s : State} (h : MemCanonical s) (x : Nat) (secs : List Nat) : MemCanonical (markStore s x secs) :=
  fold_keeps (fun _ _ h => h.setTrack _ _) _ _ h

theorem MemCanonical.writeThrough {s : State} (h : MemCanonical s) (p : CacheSector → Bool) : MemCanonical (writeThrough s p) :=
  h.cleanL2 _

theorem MemCanonical.releaseAgent {s : State} (h : MemCanonical s) (x core scope : Nat) : MemCanonical (releaseAgent s x core scope) := by
  unfold Machine.releaseAgent
  dsimp only
  refine MemCanonical.ite h (MemCanonical.ite ?_ ?_)
  · exact ((MemCanonical.ite ((h.cleanL1 _).writeThrough _) h).mapTrack _ _).mapTrack _ _
  · exact (MemCanonical.ite ((h.cleanL1 _).writeThrough _) h).mapTrack _ _

/-! ### Updates of teams -/

theorem MemCanonical.modTeam {s : State} (h : MemCanonical s) (t : Nat) (f : Team → Team) : MemCanonical (modTeam s t f) := h.of_mem rfl
theorem MemCanonical.modGang {s : State} (h : MemCanonical s) (t g : Nat) (f : Gang → Gang) : MemCanonical (modGang s t g f) := h.of_mem rfl
theorem MemCanonical.modHawk {s : State} (h : MemCanonical s) (t : Nat) (f : Hawk → Hawk) : MemCanonical (modHawk s t f) := h.of_mem rfl
theorem MemCanonical.modFrag {s : State} (h : MemCanonical s) (t g f : Nat) (k : Frag → Frag) : MemCanonical (modFrag s t g f k) :=
  h.of_mem rfl
theorem MemCanonical.modLaunch {s : State} (h : MemCanonical s) (lid : Nat) (f : Launch → Launch) : MemCanonical (modLaunch s lid f) :=
  h.of_mem rfl

theorem MemCanonical.releaseBy {s : State} (h : MemCanonical s) (t : Nat) (who : StreamName) (scope : Nat) :
    MemCanonical (releaseBy s t who scope) := by
  unfold Machine.releaseBy
  split
  · exact h
  · dsimp only
    split
    · exact (h.releaseAgent _ _ _).modTeam _ _
    · exact h.releaseAgent _ _ _

theorem MemCanonical.releaseTeam {s : State} (h : MemCanonical s) (t : Nat) : MemCanonical (releaseTeam s t) := by
  unfold Machine.releaseTeam
  split
  · exact h
  · exact (fold_keeps (P := MemCanonical) (fun _ g h => h.releaseBy t (.gang g) 6) _ _ h).releaseBy _ _ _

theorem MemCanonical.firePlumb {s : State} (h : MemCanonical s) (src cause lid tid : Nat) :
    MemCanonical (firePlumb s src cause lid tid) := by
  unfold Machine.firePlumb
  split
  · exact h.of_mem rfl
  · exact h.of_mem rfl

theorem MemCanonical.plumbEvent {s : State} (h : MemCanonical s) (tm : Team) (code : Nat) : MemCanonical (plumbEvent s tm code) := by
  unfold Machine.plumbEvent
  split
  · exact h.firePlumb _ _ _ _
  · exact h

theorem MemCanonical.clearSlot {s : State} (h : MemCanonical s) (asid va : Nat) : MemCanonical (clearSlot s asid va) := by
  unfold Machine.clearSlot
  split
  · exact MemCanonical.ite h ((h.flushQuanta _ _).l2Write _ _ _)
  · exact h.of_mem rfl
  · exact h

theorem MemCanonical.clearSvalid {s : State} (h : MemCanonical s) (asid : Nat) (skim : Bool) (ops : List EngineOp) :
    MemCanonical (clearSvalid s asid skim ops) := by
  refine fold_keeps (fun s op h => ?_) _ _ h
  split
  · exact MemCanonical.ite (h.clearSlot _ _) h
  · exact h

theorem MemCanonical.undoTeam {s : State} (h : MemCanonical s) (tm : Team) : MemCanonical (undoTeam s tm) := by
  unfold Machine.undoTeam
  dsimp only
  exact (MemCanonical.ite (fold_keeps (fun _ _ h => h.mapTrack _ _) _ _ h) h).clearSvalid _ _ _

theorem MemCanonical.escalate {s : State} (h : MemCanonical s) (lid cause tid : Nat) : MemCanonical (escalate s lid cause tid) :=
  (fold_keeps (P := MemCanonical) (fun _ tm h => h.undoTeam tm) (s.teams.filter fun tm => tm.lid == lid) s h).of_mem rfl

theorem MemCanonical.killTeam {s : State} (h : MemCanonical s) (t cause : Nat) : MemCanonical (killTeam s t cause) := by
  unfold Machine.killTeam
  split
  · exact h
  · rename_i tm _
    have h' := h.undoTeam tm
    dsimp only
    split
    · exact h'.of_mem rfl
    · refine MemCanonical.ite (h'.of_mem rfl) (MemCanonical.escalate ?_ _ _ _)
      exact h'.of_mem rfl

theorem MemCanonical.takeGangTrap {s : State} (h : MemCanonical s) (t g f : Nat) (r : FaultRecord) (owed : Option Replay) :
    MemCanonical (takeGangTrap s t g f r owed) := by
  unfold Machine.takeGangTrap
  split
  · exact h
  · split
    · exact h
    · dsimp only
      split
      · exact (h.plumbEvent _ _).killTeam _ _
      · exact (h.plumbEvent _ _).modGang _ _ _

theorem MemCanonical.takeHawkTrap {s : State} (h : MemCanonical s) (t : Nat) (r : FaultRecord) : MemCanonical (takeHawkTrap s t r) := by
  unfold Machine.takeHawkTrap
  split
  · exact h
  · dsimp only
    split
    · exact (h.plumbEvent _ _).killTeam _ _
    · exact (h.plumbEvent _ _).modHawk _ _

end Sys2Proof.Machine
end

