-- ==== Sys2Proof/Laws/Traps.lean ====
section
/-!
SUPPORT. The plumb line leaves everything but its own registers: what the operations of a trap read is the same after it.
-/
namespace Sys2Proof.Machine

/-- The plumb line changes at most BUSY, DROP, SEQ and the latched snapshot. -/
theorem plumbEvent_eq (s : State) (tm : Team) (code : Nat) :
    plumbEvent s tm code = { s with busy := (plumbEvent s tm code).busy, drop := (plumbEvent s tm code).drop,
                                    seq := (plumbEvent s tm code).seq, latched := (plumbEvent s tm code).latched } := by
  unfold plumbEvent firePlumb
  split
  · split <;> rfl
  · rfl

@[simp] theorem plumbEvent_teams (s : State) (tm : Team) (code : Nat) : (plumbEvent s tm code).teams = s.teams := by
  rw [plumbEvent_eq]

@[simp] theorem plumbEvent_launches (s : State) (tm : Team) (code : Nat) : (plumbEvent s tm code).launches = s.launches := by
  rw [plumbEvent_eq]

@[simp] theorem plumbEvent_mem (s : State) (tm : Team) (code : Nat) : (plumbEvent s tm code).mem = s.mem := by
  rw [plumbEvent_eq]

@[simp] theorem plumbEvent_l1 (s : State) (tm : Team) (code : Nat) : (plumbEvent s tm code).l1 = s.l1 := by
  rw [plumbEvent_eq]

@[simp] theorem launchOf_plumbEvent (s : State) (tm : Team) (code lid : Nat) : launchOf (plumbEvent s tm code) lid = launchOf s lid := by
  simp [launchOf]

@[simp] theorem vectorOf_plumbEvent (s : State) (tm tm' : Team) (code : Nat) : vectorOf (plumbEvent s tm code) tm' = vectorOf s tm' := by
  simp [vectorOf]

end Sys2Proof.Machine
end

