-- ==== Sys2Proof/Laws/Words.lean ====
section
/-!
SUPPORT. One lemma for each shape of lane word: where its checks pass, exec answers the state with its result.
-/
namespace Sys2Proof.Machine

/-- A lane word whose effect is a 32-bit result completes with it. -/
theorem laneResult_out {i : Instr} {info : GCtx → WordInfo} {d : BitVec 7} {f : State → GCtx → Nat → Word} {s : State} {c : GCtx}
    (he : exec i s = gangOnly i info (laneResult d f) s) (h : GangRuns s c info) : LaneOut i s c d (f s c) := by
  obtain ⟨gg, hb, hd⟩ := lane_done_fn h.1 d.toNat (writeLanes c) (f s c)
  refine ⟨_, gg, ?_, hb, hd⟩
  rw [he, gangOnly_runs h]
  rfl

theorem LaneOut.congr {i : Instr} {s : State} {c : GCtx} {d : BitVec 7} {f g : Nat → Word} (h : LaneOut i s c d f)
    (e : ∀ l, l < 64 → f l = g l) : LaneOut i s c d g := by
  obtain ⟨t, gg, h1, h2, h3⟩ := h
  exact ⟨t, gg, h1, h2, h3.congr e⟩

/-- A word whose effect is a predicate result completes with it. -/
theorem pred_out {i : Instr} {info : GCtx → WordInfo} {body : GCtx → State → GRes} {p : BitVec 5} {x : Mask} {s : State} {c : GCtx}
    (he : exec i s = gangOnly i info body s) (h : GangRuns s c info) (hb : body c s = .done (writeP s c p.toNat c.act x)) :
    PredOut i s c p (inMask x) := by
  obtain ⟨gg, h1, h2⟩ := p_done h.1 p.toNat x
  refine ⟨_, gg, ?_, h1, h2⟩
  rw [he, gangOnly_runs h, hb]
  rfl

/-- A word whose effect is a g result completes with it. -/
theorem g_out {i : Instr} {info : GCtx → WordInfo} {body : GCtx → State → GRes} {d : Nat} {x : DWord} {s : State} {c : GCtx}
    (he : exec i s = gangOnly i info body s) (h : GangRuns s c info) (hb : body c s = .done (writeG s c d x)) :
    GprOut i s c d x := by
  obtain ⟨gg, h1, h2⟩ := g_done h.1 d x
  refine ⟨_, gg, ?_, h1, h2⟩
  rw [he, gangOnly_runs h, hb]
  rfl

/-- A hawk word whose effect is a k result completes with it. -/
theorem k_out {i : Instr} {info : HCtx → HInfo} {body : HCtx → State → HRes} {d : Nat} {x : DWord} {s : State} {c : HCtx}
    (he : exec i s = hawkWord i info body s) (h : HawkRuns s c info) (hb : body c s = .done (writeK s c.t d x)) :
    KOut i s c d x := by
  obtain ⟨hk, h1, h2⟩ := k_done h.1 d x
  exact ⟨_, hk, he.trans (hawkWord_done h hb), h1, h2⟩

end Sys2Proof.Machine
end

