-- ==== Sys2Proof/Tests/Slice0.lean ====
section
/-!
SUPPORT. The package's own tests: every constructor's decoding by a word written out from the spec's formats (15 R257, R262,
R266, R268), the words that the decoder refuses, an ill-formed term for each check of WellFormed, a witness for each
obligation's hypotheses, and a few single steps with results worked out from the spec.
-/
section
set_option Elab.async false
open Sys2Proof Sys2Proof.Machine

/-! ### Small states -/

/-- A gang inside a clause with so many words left and these hints: one team of 112 registers, 16 tiles and 64 lines. -/
def tGang (left : Nat) (hints : List (DWord × Instr)) (f : Gang → Gang) (h : Frag → Frag) (k : Team → Team) : State :=
  let s := { placeWord State.reset 0x24800000 with agenda := [], cur := .gang 0 0 0 }
  modTeam (modGang (modFrag s 0 0 0 fun fr => h { fr with clause := some { placedClause false with left := left, hints := hints } }) 0 0 f) 0 k

/-- The hawk inside a clause with so many words left and these hints. -/
def tHawk (left : Nat) (hints : List (DWord × Instr)) (f : Hawk → Hawk) (k : Team → Team) : State :=
  let s := { placeWord State.reset 0xD0000000 with agenda := [], cur := .hawk 0 }
  modTeam (modHawk s 0 fun hk => f { hk with clause := some { placedClause false with left := left, hints := hints } }) 0 k

/-- The context of the issuing gang. -/
def gctx (s : State) : GCtx :=
  (gangCtx s).getD { t := 0, g := 0, f := 0, tm := placedTeam false none, gg := freshGang 0 0, fr := entryFrag 0,
                     cl := placedClause false, act := 0, helper := 0 }

/-- The context of the issuing hawk. -/
def hctx (s : State) : HCtx :=
  (hawkCtx s).getD { t := 0, tm := placedTeam true none, hk := freshHawk 0 0, cl := placedClause false, act := false }

/-- A gang in the middle of a clause, with two results behind it. -/
def tg : State := tGang 2 [] id (fun fr => { fr with count := 2 }) id
/-- A gang at the last word of a clause. -/
def te : State := tGang 1 [] id id id
/-- The hawk in the middle of a clause. -/
def th : State := tHawk 2 [] id id
/-- The hawk at the last word of a clause. -/
def thEnd : State := tHawk 1 [] id id
/-- One lane active. -/
def oneLane (fr : Frag) : Frag := { fr with exmask := 1 }

theorem test_decode_hints :
    decodeWord 0x10ABCDEF = .instr (.immxImmediate 11259375) ∧
    decodeWord 0x1105C98C = .instr (.immxOperand 5 1 2 9 140) ∧
    decodeWord 0x12000002 = .instr (.xcache 2) ∧
    decodeWord 0x140009BA = .instr (.xscope 9 5 6 2) ∧
    decodeWord 0x16000010 = .instr (.xplane 16) ∧
    decodeWord 0x18000000 = .instr .xnop ∧
    decodeWord 0x1BFFFFF9 = .instr (.mergeat 33554425) := by
  decide +kernel

theorem test_decode_integer :
    decodeWord 0x20434105 = .instr (.iadd 1 6 130 5) ∧
    decodeWord 0x20C44105 = .instr (.isub 1 8 130 5) ∧
    decodeWord 0x213C517F = .instr (.imul 120 162 127) ∧
    decodeWord 0x21C44105 = .instr (.imulhi 1 8 130 5) ∧
    decodeWord 0x22434105 = .instr (.imad 1 6 130 5) ∧
    decodeWord 0x22C44105 = .instr (.imin 1 8 130 5) ∧
    decodeWord 0x23434105 = .instr (.imax 1 6 130 5) ∧
    decodeWord 0x23C4B800 = .instr (.iabs 1 9 112) ∧
    decodeWord 0x243C507F = .instr (.and 120 160 127) ∧
    decodeWord 0x24BC50FF = .instr (.or 120 161 127) ∧
    decodeWord 0x253C517F = .instr (.xor 120 162 127) ∧
    decodeWord 0x25BC51FF = .instr (.shl 120 163 127) ∧
    decodeWord 0x263C527F = .instr (.shr 120 164 127) ∧
    decodeWord 0x26BC52FF = .instr (.shra 120 165 127) ∧
    decodeWord 0x27434105 = .instr (.bfe 1 6 130 5) ∧
    decodeWord 0x27BC53FF = .instr (.bfi 120 167 127) ∧
    decodeWord 0x28386400 = .instr (.popc 112 200) ∧
    decodeWord 0x28B8E400 = .instr (.clz 113 200) ∧
    decodeWord 0x29396400 = .instr (.brev 114 200) ∧
    decodeWord 0x29BC51FF = .instr (.selp 120 163 127) ∧
    decodeWord 0x2A434105 = .instr (.lea 1 6 130 5) ∧
    decodeWord 0x2ABAE400 = .instr (.mov 117 200) := by
  decide +kernel

theorem test_decode_float :
    decodeWord 0x30327FEF = .instr (.fadd 100 255 111) ∧
    decodeWord 0x30B2FFEE = .instr (.fsub 101 255 110) ∧
    decodeWord 0x31337FED = .instr (.fmul 102 255 109) ∧
    decodeWord 0x31B3FFEC = .instr (.ffma 103 255 108) ∧
    decodeWord 0x32347FEB = .instr (.ffmay 104 255 107) ∧
    decodeWord 0x32B4FFEA = .instr (.fmin 105 255 106) ∧
    decodeWord 0x33357FE9 = .instr (.fmax 106 255 105) ∧
    decodeWord 0x33B5FFE8 = .instr (.fscale 107 255 104) ∧
    decodeWord 0x3401A680 = .instr (.fclass 3 77) ∧
    decodeWord 0x34C5860D = .instr (.hadd2 1 11 12 13) ∧
    decodeWord 0x3545860D = .instr (.hmul2 1 11 12 13) ∧
    decodeWord 0x35C5860D = .instr (.hfma2 1 11 12 13) := by
  decide +kernel

theorem test_decode_immediate :
    decodeWord 0x402C81F0 = .instr (.iaddImm 44 129 240) ∧
    decodeWord 0x40AD82F1 = .instr (.imulImm 45 130 241) ∧
    decodeWord 0x412E83F2 = .instr (.iminImm 46 131 242) ∧
    decodeWord 0x41AF84F3 = .instr (.imaxImm 47 132 243) ∧
    decodeWord 0x423085F4 = .instr (.andImm 48 133 244) ∧
    decodeWord 0x42B186F5 = .instr (.orImm 49 134 245) ∧
    decodeWord 0x433287F6 = .instr (.xorImm 50 135 246) ∧
    decodeWord 0x43B388F7 = .instr (.shlImm 51 136 247) ∧
    decodeWord 0x443489F8 = .instr (.shrImm 52 137 248) ∧
    decodeWord 0x44B58AF9 = .instr (.shraImm 53 138 249) ∧
    decodeWord 0x45210080 = .instr (.movImm 33 128) ∧
    decodeWord 0x45B78CFB = .instr (.faddImm 55 140 251) ∧
    decodeWord 0x46388DFC = .instr (.fmulImm 56 141 252) ∧
    decodeWord 0x46B98EFD = .instr (.fminImm 57 142 253) ∧
    decodeWord 0x473A8FFE = .instr (.fmaxImm 58 143 254) ∧
    decodeWord 0x47BB90FF = .instr (.ffmaImm 59 144 255) := by
  decide +kernel

theorem test_decode_predicate :
    decodeWord 0x50009603 = .instr (.icmpEq 0 0 150 3) ∧
    decodeWord 0x50859704 = .instr (.icmpNe 1 1 151 4) ∧
    decodeWord 0x510A9805 = .instr (.icmpLt 2 2 152 5) ∧
    decodeWord 0x518F9906 = .instr (.icmpLe 3 3 153 6) ∧
    decodeWord 0x52109A07 = .instr (.icmpGt 4 0 154 7) ∧
    decodeWord 0x52959B08 = .instr (.icmpGe 5 1 155 8) ∧
    decodeWord 0x531A9C09 = .instr (.icmpLtu 6 2 156 9) ∧
    decodeWord 0x539F9D0A = .instr (.icmpLeu 7 3 157 10) ∧
    decodeWord 0x54209E0B = .instr (.icmpGtu 8 0 158 11) ∧
    decodeWord 0x54A59F0C = .instr (.icmpGeu 9 1 159 12) ∧
    decodeWord 0x552AA00D = .instr (.fcmpEq 10 2 160 13) ∧
    decodeWord 0x55AFA10E = .instr (.fcmpNe 11 3 161 14) ∧
    decodeWord 0x5630A20F = .instr (.fcmpLt 12 0 162 15) ∧
    decodeWord 0x56B5A310 = .instr (.fcmpLe 13 1 163 16) ∧
    decodeWord 0x573AA411 = .instr (.fcmpGt 14 2 164 17) ∧
    decodeWord 0x57BFA512 = .instr (.fcmpGe 15 3 165 18) ∧
    decodeWord 0x5840A613 = .instr (.fcmpNum 16 0 166 19) ∧
    decodeWord 0x58C5A714 = .instr (.fcmpNan 17 1 167 20) := by
  decide +kernel

theorem test_decode_lanes :
    decodeWord 0x595E8964 = .instr (.plop 23 2 17 5 9) ∧
    decodeWord 0x59938300 = .instr (.pset 4 3 131) ∧
    decodeWord 0x5A0F8016 = .instr (.ballot 31 22) ∧
    decodeWord 0x5A9A1300 = .instr (.vote 6 2 19) ∧
    decodeWord 0x5B4A0F28 = .instr (.shfl 1 20 30 40) ∧
    decodeWord 0x5B8A0F03 = .instr (.qswap 20 30 3) ∧
    decodeWord 0x5C0A0F02 = .instr (.qbcast 20 30 2) ∧
    decodeWord 0x5C8E8000 = .instr (.maskrd 29) ∧
    decodeWord 0x5D004E80 = .instr (.maskwr 157) := by
  decide +kernel

theorem test_decode_conversions :
    decodeWord 0x604404DB = .instr (.cvt 13 8 9 11) ∧
    decodeWord 0x608404C0 = .instr (.cvtsr 4 8 9 0) ∧
    decodeWord 0x61191E00 = .instr (.exp2 50 60) ∧
    decodeWord 0x61999E80 = .instr (.log2 51 61) ∧
    decodeWord 0x621A1F00 = .instr (.rcp 52 62) ∧
    decodeWord 0x629A9F80 = .instr (.rsqrt 53 63) ∧
    decodeWord 0x631B2000 = .instr (.sqrt 54 64) ∧
    decodeWord 0x639BA080 = .instr (.sinpi 55 65) ∧
    decodeWord 0x641C2100 = .instr (.cospi 56 66) ∧
    decodeWord 0x64A38003 = .instr (.rng 71 3) ∧
    decodeWord 0x650F0000 = .instr (.rngsave 30) ∧
    decodeWord 0x65804F00 = .instr (.rngset 158) := by
  decide +kernel

theorem test_decode_memory_1 :
    decodeWord 0x7005407F = .instr (.ldU8 0 10 128 127) ∧
    decodeWord 0x70C640FE = .instr (.ldS8 1 12 129 126) ∧
    decodeWord 0x7107417D = .instr (.ldU16 0 14 130 125) ∧
    decodeWord 0x71C841FC = .instr (.ldS16 1 16 131 124) ∧
    decodeWord 0x7209427B = .instr (.ldB32 0 18 132 123) ∧
    decodeWord 0x72CA42FA = .instr (.ldB64 1 20 133 122) ∧
    decodeWord 0x73050000 = .instr (.stB8 10 0 0) ∧
    decodeWord 0x73860201 = .instr (.stB16 12 4 1) ∧
    decodeWord 0x74070402 = .instr (.stB32 14 8 2) ∧
    decodeWord 0x74880603 = .instr (.stB64 16 12 3) ∧
    decodeWord 0x75054040 = .instr (.ldsU8 0 10 128 64) ∧
    decodeWord 0x75C640C1 = .instr (.ldsS8 1 12 129 65) ∧
    decodeWord 0x76074142 = .instr (.ldsU16 0 14 130 66) ∧
    decodeWord 0x76C841C3 = .instr (.ldsS16 1 16 131 67) ∧
    decodeWord 0x77094244 = .instr (.ldsB32 0 18 132 68) ∧
    decodeWord 0x77CA42C5 = .instr (.ldsB64 1 20 133 69) ∧
    decodeWord 0x78050080 = .instr (.stsB8 10 1 0) ∧
    decodeWord 0x78860281 = .instr (.stsB16 12 5 1) ∧
    decodeWord 0x79070482 = .instr (.stsB32 14 9 2) ∧
    decodeWord 0x79880683 = .instr (.stsB64 16 13 3) ∧
    decodeWord 0x7A43C110 = .instr (.ldp 1 7 130 16) ∧
    decodeWord 0x7A83C101 = .instr (.ldpMid 0 7 130 1) ∧
    decodeWord 0x7B43C109 = .instr (.refine 1 7 130 9) ∧
    decodeWord 0x7BC3C100 = .instr (.stp 1 7 130) := by
  decide +kernel

theorem test_decode_memory_2 :
    decodeWord 0x7C03C141 = .instr (.cstoreB32 7 130 65) ∧
    decodeWord 0x7C8441BF = .instr (.cstoreB64 8 131 63) ∧
    decodeWord 0x7D444202 = .instr (.xload 1 8 132 2) ∧
    decodeWord 0x7D81C202 = .instr (.pref 3 132 2) := by
  decide +kernel

theorem test_decode_atomics :
    decodeWord 0x8042C02C = .instr (.atom 1 5 128 11 0) ∧
    decodeWord 0x80820602 = .instr (.acas 0 4 12 1) ∧
    decodeWord 0x813C8722 = .instr (.red 121 14 8 1) ∧
    decodeWord 0x81C3109E = .instr (.atoms 1 6 33 7 1) ∧
    decodeWord 0x82600006 = .instr (.fence 3 6) ∧
    decodeWord 0x82800021 = .instr (.fencex 4 1) := by
  decide +kernel

theorem test_decode_control :
    decodeWord 0x907DFFFF = .instr (.bra 131071) ∧
    decodeWord 0x909F0000 = .instr (.brc 7 1 65536) ∧
    decodeWord 0x91001100 = .instr (.brx 34) ∧
    decodeWord 0x91FD2345 = .instr (.call 74565) ∧
    decodeWord 0x92000000 = .instr .ret ∧
    decodeWord 0x92800000 = .instr .exit ∧
    decodeWord 0x93000000 = .instr .bar ∧
    decodeWord 0x93800000 = .instr .barc ∧
    decodeWord 0x95800000 = .instr .joinw ∧
    decodeWord 0x96000000 = .instr .stepmark ∧
    decodeWord 0x97000000 = .instr .nop ∧
    decodeWord 0x942C0005 = .instr (.yield 11 5) ∧
    decodeWord 0x9480BEEF = .instr (.trap 48879) ∧
    decodeWord 0x950F8000 = .instr (.spawn 31) ∧
    decodeWord 0x96888000 = .instr (.dqpop 17) := by
  decide +kernel

theorem test_decode_matrix :
    decodeWord 0xA001500A = .instr (.shape 21 10) ∧
    decodeWord 0xA0FEE060 = .instr (.mma 15 110 3) ∧
    decodeWord 0xA171E080 = .instr (.mmaPlane 14 30 4) ∧
    decodeWord 0xA1EC041F = .instr (.mmas 13 64 32 31) ∧
    decodeWord 0xA20E3C40 = .instr (.mmanN2 1 99 98) ∧
    decodeWord 0xA2963C40 = .instr (.mmanN4 2 99 98) ∧
    decodeWord 0xA31E3C40 = .instr (.mmanN8 3 99 98) ∧
    decodeWord 0xA3800006 = .instr (.mmab 6) ∧
    decodeWord 0xA4000000 = .instr .mfence ∧
    decodeWord 0xA4800007 = .instr (.mfenceGd 7) ∧
    decodeWord 0xA500000C = .instr (.mwait 12) ∧
    decodeWord 0xA5800000 = .instr .mwaitAll ∧
    decodeWord 0xA6180005 = .instr (.accld 3 5) ∧
    decodeWord 0xA6A00006 = .instr (.accst 4 6) ∧
    decodeWord 0xA72C6FE7 = .instr (.accldR 5 70 127 7) ∧
    decodeWord 0xA7B47020 = .instr (.accstR 6 71 1 0) ∧
    decodeWord 0xA8480000 = .instr (.accz 9) ∧
    decodeWord 0xA8C8E000 = .instr (.accmov 9 14) ∧
    decodeWord 0xA96EC740 = .instr (.skimchk 1 23 12 14 16) ∧
    decodeWord 0xA9C0D748 = .instr (.skimput 1 13 14 18) ∧
    decodeWord 0xAA00048C = .instr (.skimrd 9 3) ∧
    decodeWord 0xAA800408 = .instr (.skimrdClr 8 2) := by
  decide +kernel

theorem test_decode_engines :
    decodeWord 0xB07F8000 = .instr (.copy 1 1 63) ∧
    decodeWord 0xB0C10908 = .instr (.pcopy 1 2 4 33) ∧
    decodeWord 0xB14F8000 = .instr (.mcast 1 0 31) ∧
    decodeWord 0xB1C28000 = .instr (.gather 1 5) ∧
    decodeWord 0xB2030000 = .instr (.scatter 0 6) ∧
    decodeWord 0xB283800F = .instr (.qpush 7 15) ∧
    decodeWord 0xB304000E = .instr (.qpop 8 14) ∧
    decodeWord 0xB384815D = .instr (.qtry 9 21 13) ∧
    decodeWord 0xB4346B5C = .instr (.qallow 1 40 1717 12) ∧
    decodeWord 0xB4851600 = .instr (.fillclr 10 11) ∧
    decodeWord 0xB5061A1F = .instr (.filltst 12 13 31) := by
  decide +kernel

theorem test_decode_select :
    decodeWord 0xC0428300 = .instr (.sort64 1 5 6) ∧
    decodeWord 0xC0C30388 = .instr (.merge 1 6 7 8) ∧
    decodeWord 0xC104C179 = .instr (.topk 9 130 121) ∧
    decodeWord 0xC1404180 = .instr (.topkFin 131) ∧
    decodeWord 0xC1C303FE = .instr (.selth 1 6 7 126) ∧
    decodeWord 0xC2430382 = .instr (.argmax 1 6 7 2) ∧
    decodeWord 0xC28303D1 = .instr (.redux 6 7 5 1) ∧
    decodeWord 0xC34303A2 = .instr (.scan 1 6 7 2 2) := by
  decide +kernel

theorem test_decode_hawk :
    decodeWord 0xD028C83F = .instr (.kadd 0 40 50 63) ∧
    decodeWord 0xD0E9CE01 = .instr (.ksub 1 41 51 513) ∧
    decodeWord 0xD12AD03D = .instr (.kmul 0 42 52 61) ∧
    decodeWord 0xD1EBD603 = .instr (.kand 1 43 53 515) ∧
    decodeWord 0xD22CD83B = .instr (.kor 0 44 54 59) ∧
    decodeWord 0xD2EDDE05 = .instr (.kxor 1 45 55 517) ∧
    decodeWord 0xD32EE039 = .instr (.kshl 0 46 56 57) ∧
    decodeWord 0xD3EFE607 = .instr (.kshr 1 47 57 519) ∧
    decodeWord 0xD47F03FF = .instr (.kmov 1 63 1023) ∧
    decodeWord 0xD4C313FE = .instr (.kld 1 3 4 1022) ∧
    decodeWord 0xD50519FF = .instr (.kst 5 6 511) ∧
    decodeWord 0xD5872110 = .instr (.kstAtomic 7 8 8 1) ∧
    decodeWord 0xD67E27AA = .instr (.kcmp 1 7 6 9 938) ∧
    decodeWord 0xD6F1FFFE = .instr (.kbr 1 6 0 131070) ∧
    decodeWord 0xD700ABCD = .instr (.kcall 43981) ∧
    decodeWord 0xD7800000 = .instr .kret ∧
    decodeWord 0xD8000A5A = .instr (.kwait 2650) ∧
    decodeWord 0xD8800000 = .instr .kstop ∧
    decodeWord 0xD900840F = .instr (.dqpush 33 0 15) ∧
    decodeWord 0xD9A28C00 = .instr (.launch 34 35) := by
  decide +kernel

theorem test_decode_system :
    decodeWord 0xE01E0000 = .instr (.rgsplit 60) ∧
    decodeWord 0xE09D8000 = .instr (.rgmerge 59) ∧
    decodeWord 0xE1008400 = .instr (.rgtrim 1 2) ∧
    decodeWord 0xE1818800 = .instr (.rggrow 3 4) ∧
    decodeWord 0xE2028000 = .instr (.rginv 5) ∧
    decodeWord 0xE2228000 = .instr (.rginvDiscard 5) ∧
    decodeWord 0xE2830E03 = .instr (.rgprobe 6 7 3) ∧
    decodeWord 0xE3041200 = .instr (.rgmigrIn 8 9) ∧
    decodeWord 0xE3251600 = .instr (.rgmigrOut 10 11) ∧
    decodeWord 0xE3461A00 = .instr (.rgmigrMove 12 13) ∧
    decodeWord 0xE3870000 = .instr (.seal 14) ∧
    decodeWord 0xE4078000 = .instr (.unseal 15) ∧
    decodeWord 0xE48807C1 = .instr (.csrd 16 1985) ∧
    decodeWord 0xE5088801 = .instr (.cswr 17 2049) ∧
    decodeWord 0xE5800000 = .instr .eret ∧
    decodeWord 0xE6000000 = .instr .snap ∧
    decodeWord 0xE6890005 = .instr (.fltrd 18 5) := by
  decide +kernel
/-! ### Words that the decoder refuses (R257, R266, R267, R268, R284, R347, R359) -/

theorem test_reject_majors :
    decodeWord 0x00000000 = .reject .illegalMajor ∧ decodeWord 0x0FFFFFFE = .reject .illegalMajor ∧
    decodeWord 0xF0000000 = .reject .illegalMajor ∧ decodeWord 0xFFFFFFFF = .reject .illegalMajor := by
  decide +kernel

/-- The first minor of each major that the opcode map leaves unassigned, and the last. -/
theorem test_reject_minors :
    (([0x1C000000, 0x1E000000, 0x2B000000, 0x2F800000, 0x36000000, 0x3F800000, 0x48000000, 0x4F800000, 0x5D800000, 0x5F800000,
      0x66000000, 0x6F800000, 0x7E000000, 0x7F800000] : List Word).all (decodeWord · == .reject .unassignedMinor)) = true ∧
    (([0x83000000, 0x8F800000, 0x97800000, 0x9F800000, 0xAB000000, 0xAF800000, 0xB5800000, 0xBF800000, 0xC3800000, 0xCF800000,
      0xDA000000, 0xDF800000, 0xE7000000, 0xEF800000] : List Word).all (decodeWord · == .reject .unassignedMinor)) = true := by
  decide +kernel

/-- A bit of a field that the instruction does not use: MOD of IMUL and of POPC, SB of MOV and of IABS, MOD and SB of EXP2, KADD's bit
between its fields' uses, RET's and EXIT's bits, SNAP's, NOP's, WORKID's, BRC without a target apart. -/
theorem test_reject_unused_fields :
    (([0x217C517F, 0x28786400, 0x2ABAE401, 0x23C4B840, 0x61428300, 0x61028301] : List Word).all (decodeWord · == .reject .unusedField)) = true ∧
    (([0xE6000001, 0xE6400000] : List Word).all (decodeWord · == .reject .unusedField)) = true := by
  decide +kernel

/-- The fields of REDUX, SCAN and TOPK.FIN that have a cause of their own. -/
theorem test_reject_operand_fields :
    decodeWord 0xC28303D1 = .instr (.redux 6 7 5 1) ∧ decodeWord 0xC2C303D1 = .reject .operandField := by
  decide +kernel

/-- A hint's payload bits that are reserved name the hint (R316, R374). -/
theorem test_reject_hint_payloads :
    (([0x12000004, 0x13FFFFFF, 0x14001000, 0x16000040, 0x18000001] : List Word).all fun w => match decodeWord w with
      | .reject (.hintPayload _) => true
      | _ => false) = true := by
  decide +kernel

/-- Bit 0 of a clause header is 0, and its fields stand where R257 puts them. -/
theorem test_decode_headers :
    decodeHeader 0x00000001 = .reject .headerBit ∧
    decodeHeader 0x12345678 = .instr (.clauseHeader 0x123 4 5 3 7 1 0 0) ∧
    decodeHeader 0xFFF00000 = .instr (.clauseHeader 0xFFF 0 0 0 0 0 0 0) ∧
    decodeHeader 0x00000006 = .instr (.clauseHeader 0 0 0 0 0 0 1 1) := by
  decide +kernel

/-- Bytes stand least significant first, and too few are refused. -/
theorem test_decode_bytes :
    decodeBytes false [0x05, 0x41, 0x43, 0x20] = .instr (.iadd 1 6 130 5) ∧ decodeBytes true [0xF0, 0xF9, 0x03, 0x00] =
      .instr (.clauseHeader 0 3 15 4 31 0 0 0) ∧
    decodeBytes false [0x05, 0x41, 0x43] = .reject .shortInput ∧ decodeTableWord 32 0x20434105 = some (.iadd 1 6 130 5) ∧
    decodeTableWord 32 0x0003F9F0 = some (.clauseHeader 0 3 15 4 31 0 0 0) ∧ decodeTableWord 32 0x2B000000 = none := by
  decide +kernel

/-! ### An ill-formed term for each check of WellFormed, beside a well-formed one -/

theorem test_ill_formed_gang_words :
    wellFormed (.iadd 1 120 173 121) = true ∧ wellFormed (.iadd 1 121 173 121) = false ∧ wellFormed (.iadd 0 0 122 0) = false ∧
    wellFormed (.iadd 0 0 174 0) = false ∧ wellFormed (.iadd 0 0 0 122) = false ∧ wellFormed (.imad 0 120 0 0) = false ∧
    wellFormed (.lea 0 110 128 0) = true ∧ wellFormed (.lea 0 111 128 0) = false ∧ wellFormed (.lea 0 110 111 0) = false ∧
    wellFormed (.icmpEq 24 0 0 0) = false ∧ wellFormed (.pset 0 1 127) = false ∧ wellFormed (.vote 0 3 0) = false ∧
    wellFormed (.vote 0 2 0) = true ∧ wellFormed (.qswap 0 0 0) = false ∧ wellFormed (.cvt 14 0 0 0) = false ∧
    wellFormed (.cvt 5 0 0 5) = false ∧ wellFormed (.rngsave 31) = false ∧ wellFormed (.rngset 129) = false ∧
    wellFormed (.ldB32 0 112 128 0) = true ∧ wellFormed (.ldB32 0 120 128 0) = false := by
  decide +kernel

theorem test_ill_formed_memory_words :
    wellFormed (.ldB64 0 110 110 0) = true ∧ wellFormed (.ldB64 0 111 110 0) = false ∧ wellFormed (.ldB64 0 110 111 0) = false ∧
    wellFormed (.xload 0 108 128 0) = true ∧ wellFormed (.xload 0 110 128 0) = false ∧ wellFormed (.cstoreB64 111 128 0) = false ∧
    wellFormed (.cstoreB64 110 127 0) = false ∧ wellFormed (.pref 0 127 0) = false ∧ wellFormed (.atom 0 111 128 8 0) = true ∧
    wellFormed (.atom 0 111 128 8 1) = false ∧ wellFormed (.atom 0 110 128 9 1) = false ∧ wellFormed (.atom 0 110 128 12 0) = false ∧
    wellFormed (.atom 0 112 128 0 0) = false ∧ wellFormed (.acas 0 110 128 1) = false ∧ wellFormed (.acas 0 110 128 0) = true ∧
    wellFormed (.red 122 128 0 0) = false ∧ wellFormed (.atoms 0 0 112 0 0) = false ∧ wellFormed (.atoms 0 0 111 0 0) = true ∧
    wellFormed (.fence 0 0) = false ∧ wellFormed (.fencex 5 0) = false ∧ wellFormed (.fencex 0 5) = false ∧
    wellFormed (.fencex 2 2) = false ∧ wellFormed (.fencex 0 4) = true ∧ wellFormed (.ldp 0 111 158 16) = true ∧
    wellFormed (.ldp 0 111 158 17) = false ∧ wellFormed (.ldp 0 111 158 0) = false ∧ wellFormed (.stp 0 0 129) = false ∧
    wellFormed (.refine 0 112 128 1) = false := by
  decide +kernel

theorem test_ill_formed_control_and_engine_words :
    wellFormed (.brc 31 0 0) = true ∧ wellFormed (.brc 31 1 0) = false ∧ wellFormed (.brc 24 0 0) = false ∧ wellFormed (.brx 111) = false ∧
    wellFormed (.yield 12 0) = false ∧ wellFormed (.yield 11 0) = true ∧ wellFormed (.spawn 32) = false ∧ wellFormed (.dqpop 32) = false ∧
    wellFormed (.mmaPlane 0 3 0) = false ∧ wellFormed (.mmaPlane 0 0 3) = false ∧ wellFormed (.skimchk 0 24 0 0 0) = false ∧
    wellFormed (.skimchk 0 23 0 1 0) = false ∧ wellFormed (.skimput 0 0 0 1) = false ∧ wellFormed (.qtry 0 24 0) = false ∧
    wellFormed (.merge 0 111 0 0) = false ∧ wellFormed (.topk 0 127 0) = false ∧ wellFormed (.topk 0 128 122) = false ∧
    wellFormed (.topkFin 160) = false ∧ wellFormed (.selth 0 0 0 127) = false ∧ wellFormed (.argmax 0 0 0 3) = false ∧
    wellFormed (.redux 0 0 6 1) = false ∧ wellFormed (.redux 0 0 3 0) = false ∧ wellFormed (.scan 0 0 0 2 0) = true ∧
    wellFormed (.scan 0 0 0 0 3) = false := by
  decide +kernel

theorem test_ill_formed_hawk_words_and_events :
    wellFormed (.kstAtomic 0 0 9 1) = false ∧ wellFormed (.kbr 0 1 1 0) = false ∧ wellFormed (.kbr 1 0 1 0) = false ∧
    wellFormed (.kbr 1 7 0 0) = true ∧ wellFormed (.launch 0 1) = false ∧ wellFormed (.swapwait 192 0) = false ∧
    wellFormed (.swapwait 191 0) = true ∧ wellFormed (.swapTimerExpiry 191 4) = false ∧ wellFormed (.starvationGuard 192) = false ∧
    wellFormed (.schedulerPlacement 24 0) = false ∧ wellFormed (.schedulerPlacement 23 8) = false ∧ wellFormed (.poolEntryGrant 192) = false ∧
    wellFormed (.coreLost 192) = false ∧ wellFormed (.recoveryEnd 24) = false ∧ wellFormed (.scratchpadUncorrectableError 0 0 4096) = false ∧
    wellFormed (.cacheUncorrectableError (some 192) 0) = false ∧ wellFormed (.cacheUncorrectableError none 0) = true ∧
    wellFormed (.accumulatorUncorrectableError 0 0 16 0) = false := by
  decide +kernel
/-! ### Witnesses: hypotheses of the obligations met by concrete states and operands -/

theorem witness_IntegerArithmetic :
    GangRuns tg (gctx tg) (fun c => v3Info c useNone 120 173 (some 121) false) ∧
    GangRuns tg (gctx tg) (fun c => v3Info c useNone 119 255 (some 111) true) ∧
    GangRuns tg (gctx tg) (fun c => v3Info c useNone 111 192 none false) := ⟨⟨rfl, rfl⟩, ⟨rfl, rfl⟩, ⟨rfl, rfl⟩⟩

theorem witness_BitwiseAndShifts : GangRuns tg (gctx tg) (fun c => v3Info c useNone 0 111 (some 112) false) := ⟨rfl, rfl⟩

theorem witness_BitFieldsAndCounts :
    GangRuns tg (gctx tg) (fun c => v3Info c useNone 112 128 (some 120) false) ∧
    GangRuns tg (gctx tg) (fun c => v3Info c useNone 111 159 (some 0) true) ∧
    GangRuns tg (gctx tg) (fun c => v3Info c useNone 120 121 none false) := ⟨⟨rfl, rfl⟩, ⟨rfl, rfl⟩, ⟨rfl, rfl⟩⟩

/-- What LEA needs of its operands apart from their legality. -/
def leaNeeds (d : BitVec 7) (a : BitVec 8) (b : BitVec 7) (c : GCtx) : WordInfo :=
  { plainInfo with
    accepts := acceptsOper, count := srcCount (secondCode c b), writes := [.v d.toNat, .v (d.toNat + 1)]
    reads := (match gCode a.toNat with
      | some n => [.g n]
      | none => [.v a.toNat, .v (a.toNat + 1)]) ++ srcRegs (secondCode c b) }

theorem witness_LeaPair :
    GangRuns tg (gctx tg) (leaNeeds 110 159 121) ∧
    (pairOk (gctx tg).tm.vregs 110 && addrOk (gctx tg).tm.vregs 159 && srcOk (gctx tg).tm.vregs 121 &&
      operLegal (gctx tg) useNone false) = true ∧
    GangRuns tg (gctx tg) (leaNeeds 109 111 5) ∧ pairOk (gctx tg).tm.vregs 109 = false := ⟨⟨rfl, rfl⟩, rfl, ⟨rfl, rfl⟩, rfl⟩

/-- An operand-form IMMX that names p23 stands before the word. -/
def tgSel : State := tGang 2 [(0x4004, .immxOperand 0 0 0 23 0)] id id id

theorem witness_MovSelpAndImmediates :
    GangRuns tg (gctx tg) (fun c => v3Info c useNone 111 170 none false) ∧
    operHint (gctx tgSel).cl.hints = some { el := 0, sat := false, rm := 0, pc := 23, sc := 0 } ∧
    isPending (gctx tgSel).gg (.p 23) = false ∧
    GangRuns tgSel (gctx tgSel) (fun c => v3Info c { useNone with pc := true } 3 4 (some 5) false) ∧
    GangRuns tg (gctx tg) (fun c => viInfo c 120 none false) ∧
    GangRuns tg (gctx tg) (fun c => viInfo c 0 (some 121) false) :=
  ⟨⟨rfl, rfl⟩, rfl, rfl, ⟨rfl, rfl⟩, ⟨rfl, rfl⟩, ⟨rfl, rfl⟩⟩

theorem witness_SelpChoosesByItsPredicate :
    (gangCtx tg = some (gctx tg) ∧ badHint acceptsOper (gctx tg).cl.hints [] = none ∧ operHint (gctx tg).cl.hints = none) ∧
    gangCtx tgSel = some (gctx tgSel) ∧ badHint acceptsOper (gctx tgSel).cl.hints [] = none ∧
    operHint (gctx tgSel).cl.hints = some { el := 0, sat := false, rm := 0, pc := 23, sc := 0 } ∧
    GangRuns tgSel (gctx tgSel) (fun c =>
      let w := v3Info c { useNone with pc := true } 3 4 (some 5) false
      { w with reads := .p 23 :: w.reads }) ∧
    GangRuns tgSel (gctx tgSel) (fun c =>
      let w := v3Info c { useNone with pc := true } 111 200 (some 127) false
      { w with reads := .p 23 :: w.reads }) :=
  ⟨⟨rfl, rfl, rfl⟩, rfl, rfl, rfl, ⟨rfl, rfl⟩, ⟨rfl, rfl⟩⟩

theorem witness_FloatArithmetic :
    GangRuns tg (gctx tg) (fun c => v3Info c useRm 7 200 (some 120) false) ∧
    1 ≤ (gctx tg).fr.count ∧ (gctx tg).fr.yPending.getLsbD 0 = false ∧
    GangRuns tg (gctx tg) (fun c => v3Info c useRm 111 6 (some 7) true) ∧
    GangRuns tg (gctx tg) (fun c => v3Info c useNone 7 6 (some 7) false) ∧
    GangRuns tg (gctx tg) (fun c => v3Info c useNone 7 255 none false) :=
  ⟨⟨rfl, rfl⟩, by decide, rfl, ⟨rfl, rfl⟩, ⟨rfl, rfl⟩, ⟨rfl, rfl⟩⟩

theorem witness_PackedAndImmediateFloats :
    GangRuns tg (gctx tg) (fun c => v3Info c useRm 120 6 (some 119) false) ∧
    GangRuns tg (gctx tg) (fun c => v3Info c useRm 119 6 (some 7) true) ∧
    GangRuns tg (gctx tg) (fun c => viInfo c 120 (some 172) false) ∧
    GangRuns tg (gctx tg) (fun c => viInfo c 111 (some 172) true) := ⟨⟨rfl, rfl⟩, ⟨rfl, rfl⟩, ⟨rfl, rfl⟩, ⟨rfl, rfl⟩⟩

theorem witness_IntegerCompares : GangRuns tg (gctx tg) (fun c => cmpInfo c 23 173 255) := ⟨rfl, rfl⟩

theorem witness_FloatCompares : GangRuns tg (gctx tg) (fun c => cmpInfo c 0 121 192) := ⟨rfl, rfl⟩

theorem witness_PredicateLogicAndVotes :
    GangRuns tg (gctx tg) (fun _ => { plainInfo with reads := [.p 23, .p 0], writes := [.p 23] }) ∧
    GangRuns tg (gctx tg) (fun _ => { plainInfo with reads := [.p 24, .p 0], writes := [.p 31] }) ∧
    GangRuns tg (gctx tg) (fun _ => { plainInfo with reads := srcRegs 159, writes := [.p 0] }) ∧
    GangRuns tg (gctx tg) (fun _ => { plainInfo with reads := [.p 23], writes := [.g 31] }) ∧ (gctx tg).act ≠ 0 ∧
    (let s := tGang 2 [] id (fun fr => { fr with exmask := 0 }) id
     GangRuns s (gctx s) (fun _ => { plainInfo with reads := [.p 23], writes := [.g 31] }) ∧ (gctx s).act = 0) ∧
    GangRuns tg (gctx tg) (fun _ => { plainInfo with reads := [.p 22], writes := [.p 23] }) :=
  ⟨⟨rfl, rfl⟩, ⟨rfl, rfl⟩, ⟨rfl, rfl⟩, ⟨rfl, rfl⟩, by decide, ⟨⟨rfl, rfl⟩, rfl⟩, ⟨rfl, rfl⟩⟩

theorem witness_LaneExchangesAndMasks :
    (gangCtx tg = some (gctx tg) ∧ badHint acceptsNone (gctx tg).cl.hints [] = none ∧ (127#8).toNat < 128 ∧ 159 < (160#8).toNat) ∧
    GangRuns tg (gctx tg) (fun c => exchangeInfo c 3 160 (some 121)) ∧
    GangRuns tg (gctx tg) (fun c => exchangeInfo c 120 255 none) ∧
    GangRuns tg (gctx tg) (fun _ => { plainInfo with writes := [.g 31] }) ∧
    GangRuns tg (gctx tg) (fun _ => { plainInfo with reads := srcRegs 159 }) ∧
    (gctx tg).cl.guard = 31 ∧ gReg (gctx tg).gg 31 &&& ~~~(gctx tg).fr.home = 0 ∧
    (let s := tGang 2 [] id (fun fr => { fr with clause := fr.clause.map fun cl => { cl with guard := 3 } }) id
     GangRuns s (gctx s) (fun _ => { plainInfo with reads := srcRegs 159 }) ∧ (gctx s).cl.guard ≠ 31) :=
  ⟨⟨rfl, rfl, by decide, by decide⟩, ⟨rfl, rfl⟩, ⟨rfl, rfl⟩, ⟨rfl, rfl⟩, ⟨rfl, rfl⟩, rfl, rfl, ⟨rfl, rfl⟩, by decide⟩

/-- Element 1 of an operand-form IMMX, and the scale register v9 for a narrow target. -/
def tgCvt : State := tGang 2 [(0x4004, .immxOperand 1 0 0 0 9)] id id id

theorem witness_Conversions :
    GangRuns tg (gctx tg) (fun c => cvtInfo c 1 7 6 0 true) ∧ widthOf 1 < 64 ∧
    GangRuns tg (gctx tg) (fun c => cvtInfo c 13 110 6 0 true) ∧ widthOf 13 = 64 ∧
    GangRuns tgCvt (gctx tgCvt) (fun c => cvtInfo c 5 7 6 0 true) ∧
    (operOr (gctx tg)).rm = 0 ∧ (operOr (gctx tg)).sat = false :=
  ⟨⟨rfl, rfl⟩, by decide, ⟨rfl, rfl⟩, rfl, ⟨rfl, rfl⟩, rfl, rfl⟩

theorem witness_SpecialFunctionsAndGenerator :
    GangRuns tg (gctx tg) (fun c => v3Info c useNone 120 173 none false) ∧
    GangRuns tg (gctx tg) (fun c => v3Info c useRm 0 173 none false) ∧
    GangRuns tg (gctx tg) (fun c => { plainInfo with
      accepts := acceptsOper, legal := dstOk c.tm.vregs 120 && operLegal c useNone false, writes := dstRegs 120 }) ∧
    GangRuns tg (gctx tg) (fun c => { plainInfo with
      accepts := acceptsOper, legal := operLegal c useNone false, writes := [.g 30, .g 31] }) ∧
    GangRuns tg (gctx tg) (fun c => { plainInfo with
      accepts := acceptsOper, legal := operLegal c useNone false, writes := [.g 31, .g 32] }) ∧
    GangRuns tg (gctx tg) (fun c => { plainInfo with
      accepts := acceptsOper, legal := operLegal c useNone false, reads := srcRegs 158 ++ srcRegs 159 }) ∧
    GangRuns tg (gctx tg) (fun c => { plainInfo with
      accepts := acceptsOper, legal := operLegal c useNone false, reads := srcRegs 159 ++ srcRegs 160 }) :=
  ⟨⟨rfl, rfl⟩, ⟨rfl, rfl⟩, ⟨rfl, rfl⟩, ⟨rfl, rfl⟩, ⟨rfl, rfl⟩, ⟨rfl, rfl⟩, ⟨rfl, rfl⟩⟩
/-- Every lane of a list was let through. -/
def okAll (rs : LaneList) : Bool := rs.all fun x => match x.2 with
  | .ok .. => true
  | _ => false

theorem okAll_spec {rs : LaneList} (h : okAll rs = true) : ∀ x ∈ rs, ∃ ps bs, x.2 = .ok ps bs := by
  intro x hx
  have := List.all_eq_true.mp h x hx
  split at this
  · exact ⟨_, _, ‹_›⟩
  · cases this

/-- g0 holds a mapped address, lane 0 is active, and SC order at module scope stands before the word. -/
def tgMem (hints : List (DWord × Instr)) : State := tGang 2 hints (fun gg => setG gg 0 0x8000) oneLane id
def scHint : List (DWord × Instr) := [(0x4004, .xscope 0 0 6 3)]

/-- What the lanes of a load ask of peers, and the answers, as its statement reads them. -/
def loadAsked (s : State) (o : BitVec 7) (len : Nat) : State × List (Nat × Answer) :=
  let c := gctx s
  let va := laneAddr c 128 len (memOff c.cl.hints o)
  let align := if orderOf c ≠ 0 then len else 0
  let q := lsReq s c .read
  let rs : LaneList := (lanesIn c.act).map fun l => (l, laneCheck s q align len (va l))
  let hs : LaneList := (lanesIn c.helper).map fun l => (l, laneCheck s { q with race := false } align len (va l))
  let ps := okPieces (rs ++ hs)
  askSectors (fragSender c) (peerSectors ps)
    (openPieces (touchLanes s q c.tm.core align len va (lanesIn c.act ++ lanesIn c.helper)) ps)

/-- A lane of a load is let through: the hypothesis of its statement. -/
def LaneFine (s : State) (o : BitVec 7) (len l : Nat) : Prop :=
  let c := gctx s
  let va := laneAddr c 128 len (memOff c.cl.hints o) l
  ((if orderOf c ≠ 0 then len else 0) ≠ 0 → va % (if orderOf c ≠ 0 then len else 0) = 0) ∧
    ∃ ps, checkSpan s (lsReq s c .read) va len = .ok ps ∧ ps.any (pieceFailed (loadAsked s o len).2) = false

/-- The same, computed. -/
def laneFine (s : State) (o : BitVec 7) (len l : Nat) : Bool :=
  let c := gctx s
  let va := laneAddr c 128 len (memOff c.cl.hints o) l
  let align := if orderOf c ≠ 0 then len else 0
  (align == 0 || va % align == 0) && match checkSpan s (lsReq s c .read) va len with
    | .ok ps => !(ps.any (pieceFailed (loadAsked s o len).2))
    | _ => false

theorem laneFine_spec {s : State} {o : BitVec 7} {len l : Nat} (h : laneFine s o len l = true) : LaneFine s o len l := by
  simp only [laneFine, Bool.and_eq_true, Bool.or_eq_true, beq_iff_eq] at h
  obtain ⟨ha, hp⟩ := h
  refine ⟨fun hz => ha.resolve_left hz, ?_⟩
  split at hp
  · exact ⟨_, ‹_›, by simpa using hp⟩
  · cases hp

theorem lanesFine {s : State} {o : BitVec 7} {len : Nat} (h : ((lanesIn (gctx s).act).all (laneFine s o len)) = true) :
    ∀ l ∈ lanesIn (gctx s).act, LaneFine s o len l := fun l hl => laneFine_spec (List.all_eq_true.mp h l hl)

theorem witness_GlobalLoadsComplete :
    GangRuns (tgMem scHint) (gctx (tgMem scHint)) (loadInfo 1 111 128 false) ∧
    GangRuns (tgMem []) (gctx (tgMem [])) (loadInfo 0 110 128 true) ∧
    GangRuns (tgMem []) (gctx (tgMem [])) (fun c => { plainInfo with
      accepts := acceptsPolicy, fs := some 0, reads := addrRegs 128
      writes := (List.range 4).map fun k => .v (108 + k)
      legal := 108 % 4 == 0 && decide (108 + 3 < c.tm.vregs) && decide (108 + 3 ≤ 111) && addrOk c.tm.vregs 128 }) ∧
    (∀ l ∈ lanesIn (gctx (tgMem scHint)).act, LaneFine (tgMem scHint) 3 4 l) ∧
    (∀ l ∈ lanesIn (gctx (tgMem [])).act, LaneFine (tgMem []) 3 1 l) ∧
    (∀ l ∈ lanesIn (gctx (tgMem [])).act, LaneFine (tgMem []) 3 16 l) ∧
    askedWait (loadAsked (tgMem scHint) 3 4).2 = none ∧ askedWait (loadAsked (tgMem []) 3 1).2 = none ∧
    askedWait (loadAsked (tgMem []) 3 16).2 = none ∧
    (tgMem []).quanta = [] ∧ (∀ x ∈ (tgMem []).tokHolder, isStation x.2 = false) ∧
    (∃ tracked plane, checkSpan (tgMem []) (lsReq (tgMem []) (gctx (tgMem [])) .read) 0x8003 1 =
      .ok [{ va := 0x8003, len := 1, place := .mem 0x108003 tracked, plane := plane }]) ∧
    (gctx (tgMem scHint)).fr.replay = none ∧ releases (orderOf (gctx (tgMem scHint))) = true ∧
    relGate (tgMem scHint) 0 (gctx (tgMem scHint)).tm (.gang 0) (scopeOf (gctx (tgMem scHint))) = .go :=
  ⟨⟨rfl, rfl⟩, ⟨rfl, rfl⟩, ⟨rfl, rfl⟩, lanesFine rfl, lanesFine rfl, lanesFine rfl, by decide +kernel, by decide +kernel, by decide +kernel,
    rfl, by decide +kernel, ⟨_, _, rfl⟩, rfl, by decide, by decide +kernel⟩

theorem witness_ScratchpadLoadsComplete :
    GangRuns tg (gctx tg) (ldsInfo 0 119 111 false) ∧ GangRuns tg (gctx tg) (ldsInfo 1 110 128 true) ∧
    (let s := tGang 2 [] id (fun fr => { fr with exmask := 1, home := 3 }) id
     (∀ l < 64, inMask (gctx s).act l = true → checkScratch s (gctx s).tm (.gang 0) (laneOffset (gctx s) 128 8 0 l) 8 8 true = .ok) ∧
     inMask (gctx s).act 1 = false ∧ inMask (gctx s).helper 1 = true) ∧
    (∀ l, l < 64 → checkScratch tg (gctx tg).tm (.gang 0) (laneOffset (gctx tg) 128 8 (memOff [] 63) l) 8 8 true = .ok) ∧
    (gctx tg).fr.replay = none := ⟨⟨rfl, rfl⟩, ⟨rfl, rfl⟩, by decide +kernel, by decide +kernel, rfl⟩

/-- The pieces of lane 0's store. -/
def storePieces (s : State) (va len : Nat) : List Piece :=
  match checkSpan s (lsReq s (gctx s) .write) va len with
  | .ok ps => ps
  | _ => []

theorem witness_GlobalStoresComplete :
    GangRuns (tgMem []) (gctx (tgMem [])) (storeNeeds 119 128 1) ∧
    GangRuns (tgMem scHint) (gctx (tgMem scHint)) (storeNeeds 111 128 4) ∧
    GangRuns (tgMem []) (gctx (tgMem [])) (storeNeeds 110 128 8) ∧
    (∀ l ∈ lanesIn (gctx (tgMem scHint)).act,
      checkSpan (tgMem scHint) (lsReq (tgMem scHint) (gctx (tgMem scHint)) .write)
        (laneAddr (gctx (tgMem scHint)) 128 4 (memOff scHint 0) l) 4 = .ok (storePieces (tgMem scHint) 0x8000 4)) ∧
    (∀ l ∈ lanesIn (gctx (tgMem scHint)).act, laneAddr (gctx (tgMem scHint)) 128 4 (memOff scHint 0) l % 4 = 0) ∧
    (gctx (tgMem scHint)).fr.replay = none ∧ orderOf (gctx (tgMem scHint)) ≠ 0 ∧ releases (orderOf (gctx (tgMem scHint))) = true ∧
    relGate (tgMem scHint) 0 (gctx (tgMem scHint)).tm (.gang 0) (scopeOf (gctx (tgMem scHint))) = .go ∧
    GangRuns (tgMem []) (gctx (tgMem [])) (fun c => { storeNeeds 119 128 4 c with
      accepts := acceptsPolicy, legal := storeSrcOk c.tm.vregs 119 false && (gCode 128).isSome }) ∧
    (∀ l ∈ lanesIn (gctx (tgMem [])).act,
      checkSpan (tgMem []) (lsReq (tgMem []) (gctx (tgMem [])) .write) (packedAddr (gctx (tgMem [])) 128 0 4 l) 4 =
        .ok (storePieces (tgMem []) 0x8000 4)) ∧
    GangRuns tg (gctx tg) (fun c => { plainInfo with
      accepts := acceptsPolicy, legal := addrOk c.tm.vregs 110, reads := addrRegs 110 }) :=
  ⟨⟨rfl, rfl⟩, ⟨rfl, rfl⟩, ⟨rfl, rfl⟩, by decide +kernel, by decide +kernel, rfl, by decide, rfl, rfl, ⟨rfl, rfl⟩, by decide +kernel, ⟨rfl, rfl⟩⟩

theorem witness_ScratchpadStoresFrame :
    GangRuns tg (gctx tg) (fun c => { plainInfo with
      accepts := acceptsImm, legal := storeSrcOk c.tm.vregs 121 false && offOk c.tm.vregs 111
      count := srcCount 121, reads := offRegs 111 ++ storeRegs 121 false }) ∧
    (∀ l, l < 64 → inMask (gctx tg).act l = true →
      checkScratch tg (gctx tg).tm (.gang 0) (laneOffset (gctx tg) 111 1 (memOff [] 0) l) 1 1 false = .ok) ∧
    (∀ l, l < 64 → inMask (gctx tg).act l = true →
      checkScratch tg (gctx tg).tm (.gang 0) (laneOffset (gctx tg) 111 8 (memOff [] 63) l) 8 8 false = .ok) ∧
    GangRuns tg (gctx tg) (fun c => { plainInfo with
      accepts := acceptsImm, legal := storeSrcOk c.tm.vregs 110 true && offOk c.tm.vregs 159
      reads := offRegs 159 ++ storeRegs 110 true }) ∧ (gctx tg).fr.replay = none :=
  ⟨⟨rfl, rfl⟩, by decide +kernel, by decide +kernel, ⟨rfl, rfl⟩, rfl⟩

/-- A legal plane descriptor in g2 and g3: M 3, in scratchpad, one block, stride 128. -/
def planeGang (gg : Gang) : Gang := setG (setG gg 2 0x13) 3 (0x0000100000400000)
def tgPlane : State := tGang 2 [] planeGang id id
def thePlane : PlaneDesc := (planeDesc 0x13 0x0000100000400000).getD
  { m := 0, loc := false, ebase := 0, block := 0, bcount := 0, stride := 0 }
/-- The tag of v5 holds its first three bits, fresh for the descriptor. -/
def tgFresh : State := tGang 2 [] (fun gg => setTag (planeGang gg) 5 (makeTag 2 3 0 (planeCheck thePlane))) id id

theorem witness_PlaneWordsComplete :
    planeDesc 0x13 0x0000100000400000 = some thePlane ∧ thePlane.loc = true ∧ thePlane.m = 3 ∧
    GangRuns tgPlane (gctx tgPlane) (planeInfo 1 5 130 4 false) ∧ (gctx tgPlane).act = allLanes ∧
    (∃ data, readPlanes tgPlane (gctx tgPlane) thePlane (List.range 5) = .ok tgPlane data) ∧
    (let s := tGang 2 [] planeGang oneLane id
     GangRuns s (gctx s) (planeInfo 1 5 130 4 false) ∧ (gctx s).act ≠ allLanes) ∧
    GangRuns tg (gctx tg) (planeInfo 0 111 158 16 false) ∧
    planeDesc (gReg (gctx tg).gg 30) (gReg (gctx tg).gg 31) = none ∧
    GangRuns tgFresh (gctx tgFresh) (planeInfo 0 5 130 3 true) ∧
    (let tag := (tagOf (gctx tgFresh).gg 5).toNat
     bitN tag 0 = true ∧ bitsN tag 25 10 = planeCheck thePlane ∧ bitsN tag 8 5 = thePlane.m ∧ 3 - 1 ≤ bitsN tag 4 1) ∧
    (let s := { tgPlane with launches := [{ placedLaunch with record := { placedRecord with strict := true } }] }
     GangRuns s (gctx s) (planeInfo 0 5 130 3 true) ∧ strictMode s (gctx s).tm = true ∧ bitN (tagOf (gctx s).gg 5).toNat 0 = false) ∧
    GangRuns tgPlane (gctx tgPlane) (fun c => { plainInfo with
      accepts := ⟨false, false, true, false, false⟩, fs := some 0
      legal := decide (5 < c.tm.vregs) && decide (5 ≤ 111) && (gCode 130).isSome && 130 % 2 == 0, reads := [.g 2, .g 3, .v 5] }) ∧
    tileChecks tgPlane (gctx tgPlane) thePlane (List.range 5) false = none :=
  ⟨rfl, rfl, rfl, ⟨rfl, rfl⟩, rfl, ⟨_, rfl⟩, ⟨⟨rfl, rfl⟩, by decide +kernel⟩, ⟨rfl, rfl⟩, rfl, ⟨rfl, rfl⟩,
    ⟨rfl, rfl, rfl, by decide +kernel⟩, ⟨⟨rfl, rfl⟩, rfl, rfl⟩, ⟨rfl, rfl⟩, rfl⟩

/-- The lanes of an atomic, as its statement reads them. -/
def atomicRun (s : State) (w : BitVec 1) (returning : Bool) (op : Nat → LaneAtomic) : State × Option Wait × LaneList :=
  readyLanes (gctx s) 128 (atomicLen w) ((atomicScope (gctx s).cl.hints).use == 4) returning op s

theorem witness_AtomicsComplete :
    GangRuns (tgMem []) (gctx (tgMem [])) (fun c => { plainInfo with
      accepts := acceptsAtomic, fs := some 1, reads := addrRegs 128 ++ vBlock 110 2, writes := vBlock 110 2
      legal := atomicDataOk c.tm.vregs 110 1 && addrOk c.tm.vregs 128 && atomicOpOk 8 (flag1 1) &&
        useOk (atomicScope c.cl.hints) [1, 2, 3] [1, 3] }) ∧
    GangRuns (tgMem []) (gctx (tgMem [])) (fun c => { plainInfo with
      accepts := acceptsAtomic, fs := some 0, reads := addrRegs 128 ++ vBlock 111 1, writes := vBlock 111 1
      legal := atomicDataOk c.tm.vregs 111 0 && addrOk c.tm.vregs 128 && atomicOpOk 11 (flag1 0) &&
        useOk (atomicScope c.cl.hints) [1, 2, 3] [1, 3] }) ∧
    (let r := atomicRun (tgMem []) 0 true fun _ => opAtomic 0 0 5
     r.2.1 = none ∧ okAll r.2.2 = true) ∧
    (let r := atomicRun (tgMem []) 1 true fun _ => swapAtomic 1 0 7
     r.2.1 = none ∧ okAll r.2.2 = true) ∧
    (let r := atomicRun (tgMem []) 0 false fun _ => opAtomic 9 0 5
     r.2.1 = none ∧ okAll r.2.2 = true) ∧
    (gctx (tgMem [])).fr.replay = none ∧ releases (atomicScope (gctx (tgMem [])).cl.hints).order = true ∧
    relGate (tgMem []) 0 (gctx (tgMem [])).tm (.gang 0) (atomicScope (gctx (tgMem [])).cl.hints).scope = .go ∧
    GangRuns (tgMem []) (gctx (tgMem [])) (fun c => { plainInfo with
      accepts := acceptsAtomic, fs := some 0, reads := addrRegs 128 ++ vBlock 108 4, writes := vBlock 108 2
      legal := 108 % 4 == 0 && decide (108 + 2 * 2 - 1 < c.tm.vregs) && decide (108 + 2 * 2 - 1 ≤ 111) && addrOk c.tm.vregs 128 &&
        useOk (atomicScope c.cl.hints) [1, 2, 3] [1, 3] }) ∧
    GangRuns (tgMem []) (gctx (tgMem [])) (fun c => { plainInfo with
      accepts := acceptsAtomic, reads := addrRegs 128 ++ storeRegs 119 false, count := srcCount 119
      legal := storeSrcOk c.tm.vregs 119 false && addrOk c.tm.vregs 128 && atomicOpOk 9 false &&
        useOk (atomicScope c.cl.hints) [2, 3] (if commutes 9 then [1, 2, 5] else [1, 5]) }) :=
  ⟨⟨rfl, rfl⟩, ⟨rfl, rfl⟩, ⟨rfl, rfl⟩, ⟨rfl, rfl⟩, ⟨rfl, rfl⟩, rfl, rfl, rfl, ⟨rfl, rfl⟩, ⟨rfl, rfl⟩⟩

theorem witness_ScratchpadAtomicsAndFences :
    (let s := tGang 2 [(0x4004, .xscope 0 0 3 1)] id id id
     GangRuns s (gctx s) (fun c => { plainInfo with
       accepts := ⟨false, false, false, true, false⟩, fs := some 1, reads := offRegs 128 ++ vBlock 110 2, writes := vBlock 110 2
       legal := atomicDataOk c.tm.vregs 110 1 && offOk c.tm.vregs 128 && atomicOpOk 8 (flag1 1) &&
         useOk (atomicScope c.cl.hints) [1, 2, 3] [1, 3] && decide ((atomicScope c.cl.hints).scope ≤ 3) }) ∧
     ∀ l ∈ lanesIn (gctx s).act, checkScratch s (gctx s).tm (.gang 0) (laneOffset (gctx s) 128 0 0 l) 8 8 true = .ok) ∧
    GangRuns tg (gctx tg) (fun _ => { plainInfo with legal := (2#2) != 0 }) ∧ releases (2#2).toNat = true ∧ (gctx tg).act ≠ 0 ∧
    relGate tg 0 (gctx tg).tm (.gang 0) 7 = .go ∧
    HawkRunsPlain th (hctx th) (fun _ => { plainHInfo with legal := (3#2) != 0 && decide (3 ≤ 3), treat := .stall }) ∧
    relGate th 0 (hctx th).tm .hawk 7 = .go ∧
    GangRuns tg (gctx tg) (fun _ => plainInfo) ∧ classBusy tg (gctx tg).tm (.gang 0) 0 = false ∧
    classBusy tg (gctx tg).tm (.gang 0) 4 = false ∧ HawkRunsPlain th (hctx th) (fun _ => { plainHInfo with treat := .stall }) ∧
    classBusy th (hctx th).tm .hawk 0 = false ∧ classBusy th (hctx th).tm .hawk 4 = false :=
  ⟨⟨⟨rfl, rfl⟩, by decide +kernel⟩, ⟨rfl, rfl⟩, rfl, by decide, rfl, ⟨⟨rfl, rfl, rfl⟩, rfl⟩, rfl, ⟨rfl, rfl⟩, rfl, rfl, ⟨⟨rfl, rfl, rfl⟩, rfl⟩,
    rfl, rfl⟩
/-- The tag of v5 holds its first bit, fresh for the descriptor; its lanes and the block's exponent plane are as given. -/
def tgMerge (x : Word) (e : Byte) : State :=
  tGang 2 [] (fun gg => setTag (setV (planeGang gg) 5 allLanes (mkLanes fun _ => x)) 5 (makeTag 0 3 0 (planeCheck thePlane))) id
    (fun tm => setScratch tm [(0, e)])

/-- The data that REFINE reads there: planes 0 to 3. -/
def mergeData (s : State) : Option (List (Nat × Nat)) :=
  match readPlanes s (gctx s) thePlane ([0, 1] ++ (List.range 2).map (· + 0 + 2)) with
  | .ok _ data => some data
  | _ => none

/-- What a lane of v5 holds of its element there. -/
def mergeHeld (s : State) (l : Nat) : Held :=
  let data := (mergeData s).getD []
  heldBits (planeValue data 0) 3 0 false (bitN (planeValue data 1) l) (laneOf (vReg (gctx s).gg 5) l)

/-- A REFINE of planes 2 and 3 runs there, and its planes are read. -/
abbrev MergeReady (s : State) : Prop :=
  (gangCtx s).isSome = true ∧ gangReady (planeInfo 0 5 130 3 true (gctx s)) (gctx s) = true ∧ (gctx s).act = allLanes ∧
    bitN (tagOf (gctx s).gg 5).toNat 0 = true ∧ bitsN (tagOf (gctx s).gg 5).toNat 25 10 = planeCheck thePlane ∧
    bitsN (tagOf (gctx s).gg 5).toNat 8 5 = thePlane.m ∧ bitsN (tagOf (gctx s).gg 5).toNat 4 1 < 3 - 1 ∧
    (mergeData s).isSome = true

theorem witness_RefineMerges :
    (MergeReady (tgMerge 0 0) ∧ MergeReady (tgMerge 1 0) ∧ MergeReady (tgMerge 0 100)) ∧
    (∀ l < 64, mergeHeld (tgMerge 0 0) l = .known 0) ∧ mergeHeld (tgMerge 1 0) 0 = .stale ∧
    (∀ l < 64, mergeHeld (tgMerge 0 100) l = .bits []) := by
  refine ⟨?_, ?_, ?_, ?_⟩ <;> decide +kernel

/-- A plane descriptor in global memory, in g2 and g3. -/
def globalPlane (gg : Gang) : Gang := setG (setG gg 2 0x8003) 3 0x0000100000400000
def tgGlobal : State := tGang 2 [] globalPlane id id
def theGlobal : PlaneDesc := { thePlane with loc := false, ebase := 0x8000 }
def globalPieces : List (Nat × List Piece) :=
  match planeChecks tgGlobal (gctx tgGlobal) (lsReq tgGlobal (gctx tgGlobal) .write) theGlobal (List.range 5) with
  | .ok rs => rs
  | _ => []

/-- What a reload of planes 0 to 3 reads at a register that holds none. -/
def reloadData : List (Nat × Nat) :=
  match readPlanes tgPlane (gctx tgPlane) thePlane (List.range 4) with
  | .ok _ data => data
  | _ => []

theorem witness_PlaneStoresAndReloads :
    planeDesc 0x8003 0x0000100000400000 = some theGlobal ∧
    GangRuns tgGlobal (gctx tgGlobal) (fun c => { plainInfo with
      accepts := ⟨false, false, true, false, false⟩, fs := some 0
      legal := decide (5 < c.tm.vregs) && decide (5 ≤ 111) && (gCode 130).isSome && 130 % 2 == 0, reads := [.g 2, .g 3, .v 5] }) ∧
    planeChecks tgGlobal (gctx tgGlobal) (lsReq tgGlobal (gctx tgGlobal) .write) theGlobal (List.range 5) = .ok globalPieces ∧
    (globalPieces.all fun x => x.2.all isMemory) = true ∧ globalPieces.length = 5 ∧
    GangRuns tgPlane (gctx tgPlane) (planeInfo 0 5 130 3 true) ∧ strictMode tgPlane (gctx tgPlane).tm = false ∧
    bitN (tagOf (gctx tgPlane).gg 5).toNat 0 = false ∧
    ∃ data, readPlanes tgPlane (gctx tgPlane) thePlane (List.range 4) = .ok tgPlane data :=
  ⟨rfl, ⟨rfl, rfl⟩, rfl, rfl, rfl, ⟨rfl, rfl⟩, rfl, rfl, reloadData, rfl⟩

/-- One store and one atomic, each in one sector of local memory; the lanes' race flags agree with the requests read. -/
theorem witness_OneSectorHeld :
    (∀ l ∈ lanesIn (gctx (tgMem [])).act, ∃ va tracked plane, storePieces (tgMem []) 0x8000 4 =
      [{ va := va, len := 4, place := .mem 0x108000 tracked, plane := plane }]) ∧
    (∃ p tracked bs, (atomicRun (tgMem []) 0 true fun _ => opAtomic 0 0 5).2.2 = [(0, .ok [p] bs)] ∧ p.place = .mem 0x108000 tracked) ∧
    (atomicScope (gctx (tgMem [])).cl.hints).use ≠ 4 ∧
    QuietStore (tgMem []) (gctx (tgMem [])).tm.core (sectorOf 0x108000) ∧
    hasRoom (tgMem []) ((peerSectors (storePieces (tgMem []) 0x8000 4)).map fun x => (x.window, x.pa)) = true :=
  ⟨fun _ _ => ⟨_, _, _, rfl⟩, ⟨_, _, _, rfl, rfl⟩, by decide, ⟨rfl, by decide +kernel, .inl ⟨rfl, rfl⟩⟩, by decide +kernel⟩

/-- A class fence of LS and GA, by a gang and by the hawk. -/
theorem witness_ClassFences :
    GangRuns tg (gctx tg) (fun _ => plainInfo) ∧ classBusy tg (gctx tg).tm (.gang 0) 2 = false ∧
    classBusy th (hctx th).tm .hawk 2 = false ∧ classBusy th (hctx th).tm .hawk 0 = false := ⟨⟨rfl, rfl⟩, rfl, rfl, rfl⟩
/-- A gang that stands at a clause header at 0x4004, p3 all ones. -/
def tgHdr : State := tGang 1 [] (fun gg => setP gg 3 allLanes allLanes) (fun fr => { fr with clause := none }) id
/-- The hawk at a clause header. -/
def thHdr : State := tHawk 1 [] (fun hk => { hk with clause := none }) id

theorem witness_ClauseHeaderOpensClause :
    (∃ tm, listAt tgHdr.teams 0 = some tm ∧ tm.st = .running ∧ tgHdr.cur = .gang 0 0 0 ∧
      ∃ gg fr, gangOf tm 0 = some gg ∧ fragOf gg 0 = some fr ∧ fr.clause = none ∧
        gg.inputReport = none ∧
        (∃ s' x, lastUnit tgHdr (fun x => fetchGang tgHdr tm 0 0 0 { fr with pc := x }) fr.pc 7 = (s', .word x)) ∧ flagsClear gg.flags 0xFFF = true ∧
        reportIn gg.reports 0xFFF = none ∧ isPending (unpend gg fun x => (0xFFF#12).getLsbD x) (.p 3) = false) ∧
    headerOk 24 15 11 23 1 = true ∧ headerOk 24 15 11 24 0 = false ∧ headerOk 24 12 0 31 0 = false ∧ headerOk 24 0 0 31 1 = false ∧
    (∃ tm, listAt thHdr.teams 0 = some tm ∧ tm.st = .running ∧ thHdr.cur = .hawk 0 ∧ tm.hawk.clause = none ∧ tm.hawk.window = none ∧
      (∃ s' x, lastUnit thHdr (fetchHawk thHdr tm) tm.hawk.pc 0 = (s', .word x)) ∧ flagsClear tm.hawk.flags 0 = true ∧
      reportIn tm.hawk.reports 0 = none ∧ cPending tm.hawk 7 = false) ∧
    headerOk 8 15 15 7 1 = true :=
  by
  refine ⟨⟨_, rfl, rfl, rfl, _, _, rfl, rfl, rfl, rfl, ⟨_, _, rfl⟩, ?_⟩, ?_, ?_, ?_, ?_, ⟨_, rfl, rfl, rfl, rfl, rfl, ⟨_, _, rfl⟩, ?_⟩, ?_⟩ <;>
    and_intros <;> rfl

/-- A MERGEAT before the word, p2 true in lanes 0 to 7, and targets in v2 and v3: 0x8000 in lane 0, 0 elsewhere. -/
def tgBr (h : Frag → Frag) : State :=
  tGang 1 [(0x4000, .mergeat 20)] (fun gg => setV (setP gg 2 allLanes 0xFF) 2 allLanes (mkLanes fun l => if l = 0 then 0x8000 else 0))
    h id
/-- A split-stack entry of no lane, or a link entry of every lane. -/
def anEntry (link : Bool) : SplitEntry :=
  let m : Mask := if link then allLanes else 0
  { jmask := m, amask := m, dmask := 0, rpc := 0x5000, outst := 0, deferred := false, link := link, dpc := 0, dpeel := false
    dguard := 0, dgneg := false, dkeep := false, parent := none }
/-- A split stack with all its 256 entries in use. -/
def tgFull : State :=
  tGang 1 [(0x4000, .mergeat 20)] (fun gg => { setP gg 2 allLanes 0xFF with stack := List.replicate 256 (1, anEntry false) }) id id

theorem witness_Branches :
    GangRuns te (gctx te) (fun _ => endsInfo acceptsImm true []) ∧
    GangRuns (tgBr id) (gctx (tgBr id)) (fun _ => endsInfo acceptsImm true [.p 2]) ∧
    (gctx (tgBr id)).act &&& pReg (gctx (tgBr id)).gg 2 = 0xFF ∧ mergeAddr (gctx (tgBr id)) = some 0x4050 ∧
    GangRuns te (gctx te) (fun _ => endsInfo acceptsImm true [.p 23]) ∧ (gctx te).act &&& pReg (gctx te).gg 23 = 0 ∧
    GangRuns tgFull (gctx tgFull) (fun _ => endsInfo acceptsImm true [.p 2]) ∧ (gctx tgFull).gg.stack.length = 256 ∧
    GangRuns te (gctx te) (fun c => endsInfo acceptsNone (pairOk c.tm.vregs 110) [.v 110, .v 111]) ∧
    lowestLane (gctx te).act = some 0 ∧ (∀ l, l < 64 → pairLane (gctx te).gg 110 l = 0) ∧
    GangRuns (tgBr id) (gctx (tgBr id)) (fun c => endsInfo acceptsNone (pairOk c.tm.vregs 2) [.v 2, .v 3]) ∧
    pairLane (gctx (tgBr id)).gg 2 0 ≠ pairLane (gctx (tgBr id)).gg 2 1 ∧
    (let s := tGang 1 [] (fun gg => setV gg 2 allLanes (mkLanes fun _ => 2)) oneLane id
     GangRuns s (gctx s) (fun c => endsInfo acceptsNone (pairOk c.tm.vregs 2) [.v 2, .v 3]) ∧
     inMask (gctx s).act 0 = true ∧ (pairLane (gctx s).gg 2 0).toNat % 4 ≠ 0) :=
  ⟨⟨rfl, rfl⟩, ⟨rfl, rfl⟩, rfl, rfl, ⟨rfl, rfl⟩, rfl, ⟨rfl, rfl⟩, by decide +kernel, ⟨rfl, rfl⟩, rfl, by decide +kernel, ⟨rfl, rfl⟩, by decide +kernel,
    ⟨rfl, rfl⟩, rfl, by decide +kernel⟩

/-- A fragment whose innermost entry is a link entry. -/
def tgLink : State :=
  tGang 1 [] (fun gg => { gg with stack := [(0, anEntry true)] }) (fun fr => { fr with entry := some 0 }) id

/-- No lane active. -/
def noLane (fr : Frag) : Frag := { fr with exmask := 0 }
def teNone : State := tGang 1 [] id noLane id
/-- The clause is guarded. -/
def guarded (fr : Frag) : Frag := { fr with clause := fr.clause.map fun cl => { cl with guard := 3 } }

theorem witness_CallsAndExits :
    GangRuns te (gctx te) (fun _ => endsInfo acceptsImm true []) ∧ (gctx te).act ≠ 0 ∧
    (gctx te).gg.stack.length + (if (gctx te).fr.home &&& ~~~(gctx te).act = 0 then 1 else 2) ≤ 256 ∧
    GangRuns teNone (gctx teNone) (fun _ => endsInfo acceptsImm true []) ∧ (gctx teNone).act = 0 ∧
    (let s := tGang 1 [] (fun gg => { gg with stack := (gctx tgFull).gg.stack }) id id
     GangRuns s (gctx s) (fun _ => endsInfo acceptsImm true []) ∧
     ¬(gctx s).gg.stack.length + (if (gctx s).fr.home &&& ~~~(gctx s).act = 0 then 1 else 2) ≤ 256) ∧
    GangRuns tgLink (gctx tgLink) (fun _ => endsInfo acceptsNone true []) ∧ (gctx tgLink).cl.guard = 31 ∧
    (∃ e, (gctx tgLink).fr.entry = some 0 ∧ entryOf (gctx tgLink).gg 0 = some e ∧ e.link = true) ∧
    GangRuns te (gctx te) (fun _ => endsInfo acceptsNone true []) ∧
    ((gctx te).fr.entry.bind (entryOf (gctx te).gg)).all (fun e => !e.link) = true :=
  ⟨⟨rfl, rfl⟩, by decide +kernel, by decide +kernel, ⟨rfl, rfl⟩, rfl, ⟨⟨rfl, rfl⟩, by decide +kernel⟩, ⟨rfl, rfl⟩, rfl,
    ⟨_, rfl, rfl, rfl⟩, ⟨rfl, rfl⟩, rfl⟩

theorem witness_BarriersAndYield :
    (12 ≤ (12#5).toNat ∧ gangCtx te = some (gctx te) ∧ badHint acceptsImm (gctx te).cl.hints [] = none ∧ (gctx te).cl.left = 1) ∧
    GangRuns te (gctx te) (fun _ => endsInfo acceptsNone true []) ∧ (gctx te).cl.guard = 31 ∧
    (let s := tGang 1 [] id guarded id
     GangRuns s (gctx s) (fun _ => endsInfo acceptsNone true []) ∧ (gctx s).cl.guard ≠ 31) ∧
    GangRuns te (gctx te) (fun _ => endsInfo acceptsImm true []) ∧ (gctx te).act ≠ 0 ∧ (gctx te).act = (gctx te).fr.exmask ∧
    flagOf (gctx te).gg.flags 11 = 0 ∧ (∀ x ∈ (gctx te).gg.reports, x.1 ≠ 11) ∧
    (let s := tGang 1 [] (fun gg => { gg with reports := [(11, { batch := none, addr := 0, cls := none, cause := .noRange })] }) id id
     GangRuns s (gctx s) (fun _ => endsInfo acceptsImm true []) ∧ flagOf (gctx s).gg.flags 11 = 0 ∧
     ((gctx s).gg.reports.find? fun x => x.1 == 11).isSome = true) ∧
    (let s := tGang 1 [] (fun gg => { gg with flags := smSet 0 [] 11 1 }) id id
     GangRuns s (gctx s) (fun _ => endsInfo acceptsImm true []) ∧ flagOf (gctx s).gg.flags 11 ≠ 0) ∧
    GangRuns teNone (gctx teNone) (fun _ => endsInfo acceptsImm true []) ∧ (gctx teNone).act = 0 ∧
    (let s := tGang 1 [] id (fun fr => { fr with clause := fr.clause.map fun cl => { cl with guard := 3, gmask := 1 } }) id
     GangRuns s (gctx s) (fun _ => endsInfo acceptsImm true []) ∧ (gctx s).act ≠ 0 ∧ (gctx s).act ≠ (gctx s).fr.exmask) :=
  ⟨⟨by decide, rfl, rfl, rfl⟩, ⟨rfl, rfl⟩, rfl, ⟨⟨rfl, rfl⟩, by decide +kernel⟩, ⟨rfl, rfl⟩, by decide +kernel, rfl, rfl, by decide +kernel,
    ⟨⟨rfl, rfl⟩, rfl, rfl⟩, ⟨⟨rfl, rfl⟩, by decide +kernel⟩, ⟨rfl, rfl⟩, rfl, ⟨⟨rfl, rfl⟩, by decide +kernel, by decide +kernel⟩⟩

/-- g31 holds the aligned address of 32 zero bytes: a legal spawn descriptor. -/
def tgSpawn : State := tGang 2 [] (fun gg => setG gg 31 0x8000) id id

theorem witness_TeamWordsComplete :
    GangRuns tgSpawn (gctx tgSpawn) (fun _ => { plainInfo with reads := [.g 31] }) ∧ (gctx tgSpawn).act ≠ 0 ∧
    (gReg (gctx tgSpawn).gg 31).toNat % 32 = 0 ∧
    (∃ s' bs d l, gangRead tgSpawn (gctx tgSpawn) 0x8000 32 = .ok s' bs ∧ spawnDesc bs = some d ∧
      launchOf s' (gctx tgSpawn).tm.lid = some l ∧
      ¬(l.record.pclass = 1 ∧ (l.stepDecl.any fun sd => !stepFits sd d.vregs d.acct d.splines) = true)) ∧
    (gctx tgSpawn).tm.join < 65535 ∧ (gctx tgSpawn).fr.spawn = none ∧
    (let s := tGang 2 [] (fun gg => setG gg 31 0x8000) (fun fr => { fr with spawn := spawnDesc (List.replicate 32 0) })
       fun tm => { tm with join := 65535 }
     GangRuns s (gctx s) (fun _ => { plainInfo with reads := [.g 31] }) ∧ (gctx s).tm.join = 65535 ∧
     (gctx s).fr.spawn.isSome = true ∧ (launchOf s (gctx s).tm.lid).isSome = true ∧ (gctx s).act ≠ 0) ∧
    GangRuns te (gctx te) (fun _ => endsInfo acceptsNone true []) ∧ (gctx te).tm.join = 0 ∧
    (let s := tGang 1 [] id id fun tm => { tm with join := 1, ctxSlot := some 0 }
     GangRuns s (gctx s) (fun _ => endsInfo acceptsNone true []) ∧ (gctx s).act ≠ 0 ∧ (gctx s).tm.join ≠ 0 ∧
     freeContext s (gctx s).tm.lid = none) ∧
    GangRuns tg (gctx tg) (fun _ => plainInfo) ∧ (gctx tg).act ≠ 0 ∧ (liveFrags (gctx tg).gg).length = 1 ∧ (gctx tg).gg.stack = [] ∧
    (let s := tGang 2 [] (fun gg => { gg with dq := [{ val := 7, spec := false }] }) id id
     GangRuns s (gctx s) (fun _ => { plainInfo with writes := [.g 31] }) ∧ (gctx s).act ≠ 0 ∧
     (gctx s).gg.dq = [{ val := 7, spec := false }]) ∧
    HawkRuns th (hctx th) (fun _ => plainHInfo) :=
  ⟨⟨rfl, rfl⟩, by decide +kernel, rfl, ⟨_, _, _, _, rfl, rfl, rfl, by decide +kernel⟩, by decide +kernel, rfl,
    ⟨⟨rfl, rfl⟩, rfl, rfl, rfl, by decide +kernel⟩, ⟨rfl, rfl⟩, rfl,
    ⟨⟨rfl, rfl⟩, by decide +kernel, by decide +kernel, rfl⟩, ⟨rfl, rfl⟩, by decide +kernel, rfl, rfl,
    ⟨⟨rfl, rfl⟩, by decide +kernel, rfl⟩, ⟨rfl, rfl, rfl⟩⟩

/-- DQPOP: no active lane, an empty queue under a running and a stopped hawk, and a speculative entry. -/
theorem witness_DecisionQueueWaits :
    (GangRuns teNone (gctx teNone) (fun _ => { plainInfo with writes := [.g 31] }) ∧ (gctx teNone).act = 0) ∧
    (GangRuns tg (gctx tg) (fun _ => { plainInfo with writes := [.g 31] }) ∧ (gctx tg).act ≠ 0 ∧ (gctx tg).gg.dq = [] ∧
      (gctx tg).tm.hawk.st ≠ .stopped) ∧
    (let s := tGang 2 [] id id fun tm => { tm with hawk := { tm.hawk with st := .stopped } }
     GangRuns s (gctx s) (fun _ => { plainInfo with writes := [.g 31] }) ∧ (gctx s).gg.dq = [] ∧ (gctx s).tm.hawk.st = .stopped) ∧
    (let s := tGang 2 [] (fun gg => { gg with dq := [{ val := 7, spec := true }] }) id id
     GangRuns s (gctx s) (fun _ => { plainInfo with writes := [.g 31] }) ∧ (gctx s).gg.dq = [{ val := 7, spec := true }]) :=
  ⟨⟨⟨rfl, rfl⟩, rfl⟩, ⟨⟨rfl, rfl⟩, by decide +kernel, rfl, by decide⟩, ⟨⟨rfl, rfl⟩, rfl, rfl⟩, ⟨rfl, rfl⟩, rfl⟩

/-- The launch has handlers for gangs and hawks. -/
def armed (s : State) : State := { s with launches := [{ placedLaunch with vector := some (0x6000, 0x7000) }] }

theorem witness_SoftwareTraps :
    GangRuns te (gctx te) (fun _ => endsInfo acceptsNone true []) ∧ (gctx te).act ≠ 0 ∧ (vectorOf te (gctx te).tm).1 = 0 ∧
    GangRuns (armed te) (gctx (armed te)) (fun _ => endsInfo acceptsNone true []) ∧
    (vectorOf (armed te) (gctx (armed te)).tm).1 ≠ 0 ∧ (gctx (armed te)).gg.handler = none ∧
    GangRuns teNone (gctx teNone) (fun _ => endsInfo acceptsNone true []) ∧ (gctx teNone).act = 0 ∧
    HawkRunsPlain (armed thEnd) (hctx (armed thEnd)) (fun _ => { plainHInfo with ends := true, treat := .stall }) ∧
    (vectorOf (armed thEnd) (hctx (armed thEnd)).tm).2 ≠ 0 ∧ (hctx (armed thEnd)).hk.handler = none ∧
    HawkRunsPlain thEnd (hctx thEnd) (fun _ => { plainHInfo with ends := true, treat := .stall }) ∧
    (vectorOf thEnd (hctx thEnd).tm).2 = 0 :=
  ⟨⟨rfl, rfl⟩, by decide +kernel, rfl, ⟨rfl, rfl⟩, by decide +kernel, rfl, ⟨rfl, rfl⟩, rfl, ⟨⟨rfl, rfl, rfl⟩, rfl⟩, by decide +kernel, rfl,
    ⟨⟨rfl, rfl, rfl⟩, rfl⟩, rfl⟩

/-- What a trap saved: every lane, at a word or at a header of the program. -/
def savedAt (cl : Option Clause) : HandlerSave :=
  { home := allLanes, o := [], y0 := zeroLanes, y1 := zeroLanes, count := 1, yPending := 0, pc := 0x5000, clause := cl, replay := none,
    depth := 0, marked := true, peel := false }
/-- A gang in handler mode with a fault record of this replay mask, precise or imprecise. -/
def tgHandler (cl : Option Clause) (replay : Mask) (imp : Bool) (h : Frag → Frag) : State :=
  tGang 1 [] (fun gg => { gg with handler := some (savedAt cl), flt := { noFault with replay := replay, imp := imp } }) h id
/-- The hawk in handler mode. -/
def thHandler (cl : Option Clause) (replay : Mask) : State :=
  tHawk 1 [] (fun hk => { hk with handler := some (0x5000, cl), flt := { noFault with replay := replay } }) id
/-- ERET's needs in a gang, and the conditions under which it returns. -/
def returns (s : State) : Prop :=
  GangRuns s (gctx s) (fun _ => endsInfo acceptsNone true []) ∧ (gctx s).cl.guard = 31 ∧
  ∃ h, (gctx s).gg.handler = some h ∧ (gctx s).fr.home &&& h.home ≠ 0 ∧ divergedSince (gctx s).gg (gctx s).f h = false

theorem witness_EretRestores :
    GangRuns te (gctx te) (fun _ => endsInfo acceptsNone true []) ∧ (gctx te).gg.handler = none ∧
    (let s := tgHandler none 0 false (fun fr => { fr with home := 0 })
     GangRuns s (gctx s) (fun _ => endsInfo acceptsNone true []) ∧ (gctx s).fr.home &&& (savedAt none).home = 0) ∧
    (let s := tgHandler none 0 false guarded
     GangRuns s (gctx s) (fun _ => endsInfo acceptsNone true []) ∧ (gctx s).cl.guard ≠ 31) ∧
    returns (tgHandler none 0 true id) ∧ returns (tgHandler none 1 false id) ∧
    returns (tgHandler (some (placedClause false)) 1 false id) ∧ returns (tgHandler (some (placedClause false)) 0 false id) ∧
    returns (tgHandler none 0 false id) ∧
    HawkRunsPlain thEnd (hctx thEnd) (fun _ => { plainHInfo with ends := true, treat := .stall }) ∧ (hctx thEnd).hk.handler = none ∧
    (∀ cl ∈ [none, some (placedClause false)], ∀ r ∈ [0, 1],
      HawkRunsPlain (thHandler cl r) (hctx (thHandler cl r)) (fun _ => { plainHInfo with ends := true, treat := .stall }) ∧
      (hctx (thHandler cl r)).hk.handler = some (0x5000, cl)) := by
  refine ⟨⟨rfl, rfl⟩, rfl, ⟨⟨rfl, rfl⟩, rfl⟩, ⟨⟨rfl, rfl⟩, by decide +kernel⟩, ⟨⟨rfl, rfl⟩, rfl, _, rfl, by decide +kernel, rfl⟩,
    ⟨⟨rfl, rfl⟩, rfl, _, rfl, by decide +kernel, rfl⟩, ⟨⟨rfl, rfl⟩, rfl, _, rfl, by decide +kernel, rfl⟩,
    ⟨⟨rfl, rfl⟩, rfl, _, rfl, by decide +kernel, rfl⟩, ⟨⟨rfl, rfl⟩, rfl, _, rfl, by decide +kernel, rfl⟩, ⟨⟨rfl, rfl, rfl⟩, rfl⟩, rfl, ?_⟩
  intro cl hcl r hr
  simp only [List.mem_cons, List.not_mem_nil, or_false] at hcl hr
  rcases hcl with rfl | rfl <;> rcases hr with rfl | rfl <;> exact ⟨⟨⟨rfl, rfl, rfl⟩, rfl⟩, rfl⟩

theorem witness_SystemRegisters :
    GangRuns tg (gctx tg) (fun _ => { plainInfo with writes := [.g 31] }) ∧ (gctx tg).act ≠ 0 ∧
    (∃ x, gangCsr tg (gctx tg) 0x0B = some x) ∧ gangCsr tg (gctx tg) 0xFFF = none ∧
    HawkRuns th (hctx th) (fun _ => { plainHInfo with writes := [63] }) ∧ (∃ x, readCsr th (hctx th).tm .hawk 0x0B = some x) ∧
    GangRuns tg (gctx tg) (fun _ => { plainInfo with reads := [.g 31] }) ∧ isNanF (f32 0) = false ∧
    (gReg (gctx tg).gg 31).toNat % 64 ≤ launchField tg (gctx tg).tm 63 (·.prio) ∧
    HawkRunsPlain th (hctx th) (fun _ => { plainHInfo with reads := [63], treat := .hold true }) ∧
    (∃ s', writeCsr th 0 (hctx th).tm 0x0B (kReg (hctx th).hk 63) = some s') ∧
    GangRuns tg (gctx tg) (fun _ => gangInfo (quickInfo true [] [31] .run)) ∧
    HawkRuns th (hctx th) (fun _ => hawkInfo (quickInfo true [] [63] .run)) ∧
    GangRuns tg (gctx tg) (fun _ => gangInfo (quickInfo true [] [] (.hold true))) ∧
    HawkRunsPlain th (hctx th) (fun _ => hawkInfo (quickInfo true [] [] (.hold true))) :=
  ⟨⟨rfl, rfl⟩, by decide +kernel, ⟨_, rfl⟩, rfl, ⟨rfl, rfl, rfl⟩, ⟨_, rfl⟩, ⟨rfl, rfl⟩, rfl, by decide +kernel, ⟨⟨rfl, rfl, rfl⟩, rfl⟩,
    ⟨_, by rfl⟩, ⟨rfl, rfl⟩, ⟨rfl, rfl, by rfl⟩, ⟨rfl, rfl⟩, ⟨⟨rfl, rfl, rfl⟩, rfl⟩⟩

theorem witness_HintsStandForNextWord :
    gangCtx tg = some (gctx tg) ∧ 1 < (gctx tg).cl.left ∧ gangCtx te = some (gctx te) ∧ (gctx te).cl.left ≤ 1 ∧
    hawkCtx th = some (hctx th) ∧ 1 < (hctx th).cl.left ∧ hawkCtx thEnd = some (hctx thEnd) ∧ (hctx thEnd).cl.left ≤ 1 ∧
    (let s := tGang 1 [(0x4000, .xnop), (0x4000, .xnop)] id id id
     ∃ h, gangCtx s = some (gctx s) ∧ badHint acceptsNone (gctx s).cl.hints [] = some h) ∧
    (let s := tHawk 1 [(0x4000, .immxImmediate 5)] id id
     ∃ h, hawkCtx s = some (hctx s) ∧ badHint acceptsNone (hctx s).cl.hints [] = some h) :=
  ⟨rfl, by decide +kernel, rfl, by decide +kernel, rfl, by decide +kernel, rfl, by decide +kernel, ⟨_, rfl, rfl⟩, ⟨_, rfl, rfl⟩⟩
/-- A matrix instruction that stands in an open batch. -/
def anOp (b : Option Nat) : MatrixOp :=
  { id := 0, gang := 0, instr := .mmab 0, cfg := 0, batch := b, regs := [], index := 0, gvals := [], reads := [], writes := []
    entry := 0, stepNo := 0, deposits := [] }
/-- A matrix report of a batch of gang 0. -/
def aReport : Report := { cause := .engineError, addr := 0, cls := none, batch := some 15 }

theorem witness_ShapeAndBatches :
    (gctx tg).act ≠ 0 ∧ GangRuns tg (gctx tg) (fun _ => { plainInfo with reads := [.g 31], writes := [.g 30] }) ∧
    (∃ w, grantFor (gReg (gctx tg).gg 31) (gctx tg).tm.vregs = some w) ∧
    (∀ req ∈ [256, 128, 10, 0x60], let s := tGang 2 [] (fun gg => setG gg 31 req) id id
      GangRuns s (gctx s) (fun _ => { plainInfo with reads := [.g 31], writes := [.g 30] }) ∧ gReg (gctx s).gg 31 = req) ∧
    GangRuns tg (gctx tg) (fun _ => plainInfo) ∧ batchBusy (gctx tg).tm 0 0 = false ∧ matrixBusy (gctx tg).tm 0 = false ∧
    reportAt (gctx tg).tm 0 (fun _ => true) = none ∧
    (let s := tGang 2 [] id id fun tm => { tm with mops := [anOp (some 0)] }
     GangRuns s (gctx s) (fun _ => plainInfo) ∧ batchBusy (gctx s).tm 0 0 = true ∧ matrixBusy (gctx s).tm 0 = true) ∧
    (let s := tGang 2 [] (fun gg => { gg with mseq := 15 }) id fun tm => { tm with matrixReport := some (0, 0, aReport) }
     GangRuns s (gctx s) (fun _ => { plainInfo with writes := [.g 31] }) ∧ (gctx s).gg.mseq % 16 = 15 ∧
     batchBusy (gctx s).tm 0 15 = false ∧ reportAt (gctx s).tm 0 (· == some 15) = some aReport) := by
  refine ⟨by decide +kernel, ⟨rfl, rfl⟩, ⟨_, rfl⟩, ?_, ⟨rfl, rfl⟩, rfl, rfl, rfl, ⟨⟨rfl, rfl⟩, rfl, rfl⟩, ⟨⟨rfl, rfl⟩, rfl, rfl, rfl⟩⟩
  intro req h
  simp only [List.mem_cons, List.not_mem_nil, or_false] at h
  rcases h with rfl | rfl | rfl | rfl <;> exact ⟨⟨rfl, rfl⟩, rfl⟩

/-- A gang with a configuration: FP16 or the format given, one k-step, 64 columns. -/
def tgMx (hints : List (DWord × Instr)) (fmt : Nat) (f : Gang → Gang) : State :=
  tGang 2 hints (fun gg => f { gg with mcfg := grantWord fmt 64 1 true 0 }) id id
/-- Two plane descriptors that hold a whole operand each: M 1, in scratchpad, 256 blocks from offsets 0 and 6,144. -/
def mxPlanes (gg : Gang) : Gang :=
  setG (setG (setG (setG gg 2 0x11) 3 0x0001000040000000) 4 0x11) 5 0x0001000040000000
def noExt (x : MatrixNeeds) : Bool := x.extents.all fun e => decide (e.1 + e.2 ≤ 8192)
/-- The needs of an image form at offset 0. -/
def imageNeeds (x : GCtx) : MatrixNeeds :=
  { noNeeds with
    legal := decide (0 < x.tm.acct) && (gReg x.gg 9).toNat % 128 == 0 && decide ((gReg x.gg 9).toNat < 2 ^ 23)
    gregs := [9], extents := [((gReg x.gg 9).toNat, 32768)] }

theorem witness_MatrixWordsIssue :
    (let s := tgMx [] 0 id
     GangRuns s (gctx s) (matrixInfo acceptsNone fun x => registersAB x 15 0 96 (spanA 0 1) (spanB 0 64 1) true) ∧
     (gctx s).act = allLanes ∧ noExt (registersAB (gctx s) 15 0 96 (spanA 0 1) (spanB 0 64 1) true) = true ∧
     GangRuns s (gctx s) (matrixInfo acceptsNone fun x =>
       { registersAB x 0 0 16 (spanA 0 1) (spanB 0 64 1) (decide (kTotal (configOf x) ≤ 64)) with gregs := [30, 31] }) ∧
     GangRuns s (gctx s) (matrixInfo acceptsNone fun x => { noNeeds with
       legal := (configOf x).gv, gregs := [31], extents := [(0, 16)] }) ∧
     (registersAB (gctx s) 15 0 97 (spanA 0 1) (spanB 0 64 1) true).legal = false ∧
     GangRuns s (gctx s) (fun c => { matrixInfo acceptsNone (fun x => registersAB x 15 0 97 16 16 true) c with legal := true })) ∧
    (let s := tgMx [] 8 mxPlanes
     GangRuns s (gctx s) (matrixInfo ⟨false, false, false, false, true⟩ (planeNeeds 15 2 4))) ∧
    (let s := tgMx [(0x4004, .immxOperand 0 0 0 0 40)] 0 id
     GangRuns s (gctx s) (matrixInfo acceptsOper (mmanNeeds 2 0 0 64)) ∧ GangRuns s (gctx s) (matrixInfo acceptsOper (mmanNeeds 4 0 0 64)) ∧
     GangRuns s (gctx s) (matrixInfo acceptsOper (mmanNeeds 8 0 0 64))) ∧
    (let s := tGang 2 [] id id fun tm => { tm with lines := 256 }
     GangRuns s (gctx s) (matrixInfo acceptsNone imageNeeds) ∧ (imageNeeds (gctx s)).extents = [(0, 32768)] ∧
     scratchSize (gctx s).tm = 32768) ∧
    (GangRuns tg (gctx tg) (matrixInfo acceptsNone imageNeeds) ∧ scratchSize (gctx tg).tm < 32768) ∧
    GangRuns tg (gctx tg) (matrixInfo acceptsNone fun _ => { noNeeds with legal := true, writes := (List.range 8).map (· + 104) }) ∧
    (let s := tGang 2 [] id id fun tm => { tm with mops := List.replicate 8 (anOp none) }
     GangRuns s (gctx s) (matrixInfo acceptsNone fun x => { noNeeds with legal := decide (15 < x.tm.acct) }) ∧
     ((gctx s).tm.mops.filter fun m => m.gang == 0).length = 8) ∧
    (let s := tGang 2 [] id oneLane id
     GangRuns s (gctx s) (matrixInfo acceptsNone imageNeeds) ∧ (gctx s).act ≠ allLanes) ∧
    (let s := tGang 2 [] id id fun tm => { tm with acct := 0 }
     GangRuns s (gctx s) (fun c => { matrixInfo acceptsNone (fun x => { noNeeds with legal := decide (0 < x.tm.acct) }) c with legal := true }) ∧
     decide (0 < (gctx s).tm.acct) = false) :=
  by and_intros <;> first | exact ⟨rfl, rfl⟩ | rfl | decide +kernel

/-- Skim operands: key 0 in g12, the descriptor of one block in g6 and g7, a store of one slot, one plane and one line in g14
and g15, skim enabled. -/
def tgSkim (h : Frag → Frag) (k : Team → Team) : State :=
  { tGang 2 [] (fun gg => setG (setG (setG (setG gg 6 0x13) 7 0x0000100000400000) 14 0x80) 15 0x100001) h k with
    launches := [{ placedLaunch with record := { placedRecord with skim := true } }] }
def skimWordInfo : GCtx → WordInfo :=
  skimInfo ⟨false, false, false, false, true⟩ 1 12 6 14 (decide (23 < 24)) [.p 23]

theorem witness_SkimWords :
    (let s := tgSkim id id
     GangRuns s (gctx s) skimWordInfo ∧ GangRuns s (gctx s) (skimInfo acceptsNone 0 12 6 14 true []) ∧ (gctx s).act = allLanes ∧
     (∃ a, skimArgs (gctx s) 12 6 14 = some a ∧ a.key.oline + a.store.olines ≤ (gctx s).tm.lines ∧
       planesFit (scratchSize (gctx s).tm) a.d 0 (a.store.cpl + 1) a.store.iblk = true) ∧
     GangRuns s (gctx s) (fun _ => { plainInfo with writes := [.g 31] }) ∧ skimBusy (gctx s).tm 0 = false ∧
     skimOn s (gctx s).tm = true ∧ (gctx s).act ≠ 0) ∧
    (let s := tgSkim id fun tm => { tm with lines := 0 }
     GangRuns s (gctx s) skimWordInfo ∧ ∃ a, skimArgs (gctx s) 12 6 14 = some a ∧ (gctx s).tm.lines < a.key.oline + a.store.olines) ∧
    (let s := tgSkim oneLane id
     GangRuns s (gctx s) skimWordInfo ∧ (gctx s).act ≠ allLanes) ∧
    GangRuns tg (gctx tg) (fun _ => { plainInfo with writes := [.g 31] }) ∧ skimOn tg (gctx tg).tm = false ∧
    (let s := tgSkim id fun tm => { tm with eops := [{ id := 0, order := 0, who := .gang 0, flag := some 0
                                                       kind := .skimput { layer := 0, blk := 0, oline := 0 } thePlane
                                                         { sbase := 0, nslot := 1, cpl := 1, iblk := 1, olines := 1 } 0
                                                       landed := [], pending := [], bad := [], report := none, sent := [], wrote := []
                                                       fetched := [], delivered := [] }] }
     GangRuns s (gctx s) (fun _ => { plainInfo with writes := [.g 31] }) ∧ skimBusy (gctx s).tm 0 = true) :=
  ⟨⟨⟨rfl, rfl⟩, ⟨rfl, rfl⟩, rfl, ⟨_, rfl, by decide +kernel, rfl⟩, ⟨rfl, rfl⟩, rfl, rfl, by decide +kernel⟩,
    ⟨⟨rfl, rfl⟩, _, rfl, by decide +kernel⟩, ⟨⟨rfl, rfl⟩, by decide +kernel⟩, ⟨rfl, rfl⟩, rfl, ⟨⟨rfl, rfl⟩, rfl⟩⟩

/-- Descriptors in scratchpad. At 0: a copy of one element of 4 bytes from 0x8000 to scratchpad 4,096. At 128: a gather of one
4-byte element through an index at 1,024 to 2,048. At 160: the same with its data over its index. At 256: nothing. -/
def descriptors (tm : Team) : Team :=
  setScratch tm (writesAt 0 (bytesOf 8 0x8000 ++ bytesOf 8 (2 ^ 56 + 4096) ++ bytesOf 8 0xF21 ++ bytesOf 8 0 ++
      bytesOf 8 (1 + 4 * 2 ^ 24) ++ bytesOf 8 4) ++
    writesAt 128 (bytesOf 8 0x8000 ++ bytesOf 8 (1024 + 2 * 2 ^ 24) ++ bytesOf 8 2048 ++ bytesOf 8 0) ++
    writesAt 160 (bytesOf 8 0x8000 ++ bytesOf 8 (1024 + 2 * 2 ^ 24) ++ bytesOf 8 1024 ++ bytesOf 8 0))
/-- Register 2 to 5: 128, 160, 256, 1. Registers 6 to 9: two plane descriptors. Register 10: planes 0 to 1 of one block. -/
def engReg (set : Nat → DWord → α → α) (x : α) : α :=
  set 10 0x420 (set 9 0x0000100000400000 (set 8 0x13 (set 7 0x0000100000400000 (set 6 0x413 (set 5 1 (set 4 256 (set 3 160 (set 2 128 x))))))))
def tgEng : State := tGang 2 [] (engReg fun n w gg => setG gg n w) id descriptors
def thEng : State := tHawk 2 [] (engReg fun n w hk => setK hk n w) descriptors
def gIss : Issuer := gangIssuer (gctx tgEng) 0
def hIss : Issuer := hawkIssuer (hctx thEng) 0

/-- The copy descriptor at an issuer's register is read whole, legal and inside. -/
def gotCopy (s : State) (x : Issuer) (a : Nat) : Prop :=
  ∃ s1 hdr d0 nd s2 rest dims, (x.reg a).toNat % 32 = 0 ∧ streamLoad s x true (x.reg a).toNat 32 = .ok s1 hdr ∧
    copyHeader hdr = some (d0, nd) ∧ streamLoad s1 x true ((x.reg a).toNat + 32) (16 * nd) = .ok s2 rest ∧
    copyDims nd rest = some dims ∧ extentFails (scratchSize x.tm) { d0 with dims := dims } true = false ∧
    extentFails (scratchSize x.tm) { d0 with dims := dims } false = false ∧ d0.sloc = false ∧ d0.dloc = true
/-- The gather descriptor at an issuer's register is read and its areas lie inside and meet, or not. -/
def gotArea (s : State) (x : Issuer) (a : Nat) (meet : Bool) : Prop :=
  ∃ s1 hdr g, (x.reg a).toNat % 32 = 0 ∧ streamScratch s x (x.reg a).toNat 32 = .ok s1 hdr ∧ gatherDesc hdr = some g ∧
    (∀ y ∈ gatherAreas g, y.1 + y.2 ≤ scratchSize x.tm) ∧ anyMeet (gatherAreas g) = meet
/-- PCOPY's operands at registers 6, 8 and 10 are legal. -/
def gotPlanes (x : Issuer) : Prop :=
  ∃ pd ps, planeDesc (x.reg 6) (x.reg 7) = some pd ∧ planeDesc (x.reg 8) (x.reg 9) = some ps ∧ (x.reg 10).toNat = 0x420 ∧ pd.m = ps.m ∧
    1 ≤ pd.m + 1 ∧ pd.block + 1 ≤ pd.bcount ∧ ps.block + 1 ≤ ps.bcount ∧ planesFit (scratchSize x.tm) ps 0 1 1 = true ∧
    planesFit (scratchSize x.tm) pd 0 1 1 = true

set_option maxRecDepth 8000 in
theorem witness_EngineCommandsIssue :
    GangRuns tgEng (gctx tgEng) (fun _ => gangInfo (commandInfo 0 acceptsCache true [5])) ∧ (gctx tgEng).act ≠ 0 ∧
    HawkRunsPlain thEng (hctx thEng) (fun _ => hawkInfo (commandInfo 1 acceptsCache true [63])) ∧
    gotCopy tgEng gIss 0 ∧ gotCopy thEng hIss 0 ∧
    (∃ s1 hdr, (gIss.reg 4).toNat % 32 = 0 ∧ streamLoad tgEng gIss true (gIss.reg 4).toNat 32 = .ok s1 hdr ∧ copyHeader hdr = none) ∧
    (gIss.reg 5).toNat % 32 ≠ 0 ∧ gotArea tgEng gIss 2 false ∧ gotArea tgEng gIss 3 true ∧ gotArea thEng hIss 2 false ∧
    GangRuns tgEng (gctx tgEng) (fun _ => gangInfo (commandInfo 0 ⟨false, false, true, false, true⟩ true [6, 7, 8, 9, 10])) ∧
    gotPlanes gIss ∧ gotPlanes hIss :=
  ⟨⟨rfl, rfl⟩, by decide +kernel, ⟨⟨rfl, rfl, rfl⟩, rfl⟩, by refine ⟨_, _, _, _, _, _, _, rfl, rfl, rfl, rfl, rfl, ?_⟩; and_intros <;> rfl,
    by refine ⟨_, _, _, _, _, _, _, rfl, rfl, rfl, rfl, rfl, ?_⟩; and_intros <;> rfl, ⟨_, _, rfl, rfl, rfl⟩, by decide +kernel,
    ⟨_, _, _, rfl, rfl, rfl, by decide +kernel, rfl⟩, ⟨_, _, _, rfl, rfl, rfl, by decide +kernel, rfl⟩,
    ⟨_, _, _, rfl, rfl, rfl, by decide +kernel, rfl⟩, ⟨rfl, rfl⟩,
    ⟨_, _, rfl, rfl, rfl, rfl, by decide +kernel, by decide +kernel, by decide +kernel, rfl, rfl⟩,
    ⟨_, _, rfl, rfl, rfl, rfl, by decide +kernel, by decide +kernel, by decide +kernel, rfl, rfl⟩⟩

/-- Registers: 0 holds 0, 1 holds 64 lines, 2 holds 65, 3 an offset that is not aligned. -/
def tgFill (k : Team → Team) : State := tGang 2 [] (fun gg => setG (setG (setG gg 1 64) 2 65) 3 1) id k

theorem witness_FillTagsOfLines :
    GangRuns (tgFill id) (gctx (tgFill id)) (fun _ => gangInfo (quickInfo true [0, 1] [] .stall)) ∧ (gctx (tgFill id)).act ≠ 0 ∧
    HawkRunsPlain th (hctx th) (fun _ => hawkInfo (quickInfo true [0, 63] [] .stall)) ∧
    (let x := gangIssuer (gctx (tgFill id)) 0
     (x.reg 0).toNat + 128 * (x.reg 1).toNat = scratchSize x.tm ∧
     (∀ l ∈ linesOf 0 (128 * 64), fillTag x.tm l ≠ tagPending) ∧ scratchSize x.tm < (x.reg 0).toNat + 128 * (x.reg 2).toNat ∧
     (x.reg 3).toNat % 128 ≠ 0 ∧ (x.reg 0).toNat = 0) ∧
    (let x := gangIssuer (gctx (tgFill fun tm => setFill tm 63 tagPending)) 0
     ∃ l ∈ linesOf 0 (128 * 64), fillTag x.tm l = tagPending) ∧
    GangRuns (tgFill id) (gctx (tgFill id)) (fun _ => gangInfo (quickInfo true [0] [31] .run)) ∧
    HawkRunsPlain th (hctx th) (fun _ => hawkInfo (quickInfo true [0] [63] .run)) :=
  ⟨⟨rfl, rfl⟩, by decide +kernel, ⟨⟨rfl, rfl, rfl⟩, rfl⟩, ⟨rfl, by decide +kernel, by decide +kernel, by decide +kernel, rfl⟩,
    ⟨63, by decide +kernel, rfl⟩, ⟨rfl, rfl⟩, ⟨⟨rfl, rfl, rfl⟩, rfl⟩⟩

/-- Queue 15 has one handle and allowances of 1; two gangs run, so that others are there to push and pop. -/
def oneHandle (tm : Team) : Team := setAllowance (setAllowance (setQueue tm 15 [0x2000]) 15 0 1) 15 16 1

theorem witness_NamedQueues :
    (let s := tGang 2 [] id id oneHandle
     let x := gangIssuer (gctx s) 0
     GangRuns s (gctx s) (fun _ => gangInfo (quickInfo true [31] [] .stall)) ∧ (gctx s).act ≠ 0 ∧
     (x.reg 31).toNat % 2 ^ 13 + 1 ≤ x.tm.lines ∧ allowance x.tm 15 (producerOf x.who) ≠ 0 ∧ (queueOf x.tm 15).length < 16 ∧
     queueOf x.tm 15 = [0x2000] ∧ GangRuns s (gctx s) (fun _ => gangInfo (quickInfo true [] [31] .stall)) ∧
     GangRuns s (gctx s) (fun _ => { plainInfo with writes := [.g 31, .p 23] })) ∧
    (let s := tHawk 2 [] id oneHandle
     HawkRunsPlain s (hctx s) (fun _ => hawkInfo (quickInfo true [63] [] .stall)) ∧
     allowance (hctx s).tm 15 (producerOf .hawk) ≠ 0 ∧ queueOf (hctx s).tm 15 = [0x2000] ∧
     HawkRunsPlain s (hctx s) (fun _ => { plainHInfo with writes := [63], cwrites := [7], treat := .stall })) ∧
    (allowance (gctx tg).tm 15 (producerOf (.gang 0)) = 0 ∧ queueOf (gctx tg).tm 15 = [] ∧ othersGone (gctx tg).tm (.gang 0) = false) ∧
    (let s := tGang 2 [] id id fun tm => { tm with hawk := { tm.hawk with st := .stopped } }
     GangRuns s (gctx s) (fun _ => gangInfo (quickInfo true [] [31] .stall)) ∧ queueOf (gctx s).tm 15 = [] ∧
     othersGone (gctx s).tm (.gang 0) = true) ∧
    (let s := tGang 2 [(0x4004, .immxImmediate 31)] (fun gg => setG (setG gg 1 16) 2 1) id id
     badAllowHint (gctx s).cl.hints = none ∧ (gctx s).act ≠ 0 ∧
     GangRuns s (gctx s) (fun _ => { plainInfo with accepts := acceptsImm, reads := [.g 1] }) ∧
     ((gangIssuer (gctx s) 0).reg 1).toNat = 16 ∧ ((gangIssuer (gctx s) 0).reg 2).toNat ≠ 16 ∧
     (gctx s).tm.gangCount ≤ ((gangIssuer (gctx s) 0).reg 2).toNat ∧ ((gangIssuer (gctx s) 0).reg 0).toNat < (gctx s).tm.gangCount) ∧
    HawkRunsPlain th (hctx th) (fun _ => { plainHInfo with accepts := acceptsImm, reads := [63], treat := .stall }) ∧
    badAllowHint (hctx th).cl.hints = none ∧ ((hawkIssuer (hctx th) 0).reg 63).toNat < (hctx th).tm.gangCount :=
  ⟨⟨⟨rfl, rfl⟩, by decide +kernel, by decide +kernel, by decide +kernel, by decide +kernel, rfl, ⟨rfl, rfl⟩, ⟨rfl, rfl⟩⟩,
    ⟨⟨⟨rfl, rfl, rfl⟩, rfl⟩, by decide +kernel, rfl, ⟨⟨rfl, rfl, rfl⟩, rfl⟩⟩, ⟨rfl, rfl, rfl⟩, ⟨⟨rfl, rfl⟩, rfl, rfl⟩,
    ⟨rfl, by decide +kernel, ⟨rfl, rfl⟩, rfl, by decide +kernel, by decide +kernel, by decide +kernel⟩, ⟨⟨rfl, rfl, rfl⟩, rfl⟩, rfl,
    by decide +kernel⟩
/-- What SKIMPUT's tile tags answer there, with line 0 in a state. -/
def skimTiles (tag : BitVec 2) : Option (List Nat ⊕ Nat) :=
  let s := tgSkim id fun tm => setFill tm 0 tag
  (skimArgs (gctx s) 12 6 14).bind fun a =>
    tileStop s (gctx s).tm a (.skimput a.key a.d a.store (gctx s).tm.stepno)

theorem witness_SkimTiles :
    skimTiles tagFull = none ∧ skimTiles tagPending = some (.inl [0]) ∧ skimTiles tagEmpty = some (.inl [0]) ∧
    skimTiles tagFaulted = some (.inr 0) ∧
    (∀ tag ∈ [tagFull, tagPending, tagEmpty, tagFaulted], let s := tgSkim id fun tm => setFill tm 0 tag
      GangRuns s (gctx s) (skimInfo acceptsNone 0 12 6 14 true []) ∧ (skimArgs (gctx s) 12 6 14).isSome = true) := by
  refine ⟨by decide +kernel, by decide +kernel, by decide +kernel, by decide +kernel, ?_⟩
  intro tag h
  simp only [List.mem_cons, List.not_mem_nil, or_false] at h
  rcases h with rfl | rfl | rfl | rfl <;> exact ⟨⟨rfl, rfl⟩, rfl⟩

/-- The copy descriptor at 0 with another source and destination. -/
def copyAt (src dst : Nat) (tm : Team) : Team := setScratch (descriptors tm) (writesAt 0 (bytesOf 8 src ++ bytesOf 8 dst))
/-- The data of the gather descriptor at 128 starts past the allocation. -/
def farGather (tm : Team) : Team := setScratch (descriptors tm) (writesAt 144 (bytesOf 8 8192))
def engS (k : Team → Team) : State := tGang 2 [] (engReg fun n w gg => setG gg n w) id k
/-- Whether the extents of the copy descriptor at 0 fail, source and destination, and whether each is in scratchpad. -/
def copyFaults (s : State) (x : Issuer) : Option (Bool × Bool × Bool × Bool) :=
  match streamLoad s x true 0 32 with
  | .ok s1 hdr => (copyHeader hdr).bind fun (d0, nd) => match streamLoad s1 x true 32 (16 * nd) with
    | .ok _ rest => (copyDims nd rest).map fun dims =>
      let d := { d0 with dims := dims }
      (extentFails (scratchSize x.tm) d true, extentFails (scratchSize x.tm) d false, d.sloc, d.dloc)
    | _ => none
  | _ => none

set_option maxRecDepth 8000 in
theorem witness_EngineTraps :
    (let s := engS (copyAt (2 ^ 56 + 8190) (2 ^ 56 + 4096))
     GangRuns s (gctx s) (fun _ => gangInfo (commandInfo 1 acceptsCache true [0])) ∧
     copyFaults s (gangIssuer (gctx s) 1) = some (true, false, true, true)) ∧
    (let s := engS (copyAt 0x8000 (2 ^ 56 + 8190))
     copyFaults s (gangIssuer (gctx s) 1) = some (false, true, false, true)) ∧
    (let s := engS (copyAt (2 ^ 56 + 1024) (2 ^ 56 + 4096))
     copyFaults s (gangIssuer (gctx s) 1) = some (false, false, true, true)) ∧
    (let s := engS farGather
     GangRuns s (gctx s) (fun _ => gangInfo (commandInfo 1 acceptsCache true [2])) ∧
     ∃ s1 hdr g y, streamScratch s (gangIssuer (gctx s) 1) 128 32 = .ok s1 hdr ∧ gatherDesc hdr = some g ∧
       (gatherAreas g).find? (fun y => decide (scratchSize (gctx s).tm < y.1 + y.2)) = some y) ∧
    (gIss.reg 5).toNat % 32 ≠ 0 ∧
    (∀ r ∈ [6, 8], let s := tGang 2 [] (fun gg => setG (engReg (fun n w gg => setG gg n w) gg) r 0x2013) id descriptors
      let x := gangIssuer (gctx s) 0
      GangRuns s (gctx s) (fun _ => gangInfo (commandInfo 0 ⟨false, false, true, false, true⟩ true [6, 7, 8, 9, 10])) ∧
      ∃ pd ps, planeDesc (x.reg 6) (x.reg 7) = some pd ∧ planeDesc (x.reg 8) (x.reg 9) = some ps ∧ pd.m = ps.m ∧
        planesFit (scratchSize x.tm) ps 0 1 1 = (r == 6) ∧ planesFit (scratchSize x.tm) pd 0 1 1 = (r == 8)) ∧
    planeDesc (gIss.reg 2) (gIss.reg 3) = none := by
  refine ⟨⟨⟨rfl, rfl⟩, rfl⟩, rfl, rfl, ⟨⟨rfl, rfl⟩, _, _, _, _, rfl, rfl, rfl⟩, by decide +kernel, ?_, rfl⟩
  intro r h
  simp only [List.mem_cons, List.not_mem_nil, or_false] at h
  rcases h with rfl | rfl <;> exact ⟨⟨rfl, rfl⟩, _, _, rfl, rfl, rfl, rfl, rfl⟩
theorem witness_ReductionsOverLanes :
    (let info (more : Bool) (c : GCtx) : WordInfo := let w := v3Info c useNone 111 121 none false; { w with legal := w.legal && more }
     GangRuns tg (gctx tg) (info ((2#2) != 3)) ∧ (gctx tg).act ≠ 0 ∧
     GangRuns tg (gctx tg) (info ((2#2) != 3 && decide ((5#3).toNat ≤ 5) && ((2#2) != 0 || decide ((5#3).toNat ≤ 2)))) ∧
     GangRuns tg (gctx tg) (info ((0#2) != 3 && decide ((2#3).toNat ≤ 5) && ((0#2) != 0 || decide ((2#3).toNat ≤ 2)))) ∧
     ((0#2) != 3 && decide ((3#3).toNat ≤ 5) && ((0#2) != 0 || decide ((3#3).toNat ≤ 2))) = false ∧
     GangRuns tg (gctx tg) (fun c => { info true c with legal := true })) ∧
    (let s := tGang 2 [] id (fun fr => { fr with exmask := 0 }) id
     GangRuns s (gctx s) (fun c => v3Info c useNone 0 0 none false) ∧ (gctx s).act = 0) :=
  ⟨⟨⟨rfl, rfl⟩, by decide +kernel, ⟨rfl, rfl⟩, ⟨rfl, rfl⟩, rfl, ⟨rfl, rfl⟩⟩, ⟨rfl, rfl⟩, rfl⟩

/-- SORT64 and MERGE in the descending order of signed integers. -/
def tgSort (h : Frag → Frag) : State := tGang 2 [(0x4004, .immxOperand 6 0 0 0 0)] id h id

theorem witness_SortAndMerge :
    (let s := tgSort id
     sortMode (gctx s) = (2, true) ∧
     GangRuns s (gctx s) (fun c => let w := v3Info c useEl 119 173 none false; { w with legal := w.legal && (sortMode c).1 != 3 }) ∧
     GangRuns s (gctx s) (fun c =>
       let w := v3Info c useEl 110 5 (some 7) false
       { w with legal := w.legal && (sortMode c).1 != 3 && pairOk c.tm.vregs 110, writes := [.v 110, .v 111] }) ∧
     (gctx s).act = allLanes) ∧
    (let s := tgSort oneLane
     GangRuns s (gctx s) (fun c => let w := v3Info c useEl 119 173 none false; { w with legal := w.legal && (sortMode c).1 != 3 }) ∧
     GangRuns s (gctx s) (fun c =>
       let w := v3Info c useEl 110 5 (some 7) false
       { w with legal := w.legal && (sortMode c).1 != 3 && pairOk c.tm.vregs 110, writes := [.v 110, .v 111] }) ∧
     (gctx s).act ≠ allLanes) ∧
    (let s := tGang 2 [] id (fun fr => { fr with count := 2 }) id
     GangRuns s (gctx s) (fun c => let w := v3Info c useEl 120 121 none false; { w with legal := w.legal && (sortMode c).1 != 3 }) ∧
     sortMode (gctx s) = (0, false)) :=
  ⟨⟨rfl, ⟨rfl, rfl⟩, ⟨rfl, rfl⟩, rfl⟩, ⟨⟨rfl, rfl⟩, ⟨rfl, rfl⟩, by decide +kernel⟩, ⟨rfl, rfl⟩, rfl⟩

/-- A selection list of two places at offset 0 with one entry, 2.0 in both bounds, number 7. -/
def aList (tm : Team) : Team :=
  setScratch tm (writesAt 0 (bytesOf 4 1 ++ bytesOf 4 64 ++ bytesOf 8 0 ++ bytesOf 4 0x40000000 ++ bytesOf 4 7 ++
    bytesOf 4 0x40000000 ++ bytesOf 4 0))
/-- g0 names the list; g1 has a reserved bit and a misaligned offset; g2 a list longer than the allocation. -/
def tgList (h : Frag → Frag) : State :=
  tGang 2 [] (fun gg => setG (setG (setG gg 0 0x800000) 1 0x80000000001) 2 0x7FFFFFFE000) h aList
/-- SELTH.P sets p23. -/
def tgSelp : State := tGang 2 [(0x4004, .immxOperand 0 0 0 23 173)] id (fun fr => { fr with count := 2 }) id
/-- TOPK's and SELTH's needs, as their statement reads them. -/
def topNeeds (d : BitVec 7) (a : BitVec 8) (b : BitVec 7) (c : GCtx) : WordInfo :=
  let w := v3Info c { useNone with sc := true } d a (some b) false
  marginInfo c { w with legal := w.legal && (gCode a.toNat).isSome && decide (b.toNat ≤ 121) }
def finNeeds (a : BitVec 8) (c : GCtx) : WordInfo :=
  { plainInfo with accepts := acceptsOper, legal := (gCode a.toNat).isSome && operLegal c useNone false, reads := srcRegs a.toNat }
def selNeeds (d : BitVec 7) (a : BitVec 8) (b : BitVec 7) (p : Bool) (c : GCtx) : WordInfo :=
  let w := v3Info c { useNone with sc := true, pc := p } d a (some b) false
  let pc := (operHint c.cl.hints).map (·.pc)
  let w := marginInfo c { w with legal := w.legal && b != 127 && (!p || pc.any fun p => decide (p < 24)) }
  { w with writes := w.writes ++ if p then pc.elim [] fun p => [.p p] else [] }
/-- What the writes of a TOPK with one lane would be. -/
def topWrites (s : State) (c : GCtx) : List (Nat × List Byte) :=
  let old := [readTop c.tm 0 0]
  changedTop 0 old ((candidates s c 5 64).foldl (offer 2) old)

theorem witness_SelectionLists :
    (let s := tgList oneLane
     GangRuns s (gctx s) (topNeeds 119 128 5) ∧ GangRuns s (gctx s) (finNeeds 128) ∧ (gctx s).act ≠ 0 ∧
     listOperand (gReg (gctx s).gg 0) = some (0, 2) ∧ 16 + 16 * 2 ≤ scratchSize (gctx s).tm ∧
     topCheck s (gctx s) 0 16 true = none ∧ natOf (scratchBytes (gctx s).tm 0 16) = 64 * 2 ^ 32 + 1 ∧
     topCheck s (gctx s) 16 16 true = none ∧ (∀ w ∈ topWrites s (gctx s), topCheck s (gctx s) w.1 w.2.length false = none) ∧
     topCheck s (gctx s) 0 16 false = none ∧
     (∀ w ∈ changedTop 0 [readTop (gctx s).tm 0 0] (sortTop [readTop (gctx s).tm 0 0]),
       topCheck s (gctx s) w.1 w.2.length false = none)) ∧
    (let s := tgList (fun fr => { fr with count := 2 })
     GangRuns s (gctx s) (topNeeds 120 129 121) ∧ (gReg (gctx s).gg 1).toNat / 2 ^ 43 ≠ 0 ∧ (gReg (gctx s).gg 1).toNat % 128 ≠ 0 ∧
     GangRuns s (gctx s) (topNeeds 120 130 121) ∧ listOperand (gReg (gctx s).gg 2) = some (0x7FE000, 0x100000) ∧
     scratchSize (gctx s).tm < 0x7FE000 + 16 + 16 * 0x100000) ∧
    GangRuns tg (gctx tg) (selNeeds 111 121 120 false) ∧
    operHint (gctx tgSelp).cl.hints = some { el := 0, sat := false, rm := 0, pc := 23, sc := 173 } ∧
    GangRuns tgSelp (gctx tgSelp) (selNeeds 111 121 120 true) :=
  ⟨⟨⟨rfl, rfl⟩, ⟨rfl, rfl⟩, by and_intros <;> decide +kernel⟩,
    ⟨⟨rfl, rfl⟩, by decide +kernel, by decide +kernel, ⟨rfl, rfl⟩, by decide +kernel, by decide +kernel⟩, ⟨rfl, rfl⟩, rfl, ⟨rfl, rfl⟩⟩

/-- The hawk inside a speculation window that has room for one more instruction. -/
def aWindow : SpecWindow :=
  { pc := 0x4000, clause := placedClause false, cbit := 0, neg := false, target := 0x5000, predicted := false, k := [], c := 0, ret := []
    firstOp := 0, count := 63, held := [], fault := none, committing := false, link := false }
def thWin : State := tHawk 2 [] (fun hk => { hk with window := some aWindow }) id
/-- An immediate-form IMMX before the hawk's word. -/
def thImm : State := tHawk 2 [(0x4004, .immxImmediate 0xFFFFFF)] id id
/-- The needs of a hawk's arithmetic word. -/
def kNeeds (im : BitVec 1) (d a : BitVec 6) (b : BitVec 10) : HInfo :=
  { plainHInfo with
    accepts := if im = 1 then acceptsImm else acceptsNone, reads := a.toNat :: (if im = 1 then [] else [b.toNat]), writes := [d.toNat] }

theorem witness_HawkArithmetic :
    ¬((0#1) = 0 ∧ 64 ≤ (63#10).toNat) ∧ HawkRuns th (hctx th) (fun _ => kNeeds 0 63 0 63) ∧ HawkRuns thWin (hctx thWin) (fun _ => kNeeds 0 0 63 0) ∧
    ¬((1#1) = 0 ∧ 64 ≤ (1023#10).toNat) ∧ HawkRuns thImm (hctx thImm) (fun _ => kNeeds 1 63 63 1023) ∧
    HawkRuns th (hctx th) (fun _ => { kNeeds 0 63 0 63 with reads := [63] }) ∧
    ((0#1) = 0 ∧ 64 ≤ (64#10).toNat) ∧ hawkCtx th = some (hctx th) ∧ gangCtx tg = some (gctx tg) :=
  ⟨by decide, ⟨rfl, rfl, rfl⟩, ⟨rfl, rfl, rfl⟩, by decide, ⟨rfl, rfl, rfl⟩, ⟨rfl, rfl, rfl⟩, by decide, rfl, rfl⟩

/-- A load still owes k63 its value, and a comparison of it c7. -/
def thOwes (left : Nat) : State :=
  tHawk left [] (fun hk => { hk with kpend := [(63, 4)], cpend := [{ inWindow := none, cbit := 7, cond := 0, a := .load 4, b := .value 0 }] }) id

theorem witness_HawkBranchesAndWindows :
    (let i : HInfo := { plainHInfo with accepts := acceptsNone, cwrites := [7] }
     HawkRuns th (hctx th) (fun _ => i) ∧ (63#10).toNat < 64 ∧ (∀ p ∈ (hctx th).hk.kpend, p.1 ≠ 63) ∧
     heldPending (hctx th).hk 63 = false ∧
     HawkRuns (thOwes 2) (hctx (thOwes 2)) (fun _ => { plainHInfo with accepts := acceptsImm, cwrites := [6] }) ∧
     (hctx (thOwes 2)).hk.kpend.find? (fun q => q.1 == 63) = some (63, 4) ∧ heldPending (hctx (thOwes 2)).hk 63 = false) ∧
    (let branch : HInfo := { plainHInfo with accepts := acceptsImm, ends := true }
     HawkRunsPlain thEnd (hctx thEnd) (fun _ => branch) ∧ cPending (hctx thEnd).hk 7 = false ∧ (hctx thEnd).hk.ret = [] ∧
     HawkRunsPlain (thOwes 1) (hctx (thOwes 1)) (fun _ => branch) ∧ cPending (hctx (thOwes 1)).hk 7 = true ∧
     (let s := tHawk 1 [] (fun hk => { hk with ret := List.replicate 15 0x6000 }) id
      HawkRunsPlain s (hctx s) (fun _ => branch) ∧ (hctx s).hk.ret.length < 16) ∧
     (let s := tHawk 1 [] (fun hk => { hk with ret := List.replicate 16 0x6000 }) id
      HawkRunsPlain s (hctx s) (fun _ => branch) ∧ 16 ≤ (hctx s).hk.ret.length)) ∧
    (let s := tHawk 1 [] (fun hk => { hk with ret := [0x6000] }) id
     HawkRunsPlain s (hctx s) (fun _ => { plainHInfo with ends := true }) ∧ (hctx s).hk.ret = [0x6000]) ∧
    HawkRunsPlain thEnd (hctx thEnd) (fun _ => { plainHInfo with ends := true }) ∧
    HawkRunsPlain th (hctx th) (fun _ => { plainHInfo with treat := .stall }) ∧ flagsClear (hctx th).hk.flags 0xFFF = true ∧
    reportIn (hctx th).hk.reports 0xFFF = none ∧
    (let s := tHawk 2 [] (fun hk => { hk with flags := smSet 0 hk.flags 11 1 }) id
     HawkRunsPlain s (hctx s) (fun _ => { plainHInfo with treat := .stall }) ∧ flagsClear (hctx s).hk.flags 0x800 = false) ∧
    HawkRunsPlain thEnd (hctx thEnd) (fun _ => { plainHInfo with ends := true, treat := .stall }) :=
  ⟨⟨⟨rfl, rfl, rfl⟩, by decide, by decide +kernel, rfl, ⟨rfl, rfl, rfl⟩, rfl, rfl⟩,
    ⟨⟨⟨rfl, rfl, rfl⟩, rfl⟩, by rfl, rfl, ⟨⟨rfl, rfl, rfl⟩, rfl⟩, by rfl, ⟨⟨⟨rfl, rfl, rfl⟩, rfl⟩, by decide +kernel⟩,
      ⟨⟨⟨rfl, rfl, rfl⟩, rfl⟩, by decide +kernel⟩⟩,
    ⟨⟨⟨rfl, rfl, rfl⟩, rfl⟩, by rfl⟩, ⟨⟨rfl, rfl, rfl⟩, rfl⟩, ⟨⟨rfl, rfl, rfl⟩, rfl⟩, by rfl, by rfl, ⟨⟨⟨rfl, rfl, rfl⟩, rfl⟩, by decide +kernel⟩,
    ⟨⟨rfl, rfl, rfl⟩, rfl⟩⟩

/-- A running gang beside the hawk, with so many entries in its decision queue. -/
def thQueue (n : Nat) (w : Option SpecWindow) : State :=
  modGang (tHawk 2 [] (fun hk => { hk with window := w }) fun tm => { tm with gangs := [freshGang 0 0x6000], gangCount := 1 }) 0 0
    fun gg => { gg with dq := List.replicate n { val := 0, spec := false } }

theorem witness_DecisionQueuePushes :
    (let s := thQueue 15 none
     HawkRuns s (hctx s) (fun _ => { plainHInfo with reads := [63] }) ∧
     (∃ gg, gangOf (hctx s).tm 0 = some gg ∧ gangExited gg = false ∧ gg.dq = List.replicate 15 { val := 0, spec := false }) ∧
     (∀ g ∈ (List.range (hctx s).tm.gangCount).filter fun g => !((gangOf (hctx s).tm g).all gangExited), ∀ gg,
       gangOf (hctx s).tm g = some gg → gg.dq.length < 16) ∧
     (List.range (hctx s).tm.gangCount).filter (fun g => !((gangOf (hctx s).tm g).all gangExited)) = [0] ∧
     (hctx s).hk.window = none ∧ gangOf (hctx s).tm 15 = none) ∧
    (let s := thQueue 15 (some aWindow)
     HawkRuns s (hctx s) (fun _ => { plainHInfo with reads := [63] }) ∧ (hctx s).hk.window = some aWindow) ∧
    (let s := thQueue 16 none
     HawkRuns s (hctx s) (fun _ => { plainHInfo with reads := [63] }) ∧ (hctx s).hk.window = none ∧
     ∃ gg, gangOf (hctx s).tm 0 = some gg ∧ gangExited gg = false ∧ gg.dq = List.replicate 16 { val := 0, spec := false }) := by
  refine ⟨⟨⟨rfl, rfl, rfl⟩, ⟨_, rfl, rfl, rfl⟩, ?_, rfl, rfl, rfl⟩, ⟨⟨rfl, rfl, rfl⟩, rfl⟩, ⟨rfl, rfl, rfl⟩, rfl, _, rfl, rfl,
    rfl⟩
  intro g hg gg h
  have hg : g ∈ [0] := hg
  cases List.mem_singleton.mp hg
  cases h
  decide +kernel
/-- A hawk whose k0 holds an address and k1 a value, at a memory word of so many words left. -/
def thMem (hints : List (DWord × Instr)) (a v : DWord) : State := tHawk 2 hints (fun hk => setK (setK hk 0 a) 1 v) id
/-- The span of the hawk's access is let through in one piece of memory, or turned away. -/
def pieceOfMemory (s : State) (acc : Access) (a len : Nat) : Bool :=
  match checkSpan s (hawkReq s (hctx s) acc) a len with
  | .ok [p] => match p.place with
    | .mem .. => !isPeer p
    | _ => false
  | _ => false
def turnedAway (s : State) (acc : Access) (a len : Nat) : Bool :=
  match checkSpan s (hawkReq s (hctx s) acc) a len with
  | .bad .. => true
  | _ => false

theorem pieceOfMemory_spec {s : State} {acc : Access} {a len : Nat} (h : pieceOfMemory s acc a len = true) :
    ∃ p pa b, checkSpan s (hawkReq s (hctx s) acc) a len = .ok [p] ∧ p.place = .mem pa b ∧ isPeer p = false := by
  unfold pieceOfMemory at h
  split at h
  · split at h
    · exact ⟨_, _, _, ‹_›, ‹_›, by simpa using h⟩
    · cases h
  · cases h

theorem turnedAway_spec {s : State} {acc : Access} {a len : Nat} (h : turnedAway s acc a len = true) :
    ∃ c y, checkSpan s (hawkReq s (hctx s) acc) a len = .bad c y := by
  unfold turnedAway at h
  split at h
  · exact ⟨_, _, ‹_›⟩
  · cases h

/-- What KLD, KST and KST.ATOMIC need. -/
def kldNeeds (f : BitVec 1) (d a : Nat) (k : HCtx) : HInfo :=
  { plainHInfo with
    accepts := acceptsK, fs := some f, legal := plainOrders k.cl.hints [0, 1, 3], reads := [a], writes := [d]
    treat := kldTreat k (BitVec.ofNat 6 a) 0 }
def kstNeeds (d a : Nat) (k : HCtx) : HInfo :=
  { plainHInfo with accepts := acceptsK, legal := plainOrders k.cl.hints [0, 2, 3], reads := [a, d], treat := .hold false }
def katNeeds (op : BitVec 5) (w : BitVec 1) (d a : Nat) (k : HCtx) : HInfo :=
  { plainHInfo with
    accepts := acceptsK
    legal := atomicOpOk op (flag1 w) && useOk (atomicScope k.cl.hints) [2, 3] (if commutes op then [1, 2, 5] else [1, 5])
    reads := [a, d], treat := if (atomicScope k.cl.hints).use = 5 then .hold false else .stall }

/-- A relaxed atomic at team scope. -/
def relaxed : List (DWord × Instr) := [(0x4004, .xscope 0 1 3 0)]

theorem witness_HawkLoadsAndStores :
    (let s := thMem [] 0x8000 7
     HawkRunsPlain s (hctx s) (kldNeeds 1 63 0) ∧ HawkRunsPlain s (hctx s) (kstNeeds 1 0) ∧ kOrder (hctx s) = 0 ∧
     (kReg (hctx s).hk 0).getLsbD 63 = false ∧ pieceOfMemory s .read 0x8000 8 = true ∧ pieceOfMemory s .write 0x7000 8 = true ∧
     turnedAway s .read 0x8FF8 8 = false ∧ turnedAway s .read 0x1000000 8 = true) ∧
    (let s := thMem relaxed 0x8000 7
     HawkRunsPlain s (hctx s) (katNeeds 9 0 1 0) ∧ HawkRunsPlain s (hctx s) (katNeeds 8 1 1 0) ∧
     releases (atomicScope (hctx s).cl.hints).order = false ∧ (kReg (hctx s).hk 0).getLsbD 63 = false ∧
     pieceOfMemory s .atomic 0x8000 8 = true ∧ (kReg (hctx s).hk 0).toNat % 8 = 0) ∧
    (let s := thMem relaxed 0x8001 7
     HawkRunsPlain s (hctx s) (katNeeds 9 0 1 0) ∧ releases (atomicScope (hctx s).cl.hints).order = false ∧ (kReg (hctx s).hk 0).getLsbD 63 = false ∧ (kReg (hctx s).hk 0).toNat % 4 ≠ 0) ∧
    (let s := thMem [(0x4004, .xscope 0 0 0 0)] (2 ^ 63 + 8184) 7
     HawkRunsPlain s (hctx s) (kldNeeds 0 2 0) ∧ HawkRunsPlain s (hctx s) (kstNeeds 1 0) ∧ kOrder (hctx s) = 0 ∧
     (kReg (hctx s).hk 0).getLsbD 63 = true ∧ (kReg (hctx s).hk 0).toNat / 2 ^ 23 % 2 ^ 40 = 0 ∧
     (kReg (hctx s).hk 0).toNat % 2 ^ 23 = 8184 ∧ checkScratch s (hctx s).tm .hawk 8184 8 8 true = .ok ∧
     checkScratch s (hctx s).tm .hawk 8184 8 8 false = .ok ∧
     checkScratch s (hctx s).tm .hawk 8192 8 8 true = .bad .scratchBounds) ∧
    (let s := thMem relaxed (2 ^ 63 + 8184) 7
     HawkRunsPlain s (hctx s) (katNeeds 0 1 1 0) ∧ releases (atomicScope (hctx s).cl.hints).order = false ∧
     (kReg (hctx s).hk 0).getLsbD 63 = true ∧ (atomicScope (hctx s).cl.hints).scope ≤ 3) ∧
    (let s := thMem [] (2 ^ 63 + 2 ^ 62) 7
     HawkRunsPlain s (hctx s) (kldNeeds 0 2 0) ∧ HawkRunsPlain s (hctx s) (kstNeeds 1 0) ∧
     (kReg (hctx s).hk 0).getLsbD 63 = true ∧ (kReg (hctx s).hk 0).toNat / 2 ^ 23 % 2 ^ 40 ≠ 0) := by
  exact ⟨⟨⟨⟨rfl, rfl, rfl⟩, rfl⟩, ⟨⟨rfl, rfl, rfl⟩, rfl⟩, rfl, by decide +kernel, by decide +kernel, by decide +kernel, by decide +kernel, by decide +kernel⟩,
    ⟨⟨⟨rfl, rfl, rfl⟩, rfl⟩, ⟨⟨rfl, rfl, rfl⟩, rfl⟩, rfl, by decide +kernel, by decide +kernel, by decide +kernel⟩, ⟨⟨⟨rfl, rfl, rfl⟩, rfl⟩, rfl, by decide +kernel, by decide +kernel⟩,
    ⟨⟨⟨rfl, rfl, rfl⟩, rfl⟩, ⟨⟨rfl, rfl, rfl⟩, rfl⟩, by decide +kernel, by decide +kernel, by decide +kernel, by decide +kernel, by decide +kernel,
      by decide +kernel, by decide +kernel⟩,
    ⟨⟨⟨rfl, rfl, rfl⟩, rfl⟩, rfl, by decide +kernel, by decide +kernel⟩, ⟨⟨⟨rfl, rfl, rfl⟩, rfl⟩, ⟨⟨rfl, rfl, rfl⟩, rfl⟩, by decide +kernel, by decide +kernel⟩⟩

/-- The words of a launch record: one team of one gang from 0x4000 in ASID 1, a context area, and a completion record's place. -/
def recordBytes (done : Nat) : List Byte :=
  [0x4000, 0x4000, 0, 1 + 2 ^ 24 + 13 * 2 ^ 32, 2 ^ 6 + 2 ^ 27, 0, 0, 0, 0, 0, 0x180000, 1, done, 0, 0, 0].flatMap (bytesOf 8)
/-- The record stands at 0x8000, k62 holds its address or another, k63 queue 511, and the boot chain is done or not. -/
def thLaunch (boot : Bool) (done : Nat) (va : DWord) (win : Option SpecWindow) : State :=
  let s := tHawk 2 [] (fun hk => { setK (setK hk 62 va) 63 511 with window := win }) id
  { setMemBytes s 0x108000 (recordBytes done) with bootdone := boot }
/-- What LAUNCH finds: the outcome of the checks of a submission, and whether the launch is barred from it. -/
def launchFinds (s : State) : Option (Nat × Bool) :=
  match streamRead (releaseBy s 0 .hawk 6) (hawkIssuer (hctx s) 0) (kReg (hctx s).hk 62).toNat 128 with
  | .ok s' bs => let u := consumePeers s' (hctx s).tm.lid (hctx s).tm.tid .hawk (· == (hawkIssuer (hctx s) 0).lane)
    some (checkRecord u 511 bs, launchRestricted u (hctx s).tm (readRecord bs))
  | .stop _ => none
theorem launchFinds_spec {s : State} {x : Nat × Bool} (h : launchFinds s = some x) :
    ∃ s' bs, streamRead (releaseBy s 0 .hawk 6) (hawkIssuer (hctx s) 0) (kReg (hctx s).hk 62).toNat 128 = .ok s' bs ∧
      let u := consumePeers s' (hctx s).tm.lid (hctx s).tm.tid .hawk (· == (hawkIssuer (hctx s) 0).lane)
      checkRecord u 511 bs = x.1 ∧ launchRestricted u (hctx s).tm (readRecord bs) = x.2 := by
  unfold launchFinds at h
  split at h
  · cases h
    exact ⟨_, _, ‹_›, rfl, rfl⟩
  · cases h
/-- LAUNCH's needs. -/
def launchNeeds (k : HCtx) : HInfo :=
  { plainHInfo with
    legal := (62#6).toNat % 2 == 0, reads := [62, 63], writes := [61], treat := if launchOk 62 k.hk.k then .hold true else .run }

/-- A window with one held command short of its bound. -/
def fullWindow : SpecWindow :=
  { aWindow with
    held := List.replicate 15 { instr := .snap, pc := 0x4000, clause := placedClause false, k := [], c := 0, ret := [], pushes := [], count := 0
                                firstOp := 0 } }

theorem witness_LaunchAndHeldWork :
    (∀ x ∈ [(thLaunch true 0x1FFFF8 0x8000 none, 0, false), (thLaunch true 0x300000 0x8000 none, 0, true),
        (thLaunch false 0x1FFFF8 0x8000 none, 9, false)],
      HawkRunsPlain x.1 (hctx x.1) launchNeeds ∧ (kReg (hctx x.1).hk 62).toNat % 128 = 0 ∧ (kReg (hctx x.1).hk 63).toNat ≤ 511 ∧
      launchFinds x.1 = some x.2) ∧
    (let s := thLaunch true 0x1FFFF8 0x8001 none
     HawkRunsPlain s (hctx s) launchNeeds ∧ (kReg (hctx s).hk 62).toNat % 128 ≠ 0) ∧
    (let s := thLaunch true 0x1FFFF8 0x8000 (some fullWindow)
     hawkCtx s = some (hctx s) ∧ (hctx s).hk.window = some fullWindow ∧ fullWindow.fault.isNone = true ∧ fullWindow.committing = false ∧
     fullWindow.count < 64 ∧ (fullWindow.held.filter fun h => isCommand h.instr).length < 16 ∧ launchOk 62 (hctx s).hk.k = true ∧
     ∀ i ∈ [launchNeeds (hctx s), kstNeeds 1 0 (hctx s), hawkInfo (commandInfo 1 acceptsCache true [62]),
         { plainHInfo with reads := [62] }, plainHInfo],
       hawkReady { i with treat := .run } (hctx s) = true) ∧
    (let s := tHawk 1 [] (fun hk => { hk with window := some aWindow }) id
     hawkCtx s = some (hctx s) ∧ hawkReady { plainHInfo with ends := true, treat := .run } (hctx s) = true) := by
  refine ⟨?_, ⟨⟨⟨rfl, rfl, rfl⟩, rfl⟩, by decide +kernel⟩, ⟨rfl, rfl, rfl, rfl, by decide, by decide +kernel, by decide +kernel, by decide +kernel⟩, rfl, rfl⟩
  intro x h
  simp only [List.mem_cons, List.not_mem_nil, or_false] at h
  rcases h with rfl | rfl | rfl <;> exact ⟨⟨⟨rfl, rfl, rfl⟩, rfl⟩, by decide +kernel, by decide +kernel, by decide +kernel⟩
/-- A held store of k1 at the address of k0, in a window. -/
def aStore : HeldWork :=
  { instr := .kst 1 0 0, pc := 0x4000, clause := placedClause false, k := smSet 0 (smSet 0 [] 0 0x8000) 1 7, c := 0, ret := [], pushes := []
    count := 0, firstOp := 0 }
def thForward (a : DWord) : State :=
  tHawk 2 [] (fun hk => { setK (setK hk 0 a) 1 7 with window := some { aWindow with held := [aStore] } }) id

theorem witness_HeldStoresForward :
    (let s := thForward 0x8000
     HawkRuns s (hctx s) (kldNeeds 1 63 0) ∧ (∃ w, (hctx s).hk.window = some w ∧ w.held = [aStore]) ∧ kOrder (hctx s) = 0 ∧
     pieceOfMemory s .read 0x8000 8 = true ∧ (List.range 8).map (fun n => heldByte (physAlias s 1) (.mem 0x8000) n aStore) = (bytesOf 8 7).map some ∧
     heldByte (physAlias s 1) (.mem 0x7FFC) 3 aStore = none ∧ heldByte (physAlias s 1) (.mem 0x7FFC) 4 aStore = some 7) ∧
    (let s := thForward (2 ^ 63 + 8184)
     HawkRuns s (hctx s) (kldNeeds 1 63 0) ∧ checkScratch s (hctx s).tm .hawk 8184 8 8 true = .ok) :=
  ⟨⟨⟨rfl, by decide +kernel, by decide +kernel⟩, ⟨_, rfl, rfl⟩, rfl, by decide +kernel, by decide +kernel, by decide +kernel, by decide +kernel⟩,
    ⟨rfl, by decide +kernel, by decide +kernel⟩, by decide +kernel⟩

/-- KCMP's condition 7 is the unsigned greater-or-equal (R268, R321): 5 is not below 5, and 4 is. -/
theorem test_kcmp_geu :
    (let s := tHawk 2 [] (fun hk => setK hk 63 5) id
     HawkRuns s (hctx s) (fun _ => { plainHInfo with accepts := acceptsImm, cwrites := [7] }) ∧
     ([4, 5, 6].map fun b : BitVec 10 => match exec (.kcmp 1 7 7 63 b) s with
       | .next t => (hctx t).hk.c.getLsbD 7
       | _ => false) = [true, true, false]) := ⟨⟨rfl, rfl, rfl⟩, by decide +kernel⟩
/-- The answers of the range unit, by kind. -/
def isChanged : RangeRes → Bool
  | .changed .. => true
  | _ => false
def isNone : RangeRes → Bool
  | .none => true
  | _ => false
def isBusy : RangeRes → Bool
  | .busy _ => true
  | _ => false
def trapsWith (c : Cause) (y : Nat) : RangeRes → Bool
  | .trap c' y' => c' == c && y' == y
  | _ => false
theorem isChanged_spec {r : RangeRes} (h : isChanged r = true) : ∃ u kind, r = .changed u kind := by cases r <;> simp_all [isChanged]
theorem isNone_spec {r : RangeRes} (h : isNone r = true) : r = .none := by cases r <;> simp_all [isNone]
theorem isBusy_spec {r : RangeRes} (h : isBusy r = true) : ∃ bases, r = .busy bases := by cases r <;> simp_all [isBusy]
theorem trapsWith_spec {c : Cause} {y : Nat} {r : RangeRes} (h : trapsWith c y r = true) : r = .trap c y := by
  cases r <;> simp_all [trapsWith]

/-- A table of these ranges with room for more, in a launch that is a system launch or not; operations in progress. -/
def ranged (s : State) (es : List RangeEntry) (ops : List RangeOp) (sys : Bool) : State :=
  let s := setMemBytes s 0x10000 (es.flatMap entryBytes)
  { s with
    asids := smSet noAsid s.asids 1 { en := true, rsv := false, tbase := 0x10000, count := es.length, tsize := 4 }
    launches := [{ placedLaunch with record := { placedRecord with sys := sys } }], rangeOps := ops }
/-- A range of 64 KiB that may be changed; the same with a window of no byte, with its backing copy; and one right of it. -/
def whole : RangeEntry := { placedEntry with limit := 0x10000, glim := 0x20000, whi := 1 }
def backed : RangeEntry := { whole with back := true, cbase := 2 ^ 51, grain := 1 }
def empty : RangeEntry := { backed with whi := 0 }
def right : RangeEntry :=
  { whole with base := 0x10000, limit := 0x20000, pbase := 0x110000, wlo := 1, whi := 2, cbase := 0x10000, glim := 0x30000 }
/-- A hawk with two operands in k0 and k1. -/
def thRange (a b : DWord) (es : List RangeEntry) (ops : List RangeOp) (sys : Bool) : State := ranged (thMem [] a b) es ops sys
def tgRange : State := ranged (tGang 2 [] (fun gg => setG (setG gg 0 0x8000) 1 0x8000) id id) [whole] [] false
def aMove : RangeOp := { id := 0, asid := 1, holder := none, kind := .move 0 0x200000 0 false, trowel := none }
/-- The answer to an instruction of one operand, or of two. -/
def ask1 (f : State → Team → Nat → RangeRes) (s : State) : RangeRes := f s (hctx s).tm ((hawkIssuer (hctx s) 0).reg 0).toNat
def ask2 (f : State → Team → Nat → Nat → RangeRes) (s : State) : RangeRes :=
  f s (hctx s).tm ((hawkIssuer (hctx s) 0).reg 0).toNat ((hawkIssuer (hctx s) 0).reg 1).toNat
def askSeal (s : State) : RangeRes := rangeSeal (releaseBy s 0 .hawk 6) (hctx s).tm .hawk ((hawkIssuer (hctx s) 0).reg 0).toNat

/-- Each range instruction's answer. -/
def asks : List (State → RangeRes) :=
  [ask1 rangeSplit, ask1 rangeMerge, ask2 rangeTrim, ask2 rangeGrow, ask1 fun s tm => rangeInv s tm false, ask1 fun s tm => rangeInv s tm true,
   ask2 rangeIn, ask2 rangeOut, ask2 rangeMove, ask1 rangeUnseal, askSeal]
def sealedWhole : RangeEntry := { whole with sealed := true }
def capWhole : RangeEntry := { whole with cap := true, pbase := 2 ^ 51 }

/-- In a gang and in the hawk: each instruction changes the table somewhere; those that may change nothing do so somewhere; each
waits beside a move, and traps for an address that no range holds; and the cases of RGSPLIT and RGPROBE. -/
theorem witness_RangeInstructions :
    (∀ r ∈ [[0], [0, 1]], GangRuns tgRange (gctx tgRange) (fun _ => gangInfo (quickInfo true r [] (.hold true)))) ∧ (gctx tgRange).act ≠ 0 ∧
    isChanged (rangeSplit tgRange (gctx tgRange).tm ((gangIssuer (gctx tgRange) 0).reg 0).toNat) = true ∧
    (let s := thRange 0x8000 0x8000 [whole] [] false
     (∀ r ∈ [[0], [0, 1]], HawkRunsPlain s (hctx s) (fun _ => hawkInfo (quickInfo true r [] (.hold true)))) ∧
     isChanged (ask1 rangeSplit s) = true ∧ isChanged (ask2 rangeTrim s) = true ∧ isChanged (ask1 (fun s tm => rangeInv s tm false) s) = true ∧
     isChanged (ask1 (fun s tm => rangeInv s tm true) s) = true ∧ isChanged (askSeal s) = true ∧ isNone (ask1 rangeUnseal s) = true ∧
     (∃ n, findRange s (asidOf s (hctx s).tm) 0x8000 = some (n, whole)) ∧ whole.st ≠ rsMigrating ∧
     rangeBusy s (asidOf s (hctx s).tm) whole.base = false ∧ 0x8000 ≠ whole.base ∧
     (asidDesc s (asidOf s (hctx s).tm)).count ≠ (asidDesc s (asidOf s (hctx s).tm)).tsize ∧
     (∃ n, findRange s (asidOf s (hctx s).tm) 0xFF80 = some (n, whole)) ∧
     findRange s (asidOf s (hctx s).tm) 0x10000 = none ∧
     HawkRunsPlain s (hctx s) (fun _ => hawkInfo
       (quickInfo ((62#6).toNat % 2 == 0 && (6#3).toNat % 2 == 0) [0] [62, 63] (.hold true)))) ∧
    isChanged (ask1 rangeMerge (thRange 0x10000 0 [whole, right] [] false)) = true ∧
    isChanged (ask2 rangeGrow (thRange 0x8000 0x20000 [whole] [] false)) = true ∧
    isChanged (ask2 rangeIn (thRange 0 0x10000 [empty] [] false)) = true ∧ isNone (ask2 rangeIn (thRange 0 0x10000 [capWhole] [] false)) = true ∧
    isChanged (ask2 rangeOut (thRange 0 0x10000 [backed] [] false)) = true ∧
    isNone (ask2 rangeOut (thRange 0 0x10000 [capWhole] [] false)) = true ∧
    isChanged (ask2 rangeMove (thRange 0 0x200000 [whole] [] true)) = true ∧
    trapsWith .rangePermission 0 (ask2 rangeMove (thRange 0 0x200000 [whole] [] false)) = true ∧
    isNone (askSeal (thRange 0x8000 0 [sealedWhole] [] false)) = true ∧ isChanged (ask1 rangeUnseal (thRange 0x8000 0 [sealedWhole] [] false)) = true ∧
    (∀ f ∈ asks, isBusy (f (thRange 0 0 [whole] [aMove] false)) = true ∧
      trapsWith .noRange 0x10000 (f (thRange 0x10000 0x10000 [whole] [] false)) = true) ∧
    (let s := thRange 0x8000 0 [{ whole with self := false }] [] false
     sysMode s (hctx s).tm = false ∧ ∃ n e, findRange s (asidOf s (hctx s).tm) 0x8000 = some (n, e) ∧ e.self = false) := by
  refine ⟨?gang, ?_, ?_, ⟨?hawk, ?_, ?_, ?_, ?_, ?_, ?_, ⟨0, ?_⟩, ?_, ?_, ?_, ?_, ⟨0, ?_⟩, ?_, ⟨rfl, rfl, rfl⟩, rfl⟩, ?more⟩
  case gang =>
    intro r h
    simp only [List.mem_cons, List.not_mem_nil, or_false] at h
    rcases h with rfl | rfl
    · exact ⟨rfl, rfl⟩
    · exact ⟨rfl, rfl⟩
  case hawk =>
    intro r h
    simp only [List.mem_cons, List.not_mem_nil, or_false] at h
    rcases h with rfl | rfl
    · exact ⟨⟨rfl, rfl, rfl⟩, rfl⟩
    · exact ⟨⟨rfl, rfl, rfl⟩, rfl⟩
  case more =>
    and_intros
    case refine_2.refine_2 => exact ⟨0, { whole with self := false }, by decide +kernel, rfl⟩
    all_goals decide +kernel
  all_goals decide +kernel
/-! ### Events -/

/-- A module with one team and its launch, changed as said. -/
def tev (k : Team → Team) (l : Launch → Launch) : State :=
  { modTeam (placeWord State.reset 0x24800000) 0 k with agenda := [], launches := [l placedLaunch] }
def aSnapshot (taken : Option (Nat × List SnapSection × Nat)) : Snapshot :=
  { seq := 0, src := 2, cause := 0, lid := 0, tid := 0, buf := 0, taken := taken }

/-- Whether a chain is accepted rests on digests and signatures that the model leaves free: the witness is of a chain that is not. -/
theorem witness_ResetAndBootEvents :
    (acceptedImages []).length ≠ 3 ∧ listAt (acceptedImages []) 0 = none ∧ State.reset.latched = none ∧
    (let s := { State.reset with latched := some (aSnapshot none) }
     ∃ x, s.latched = some x ∧ x.taken = none) ∧
    (let s := { State.reset with latched := some (aSnapshot (some (1, [], 0))) }
     ∃ x, s.latched = some x ∧ x.taken = some (1, [], 0)) ∧ inFast 0 (0 + 1) = true :=
  ⟨by decide, rfl, rfl, ⟨_, rfl, rfl⟩, ⟨_, rfl, rfl⟩, by decide +kernel⟩

theorem witness_ControlRegisterEvents :
    (∃ l ∈ (tev id id).launches, l.record.asid = 1) ∧ ¬(∃ l ∈ State.reset.launches, l.record.asid = 0) ∧ State.reset.bootdone = false ∧
    (let s := { State.reset with bootdone := true }
     s.bootdone = true ∧ populated 0x8000 128 = true ∧ populated (Config.fastHi - 64) 128 = false ∧ populated (Config.physHi - 128) 128 = true ∧
     checkRecord (flushQuanta s 0x8000 0x8080) 511 (physBytes (flushQuanta s 0x8000 0x8080) 0x8000 128) ≠ 0) ∧
    (let s := { setMemBytes (tev id id) 0x108000 (recordBytes 0x1FFFF8) with bootdone := true }
     s.bootdone = true ∧ populated 0x108000 128 = true ∧
     checkRecord (flushQuanta s 0x108000 0x108080) 511 (physBytes (flushQuanta s 0x108000 0x108080) 0x108000 128) = 0) ∧
    (∀ tm ∈ (tev id id).teams, tm.lid ≠ 2) ∧
    (0x8000 % 32 = 0 ∧ inFast 0x8000 (0x8000 + 32) = true ∧ State.reset.trowel.length < 64) ∧ 0x8010 % 32 ≠ 0 ∧
    inFast Config.fastHi (Config.fastHi + 32) = false ∧ (4 : BitVec 38).toNat % 8 ≠ 0 ∧ (0x4000 : BitVec 38).toNat % 8 = 0 := by
  refine ⟨⟨_, List.mem_cons_self, rfl⟩, (fun ⟨_, h, _⟩ => nomatch h), rfl, ⟨rfl, by decide +kernel, by decide +kernel, by decide +kernel,
    by decide +kernel⟩, ⟨rfl, by decide +kernel, by decide +kernel⟩, ?_, ⟨rfl, by decide +kernel, by decide⟩, by decide, by decide +kernel,
    by decide, by decide⟩
  intro tm h
  cases List.mem_singleton.mp h
  decide +kernel

/-- A second launch waits at the head of queue 0. -/
def anotherLaunch : Launch := { placedLaunch with lid := 2, nextTid := 0 }
def waitingLaunch (s : State) : State := { s with launches := s.launches ++ [anotherLaunch], queues := [(0, [2])] }
/-- An input operation, landed or not. -/
def anInput (landed : List Nat) : EngineOp :=
  { id := 0, order := 0, who := .gang 0, flag := none, kind := .input noCopy, landed := landed, pending := [], bad := [], report := none
    sent := [], wrote := [], fetched := [], delivered := [] }
/-- A drained team: no gang runs, the hawk has stopped. -/
def retiring (tm : Team) : Team := { tm with st := .retiring }
/-- The only gang waits at the cluster barrier and the hawk has stopped; the team's swap timer has passed its bound. -/
def idleTeam (tm : Team) : Team :=
  { tm with
    timer := 20000, hawk := { tm.hawk with st := .stopped }
    gangs := tm.gangs.map fun gg => modFragOf gg 0 fun fr => { fr with st := .waiting .joinw } }

theorem witness_TeamLifeEvents :
    (let s := waitingLaunch (tev id id)
     ∃ r n cores, topWork s = some r ∧ workNeed s r.work = some n ∧ 23 < 24 ∧ placeOn s (fun _ => false) n 23 7 = some cores) ∧
    topWork (tev id id) = none ∧
    (let s := tev (fun tm => { tm with st := .preload }) id
     teamIdx s 1 0 = some 0 ∧ ∃ tm, listAt (issueInputs 0 255 s).teams 0 = some tm ∧ tm.st = .preload ∧ tm.inputsLeft = 0 ∧
       tm.eops.filter isInput = []) ∧
    (let s := tev (fun tm => { tm with st := .preload, eops := [{ anInput [] with kind := .input { noCopy with
        dims := [{ count := 1, sstride := 0, dstride := 0 }] } }] }) id
     teamIdx s 1 0 = some 0 ∧ ∃ tm, listAt (issueInputs 0 255 s).teams 0 = some tm ∧
       ∃ op ∈ tm.eops.filter isInput, allLanded op = false) ∧
    (∀ k ∈ [SwapKind.swap, .preempt, .step], let s := tev (fun tm => { tm with st := .swapout, swapKind := k }) id
      ∃ tm, teamIdx s 1 0 = some 0 ∧ listAt s.teams 0 = some tm ∧ launchOf s 1 = some placedLaunch ∧ tm.st = .swapout ∧ tm.loads = [] ∧
        skimOut tm = false ∧ heldByRange tm = false ∧ tm.swapKind = k) ∧
    (let s := tev (fun tm => { tm with st := .swapin }) id
     ∃ tm, teamIdx s 1 0 = some 0 ∧ listAt s.teams 0 = some tm ∧ launchOf s 1 = some placedLaunch ∧ tm.st = .swapin ∧ drainHolds s tm = false) ∧
    (let s := tev retiring id
     ∃ tm, listAt s.teams 0 = some tm ∧ retireReady s tm = true ∧ undelivered tm = []) ∧
    (let s := tev (fun tm => { retiring tm with matrixReport := some (0, 0, aReport) }) id
     ∃ tm c cs, listAt s.teams 0 = some tm ∧ retireReady s tm = true ∧ undelivered tm = c :: cs) ∧
    (∃ tm, listAt (tev id id).teams 0 = some tm ∧ retireReady (tev id id) tm = false ∧ tm.st ≠ .swapout ∧ tm.st ≠ .swapin) ∧
    (let s := { tev id (fun l => { l with cancelled := true, status := 1 }) with teams := [] }
     ∃ l, launchOf s 1 = some l ∧ l.cancelled = true ∧ ∀ tm ∈ s.teams, tm.lid ≠ 1) ∧
    (let s := { tev id id with teams := [] }
     ∃ l, launchOf s 1 = some l ∧ l.cancelled = false ∧ l.nextTid ≠ 0 ∧ l.record.tcount ≤ l.nextTid ∧ ∀ tm ∈ s.teams, tm.lid ≠ 1) ∧
    (let s := { tev id (fun l => { l with nextTid := 0, preds := [(9, some 1)] }) with teams := [], completed := [(9, 1)] }
     ∃ l, launchOf s 1 = some l ∧ l.cancelled = false ∧ l.nextTid = 0 ∧ predFailed l = true) ∧
    ((tev id id).teams.find? fun tm => tm.st == .running && tm.core == 191 && tm.slot == 3) = none ∧
    (let s := waitingLaunch (tev idleTeam id)
     ∃ tm r n, (s.teams.find? fun tm => tm.st == .running && tm.core == 0 && tm.slot == 0) = some tm ∧ teamIdx s tm.lid tm.tid = some 0 ∧
       freeContext s tm.lid = some 0 ∧ topWork s = some r ∧ workNeed s r.work = some n ∧ (swapWait s 0).toNat ≠ 0 ∧
       (swapWait s 0).toNat ≤ tm.timer ∧ timerRuns tm = true ∧ servedBy s tm n = true) ∧
    starved (tev id id) 0 = [] ∧
    (let s := { tev id id with cycle := 512 }
     ∃ x rest, sortBy (·.1) (starved s 0) = x :: rest ∧ s.forced.contains (0, x.2) = false) ∧
    waitingEntries (tev id id) 0 = [] ∧
    (let s := modFrag (tev id id) 0 0 0 fun fr => { fr with st := .noEntry, pool := .none }
     ∃ p w l i g f rest, sortBy (·.1) (sortBy (fun x => x.2.1) (waitingEntries s 0)) = (p, w, l, i, g, f) :: rest ∧
       teamIdx s l i = some 0) := by
  refine ⟨⟨_, _, _, rfl, rfl, by decide, rfl⟩, rfl, ⟨rfl, _, rfl, rfl, rfl, rfl⟩, ⟨rfl, _, rfl, _, List.mem_cons_self, rfl⟩, ?_,
    ⟨_, rfl, rfl, rfl, rfl, rfl⟩, ⟨_, rfl, rfl, rfl⟩, ⟨_, _, _, rfl, rfl, rfl⟩, ⟨_, rfl, rfl, by decide +kernel, by decide +kernel⟩,
    ⟨_, rfl, rfl, fun _ h => nomatch h⟩, ⟨_, rfl, rfl, by decide +kernel, by decide +kernel, fun _ h => nomatch h⟩, ⟨_, rfl, rfl, rfl, rfl⟩, rfl,
    ⟨_, _, _, rfl, rfl, rfl, rfl, rfl, by decide +kernel, by decide +kernel, rfl, rfl⟩, rfl, ⟨_, _, rfl, rfl⟩, rfl,
    ⟨_, _, _, _, _, _, _, rfl, rfl⟩⟩
  intro k h
  simp only [List.mem_cons, List.not_mem_nil, or_false] at h
  rcases h with rfl | rfl | rfl <;> exact ⟨_, rfl, rfl, rfl, rfl, rfl, rfl, rfl, rfl⟩

/-- A load of one g register on flag 0. -/
def aLoad : LoadOp := { id := 3, who := .gang 0, flag := 0, deposits := [] }
/-- A window of a branch on c0, which is computed. -/
def thResolves (c : BitVec 8) : State := tHawk 2 [] (fun hk => { hk with c := c, window := some { aWindow with predicted := true, c := c } }) id
def rangeOpWith (k : RangeKind) (trowel : Option Nat) : RangeOp := { id := 3, asid := 1, holder := none, kind := k, trowel := trowel }
/-- A trowel command on the range of ASID 1 with base 0, to a physical address. -/
def aCommand (dest : DWord) : TrowelCmd := { addr := 0x9000, w0 := 0, w1 := dest, w2 := 0, w3 := 1 }
def checksAs (f : TrowelRes → Bool) (s : State) (c : TrowelCmd) : Bool := f (checkTrowel s c)

theorem witness_CompletionEvents :
    (let s := tev (fun tm => { tm with loads := [aLoad] }) id
     ∃ tm, teamIdx s 1 0 = some 0 ∧ listAt s.teams 0 = some tm ∧ (tm.loads.find? fun l => l.id == 3) = some aLoad ∧ resident tm = true) ∧
    (let s := tev (fun tm => { tm with loads := [aLoad], st := .swapped }) id
     ∃ tm, teamIdx s 1 0 = some 0 ∧ listAt s.teams 0 = some tm ∧ (tm.loads.find? fun l => l.id == 3) = some aLoad ∧ resident tm = false) ∧
    (let s := tev (fun tm => { tm with eops := [{ anInput [] with kind := .copy noCopy }] }) id
     ∃ t tm o, proceeding s 1 0 0 = some (t, tm, o)) ∧ proceeding (tev id id) 1 0 0 = none ∧
    (let s := tev (fun tm => { tm with mops := [{ anOp (some 0) with instr := .accz 0 }] }) id
     ∃ tm m tm', teamIdx s 1 0 = some 0 ∧ listAt s.teams 0 = some tm ∧ (tm.mops.find? fun m => m.id == 0) = some m ∧ tm.st = .running ∧
       mayStep tm m = true ∧ runSteps (raceMode s tm) stepLimit tm m = some tm') ∧
    (∃ w, resolving (thResolves 1) 1 0 = some (0, w, true) ∧ w.predicted = true) ∧
    (∃ w, resolving (thResolves 0) 1 0 = some (0, w, false) ∧ w.predicted = true) ∧ resolving th 1 0 = none ∧
    (∀ k ∈ [RangeKind.change 0 0 0x10000, .change 5 0 0x10000, .migrIn 0 0 65536, .widen 0 0 65536, .move 0 0x200000 0 false],
      rangeOpOf { tev id id with rangeOps := [rangeOpWith k none] } 3 = some (rangeOpWith k none)) ∧
    rangeOpOf { tev id id with rangeOps := [rangeOpWith (.move 0 0x200000 0 false) (some 0x9000)] } 3 =
      some (rangeOpWith (.move 0 0x200000 0 false) (some 0x9000)) ∧ rangeOpOf (tev id id) 3 = none ∧
    (tev id id).trowel = [] ∧ trowelBusy { tev id id with rangeOps := [rangeOpWith (.move 0 0x200000 0 false) (some 0x9000)] } = true ∧
    (let s := { tev id id with trowel := [aCommand 0x200000] }
     trowelBusy s = false ∧ checksAs (fun r => match r with
       | .moves .. => true
       | _ => false) s (aCommand 0x200000) = true) ∧
    (let s := { tev id id with trowel := [aCommand 1] }
     trowelBusy s = false ∧ checksAs (fun r => match r with
       | .fails st => st == 1
       | _ => false) s (aCommand 1) = true) := by
  refine ⟨⟨_, rfl, rfl, rfl, rfl⟩, ⟨_, rfl, rfl, rfl, rfl⟩, ⟨_, _, _, by rfl⟩, by rfl, ⟨_, _, _, rfl, rfl, rfl, rfl, rfl, by rfl⟩,
    ⟨{ aWindow with predicted := true, c := 1 }, rfl, rfl⟩,
    ⟨{ aWindow with predicted := true, c := 0 }, rfl, rfl⟩, rfl, by decide +kernel, by decide +kernel, rfl, rfl, rfl, ⟨rfl, by decide +kernel⟩, ⟨rfl, by decide +kernel⟩⟩

/-- Work of each kind stands at the top of the ranking: a saved team, a killed one, a child. -/
def topIs (f : Work → Bool) (s : State) : Bool := ((topWork s).any fun r => f r.work && ((workNeed s r.work).bind fun n =>
  placeOn s (fun _ => false) n 0 0).any fun cores => cores.head?.isSome)

/-- An operation whose one line waits for no one: a copy of four bytes from 0x8000 to scratchpad 4,096. -/
def aCopy : EngineOp :=
  { anInput [] with
    who := .gang 0, flag := some 1, pending := [32]
    kind := .copy { noCopy with
      src := 0x8000, dst := 4096, dloc := true, esize := 4, dims := [{ count := 1, sstride := 0, dstride := 0 }] } }
/-- A move of it. -/
def theMove : Move := (lineMoves aCopy 32).headD { src := 0, sloc := false, dst := 0, dloc := false, len := 0, stag := none, dtag := none }
def tCopy : State := tev (fun tm => setFill { tm with eops := [aCopy] } 32 tagPending) id
def moveRead : Option (List EByte) :=
  (proceeding tCopy 1 0 0).bind fun (t, tm, o) => match readSide (engCtx tCopy t tm o) false theMove.stag theMove.src theMove.len tCopy with
    | (_, .got bs _) => some bs
    | _ => none

/-- A drained team beside its parent. -/
def withParent : State :=
  let s := tev (fun tm => { retiring tm with parent := some 5 }) id
  { s with teams := s.teams ++ [{ placedTeam false none with tid := 5, join := 1 }] }

theorem witness_TeamLifeCases :
    topIs (· == .resume 1 0) (tev (fun tm => { tm with st := .swapped, gangs := [freshGang 0 0] }) id) = true ∧
    topIs (· == .relaunch 1 0) (tev (fun tm => { tm with st := .queued, relaunches := 1 }) id) = true ∧
    topIs (· == .child 1 0) (tev (fun tm => { tm with st := .queued, parent := some 9 }) id) = true ∧
    topIs (· == .fresh 2) (waitingLaunch (tev id id)) = true ∧ anotherLaunch.cancelled = false ∧ anotherLaunch.record.ninput = 0 ∧
    anotherLaunch.record.pclass ≠ 1 ∧
    (let s := tev (fun tm => { tm with st := .preload, eops := [anInput []] }) id
     let u := issueInputs 0 255 s
     ∃ tm, listAt u.teams 0 = some tm ∧ tm.st = .preload ∧ tm.inputsLeft = 0 ∧ (launchOf u 1).any stepUnread = false ∧ tm.preempt = none ∧
       tm.eops = [anInput []] ∧ allLanded (anInput []) = true ∧ writesAnswered u tm 0 = true ∧ writeFailures u tm 0 = []) ∧
    (let s := withParent
     ∃ tm q, listAt s.teams 0 = some tm ∧ teamIdx s 1 0 = some 0 ∧ retireReady s tm = true ∧ undelivered tm = [] ∧ tm.parent = some 5 ∧
       teamIdx s 1 5 = some 1 ∧ listAt s.teams 1 = some q) ∧
    (let s := tev (fun tm => { tm with hawk := { tm.hawk with st := .waiting (.kwait 1) } }) id
     ∃ tm, listAt s.teams 0 = some tm ∧ tm.st = .running ∧ hawkWaitDone s tm (.kwait 1) = true) ∧
    (∀ n ∈ [0, 1], let s := tev (fun tm => { tm with join := n, gangs := tm.gangs.map fun gg => modFragOf gg 0 (fun fr =>
        { fr with st := .waiting .joinw }) }) id
      ∃ tm gg fr, listAt s.teams 0 = some tm ∧ tm.st = .running ∧ gangOf tm 0 = some gg ∧ fragOf gg 0 = some fr ∧ fr.st = .waiting .joinw ∧
        (liveFrags gg).length = 1 ∧ gangWaitDone s tm 0 gg .joinw = (n == 0)) := by
  refine ⟨by decide +kernel, by decide +kernel, by decide +kernel, by decide +kernel, rfl, rfl, by decide,
    ⟨_, rfl, rfl, rfl, rfl, rfl, rfl, rfl, rfl, by rfl⟩, ⟨_, _, rfl, rfl, rfl, rfl, rfl, rfl, by rfl⟩, ⟨_, rfl, rfl, by rfl⟩, ?_⟩
  intro n h
  simp only [List.mem_cons, List.not_mem_nil, or_false] at h
  rcases h with rfl | rfl <;> exact ⟨_, _, _, rfl, rfl, rfl, rfl, rfl, rfl, rfl⟩

/-- A queued instruction of a gang or hawk that waits for it, with an operand; the range stands free. -/
def queuedOp (i : Instr) (who : StreamName) (ga : Nat) : RangeOp :=
  { id := 3, asid := 1, holder := some (1, 0, who), kind := .queued i ga 0 [0] none, trowel := none }
def waitsFor (st : HawkState) (hk : Hawk) : Hawk := { hk with st := st }
def thQueued (i : Instr) (ga : Nat) (es : List RangeEntry) (ops : List RangeOp) : State :=
  ranged (tHawk 2 [] (waitsFor (.waiting (.rangeOp 3))) id) es (ops ++ [queuedOp i .hawk ga]) false
def queuedAnswer (i : Instr) (s : State) : Option RangeRes :=
  (rangeOpOf s 3).bind fun o => (heldStream s o).map fun x => rangeUnit i (unitBefore s 3) x.2.1 .hawk
    (match o.kind with
      | .queued _ ga .. => ga
      | _ => 0) 0

theorem witness_CompletionCases :
    (let s := tev (fun tm => { tm with loads := [{ id := 3, who := .hawk, flag := 0, deposits := [.kpr 63 1] }] }) id
     ∃ tm, listAt s.teams 0 = some tm ∧ resident tm = true ∧ tm.preempt = none ∧ tm.hawk.cpend = [] ∧ tm.hawk.window = none) ∧
    (let s := tev (fun tm => { tm with eops := [{ aCopy with landed := [32], pending := [] }] }) id
     ∃ tm o, proceeding s 1 0 0 = some (0, tm, o) ∧ allLanded o = true ∧ engineWrites s tm 0 = [] ∧ tm.preempt = none ∧ o.flag = some 1) ∧
    (∃ tm, proceeding tCopy 1 0 0 = some (0, tm, aCopy) ∧ lineMoves aCopy 32 = [theMove] ∧ theMove.dloc = true ∧ 32 ∉ aCopy.landed ∧
      lineBehind tCopy tm aCopy 32 = false ∧ unitBlocked tCopy tm aCopy = false ∧ theMove.sloc = false ∧
      moveRead.map List.length = some theMove.len) ∧
    (let s := thResolves 1
     ∃ tm w, listAt s.teams 0 = some tm ∧ resolving s 1 0 = some (0, w, true) ∧ w.held = [] ∧ w.fault = none ∧ w.committing = false) ∧
    accessesOut { tev id id with rangeOps := [rangeOpWith (.change 0 0 0x10000) none] } 1 0 0x10000 = false ∧
    (let s := thQueued (.rgsplit 0) 0x8000 [whole] []
     ∃ o, rangeOpOf s 3 = some o ∧ (heldStream s o).isSome = true ∧ (queuedAnswer (.rgsplit 0) s).any isChanged = true) ∧
    (queuedAnswer (.unseal 0) (thQueued (.unseal 0) 0 [whole] [])).any isNone = true ∧ (queuedAnswer (.rgsplit 0) (thQueued (.rgsplit 0) 0x10000 [whole] [])).any (trapsWith .noRange 0x10000) = true ∧
    (queuedAnswer (.rgsplit 0) (thQueued (.rgsplit 0) 0x8000 [whole] [aMove])).any isBusy = true ∧ heldStream th (queuedOp (.rgsplit 0) .hawk 0) = none ∧
    (let s := tev (fun tm => { tm with gangs := tm.gangs.map fun gg => modFragOf gg 0 fun fr => { fr with st := .waiting (.rangeOp 3) } }) id
     ∃ tm gg fr, listAt s.teams 0 = some tm ∧ gangOf tm 0 = some gg ∧ fragOf gg 0 = some fr ∧ fr.st = .waiting (.rangeOp 3) ∧
       (liveFrags gg).length = 1) := by
  refine ⟨⟨_, rfl, rfl, rfl, rfl, rfl⟩, ⟨_, _, rfl, rfl, rfl, rfl, rfl⟩, ⟨_, rfl, rfl, rfl, by decide, by decide +kernel, rfl, rfl, by decide +kernel⟩,
    ⟨_, { aWindow with predicted := true, c := 1 }, rfl, rfl, rfl, rfl, rfl⟩, rfl, ⟨_, rfl, rfl, by decide +kernel⟩, by decide +kernel, by decide +kernel, by decide +kernel, rfl, ⟨_, _, _, rfl, rfl, rfl, rfl, rfl⟩⟩
/-- A sector of core 0's first-level cache. -/
def aSector : CacheSector := { core := 0, sector := 9, data := List.replicate 32 0, dirty := false, poison := false, planeRec := none }

theorem witness_HealthEvents :
    (191 < 192 ∧ corePresent State.reset 191 = true ∧ State.reset.lostCores.contains 191 = false) ∧
    (let s := { State.reset with lostCores := [184], recovering := 1#24 <<< 23 }
     s.lostCores.contains 184 = true ∧ s.recovering.getLsbD 23 = true ∧ s.recovering.getLsbD 0 = false) ∧
    corePresent State.reset 192 = false ∧
    (∃ tm, teamIdx (tev id id) 1 0 = some 0 ∧ listAt (tev id id).teams 0 = some tm ∧ resident tm = true ∧ 63 < tm.lines ∧ ¬64 < tm.lines ∧
      15 < tm.acct ∧ tm.st = .running) ∧ teamIdx (tev id id) 1 1 = none ∧
    isFast (32 * 9) = true ∧ isCap (32 * (Config.capLo / 32)) = true ∧ isFast (32 * (Config.fastHi / 32)) = false ∧
    isCap (32 * (Config.fastHi / 32)) = false ∧ l1Find { State.reset with l1 := [aSector] } 0 9 = some aSector ∧
    l1Find { State.reset with l1 := [aSector] } 1 9 = none ∧ l2Find { State.reset with l2 := [aSector] } 9 = some aSector ∧
    l2Find State.reset 9 = none ∧
    (let s := tev id id
     corePresent s 0 = true ∧ s.lostCores.contains 0 = false ∧ (s.teams.filter fun tm => resident tm && tm.core == 0).length = 1 ∧
       s.teams.length = 1 ∧ teamIdx s 1 0 = some 0) ∧
    (∀ used ∈ [0#24, 1#24 <<< 23], let s := { State.reset with lostCores := [184], recovering := 1#24 <<< 23, sparesUsed := used }
      (s.lostCores.filter fun c => c / 8 == 23) = [184] ∧ s.recovering.getLsbD 23 = true) ∧
    (let s := tev (fun tm => { tm with mops := [{ anOp (some 0) with instr := .accstR 0 0 0 0, reads := [0] }] }) id
     ∃ tm m, listAt s.teams 0 = some tm ∧ (tm.mops.find? fun m => m.id == 0) = some m ∧ m.reads ≠ [] ∧ mayStep tm m = true ∧
       tm.st = .running) ∧
    (let s := tev (fun tm => { tm with mops := [{ anOp (some 0) with instr := .mma 0 0 16, reads := [0] }] }) id
     ∃ tm m, listAt s.teams 0 = some tm ∧ (tm.mops.find? fun m => m.id == 0) = some m ∧ tilesWritten tm m ≠ [] ∧ mayStep tm m = true) :=
  ⟨by decide +kernel, by decide +kernel, by decide +kernel, ⟨_, rfl, rfl, rfl, by decide +kernel, by decide +kernel, by decide +kernel, rfl⟩, rfl,
    by decide +kernel, by decide +kernel, by decide +kernel, by decide +kernel, rfl, rfl, rfl, rfl,
    by decide +kernel, fun _ _ => ⟨rfl, (by decide : (1#24 <<< 23).getLsbD 23 = true)⟩, ⟨_, _, rfl, rfl, by decide, rfl, rfl⟩, ⟨_, _, rfl, rfl, by decide +kernel, rfl⟩⟩

/-- A frame of one row of 32 pixels in the range of ASID 1, and its SWSUBMIT record at 0x8000. -/
def aFrame (marked locked : Bool) : Frame :=
  { serial := 1, asid := 1, base := 0, width := 32, height := 1, pitch := 64, wide := false, marked := marked
    digest := if marked then List.replicate 32 0 else [], batched := false, locked := locked }
def frameRecord (w3 : Nat) : List Byte := [0, 32 + 2 ^ 16 + 64 * 2 ^ 32, 1, w3].flatMap (bytesOf 8)
/-- A module whose range of ASID 1 holds egress data, with a frame's record. -/
def tsw (w3 : Nat) (egress : Bool) : State :=
  setMemBytes (ranged (tev id id) [{ placedEntry with egress := egress }] [] false) 0x8000 (frameRecord w3)

theorem witness_AttestationAndSignwriterEvents :
    (4097 % 4096 ≠ 0 ∧ inFast Config.fastHi (Config.fastHi + 4096) = false) ∧ (8192 % 4096 = 0 ∧ inFast 8192 (8192 + 4096) = true) ∧
    State.reset.atbusy = false ∧ { State.reset with atbusy := true }.atbusy = true ∧
    populated Config.fastHi 32 = false ∧ populated 0x8000 32 = true ∧ State.reset.measure.length = 8 ∧
    (let w := recWord (physBytes (flushQuanta (tsw 1 true) 0x8000 0x8020) 0x8000 32)
     w 3 ≠ 0) ∧
    (∀ egress ∈ [false, true],
      let u := flushQuanta (tsw 0 egress) 0x8000 0x8020
      let w := recWord (physBytes u 0x8000 32)
      ¬(w 0 / 2 ^ 56 ≠ 0 ∨ w 1 / 2 ^ 53 ≠ 0 ∨ w 2 / 2 ^ 13 ≠ 0 ∨ w 3 ≠ 0) ∧ w 2 % 2 ^ 13 = 1 ∧ w 0 % 2 ^ 56 = 0 ∧
      frameLen (aFrame false true) = 96 ∧ egressCovers u 1 (0 + 96) ((asidDesc u 1).count + 1) 0 = egress) ∧
    (∀ f ∈ [aFrame true true, aFrame false false], f.locked = true → f.marked = true) ∧
    (([aFrame true true, aFrame false true].find? fun f => f.locked && !f.marked) = some (aFrame false true)) ∧
    (∀ f ∈ [aFrame true true], f.digest.length ≤ 32) ∧ 8192 + 384 + 48 + 40 * 1 ≤ Config.fastHi ∧
    -- A batch of one frame of two: the manifest fits at 8192, no byte of it is locked, and it does not fit below the end of the tier.
    (let s := { State.reset with frames := [aFrame true true, { aFrame true false with serial := 2, batched := true }] }
     (s.frames.filter fun f => f.marked && !f.batched) = [aFrame true true] ∧ locked s 8192 1 = false ∧ s.l1 = [] ∧ s.l2 = [] ∧
       s.quanta = [] ∧ s.tokHolder = [] ∧ (isFast Config.fastHi || isCap Config.fastHi || isDev Config.fastHi) = false) := by
  and_intros <;> decide +kernel

/-- Port 15 in service at width 4, with an outstanding flit, and a filter that admits source 7 to the first 64 KiB. -/
def aPort : Port :=
  { portOf State.reset 15 with
    pstate := 2, width := 4, nextSeq := 5, rxbase := 0, rxn := 2, rxtaddr := 0x9000
    filter := [(15, { src := 7, r := true, w := true, en := true, base := 0, lim := 0x10000 })] }
def aRequest : PeerRequest :=
  { id := 3, lid := 1, tid := 0, who := .gang 0, port := 15, window := 0, ppa := 0, va := 0, kind := .read 4, returning := true, message := false
    lane := none, op := none, answer := none, seq := 4 }
def tport (f : Port → Port) : State := modPort { tev id id with peers := [aRequest] } 15 fun _ => f aPort
/-- A window that maps bus addresses from 0 on, for reads and writes or for neither. -/
def busWindow (r w : Bool) : PcieWindow := { en := true, r := r, w := w, bus := 0, lim := 0x10000, phys := 0x40000 }
def tbus (r w : Bool) : State := { State.reset with pcie := [(256 + 255, busWindow r w)] }

theorem witness_LinkAndHostEvents :
    (∀ width ∈ [1#3, 2, 4], width.toNat ≤ goodLanes (portOf State.reset 15)) ∧ (portOf State.reset 15).pstate ≠ 2 ∧
    (let s := tport id
     (portOf s 15).pstate = 2 ∧ retryPoint s 15 ≤ 4 ∧ 4 < (portOf s 15).nextSeq ∧ (portOf s 15).replaying = none) ∧
    (let s := tport fun p => { p with replaying := some 4 }
     (portOf s 15).pstate = 2 ∧ retryPoint s 15 ≤ 4 ∧ (portOf s 15).replaying = some 4) ∧
    (let drop (p : Port) : Port := { p with laneok := p.laneok &&& ~~~(1#4 <<< 3) }
     goodLanes (drop aPort) = 3 ∧ aPort.retrainFrom = none ∧ (2#3).toNat = widestWidth (goodLanes (drop aPort)) ∧
     goodLanes (drop { aPort with laneok := 8 }) = 0 ∧ goodLanes (drop { aPort with laneok := 8, pstate := 0 }) = 0) ∧
    (let s := tport fun p => { p with pstate := 1, width := 0, laneok := 7, retrainFrom := some 4 }
     (portOf s 15).pstate ≠ 2 ∧ (portOf s 15).retrainFrom = some 4 ∧ (2#3).toNat ≤ goodLanes (portOf s 15) ∧ goodLanes (portOf s 15) = 3) ∧
    (let s := tport id
     ∀ kind ∈ [PeerKind.read 4, .write [1, 2], .atomic 0 true 1 true, .swap false 0 1, .several false [(0, .op 0 1), (4, .swap 0 1)] true], let n := accessNeeds kind
       filterAdmits (portOf s 15) 7 0x4000 n.2.2 n.1 n.2.1 = true ∧ inMemory 0x4000 n.2.2 = true ∧ egressRefused s 0x4000 n.2.2 = false ∧
       locked s 0x4000 n.2.2 = false ∧ peerAtomicOk s kind 0x4000 = true ∧ filterAdmits (portOf s 15) 8 0x4000 n.2.2 n.1 n.2.1 = false) ∧
    (let s := tport id
     let p := portOf s 15
     let u := flushQuanta s p.rxtaddr (p.rxtaddr + 8)
     ringTail u p - p.rxhead.toNat < p.rxn ∧ filterAdmits p 7 (p.rxbase + 128 * (ringTail u p % p.rxn)) 128 false true = true ∧
     inFast 0 128 = true ∧ locked u 0 128 = false ∧ (List.replicate 128 (0 : Byte)).length = 128 ∧
     filterAdmits p 8 0 128 false true = false ∧ 5 = p.nextSeq) ∧
    (let s := setMemBytes (tport id) 0x9000 (bytesOf 8 2)
     let p := portOf s 15
     p.rxn ≤ ringTail (flushQuanta s p.rxtaddr (p.rxtaddr + 8)) p - p.rxhead.toNat ∧ p.rxn ≠ 0) ∧
    (tport fun p => { p with rxn := 0 }).links ≠ [] ∧
    ((tport id).peers.find? fun r => r.id == 3 && r.answer.isNone) = some aRequest ∧ (portOf (tport id) aRequest.port).pstate = 2 ∧
    (∀ r ∈ (tport id).peers, r.id = 4 → r.answer ≠ none) ∧
    (pcieMatch (tbus true true) 1 0xFFFC 4 = some (busWindow true true, 0x4FFFC) ∧ egressRefused (tbus true true) 0x4FFFC 4 = false ∧
     locked (tbus true true) 0x4FFFC 4 = false) ∧ pcieMatch (tbus false false) 1 0xFFFC 4 = some (busWindow false false, 0x4FFFC) ∧
    pcieMatch (tbus true true) 1 0xFFFD 4 = none ∧ pcieMatch (tbus true true) 0 0 4 = none ∧
    pcieMatch (tbus true true) 0 0 [(0 : Byte)].length = none := by
  and_intros <;> decide +kernel

theorem witness_WrongStreamTraps :
    encode (.kadd 0 63 63 63) = some 0xD03FFC3F ∧ (∀ w : Word, decodeHeader w ≠ .instr (.kadd 0 63 63 63)) ∧
    (0xD03FFC3F : Word).toNat / 2 ^ 28 = 13 ∧ gangCtx tg = some (gctx tg) ∧ encode (.sort64 0 8 9) = some 0xC0040480 ∧
    (0xC0040480 : Word).toNat / 2 ^ 28 = 12 ∧ encode (.mergeat 7) = some 0x1A000007 ∧ (0x1A000007 : Word).toNat / 2 ^ 25 % 8 = 5 ∧
    hawkCtx th = some (hctx th) := by
  refine ⟨rfl, fun w => ?_, by decide, rfl, rfl, by decide, rfl, by decide, rfl⟩
  unfold decodeHeader
  dsimp only
  split <;> simp

/-- The launch's record allows a relaunch or not. -/
def tkill (idem : Bool) (vec : DWord × DWord) (h : Option HandlerSave) : State :=
  tev (fun tm => { tm with gangs := tm.gangs.map fun gg => { gg with handler := h } })
    fun l => { l with vector := some vec, record := { l.record with idem := idem, retry := 1 } }

theorem witness_TakingATrap :
    (∀ vec ∈ [((0 : DWord), (0 : DWord)), (0x6000, 0x7000)], ∀ h ∈ [none, some (savedAt none)], ∀ idem ∈ [false, true],
      let s := tkill idem vec h
      ∃ tm gg fr l, listAt s.teams 0 = some tm ∧ gangOf tm 0 = some gg ∧ fragOf gg 0 = some fr ∧ vectorOf s tm = vec ∧ gg.handler = h ∧
        tm.hawk.handler = none ∧ launchOf s tm.lid = some l ∧ l.record.idem = idem ∧ tm.escaped = false ∧ tm.relaunches < l.record.retry ∧
        l.cancelled = false ∧ cptOf s tm = 1) ∧
    (let s := tHawk 2 [] (fun hk => { hk with handler := some (0, none) }) id
     ∃ tm, listAt s.teams 0 = some tm ∧ tm.hawk.handler ≠ none) := by
  refine ⟨?_, _, rfl, by decide +kernel⟩
  intro vec hv h hh idem hi
  simp only [List.mem_cons, List.not_mem_nil, or_false] at hv hh hi
  rcases hv with rfl | rfl <;> rcases hh with rfl | rfl <;> rcases hi with rfl | rfl <;>
    exact ⟨_, _, _, _, rfl, rfl, rfl, rfl, rfl, rfl, rfl, rfl, rfl, by decide +kernel, rfl, rfl⟩

theorem witness_EncodeDecodeAgree :
    encode (.clauseHeader 0xFFF 15 15 7 31 1 1 1) ≠ none ∧ encode (.iadd 1 127 255 127) = some 0x207FFFFF ∧
    decodeWord 0x207FFFFF = .instr (.iadd 1 127 255 127) ∧ decodeHeader 0x0003F9F0 = .instr (.clauseHeader 0 3 15 4 31 0 0 0) ∧
    encode (.bootdone 0) = none := by
  exact ⟨by decide +kernel, by decide +kernel, by decide +kernel, by decide +kernel, rfl⟩
/-- What the turn of a stream finds: its team, and the place of its next word. -/
def stands (w : Word) (turn : Turn) : State := { placeWord State.reset w with agenda := [turn] }
/-- The gang's fragment that stands at a word, and its fragment when its pool entry already holds the word's unit. -/
def standsFrag (w : Word) (buffered : Bool) : State :=
  modFrag (stands w (.core 0)) 0 0 0 fun fr =>
    if buffered then { fr with buf := [(0x4000, homeBytes (stands w (.core 0)) 0x104000 128)] } else fr
/-- The word that a fragment fetches of a unit's bytes. -/
def unitWord (s : State) : Word := BitVec.ofNat 32 (natOf (((homeBytes s 0x104000 128).drop 4).take 4))
def oneCand (g : Nat) : Cand := { lid := 1, tid := 0, g := g, f := 0 }

theorem witness_StepRunsTheDecodedWordOfAGang :
    (let s := stands 0x24800000 (.core 0)
     s.agenda = [.core 0] ∧ s.throttled = false ∧ s.spent = [] ∧ hawkSpent { s with agenda := [] } 0 = false ∧
     coreCands { s with agenda := [], spent := [.core 0] } 0 = [oneCand 0]) ∧
    coreCands { stands 0x24800000 (.core 0) with agenda := [], spent := [.core 1] } 1 = [] ∧
    (let s := modTeam (stands 0x24800000 (.core 0)) 0 fun tm => { tm with gangs := tm.gangs ++ tm.gangs, gangCount := 2, slots := [0, 1] }
     let u := { s with agenda := [], spent := [.core 0] }
     (coreCands u 0 = [oneCand 0, oneCand 1] ∨ coreCands u 0 = [oneCand 1, oneCand 0]) ∧ sameGang (oneCand 0) (oneCand 1) = false ∧
     ([oneCand 0, oneCand 1].all fun x => match runIssue (issueFrag u x.lid x.tid x.g x.f) with
       | .next a => !heldBack u a x
       | _ => false) = true) ∧
    (∀ b ∈ [false, true], ∀ x ∈ [((0x24800000 : Word), Decoded.instr (.or 0 0 0)), (0xF0000000, .reject .illegalMajor),
        (0xC2C303D1, .reject .operandField)],
      let s := standsFrag x.1 b
      ∃ tm gg fr e, teamIdx s 1 0 = some 0 ∧ listAt s.teams 0 = some tm ∧ tm.st = .running ∧ gangOf tm 0 = some gg ∧
        fragOf gg 0 = some fr ∧ waitsAtBoundary s tm gg fr = false ∧ fr.clause.isSome = true ∧
        (fr.buf.find? (fun b => b.1 == fr.pc.toNat / 128 * 128)).isSome = b ∧
        translate s (asidOf s tm) .fetch 0x4000 = .at 0x104000 e ∧ unitWord s = x.1 ∧ decodeWord (unitWord s) = x.2) ∧
    (∀ x ∈ [((0x0003F9F0 : Word), Decoded.instr (.clauseHeader 0 3 15 4 31 0 0 0)), (0x1, .reject .headerBit)],
      let s := standsFrag x.1 false
      ∃ tm gg fr, listAt s.teams 0 = some tm ∧ gangOf tm 0 = some gg ∧ fragOf gg 0 = some fr ∧ fr.clause = none ∧
        decodeHeader (unitWord s) = x.2) := by
  refine ⟨⟨rfl, rfl, rfl, by decide +kernel, by decide +kernel⟩, by decide +kernel, ⟨by decide +kernel, by decide +kernel, by decide +kernel⟩, ?_, ?_⟩
  · intro b hb x hx
    simp only [List.mem_cons, List.not_mem_nil, or_false] at hb hx
    rcases hb with rfl | rfl <;> rcases hx with rfl | rfl | rfl <;>
      exact ⟨_, _, _, placedEntry, rfl, rfl, rfl, rfl, rfl, rfl, rfl, by decide +kernel, by decide +kernel, by decide +kernel, by decide +kernel⟩
  · intro x hx
    simp only [List.mem_cons, List.not_mem_nil, or_false] at hx
    rcases hx with rfl | rfl <;> exact ⟨_, _, _, rfl, rfl, rfl, rfl, by decide +kernel⟩

theorem witness_StepRunsTheDecodedWordOfAHawkOrAnEvent :
    (∀ x ∈ [((0xD0000000 : Word), Decoded.instr (.kadd 0 0 0 0)), (0xDA000000, .reject .unassignedMinor)],
      let s := stands x.1 (.hawk 1 0)
      ∃ tm e, s.agenda = [.hawk 1 0] ∧ s.throttled = false ∧ s.spent = [] ∧ teamIdx s 1 0 = some 0 ∧ listAt s.teams 0 = some tm ∧
        tm.st = .running ∧ atBoundary tm = false ∧ tm.hawk.st = .issuing ∧
        translate s (asidOf s tm) .fetch tm.hawk.pc.toNat = .at 0x104004 e ∧
        wordOfBytes (homeBytes s 0x104004 4) = some x.1 ∧ decodeBytes tm.hawk.clause.isNone (homeBytes s 0x104004 4) = x.2) ∧
    encode (.bootdone 1) = none ∧ retried .interlock = true ∧ State.reset.agenda = [] ∧ State.reset.throttled = false ∧
    { stands 0xD0000000 (.hawk 1 0) with spent := [.hawk 1 0] }.spent.contains (.hawk 1 0) = true := by
  refine ⟨?_, rfl, rfl, rfl, rfl, by decide +kernel⟩
  intro x hx
  simp only [List.mem_cons, List.not_mem_nil, or_false] at hx
  rcases hx with rfl | rfl <;>
    exact ⟨_, placedEntry, rfl, rfl, rfl, rfl, rfl, rfl, rfl, rfl, by decide +kernel, by decide +kernel, by decide +kernel⟩

theorem witness_MemoryStaysCanonical :
    MemCanonical State.reset ∧ step State.reset = .next (tick State.reset) ∧ MemCanonical (stands 0x24800000 (.core 0)) := by
  exact ⟨by unfold MemCanonical; decide +kernel, rfl, by unfold MemCanonical; decide +kernel⟩
/-! ### Witnesses for further clauses -/

/-- A branching gang after a change, behind other hints, or in the middle of a peel. -/
def tgBrWith (k : Gang → Gang) : State :=
  { tgBr id with teams := (tgBr id).teams.map fun tm => { tm with gangs := tm.gangs.map fun g => k g } }
def tgBrHints (hints : List (DWord × Instr)) : State := modFrag (tgBr id) 0 0 0 fun fr =>
  { fr with clause := fr.clause.map fun cl => { cl with hints := hints } }
def tgPeel : State := modFrag (tgBrWith fun gg => { gg with stack := [(0, { anEntry false with outst := 1 })] }) 0 0 0 fun fr =>
  { fr with peel := true, entry := some 0, clause := fr.clause.map fun cl => { cl with hints := [] } }
/-- So many other slots of the fragment table are in use. -/
def tgSlots (n : Nat) (k : Gang → Gang) : State :=
  tgBrWith fun gg => k { gg with frags := gg.frags.take 1 ++ List.replicate n (some (entryFrag 0)) ++ List.replicate (7 - n) none }

theorem witness_UndefinedHeaders :
    (∃ tm, listAt thHdr.teams 0 = some tm ∧ tm.st = .running ∧ thHdr.cur = .hawk 0 ∧ tm.hawk.clause = none ∧ tm.hawk.window = none) ∧
    headerOk 8 0 0 8 0 = false ∧ headerOk 8 12 0 31 0 = false ∧
    (let s := tHawk 1 [] (fun hk => { hk with clause := none, window := some aWindow }) id
     ∃ tm win, listAt s.teams 0 = some tm ∧ tm.hawk.clause = none ∧ tm.hawk.window = some win ∧ win.fault = none ∧ win.committing = false) :=
  ⟨⟨_, rfl, rfl, rfl, rfl, rfl⟩, rfl, rfl, _, _, rfl, rfl, rfl, rfl, rfl⟩

theorem witness_BranchTraps :
    (gangCtx te = some (gctx te) ∧ badHint acceptsImm (gctx te).cl.hints [] = none ∧ (gctx te).cl.left = 1) ∧
    ((24 ≤ (24#5).toNat ∧ (30#5).toNat ≤ 30) ∨ (31 : BitVec 5) = 31) ∧
    (GangRuns teNone (gctx teNone) (fun c => endsInfo acceptsNone (pairOk c.tm.vregs 110) [.v 110, .v 111]) ∧ (gctx teNone).act = 0) ∧
    (let s := tgBrHints []
     GangRuns s (gctx s) (fun c => endsInfo acceptsNone (pairOk c.tm.vregs 2) [.v 2, .v 3]) ∧ mergeAddr (gctx s) = none ∧
     pairLane (gctx s).gg 2 0 ≠ pairLane (gctx s).gg 2 1) ∧
    (let s := tgBrWith fun gg => { gg with stack := List.replicate 256 (1, anEntry false) }
     GangRuns s (gctx s) (fun c => endsInfo acceptsNone (pairOk c.tm.vregs 2) [.v 2, .v 3]) ∧ mergeAddr (gctx s) = some 0x4050 ∧
     ¬((gctx s).fr.peel = true ∨ (gctx s).gg.stack.length + 1 ≤ 256)) ∧
    (let s := tgPeel
     GangRuns s (gctx s) (fun c => endsInfo acceptsNone (pairOk c.tm.vregs 2) [.v 2, .v 3]) ∧ mergeAddr (gctx s) = some 0x5000 ∧
     (gctx s).fr.peel = true ∧ pairLane (gctx s).gg 2 0 ≠ pairLane (gctx s).gg 2 1) :=
  ⟨⟨rfl, rfl, rfl⟩, by decide, ⟨⟨rfl, rfl⟩, rfl⟩, ⟨⟨rfl, rfl⟩, rfl, by decide +kernel⟩, ⟨⟨rfl, rfl⟩, rfl, by decide +kernel⟩,
    ⟨rfl, rfl⟩, rfl, rfl, by decide +kernel⟩

/-- What a split is judged by: a free slot or none, and an entry to push or one that is there. -/
theorem witness_SplitHolds :
    freeSlot (gctx (tgBr id)).gg = some 1 ∧ (gctx (tgBr id)).gg.stack.length + 1 ≤ 256 ∧
    (let s := tgSlots 7 id
     freeSlot (gctx s).gg = none ∧ gangCtx s = some (gctx s)) ∧
    ((gctx tgPeel).fr.entry = some 0 ∧ (entryOf (gctx tgPeel).gg 0).isSome = true ∧ freeSlot (gctx tgPeel).gg = some 1) ∧
    (let s := tgSlots 7 fun gg => { gg with stack := [(0, anEntry false)] }
     freeSlot (gctx s).gg = none) := by
  decide +kernel

/-- A gang whose first fragment has come to the address of an entry, whose innermost one is the one at key 0. -/
def arriving (es : List (Nat × SplitEntry)) : Gang :=
  { (gctx te).gg with stack := es, frags := ((gctx te).gg.frags.take 1).map fun x => x.map fun fr =>
      { fr with clause := none, entry := some 0, pc := 0x5000 } }
/-- The last path of an entry, or the one before it, arrives: with a deferred path, at the outermost entry, under another, with no
lane left to join, and with such an entry under another. -/
theorem witness_ArrivalHolds :
    (let e := anEntry false
     ([{ e with outst := 2 }, { e with outst := 1, deferred := true, dmask := 6 },
       { e with outst := 1, deferred := true, dmask := 6, dpeel := true },
       { e with outst := 1, jmask := 7 }, { e with outst := 1, jmask := 7, parent := some 3 }, { e with outst := 1 },
       { e with outst := 1, parent := some 3 }].all fun x =>
        (fragOf (arriving [(0, x), (3, { e with outst := 2, rpc := 0x6000 })]) 0).any (fun fr =>
          fr.clause.isNone && fr.entry == some 0 && fr.pc == x.rpc) && !x.link) = true) ∧
    entryOf (arriving [(0, anEntry false), (3, { anEntry false with outst := 2, rpc := 0x6000 })]) 3 =
      some { anEntry false with outst := 2, rpc := 0x6000 } := by
  decide +kernel

/-- What CALL and EXIT are judged by. -/
theorem witness_CallAndExitHold :
    ((gctx te).fr.home &&& ~~~(gctx te).act = 0) ∧
    (let s := tGang 1 [] id oneLane id
     (gctx s).fr.home &&& ~~~(gctx s).act ≠ 0 ∧ (gctx s).act ≠ 0) ∧
    (let s := tGang 1 [] id (fun fr => { fr with clause := fr.clause.map fun cl => { cl with guard := 3, gmask := 1 } }) id
     (gctx s).fr.exmask &&& ~~~(gctx s).act ≠ 0) ∧
    ((gctx te).fr.exmask &&& ~~~(gctx te).act = 0 ∧ (gctx te).fr.entry = none) ∧
    (let s := tGang 1 [] (fun gg => { gg with stack := [(0, { anEntry false with outst := 2 })] }) (fun fr => { fr with entry := some 0 }) id
     (gctx s).fr.exmask &&& ~~~(gctx s).act = 0 ∧ (gctx s).fr.entry = some 0 ∧
     ((entryOf (gctx s).gg 0).any fun e => decide (2 ≤ e.outst)) = true) ∧
    gangExited { freshGang 0 0 with frags := [none], stack := [] } = true := by
  decide +kernel

/-- The header word of a skipped clause: the record's, or the one that memory holds. -/
theorem witness_HeaderWords :
    (0x24800000 : Word) ≠ 0 ∧ (gctx tg).gg.flt.word = 0 ∧
    (∃ pa, codePlace tg (asidOf tg (gctx tg).tm) 0x4000 = some pa ∧ pa < Config.devLo) ∧
    headerWord tg (fragSender (gctx tg)) (gctx tg).tm 0x4000 0x24800000 = .word tg 0x24800000 ∧
    (hctx th).hk.flt.word = 0 ∧ ∃ pa, codePlace th (asidOf th (hctx th).tm) 0x4000 = some pa ∧ pa < Config.devLo :=
  ⟨by decide, rfl, ⟨_, rfl, by decide⟩, rfl, rfl, _, rfl, by decide⟩

/-- A window that holds a LAUNCH which will write k63. -/
def launchWindow : SpecWindow :=
  { aWindow with
    held := [{ instr := .launch 63 62, pc := 0x4000, clause := placedClause false, k := [], c := 0, ret := [], pushes := [], count := 0, firstOp := 0 }] }

theorem witness_HawkWordsInWindows :
    (let s := tHawk 2 [] (fun hk => { hk with window := some launchWindow }) id
     HawkRuns s (hctx s) (fun _ => { plainHInfo with accepts := acceptsNone, cwrites := [7] }) ∧ heldPending (hctx s).hk 63 = true ∧
     heldPending (hctx s).hk 62 = false) ∧
    (let branch : HInfo := { plainHInfo with accepts := acceptsImm, ends := true }
     (let s := tHawk 1 [] (fun hk => { hk with window := some aWindow, ret := [0x6000], cpend := (hctx (thOwes 1)).hk.cpend }) id
      HawkRuns s (hctx s) (fun _ => branch) ∧ cPending (hctx s).hk 7 = true ∧ (hctx s).hk.window ≠ none ∧ (hctx s).hk.ret.length < 16 ∧
      HawkRuns s (hctx s) (fun _ => { plainHInfo with ends := true }) ∧ (hctx s).hk.ret = [0x6000]) ∧
     (let s := tHawk 1 [] (fun hk => { hk with window := some aWindow, ret := List.replicate 16 0x6000 }) id
      HawkRuns s (hctx s) (fun _ => branch) ∧ 16 ≤ (hctx s).hk.ret.length) ∧
     let s := tHawk 1 [] (fun hk => { hk with window := some aWindow }) id
     HawkRuns s (hctx s) (fun _ => { plainHInfo with ends := true }) ∧ (hctx s).hk.ret = []) := by
  and_intros <;> first | rfl | decide +kernel

/-- A gang beside the hawk that has exited. -/
def thExited (w : Option SpecWindow) : State := modGang (thQueue 0 w) 0 0 fun gg => { gg with frags := [], stack := [] }

theorem witness_QueuePushesInWindows :
    (let s := thQueue 16 (some aWindow)
     HawkRuns s (hctx s) (fun _ => { plainHInfo with reads := [63] }) ∧
     (∃ gg, gangOf (hctx s).tm 0 = some gg ∧ gangExited gg = false ∧ 16 ≤ gg.dq.length) ∧
     ((List.range (hctx s).tm.gangCount).filter fun g => !((gangOf (hctx s).tm g).all gangExited)).find?
       (fun g => (gangOf (hctx s).tm g).any fun gg => decide (16 ≤ gg.dq.length)) = some 0) ∧
    (∀ w ∈ [none, some aWindow], HawkRuns (thExited w) (hctx (thExited w)) (fun _ => { plainHInfo with reads := [63] }) ∧
      ∃ gg, gangOf (hctx (thExited w)).tm 0 = some gg ∧ gangExited gg = true) := by
  refine ⟨⟨⟨rfl, rfl, rfl⟩, ⟨_, rfl, by decide +kernel⟩, by decide +kernel⟩, ?_⟩
  intro w h
  simp only [List.mem_cons, List.not_mem_nil, or_false] at h
  rcases h with rfl | rfl <;> exact ⟨⟨rfl, rfl, rfl⟩, _, rfl, rfl⟩

/-- Behind a held change of a range a KLD of memory waits for the window, and behind a held command one of scratchpad (log 42). -/
theorem test_kld_waits_for_window :
    let behind (i : Instr) (a : DWord) : Treat := kldTreat (hctx (modHawk (thForward a) 0 fun hk =>
      { hk with window := some { aWindow with held := [{ aStore with instr := i }] } })) 0 0
    behind (.rginv 0) 0x8000 = .stall ∧ behind (.copy 0 0 0) 0x8000 = .run ∧ behind (.copy 0 0 0) (2 ^ 63) = .stall ∧
      behind (.rginv 0) (2 ^ 63) = .run := by
  decide +kernel

/-- The hawk stands at a FILLTST in a window that holds a COPY to line 32. -/
def thHeld : State :=
  let w : HeldWork := { instr := .copy 1 1 0, pc := 0x4004, clause := placedClause true, k := (hctx thEng).hk.k, c := 0, ret := [],
                        pushes := [], count := 0, firstOp := 0 }
  modHawk thEng 0 fun hk => { hk with window := some { aWindow with held := [w] } }
set_option maxRecDepth 8000 in
theorem witness_FillTagsInWindow :
    HawkRuns thHeld (hctx thHeld) (fun _ => hawkInfo (quickInfo true [2] [63] .run)) ∧
    (let x := { hawkIssuer (hctx thHeld) 0 with tm := heldMarks (hctx thHeld) thHeld }
     (x.reg 2).toNat % 128 = 0 ∧ (x.reg 2).toNat + 128 * 32 ≤ scratchSize x.tm ∧ fillTag x.tm 32 = tagPending ∧
     fillTag (hctx thHeld).tm 32 ≠ tagPending) :=
  ⟨⟨rfl, rfl, rfl⟩, by decide +kernel, by decide +kernel, by decide +kernel, by decide +kernel⟩

/-- The copy descriptor at 0 with a dimension whose count is 0. -/
def noCount (tm : Team) : Team := setScratch (descriptors tm) (writesAt 32 (bytesOf 8 (4 * 2 ^ 24)))
/-- Two teams in each cluster of the launch. -/
def twoTeams (s : State) : State := { s with launches := s.launches.map fun l => { l with record := { l.record with cpt := 2 } } }

set_option maxRecDepth 8000 in
theorem witness_CommandsOfOtherShapes :
    (let s := engS noCount
     ∃ s1 hdr d0 nd s2 rest, streamLoad s (gangIssuer (gctx s) 1) true 0 32 = .ok s1 hdr ∧ copyHeader hdr = some (d0, nd) ∧
       streamLoad s1 (gangIssuer (gctx s) 1) true 32 (16 * nd) = .ok s2 rest ∧ copyDims nd rest = none) ∧
    cptOf tgEng (gctx tgEng).tm = 1 ∧
    (let s := twoTeams tgEng
     GangRuns s (gctx s) (fun _ => gangInfo (commandInfo 0 acceptsCache true [0])) ∧ cptOf s (gctx s).tm = 2 ∧
     copyFaults s (gangIssuer (gctx s) 0) = some (false, false, false, true)) ∧
    (let s := engS (copyAt 0x8000 0x9000)
     GangRuns s (gctx s) (fun _ => gangInfo (commandInfo 0 acceptsCache true [0])) ∧
     copyFaults s (gangIssuer (gctx s) 0) = some (false, false, false, false)) :=
  ⟨⟨_, _, _, _, _, _, rfl, rfl, rfl, rfl⟩, rfl, ⟨⟨rfl, rfl⟩, rfl, rfl⟩, ⟨rfl, rfl⟩, rfl⟩

theorem witness_HawkAllowances :
    (let s := tHawk 2 [(0x4004, .immxImmediate 31)] (fun hk => setK hk 63 15) id
     HawkRunsPlain s (hctx s) (fun _ => { plainHInfo with accepts := acceptsImm, reads := [63], treat := .stall }) ∧
     badAllowHint (hctx s).cl.hints = none ∧ (hctx s).tm.gangCount ≤ ((hawkIssuer (hctx s) 0).reg 63).toNat) ∧
    (let s := tHawk 2 [(0x4004, .immxImmediate 32)] (fun hk => { hk with clause := hk.clause.map fun cl => { cl with gmask := 0 } }) id
     gangCtx s = none ∧ hawkCtx s = some (hctx s) ∧ (hctx s).act = false ∧ badHint acceptsImm (hctx s).cl.hints [] = none ∧
     (badAllowHint (hctx s).cl.hints).isSome = true) := by
  and_intros <;> first | rfl | decide +kernel

theorem witness_ReductionsOfNoType :
    (3#2) = 3 ∧ GangRuns tg (gctx tg) (fun c => { v3Info c useNone 111 121 none false with legal := true }) := ⟨rfl, rfl, rfl⟩

/-- Register 31 of a gang, and 63 of the hawk, holds a value to write. -/
def tgCsr (x : DWord) : State := tGang 2 [] (fun gg => setG gg 31 x) (fun fr => { fr with home := 0xFF, exmask := 0xFF }) id
def thCsr (x : DWord) : State := tHawk 2 [] (fun hk => setK hk 63 x) id

/-- What CSWR meets: EXMASK inside and outside the home mask, SKIMTAU as zero, as -0, as a number, negative and as a NaN, and PRIO at
the launch's priority and above it; and numbers that no stream, or the hawk alone, has not. -/
theorem witness_RegisterWrites :
    (∀ x ∈ [0xF, 0x1FF, 0, 0x80000000, 0x3F800000, 0xBF800000, 0x7FC00000, 63],
      GangRuns (tgCsr x) (gctx (tgCsr x)) (fun _ => { plainInfo with reads := [.g 31] }) ∧ (gctx (tgCsr x)).act ≠ 0 ∧
      gReg (gctx (tgCsr x)).gg 31 = x ∧
      HawkRunsPlain (thCsr x) (hctx (thCsr x)) (fun _ => { plainHInfo with reads := [63], treat := .hold true }) ∧
      kReg (hctx (thCsr x)).hk 63 = x) ∧
    (0xF#64 &&& ~~~(gctx (tgCsr 0)).fr.home = 0 ∧ 0x1FF#64 &&& ~~~(gctx (tgCsr 0)).fr.home ≠ 0) ∧
    (isNanF (f32 0x7FC00000) = true ∧ isNanF (f32 0xBF800000) = false ∧ (0xBF800000 : Word).getLsbD 31 = true ∧
      isNanF (f32 0x80000000) = false) ∧
    (∀ s ∈ [tgCsr 0, thCsr 0], ∃ tm, listAt s.teams 0 = some tm ∧ launchField s tm 63 (·.prio) < 63) ∧
    (∀ n ∈ [0#12, 8, 0xFFF], readCsr (thCsr 0) (hctx (thCsr 0)).tm .hawk n.toNat = none) ∧
    HawkRuns (thCsr 0) (hctx (thCsr 0)) (fun c => { plainHInfo with writes := [63], treat := csrdTreat c.hk }) := by
  refine ⟨?_, by decide +kernel, by decide +kernel, ?_, by decide +kernel, ⟨rfl, rfl, rfl⟩⟩
  · intro x h
    refine ⟨⟨rfl, rfl⟩, ?_, ?_, ⟨⟨rfl, rfl, rfl⟩, rfl⟩, ?_⟩ <;>
      (simp only [List.mem_cons, List.not_mem_nil, or_false] at h; rcases h with rfl | rfl | rfl | rfl | rfl | rfl | rfl | rfl <;> decide +kernel)
  · intro s h
    simp only [List.mem_cons, List.not_mem_nil, or_false] at h
    rcases h with rfl | rfl <;> exact ⟨_, rfl, by decide +kernel⟩

/-- A window that holds sixteen commands. -/
def fullHeld : SpecWindow := { fullWindow with held := fullWindow.held ++ fullWindow.held.take 1 }

theorem witness_HeldAndStalledWords :
    (let s := thLaunch true 0x1FFFF8 0x8000 (some fullHeld)
     hawkCtx s = some (hctx s) ∧ (hctx s).hk.window = some fullHeld ∧ ¬(fullHeld.held.filter fun h => isCommand h.instr).length < 16 ∧
     ∀ i ∈ [hawkInfo (commandInfo 1 acceptsCache true [62]), { plainHInfo with reads := [62] }, plainHInfo],
       hawkReady { i with treat := .run } (hctx s) = true) ∧
    (let s := thLaunch true 0x1FFFF8 0x8000 (some fullWindow)
     ∀ i ∈ [hawkInfo (quickInfo true [62] [] (.hold true)), plainHInfo], hawkReady { i with treat := .run } (hctx s) = true) ∧
    (∀ use ∈ [(1#3), 5], let s := tHawk 2 [(0x4004, .xscope 0 use 3 0)] (fun hk => { hk with window := some aWindow }) id
      hawkCtx s = some (hctx s) ∧ (atomicScope (hctx s).cl.hints).use = use.toNat ∧
      hawkReady { katNeeds 9 0 1 0 (hctx s) with treat := .run } (hctx s) = true) := by
  refine ⟨⟨rfl, rfl, by decide +kernel, by decide +kernel⟩, by decide +kernel, ?_⟩
  intro use h
  simp only [List.mem_cons, List.not_mem_nil, or_false] at h
  rcases h with rfl | rfl <;> exact ⟨rfl, rfl, by decide +kernel⟩

/-- Another agent has written a sector of the range since its last release, in a launch with race detection. -/
def thSealRace : State :=
  let s := thRange 0x8000 0 [whole] [] false
  { s with track := [((0x100000 / 32), { d := true, wr := 77, rs := 0 })]
           launches := s.launches.map fun l => { l with record := { l.record with race := true } } }
/-- SEAL's answer before its release. -/
def askSealFirst (s : State) : RangeRes := rangeSeal s (hctx s).tm .hawk ((hawkIssuer (hctx s) 0).reg 0).toNat

theorem witness_SealAnswers :
    isChanged (askSealFirst (thRange 0x8000 0 [whole] [] false)) = true ∧
    trapsWith .memoryModel 0x8000 (askSealFirst thSealRace) = true ∧ trapsWith .memoryModel 0x8000 (askSeal thSealRace) = true ∧
    isNone (askSealFirst (thRange 0x8000 0 [sealedWhole] [] false)) = true ∧
    isBusy (askSealFirst (thRange 0x8000 0 [whole] [aMove] false)) = true := by
  and_intros <;> decide +kernel

theorem witness_CompletionsOfHeldWork :
    (∃ tm, listAt tCopy.teams 0 = some tm ∧ replayWaits tm aCopy ((linesLeft aCopy).takeWhile (· ≠ 32)).contains = false) ∧
    (let w := { aWindow with predicted := true, c := 1, held := [{ aStore with instr := .cswr 1 0x0B }] }
     let s := tHawk 2 [] (fun hk => { hk with c := 1, window := some w }) id
     resolving s 1 0 = some (0, w, true) ∧ w.held.any isCswr = true) ∧
    (let s := thQueued (.seal 0) 0x8000 [whole] []
     ∃ o t tm y, rangeOpOf s 3 = some o ∧ heldStream s o = some (t, tm, y) ∧
       isChanged (rangeAnswer (.seal 0) (unitBefore s 3) t tm .hawk 0x8000 0).2 = true) :=
  ⟨⟨_, rfl, by decide +kernel⟩, ⟨rfl, rfl⟩, _, _, _, _, rfl, rfl, by decide +kernel⟩

theorem witness_MaskedWritesOfPeers :
    let s := tport id
    let kind : PeerKind := .masked [some 1, none, some 3]
    let n := accessNeeds kind
    n = (false, true, 3) ∧ filterAdmits (portOf s 15) 7 0x4000 n.2.2 n.1 n.2.1 = true ∧ inMemory 0x4000 n.2.2 = true ∧
      locked s 0x4000 n.2.2 = false ∧ peerAtomicOk s kind 0x4000 = true := by
  decide +kernel

/-- Two gangs of one team: the first has waited 512 cycles, or waits for a value that is not there. -/
def twoGangs (k : Gang → Gang) : State :=
  modTeam (stands 0x24800000 (.core 0)) 0 fun tm =>
    { tm with gangs := tm.gangs.map k ++ tm.gangs.map fun gg => { gg with lastIssue := 600 }, gangCount := 2, slots := [0, 1] }

theorem witness_IssueSlots :
    (let s := { twoGangs id with cycle := 600 }
     urgentCands { s with agenda := [], spent := [.core 0] } 0 = [oneCand 0]) ∧
    (let s := modGang { modFrag (stands 0x24800000 (.core 0)) 0 0 0 (fun fr => { fr with clause := none, st := .waiting (.clauseFlags 0x248) }) with
                        agenda := [], spent := [.core 0] } 0 0 fun gg => { gg with flags := [(3, 1)] }
     urgentCands s 0 = [] ∧ coreCands s 0 = [oneCand 0] ∧
     (match runIssue (issueFrag s 1 0 0 0) with
      | .next a => heldBack s a (oneCand 0)
      | _ => false) = true) ∧
    (countP (· == Turn.hawk 1 0) [Turn.core 0, .hawk 1 0] ≤ 1 ∧ 2 ≤ countP (· == Turn.hawk 1 0) [.hawk 1 0, .hawk 1 0]) ∧
    hawkSpent { stands 0x24800000 (.core 0) with spent := [.hawk 1 0] } 0 = true := by
  decide +kernel

/-- An operand-form IMMX before a conversion to E2M1 that takes its scale from v9, and its steps with random bits. -/
theorem witness_ScaledConversions :
    GangRuns tgCvt (gctx tgCvt) (fun c => cvtInfo c 5 7 6 0 true) ∧ operHint (gctx tgCvt).cl.hints = some { el := 1, sat := false, rm := 0, pc := 0, sc := 9 } ∧
    widthOf 5 < 64 := ⟨⟨rfl, rfl⟩, rfl, by decide⟩
/-! ### Single steps, with results worked out from the rules cited, or given by a worked example of the spec -/

/-- The state after an instruction, and what it holds. -/
def after (i : Instr) (s : State) : State :=
  match exec i s with
  | .next t => t
  | _ => s
def vAt (s : State) (n l : Nat) : Word := laneOf (vReg (gctx s).gg n) l
def gAt (s : State) (n : Nat) : DWord := gReg (gctx s).gg n
def kAt (s : State) (n : Nat) : DWord := kReg (hctx s).hk n
def pAt (s : State) (n l : Nat) : Bool := inMask (pReg (gctx s).gg n) l
/-- A lane's value, or zero past the values given. -/
def lanesOf (xs : List Word) : Lanes := mkLanes fun l => (listAt xs l).getD 0
/-- A gang with these v registers, by number, and g registers, and so many lanes active. -/
def tv (hints : List (DWord × Instr)) (lanes : Mask) (vs : List (Nat × List Word)) (gs : List (Nat × DWord)) (k : Team → Team) : State :=
  tGang 3 hints (fun gg =>
      let gg := vs.foldl (fun gg x => { gg with v := smSet zeroLanes gg.v x.1 (lanesOf x.2) }) gg
      gs.foldl (fun gg x => setG gg x.1 x.2) gg)
    (fun fr => { fr with exmask := lanes, count := 2 }) k
/-- The first four lanes. -/
def four : Mask := 0xF
def tk (x y : DWord) : State := tHawk 3 [] (fun hk => setK (setK hk 1 x) 2 y) id
def oper (el rm pc sc : Nat) : List (DWord × Instr) :=
  [(0x4004, .immxOperand (BitVec.ofNat 3 el) 0 (BitVec.ofNat 2 rm) (BitVec.ofNat 5 pc) (BitVec.ofNat 8 sc))]

/-- 17 R315: a sum wraps, and with SAT it is the greatest signed number. -/
theorem test_iadd :
    let s := tv [] four [(1, [0x7FFFFFFF, 5]), (2, [1, 0xFFFFFFFE])] [] id
    vAt (after (.iadd 0 3 1 2) s) 3 0 = 0x80000000 ∧ vAt (after (.iadd 1 3 1 2) s) 3 0 = 0x7FFFFFFF ∧ vAt (after (.iadd 1 3 1 2) s) 3 1 = 3 := by
  decide +kernel

/-- 17 R315: -1 times -1 has a high half of 0 when signed and 0xFFFFFFFE when unsigned. -/
theorem test_imulhi :
    let s := tv [] four [(1, [0xFFFFFFFF])] [] id
    vAt (after (.imulhi 0 3 1 1) s) 3 0 = 0 ∧ vAt (after (.imulhi 1 3 1 1) s) 3 0 = 0xFFFFFFFE := by decide +kernel

/-- 19 R362: a shift by 32 or more. -/
theorem test_shifts :
    let s := tv [] four [(1, [0x80000001]), (2, [32, 0]), (3, [0x41])] [] id
    vAt (after (.shl 4 1 2) s) 4 0 = 0 ∧ vAt (after (.shra 4 1 2) s) 4 0 = 0xFFFFFFFF ∧ vAt (after (.shr 4 1 3) s) 4 0 = 0x40000000 := by
  decide +kernel

/-- 16 R287: a field of four bits from bit 28 on, and one that reaches past bit 31. -/
theorem test_bfe :
    let s := tv [] four [(1, [0x90000000, 0x90000000]), (2, [0x41C, 0x81C])] [] id
    vAt (after (.bfe 0 3 1 2) s) 3 0 = 0xFFFFFFF9 ∧ vAt (after (.bfe 1 3 1 2) s) 3 1 = 9 ∧ vAt (after (.bfe 0 3 1 2) s) 3 1 = 0xFFFFFFF9 := by
  decide +kernel

/-- 17, the worked example of FADD: FFMA rounds once, and FMUL and FADD round twice. -/
theorem test_one_rounding :
    let s := tv [] four [(2, [0x3F800800]), (3, [0x3F800800]), (4, [0xBF801000]), (9, [0xBF801000]), (5, [0x3F801000])] [] id
    vAt (after (.ffma 4 2 3) s) 4 0 = 0x33800000 ∧ vAt (after (.fmul 6 2 3) s) 6 0 = 0x3F801000 ∧ vAt (after (.fadd 5 5 9) s) 5 0 = 0 := by
  decide +kernel

/-- 17, the worked example of IMMX: a directed subtraction of a constant. -/
theorem test_directed_subtraction :
    let s (rm : Nat) := tv (oper 0 rm 0 227) four [(6, [0x4C000001])] [] id
    [0, 1, 2, 3].map (fun rm => vAt (after (.fsub 7 6 127) (s rm)) 7 0) = [0x4C000000, 0x4C000000, 0x4C000000, 0x4C000001] := by
  decide +kernel

/-- 16, the worked example of CVT: packing E4M3 into element 2. -/
theorem test_cvt_into_an_element :
    let s := tv (oper 2 0 0 0) 0xFF [(4, [0x43960000, 0x43FA0000, 0x7FC00000, 0x80000000, 0x38D1B717]), (5, List.replicate 8 0x11223344)] [] id
    [0, 1, 2, 3, 4].map (fun l => vAt (after (.cvt 4 5 4 0) s) 5 l) = [0x11793344, 0x117E3344, 0x117F3344, 0x11803344, 0x11003344] := by
  decide +kernel

/-- 17 R306: the classes of negative zero, a subnormal, an infinity and the two NaN patterns. -/
theorem test_fclass :
    let s := tv [] 0xFF [(1, [0x80000000, 1, 0x7F800000, 0x7F800001, 0x7FC00000])] [] id
    [0, 1, 2, 3, 4].map (fun l => vAt (after (.fclass 2 1) s) 2 l) = [8, 32, 128, 256, 512] := by decide +kernel

/-- 17 R307: signed and unsigned order differ, and NaN is below nothing. -/
theorem test_compares :
    let s := tv [] four [(1, [0xFFFFFFFF, 0x7FC00000]), (2, [1, 0])] [] id
    pAt (after (.icmpLt 5 0 1 2) s) 5 0 = true ∧ pAt (after (.icmpLtu 5 0 1 2) s) 5 0 = false ∧
    pAt (after (.fcmpLt 5 0 1 2) s) 5 1 = false ∧ pAt (after (.fcmpNan 5 0 1 2) s) 5 1 = true := by decide +kernel

/-- 19 R373, 16 R284: a vote of the active lanes, and their mask. -/
theorem test_vote_and_ballot :
    let s := tGang 3 [] (fun gg => setP gg 3 0x5 allLanes) (fun fr => { fr with exmask := 0x7 }) id
    pAt (after (.vote 4 0 3) s) 4 0 = true ∧ pAt (after (.vote 4 1 3) s) 4 0 = false ∧ gAt (after (.ballot 9 3) s) 9 = 5 := by decide +kernel

/-- 19 R361: an exchange by index reads a lane that is not active, and 19 R346: an exclusive sum. -/
theorem test_exchanges :
    let s := tv [] four [(1, [10, 20, 30, 40, 50]), (2, [4, 3, 0, 1])] [] id
    vAt (after (.shfl 0 3 1 2) s) 3 0 = 50 ∧ vAt (after (.shfl 1 3 1 2) s) 3 1 = 30 ∧
    vAt (after (.scan 1 3 1 0 1) s) 3 3 = 60 ∧ vAt (after (.redux 3 1 0 1) s) 3 0 = 100 ∧ vAt (after (.argmax 0 3 1 1) s) 3 0 = 3 := by
  decide +kernel

/-- 18, the example of MERGE.POS. -/
theorem test_merge_positions :
    let s := tv [] allLanes [(1, (List.range 64).map fun k => BitVec.ofNat 32 (2 * k)), (2, (List.range 64).map fun k => BitVec.ofNat 32 (2 * k))] [] id
    let t := after (.merge 1 4 1 2) { s with teams := (modFrag s 0 0 0 fun fr => { fr with
      clause := fr.clause.map fun cl => { cl with hints := oper 2 0 0 0 } }).teams }
    [0, 1, 2, 3].map (vAt t 4) = [0, 64, 1, 65] ∧ [0, 1].map (vAt t 5) = [32, 96] := by
  decide +kernel

/-- 19, the worked example of TOPK and SELTH: a list of two at 0x1000. -/
def exampleList (hints : List (DWord × Instr)) : State :=
  tv hints four [(8, [0x3F000000, 0x40000000, 0x3FE00000, 0x40000000]), (9, [0x3FE00000, 0x3FE00000, 0x3FE00000, 0x3FE00000])]
    [(2, 0x801000), (3, 0x3E800000)] id
theorem test_topk :
    let t := after (.topk 9 130 8) (exampleList (oper 0 0 0 131))
    let w (off : Nat) : Nat := natOf (scratchBytes (gctx t).tm (0x1000 + off) 4)
    vAt t 9 3 = 0x3FE00000 ∧ [0, 4, 8].map w = [2, 64, 0x3FE00000] ∧ [16, 20, 32, 36].map w = [0x3FE00000, 3, 0x3FE00000, 1] := by
  decide +kernel
theorem test_selth :
    let t := after (.selth 1 10 8 9) (exampleList (oper 0 0 4 131))
    [0, 1, 2, 3].map (vAt t 10) = [0xFFFFFFFF, 0, 1, 2] ∧ [0, 1, 2, 3].map (pAt t 4) = [false, true, true, true] := by
  decide +kernel

/-- A module with a word at 0x8000. -/
def withWord (x : Nat) (s : State) : State := setMemBytes s 0x108000 (bytesOf 4 x)
/-- 16, the worked example of ATOM: four lanes on one word (the lanes receive their values on completion, in ascending order). -/
theorem test_atom_on_one_word :
    let s := withWord 5 (tv [(0x4004, .xscope 0 1 3 0)] four [(3, [1, 1, 1, 1])] [(0, 0x8000)] id)
    let t := after (.atom 0 3 128 0 0) s
    natOf (homeBytes (cleanL1 t fun _ => true) 0x108000 4) = 9 ∧ flagOf (gctx t).gg.flags 0 = 1 := by
  decide +kernel

/-- 19 R368, 18 R327: a word is stored with its least significant byte lowest, and a byte is loaded with its sign on completion. -/
theorem test_store_bytes :
    let s := tv [] 1 [(3, [0x11223384])] [(0, 0x8000)] id
    let t := after (.stB32 3 128 1) s
    homeBytes (cleanL1 t fun _ => true) 0x108004 4 = [0x84, 0x33, 0x22, 0x11] := by
  decide +kernel
theorem test_load_completes :
    let s := withWord 0x80 (tv [] 1 [] [(0, 0x8000)] id)
    let t := after (.longLatencyCompletion 1 0 0) (after (.ldS8 0 3 128 0) s)
    vAt t 3 0 = 0xFFFFFF80 ∧ flagOf (gctx t).gg.flags 0 = 0 := by
  decide +kernel

/-- 18 R319: an immediate is sign-extended, and a shift takes six bits. -/
theorem test_hawk_arithmetic :
    kAt (after (.kadd 1 3 1 1023) (tk 5 0)) 3 = 4 ∧ kAt (after (.kshl 0 3 1 2) (tk 1 65)) 3 = 2 ∧
    kAt (after (.ksub 0 3 1 2) (tk 0 1)) 3 = 0xFFFFFFFFFFFFFFFF := by
  decide +kernel

/-- 19 R372, 13 R225 and R226: a software trap saves the record and goes to the handler. -/
theorem test_software_trap :
    let t := after (.trap 0x1234) (armed te)
    ((listAt t.teams 0).bind fun tm => gangOf tm 0).map (fun gg => (gg.flt.cause, (fragOf gg 0).map (·.pc))) = some (0x10, some 0x6000) := by
  decide +kernel

/-- A word placed where the next step fetches runs: ISUB of v0 from v0 advances to the next header. -/
theorem test_step_runs_a_placed_word :
    (match step (State.reset.withFetchWord 32 0x20830000) with
      | .next t => (((listAt t.teams 0).bind fun tm => gangOf tm 0).bind fun gg => fragOf gg 0).map fun fr => (fr.pc, fr.clause.isSome)
      | _ => none) = some (0x4008, false) := by
  decide +kernel

/-- R111: bit 10 of a fast-tier address enters the stack (4, so die 1) and the slice index (bit 3 of it). -/
theorem test_home_slice : homeSlice 0x80 = 1 ∧ homeSlice 0x400 = 64 + 8 := by decide

/-- R113, R232: a corrected single-bit error raises CECOUNT. -/
theorem test_corrected : ∀ t, step { State.reset with agenda := [.corrected] } = .next t → t.cecount = 1 := by
  intro t h
  cases h
  rfl

end
end

/-!
A turn of the agenda: what a core's, a hawk's and an event's turn comes to, and that a stream whose word is fetched runs the
instruction which the word decodes to (R28, R60, R211, R257).
-/
namespace Sys2Proof.Machine

/-! ### A turn -/

/-- A step takes the first turn of the agenda, with the turn off it. -/
theorem step_turn {s : State} {turn : Turn} {rest : List Turn} (h : s.agenda = turn :: rest) :
    step s = takeTurn turn { s with agenda := rest } := by
  simp only [step, h]

/-- A core's turn that is not withheld and the first of its kind issues the core's gangs (R22, R23, R74). -/
theorem takeTurn_core {s : State} {core : Nat} (ht : s.throttled = false) (hs : s.spent.contains (.core core) = false)
    (hh : hawkSpent s core = false) :
    takeTurn (.core core) s = coreIssue { s with spent := .core core :: s.spent } core := by
  have h : ¬ (s.throttled = true ∨ s.spent.contains (.core core) = true ∨ hawkSpent s core = true) := by
    simp only [ht, hs, hh, Bool.false_eq_true, or_self, not_false_eq_true]
  simp only [takeTurn, if_neg h]

/-- A hawk's turn that is not withheld and at most the second in a core cycle issues the hawk's word (R28). -/
theorem takeTurn_hawk {s : State} {lid tid : Nat} (ht : s.throttled = false) (hc : countP (· == Turn.hawk lid tid) s.spent ≤ 1) :
    takeTurn (.hawk lid tid) s = runIssue (issueHawk { s with spent := .hawk lid tid :: s.spent } lid tid) := by
  have h : ¬ (s.throttled = true ∨ 2 ≤ countP (· == Turn.hawk lid tid) s.spent) := by simp [ht]; omega
  simp only [takeTurn, if_neg h]

/-- The turn of an event of the opcode table, which has no word, executes it for no stream. -/
theorem takeTurn_event {s : State} {i : Instr} (h : encode i = none) : takeTurn (.event i) s = exec i { s with cur := .none } := by
  simp [takeTurn, h]

/-! ### A core's issue slots (R211) -/

/-- A candidate is free: its attempt, where it answers a state, does not leave it in a wait that is tried again. -/
def FreeCand (u : State) (x : Cand) : Prop :=
  ∀ a, runIssue (issueFrag u x.lid x.tid x.g x.f) = .next a → heldBack u a x = false

/-- A free candidate is found, and trying it changes nothing. -/
theorem tryCand_free {u : State} {x : Cand} (h : FreeCand u x) (l : List Cand) : tryCand (u, l) x = (u, l ++ [x]) := by
  unfold tryCand
  split
  case h_1 a ha => simp [h a ha]
  case h_2 => rfl

/-- A candidate that only stands in a wait which is tried again keeps the wait, and is not found. -/
theorem tryCand_held {u a : State} {x : Cand} (h : runIssue (issueFrag u x.lid x.tid x.g x.f) = .next a) (hb : heldBack u a x = true)
    (l : List Cand) : tryCand (u, l) x = (a, l) := by
  simp [tryCand, h, hb]

theorem foldl_tryCand_free {u : State} : ∀ (xs l : List Cand), (∀ x ∈ xs, FreeCand u x) → xs.foldl tryCand (u, l) = (u, l ++ xs)
  | [], l, _ => by simp
  | x :: xs, l, h => by
    obtain ⟨hx, hxs⟩ := List.forall_mem_cons.mp h
    rw [List.foldl_cons, tryCand_free hx, foldl_tryCand_free xs _ hxs, List.append_assoc, List.singleton_append]

/-- The slots where every candidate is free: they go to the candidates' pair. -/
theorem coreIssue_free {u : State} {core : Nat} (h : ∀ x ∈ urgentCands u core ++ coreCands u core, FreeCand u x) :
    coreIssue u core =
      (let slots := slotPair (urgentCands u core) (coreCands u core)
       issueAll (actOrder slots) (noteOrder u (slots.map (orderKey u core)))) := by
  obtain ⟨hu, hn⟩ := List.forall_mem_append.mp h
  simp only [coreIssue, foldl_tryCand_free _ _ hu, foldl_tryCand_free _ _ hn, List.nil_append]

/-- A core whose only candidate stands in a wait that is tried again issues nothing: the wait is kept. -/
theorem coreIssue_held {u a : State} {core : Nat} {x : Cand} (hu : urgentCands u core = []) (hn : coreCands u core = [x])
    (h : runIssue (issueFrag u x.lid x.tid x.g x.f) = .next a) (hb : heldBack u a x = true) : coreIssue u core = .next a := by
  simp only [coreIssue, hu, hn, List.foldl_nil, List.foldl_cons, tryCand_held h hb]
  rfl

theorem slotPair_cons {urgent normal more : List Cand} {x : Cand} (h : urgent ++ normal = x :: more) :
    slotPair urgent normal = x :: (normal.find? fun y => !sameGang x y).toList := by
  simp only [slotPair, h]

/-! ### A fragment's word -/

/-- What the issue of a fragment does with the word w that its fetch has answered in the state c (R257, R267). -/
def wordIssue (c : State) (t g f : Nat) (tm : Team) (fr : Frag) (w : Word) : Issue :=
  match fr.clause with
  | none =>
    match decodeHeader w with
    | .instr i => .run i c
    | .reject e => .ended (headerTrap c t g f fr (rejectCause false e) 0 w)
  | some cl =>
    match decodeWord w with
    | .instr i => .run i c
    | .reject e =>
      .ended (if e = .operandField then trapOperandField c t g f tm fr cl w else trapRaw c t g f fr cl (rejectCause false e) 0 w)

/-- A fragment of a running team that does not wait at a step boundary issues the word that it fetches. -/
theorem issueFrag_word {v c : State} {lid tid g f t : Nat} {tm : Team} {gg : Gang} {fr : Frag} {w : Word}
    (ht : teamIdx v lid tid = some t) (htm : listAt v.teams t = some tm) (hrun : tm.st = .running) (hg : gangOf tm g = some gg)
    (hf : fragOf gg f = some fr) (hw : waitsAtBoundary v tm gg fr = false)
    (hfetch : fetchGang { v with cur := .gang t g f } tm t g f fr = (c, .word w)) :
    issueFrag v lid tid g f = wordIssue c t g f tm fr w := by
  simp only [issueFrag, ht, htm, hg, hf, hrun, hw, hfetch, wordIssue, Option.bind_some, Option.any_some, ne_eq, not_true_eq_false,
    if_false, Bool.false_eq_true]
  cases fr.clause with
  | none => rfl
  | some cl =>
    cases decodeWord w with
    | instr i => rfl
    | reject e => cases e <;> rfl

/-! ### What the stream's turn does not change for the fetch -/

section
variable (s : State) (agenda spent : List Turn) (cur : Cur) (teams : List Team)

/-- A state with other turns, another issuing stream and other teams. -/
def restaged : State := { s with agenda := agenda, spent := spent, cur := cur, teams := teams }

theorem homeBytes_restaged : ∀ pa n, homeBytes (restaged s agenda spent cur teams) pa n = homeBytes s pa n
  | _, 0 => rfl
  | pa, n + 1 => congrArg (homeByte s pa :: ·) (homeBytes_restaged (pa + 1) n)

theorem walkByte_restaged (pa : Nat) : walkByte (restaged s agenda spent cur teams) pa = walkByte s pa := by
  simp only [walkByte, homeBytes_restaged]
  rfl

theorem tableEntry_restaged (d : AsidDesc) (k : Nat) : tableEntry (restaged s agenda spent cur teams) d k = tableEntry s d k := by
  simp only [tableEntry, tableWords, walkWord, walkByte_restaged]

theorem walk_restaged (d : AsidDesc) (va : Nat) : ∀ fuel lo hi,
    walk (restaged s agenda spent cur teams) d va fuel lo hi = walk s d va fuel lo hi
  | 0, _, _ => rfl
  | fuel + 1, lo, hi => by simp only [walk, tableEntry_restaged, walk_restaged d va fuel]

theorem findRange_restaged (asid va : Nat) : findRange (restaged s agenda spent cur teams) asid va = findRange s asid va := by
  simp only [findRange, walk_restaged]
  rfl

/-- A translation reads the tables alone (R121, R123). -/
theorem translate_restaged (asid : Nat) (a : Access) (va : Nat) :
    translate (restaged s agenda spent cur teams) asid a va = translate s asid a va := by
  simp only [translate, findRange_restaged]
  rfl

end

/-! ### The hawk's word -/

theorem wordOfBytes_homeBytes (s : State) (pa : Nat) :
    wordOfBytes (homeBytes s pa 4) = some (BitVec.ofNat 32 (natOf (homeBytes s pa 4))) := by
  simp only [homeBytes, wordOfBytes, natOf]
  congr 2
  omega

theorem decodeBytes_homeBytes (atHeader : Bool) (s : State) (pa : Nat) :
    decodeBytes atHeader (homeBytes s pa 4) =
      (let w : Word := BitVec.ofNat 32 (natOf (homeBytes s pa 4))
       if atHeader then decodeHeader w else decodeWord w) := by
  simp only [decodeBytes, wordOfBytes_homeBytes]

/-- What the issue of a hawk does with the word w that its fetch has answered in the state c (R257, R267). -/
def hawkWordIssue (c : State) (t : Nat) (hk : Hawk) (w : Word) : Issue :=
  match if hk.clause.isNone then decodeHeader w else decodeWord w with
  | .instr i => .run i c
  | .reject e => .ended (hawkHeaderTrap c t hk (rejectCause true e) 0 w)

/-- The hawk of a running team that is not held at a step boundary issues the word that it fetches, where it issues or stands in a
wait that is tried again. -/
theorem issueHawk_word {v c : State} {lid tid t : Nat} {tm : Team} {w : Word}
    (ht : teamIdx v lid tid = some t) (htm : listAt v.teams t = some tm) (hrun : tm.st = .running) (hb : atBoundary tm = false)
    (hst : tm.hawk.st = .issuing ∨ ∃ w, tm.hawk.st = .waiting w ∧ retried w = true)
    (hfetch : fetchHawk (modTeam { v with cur := .hawk t } t fun tm => { tm with timer := 0 }) tm tm.hawk.pc = (c, .word w)) :
    issueHawk v lid tid = hawkWordIssue c t tm.hawk w := by
  obtain h | ⟨w', h, hr⟩ := hst
  all_goals
    simp only [issueHawk, hawkWordIssue, *, ne_eq, not_true_eq_false, Bool.not_true, Bool.false_eq_true, or_self, if_false]
    cases tm.hawk.clause <;> rfl

/-! ### The passing of a core cycle -/

theorem dropOpenPeers_cycle (s : State) (t : Nat) : (dropOpenPeers s t).cycle = s.cycle := by
  unfold dropOpenPeers dropHawkPeers
  split
  · split <;> rfl
  · rfl

theorem honour_cycle (s : State) (t : Nat) : (honour s t).cycle = s.cycle := by
  have h (slot : Nat) (kind : SwapKind) : (startSwapout s t slot kind).cycle = s.cycle := dropOpenPeers_cycle s t
  unfold honour
  split
  case h_1 => rfl
  case h_2 =>
    split
    case h_1 => simp only [apply_ite State.cycle, h, ite_self]
    case h_2 => rfl

theorem honourAll_cycle (s : State) : (honourAll s).cycle = s.cycle :=
  fold_keeps (P := fun u : State => u.cycle = s.cycle) (fun u t h => (honour_cycle u t).trans h) _ _ rfl

theorem sendClears_cycle (s : State) : (sendClears s).cycle = s.cycle := by
  refine fold_keeps (P := fun u : State => u.cycle = s.cycle) (fun u r h => ?_) _ _ rfl
  split
  · exact h
  · split <;> exact h

theorem captureSnapshot_cycle (s : State) : (captureSnapshot s).cycle = s.cycle := by
  unfold captureSnapshot
  split
  · rfl
  · split <;> rfl

/-- What a core cycle does before it is counted leaves the count as it was (R8). -/
theorem tick_cycle (s : State) : (tick s).cycle = s.cycle + 1 :=
  congrArg (· + 1) ((captureSnapshot_cycle _).trans ((honourAll_cycle _).trans (sendClears_cycle s)))

/-- Settles O56: a free candidate's attempt changes nothing, so that the slots go to the pair of the free candidates, and the issue
of a fragment is that of the word which its fetch answers. -/
theorem stepRunsTheDecodedWordOfAGang : Obligations.StepRunsTheDecodedWordOfAGang := by
  intro s rest core x v u run
  refine ⟨?turn, rfl, fun xs => ?slots, ?issue⟩
  case turn =>
    intro hag hthr hspent hhawk starved normal key
    have hstep : step s = coreIssue u core := (step_turn hag).trans (takeTurn_core hthr hspent hhawk)
    refine ⟨fun hfree => ?_, fun a hs hn hrun hb => hstep.trans (coreIssue_held hs hn hrun hb)⟩
    have hfreed := hstep.trans (coreIssue_free hfree)
    refine ⟨fun hnone => ?_, fun more hmore => ⟨fun hone => ?_, fun y hy => ?_⟩⟩
    · have hpair : slotPair starved normal = [] := by simp only [slotPair, hnone]
      exact hfreed.trans (by rw [hpair]; rfl)
    · have hfind : (normal.find? fun y => !sameGang x y) = none := by simpa using hone
      have hpair : slotPair starved normal = [x] := by rw [slotPair_cons hmore, hfind]; rfl
      exact hfreed.trans (by rw [hpair]; rfl)
    · have hpair : slotPair starved normal = [x, y] := by rw [slotPair_cons hmore, hy]; rfl
      exact hfreed.trans (by rw [hpair]; rfl)
  case slots =>
    simp only [issueAll, run]
    cases runIssue (issueFrag v x.lid x.tid x.g x.f) <;> rfl
  case issue =>
    intro t tm gg fr ht htm hst hg hf hw d unit bytes c hunit w
    have hfetch : fetchGang d tm t x.g x.f fr = (c, .word w) := by
      obtain ⟨⟨k, hk⟩, rfl⟩ | ⟨hnone, pa, e, htr, hpa, rfl, rfl⟩ := hunit
      · exact fetchGang_held hk
      · exact fetchGang_filled hnone htr hpa
    have hrun : run v x = runIssue (wordIssue c t x.g x.f tm fr w) := congrArg runIssue (issueFrag_word ht htm hst hg hf hw hfetch)
    rw [hrun]
    refine ⟨fun i hcl hd => ?_, fun i cl hcl hd => ?_, fun err hcl hd => ?_, fun err cl hcl hd => ?_⟩ <;>
      simp only [wordIssue, hcl, hd, runIssue]

/-- Settles O57: the hawk's fetch reads tables that its turn leaves as they were, the four bytes that it finds are the word which it
decodes, and nothing that a core cycle does before it is counted changes the count. -/
theorem stepRunsTheDecodedWordOfAHawkOrAnEvent : Obligations.StepRunsTheDecodedWordOfAHawkOrAnEvent := by
  intro s rest lid tid t tm pa e u
  refine ⟨?hawk, ?event, ?coreOver, ?hawkOver, fun hag => ⟨?_, tick_cycle s⟩⟩
  case hawk =>
    intro hag hthr hcount ht htm hrun hb hst htr hpa d c bytes
    have htr' : translate d (asidOf d tm) .fetch tm.hawk.pc.toNat = .at pa e := (translate_restaged s _ _ _ _ _ _ _).trans htr
    have hstep : step s = runIssue (hawkWordIssue c t tm.hawk (BitVec.ofNat 32 (natOf bytes))) :=
      calc step s = runIssue (issueHawk { u with spent := .hawk lid tid :: s.spent } lid tid) :=
            (step_turn hag).trans (takeTurn_hawk hthr hcount)
        _ = _ := congrArg runIssue (issueHawk_word ht htm hrun hb hst (fetchHawk_memory htr' hpa))
    rw [hstep, decodeBytes_homeBytes]
    refine ⟨fun i hd => ?_, fun err w hd hw => ?_⟩
    · simp only [hawkWordIssue, bytes, hd, runIssue]
    · obtain rfl : BitVec.ofNat 32 (natOf bytes) = w := Option.some.inj ((wordOfBytes_homeBytes c pa).symm.trans hw)
      simp only [hawkWordIssue, bytes, hd, runIssue]
  case event => exact fun i hag hi => (step_turn hag).trans (takeTurn_event hi)
  case coreOver => exact fun core hag hover => (step_turn hag).trans (if_pos hover)
  case hawkOver => exact fun hag hover => (step_turn hag).trans (if_pos hover)
  · simp only [step, hag]

end Sys2Proof.Machine

/-!
The system registers (R72 to R75, R224, R294, R311, R364): words of both streams that end with a register's value or a trap, what a
read of a CSR gives, and what a write leaves.
-/
namespace Sys2Proof.Machine

/-! ### Words of both streams -/

/-- The checks of a word pass where they pass for its fields written in another way. -/
theorem GangRuns.of_eq {s : State} {c : GCtx} {info info' : GCtx → WordInfo} (h : GangRuns s c info) (e : info' c = info c) :
    GangRuns s c info' := ⟨h.1, e ▸ h.2⟩

/-- A word of both streams whose effect in a gang is a g result completes with it. -/
theorem both_g_out {i : Instr} {info : GCtx → WordInfo} {body : GCtx → State → GRes} {hinfo hbody} {d : Nat} {x : DWord} {s : State}
    {c : GCtx} (he : exec i s = bothWord i info body hinfo hbody s) (h : GangRuns s c info) (hb : body c s = .done (writeG s c d x)) :
    GprOut i s c d x := by
  obtain ⟨gg, h1, h2⟩ := g_done h.1 d x
  refine ⟨_, gg, ?_, h1, h2⟩
  rw [he, bothWord_runs h, hb]
  rfl

/-- A word of both streams whose effect in the hawk is a k result completes with it. -/
theorem both_k_out {i : Instr} {ginfo gbody} {info : HCtx → HInfo} {body : HCtx → State → HRes} {d : Nat} {x : DWord} {s : State}
    {k : HCtx} (he : exec i s = bothWord i ginfo gbody info body s) (h : HawkRuns s k info) (hb : body k s = .done (writeK s k.t d x)) :
    KOut i s k d x := by
  obtain ⟨hk, h1, h2⟩ := k_done h.1 d x
  exact ⟨_, hk, he.trans (bothWord_hawk_done h hb), h1, h2⟩

/-- A hawk's word that counts on no flag, whose checks pass and whose effect is a trap, traps, in a window as outside one (R31). -/
theorem runHawk_trap {i : Instr} {info : HCtx → HInfo} {body : HCtx → State → HRes} {s : State} {c : HCtx} {cause : Cause}
    {addr : DWord} (hr : hawkReady (info c) c = true) (hf : (info c).fs = none) (hb : body c s = .trap cause addr) :
    runHawk i info body s c = trapHawk s c i cause addr := by
  simp only [hawkReady, hf, Bool.and_eq_true, Bool.not_eq_true', Option.isNone_iff_eq_none, Bool.or_eq_true] at hr
  obtain ⟨⟨⟨⟨⟨⟨⟨hhint, hplace⟩, -⟩, hlegal⟩, hact⟩, hpend⟩, hcond⟩, hwindow⟩ := hr
  have hends : ¬((info c).ends = true ∧ c.cl.left ≠ 1) := fun ⟨he, hl⟩ =>
    hplace.elim (fun h => Bool.noConfusion (he.symm.trans h)) fun h => hl (beq_iff_eq.mp h)
  simp only [runHawk, hhint, if_neg hends, hf, hlegal, hact, hpend, hcond, hb]
  cases hw : c.hk.window with
  | none => rfl
  | some win =>
    simp only [hw, Bool.and_eq_true, Bool.not_eq_true', Option.isNone_iff_eq_none, decide_eq_true_eq, beq_iff_eq] at hwindow
    obtain ⟨⟨⟨htreat, hfault⟩, hcommit⟩, hcount⟩ := hwindow
    have hroom : ¬64 ≤ win.count := Nat.not_le.mpr hcount
    simp [runInWindow, htreat, hfault, hcommit, hroom, hb, finishHawk]

theorem bothWord_hawk_trap {i : Instr} {ginfo gbody} {info : HCtx → HInfo} {body : HCtx → State → HRes} {s : State} {k : HCtx}
    {cause : Cause} {addr : DWord} (h : HawkRuns s k info) (hf : (info k).fs = none) (hb : body k s = .trap cause addr) :
    bothWord i ginfo gbody info body s = .next (trapHawk s k i cause addr) := by
  unfold bothWord
  rw [h.1, h.2.1]
  simp only [runHawk_trap h.2.2 hf hb]

/-! ### Reads (R72, R73) -/

/-- The fault record of the issuing gang. -/
theorem recordOf_gang {s : State} {c : GCtx} (h : gangCtx s = some c) : recordOf c.tm (.gang c.g) = c.gg.flt := by
  obtain ⟨-, hg, -⟩ := gangCtx_spec h
  simp [recordOf, hg]

/-- FLTCAUSE shows the cause, with IMP above it (R72, R224). -/
theorem bits64_faultWord_cause (r : FaultRecord) : bits64 (faultWord r 4) 8 0 = r.cause.toNat + if r.imp then 256 else 0 := by
  have hc := r.cause.isLt
  have hf := r.flag.isLt
  have hb := r.batch.isLt
  have hk := r.cls.isLt
  cases hi : r.imp <;> simp only [bits64, faultWord, bitAt, hi, BitVec.toNat_ofNat, if_true, if_false, Bool.false_eq_true] <;> omega

/-- A fault record has six words; those above them read 0 (R224). -/
theorem ite_faultWord (r : FaultRecord) (w : Nat) : (if w < 6 then faultWord r w else 0) = faultWord r w := by
  split
  · rfl
  · unfold faultWord
    split <;> first | omega | rfl

/-- What a gang reads: its own two registers, and those that both streams have (R73). -/
theorem gangCsr_eq (s : State) (c : GCtx) (n : BitVec 12) :
    gangCsr s c n.toNat = if n = 0 then some c.fr.exmask else if n = 8 then some (BitVec.ofNat 64 c.g)
      else readCsr s c.tm (.gang c.g) n.toNat := by
  by_cases h0 : n = 0
  · subst h0
    rfl
  by_cases h8 : n = 8
  · subst h8
    rfl
  rw [if_neg h0, if_neg h8]
  unfold gangCsr
  split
  case h_1 h => exact absurd (BitVec.eq_of_toNat_eq h) h0
  case h_2 h => exact absurd (BitVec.eq_of_toNat_eq h) h8
  case h_3 => rfl

/-- CSRD by a gang with an active lane reads a register that is assigned, and traps on another number (R294). -/
theorem csrd_gang {s : State} {c : GCtx} {a : BitVec 6} (n : BitVec 12) (ha : a.toNat < 32)
    (h : GangRuns s c fun _ => { plainInfo with writes := [.g a.toNat] }) :
    (c.act = 0 → exec (.csrd a n) s = .next (advance s c)) ∧
    (c.act ≠ 0 → (∀ x, gangCsr s c n.toNat = some x → GprOut (.csrd a n) s c a.toNat x) ∧
      (gangCsr s c n.toNat = none → exec (.csrd a n) s = .next (trapAll s c (.csrd a n) .illegalOperand c.act 0))) := by
  have h' : GangRuns s c fun _ => { plainInfo with legal := decide (a.toNat < 32), writes := [.g a.toNat] } :=
    h.of_eq (by simp [plainInfo, ha])
  have he : exec (.csrd a n) s = execCsrd a n s := rfl
  refine ⟨fun h0 => ?_, fun h0 => ⟨fun x hx => both_g_out he h' ?_, fun hx => ?_⟩⟩
  · rw [he, execCsrd, bothWord_runs h', if_pos h0]
    rfl
  · simp only [if_neg h0, hx]
    rfl
  · rw [he, execCsrd, bothWord_runs h']
    simp only [if_neg h0, hx]
    rfl

/-- CSRD by the hawk. -/
theorem csrd_hawk {s : State} {k : HCtx} {a : BitVec 6} (n : BitVec 12)
    (h : HawkRuns s k fun c => { plainHInfo with writes := [a.toNat], treat := csrdTreat c.hk }) :
    (∀ x, readCsr s k.tm .hawk n.toNat = some x → KOut (.csrd a n) s k a.toNat x) ∧
    (readCsr s k.tm .hawk n.toNat = none → exec (.csrd a n) s = .next (trapHawk s k (.csrd a n) .illegalOperand 0)) := by
  have he : exec (.csrd a n) s = execCsrd a n s := rfl
  refine ⟨fun x hx => both_k_out he h (by simp only [hx]), fun hx => ?_⟩
  rw [he, execCsrd]
  exact bothWord_hawk_trap h rfl (by simp only [hx])

/-- FLTRD by a gang with an active lane (R311). -/
theorem fltrd_gang {s : State} {c : GCtx} {a : BitVec 6} (w : BitVec 3)
    (h : GangRuns s c fun _ => gangInfo (quickInfo true [] [a.toNat] .run)) :
    (c.act = 0 → exec (.fltrd a w) s = .next (advance s c)) ∧
    (c.act ≠ 0 → GprOut (.fltrd a w) s c a.toNat (faultWord c.gg.flt w.toNat)) := by
  have he : exec (.fltrd a w) s = execFltrd a w s := rfl
  refine ⟨fun h0 => ?_, fun h0 => both_g_out he h ?_⟩
  · rw [he, execFltrd, onceWord, bothWord_runs h, if_pos h0]
    rfl
  · simp only [if_neg h0, toGang, gangIssuer, recordOf_gang h.1]
    rfl

/-- FLTRD by the hawk. -/
theorem fltrd_hawk {s : State} {k : HCtx} {a : BitVec 6} (w : BitVec 3)
    (h : HawkRuns s k fun _ => hawkInfo (quickInfo true [] [a.toNat] .run)) :
    KOut (.fltrd a w) s k a.toNat (faultWord k.hk.flt w.toNat) := by
  obtain ⟨-, hhk, -⟩ := hawkCtx_spec h.1
  refine both_k_out (show exec (.fltrd a w) s = execFltrd a w s from rfl) h ?_
  rw [← hhk]
  rfl

/-! ### Writes (R73) -/

theorem tauOk_iff (x : Word) :
    tauOk x = true ↔ ¬(isNanF (f32 x) = true ∨ (x.getLsbD 31 = true ∧ x ≠ 0x80000000)) := by
  simp only [tauOk, Bool.and_eq_true, Bool.not_eq_true', Bool.or_eq_true, beq_iff_eq, not_or, not_and, Bool.not_eq_true, ne_eq,
    Decidable.not_not]
  cases x.getLsbD 31 <;> simp

/-- What a write of each writable register leaves; none where it traps (R73). -/
theorem writeCsr_eq (s : State) (t : Nat) (tm : Team) (n : BitVec 12) (x : DWord) :
    writeCsr s t tm n.toNat x =
      (let v : Word := x.setWidth 32
       if n = 0x0B then some (modTeam s t fun tm => { tm with stepno := v })
       else if n = 0x12 then
         if isNanF (f32 v) = true ∨ (v.getLsbD 31 = true ∧ v ≠ 0x80000000) then none
         else some (modTeam s t fun tm => { tm with skimtau := if v = 0x80000000 then 0 else v })
       else if n = 0x13 then
         if x.toNat % 64 ≤ launchField s tm 63 (·.prio) then some (modTeam s t fun tm => { tm with prio := x.toNat % 64 }) else none
       else none) := by
  by_cases hstep : n = 0x0B
  · subst hstep
    rfl
  by_cases htau : n = 0x12
  · subst htau
    simp only [← ite_not (isNanF _ = true ∨ _), ← tauOk_iff]
    rfl
  by_cases hprio : n = 0x13
  · subst hprio
    simp only [writeCsr, BitVec.reduceToNat, bits64, Nat.pow_zero, Nat.div_one]
    rfl
  simp only [if_neg hstep, if_neg htau, if_neg hprio]
  unfold writeCsr
  split
  case h_1 h => exact absurd (BitVec.eq_of_toNat_eq h) hstep
  case h_2 h => exact absurd (BitVec.eq_of_toNat_eq h) htau
  case h_3 h => exact absurd (BitVec.eq_of_toNat_eq h) hprio
  case h_4 => rfl

/-- A write of a CSR updates its team alone, and leaves the values that are read in its cycle (R74). -/
theorem writeCsr_modTeam {s u : State} {t n : Nat} {tm : Team} {x : DWord} (h : writeCsr s t tm n x = some u) :
    ∃ f : Team → Team, u = modTeam s t f ∧ ∀ y, (f y).stepnoSeen = y.stepnoSeen ∧ (f y).skimtauSeen = y.skimtauSeen ∧
      (f y).prioSeen = y.prioSeen := by
  unfold writeCsr at h
  split at h
  case h_1 =>
    obtain rfl := Option.some.inj h
    exact ⟨_, rfl, fun _ => ⟨rfl, rfl, rfl⟩⟩
  case h_4 => cases h
  all_goals
    obtain ⟨-, h⟩ := Option.ite_none_right_eq_some.mp h
    obtain rfl := Option.some.inj h
    exact ⟨_, rfl, fun _ => ⟨rfl, rfl, rfl⟩⟩

/-- From the end of a core cycle on, the values written in it are read (R74). -/
theorem tick_seen {s : State} {t : Nat} {tm : Team} (h : listAt (tick s).teams t = some tm) :
    tm.stepnoSeen = tm.stepno ∧ tm.skimtauSeen = tm.skimtau ∧ tm.prioSeen = tm.prio := by
  simp only [tick, listAt_map, Option.map_eq_some_iff] at h
  obtain ⟨y, -, rfl⟩ := h
  exact ⟨rfl, rfl, rfl⟩

/-- CSWR by a gang with an active lane: EXMASK goes by R57, another register by its own rule (R294). -/
theorem cswr_gang {s : State} {c : GCtx} {a : BitVec 6} (n : BitVec 12) (ha : a.toNat < 32)
    (h : GangRuns s c fun _ => { plainInfo with reads := [.g a.toNat] }) :
    (c.act = 0 → exec (.cswr a n) s = .next (advance s c)) ∧
    (c.act ≠ 0 →
      (n = 0 → exec (.cswr a n) s = .next (finish (.cswr a n) s c (writeExmask s c (gReg c.gg a.toNat)))) ∧
      (n ≠ 0 → ∀ u, writeCsr s c.t c.tm n.toNat (gReg c.gg a.toNat) = some u → exec (.cswr a n) s = .next (advance u c)) ∧
      (n ≠ 0 → writeCsr s c.t c.tm n.toNat (gReg c.gg a.toNat) = none →
        exec (.cswr a n) s = .next (trapAll s c (.cswr a n) .illegalOperand c.act 0))) := by
  have h' : GangRuns s c fun _ => { plainInfo with legal := decide (a.toNat < 32), reads := [.g a.toNat] } :=
    h.of_eq (by simp [plainInfo, ha])
  have he : exec (.cswr a n) s = execCswr a n s := rfl
  rw [he, execCswr, bothWord_runs h']
  refine ⟨fun h0 => ?_, fun h0 => ⟨fun hn => ?_, fun hn u hu => ?_, fun hn hu => ?_⟩⟩
  · simp only [if_pos h0, finish]
  · simp only [if_neg h0, if_pos hn]
  · simp only [if_neg h0, if_neg hn, hu, finish]
  · simp only [if_neg h0, if_neg hn, hu, finish]

/-- CSWR by the hawk with no window open. -/
theorem cswr_hawk {s : State} {k : HCtx} {a : BitVec 6} (n : BitVec 12)
    (h : HawkRunsPlain s k fun _ => { plainHInfo with reads := [a.toNat], treat := .hold true }) :
    (∀ u, writeCsr s k.t k.tm n.toNat (kReg k.hk a.toNat) = some u → exec (.cswr a n) s = .next (hawkEnd k u)) ∧
    (writeCsr s k.t k.tm n.toNat (kReg k.hk a.toNat) = none →
      exec (.cswr a n) s = .next (trapHawk s k (.cswr a n) .illegalOperand 0)) := by
  have he : exec (.cswr a n) s = execCswr a n s := rfl
  rw [he, execCswr, bothWord_hawk_runs h]
  refine ⟨fun u hu => ?_, fun hu => ?_⟩
  · simp only [cswrBody, hu, finishHawk, hawkEnd, h.2]
  · simp only [cswrBody, hu, finishHawk]

/-- What a write of EXMASK by a gang comes to (R57). -/
theorem finish_writeExmask (i : Instr) (s : State) (c : GCtx) (x : Mask) :
    finish i s c (writeExmask s c x) =
      if x &&& ~~~c.fr.home = 0 then advance (modFrag s c.t c.g c.f fun fr => { fr with exmask := x }) c
      else trapAll s c i .illegalConvergence c.act 0 := by
  unfold writeExmask
  split <;> simp_all [finish]

/-- Settles O28: a read is that of the number's register, whose cause field stands alone in a word of the record, and a write of a CSR
updates its team by a function that leaves what is read in the cycle. -/
theorem systemRegisters : Obligations.SystemRegisters := by
  intro s a n w value written
  have hvalue (tm : Team) (who : StreamName) : readCsr s tm who n.toNat = value tm (recordOf tm who) := by
    simp only [readCsr, bits64_faultWord_cause]
    rfl
  have hwritten (t : Nat) (tm : Team) (x : DWord) : writeCsr s t tm n.toNat x = written t tm x :=
    writeCsr_eq s t tm n x
  refine ⟨fun c ha h => ?gangRead, fun k h => ?hawkRead, fun t tm h => tick_seen h, fun t tm x u tm' h hw h' => ?seen,
    fun c ha h => ?gangWrite, fun k h => ?hawkWrite, fun c h => ?gangRecord, fun k h => ?hawkRecord, ?snap⟩
  case gangRead =>
    have hcsr : gangCsr s c n.toNat = if n = 0 then some c.fr.exmask else if n = 8 then some (BitVec.ofNat 64 c.g)
        else value c.tm c.gg.flt := by
      rw [gangCsr_eq, hvalue, recordOf_gang h.1]
    obtain ⟨hidle, hact⟩ := csrd_gang n ha h
    rw [hcsr] at hact
    exact ⟨hidle, hact⟩
  case hawkRead =>
    obtain ⟨-, hhk, -⟩ := hawkCtx_spec h.1
    have hcsr : readCsr s k.tm .hawk n.toNat = value k.tm k.hk.flt := (hvalue _ _).trans (by rw [← hhk]; rfl)
    have := csrd_hawk n h
    rwa [hcsr] at this
  case seen =>
    obtain ⟨f, rfl, hf⟩ := writeCsr_modTeam ((hwritten _ _ _).trans hw)
    simp only [modTeam_teams, listAt_modify_self, h, Option.map_some, Option.some.injEq] at h'
    exact h' ▸ hf tm
  case gangWrite =>
    intro x out
    have := cswr_gang n ha h
    simpa only [hwritten, finish_writeExmask] using this
  case hawkWrite =>
    have := cswr_hawk n h
    simpa only [hwritten] using this
  case gangRecord =>
    rw [ite_faultWord]
    exact fltrd_gang w h
  case hawkRecord =>
    rw [ite_faultWord]
    exact fltrd_hawk w h
  case snap =>
    refine once_out (show exec .snap s = execSnap s from rfl) fun x _ => ?_
    simp only [snapBody, Bool.and_eq_true]

end Sys2Proof.Machine

/-!
What control cores write (R75, R120, R206, R207, R213, R233, R237, R238, R243, R244, R247): the place of each register in device register
space, and what a pre-emption request to a team comes to.
-/
namespace Sys2Proof.Machine

/-! ### Fields -/

theorem bits64_zero (x : DWord) (hi : Nat) : bits64 x hi 0 = x.toNat % 2 ^ (hi + 1) := by
  simp only [bits64, Nat.pow_zero, Nat.div_one, Nat.sub_zero]

/-- The top fields of a double word need no bound. -/
theorem bits64_top (x : DWord) : bits64 x 63 12 = x.toNat / 4096 := by
  have := x.isLt
  unfold bits64
  omega

/-- The page number of a physical address. -/
theorem bits64_page (x : DWord) : bits64 x 51 12 = x.toNat % 2 ^ 52 / 4096 := by
  unfold bits64
  omega

/-- A virtual address of 56 bits (R118). -/
theorem ofNat_bits64_55 (x : DWord) : BitVec.ofNat 64 (bits64 x 55 0) = x &&& 0xFFFFFFFFFFFFFF := by
  have hmask : (0xFFFFFFFFFFFFFF : DWord).toNat = 2 ^ 56 - 1 := rfl
  apply BitVec.eq_of_toNat_eq
  rw [bits64_zero, BitVec.toNat_ofNat, BitVec.toNat_and, hmask, Nat.and_two_pow_sub_one_eq_mod]
  omega

/-! ### Places in device register space (R20) -/

section
variable (s : State) (v : BitVec 64) {off : BitVec 38}

/-- A write to a register that has no event of its own (R20). -/
theorem registerWrite_aligned (h : off.toNat % 8 = 0) : exec (.registerWrite off v) s = .next (writeRegister s off.toNat v) :=
  congrArg Host.Outcome.next (if_pos h)

/-- Below the ports of the launch queues the plumb line's two registers alone have no event of their own. -/
theorem registerWrite_low (h : off.toNat < 0x8000) (h₁ : off.toNat ≠ 0x4000) (h₂ : off.toNat ≠ 0x4008) :
    exec (.registerWrite off v) s = .next s := by
  have hkeep : writeRegister s off.toNat v = s := by
    unfold writeRegister
    repeat rw [if_neg (by omega)]
  have hstep : exec (.registerWrite off v) s = .next (if off.toNat % 8 = 0 then writeRegister s off.toNat v else s) := rfl
  rw [hstep, hkeep, ite_self]

/-- Word j of PCIe window k of root port rp (R247). -/
theorem registerWrite_pcie {rp k j : Nat} (hrp : rp < 2) (hk : k < 256) (hj : j < 4)
    (h : off.toNat = 0x80000 + 0x10000 * rp + 32 * k + 8 * j) :
    exec (.registerWrite off v) s = .next (writePcie s (256 * rp + k) j v) := by
  have hrem : (off.toNat - 0x80000) % 0x10000 = 32 * k + 8 * j := by omega
  have hquot : (off.toNat - 0x80000) / 0x10000 = rp := by omega
  have hword : off.toNat % 32 / 8 = j := by omega
  have hwin : rp * 256 + (32 * k + 8 * j) / 32 = 256 * rp + k := by omega
  rw [registerWrite_aligned s v (by omega), writeRegister, if_neg (by omega), if_neg (by omega), if_pos (by omega), hrem,
    if_pos (by omega), hquot, hword, hwin]

/-- A register of a port's block (R237). -/
theorem registerWrite_port {n r : Nat} (hn : n < 16) (hr : r < 0x1000) (h8 : r % 8 = 0) (h : off.toNat = 0x100000 + 0x1000 * n + r) :
    exec (.registerWrite off v) s = .next (modPort s n fun p => writePort p r v) := by
  have hport : (off.toNat - 0x100000) / 0x1000 = n := by omega
  have hreg : off.toNat % 0x1000 = r := by omega
  rw [registerWrite_aligned s v (by omega), writeRegister, if_neg (by omega), if_neg (by omega), if_neg (by omega), if_pos (by omega),
    hport, hreg]

/-- Word j of entry e of a port's filter (R244). -/
theorem registerWrite_filter {n e j : Nat} (hn : n < 16) (he : e < 16) (hj : j < 4)
    (h : off.toNat = 0x100000 + 0x1000 * n + (0x100 + 32 * e + 8 * j)) :
    exec (.registerWrite off v) s = .next (modPort s n fun p => writeFilter p e j v) := by
  have hentry : (0x100 + 32 * e + 8 * j - 0x100) / 32 = e := by omega
  have hword : (0x100 + 32 * e + 8 * j - 0x100) % 32 / 8 = j := by omega
  have hfilter (p : Port) : writePort p (0x100 + 32 * e + 8 * j) v = writeFilter p e j v := by
    rw [writePort, if_neg (by omega), if_neg (by omega), if_pos (by omega), hentry, hword]
  simp only [registerWrite_port s v hn (by omega) (by omega) h, hfilter]

/-- Word j of peer window k (R238). -/
theorem registerWrite_window {k j : Nat} (hk : k < 64) (hj : j < 2) (h : off.toNat = 0x200000 + 16 * k + 8 * j) :
    exec (.registerWrite off v) s = .next (writeWindow s k j v) := by
  have hwin : (off.toNat - 0x200000) / 16 = k := by omega
  have hword : off.toNat % 16 / 8 = j := by omega
  rw [registerWrite_aligned s v (by omega), writeRegister, if_neg (by omega), if_neg (by omega), if_neg (by omega), if_neg (by omega),
    if_pos (by omega), hwin, hword]

/-- Word j of the trap vectors of an ASID (R225). -/
theorem registerWrite_vector {k j : Nat} (hk : k < 8192) (hj : j < 2) (h : off.toNat = 0x2000000 + 16 * k + 8 * j) :
    exec (.registerWrite off v) s = .next (writeVector s k j v) := by
  have hasid : (off.toNat - 0x2000000) / 16 = k := by omega
  have hword : off.toNat % 16 / 8 = j := by omega
  rw [registerWrite_aligned s v (by omega), writeRegister, if_neg (by omega), if_neg (by omega), if_neg (by omega), if_neg (by omega),
    if_neg (by omega), if_pos (by omega), hasid, hword]

end

theorem listModify_id {α : Type} : ∀ (l : List α) (n : Nat), listModify (fun x => x) l n = l
  | [], _ => rfl
  | _ :: _, 0 => rfl
  | y :: l, n + 1 => congrArg (y :: ·) (listModify_id l n)

/-- An update of a link station that changes nothing. -/
theorem modPort_id (s : State) (n : Nat) : modPort s n (fun p => p) = s := by
  simp only [modPort, listModify_id]

/-! ### Pre-emption requests (R213, R214, R216) -/

theorem listFind_some {α : Type} {p : α → Bool} : ∀ {l : List α} {k n : Nat}, listFind p l k = some n →
    ∃ x, listAt l (n - k) = some x ∧ p x = true ∧ k ≤ n
  | y :: l, k, n, h => by
    simp only [listFind] at h
    split at h
    · next hy =>
      obtain rfl := Option.some.inj h
      exact ⟨y, by simp [listAt], hy, Nat.le_refl k⟩
    · obtain ⟨x, hx, hp, hk⟩ := listFind_some h
      have hn : n - k = (n - (k + 1)) + 1 := by omega
      exact ⟨x, by rw [hn]; exact hx, hp, by omega⟩

/-- A team's index leads to a team of its identifiers. -/
theorem teamIdx_spec {s : State} {lid tid n : Nat} (h : teamIdx s lid tid = some n) :
    ∃ tm, listAt s.teams n = some tm ∧ tm.lid = lid ∧ tm.tid = tid := by
  obtain ⟨tm, htm, hp, -⟩ := listFind_some h
  simp only [Bool.and_eq_true, beq_iff_eq] at hp
  exact ⟨tm, htm, hp⟩

theorem mem_of_listAt {α : Type} {l : List α} {n : Nat} {x : α} (h : listAt l n = some x) : x ∈ l := by
  rw [listAt_eq_getElem?] at h
  exact List.mem_of_getElem? h

theorem listModify_filterMap {α β : Type} {p : α → Option β} {f : α → α} (hf : ∀ x, p (f x) = p x) :
    ∀ (l : List α) (n : Nat), (listModify f l n).filterMap p = l.filterMap p
  | [], _ => rfl
  | y :: l, 0 => by simp only [listModify, List.filterMap_cons, hf]
  | y :: l, n + 1 => by simp only [listModify, List.filterMap_cons, listModify_filterMap hf l n]

/-- The free context slot depends on the slots that teams hold. -/
theorem freeContext_modTeam {s : State} {t : Nat} {f : Team → Team} (hl : ∀ tm, (f tm).lid = tm.lid)
    (hc : ∀ tm, (f tm).ctxSlot = tm.ctxSlot) (lid : Nat) : freeContext (modTeam s t f) lid = freeContext s lid := by
  have hused := listModify_filterMap (p := fun tm : Team => if tm.lid = lid then tm.ctxSlot else none) (f := f)
    (fun tm => by simp only [hl, hc]) s.teams t
  simp only [freeContext, modTeam_teams, hused]
  rfl

/-- An update of a team depends on that team alone. -/
theorem modTeam_congr {s : State} {t : Nat} {tm : Team} (h : listAt s.teams t = some tm) {f g : Team → Team} (e : f tm = g tm) :
    modTeam s t f = modTeam s t g := by
  simp only [modTeam]
  congr 1
  refine listModify_congr _ _ fun x hx => ?_
  obtain rfl := Option.some.inj (h.symm.trans hx)
  exact e

/-- A team with no open window goes to SWAPOUT with nothing to squash (R212). -/
theorem startSwapout_plain {s : State} {t : Nat} {tm : Team} (h : listAt s.teams t = some tm) (hw : tm.hawk.window = none)
    (slot : Nat) (kind : SwapKind) : startSwapout s t slot kind =
      modTeam s t fun tm => { tm with st := .swapout, swapKind := kind, ctxSlot := some slot, preempt := none, timer := 0 } := by
  have hpeers : dropOpenPeers s t = s := by simp [dropOpenPeers, h, hw]
  have hstop : stopWindow tm = tm := by simp [stopWindow, hw]
  rw [startSwapout, hpeers]
  exact modTeam_congr h (by simp only [hstop])

section
variable {u : State} {t : Nat} {tm : Team} {force : Bool}

/-- A request to a team that does not run, or for which no context slot is free, stays pending (R212, R213). -/
theorem honour_pending (h : listAt u.teams t = some tm) (hst : tm.st ≠ .running ∨ freeContext u tm.lid = none) : honour u t = u := by
  unfold honour
  simp only [h]
  split
  next hp hslot =>
    rw [if_pos (hst.resolve_right (by rw [hslot]; exact Option.some_ne_none _))]
  next => rfl

/-- What a request to a running team for which a context slot is free comes to (R214, R216). -/
theorem honour_running {slot : Nat} (h : listAt u.teams t = some tm) (hp : tm.preempt = some force) (hst : tm.st = .running)
    (hslot : freeContext u tm.lid = some slot) :
    honour u t = if (force || preemptClass u tm == 0) = true then startSwapout u t slot .preempt
      else if (atBoundary tm && opsDrained tm) = true then startSwapout u t slot .step else u := by
  simp only [honour, h, hp, hslot, hst, ne_eq, not_true_eq_false, if_false, Bool.or_eq_true, beq_iff_eq, Bool.and_eq_true]

end

/-- A team whose class and state take a request has it merged with one that is there, and honoured where that can be now (R213). -/
theorem requestPreempt_taken {s : State} {t : Nat} {tm : Team} (h : listAt s.teams t = some tm) (force : Bool)
    (hclass : preemptClass s tm ≠ 2) (hst : tm.st = .running ∨ tm.st = .preload ∨ tm.st = .swapin) :
    requestPreempt s t force =
      honour (modTeam s t fun x => { x with preempt := some (force || tm.preempt.getD false) }) t := by
  have hlive : ¬(preemptClass s tm = 2 ∨ (!(tm.st == .running || tm.st == .preload || tm.st == .swapin)) = true) := by
    rintro (h | h)
    · exact hclass h
    · obtain hst | hst | hst := hst <;> simp [hst] at h
  simp only [requestPreempt, h, if_neg hlive]
  congr 1
  exact modTeam_congr h rfl

/-- A request to a team does what its class and its state say. -/
theorem requestPreempt_made {s : State} {t : Nat} {tm : Team} (h : listAt s.teams t = some tm) (force : Bool) :
    RequestMade s (requestPreempt s t force) t tm force := by
  unfold RequestMade
  intro asked pending now boundary
  have hteam : listAt pending.teams t = some { tm with preempt := some asked } := by
    simp only [pending, modTeam_teams, listAt_modify_self, h, Option.map_some]
  have hslots : freeContext pending tm.lid = freeContext s tm.lid :=
    freeContext_modTeam (f := fun tm => { tm with preempt := some asked }) (fun _ => rfl) (fun _ => rfl) _
  have hclass : preemptClass pending { tm with preempt := some asked } = preemptClass s tm := rfl
  refine ⟨fun hdrop => ?_, fun hc hst => ?_, fun hc hst => ?_⟩
  · simp only [requestPreempt, h]
    rw [if_pos]
    obtain hc | ⟨h1, h2, h3⟩ := hdrop
    · exact .inl hc
    · exact .inr (by simp [h1, h2, h3])
  · rw [requestPreempt_taken h force hc (.inr hst)]
    exact honour_pending hteam (.inl (by obtain h | h := hst <;> simp [h]))
  · rw [requestPreempt_taken h force hc (.inl hst)]
    have hrun (slot : Nat) (hslot : freeContext s tm.lid = some slot) := honour_running hteam rfl hst (hslots.trans hslot)
    refine ⟨fun hfull => honour_pending hteam (.inr (hslots.trans hfull)), fun hnow hb => ?_, fun slot hslot hw hgo => ?_⟩
    · cases hslot : freeContext s tm.lid with
      | none => exact honour_pending hteam (.inr (hslots.trans hslot))
      | some slot =>
        have hnow' : ¬(asked || preemptClass pending { tm with preempt := some asked } == 0) = true := by
          rw [hclass]
          exact ne_true_of_eq_false hnow
        exact (hrun slot hslot).trans ((if_neg hnow').trans (if_neg (ne_true_of_eq_false hb)))
    · have hout (kind : SwapKind) : startSwapout pending t slot kind = modTeam s t fun tm => { tm with
          st := .swapout, swapKind := kind, ctxSlot := some slot, preempt := none, timer := 0 } := by
        rw [startSwapout_plain hteam hw]
        simp only [pending, modTeam, listModify_modify]
      refine (hrun slot hslot).trans ?_
      rw [hout, hout]
      by_cases hnow : now = true
      · rw [if_pos hnow]
        exact if_pos hnow
      · rw [if_neg hnow]
        exact (if_neg hnow).trans (if_pos ((Bool.or_eq_true_iff.mp hgo).resolve_left hnow))

/-- Where the pre-emption port names no team nothing is requested, and where it names one, that team's request is made (R213). -/
theorem preEmptionPort_made (s : State) (v : BitVec 64) :
    ∃ t, exec (.preEmptionPort v) s = .next t ∧
      let hit := s.teams.filter fun tm =>
        tm.lid == v.toNat % 2 ^ 32 && (v.toNat / 2 ^ 32 % 2 ^ 24 == 0xFFFFFF || tm.tid == v.toNat / 2 ^ 32 % 2 ^ 24)
      (hit = [] → t = s) ∧
      (∀ tm n, hit = [tm] → teamIdx s tm.lid tm.tid = some n → RequestMade s t n tm (v.getLsbD 56)) := by
  have hlid : bits64 v 31 0 = v.toNat % 2 ^ 32 := bits64_zero v 31
  have htid : bits64 v 55 32 = v.toNat / 2 ^ 32 % 2 ^ 24 := rfl
  refine ⟨_, rfl, fun hnone => ?_, fun tm n hone hn => ?_⟩
  · rw [hlid, htid, hnone]
    rfl
  · have hteam : listAt s.teams n = some tm := by
      obtain ⟨x, hx, hxlid, hxtid⟩ := teamIdx_spec hn
      have htm : tm ∈ [tm] := List.mem_singleton_self tm
      rw [← hone, List.mem_filter] at htm
      have hmem : x ∈ [tm] := by
        rw [← hone, List.mem_filter, hxlid, hxtid]
        exact ⟨mem_of_listAt hx, htm.2⟩
      rw [hx, List.mem_singleton.mp hmem]
    rw [hlid, htid, hone]
    simp only [List.foldl_cons, List.foldl_nil, hn]
    exact requestPreempt_made hteam _

/-! ### ASID descriptors (R120) -/

section
variable {s : State} {asid : BitVec 13} (v : BitVec 64)

theorem asidLive_iff : asidLive s asid.toNat = true ↔ ∃ l ∈ s.launches, l.record.asid = asid.toNat := by simp [asidLive]

/-- While no launch of an ASID is live its first word is written; where EN rises DISCARDCNT is zero (R72). -/
theorem asidDescriptorWrite_first (h : ¬asidLive s asid.toNat = true) :
    exec (.asidDescriptorWrite asid 0 v) s = .next (
      let d := asidDesc s asid.toNat
      let new : AsidDesc := { d with en := v.getLsbD 0, rsv := v.getLsbD 1, tbase := v.toNat / 2 ^ 7 % 2 ^ 45 * 128 }
      let u : State := { s with asids := smSet noAsid s.asids asid.toNat new }
      if v.getLsbD 0 = true ∧ d.en = false then { u with discardCnt := smSet 0 s.discardCnt asid.toNat 0 } else u) := by
  refine congrArg Host.Outcome.next ?_
  simp only [if_neg h, if_true, Bool.and_eq_true, Bool.not_eq_true']
  rfl

/-- While a launch of an ASID is live, RSV alone is written, where EN is set. -/
theorem asidDescriptorWrite_first_live (h : asidLive s asid.toNat = true) :
    exec (.asidDescriptorWrite asid 0 v) s = .next (if v.getLsbD 0 = true then
      { s with asids := smSet noAsid s.asids asid.toNat { asidDesc s asid.toNat with rsv := v.getLsbD 1 } } else s) := by
  refine congrArg Host.Outcome.next ?_
  simp only [if_pos h, if_true]

/-- The counts are written where they are in range and no launch of the ASID is live. -/
theorem asidDescriptorWrite_counts (h : ¬asidLive s asid.toNat = true) :
    exec (.asidDescriptorWrite asid 1 v) s = .next (
      let count := v.toNat % 2 ^ 17
      let tsize := v.toNat / 2 ^ 17 % 2 ^ 17
      if count ≤ tsize ∧ tsize ≤ 65536 then
        { s with asids := smSet noAsid s.asids asid.toNat { asidDesc s asid.toNat with count := count, tsize := tsize } }
      else s) := by
  have hcount : bits64 v 16 0 = v.toNat % 2 ^ 17 := bits64_zero v 16
  have htsize : bits64 v 33 17 = v.toNat / 2 ^ 17 % 2 ^ 17 := rfl
  have hrange (m n : Nat) : (m ≤ n ∧ n ≤ 65536) ↔ ¬(asidLive s asid.toNat = true ∨ 65536 < m ∨ 65536 < n ∨ n < m) := by
    simp only [h, Bool.false_eq_true, false_or]
    omega
  refine congrArg Host.Outcome.next ?_
  simp only [hcount, htsize, hrange, ite_not]
  rfl

theorem asidDescriptorWrite_counts_live (h : asidLive s asid.toNat = true) : exec (.asidDescriptorWrite asid 1 v) s = .next s :=
  congrArg Host.Outcome.next (if_pos (Or.inl h))

end

/-! ### Submissions (R130, R206, R207) -/

section
variable {s : State} (q : BitVec 9) (v : BitVec 64)

/-- Before BOOTDONE every submission is rejected (R207). -/
theorem submit_unbooted (h : s.bootdone = false) :
    exec (.submit q v) s = .next { s with portRej := smSet 0 s.portRej q.toNat 9 } :=
  if_pos (by rw [h]; rfl)

variable (hb : s.bootdone = true)
include hb

/-- No memory is there to read the record from (R17, log 71). -/
theorem submit_unpopulated (hp : populated (v.toNat % 2 ^ 52) 128 = false) :
    exec (.submit q v) s = .fault (.unpopulated (v.toNat % 2 ^ 52)) := by
  have he : exec (.submit q v) s = execSubmit q v s := rfl
  simp only [he, execSubmit, hb, bits64_zero, hp, Bool.not_true, Bool.not_false, Bool.false_eq_true, if_false, if_true]

variable (hp : populated (v.toNat % 2 ^ 52) 128 = true)
include hp

/-- The port judges the record as the module's own units read it, and leaves the outcome in LID and REJ (R206). -/
theorem submit_judged :
    exec (.submit q v) s = .next (
      let u := flushQuanta s (v.toNat % 2 ^ 52) (v.toNat % 2 ^ 52 + 128)
      let bs := physBytes u (v.toNat % 2 ^ 52) 128
      if checkRecord u q.toNat bs ≠ 0 then
        { u with portRej := smSet 0 u.portRej q.toNat (BitVec.ofNat 8 (checkRecord u q.toNat bs)) }
      else { acceptLaunch u q.toNat bs with
        portLid := smSet 0 u.portLid q.toNat (BitVec.ofNat 32 u.nextLid), portRej := smSet 0 u.portRej q.toNat 0 }) := by
  have he : exec (.submit q v) s = execSubmit q v s := rfl
  simp only [he, execSubmit, hb, bits64_zero, hp, Bool.not_true, Bool.false_eq_true, if_false, apply_ite Host.Outcome.next]
  rfl

end

section
variable {s : State} {v : BitVec 64}

/-- A command that is not aligned, lies outside the fast tier or finds the queue full is refused. -/
theorem trsubmit_refused
    (h : v.toNat % 2 ^ 52 % 32 ≠ 0 ∨ inFast (v.toNat % 2 ^ 52) (v.toNat % 2 ^ 52 + 32) = false ∨ 64 ≤ s.trowel.length) :
    exec (.trsubmit v) s = .next { s with trref := true } := by
  have he : exec (.trsubmit v) s = execTrsubmit v s := rfl
  simp only [he, execTrsubmit, bits64_zero, Bool.not_eq_true', if_pos h]

/-- Another command is copied to the queue's end. -/
theorem trsubmit_queued (h₁ : v.toNat % 2 ^ 52 % 32 = 0) (h₂ : inFast (v.toNat % 2 ^ 52) (v.toNat % 2 ^ 52 + 32) = true)
    (h₃ : s.trowel.length < 64) :
    exec (.trsubmit v) s = .next (
      let pa := v.toNat % 2 ^ 52
      let u := flushQuanta s pa (pa + 32)
      let w (k : Nat) : DWord := BitVec.ofNat 64 (homeWord u (pa + 8 * k))
      { u with trref := false
               trowel := u.trowel ++ [{ addr := pa, w0 := w 0, w1 := w 1, w2 := w 2, w3 := w 3 &&& 0xFFFFFFFF }] }) := by
  have he : exec (.trsubmit v) s = execTrsubmit v s := rfl
  simp only [he, execTrsubmit, bits64_zero, h₁, h₂, Nat.not_le.mpr h₃, ne_eq, not_true_eq_false, Bool.not_true, Bool.false_eq_true,
    or_self, if_false]

end

/-! ### The receive ring (R243) -/

theorem rxn_empties (s : State) (port : BitVec 4) (v : BitVec 64) :
    exec (.rxn port v) s = .next (modPort (putWord s (portOf s port.toNat).rxtaddr 0) port.toNat fun p =>
      { p with rxn := v.toNat % 2 ^ 20, rxhead := 0 }) := by
  have he : exec (.rxn port v) s = execRxn port v s := rfl
  simp only [he, execRxn, bits64_zero]

/-- RXHEAD moves between the head and the tail. -/
theorem rxhead_moves (s : State) (port : BitVec 4) (v : BitVec 64) :
    exec (.rxhead port v) s = .next (
      let p := portOf s port.toNat
      let u := flushQuanta s p.rxtaddr (p.rxtaddr + 8)
      if p.rxhead.toNat ≤ v.toNat ∧ v.toNat ≤ ringTail u p then modPort u port.toNat fun p => { p with rxhead := v } else u) := by
  have he : exec (.rxhead port v) s = execRxhead port v s := rfl
  have hmove (a b c : Nat) : (a ≤ b ∧ b ≤ c) ↔ ¬(c < b ∨ b < a) := by omega
  simp only [he, execRxhead, hmove, ite_not]

/-! ### The words of a register's block -/

section
variable (s : State) (v : BitVec 64) {off : BitVec 38}

/-- The three words of a PCIe window (R247). -/
theorem registerWrite_pcieWindow {rp k : Nat} (hrp : rp < 2) (hk : k < 256) :
    let at' := 0x80000 + 0x10000 * rp + 32 * k
    let x := smGet noPcie s.pcie (256 * rp + k)
    let put (x : PcieWindow) : State := { s with pcie := smSet noPcie s.pcie (256 * rp + k) x }
    (off.toNat = at' → exec (.registerWrite off v) s = .next
      (put { x with en := v.getLsbD 0, r := v.getLsbD 1, w := v.getLsbD 2, bus := v.toNat / 4096 * 4096 })) ∧
    (off.toNat = at' + 8 → exec (.registerWrite off v) s = .next (put { x with lim := v.toNat / 4096 * 4096 })) ∧
    (off.toNat = at' + 16 → exec (.registerWrite off v) s = .next (put { x with phys := v.toNat % 2 ^ 52 / 4096 * 4096 })) := by
  rw [← bits64_top, ← bits64_page]
  exact ⟨registerWrite_pcie s v hrp hk (j := 0) (by decide), registerWrite_pcie s v hrp hk (j := 1) (by decide),
    registerWrite_pcie s v hrp hk (j := 2) (by decide)⟩

/-- The plumb line's register, and its buffer's (R233). -/
theorem registerWrite_plumb (h : off.toNat = 0x4000) :
    exec (.registerWrite off v) s = .next { s with isnap := v.getLsbD 0, ievt := v.getLsbD 1, evmask := (v >>> 2).setWidth 18 } := by
  rw [registerWrite_aligned s v (by omega), h]
  rfl

theorem registerWrite_snapbuf (h : off.toNat = 0x4008) :
    exec (.registerWrite off v) s = .next { s with snapbuf := v.toNat % 2 ^ 52 } := by
  rw [registerWrite_aligned s v (by omega), h, writeRegister, if_neg (by decide), if_pos rfl, bits64_zero]

/-- A register of a port's block that may only be read takes nothing (R237). -/
theorem registerWrite_readOnly {n r : Nat} (hn : n < 16) (hr : r < 0x1000) (h8 : r % 8 = 0) (hp : ∀ p, writePort p r v = p)
    (h : off.toNat = 0x100000 + 0x1000 * n + r) : exec (.registerWrite off v) s = .next s := by
  rw [registerWrite_port s v hn hr h8 h]
  simp only [hp, modPort_id]

/-- The three words of a filter entry (R244). -/
theorem registerWrite_filterEntry {n e : Nat} (hn : n < 16) (he : e < 16) :
    let at' := 0x100000 + 0x1000 * n
    let put (f : FilterEntry → FilterEntry) : State :=
      modPort s n fun p => { p with filter := smSet noFilter p.filter e (f (smGet noFilter p.filter e)) }
    (off.toNat = at' + 0x100 + 32 * e → exec (.registerWrite off v) s = .next (put fun x =>
      { x with src := v.setWidth 16, r := v.getLsbD 16, w := v.getLsbD 17, en := v.getLsbD 18 })) ∧
    (off.toNat = at' + 0x108 + 32 * e → exec (.registerWrite off v) s = .next (put fun x => { x with base := v.toNat % 2 ^ 52 })) ∧
    (off.toNat = at' + 0x110 + 32 * e → exec (.registerWrite off v) s = .next (put fun x => { x with lim := v.toNat % 2 ^ 52 })) := by
  rw [← bits64_zero v 51]
  exact ⟨fun h => registerWrite_filter s v hn he (j := 0) (by decide) (by omega),
    fun h => registerWrite_filter s v hn he (j := 1) (by decide) (by omega),
    fun h => registerWrite_filter s v hn he (j := 2) (by decide) (by omega)⟩

/-- The registers of a port's block (R237, R243, R244). -/
theorem registerWrite_portBlock {n : Nat} (hn : n < 16) :
    let at' := 0x100000 + 0x1000 * n
    (off.toNat = at' → exec (.registerWrite off v) s = .next s) ∧
    (off.toNat = at' + 8 → exec (.registerWrite off v) s = .next s) ∧
    (off.toNat = at' + 0x10 → exec (.registerWrite off v) s = .next s) ∧
    (off.toNat = at' + 0x20 → exec (.registerWrite off v) s = .next (modPort s n fun p => { p with rxbase := v.toNat % 2 ^ 52 })) ∧
    (off.toNat = at' + 0x30 → exec (.registerWrite off v) s = .next (modPort s n fun p => { p with rxtaddr := v.toNat % 2 ^ 52 })) := by
  rw [← bits64_zero v 51]
  exact ⟨registerWrite_readOnly s v hn (r := 0) (by decide) rfl fun _ => rfl,
    registerWrite_readOnly s v hn (by decide) rfl fun _ => rfl, registerWrite_readOnly s v hn (by decide) rfl fun _ => rfl,
    registerWrite_port s v hn (r := 0x20) (by decide) rfl, registerWrite_port s v hn (r := 0x30) (by decide) rfl⟩

/-- The two words of a peer window (R238). -/
theorem registerWrite_peerWindow {k : Nat} (hk : k < 64) :
    let x := peerWindow s k
    let put (x : PeerWindow) : State := { s with windows := smSet noWindow s.windows k x }
    (off.toNat = 0x200000 + 16 * k → exec (.registerWrite off v) s = .next (put { x with
      wen := v.getLsbD 0, msg := v.getLsbD 1, pmod := (v >>> 2).setWidth 16, ports := (v >>> 18).setWidth 16 })) ∧
    (off.toNat = 0x200008 + 16 * k → exec (.registerWrite off v) s = .next (put { x with ppbase := v.toNat % 2 ^ 52 })) := by
  rw [← bits64_zero v 51]
  exact ⟨registerWrite_window s v hk (j := 0) (by decide), fun h => registerWrite_window s v hk (j := 1) (by decide) (by omega)⟩

/-- The trap vectors of an ASID (R225). -/
theorem registerWrite_vectors {k : Nat} (hk : k < 8192) :
    let x := smGet (0, 0) s.vectors k
    let put (x : DWord × DWord) : State := { s with vectors := smSet (0, 0) s.vectors k x }
    (off.toNat = 0x2000000 + 16 * k → exec (.registerWrite off v) s = .next (put (v &&& 0xFFFFFFFFFFFFFF, x.2))) ∧
    (off.toNat = 0x2000008 + 16 * k → exec (.registerWrite off v) s = .next (put (x.1, v &&& 0xFFFFFFFFFFFFFF))) := by
  rw [← ofNat_bits64_55]
  exact ⟨registerWrite_vector s v hk (j := 0) (by decide), fun h => registerWrite_vector s v hk (j := 1) (by decide) (by omega)⟩

end

/-- Settles O46: the write of each register goes to the lemma of its event or its place; a record, an address and a count are fields of
the value written. -/
theorem controlRegisterEvents : Obligations.ControlRegisterEvents := by
  intro s q v core asid port off out rej pa d put live count tsize
  have hdead (h : ¬live) : ¬asidLive s asid.toNat = true := mt asidLive_iff.mp h
  obtain ⟨hstate, hcontrol, hservice, hbase, htail⟩ := registerWrite_portBlock s v (off := off) port.isLt
  exact ⟨rfl, fun h => asidDescriptorWrite_first v (hdead h),
    fun h => ⟨asidDescriptorWrite_first_live v (asidLive_iff.mpr h), asidDescriptorWrite_counts_live v (asidLive_iff.mpr h)⟩,
    fun h => asidDescriptorWrite_counts v (hdead h), submit_unbooted q v,
    fun hb hp => ⟨fun hc => (submit_judged q v hb hp).trans (congrArg _ (if_pos hc)),
      fun hc => (submit_judged q v hb hp).trans (congrArg _ (if_neg (not_not_intro hc)))⟩,
    submit_unpopulated q v, preEmptionPort_made s v, trsubmit_refused, trsubmit_queued, rxn_empties s port v, rxhead_moves s port v,
    fun h => congrArg _ (if_neg h), registerWrite_plumb s v, registerWrite_snapbuf s v, registerWrite_low s v,
    fun rp k hrp hk => registerWrite_pcieWindow s v hrp hk,
    ⟨hstate, hcontrol, hservice, hbase, htail, fun e he => registerWrite_filterEntry s v port.isLt he⟩,
    fun k hk => registerWrite_peerWindow s v hk, registerWrite_vectors s v asid.isLt⟩

end Sys2Proof.Machine

/-!
Losses of hardware and uncorrectable errors (R219, R229 to R232): what the memory operations that a kill makes leave unchanged, what a
kill and an escalation come to, and the events of health.
-/
namespace Sys2Proof.Machine

/-! ### What memory operations leave -/

/-- t with the memory, the caches, the tokens, the race fields, the pending sums and the slot clears of s. -/
def withMemoryOf (s t : State) : State :=
  { t with mem := s.mem, poison := s.poison, l2 := s.l2, l1 := s.l1, tokHolder := s.tokHolder, track := s.track
           quanta := s.quanta, slotClears := s.slotClears }

/-- From s to t only memory and what stands over it has changed, and no first-level cache holds a sector that held none. -/
structure MemoryFrame (s t : State) : Prop where
  rest : withMemoryOf s t = s
  l1 : ∀ e ∈ t.l1, ∃ x ∈ s.l1, x.core = e.core

namespace MemoryFrame

theorem refl (s : State) : MemoryFrame s s := ⟨rfl, fun e he => ⟨e, he, rfl⟩⟩

variable {r s t : State}

theorem teams_eq (h : MemoryFrame s t) : t.teams = s.teams := (congrArg State.teams h.rest :)
theorem launches_eq (h : MemoryFrame s t) : t.launches = s.launches := (congrArg State.launches h.rest :)

/-- A further update that keeps the first-level caches' sectors, or drops some. -/
theorem of_rest (h : MemoryFrame r s) (e : withMemoryOf r t = withMemoryOf r s) (hl : ∀ e ∈ t.l1, ∃ x ∈ s.l1, x.core = e.core) :
    MemoryFrame r t :=
  ⟨e.trans h.rest, fun a ha => by
    obtain ⟨b, hb, hab⟩ := hl a ha
    obtain ⟨c, hc, hbc⟩ := h.l1 b hb
    exact ⟨c, hc, hbc.trans hab⟩⟩

/-- A further update that leaves the first-level caches alone. -/
theorem of_l1 (h : MemoryFrame r s) (e : withMemoryOf r t = withMemoryOf r s) (hl : t.l1 = s.l1) : MemoryFrame r t :=
  h.of_rest e fun a ha => ⟨a, hl ▸ ha, rfl⟩

theorem ite {p : Prop} [Decidable p] (hs : MemoryFrame r s) (ht : MemoryFrame r t) : MemoryFrame r (if p then s else t) := by
  split
  · exact hs
  · exact ht

theorem setMemBytes : ∀ (bs : List Byte) {s : State} (_ : MemoryFrame r s) (pa : Nat), MemoryFrame r (Machine.setMemBytes s pa bs)
  | [], _, h, _ => h
  | b :: bs, s, h, pa => setMemBytes bs (s := setMemByte s pa b) (h.of_l1 rfl rfl) (pa + 1)

theorem toDram (h : MemoryFrame r s) (sec : Nat) (d : List Byte) (p : Bool) : MemoryFrame r (Machine.toDram s sec d p) :=
  (setMemBytes (d.take 32) h _).of_l1 rfl rfl

theorem l2WriteBack (h : MemoryFrame r s) (e : CacheSector) : MemoryFrame r (Machine.l2WriteBack s e) := ite (h.toDram _ _ _) h

theorem l2Drop (h : MemoryFrame r s) (p : CacheSector → Bool) : MemoryFrame r (Machine.l2Drop s p) :=
  fold_keeps (fun _ e h => h.l2WriteBack e) _ _ (h.of_l1 rfl rfl)

theorem cleanL2 (h : MemoryFrame r s) (p : CacheSector → Bool) : MemoryFrame r (Machine.cleanL2 s p) :=
  (fold_keeps (P := MemoryFrame r) (fun _ e h => h.l2WriteBack e) (s.l2.filter p) s h).of_l1 rfl rfl

theorem l2Put (h : MemoryFrame r s) (e : CacheSector) : MemoryFrame r (Machine.l2Put s e) := h.of_l1 rfl rfl

theorem l2Room (sec : Nat) : ∀ (fuel : Nat) {s : State}, MemoryFrame r s → MemoryFrame r (Machine.l2Room s sec fuel)
  | 0, _, h => h
  | fuel + 1, s, h => by
    unfold Machine.l2Room
    refine ite h ?_
    split
    · exact l2Room sec fuel ((h.cleanL2 _).l2Drop _)
    · exact h

theorem l2Admit (h : MemoryFrame r s) {sec : Nat} {w : Install} (e : Machine.l2Admit s sec w = some t) : MemoryFrame r t := by
  simp only [Machine.l2Admit, Option.ite_none_right_eq_some, Option.some.injEq] at e
  obtain ⟨-, -, rfl⟩ := e
  exact l2Room _ _ h

theorem l2Store (h : MemoryFrame r s) (sec : Nat) (d : List Byte) (p : Bool) (w : Install) :
    MemoryFrame r (Machine.l2Store s sec d p w) := by
  have hother : MemoryFrame r (l2Other s sec w) := (h.cleanL2 _).l2Drop _
  unfold Machine.l2Store
  dsimp only
  split
  · exact hother.l2Put _
  · split
    next hadmit => exact (hother.l2Admit hadmit).l2Put _
    next => exact hother.toDram _ _ _

theorem l2WriteSector (h : MemoryFrame r s) (ws : List (Nat × Byte)) (whole : Bool) (w : Install) (sec : Nat) :
    MemoryFrame r (Machine.l2WriteSector s ws whole w sec) := h.l2Store _ _ _ _

theorem l2Write (h : MemoryFrame r s) (how : Nat → Install) (whole : Nat → Bool) (ws : List (Nat × Byte)) :
    MemoryFrame r (Machine.l2Write s how whole ws) :=
  fold_keeps (fun _ _ h => h.l2WriteSector ws _ _ _) _ _ h

theorem writeBack (h : MemoryFrame r s) (e : CacheSector) : MemoryFrame r (Machine.writeBack s e) := ite (h.l2Store _ _ _ _) h

theorem l1Drop (h : MemoryFrame r s) (p : CacheSector → Bool) : MemoryFrame r (Machine.l1Drop s p) :=
  fold_keeps (fun _ e h => h.writeBack e) _ _
    (h.of_rest rfl fun e he => ⟨e, (List.mem_filter.mp (List.mem_filter.mp he).1).1, rfl⟩)

theorem cleanL1 (h : MemoryFrame r s) (p : CacheSector → Bool) : MemoryFrame r (Machine.cleanL1 s p) := by
  refine (fold_keeps (P := MemoryFrame r) (fun _ e h => h.writeBack e) (s.l1.filter fun e => p e && e.dirty) s h).of_rest rfl
    fun e he => ?_
  obtain ⟨x, hx, rfl⟩ := List.mem_map.mp he
  exact ⟨x, hx, by split <;> rfl⟩

theorem passToken (h : MemoryFrame r s) (region holder : Nat) : MemoryFrame r (Machine.passToken s region holder) :=
  ite h (((h.cleanL1 _).l1Drop _).of_l1 rfl rfl)

theorem applyQuantum (h : MemoryFrame r s) (x : Quantum) : MemoryFrame r (Machine.applyQuantum s x) := by
  have htake : MemoryFrame r (homeTake s homeHolder (sectorOf x.addr)) := ((h.passToken _ _).cleanL1 _).l1Drop _
  unfold Machine.applyQuantum
  exact htake.l2WriteSector _ _ _ _

theorem flushQuanta (h : MemoryFrame r s) (lo hi : Nat) : MemoryFrame r (Machine.flushQuanta s lo hi) := by
  have hrecall : MemoryFrame r (recallStations s lo hi) := fold_keeps (fun _ _ h => h.passToken _ _) _ _ h
  exact (fold_keeps (P := MemoryFrame r) (fun _ x h => h.applyQuantum x) _ _ hrecall).of_l1 rfl rfl

theorem clearSlot (h : MemoryFrame r s) (asid va : Nat) : MemoryFrame r (Machine.clearSlot s asid va) := by
  unfold Machine.clearSlot
  split
  · exact ite h ((h.flushQuanta _ _).l2Write _ _ _)
  · exact h.of_l1 rfl rfl
  · exact h

theorem clearSvalid (h : MemoryFrame r s) (asid : Nat) (skim : Bool) (ops : List EngineOp) :
    MemoryFrame r (Machine.clearSvalid s asid skim ops) := by
  refine fold_keeps (fun s op h => ?_) _ _ h
  split
  · exact ite (h.clearSlot _ _) h
  · exact h

theorem undoTeam (h : MemoryFrame r s) (tm : Team) : MemoryFrame r (Machine.undoTeam s tm) := by
  unfold Machine.undoTeam
  exact (ite (fold_keeps (fun _ _ h => h.of_l1 rfl rfl) _ _ h) h).clearSvalid _ _ _

end MemoryFrame

/-! ### What a kill leaves -/

/-- t with the memory of s, and with its teams, launches, peer requests, stamps and plumb line. -/
def withTeamsOf (s t : State) : State :=
  { withMemoryOf s t with teams := s.teams, launches := s.launches, peers := s.peers, stamp := s.stamp
                          busy := s.busy, drop := s.drop, seq := s.seq, latched := s.latched }

/-- From s to t only memory, teams, launches, peer requests, stamps and the plumb line have changed; no first-level cache holds a
sector that held none, and the launches' records are as they were. -/
structure KillFrame (s t : State) : Prop where
  rest : withTeamsOf s t = s
  l1 : ∀ e ∈ t.l1, ∃ x ∈ s.l1, x.core = e.core
  records : ∀ lid, (launchOf t lid).map (·.record) = (launchOf s lid).map (·.record)

/-- The launch of an identifier after an update of launches that keeps theirs. -/
theorem launchOf_modLaunch {s : State} {lid : Nat} {f : Launch → Launch} (hf : ∀ l, (f l).lid = l.lid) (k : Nat) :
    launchOf (modLaunch s lid f) k = (launchOf s k).map fun l => if l.lid == lid then f l else l := by
  simp only [launchOf, modLaunch, List.find?_map]
  congr 2
  funext l
  simp only [Function.comp_apply]
  split <;> simp only [hf]

theorem launchOf_lid {s : State} {lid : Nat} {l : Launch} (h : launchOf s lid = some l) : l.lid = lid := by
  simpa using List.find?_some h

/-- A field of a team's launch record depends on the record alone. -/
theorem launchField_eq_elim {α : Type} (s : State) (tm : Team) (d : α) (f : LaunchRecord → α) :
    launchField s tm d f = ((launchOf s tm.lid).map (·.record)).elim d f := by
  unfold launchField
  cases launchOf s tm.lid <;> rfl

namespace KillFrame

theorem refl (s : State) : KillFrame s s := ⟨rfl, fun e he => ⟨e, he, rfl⟩, fun _ => rfl⟩

variable {r s t : State}

theorem trans (h : KillFrame r s) (h' : KillFrame s t) : KillFrame r t :=
  ⟨(congrArg (withTeamsOf r) h'.rest :).trans h.rest, fun a ha => by
    obtain ⟨b, hb, hab⟩ := h'.l1 a ha
    obtain ⟨c, hc, hbc⟩ := h.l1 b hb
    exact ⟨c, hc, hbc.trans hab⟩, fun lid => (h'.records lid).trans (h.records lid)⟩

theorem of_memory (h : MemoryFrame s t) : KillFrame s t :=
  ⟨(congrArg (withTeamsOf s) h.rest :), h.l1, fun lid => by simp only [launchOf, h.launches_eq]⟩

/-- An update of teams, peer requests, stamps and the plumb line alone. -/
theorem of_rest (e : withTeamsOf s t = s) (hl : t.l1 = s.l1) (hr : t.launches = s.launches) : KillFrame s t :=
  ⟨e, fun a ha => ⟨a, hl ▸ ha, rfl⟩, fun lid => by simp only [launchOf, hr]⟩

/-- An update of launches that keeps their identifiers and records. -/
theorem modLaunch (s : State) (lid : Nat) {f : Launch → Launch} (hf : ∀ l, (f l).lid = l.lid) (hr : ∀ l, (f l).record = l.record) :
    KillFrame s (Machine.modLaunch s lid f) := by
  refine ⟨rfl, fun e he => ⟨e, he, rfl⟩, fun k => ?_⟩
  rw [launchOf_modLaunch hf, Option.map_map]
  congr 1
  funext l
  simp only [Function.comp_apply]
  split <;> simp only [hr]

theorem plumbEvent (s : State) (tm : Team) (code : Nat) : KillFrame s (Machine.plumbEvent s tm code) := by
  rw [plumbEvent_eq]
  exact of_rest rfl rfl rfl

theorem coreMap_eq (h : KillFrame s t) : t.coreMap = s.coreMap := (congrArg State.coreMap h.rest :)
theorem recovering_eq (h : KillFrame s t) : t.recovering = s.recovering := (congrArg State.recovering h.rest :)
theorem sparesUsed_eq (h : KillFrame s t) : t.sparesUsed = s.sparesUsed := (congrArg State.sparesUsed h.rest :)
theorem spare_eq (h : KillFrame s t) : t.spare = s.spare := (congrArg State.spare h.rest :)
theorem req_eq (h : KillFrame s t) : t.req = s.req := (congrArg State.req h.rest :)
theorem lost_eq (h : KillFrame s t) : t.lost = s.lost := (congrArg State.lost h.rest :)
theorem outputs_eq (h : KillFrame s t) : t.outputs = s.outputs := (congrArg State.outputs h.rest :)
theorem lostCores_eq (h : KillFrame s t) : t.lostCores = s.lostCores := (congrArg State.lostCores h.rest :)

theorem cptOf_eq (h : KillFrame s t) (tm : Team) : cptOf t tm = cptOf s tm := by
  simp only [cptOf, launchField_eq_elim, h.records]

theorem clusterPresent_eq (h : KillFrame s t) (cl : Nat) : clusterPresent t cl = clusterPresent s cl := by
  simp only [clusterPresent, funext fun c => show corePresent t c = corePresent s c by simp only [corePresent, h.coreMap_eq]]

theorem strandedTeam_eq (h : KillFrame s t) (tm : Team) : strandedTeam t tm = strandedTeam s tm := by
  simp only [strandedTeam, h.cptOf_eq, h.clusterPresent_eq]

end KillFrame

/-! ### Escalation (R219) -/

/-- A launch that a fault of team tid has cancelled, where it was not cancelled before. -/
def cancelledBy (cause tid : Nat) (l : Launch) : Launch :=
  if l.cancelled then l else { l with cancelled := true, status := 1, fcause := cause, fteam := tid }

theorem cancelledBy_lid (cause tid : Nat) (l : Launch) : (cancelledBy cause tid l).lid = l.lid := by
  unfold cancelledBy
  split <;> rfl

theorem cancelledBy_record (cause tid : Nat) (l : Launch) : (cancelledBy cause tid l).record = l.record := by
  unfold cancelledBy
  split <;> rfl

theorem cancelledBy_cancelled (cause tid : Nat) (l : Launch) : (cancelledBy cause tid l).cancelled = true := by
  unfold cancelledBy
  split <;> simp [*]

/-- To undo every team of a launch touches memory alone. -/
theorem MemoryFrame.escalating (s : State) (lid : Nat) :
    MemoryFrame s ((s.teams.filter fun tm => tm.lid == lid).foldl Machine.undoTeam s) :=
  fold_keeps (fun _ tm h => h.undoTeam tm) _ _ (.refl s)

theorem escalate_teams (s : State) (lid cause tid : Nat) : (escalate s lid cause tid).teams = s.teams.filter fun tm => tm.lid != lid :=
  congrArg (List.filter _) (MemoryFrame.escalating s lid).teams_eq

theorem launchOf_escalate {s : State} {lid : Nat} {l : Launch} (h : launchOf s lid = some l) (cause tid : Nat) :
    launchOf (escalate s lid cause tid) lid = some (cancelledBy cause tid l) := by
  refine (launchOf_modLaunch (cancelledBy_lid cause tid) lid).trans ?_
  have hl : launchOf ((s.teams.filter fun tm => tm.lid == lid).foldl undoTeam s) lid = some l := by
    rw [← h, launchOf, (MemoryFrame.escalating s lid).launches_eq, launchOf]
  exact (congrArg _ hl).trans (congrArg some (if_pos (beq_iff_eq.mpr (launchOf_lid h))))

theorem KillFrame.escalate (s : State) (lid cause tid : Nat) : KillFrame s (Machine.escalate s lid cause tid) := by
  refine trans ?_ (modLaunch _ lid (cancelledBy_lid cause tid) (cancelledBy_record cause tid))
  exact (of_memory (.escalating s lid)).trans (of_rest rfl rfl rfl)

/-! ### A kill (R218, R219) -/

/-- A launch without what a team has issued of its multicast groups. -/
def forgetGroups (tid : Nat) (l : Launch) : Launch := { l with groups := l.groups.filter fun g => g.tid != tid }

theorem forgetGroups_lid (tid : Nat) (l : Launch) : (forgetGroups tid l).lid = l.lid := rfl
theorem forgetGroups_record (tid : Nat) (l : Launch) : (forgetGroups tid l).record = l.record := rfl

/-- A state in which a team's doings are undone, before its fault relaunches it or is escalated. -/
def undone (s : State) (tm : Team) : State :=
  let u := undoTeam s tm
  modLaunch { u with peers := u.peers.filter fun r => !(r.lid == tm.lid && r.tid == tm.tid) } tm.lid (forgetGroups tm.tid)

theorem undone_teams (s : State) (tm : Team) : (undone s tm).teams = s.teams := ((MemoryFrame.refl s).undoTeam tm).teams_eq

theorem KillFrame.undone (s : State) (tm : Team) : KillFrame s (Machine.undone s tm) := by
  refine trans ?_ (modLaunch _ tm.lid (forgetGroups_lid tm.tid) (forgetGroups_record tm.tid))
  exact (of_memory ((MemoryFrame.refl s).undoTeam tm)).trans (of_rest rfl rfl rfl)

theorem launchOf_undone (s : State) (tm : Team) : launchOf (undone s tm) tm.lid = (launchOf s tm.lid).map (forgetGroups tm.tid) := by
  refine (launchOf_modLaunch (forgetGroups_lid tm.tid) _).trans ?_
  simp only [launchOf, ((MemoryFrame.refl s).undoTeam tm).launches_eq]
  refine Option.map_congr fun l hl => if_pos (List.find?_some hl)

/-- R219 lets a team of a launch run again. -/
def RunsAgain (s : State) (tm : Team) (l : Launch) : Prop :=
  l.record.idem = true ∧ tm.escaped = false ∧ tm.relaunches < l.record.retry ∧ l.cancelled = false ∧
    ∀ cl, tm.cluster = some cl → cptOf s tm = 1 ∨ cptOf s tm ≤ clusterPresent s cl

/-- The cores that a killed team needs are there, as the kill tests it. -/
def fitsAgain (s : State) (tm : Team) : Bool :=
  match tm.cluster with
  | some cl => decide (cptOf s tm ≤ clusterPresent s cl) || cptOf s tm == 1
  | none => true

/-- The kill's test of a relaunch, made with the team's doings undone, is that of R219. -/
theorem runsAgain_undone {s : State} {tm : Team} (l : Launch) :
    (l.record.idem ∧ !tm.escaped ∧ tm.relaunches < l.record.retry ∧ fitsAgain (undone s tm) tm ∧ !l.cancelled) ↔ RunsAgain s tm l := by
  simp only [RunsAgain, fitsAgain, (KillFrame.undone s tm).cptOf_eq, (KillFrame.undone s tm).clusterPresent_eq]
  cases tm.cluster <;> simp [or_comm, and_comm]

/-- The team that waits to run again after a kill. -/
def relaunched (s : State) (tm : Team) (l : Launch) (cause : Nat) : Team :=
  { freshTeam tm.lid tm.tid tm.parent tm.gangCount tm.vregs tm.acct tm.lines l.record.prio tm.gentry tm.hentry
      tm.param (tm.relaunches + 1) s.stamp (if cptOf s tm > 1 then tm.cluster else none) with
    barc := tm.barc, arrived := tm.arrived, barcCredit := tm.barcCredit, killCause := cause }

section
variable {s : State} {t : Nat} {tm : Team} (cause : Nat) (h : listAt s.teams t = some tm)
include h

/-- What a kill does with the team's doings undone. -/
theorem killTeam_eq : killTeam s t cause =
    match launchOf (undone s tm) tm.lid with
    | none => { undone s tm with teams := (undone s tm).teams.filter fun x => !(x.lid == tm.lid && x.tid == tm.tid) }
    | some l =>
      if l.record.idem ∧ !tm.escaped ∧ tm.relaunches < l.record.retry ∧ fitsAgain (undone s tm) tm ∧ !l.cancelled then
        { undone s tm with
          stamp := (undone s tm).stamp + 1
          teams := listSet (undone s tm).teams t (relaunched (undone s tm) tm l cause) }
      else escalate (undone s tm) tm.lid cause tm.tid := by
  unfold killTeam
  rw [h]
  rfl

/-- The kill of a team whose launch is gone drops the team. -/
theorem killTeam_launchless (hl : launchOf s tm.lid = none) : killTeam s t cause =
    { undone s tm with teams := s.teams.filter fun x => !(x.lid == tm.lid && x.tid == tm.tid) } := by
  rw [killTeam_eq cause h, launchOf_undone, hl, undone_teams]
  rfl

variable {l : Launch} (hl : launchOf s tm.lid = some l)
include hl

/-- The kill of a team that R219 lets run again puts it back in QUEUED. -/
theorem killTeam_relaunched (hr : RunsAgain s tm l) : killTeam s t cause =
    { undone s tm with
      stamp := (undone s tm).stamp + 1
      teams := listSet s.teams t (relaunched (undone s tm) tm l cause) } := by
  rw [killTeam_eq cause h, launchOf_undone, hl, undone_teams]
  exact if_pos ((runsAgain_undone l).mpr hr)

/-- The kill of another team is escalated. -/
theorem killTeam_escalated (hr : ¬RunsAgain s tm l) : killTeam s t cause = escalate (undone s tm) tm.lid cause tm.tid := by
  rw [killTeam_eq cause h, launchOf_undone, hl]
  exact if_neg (mt (runsAgain_undone l).mp hr)

/-- A kill relaunches the team or escalates its fault, as R219 has it. -/
theorem killTeam_teamKilled : TeamKilled s (killTeam s t cause) t tm cause := by
  intro l' hl' again
  obtain rfl : l = l' := Option.some.inj (hl.symm.trans hl')
  refine ⟨fun hr => ?_, fun hr => ?_⟩
  · rw [killTeam_relaunched cause h hl hr]
    refine ⟨relaunched (undone s tm) tm l cause, ?_, rfl, rfl, rfl, rfl, rfl, rfl, rfl, rfl, rfl, rfl, rfl⟩
    rw [listAt_set_self, h, Option.map_some]
  · have hu : launchOf (undone s tm) tm.lid = some (forgetGroups tm.tid l) := by rw [launchOf_undone, hl]; rfl
    rw [killTeam_escalated cause h hl hr, escalate_teams, launchOf_escalate hu]
    refine ⟨fun x hx => by simpa using (List.mem_filter.mp hx).2, _, rfl, cancelledBy_cancelled _ _ _, fun hc => ?_⟩
    have hc : (forgetGroups tm.tid l).cancelled = false := hc
    simp [cancelledBy, hc]

end

/-- The teams after a kill: the killed one waits in QUEUED in its place, or teams are gone by their identifiers, it among them. -/
theorem killTeam_teams {s : State} {t : Nat} {tm : Team} (cause : Nat) (h : listAt s.teams t = some tm) :
    (∃ x : Team, (killTeam s t cause).teams = listSet s.teams t x ∧ x.st = .queued ∧ x.lid = tm.lid ∧ x.tid = tm.tid) ∨
    ∃ keep : Nat → Nat → Bool, (killTeam s t cause).teams = s.teams.filter (fun x => keep x.lid x.tid) ∧
      keep tm.lid tm.tid = false := by
  cases hl : launchOf s tm.lid with
  | none =>
    rw [killTeam_launchless cause h hl]
    exact .inr ⟨fun lid tid => !(lid == tm.lid && tid == tm.tid), rfl, by simp⟩
  | some l =>
    by_cases hr : RunsAgain s tm l
    · rw [killTeam_relaunched cause h hl hr]
      exact .inl ⟨_, rfl, rfl, rfl, rfl⟩
    · rw [killTeam_escalated cause h hl hr, escalate_teams, undone_teams]
      exact .inr ⟨fun lid _ => lid != tm.lid, rfl, by simp⟩

/-- A kill leaves the module's own registers. -/
theorem KillFrame.killTeam (s : State) (t cause : Nat) : KillFrame s (Machine.killTeam s t cause) := by
  cases h : listAt s.teams t with
  | none =>
    unfold Machine.killTeam
    rw [h]
    exact refl s
  | some tm =>
    cases hl : launchOf s tm.lid with
    | none =>
      rw [killTeam_launchless cause h hl]
      exact (KillFrame.undone s tm).trans (of_rest rfl rfl rfl)
    | some l =>
      by_cases hr : RunsAgain s tm l
      · rw [killTeam_relaunched cause h hl hr]
        exact (KillFrame.undone s tm).trans (of_rest rfl rfl rfl)
      · rw [killTeam_escalated cause h hl hr]
        exact (KillFrame.undone s tm).trans (.escalate _ _ _ _)

/-! ### The team of an identifier after a kill -/

theorem find?_eq_listFind {α : Type} (p : α → Bool) : ∀ (l : List α) (k : Nat),
    l.find? p = (listFind p l k).bind fun n => listAt l (n - k)
  | [], _ => rfl
  | y :: l, k => by
    simp only [listFind, List.find?_cons]
    cases hy : p y with
    | true => simp [listAt]
    | false =>
      simp only [Bool.false_eq_true, if_false, find?_eq_listFind p l (k + 1)]
      refine Option.bind_congr fun n hn => ?_
      obtain ⟨-, -, -, hk⟩ := listFind_some hn
      have hn : n - k = (n - (k + 1)) + 1 := by omega
      rw [hn]
      rfl

theorem teamBy_eq_teamIdx (s : State) (lid tid : Nat) : teamBy s lid tid = (teamIdx s lid tid).bind (listAt s.teams) :=
  find?_eq_listFind _ _ 0

/-- The first element that meets a test, where it has been replaced by one that does too. -/
theorem find?_listSet_first {α : Type} {p : α → Bool} {x : α} (hx : p x = true) : ∀ {l : List α} {k n : Nat},
    listFind p l k = some n → (listSet l (n - k) x).find? p = some x
  | y :: l, k, n, h => by
    simp only [listFind] at h
    split at h
    · obtain rfl := Option.some.inj h
      simp [listSet, hx]
    · next hy =>
      obtain ⟨-, -, -, hk⟩ := listFind_some h
      have hn : n - k = (n - (k + 1)) + 1 := by omega
      rw [hn]
      simp only [listSet, List.find?_cons, hy]
      exact find?_listSet_first hx h

/-- Where an element is replaced by one that meets a test as it did, the first that meets the test is the new one or the same. -/
theorem find?_listSet {α : Type} {p : α → Bool} {x y : α} (hxy : p x = p y) : ∀ {l : List α} {n : Nat},
    listAt l n = some y → (listSet l n x).find? p = some x ∨ (listSet l n x).find? p = l.find? p
  | z :: l, 0, h => by
    obtain rfl := Option.some.inj h
    simp only [listSet, List.find?_cons, hxy]
    cases p z
    · exact .inr rfl
    · exact .inl rfl
  | z :: l, n + 1, h => by
    simp only [listSet, List.find?_cons]
    cases p z
    · exact find?_listSet hxy (n := n) h
    · exact .inr rfl

/-- The team of an identifier, if any, waits in QUEUED. -/
def Requeued (lid tid : Nat) (s : State) : Prop := ∀ x, teamBy s lid tid = some x → x.st = .queued

/-- Dropping teams by a test of their identifiers leaves the team of an identifier or none. -/
theorem teamBy_filter {s u : State} {keep : Nat → Nat → Bool} (hu : u.teams = s.teams.filter fun x => keep x.lid x.tid)
    (lid tid : Nat) : teamBy u lid tid = if keep lid tid then teamBy s lid tid else none := by
  have hsame (x : Team) : (keep x.lid x.tid = true ∧ (x.lid == lid && x.tid == tid) = true) ↔
      (keep lid tid = true ∧ (x.lid == lid && x.tid == tid) = true) := by
    simp only [Bool.and_eq_true, beq_iff_eq]
    refine and_congr_left fun ⟨hlid, htid⟩ => ?_
    rw [hlid, htid]
  rw [teamBy, hu, List.find?_filter]
  simp only [hsame]
  cases keep lid tid with
  | true => simp only [true_and, Bool.decide_eq_true, if_true, teamBy]
  | false => simp

/-- A kill leaves a team that waits to run again in QUEUED, or ends it. -/
theorem Requeued.killTeam {s : State} {lid tid : Nat} (hq : Requeued lid tid s) (t cause : Nat) :
    Requeued lid tid (Machine.killTeam s t cause) := by
  intro y hy
  cases h : listAt s.teams t with
  | none =>
    simp only [Machine.killTeam, h] at hy
    exact hq y hy
  | some tm =>
    obtain ⟨x, hteams, hx, hlid, htid⟩ | ⟨keep, hteams, -⟩ := killTeam_teams cause h
    · rw [teamBy, hteams] at hy
      obtain hfind | hfind := find?_listSet (p := fun x => x.lid == lid && x.tid == tid) (x := x) (by rw [hlid, htid]) h
      · obtain rfl := Option.some.inj (hfind.symm.trans hy)
        exact hx
      · exact hq y (hfind.symm.trans hy)
    · rw [teamBy_filter hteams, Option.ite_none_right_eq_some] at hy
      exact hq y hy.2

/-- A kill puts its team in QUEUED, or ends it. -/
theorem requeued_killTeam {s : State} {lid tid t : Nat} (ht : teamIdx s lid tid = some t) (cause : Nat) :
    Requeued lid tid (killTeam s t cause) := by
  intro y hy
  obtain ⟨tm, h, rfl, rfl⟩ := teamIdx_spec ht
  obtain ⟨x, hteams, hx, hlid, htid⟩ | ⟨keep, hteams, hkeep⟩ := killTeam_teams cause h
  · have hfind := find?_listSet_first (x := x) (by simp only [hlid, htid, beq_self_eq_true, Bool.and_self]) ht
    rw [teamBy, hteams] at hy
    obtain rfl := Option.some.inj (hfind.symm.trans hy)
    exact hx
  · simp [teamBy_filter hteams, hkeep] at hy

/-! ### The loss of a core (R219, R230, R231) -/

/-- An unrecoverable fault of a team that is there fires the plumb line and kills it. -/
theorem unrecoverable_eq {s : State} {lid tid t : Nat} {tm : Team} (ht : teamIdx s lid tid = some t) (h : listAt s.teams t = some tm)
    (code : Nat) : unrecoverable s lid tid code = killTeam (plumbEvent s tm code) t code := by
  simp only [unrecoverable, ht, h]

/-- A fault of a team that is not there has no effect. -/
theorem unrecoverable_absent {s : State} {lid tid : Nat} (ht : teamIdx s lid tid = none) (code : Nat) :
    unrecoverable s lid tid code = s := by
  simp only [unrecoverable, ht]

theorem KillFrame.unrecoverable (s : State) (lid tid code : Nat) : KillFrame s (Machine.unrecoverable s lid tid code) := by
  cases ht : teamIdx s lid tid with
  | none =>
    rw [unrecoverable_absent ht]
    exact refl s
  | some t =>
    obtain ⟨tm, h, -, -⟩ := teamIdx_spec ht
    rw [unrecoverable_eq ht h]
    exact (plumbEvent s tm code).trans (killTeam _ t code)

theorem requeued_plumbEvent (s : State) (tm : Team) (code lid tid : Nat) :
    Requeued lid tid (plumbEvent s tm code) ↔ Requeued lid tid s := by
  simp only [Requeued, teamBy, plumbEvent_teams]

theorem Requeued.unrecoverable {s : State} {lid tid : Nat} (hq : Requeued lid tid s) (lid' tid' code : Nat) :
    Requeued lid tid (Machine.unrecoverable s lid' tid' code) := by
  cases ht : teamIdx s lid' tid' with
  | none =>
    rw [unrecoverable_absent ht]
    exact hq
  | some t =>
    obtain ⟨tm, h, -, -⟩ := teamIdx_spec ht
    rw [unrecoverable_eq ht h]
    exact Requeued.killTeam ((requeued_plumbEvent s tm code lid tid).mpr hq) t code

/-- An unrecoverable fault puts its team in QUEUED, or ends it. -/
theorem requeued_unrecoverable (s : State) (lid tid code : Nat) : Requeued lid tid (unrecoverable s lid tid code) := by
  cases ht : teamIdx s lid tid with
  | none =>
    rw [unrecoverable_absent ht]
    intro x hx
    simp [teamBy_eq_teamIdx, ht] at hx
  | some t =>
    obtain ⟨tm, h, -, -⟩ := teamIdx_spec ht
    rw [unrecoverable_eq ht h]
    exact requeued_killTeam (by simpa only [teamIdx, plumbEvent_teams] using ht) code

/-- An unrecoverable fault kills its team as R219 has it. -/
theorem teamKilled_unrecoverable {s : State} {t : Nat} {tm : Team} (ht : teamIdx s tm.lid tm.tid = some t)
    (h : listAt s.teams t = some tm) (code : Nat) : TeamKilled s (unrecoverable s tm.lid tm.tid code) t tm code := by
  intro l hl
  rw [unrecoverable_eq ht h]
  have hkilled := killTeam_teamKilled (s := plumbEvent s tm code) (tm := tm) code (by rwa [plumbEvent_teams])
    ((launchOf_plumbEvent s tm code tm.lid).trans hl) l ((launchOf_plumbEvent s tm code tm.lid).trans hl)
  simpa only [(KillFrame.plumbEvent s tm code).cptOf_eq, (KillFrame.plumbEvent s tm code).clusterPresent_eq] using hkilled

/-- What a fold over a list establishes for each element, where its further steps keep it. -/
theorem foldl_establishes {α σ : Type} {P : α → σ → Prop} {f : σ → α → σ} (hstep : ∀ s a, P a (f s a))
    (hkeep : ∀ s a b, P a s → P a (f s b)) : ∀ (l : List α) (s : σ), ∀ a ∈ l, P a (l.foldl f s)
  | b :: l, s, a, ha => by
    obtain rfl | ha := List.mem_cons.mp ha
    · exact fold_keeps (fun s b => hkeep s a b) l _ (hstep s a)
    · exact foldl_establishes hstep hkeep l _ a ha

/-- The state in which a lost core's teams are killed. -/
def coreGone (s : State) (core : Nat) : State :=
  { dropCore s core with lostCores := setAdd s.lostCores core, recovering := s.recovering ||| (1#24 <<< (core / 8)) }

/-- The resident teams of a core. -/
def teamsOn (s : State) (core : Nat) : List Team := s.teams.filter fun tm => resident tm && tm.core == core

/-- The loss of a core that is not present, or already lost, has no effect. -/
theorem coreLost_ignored {s : State} {core : Nat}
    (h : 192 ≤ core ∨ corePresent s core = false ∨ s.lostCores.contains core = true) : exec (.coreLost core) s = .next s := by
  refine congrArg _ (if_pos ?_)
  simpa only [ge_iff_le, Bool.not_eq_true'] using h

section
variable {s : State} {core : Nat} (hc : core < 192) (hp : corePresent s core = true) (hl : s.lostCores.contains core = false)
include hc hp hl

theorem coreLost_eq : exec (.coreLost core) s =
    .next ((teamsOn s core).foldl (fun u tm => unrecoverable u tm.lid tm.tid 0x12) (coreGone s core)) := by
  refine congrArg _ (if_neg ?_)
  simp only [hp, hl, Bool.not_true, Bool.false_eq_true, or_false]
  omega

/-- The loss of a present core: its caches' sectors are gone, its cluster recovers, and its resident teams are killed. -/
theorem coreLost_taken : ∃ t, exec (.coreLost core) s = .next t ∧
    t.lostCores = setAdd s.lostCores core ∧ t.recovering.getLsbD (core / 8) = true ∧ t.coreMap = s.coreMap ∧
    (∀ e ∈ t.l1, e.core ≠ core) ∧
    (∀ tm ∈ s.teams, resident tm = true → tm.core = core →
      ∀ k x, teamIdx t tm.lid tm.tid = some k → listAt t.teams k = some x → x.st = .queued) ∧
    (∀ tm k, teamsOn s core = [tm] → teamIdx s tm.lid tm.tid = some k →
      listAt s.teams k = some tm → TeamKilled s t k tm 0x12) := by
  refine ⟨_, coreLost_eq hc hp hl, ?_⟩
  have hframe : KillFrame (coreGone s core)
      ((teamsOn s core).foldl (fun u tm => unrecoverable u tm.lid tm.tid 0x12) (coreGone s core)) :=
    fold_keeps (fun u tm h => h.trans (.unrecoverable u tm.lid tm.tid 0x12)) _ _ (.refl _)
  refine ⟨hframe.lostCores_eq, ?_, hframe.coreMap_eq, fun e he => ?_, fun tm htm hres hcore k x hk hx => ?_, fun tm k honly ht h => ?_⟩
  · rw [hframe.recovering_eq]
    have : core / 8 < 24 := by omega
    simp [coreGone, this]
  · obtain ⟨x, hx, hcore⟩ := hframe.l1 e he
    rw [← hcore]
    simpa using (List.mem_filter.mp hx).2
  · refine foldl_establishes (P := fun tm u => Requeued tm.lid tm.tid u) (fun u tm => requeued_unrecoverable u tm.lid tm.tid 0x12)
      (fun u tm b hq => hq.unrecoverable b.lid b.tid 0x12) (teamsOn s core) (coreGone s core) tm ?_ x ?_
    · exact List.mem_filter.mpr ⟨htm, by simp [hres, hcore]⟩
    · rw [teamBy_eq_teamIdx, hk, Option.bind_some, hx]
  · rw [honly]
    exact teamKilled_unrecoverable (s := coreGone s core) ht h 0x12

end

/-! ### The end of recovery (R219, R230, R231) -/

theorem settleCore_lostCores (s : State) (core : Nat) : (settleCore s core).lostCores = s.lostCores := by
  unfold settleCore
  dsimp only
  split <;> rfl

/-- The state in which the end of a cluster's recovery has settled its lost cores. -/
def coresSettled (s : State) (cl : Nat) : State :=
  let u := (s.lostCores.filter fun c => c / 8 == cl).foldl settleCore s
  { u with lostCores := u.lostCores.filter fun c => c / 8 != cl, recovering := u.recovering &&& ~~~(1#24 <<< cl) }

theorem coresSettled_lostCores (s : State) (cl : Nat) : (coresSettled s cl).lostCores = s.lostCores.filter fun c => c / 8 != cl :=
  congrArg (List.filter _)
    (fold_keeps (P := fun u : State => u.lostCores = s.lostCores) (fun u c h => (settleCore_lostCores u c).trans h) _ _ rfl)

section
variable {s : State} {cl c : Nat} (hone : (s.lostCores.filter fun c => c / 8 == cl) = [c])
include hone

theorem cluster_of_only_lost : c / 8 = cl := by
  have hc : c ∈ s.lostCores.filter fun c => c / 8 == cl := by rw [hone]; exact List.mem_singleton_self c
  simpa using (List.mem_filter.mp hc).2

/-- Where one core was lost and the spare is unused, it stands in (R231). -/
theorem coresSettled_spare (h : s.sparesUsed.getLsbD cl = false) : coresSettled s cl =
    { s with sparesUsed := s.sparesUsed ||| (1#24 <<< cl), spare := true
             lostCores := s.lostCores.filter fun c => c / 8 != cl, recovering := s.recovering &&& ~~~(1#24 <<< cl) } := by
  obtain rfl := cluster_of_only_lost hone
  simp only [coresSettled, hone, List.foldl_cons, List.foldl_nil, settleCore, h, Bool.false_eq_true, if_false]

/-- Where one core was lost and the spare has been used, the core becomes absent (R231). -/
theorem coresSettled_absent (h : s.sparesUsed.getLsbD cl = true) : coresSettled s cl =
    { requestReplacement { s with coreMap := s.coreMap &&& ~~~(1#192 <<< c), lost := s.lost + 1 } with
      lostCores := s.lostCores.filter fun c => c / 8 != cl, recovering := s.recovering &&& ~~~(1#24 <<< cl) } := by
  obtain rfl := cluster_of_only_lost hone
  simp only [coresSettled, hone, List.foldl_cons, List.foldl_nil, settleCore, h, if_true]
  rfl

end

/-- Escalates the loss that a stranded team met, where the team is still there. -/
def endStranded (s : State) (tm : Team) : State :=
  if (teamBy s tm.lid tm.tid).isSome then escalate s tm.lid (strandedCause tm) tm.tid else s

/-- Escalates what every stranded team of a state met. -/
def endAllStranded (s : State) : State := (s.teams.filter (strandedTeam s)).foldl endStranded s

theorem KillFrame.endStranded (s : State) (tm : Team) : KillFrame s (Machine.endStranded s tm) := by
  unfold Machine.endStranded
  split
  · exact escalate _ _ _ _
  · exact refl s

theorem KillFrame.endAllStranded (s : State) : KillFrame s (Machine.endAllStranded s) :=
  fold_keeps (fun u tm h => h.trans (.endStranded u tm)) _ _ (refl s)

theorem mem_teams_of_endStranded {s : State} {tm x : Team} (h : x ∈ (endStranded s tm).teams) : x ∈ s.teams := by
  unfold endStranded at h
  split at h
  · rw [escalate_teams] at h
    exact (List.mem_filter.mp h).1
  · exact h

/-- A stranded team is gone once what it met is escalated. -/
theorem endStranded_gone (s : State) (tm : Team) : tm ∉ (endStranded s tm).teams := by
  unfold endStranded
  split
  · rw [escalate_teams]
    exact fun h => by simpa using (List.mem_filter.mp h).2
  next habsent =>
    intro h
    refine habsent (List.find?_isSome.mpr ⟨tm, h, ?_⟩)
    simp only [beq_self_eq_true, Bool.and_self]

/-- No team is stranded once what every stranded team met is escalated. -/
theorem endAllStranded_none (s : State) : ∀ tm ∈ (endAllStranded s).teams, strandedTeam s tm = false := by
  intro tm htm
  have hteam : tm ∈ s.teams :=
    fold_keeps (P := fun u : State => ∀ x ∈ u.teams, x ∈ s.teams) (fun _ _ h x hx => h x (mem_teams_of_endStranded hx)) _ _
      (fun _ hx => hx) tm htm
  refine Bool.eq_false_iff.mpr fun hst => ?_
  exact foldl_establishes (P := fun tm u => tm ∉ u.teams) endStranded_gone
    (fun _ _ _ h hb => h (mem_teams_of_endStranded hb)) _ s tm (List.mem_filter.mpr ⟨hteam, hst⟩) htm

/-- A launch with status 0x03 and nothing left to place (R210). -/
def placedOut (l : Launch) : Launch := { l with status := 3, nextTid := l.record.tcount }

theorem placedOut_lid (l : Launch) : (placedOut l).lid = l.lid := rfl
theorem placedOut_record (l : Launch) : (placedOut l).record = l.record := rfl

/-- A launch with teams left to place that no cluster can hold. -/
def unplaceable (s : State) (l : Launch) : Bool :=
  !l.cancelled && decide (l.nextTid < l.record.tcount) &&
    !((List.range 24).any fun cl => decide (l.record.cpt ≤ clusterPresent s cl))

theorem markUnplaceable_eq (s : State) :
    markUnplaceable s = (s.launches.filter (unplaceable s)).foldl (fun u l => modLaunch u l.lid placedOut) s := rfl

theorem KillFrame.markUnplaceable (s : State) : KillFrame s (Machine.markUnplaceable s) := by
  rw [markUnplaceable_eq]
  exact fold_keeps (fun u l h => h.trans (modLaunch u l.lid placedOut_lid placedOut_record)) _ _ (refl s)

theorem markUnplaceable_teams (s : State) : (markUnplaceable s).teams = s.teams := by
  rw [markUnplaceable_eq]
  exact fold_keeps (P := fun u : State => u.teams = s.teams) (f := fun u (l : Launch) => modLaunch u l.lid placedOut)
    (fun _ _ h => h) _ _ rfl

/-- A launch after an update of the launches of an identifier is an updated one or one that stood there. -/
theorem mem_modLaunch_placedOut {s : State} {lid : Nat} {x : Launch} (h : x ∈ (modLaunch s lid placedOut).launches) :
    x.nextTid = x.record.tcount ∨ x ∈ s.launches ∧ x.lid ≠ lid := by
  obtain ⟨l, hl, rfl⟩ := List.mem_map.mp h
  split
  · exact .inl rfl
  next hne => exact .inr ⟨hl, by simpa using hne⟩

/-- The launches of an identifier have nothing left to place. -/
def WhollyPlaced (lid : Nat) (s : State) : Prop := ∀ x ∈ s.launches, x.lid = lid → x.nextTid = x.record.tcount

/-- Once the unplaceable launches are marked, each with teams left to place is one that was there and that some cluster can hold. -/
theorem markUnplaceable_placeable {s : State} {l : Launch} (hl : l ∈ (markUnplaceable s).launches) (hc : l.cancelled = false)
    (hn : l.nextTid < l.record.tcount) : ∃ k < 24, l.record.cpt ≤ clusterPresent s k := by
  rw [markUnplaceable_eq] at hl
  have hold : l ∈ s.launches := by
    refine (fold_keeps (P := fun u : State => ∀ x ∈ u.launches, x.nextTid = x.record.tcount ∨ x ∈ s.launches) (fun u b h x hx => ?_)
      (s.launches.filter (unplaceable s)) s (fun x hx => .inr hx) l hl).resolve_left (by omega)
    exact (mem_modLaunch_placedOut hx).elim .inl fun hx => h x hx.1
  refine Classical.byContradiction fun hno => ?_
  have hun : unplaceable s l = true := by simpa [unplaceable, hc, hn] using hno
  have hplaced := foldl_establishes (P := fun l : Launch => WhollyPlaced l.lid)
    (f := fun u (l : Launch) => modLaunch u l.lid placedOut)
    (fun _ _ x hx hlid => (mem_modLaunch_placedOut hx).resolve_right fun h => h.2 hlid)
    (fun _ _ _ h x hx hlid => (mem_modLaunch_placedOut hx).elim id fun hx => h x hx.1 hlid)
    (s.launches.filter (unplaceable s)) s l (List.mem_filter.mpr ⟨hold, hun⟩) l hl rfl
  omega

/-- The end of recovery of a cluster that is not in recovery has no effect. -/
theorem recoveryEnd_ignored {s : State} {cl : Nat} (h : 24 ≤ cl ∨ s.recovering.getLsbD cl = false) :
    exec (.recoveryEnd cl) s = .next s := by
  refine congrArg _ (if_pos ?_)
  simpa only [ge_iff_le, Bool.not_eq_true'] using h

section
variable {s : State} {cl : Nat} (hcl : cl < 24) (hr : s.recovering.getLsbD cl = true)
include hcl hr

theorem recoveryEnd_eq : exec (.recoveryEnd cl) s = .next (markUnplaceable (endAllStranded (coresSettled s cl))) := by
  refine congrArg _ (if_neg ?_)
  simp only [hr, Bool.not_true, Bool.false_eq_true, or_false]
  omega

/-- The end of recovery settles the cluster's lost cores, ends the stranded teams' launches and marks the unplaceable ones. -/
theorem recoveryEnd_taken : ∃ t, exec (.recoveryEnd cl) s = .next t ∧ t.recovering.getLsbD cl = false ∧
    (∀ c, c ∈ t.lostCores ↔ c ∈ s.lostCores ∧ c / 8 ≠ cl) ∧
    (∀ c, (s.lostCores.filter fun c => c / 8 == cl) = [c] →
      (s.sparesUsed.getLsbD cl = false → t.coreMap = s.coreMap ∧ t.spare = true ∧ t.sparesUsed.getLsbD cl = true ∧
        t.req = s.req ∧ t.lost = s.lost ∧ t.outputs = s.outputs) ∧
      (s.sparesUsed.getLsbD cl = true → t.coreMap = s.coreMap &&& ~~~(1#192 <<< c) ∧ t.spare = s.spare ∧ t.req = true ∧
        t.lost = s.lost + 1 ∧ t.outputs = s.outputs ++ [.replacement])) ∧
    (∀ tm ∈ t.teams, strandedTeam t tm = false) ∧
    (∀ l ∈ t.launches, l.cancelled = false → l.nextTid < l.record.tcount → ∃ k < 24, l.record.cpt ≤ clusterPresent t k) := by
  refine ⟨_, recoveryEnd_eq hcl hr, ?_⟩
  have hmark : KillFrame (endAllStranded (coresSettled s cl)) (markUnplaceable (endAllStranded (coresSettled s cl))) :=
    .markUnplaceable _
  have hframe : KillFrame (coresSettled s cl) (markUnplaceable (endAllStranded (coresSettled s cl))) :=
    (KillFrame.endAllStranded _).trans hmark
  refine ⟨?_, fun c => ?_, fun c hone => ?_, fun tm htm => ?_, fun l hl hc hn => ?_⟩
  · rw [hframe.recovering_eq]
    simp [coresSettled, hcl]
  · rw [hframe.lostCores_eq, coresSettled_lostCores]
    simp
  · rw [hframe.coreMap_eq, hframe.spare_eq, hframe.sparesUsed_eq, hframe.req_eq, hframe.lost_eq, hframe.outputs_eq]
    refine ⟨fun h => ?_, fun h => ?_⟩
    · rw [coresSettled_spare hone h]
      exact ⟨rfl, rfl, by simp [hcl], rfl, rfl, rfl⟩
    · rw [coresSettled_absent hone h]
      exact ⟨rfl, rfl, rfl, rfl, rfl⟩
  · rw [markUnplaceable_teams] at htm
    rw [hframe.strandedTeam_eq]
    exact endAllStranded_none _ tm htm
  · obtain ⟨k, hk, hfits⟩ := markUnplaceable_placeable hl hc hn
    exact ⟨k, hk, by rwa [hmark.clusterPresent_eq]⟩

end

/-! ### Lost redundancy (R231) -/

theorem stackRedundancyLost_eq (s : State) (stack : BitVec 3) : exec (.stackRedundancyLost stack) s =
    .next (if s.stackMap.getLsbD stack.toNat = true then
      requestReplacement { s with stackMap := s.stackMap &&& ~~~(1#8 <<< stack.toNat) } else s) := rfl

theorem lpddrRedundancyLost_eq (s : State) : exec .lpddrRedundancyLost s =
    .next (if s.lpdeg = true then s else requestReplacement { s with lpdeg := true }) := rfl

/-! ### Uncorrectable errors in a team's storage (R105, R193, R229) -/

@[simp] theorem recordMatrix_st (tm : Team) (m : MatrixOp) (cls : Option EngineClass) : (recordMatrix tm m cls).st = tm.st := by
  unfold recordMatrix
  dsimp only
  split <;> rfl

/-- An error in a register that an instruction reads finishes the instruction, or, where it writes no tile, changes nothing (R193). -/
theorem failRegister_cases (tm : Team) (m : MatrixOp) (free : Nat → Word) :
    (tilesWritten tm m = [] ∧ failRegister tm m free = tm) ∨ ∃ u : Team, u.st = tm.st ∧ failRegister tm m free = finishMatrix u m := by
  unfold failRegister
  split
  next =>
    refine .inr ⟨_, ?_, rfl⟩
    exact recordMatrix_st _ _ _
  next =>
    refine .inr ⟨_, ?_, rfl⟩
    exact recordMatrix_st _ _ _
  next hnone _ => exact .inl ⟨hnone, rfl⟩

/-- An instruction of the sequencer that reads registers and may take a step. -/
def ReadsNow (tm : Team) (m : MatrixOp) : Prop :=
  (tm.st = .running ∨ tm.st = .retiring) ∧ m.reads ≠ [] ∧ mayStep tm m = true

/-- The event's own test that an instruction does not read now. -/
theorem not_readsNow_iff (tm : Team) (m : MatrixOp) :
    ¬ReadsNow tm m ↔ (tm.st ≠ .running ∧ tm.st ≠ .retiring) ∨ m.reads.isEmpty = true ∨ (!mayStep tm m) = true := by
  simp only [ReadsNow, Classical.not_and_iff_not_or_not, not_or, ne_eq, Classical.not_not, List.isEmpty_iff, Bool.not_eq_true',
    Bool.not_eq_true]

section
variable {s : State} {lid tid t : Nat} {tm : Team} (ht : teamIdx s lid tid = some t)
include ht

theorem accumulatorError_eq (tile row : Nat) : exec (.accumulatorUncorrectableError lid tid tile row) s =
    .next (modTeam s t fun tm =>
      if resident tm && decide (tile < tm.acct) && decide (row < 64) && !tm.badRows.contains (tile, row) then
        { tm with badRows := tm.badRows ++ [(tile, row)] } else tm) := by
  show execAccumulatorUncorrectableError lid tid tile row s = _
  simp only [execAccumulatorUncorrectableError, ht]

variable (h : listAt s.teams t = some tm)
include h

theorem scratchpadError_eq (line : Nat) : exec (.scratchpadUncorrectableError lid tid line) s =
    .next (if resident tm = true ∧ line < tm.lines then
      { (modTeam s t fun tm => setFill tm line tagFaulted) with uecount := s.uecount + 1 } else s) := by
  show execScratchpadUncorrectableError lid tid line s = _
  simp only [execScratchpadUncorrectableError, ht, h, Option.any_some, Bool.and_eq_true, decide_eq_true_eq]
  rfl

theorem registerError_eq : exec (.registerUncorrectableError (lid, tid) none) s =
    .next (if hasContext tm then killTeam s t 0 else s) := by
  show execRegisterUncorrectableError (lid, tid) none s = _
  simp only [execRegisterUncorrectableError, ht, h, Option.bind_some, Option.map_some]

theorem registerError_outside (hst : tm.st = .queued ∨ tm.st = .preload) :
    exec (.registerUncorrectableError (lid, tid) none) s = .next s := by
  rw [registerError_eq ht h, if_neg]
  obtain hst | hst := hst <;> simp [hasContext, hst]

theorem registerError_kills (hq : tm.st ≠ .queued) (hp : tm.st ≠ .preload) :
    ∃ u, exec (.registerUncorrectableError (lid, tid) none) s = .next u ∧ TeamKilled s u t tm 0 := by
  rw [registerError_eq ht h, if_pos (by simp [hasContext, hq, hp])]
  exact ⟨_, rfl, fun l hl => killTeam_teamKilled 0 h hl l hl⟩

theorem matrixReadError_absent {n : Nat} (hm : (tm.mops.find? fun m => m.id == n) = none) :
    exec (.registerUncorrectableError (lid, tid) (some n)) s = .next s := by
  show execRegisterUncorrectableError (lid, tid) (some n) s = _
  simp only [execRegisterUncorrectableError, ht, h, Option.bind_some, Option.map_some, hm]

variable {n : Nat} {m : MatrixOp} (hm : (tm.mops.find? fun m => m.id == n) = some m)
include hm

theorem matrixReadError_eq : exec (.registerUncorrectableError (lid, tid) (some n)) s =
    .next (if (tm.st ≠ .running ∧ tm.st ≠ .retiring) ∨ m.reads.isEmpty ∨ !mayStep tm m then s
      else
        { modTeam s t (fun tm => failRegister tm m fun x => (Config.freeValue (s.freeCtr + x)).setWidth 32) with
          freeCtr := s.freeCtr + 8192 }) := by
  show execRegisterUncorrectableError (lid, tid) (some n) s = _
  simp only [execRegisterUncorrectableError, ht, h, Option.bind_some, Option.map_some, hm]

theorem matrixReadError_ignored (hs : ¬ReadsNow tm m) : exec (.registerUncorrectableError (lid, tid) (some n)) s = .next s := by
  exact (matrixReadError_eq ht h hm).trans (congrArg _ (if_pos ((not_readsNow_iff tm m).mp hs)))

theorem matrixReadError_taken (hs : ReadsNow tm m) :
    ∃ u tm', exec (.registerUncorrectableError (lid, tid) (some n)) s = .next u ∧ listAt u.teams t = some tm' ∧
      u.freeCtr = s.freeCtr + 8192 ∧ tm'.st = tm.st ∧ (tilesWritten tm m ≠ [] → ∀ x ∈ tm'.mops, x.id ≠ n) ∧
      tm' = failRegister tm m fun x => (Config.freeValue (s.freeCtr + x)).setWidth 32 := by
  let free (x : Nat) : Word := (Config.freeValue (s.freeCtr + x)).setWidth 32
  have hid : m.id = n := by simpa using List.find?_some hm
  have hreads := fun hno => (not_readsNow_iff tm m).mpr hno hs
  refine ⟨_, failRegister tm m free, (matrixReadError_eq ht h hm).trans (congrArg _ (if_neg hreads)), ?_, rfl, ?_,
    fun hw x hx => ?_, rfl⟩
  · exact (listAt_modify_self _ _ _).trans (congrArg _ h)
  · obtain ⟨-, hf⟩ | ⟨u, hu, hf⟩ := failRegister_cases tm m free
    · rw [hf]
    · rw [hf]
      exact hu
  · obtain ⟨hnone, -⟩ | ⟨u, -, hf⟩ := failRegister_cases tm m free
    · exact absurd hnone hw
    · rw [hf] at hx
      rw [← hid]
      simpa using (List.mem_filter.mp hx).2

end

/-! ### Uncorrectable errors in memory (R113, R115) -/

theorem dramError_eq (s : State) (sector : Nat) : exec (.dramUncorrectableError sector) s =
    .next (if isFast (32 * sector) = true ∨ isCap (32 * sector) = true then
      { setPoison s sector true with uecount := s.uecount + 1 } else s) := rfl

section
variable {s : State} {sector : Nat}

theorem l2Error_hit {e : CacheSector} (he : l2Find s sector = some e) : exec (.cacheUncorrectableError none sector) s =
    .next { l2Put s { e with poison := true } with uecount := s.uecount + 1 } := by
  show execCacheUncorrectableError none sector s = _
  simp only [execCacheUncorrectableError, he]
  rfl

theorem l2Error_miss (he : l2Find s sector = none) : exec (.cacheUncorrectableError none sector) s = .next s := by
  show execCacheUncorrectableError none sector s = _
  simp only [execCacheUncorrectableError, he]

theorem l1Error_hit {core : Nat} {e : CacheSector} (he : l1Find s core sector = some e) :
    exec (.cacheUncorrectableError (some core) sector) s =
      .next { l1Put s { e with poison := true } with uecount := s.uecount + 1 } := by
  show execCacheUncorrectableError (some core) sector s = _
  simp only [execCacheUncorrectableError, he]
  rfl

theorem l1Error_miss {core : Nat} (he : l1Find s core sector = none) :
    exec (.cacheUncorrectableError (some core) sector) s = .next s := by
  show execCacheUncorrectableError (some core) sector s = _
  simp only [execCacheUncorrectableError, he]

end

/-! ### An event at a team that is not there -/

theorem teamError_absent {s : State} {lid tid : Nat} (ht : teamIdx s lid tid = none) (line tile row n : Nat) :
    exec (.scratchpadUncorrectableError lid tid line) s = .next s ∧
      exec (.accumulatorUncorrectableError lid tid tile row) s = .next s ∧
      exec (.registerUncorrectableError (lid, tid) none) s = .next s ∧
      exec (.registerUncorrectableError (lid, tid) (some n)) s = .next s := by
  have hreg (op : Option Nat) : execRegisterUncorrectableError (lid, tid) op s = .next s := by
    simp only [execRegisterUncorrectableError, ht, Option.bind_none]
  refine ⟨?_, ?_, hreg none, hreg (some n)⟩
  · show execScratchpadUncorrectableError lid tid line s = .next s
    simp only [execScratchpadUncorrectableError, ht]
  · show execAccumulatorUncorrectableError lid tid tile row s = .next s
    simp only [execAccumulatorUncorrectableError, ht]

/-- Settles O49: each event goes to the lemma of its case; what a loss and a recovery keep comes from the frame of the kills. -/
theorem healthEvents : Obligations.HealthEvents := by
  intro s lid tid line core cl sector tile row n stack out report
  refine ⟨coreLost_ignored, coreLost_taken, recoveryEnd_ignored, recoveryEnd_taken, stackRedundancyLost_eq s stack,
    lpddrRedundancyLost_eq s, fun t tm ht h => ?team, fun ht => teamError_absent ht line tile row n, ?dram,
    fun e => l2Error_hit, l2Error_miss, fun e => l1Error_hit, l1Error_miss⟩
  case team =>
    exact ⟨scratchpadError_eq ht h line, accumulatorError_eq ht tile row, registerError_outside ht h, registerError_kills ht h,
      matrixReadError_absent ht h, fun m hm => ⟨matrixReadError_ignored ht h hm, matrixReadError_taken ht h hm⟩⟩
  case dram =>
    exact ⟨fun hm => (dramError_eq s sector).trans (congrArg _ (if_pos hm)),
      fun hm => (dramError_eq s sector).trans (congrArg _ (if_neg hm))⟩

end Sys2Proof.Machine

/-!
The range instructions (R124, R125, R157, R350, R351, R354): the checks that each makes of its range, what the range unit answers with
and the state in which it answers, and what a word of the unit makes of the answer.
-/
namespace Sys2Proof.Machine

/-- A word that each stream executes once traps, in the state that its effect so far has left. -/
theorem once_trapsIn {i : Instr} {info : EInfo} {fs : BitVec 1} {body : Issuer → State → ERes} {s : State} {cond : Issuer → Prop}
    {dest : Issuer → State} {cause : Cause} {addr : Nat} {cls : Option EngineClass} (he : exec i s = onceWord i info fs body s)
    (hb : ∀ x, cond x → body x s = .trapIn (dest x) cause addr cls) : OnceTrapsIn i s info fs cause addr cls cond dest := by
  refine ⟨fun c h h0 hx => ?gang, fun k h hx => ?hawk⟩
  case gang =>
    rw [he, onceWord, bothWord_runs h]
    cases cls <;> simp only [if_neg h0, hb _ hx, toGang, finish]
  case hawk =>
    rw [he, onceWord, bothWord_hawk_runs h]
    cases cls <;> simp only [hb _ hx, toHawk, finishHawk]

/-! ### The checks of every range instruction (R124) -/

section
variable {s : State} {tm : Team} {align ga : Nat} {ops : List Nat} {k : Nat → Nat → RangeEntry → RangeRes}

theorem goodOperand {x : Nat} (h : x % align = 0) (hx : x < 2 ^ 56) : [x].any (badOperand align) = false := by
  simpa [badOperand, h] using hx

theorem misalignedOperand {x : Nat} (h : x % align ≠ 0) : [x].any (badOperand align) = true := by
  simp [badOperand, h]

/-- A misaligned operand, or one beyond the address space, is ILLEGAL_OPERAND. -/
theorem onRange_illegal (h : (ga :: ops).any (badOperand align) = true) : onRange s tm align (ga :: ops) k = .trap .illegalOperand 0 :=
  if_pos h

variable (hops : (ga :: ops).any (badOperand align) = false)
include hops

theorem onRange_noRange (hf : findRange s (asidOf s tm) ga = none) : onRange s tm align (ga :: ops) k = .trap .noRange ga := by
  simp only [onRange, hops, List.headD_cons, hf, Bool.false_eq_true, if_false]

variable {n : Nat} {e : RangeEntry} (hf : findRange s (asidOf s tm) ga = some (n, e))
include hf

theorem onRange_busy (hb : e.st = rsMigrating ∨ rangeBusy s (asidOf s tm) e.base = true) :
    onRange s tm align (ga :: ops) k = .busy [e.base] := by
  simp only [onRange, hops, List.headD_cons, hf, if_pos hb, Bool.false_eq_true, if_false]

variable (hst : e.st ≠ rsMigrating) (hidle : rangeBusy s (asidOf s tm) e.base = false)
include hst hidle

theorem onRange_permission (hsys : sysMode s tm = false) (hself : e.self = false) :
    onRange s tm align (ga :: ops) k = .trap .rangePermission ga := by
  simp [onRange, hops, hf, hst, hidle, hsys, hself]

theorem onRange_allowed (h : sysMode s tm = true ∨ e.self = true) : onRange s tm align (ga :: ops) k = k (asidOf s tm) n e := by
  have hmay : (!sysMode s tm && !e.self) = false := by
    obtain h | h := h <;> simp [h]
  simp [onRange, hops, hf, hst, hidle, hmay]

end

/-! ### The answer to an instruction, and the state in which it stands (R354) -/

/-- What an instruction does once its range lets it through and before it answers: SEAL's release. -/
def beforeAnswer (i : Instr) (s : State) (t : Nat) (who : StreamName) : State :=
  match i with
  | .seal _ => releaseBy s t who 6
  | _ => s

section
variable {i : Instr} {s : State} {t : Nat} {tm : Team} {who : StreamName} {ga gb : Nat}

theorem beforeAnswer_of_not_seal (hi : ∀ a, i ≠ .seal a) : beforeAnswer i s t who = s := by
  unfold beforeAnswer
  split
  case h_1 a => exact absurd rfl (hi a)
  case h_2 => rfl

theorem rangeAnswer_of_not_seal (hi : ∀ a, i ≠ .seal a) :
    rangeAnswer i s t tm who ga gb = (s, rangeUnit i s tm who ga gb) := by
  simp only [rangeAnswer]
  split
  case h_4 => rfl
  all_goals exact absurd rfl (hi _)

theorem rangeAnswer_none (h : rangeUnit i s tm who ga gb = .none) :
    rangeAnswer i s t tm who ga gb = (beforeAnswer i s t who, .none) := by
  by_cases hi : ∀ a, i ≠ .seal a
  · rw [rangeAnswer_of_not_seal hi, beforeAnswer_of_not_seal hi, h]
  · obtain ⟨a, rfl⟩ := by simpa using hi
    simp only [rangeAnswer, h, beforeAnswer]

theorem rangeAnswer_busy {bases : List Nat} (h : rangeUnit i s tm who ga gb = .busy bases) :
    rangeAnswer i s t tm who ga gb = (s, .busy bases) := by
  simp only [rangeAnswer, h]

/-- A change is made in the state that SEAL's release leaves. -/
theorem rangeAnswer_changed {v : State} {kind : RangeKind} (h : rangeUnit i s tm who ga gb = .changed v kind) :
    rangeAnswer i s t tm who ga gb = (beforeAnswer i s t who, rangeUnit i (beforeAnswer i s t who) tm who ga gb) := by
  by_cases hi : ∀ a, i ≠ .seal a
  · rw [rangeAnswer_of_not_seal hi, beforeAnswer_of_not_seal hi]
  · obtain ⟨a, rfl⟩ := by simpa using hi
    simp only [rangeAnswer, h, beforeAnswer]

/-- MEMORY_MODEL alone is met after SEAL's release (log 70). -/
theorem rangeAnswer_trap {c : Cause} {y : Nat} (h : rangeUnit i s tm who ga gb = .trap c y) :
    rangeAnswer i s t tm who ga gb = (if c = .memoryModel then beforeAnswer i s t who else s, .trap c y) := by
  by_cases hi : ∀ a, i ≠ .seal a
  · rw [rangeAnswer_of_not_seal hi, beforeAnswer_of_not_seal hi, h, ite_self]
  · obtain ⟨a, rfl⟩ := by simpa using hi
    by_cases hc : c = .memoryModel
    · subst hc
      simp only [rangeAnswer, h, beforeAnswer, if_true]
    · simp [rangeAnswer, h, hc]

end

/-! ### The words of the range unit (R125, R350, R354) -/

/-- What the range unit answers to an issuer of the instruction with its operands in registers a and b. -/
def unitFor (i : Instr) (a b : Nat) (s : State) (x : Issuer) : RangeRes :=
  rangeUnit i s x.tm x.who (x.reg a).toNat (x.reg b).toNat

/-- A word of the range unit: a change holds the stream, as an escaped effect, under the number of its operation; with nothing to change
the stream goes on; what must wait stays in the unit with its operands; a failed check traps. -/
theorem rangeWord_answers {i : Instr} {a b : Nat} {reads : List Nat} {s : State}
    (he : exec i s = rangeWord i reads (rangeBody i a b) s) :
    let info := quickInfo true reads [] (.hold true)
    let f := unitFor i a b
    let pre (x : Issuer) : State := beforeAnswer i s x.t x.who
    (∀ u kind, OnceWaitsIn i s info (.rangeOp u.nextRange) (fun x => (∃ v k, f s x = .changed v k) ∧ f (pre x) x = .changed u kind)
      (fun x => escape (enterRange u x kind) x.t)) ∧
    OnceOut i s info 0 (fun x => f s x = .none) (fun x => escape (pre x) x.t) ∧
    (∀ bases, OnceWaitsIn i s info (.rangeOp s.nextRange) (fun x => f s x = .busy bases)
      (fun x => enterRange s x (.queued i (x.reg a).toNat (x.reg b).toNat bases none))) ∧
    (∀ cause y, OnceTrapsIn i s info 0 cause y none (fun x => f s x = .trap cause y)
      (fun x => if cause = .memoryModel then pre x else s)) := by
  refine ⟨fun u kind => once_waits he fun x ⟨⟨v, k, hs⟩, hu⟩ => ?changed, once_out he fun x hx => ?none,
    fun bases => once_waits he fun x hx => ?busy, fun c y => once_trapsIn he fun x hx => ?trap⟩
  case changed =>
    unfold unitFor at hs hu
    simp only [rangeBody, rangeAnswer_changed hs, hu]
  case none => simp only [rangeBody, rangeAnswer_none hx]
  case busy => simp only [rangeBody, rangeAnswer_busy hx]
  case trap => simp only [rangeBody, rangeAnswer_trap hx]

/-! ### RGSPLIT and RGPROBE -/

/-- RGSPLIT inside a range, with room in the table, leaves two ranges that meet at the operand (R124, R125). -/
theorem rangeSplit_inside {s : State} {tm : Team} {ga n : Nat} {e : RangeEntry} (ha : ga % 128 = 0) (hga : ga < 2 ^ 56)
    (hf : findRange s (asidOf s tm) ga = some (n, e)) (hst : e.st ≠ rsMigrating) (hidle : rangeBusy s (asidOf s tm) e.base = false)
    (hmay : sysMode s tm = true ∨ e.self = true) (hne : ga ≠ e.base)
    (hroom : (asidDesc s (asidOf s tm)).count ≠ (asidDesc s (asidOf s tm)).tsize) :
    rangeSplit s tm ga = .changed (spliceEntries s (asidOf s tm) n 1
      [{ e with limit := ga, glim := ga },
       { e with base := ga, pbase := e.pbase + (ga - e.base), cbase := (e.cbase + (ga - e.base)) % 2 ^ 52 }])
      (.change 0 e.base e.limit) := by
  rw [rangeSplit, onRange_allowed (goodOperand ha hga) hf hst hidle hmay, if_neg (not_or.mpr ⟨hne, hroom⟩)]

theorem rgprobe_eq (d a : BitVec 6) (w : BitVec 3) (s : State) :
    exec (.rgprobe d a w) s = onceWord (.rgprobe d a w)
      (quickInfo (d.toNat % 2 == 0 && w.toNat % 2 == 0) [a.toNat] [d.toNat, d.toNat + 1] (.hold true)) 0
      (probeBody d.toNat a.toNat w.toNat) s := rfl

/-- Settles O44: each word of the range unit makes of its answer what every such word makes of it, and SEAL alone answers in another
state than the one it is issued in. RGSPLIT's cases are the checks of every range instruction and its change. -/
theorem rangeInstructions : Obligations.RangeInstructions := by
  intro s d a b w other words one two
  have answers (i : Instr) (reads : List Nat) (c : BitVec 6)
      (he : exec i s = rangeWord i reads (rangeBody i a.toNat c.toNat) s) := rangeWord_answers he
  refine ⟨answers (.rgsplit a) _ a rfl, answers (.rgmerge a) _ a rfl, answers (.rgtrim a b) _ b rfl, answers (.rggrow a b) _ b rfl,
    answers (.rginv a) _ a rfl, answers (.rginvDiscard a) _ a rfl, answers (.rgmigrIn a b) _ b rfl, answers (.rgmigrOut a b) _ b rfl,
    answers (.rgmigrMove a b) _ b rfl, answers (.unseal a) _ a rfl, answers (.seal a) _ a rfl, fun tm ga => ?split, ?probe⟩
  case split =>
    exact ⟨fun ha => onRange_illegal (misalignedOperand ha), fun ha hga => onRange_noRange (goodOperand ha hga),
      fun n e ha hga hf hst hidle =>
        ⟨onRange_permission (goodOperand ha hga) hf hst hidle, rangeSplit_inside ha hga hf hst hidle⟩,
      fun n e ha hga => onRange_busy (goodOperand ha hga)⟩
  case probe => exact once_out (rgprobe_eq d a w s) fun x _ => rfl

end Sys2Proof.Machine

/-!
The engine commands, the fill tags and the named queues (R158 to R165, R169 to R171, R292, R310, R312, R332, R338, R343, R344): what
each word's effect answers in each of its cases, and what a word that each stream executes once makes of the answer.
-/
namespace Sys2Proof.Machine

/-! ### Words that each stream executes once, with checks and an effect of each stream's own -/

/-- A word that each stream executes once, where the checks depend on its hints, or the effect on the stream (R158, R171). -/
def perStream (i : Instr) (ginfo : GCtx → WordInfo) (gbody : GCtx → State → ERes) (hinfo : HCtx → HInfo)
    (hbody : HCtx → State → ERes) (s : State) : Out :=
  bothWord i ginfo (fun c s => if c.act = 0 then .done s else toGang c s (gbody c s)) hinfo (fun k s => toHawk s (hbody k s)) s

theorem finish_toGang_trap (i : Instr) (s : State) (c : GCtx) (cause : Cause) (a : Nat) (cls : Option EngineClass) :
    finish i s c (toGang c s (.trap cause a cls)) = trapAll s c i cause c.act (BitVec.ofNat 64 a) cls := by
  cases cls <;> rfl

theorem finishHawk_toHawk_trap (i : Instr) (s : State) (k : HCtx) (cause : Cause) (a : Nat) (cls : Option EngineClass) :
    finishHawk i s k (toHawk s (.trap cause a cls)) = trapHawk s k i cause (BitVec.ofNat 64 a) cls := by
  cases cls <;> rfl

theorem finishHawk_toHawk_done (i : Instr) {s u : State} {k : HCtx} (hw : k.hk.window = none) :
    finishHawk i s k (toHawk s (.done u)) = hawkEnd k u := by
  simp only [toHawk, finishHawk, hawkEnd, hw]

section
variable {i : Instr} {s u : State} {c : GCtx} {k : HCtx} {ginfo : GCtx → WordInfo} {gbody : GCtx → State → ERes} {hinfo : HCtx → HInfo}
  {hbody : HCtx → State → ERes} {cause : Cause} {a : Nat} {cls : Option EngineClass}
  (he : exec i s = perStream i ginfo gbody hinfo hbody s)
include he

/-- A gang with no active lane goes on. -/
theorem perStream_idle (h : GangRuns s c ginfo) (h0 : c.act = 0) : exec i s = .next (advance s c) := by
  rw [he, perStream, bothWord_runs h, if_pos h0]
  rfl

theorem perStream_gang_done (h : GangRuns s c ginfo) (h0 : c.act ≠ 0) (hb : gbody c s = .done u) :
    exec i s = .next (advance u c) := by
  rw [he, perStream, bothWord_runs h, if_neg h0, hb]
  rfl

theorem perStream_gang_trap (h : GangRuns s c ginfo) (h0 : c.act ≠ 0) (hb : gbody c s = .trap cause a cls) :
    exec i s = .next (trapAll s c i cause c.act (BitVec.ofNat 64 a) cls) := by
  rw [he, perStream, bothWord_runs h, if_neg h0, hb, finish_toGang_trap]

theorem perStream_hawk_done (h : HawkRunsPlain s k hinfo) (hb : hbody k s = .done u) : exec i s = .next (hawkEnd k u) := by
  rw [he, perStream, bothWord_hawk_runs h, hb, finishHawk_toHawk_done i h.2]

theorem perStream_hawk_trap (h : HawkRunsPlain s k hinfo) (hb : hbody k s = .trap cause a cls) :
    exec i s = .next (trapHawk s k i cause (BitVec.ofNat 64 a) cls) := by
  rw [he, perStream, bothWord_hawk_runs h, hb, finishHawk_toHawk_trap]

end

theorem flag1_eq (b : BitVec 1) : flag1 b = decide (b = 1) := rfl

/-! ### Copy descriptors (R161, R292) -/

section
variable {x : Issuer} {scratch : Bool} {a : Nat} {s s1 s2 : State} {hdr rest : List Byte} {d0 : CopyDesc} {nd : Nat}
  {dims : List CopyDim} {k : CopyDesc → State → ERes}

theorem withCopy_misaligned (ha : a % 32 ≠ 0) :
    withCopy x scratch a s k = .trap .misaligned a (some (if scratch then .ls else classAt s (asidOf s x.tm) a)) :=
  if_pos ha

variable (ha : a % 32 = 0) (h1 : streamLoad s x scratch a 32 = .ok s1 hdr)
include ha h1

theorem withCopy_badHeader (hh : copyHeader hdr = none) :
    withCopy x scratch a s k = .trapIn (endReads.consumed x s1) .illegalOperand 0 none := by
  simp only [withCopy, ha, h1, hh, endReads, ne_eq, not_true_eq_false, if_false]

variable (hh : copyHeader hdr = some (d0, nd)) (h2 : streamLoad s1 x scratch (a + 32) (16 * nd) = .ok s2 rest)
include hh h2

theorem withCopy_badDims (hd : copyDims nd rest = none) :
    withCopy x scratch a s k = .trapIn (endReads.consumed x s2) .illegalOperand 0 none := by
  simp only [withCopy, ha, h1, hh, h2, hd, endReads, ne_eq, not_true_eq_false, if_false]

variable (hd : copyDims nd rest = some dims)
include hd

theorem withCopy_sourceFails (hs : extentFails (scratchSize x.tm) { d0 with dims := dims } true = true) :
    withCopy x scratch a s k = .trapIn (endReads.consumed x s2) .scratchBounds
      (addrOf (copyExtent { d0 with dims := dims } true).1) (some .cp) := by
  simp only [withCopy, ha, h1, hh, h2, hd, hs, endReads, ne_eq, not_true_eq_false, if_false, if_true]

theorem withCopy_destFails (hs : extentFails (scratchSize x.tm) { d0 with dims := dims } true = false)
    (hf : extentFails (scratchSize x.tm) { d0 with dims := dims } false = true) :
    withCopy x scratch a s k = .trapIn (endReads.consumed x s2) .scratchBounds
      (addrOf (copyExtent { d0 with dims := dims } false).1) (some .cp) := by
  simp only [withCopy, ha, h1, hh, h2, hd, hs, hf, endReads, ne_eq, not_true_eq_false, if_false, if_true, Bool.false_eq_true]

/-- A legal descriptor with its extents inside the allocation goes to the command. -/
theorem withCopy_fits (hs : extentFails (scratchSize x.tm) { d0 with dims := dims } true = false)
    (hf : extentFails (scratchSize x.tm) { d0 with dims := dims } false = false) :
    withCopy x scratch a s k = endReads x (k { d0 with dims := dims } s2) := by
  simp only [withCopy, ha, h1, hh, h2, hd, hs, hf, ne_eq, not_true_eq_false, if_false, Bool.false_eq_true]

end

/-- What COPY does with a legal descriptor. -/
def copyCommand (x : Issuer) (d : CopyDesc) (s : State) : ERes := .done (issueOp x (.copy d) (scratchLinesOf (allMoves d)) s)

/-- What an issue of MCAST leaves: the group number goes up, and in a larger cluster the team joins its group (R164, R332). -/
def mcastIssued (x : Issuer) (d : CopyDesc) (s : State) : State :=
  let c := cptOf s x.tm
  let u := modTeam (issueOp x (if c = 1 then .copy d else .mcast d x.tm.mcastNo) (scratchLinesOf (allMoves d)) s) x.t fun tm =>
    { tm with mcastNo := tm.mcastNo + 1 }
  if c = 1 then u else joinGroup u x.tm c x.tm.mcastNo d

/-- What MCAST does with a legal descriptor: it copies from global memory to scratchpad alone (R332). -/
def mcastCommand (x : Issuer) (d : CopyDesc) (s : State) : ERes :=
  if d.sloc ∨ !d.dloc then .trapIn s .illegalOperand 0 none else .done (mcastIssued x d s)

theorem mcastCommand_sides {x : Issuer} {d : CopyDesc} {s : State} (h : d.sloc = true ∨ d.dloc = false) :
    mcastCommand x d s = .trapIn s .illegalOperand 0 none :=
  if_pos (by simpa using h)

theorem mcastCommand_issues {x : Issuer} {d : CopyDesc} {s : State} (hs : d.sloc = false) (hd : d.dloc = true) :
    mcastCommand x d s = .done (mcastIssued x d s) :=
  if_neg (by simp [hs, hd])

/-- COPY and MCAST: a descriptor read and checked, then a command of its own. -/
def copyWord (i : Instr) (f sd : BitVec 1) (a : Nat) (k : Issuer → CopyDesc → State → ERes) (s : State) : Out :=
  onceWord i (commandInfo f acceptsCache true [a]) f (fun x s => withCopy x (flag1 sd) (x.reg a).toNat s (k x)) s

theorem copy_eq (f sd : BitVec 1) (a : BitVec 6) (s : State) :
    exec (.copy f sd a) s = copyWord (.copy f sd a) f sd a.toNat copyCommand s := rfl

theorem mcast_eq (f sd : BitVec 1) (a : BitVec 6) (s : State) :
    exec (.mcast f sd a) s = copyWord (.mcast f sd a) f sd a.toNat mcastCommand s := rfl

/-! ### GATHER and SCATTER (R165, R312) -/

section
variable {isGather : Bool} {a : Nat} {x : Issuer} {s s1 : State} {hdr : List Byte} {g : GatherDesc}

theorem gatherBody_misaligned (ha : (x.reg a).toNat % 32 ≠ 0) :
    gatherBody isGather a x s = .trap .misaligned (x.reg a).toNat (some .ls) :=
  if_pos ha

variable (ha : (x.reg a).toNat % 32 = 0) (h1 : streamScratch s x (x.reg a).toNat 32 = .ok s1 hdr)
include ha h1

theorem gatherBody_badDesc (hg : gatherDesc hdr = none) : gatherBody isGather a x s = .trap .illegalOperand 0 none := by
  simp only [gatherBody, ha, h1, hg, ne_eq, not_true_eq_false, if_false]

variable (hg : gatherDesc hdr = some g)
include hg

theorem gatherBody_areaFails {y : Nat × Nat}
    (hy : (gatherAreas g).find? (fun y => decide (scratchSize x.tm < y.1 + y.2)) = some y) :
    gatherBody isGather a x s = .trap .scratchBounds y.1 (some .ga) := by
  simp only [gatherBody, ha, h1, hg, hy, ne_eq, not_true_eq_false, if_false]

/-- With every area inside the allocation the command issues, unless two of them overlap. -/
theorem gatherBody_fits (hy : ∀ y ∈ gatherAreas g, y.1 + y.2 ≤ scratchSize x.tm) :
    gatherBody isGather a x s =
      if anyMeet (gatherAreas g) then .trap .illegalOperand 0 none
      else .done (issueOp x (if isGather then .gather g else .scatter g) (gatherLines g isGather) s1) := by
  have hfind : (gatherAreas g).find? (fun y => decide (scratchSize x.tm < y.1 + y.2)) = none :=
    List.find?_eq_none.mpr fun y hm => by simpa using hy y hm
  simp only [gatherBody, ha, h1, hg, hfind, ne_eq, not_true_eq_false, if_false]

end

theorem gather_eq (f : BitVec 1) (a : BitVec 6) (s : State) :
    exec (.gather f a) s = onceWord (.gather f a) (commandInfo f acceptsCache true [a.toNat]) f (gatherBody true a.toNat) s := rfl

theorem scatter_eq (f : BitVec 1) (a : BitVec 6) (s : State) :
    exec (.scatter f a) s = onceWord (.scatter f a) (commandInfo f acceptsCache true [a.toNat]) f (gatherBody false a.toNat) s := rfl

/-! ### PCOPY (R163, R338) -/

section
variable {d a c : Nat} {x : Issuer} {pd ps : PlaneDesc} {s : State}

theorem pcopyBody_badDesc (h : planeDesc (x.reg d) (x.reg (d + 1)) = none ∨ planeDesc (x.reg a) (x.reg (a + 1)) = none) :
    pcopyBody d a c x s = .trap .illegalOperand 0 none := by
  unfold pcopyBody
  obtain h | h := h
  · simp only [h]
  · cases hd : planeDesc (x.reg d) (x.reg (d + 1)) <;> simp only [h]

/-- With legal descriptors and a legal run of planes the command issues, unless an extent runs past the allocation. -/
theorem pcopyBody_legal {plo phi nb : Nat} (hd : planeDesc (x.reg d) (x.reg (d + 1)) = some pd)
    (hs : planeDesc (x.reg a) (x.reg (a + 1)) = some ps) (hlo : (x.reg c).toNat % 32 = plo)
    (hhi : (x.reg c).toNat / 32 % 32 = phi) (hnb : (x.reg c).toNat / 1024 % 2 ^ 22 = nb)
    (hok : (x.reg c).toNat < 2 ^ 32 ∧ nb ≠ 0 ∧ pd.m = ps.m ∧ plo ≤ phi ∧ phi ≤ pd.m + 1 ∧ pd.block + nb ≤ pd.bcount ∧
      ps.block + nb ≤ ps.bcount) :
    pcopyBody d a c x s =
      if planesFit (scratchSize x.tm) ps plo phi nb = false then .trap .scratchBounds (planesStart ps plo) (some .cp)
      else if planesFit (scratchSize x.tm) pd plo phi nb = false then .trap .scratchBounds (planesStart pd plo) (some .cp)
      else .done (issueOp x (.pcopy pd ps plo phi nb) (scratchLinesOf (pcopyMoves pd ps plo phi nb)) s) := by
  have elo : bitsN (x.reg c).toNat 4 0 = plo := by simpa [bitsN] using hlo
  have ehi : bitsN (x.reg c).toNat 9 5 = phi := hhi
  have enb : bitsN (x.reg c).toNat 31 10 = nb := hnb
  simp only [pcopyBody, hd, hs, elo, ehi, enb, Bool.not_eq_true']
  exact if_neg (by omega)

end

/-- Settles O33: COPY and MCAST differ only in what they do with a legal descriptor, GATHER and SCATTER only in the kind of their
operation, and each case is one of what the command's effect answers. -/
theorem engineCommandsIssue : Obligations.EngineCommandsIssue := by
  intro s s1 s2 hdr rest d0 nd dims f sd a b r g pd ps info scratch d off got fits lines area inside used copyTraps gatherTraps
  have traps (i : Instr) (k : Issuer → CopyDesc → State → ERes) (he : exec i s = copyWord i f sd a.toNat k s) : copyTraps i :=
    ⟨fun n cls => once_traps he fun x ⟨hn, hm, hc⟩ => by subst hn hc; exact withCopy_misaligned hm,
      once_trapsIn he fun x ⟨ha, h1, hh⟩ => withCopy_badHeader ha h1 hh,
      once_trapsIn he fun x ⟨ha, h1, hh, h2, hd⟩ => withCopy_badDims ha h1 hh h2 hd,
      once_trapsIn he fun x ⟨⟨ha, h1, hh, h2, hd⟩, hs⟩ => withCopy_sourceFails ha h1 hh h2 hd hs,
      once_trapsIn he fun x ⟨⟨ha, h1, hh, h2, hd⟩, hs, hf⟩ => withCopy_destFails ha h1 hh h2 hd hs hf⟩
  have areaTraps (i : Instr) (isGather : Bool) (he : exec i s = onceWord i info f (gatherBody isGather a.toNat) s) : gatherTraps i :=
    ⟨fun n => once_traps he fun x ⟨hn, hm⟩ => by subst hn; exact gatherBody_misaligned hm,
      once_traps he fun x ⟨ha, h1, hg⟩ => gatherBody_badDesc ha h1 hg,
      fun y => once_traps he fun x ⟨⟨ha, h1, hg⟩, hy⟩ => gatherBody_areaFails ha h1 hg hy,
      once_traps he fun x ⟨⟨ha, h1, hg⟩, hy, hm⟩ => (gatherBody_fits ha h1 hg hy).trans (if_pos hm)⟩
  refine ⟨⟨?copy, traps _ _ (copy_eq f sd a s)⟩, ⟨?mcast, ?sides, traps _ _ (mcast_eq f sd a s)⟩,
    ⟨?gather, ?scatter, areaTraps _ _ (gather_eq f a s), areaTraps _ _ (scatter_eq f a s)⟩, ?pcopy⟩
  case copy =>
    exact once_out (copy_eq f sd a s) fun x ⟨⟨ha, h1, hh, h2, hd⟩, hs, hf⟩ => withCopy_fits ha h1 hh h2 hd hs hf
  case mcast =>
    refine once_out (mcast_eq f sd a s) fun x ⟨⟨ha, h1, hh, h2, hd⟩, ⟨hs, hf⟩, hsrc, hdst⟩ => ?_
    exact (withCopy_fits ha h1 hh h2 hd hs hf).trans (congrArg (endReads x) (mcastCommand_issues hsrc hdst))
  case sides =>
    refine once_trapsIn (mcast_eq f sd a s) fun x ⟨⟨ha, h1, hh, h2, hd⟩, ⟨hs, hf⟩, hside⟩ => ?_
    exact (withCopy_fits ha h1 hh h2 hd hs hf).trans (congrArg (endReads x) (mcastCommand_sides hside))
  case gather =>
    exact once_out (gather_eq f a s) fun x ⟨⟨ha, h1, hg⟩, hy, hm⟩ =>
      (gatherBody_fits ha h1 hg hy).trans (if_neg (ne_true_of_eq_false hm))
  case scatter =>
    exact once_out (scatter_eq f a s) fun x ⟨⟨ha, h1, hg⟩, hy, hm⟩ =>
      (gatherBody_fits ha h1 hg hy).trans (if_neg (ne_true_of_eq_false hm))
  case pcopy =>
    intro pinfo w plo phi nb ok fit dest issues traps
    have he : exec (.pcopy f a b r) s = perStream (.pcopy f a b r) (fun c => gangInfo (pinfo c.cl.hints))
        (fun c => pcopyBody a.toNat b.toNat r.toNat (gangIssuer c f)) (fun k => hawkInfo (pinfo k.cl.hints))
        (fun k => pcopyBody a.toNat b.toNat r.toNat (hawkIssuer k f)) s := rfl
    have issue {cond : Issuer → Prop} (hb : ∀ x, cond x → pcopyBody a.toNat b.toNat r.toNat x s = .done (dest x)) : issues cond :=
      ⟨fun c h h0 hx => perStream_gang_done he h h0 (hb _ hx), fun k h hx => perStream_hawk_done he h (hb _ hx)⟩
    have trap {cause : Cause} {addr : Issuer → Nat} {cls : Option EngineClass} {cond : Issuer → Prop}
        (hb : ∀ x, cond x → pcopyBody a.toNat b.toNat r.toNat x s = .trap cause (addr x) cls) : traps cause addr cls cond :=
      ⟨fun c h h0 hx => perStream_gang_trap he h h0 (hb _ hx), fun k h hx => perStream_hawk_trap he h (hb _ hx)⟩
    -- Opaque from here on, the two are matched by their arguments.
    clear_value issues traps
    have answer (x : Issuer) (h : ok x) := pcopyBody_legal (s := s) h.1 h.2.1 rfl rfl rfl h.2.2
    refine ⟨issue ?fits, trap ?source, trap ?dest, trap ?descriptors⟩
    case fits =>
      exact fun x ⟨h, hs, hd⟩ =>
        ((answer x h).trans (if_neg (ne_false_of_eq_true hs))).trans (if_neg (ne_false_of_eq_true hd))
    case source => exact fun x ⟨h, hs⟩ => (answer x h).trans (if_pos hs)
    case dest => exact fun x ⟨h, hs, hd⟩ => ((answer x h).trans (if_neg (ne_false_of_eq_true hs))).trans (if_pos hd)
    case descriptors => exact fun x h => pcopyBody_badDesc h

/-! ### FILLCLR and FILLTST (R169, R310) -/

section
variable {a b : Nat} {x : Issuer} {s : State}

theorem fillclrBody_illegal (h : ¬((x.reg a).toNat % 128 = 0 ∧ 1 ≤ (x.reg b).toNat ∧ (x.reg b).toNat ≤ 4096)) :
    fillclrBody a b x s = .trap .illegalOperand 0 none :=
  if_pos (by omega)

/-- A legal run is cleared where it lies inside the allocation with no line PENDING. -/
theorem fillclrBody_legal (h : (x.reg a).toNat % 128 = 0 ∧ 1 ≤ (x.reg b).toNat ∧ (x.reg b).toNat ≤ 4096) :
    fillclrBody a b x s =
      if scratchSize x.tm < (x.reg a).toNat + 128 * (x.reg b).toNat then .trap .scratchBounds (x.reg a).toNat (some .ls)
      else if (linesOf (x.reg a).toNat (128 * (x.reg b).toNat)).any (fun l => fillTag x.tm l == tagPending) then
        .trap .illegalOperand 0 none
      else .done (modTeam s x.t fun tm =>
        (linesOf (x.reg a).toNat (128 * (x.reg b).toNat)).foldl (fun tm l => setFill tm l tagEmpty) tm) :=
  if_neg (by omega)

end

theorem fillTag_setFill (tm : Team) (l k : Nat) (v : BitVec 2) : fillTag (setFill tm l v) k = if k = l then v else fillTag tm k :=
  smGet_set _ _ _ _ _

section
variable {d a n : Nat} {x : Issuer} {s : State}

theorem filltstBody_misaligned (h : (x.reg a).toNat % 128 ≠ 0) : filltstBody d a n x s = .trap .illegalOperand 0 none := if_pos h

variable (h : (x.reg a).toNat % 128 = 0)
include h

theorem filltstBody_outside (hs : scratchSize x.tm < (x.reg a).toNat + 128 * n) :
    filltstBody d a n x s = .trap .scratchBounds (x.reg a).toNat (some .ls) :=
  (if_neg (not_not_intro h)).trans (if_pos hs)

theorem filltstBody_inside (hs : (x.reg a).toNat + 128 * n ≤ scratchSize x.tm) :
    filltstBody d a n x s = .done (putReg x d (BitVec.ofNat 64 (packTags x.tm ((x.reg a).toNat / 128) n)) s) :=
  (if_neg (not_not_intro h)).trans (if_neg (Nat.not_lt.mpr hs))

end

/-- With no window open nothing is held, and the hawk's team is as it stands. -/
theorem heldMarks_plain {k : HCtx} {s : State} (hk : hawkCtx s = some k) (hw : k.hk.window = none) : heldMarks k s = k.tm := by
  obtain ⟨ht, -⟩ := hawkCtx_spec hk
  simp [heldMarks, hw, ht]

/-- The issuer whose tags FILLTST reads in the hawk (R30). -/
def heldIssuer (k : HCtx) (s : State) : Issuer := { hawkIssuer k 0 with tm := heldMarks k s }

theorem heldIssuer_plain {k : HCtx} {s : State} (hk : hawkCtx s = some k) (hw : k.hk.window = none) :
    heldIssuer k s = hawkIssuer k 0 := by
  rw [heldIssuer, heldMarks_plain hk hw]
  rfl

section
variable (d a : BitVec 6) (n : BitVec 5) (s : State)

theorem filltst_eq : exec (.filltst d a n) s = perStream (.filltst d a n) (fun _ => gangInfo (quickInfo true [a.toNat] [d.toNat] .run))
    (fun c => filltstBody d.toNat a.toNat (n.toNat + 1) (gangIssuer c 0))
    (fun _ => hawkInfo (quickInfo true [a.toNat] [d.toNat] .run))
    (fun k s => filltstBody d.toNat a.toNat (n.toNat + 1) (heldIssuer k s) s) s := rfl

variable {d a n s} {cond : Issuer → Prop}

theorem filltst_out {dest : Issuer → State} (hb : ∀ x, cond x → filltstBody d.toNat a.toNat (n.toNat + 1) x s = .done (dest x)) :
    OnceOut (.filltst d a n) s (quickInfo true [a.toNat] [d.toNat] .run) 0 cond dest := by
  refine ⟨fun c h => ⟨perStream_idle (filltst_eq d a n s) h, fun h0 hx => perStream_gang_done (filltst_eq d a n s) h h0 (hb _ hx)⟩,
    fun k h hx => perStream_hawk_done (filltst_eq d a n s) h ?_⟩
  simp only [heldIssuer_plain h.1.1 h.2, hb _ hx]

theorem filltst_traps {cause : Cause} {addr : Nat} {cls : Option EngineClass}
    (hb : ∀ x, cond x → filltstBody d.toNat a.toNat (n.toNat + 1) x s = .trap cause addr cls) :
    OnceTraps (.filltst d a n) s (quickInfo true [a.toNat] [d.toNat] .run) 0 cause addr cls cond := by
  refine ⟨fun c h h0 hx => perStream_gang_trap (filltst_eq d a n s) h h0 (hb _ hx),
    fun k h hx => perStream_hawk_trap (filltst_eq d a n s) h ?_⟩
  simp only [heldIssuer_plain h.1.1 h.2, hb _ hx]

end

theorem packTags_succ (tm : Team) (l n : Nat) : packTags tm l (n + 1) = packTags tm l n + (fillTag tm (l + n)).toNat * 4 ^ n := by
  simp only [packTags, List.range_succ, List.foldl_append, List.foldl_cons, List.foldl_nil]

theorem packTags_lt (tm : Team) (l : Nat) : ∀ n, packTags tm l n < 4 ^ n
  | 0 => Nat.one_pos
  | n + 1 => by
    have ih := packTags_lt tm l n
    have ht : (fillTag tm (l + n)).toNat * 4 ^ n ≤ 3 * 4 ^ n := Nat.mul_le_mul_right _ (Nat.le_of_lt_succ (fillTag tm (l + n)).isLt)
    rw [packTags_succ, Nat.pow_succ]
    omega

/-- The tag of line j stands in the bits from 2 j, and nothing above the last line's (R169). -/
theorem packTags_digit (tm : Team) (l j : Nat) : ∀ n, packTags tm l n / 4 ^ j % 4 = if j < n then (fillTag tm (l + j)).toNat else 0
  | 0 => by simp [packTags]
  | n + 1 => by
    have hlt := packTags_lt tm l n
    obtain hj | rfl | hj := Nat.lt_trichotomy j n
    · obtain ⟨e, rfl⟩ := Nat.exists_eq_add_of_lt hj
      have hsplit (t : Nat) : t * 4 ^ (j + e + 1) = 4 ^ j * (4 * (t * 4 ^ e)) := by
        rw [Nat.pow_succ, Nat.pow_add]
        ac_rfl
      rw [packTags_succ, hsplit, Nat.add_mul_div_left _ _ (Nat.pow_pos (by decide)), Nat.add_mul_mod_self_left, packTags_digit tm l j,
        if_pos hj, if_pos (Nat.lt_succ_of_lt hj)]
    · rw [packTags_succ, Nat.add_mul_div_right _ _ (Nat.pow_pos (by decide)), Nat.div_eq_of_lt hlt, Nat.zero_add,
        Nat.mod_eq_of_lt (fillTag tm (l + j)).isLt, if_pos (Nat.lt_succ_self j)]
    · have hle : 4 ^ (n + 1) ≤ 4 ^ j := Nat.pow_le_pow_right (by decide) hj
      rw [Nat.div_eq_of_lt (Nat.lt_of_lt_of_le (packTags_lt tm l (n + 1)) hle), if_neg (by omega)]

/-- Settles O34: each case is one of what the two effects answer; a packed word's digits are the tags. -/
theorem fillTagsOfLines : Obligations.FillTagsOfLines := by
  intro s d a b n m off cnt cinfo tinfo runLines legal
  have he : exec (.fillclr a b) s = onceWord (.fillclr a b) cinfo 0 (fillclrBody a.toNat b.toNat) s := rfl
  refine ⟨once_out he ?clears, once_traps he ?illegal, once_traps he ?outside, filltst_out ?tags, ?window, filltst_traps ?misaligned,
    filltst_traps ?past, fun tm l j => ?digits, fun tm l k => ⟨rfl, fillTag_setFill tm l k tagEmpty⟩⟩
  case clears =>
    intro x ⟨hl, hs, hp⟩
    have hnone : ¬(runLines x).any (fun l => fillTag x.tm l == tagPending) = true := by simpa using hp
    rw [fillclrBody_legal hl, if_neg (Nat.not_lt.mpr hs), if_neg hnone]
  case illegal =>
    intro x h
    by_cases hl : legal x
    · obtain ⟨hs, l, hm, hp⟩ := h.resolve_left (not_not_intro hl)
      have hany : (runLines x).any (fun l => fillTag x.tm l == tagPending) = true := List.any_eq_true.mpr ⟨l, hm, beq_iff_eq.mpr hp⟩
      rw [fillclrBody_legal hl, if_neg (Nat.not_lt.mpr hs), if_pos hany]
    · exact fillclrBody_illegal hl
  case outside =>
    intro x ⟨hm, hl, hs⟩
    rw [fillclrBody_legal hl, if_pos hs, ← hm]
  case tags => exact fun x ⟨h, hs⟩ => filltstBody_inside h hs
  case window =>
    intro k h x ha hs
    refine bothWord_hawk_done h ?_
    exact congrArg (toHawk s) (filltstBody_inside (x := x) ha hs)
  case misaligned => exact fun x h => filltstBody_misaligned h
  case past =>
    intro x ⟨hm, h, hs⟩
    rw [filltstBody_outside h hs, ← hm]
  case digits => simp only [packTags_digit, Nat.lt_succ_iff]

/-! ### Named queues (R170, R171, R343, R344) -/

theorem handleLines_eq (h : Word) : handleLines h = (h.toNat % 2 ^ 13, h.toNat / 2 ^ 13 % 2 ^ 13 + 1) := by
  simp [handleLines, bitsN]

/-- A handle whose lines lie inside the allocation is pushed where there is room, and waits or traps where there is none. -/
theorem qpushBody_legal {a q : Nat} {x : Issuer} {s : State} {h : Word} (hh : (x.reg a).setWidth 32 = h)
    (hl : h.toNat % 2 ^ 13 + (h.toNat / 2 ^ 13 % 2 ^ 13 + 1) ≤ 4096 ∧
      h.toNat % 2 ^ 13 + (h.toNat / 2 ^ 13 % 2 ^ 13 + 1) ≤ x.tm.lines) :
    qpushBody a q x s =
      if ¬(allowance x.tm q (producerOf x.who) ≠ 0 ∧ (queueOf x.tm q).length < 16) then
        if othersGone x.tm x.who then .trap .queueMisuse 0 none else .wait (.qpush q) s
      else .done (modTeam (releaseBy s x.t x.who 3) x.t fun tm =>
        setAllowance (setQueue tm q (queueOf tm q ++ [h])) q (producerOf x.who) (allowance tm q (producerOf x.who) - 1)) := by
  obtain ⟨hmax, hlines⟩ := hl
  have hroom : (allowance x.tm q (producerOf x.who) = 0 ∨ 16 ≤ (queueOf x.tm q).length) ↔
      ¬(allowance x.tm q (producerOf x.who) ≠ 0 ∧ (queueOf x.tm q).length < 16) := by omega
  simp only [qpushBody, hh, handleLines_eq, if_neg (Nat.not_lt.mpr hmax), if_neg (Nat.not_lt.mpr hlines), hroom]

theorem qpopBody_empty {d q : Nat} {x : Issuer} {s : State} (h : queueOf x.tm q = []) :
    qpopBody d q x s = if othersGone x.tm x.who then .trap .queueMisuse 0 none else .wait (.qpop q) s := by
  simp only [qpopBody, h]

/-- What taking the head handle leaves: the handle in the register, and the writer marks of its lines cleared (R149, R171). -/
theorem popHandle_eq (x : Issuer) (q d : Nat) (h : Word) (rest : List Word) (s : State) :
    popHandle x q d h rest s = putReg x d (h.setWidth 64) (modTeam s x.t fun tm =>
      ((List.range (h.toNat / 2 ^ 13 % 2 ^ 13 + 1)).map (· + h.toNat % 2 ^ 13)).foldl (fun tm l => setMark tm l 31)
        (setQueue tm q rest)) := by
  simp only [popHandle, handleLines_eq]

theorem qpopBody_head {d q : Nat} {x : Issuer} {s : State} {h : Word} {rest : List Word} (hq : queueOf x.tm q = h :: rest) :
    qpopBody d q x s = .done (popHandle x q d h rest s) := by
  simp only [qpopBody, hq]

/-- A word of both streams whose effect in a gang is a predicate result completes with it. -/
theorem both_p_out {i : Instr} {info : GCtx → WordInfo} {body : GCtx → State → GRes} {hinfo hbody} {p : BitVec 5} {x : Mask} {s : State}
    {c : GCtx} (he : exec i s = bothWord i info body hinfo hbody s) (h : GangRuns s c info)
    (hb : body c s = .done (writeP s c p.toNat c.act x)) : PredOut i s c p (inMask x) := by
  obtain ⟨gg, h1, h2⟩ := p_done h.1 p.toNat x
  refine ⟨_, gg, ?_, h1, h2⟩
  rw [he, bothWord_runs h, hb]
  rfl

/-- QTRY by a gang (R171, R343). -/
theorem qtry_gang {s : State} {c : GCtx} {d : BitVec 6} {p : BitVec 5} (q : BitVec 4) (hd : d.toNat < 32) (hp : p.toNat < 24)
    (h : GangRuns s c fun _ => { plainInfo with writes := [.g d.toNat, .p p.toNat] }) :
    (c.act = 0 → exec (.qtry d p q) s = .next (advance s c)) ∧
    (c.act ≠ 0 → queueOf c.tm q.toNat = [] → PredOut (.qtry d p q) s c p fun _ => false) ∧
    (c.act ≠ 0 → ∀ h rest, queueOf c.tm q.toNat = h :: rest → exec (.qtry d p q) s = .next (advance
      (modGang (popHandle (gangIssuer c 0) q.toNat d.toNat h rest s) c.t c.g fun gg => setP gg p.toNat c.act allLanes) c)) := by
  have h' : GangRuns s c fun _ =>
      { plainInfo with legal := decide (d.toNat < 32) && decide (p.toNat < 24), writes := [.g d.toNat, .p p.toNat] } :=
    h.of_eq (by simp [plainInfo, hd, hp])
  have he : exec (.qtry d p q) s = execQtry d p q s := rfl
  refine ⟨fun h0 => ?_, fun h0 hq => ?_, fun h0 v rest hq => ?_⟩
  · rw [he, execQtry, bothWord_runs h', if_pos h0]
    rfl
  · have hzero : inMask 0 = fun _ => false := funext fun l => BitVec.getLsbD_zero
    rw [← hzero]
    refine both_p_out he h' ?_
    simp only [if_neg h0, hq]
    rfl
  · rw [he, execQtry, bothWord_runs h']
    simp only [if_neg h0, hq, finish, if_true]

/-- QTRY by the hawk with no window open. -/
theorem qtry_hawk {s : State} {k : HCtx} {d : BitVec 6} {p : BitVec 5} (q : BitVec 4) (hp : p.toNat < 8)
    (h : HawkRunsPlain s k fun _ => { plainHInfo with writes := [d.toNat], cwrites := [p.toNat], treat := .stall }) :
    (queueOf k.tm q.toNat = [] → exec (.qtry d p q) s = .next (hawkEnd k
      (modHawk s k.t fun hk => { hk with c := setCBit hk.c p.toNat false }))) ∧
    (∀ h rest, queueOf k.tm q.toNat = h :: rest → exec (.qtry d p q) s = .next (hawkEnd k
      (modHawk (popHandle (hawkIssuer k 0) q.toNat d.toNat h rest s) k.t fun hk => { hk with c := setCBit hk.c p.toNat true }))) := by
  have h' : HawkRunsPlain s k fun _ =>
      { plainHInfo with legal := decide (p.toNat < 8), writes := [d.toNat], cwrites := [p.toNat], treat := .stall } := by
    simpa [plainHInfo, hp] using h
  have he : exec (.qtry d p q) s = execQtry d p q s := rfl
  rw [he, execQtry, bothWord_hawk_runs h']
  refine ⟨fun hq => ?_, fun v rest hq => ?_⟩ <;> simp only [hq, finishHawk, hawkEnd, h.2]

section
variable {m : BitVec 1} {a q : Nat} {n : BitVec 11} {x : Issuer} {s : State}

/-- A producer that the team has gets its allowance set, or raised up to 65,535 (R171). -/
theorem qallowBody_producer (h : (x.reg a).toNat = 16 ∨ (x.reg a).toNat < x.tm.gangCount) :
    qallowBody m a n q x s = .done (modTeam s x.t fun tm =>
      let v := (immHint x.hints).getD 0 % 32 * 2 ^ 11 + n.toNat
      setAllowance tm q (x.reg a).toNat (if m = 1 then min 65535 (allowance tm q (x.reg a).toNat + v) else v)) := by
  have hp : ¬((x.reg a).toNat ≠ 16 ∧ x.tm.gangCount ≤ (x.reg a).toNat) := by omega
  simp only [qallowBody, if_neg hp, flag1_eq, decide_eq_true_eq]

theorem qallowBody_absent (h : (x.reg a).toNat ≠ 16) (hg : x.tm.gangCount ≤ (x.reg a).toNat) :
    qallowBody m a n q x s = .trap .queueMisuse 0 none :=
  if_pos ⟨h, hg⟩

end

section
variable {m : BitVec 1} {a : BitVec 6} {n : BitVec 11} {q : BitVec 4} {s : State}

/-- QALLOW by a gang with an active lane and a legal hint does what its effect answers (R343). -/
theorem qallow_gang {c : GCtx} (ha : a.toNat < 32) (hhint : badAllowHint c.cl.hints = none) (h0 : c.act ≠ 0)
    (h : GangRuns s c fun _ => { plainInfo with accepts := acceptsImm, reads := [.g a.toNat] }) :
    exec (.qallow m a n q) s =
      .next (finish (.qallow m a n q) s c (toGang c s (qallowBody m a.toNat n q.toNat (gangIssuer c 0) s))) := by
  have he : exec (.qallow m a n q) s = qallowWord m a n q s := by
    show execQallow m a n q s = _
    simp only [execQallow, h.1]
  have h' : GangRuns s c fun c =>
      { plainInfo with
        accepts := acceptsImm
        legal := (badAllowHint c.cl.hints).isSome || decide (a.toNat < 32)
        reads := if (badAllowHint c.cl.hints).isSome then [] else [.g a.toNat] } :=
    h.of_eq (by simp [plainInfo, hhint, ha])
  rw [he, qallowWord, bothWord_runs h']
  simp only [hhint, if_neg h0]

/-- QALLOW by the hawk with no window open and a legal hint. -/
theorem qallow_hawk {k : HCtx} (hhint : badAllowHint k.cl.hints = none)
    (h : HawkRunsPlain s k fun _ => { plainHInfo with accepts := acceptsImm, reads := [a.toNat], treat := .stall }) :
    exec (.qallow m a n q) s =
      .next (finishHawk (.qallow m a n q) s k (toHawk s (qallowBody m a.toNat n q.toNat (hawkIssuer k 0) s))) := by
  have he : exec (.qallow m a n q) s = qallowWord m a n q s := by
    show execQallow m a n q s = _
    simp only [execQallow, h.1.1, h.1.2.1, hhint]
    cases badHint acceptsImm k.cl.hints [] <;> rfl
  rw [he, qallowWord, bothWord_hawk_runs h]

end

/-- Settles O35: each case is one of what the words' effects answer, with a handle's lines and the head's taking said once. -/
theorem namedQueues : Obligations.NamedQueues := by
  intro s d a q p n h rest handle first count legal room pushInfo popInfo taken
  have hpush : exec (.qpush a q) s = onceWord (.qpush a q) pushInfo 0 (qpushBody a.toNat q.toNat) s := rfl
  have hpop : exec (.qpop d q) s = onceWord (.qpop d q) popInfo 0 (qpopBody d.toNat q.toNat) s := rfl
  have take (x : Issuer) : popHandle x q.toNat d.toNat h rest s = taken x := popHandle_eq x q.toNat d.toNat h rest s
  refine ⟨once_out hpush ?push, once_waits hpush ?pushWaits, once_traps hpush ?pushTraps, once_out hpop ?pop, once_waits hpop ?popWaits,
    once_traps hpop ?popTraps, fun c hd hp hr => ?tryGang, fun k hp hr => ?tryHawk, fun m x dest => ?allow, ?hint⟩
  case push => exact fun x ⟨hl, hr⟩ => (qpushBody_legal rfl hl).trans (if_neg (not_not_intro hr))
  case pushWaits => exact fun x ⟨hl, hr, hg⟩ => ((qpushBody_legal rfl hl).trans (if_pos hr)).trans (if_neg (ne_true_of_eq_false hg))
  case pushTraps => exact fun x ⟨hl, hr, hg⟩ => ((qpushBody_legal rfl hl).trans (if_pos hr)).trans (if_pos hg)
  case pop => exact fun x hq => (qpopBody_head hq).trans (congrArg ERes.done (take x))
  case popWaits => exact fun x ⟨hq, hg⟩ => (qpopBody_empty hq).trans (if_neg (ne_true_of_eq_false hg))
  case popTraps => exact fun x ⟨hq, hg⟩ => (qpopBody_empty hq).trans (if_pos hg)
  case tryGang =>
    obtain ⟨hidle, hempty, hhead⟩ := qtry_gang q hd hp hr
    exact ⟨hidle, hempty, fun h0 hq => take (gangIssuer c 0) ▸ hhead h0 h rest hq⟩
  case tryHawk =>
    obtain ⟨hempty, hhead⟩ := qtry_hawk (d := d) q hp hr
    exact ⟨hempty, fun hq => take (hawkIssuer k 0) ▸ hhead h rest hq⟩
  case allow =>
    intro who v hdest
    refine ⟨fun c hx ha hh h0 hr => ⟨fun hw => ?_, fun hw hg => ?_⟩, fun k hx hh hw hr => ?_, fun k hx hh hw hg hr => ?_⟩
    · subst hx
      rw [qallow_gang ha hh h0 hr, qallowBody_producer hw, hdest]
      rfl
    · subst hx
      rw [qallow_gang ha hh h0 hr, qallowBody_absent hw hg]
      rfl
    · subst hx
      rw [qallow_hawk hh hr, qallowBody_producer hw, hdest]
      exact congrArg Host.Outcome.next (finishHawk_toHawk_done _ hr.2)
    · subst hx
      rw [qallow_hawk hh hr, qallowBody_absent hw hg]
      rfl
  case hint =>
    intro m k h hk hg hb hh
    show execQallow m a n q s = _
    simp only [execQallow, hk, hg, hb, hh]

end Sys2Proof.Machine

/-!
The matrix words (R174, R175, R179 to R194, R335, R336, R360): what SHAPE grants, what a word that waits for a batch answers, and how
a matrix instruction joins the open batch.
-/
namespace Sys2Proof.Machine

/-! ### SHAPE (R174, R360) -/

/-- A field up to bit 63 is what stands above the bits below it. -/
theorem bits64_above (x : DWord) {lo : Nat} (h : lo ≤ 63) : bits64 x 63 lo = x.toNat / 2 ^ lo := by
  refine Nat.mod_eq_of_lt (Nat.div_lt_of_lt_mul ?_)
  rw [← Nat.pow_add, Nat.add_sub_cancel' (by omega)]
  exact x.isLt

theorem readConfig_gv (w : DWord) : (readConfig w).gv = true ↔ 128 ≤ w.toNat % 256 := by
  change w.toNat.testBit 7 = true ↔ _
  rw [Nat.testBit_eq_decide_div_mod_eq, decide_eq_true_iff]
  omega

theorem readConfig_fmt (w : DWord) : (readConfig w).fmt = w.toNat % 16 := bits64_zero w 3

/-- A reserved field, a grant field, or the reserved repeat or format in a request: there is no grant (R174). -/
theorem grantFor_illegal {req : DWord} (v : Nat)
    (h : 256 ≤ req.toNat ∨ 128 ≤ req.toNat % 256 ∨ 10 ≤ req.toNat % 16 ∨ req.toNat / 32 % 4 = 3) : grantFor req v = none := by
  have hregs : bits64 req 15 8 = req.toNat / 256 % 256 := rfl
  have hkr : bits64 req 6 5 = req.toNat / 32 % 4 := rfl
  refine if_pos ?_
  rw [bits64_above req (by decide), readConfig_gv, readConfig_fmt, hregs, hkr]
  omega

theorem shape_eq (d a : BitVec 5) (s : State) : exec (.shape d a) s =
    gangOnly (.shape d a) (fun _ => { plainInfo with reads := [.g a.toNat], writes := [.g d.toNat] }) (shapeBody d.toNat a.toNat) s :=
  rfl

theorem shapeBody_grants {d src : Nat} {c : GCtx} {s : State} {w : DWord} (h0 : c.act ≠ 0)
    (hw : grantFor (gReg c.gg src) c.tm.vregs = some w) :
    shapeBody d src c s = .done (modGang s c.t c.g fun gg => setConfig (setG gg d w) w) := by
  simp only [shapeBody, if_neg h0, hw]

theorem shapeBody_illegal {d src : Nat} {c : GCtx} {s : State} (h0 : c.act ≠ 0) (hw : grantFor (gReg c.gg src) c.tm.vregs = none) :
    shapeBody d src c s = .trap .illegalOperand c.act 0 := by
  simp only [shapeBody, if_neg h0, hw]

/-! ### Words that wait for a batch (R182, R183, R194, R335) -/

/-- What a word that waits for a batch answers in active lanes: it waits, delivers the report, or ends in a state. -/
def awaitBatch (busy : Bool) (report : Option Report) (dest : State) (c : GCtx) (s : State) : GRes :=
  if busy then .wait .interlock s
  else match report with
    | some r => deliverMatrix r c s
    | none => .done dest

/-- What MFENCE leaves before the fragment goes on (R182). -/
def fenced (d : Option Nat) (c : GCtx) (s : State) : State :=
  modGang (modTeam s c.t fun tm => closeBatch tm c.g (c.gg.mseq % 16)) c.t c.g fun gg =>
    let gg := { gg with mseq := gg.mseq + 1 }
    match d with
    | some n => setG gg n (BitVec.ofNat 64 (c.gg.mseq % 16))
    | none => gg

section
variable {c : GCtx} {s : State} (h0 : c.act ≠ 0)
include h0

theorem mfenceBody_active (d : Option Nat) : mfenceBody d c s =
    awaitBatch (batchBusy c.tm c.g (c.gg.mseq % 16)) (reportAt c.tm c.g (· == some (c.gg.mseq % 16))) (fenced d c s) c s :=
  if_neg h0

theorem mwaitBody_active (b : Nat) :
    mwaitBody b c s = awaitBatch (batchBusy c.tm c.g b) (reportAt c.tm c.g (· == some b)) s c s :=
  if_neg h0

theorem mwaitAllBody_active :
    mwaitAllBody c s = awaitBatch (matrixBusy c.tm c.g) (reportAt c.tm c.g fun _ => true) s c s :=
  if_neg h0

end

/-- The three outcomes of a word that waits for a batch. -/
theorem awaitBatch_out {i : Instr} {info : GCtx → WordInfo} {body : GCtx → State → GRes} {s dest : State} {c : GCtx} {busy : Bool}
    {report : Option Report} (he : exec i s = gangOnly i info body s) (h : GangRuns s c info)
    (hb : body c s = awaitBatch busy report dest c s) :
    (busy = true → exec i s = .next (waitFrag s c .interlock)) ∧
    (busy = false → ∀ r, report = some r → exec i s =
      .next (takeGangTrap (modTeam s c.t fun tm => { tm with matrixReport := none }) c.t c.g c.f (reportRecord c.fr.pc 0 15 r) none)) ∧
    (busy = false → report = none → exec i s = .next (advance dest c)) := by
  rw [he, gangOnly_runs h, hb]
  exact ⟨fun hbusy => by subst hbusy; rfl, fun hbusy r hr => by subst hbusy hr; rfl, fun hbusy hr => by subst hbusy hr; rfl⟩

/-- Settles O30: SHAPE's two outcomes are those of the grant, and each other word is one that waits for a batch. -/
theorem shapeAndBatches : Obligations.ShapeAndBatches := by
  intro s c d a b last closed report quiet
  refine ⟨fun h0 h => ⟨fun w hw => ?grants, fun hreq => ?illegal⟩,
    fun h0 h => ⟨?fence, ?wait, ?waitAll⟩, fun h0 h => ?fenceTo⟩
  case grants =>
    rw [shape_eq, gangOnly_runs h, shapeBody_grants h0 hw]
    rfl
  case illegal =>
    rw [shape_eq, gangOnly_runs h, shapeBody_illegal h0 (grantFor_illegal _ hreq)]
    rfl
  case fence => exact awaitBatch_out rfl h (mfenceBody_active h0 none)
  case wait => exact awaitBatch_out rfl h (mwaitBody_active h0 b.toNat)
  case waitAll => exact awaitBatch_out rfl h (mwaitAllBody_active h0)
  case fenceTo => exact awaitBatch_out rfl h (mfenceBody_active h0 (some d.toNat))

/-! ### The issue of a matrix instruction (R179 to R182) -/

/-- The team after a matrix instruction of a gang has joined its open batch, with the registers as they stand at issue (R179). -/
def joinBatch (i : Instr) (n : MatrixNeeds) (c : GCtx) (tm : Team) : Team :=
  { tm with
    mops := tm.mops ++ [{ id := tm.nextOp, gang := c.g, instr := i, cfg := c.gg.mcfg, batch := none
                          regs := snapRegs c.gg n.reads, index := n.index
                          gvals := n.gregs.map (gReg c.gg), reads := n.reads
                          writes := n.writes, entry := 0, stepNo := 0, deposits := [] }]
    nextOp := tm.nextOp + 1
    gangs := listModify (fun gg => n.writes.foldl clearTag gg) tm.gangs c.g }

section
variable {i : Instr} {acc : Accepts} {needs : GCtx → MatrixNeeds} {c : GCtx} {s : State}

theorem issueMatrix_missingLanes (h : c.act ≠ allLanes) : issueMatrix i needs c s = .trap .illegalConvergence c.act 0 :=
  if_pos h

theorem issueMatrix_outside {x : Nat × Nat} (h : c.act = allLanes)
    (hx : (needs c).extents.find? (fun x => decide (scratchSize c.tm < x.1 + x.2)) = some x) :
    issueMatrix i needs c s = .trapAcc s .scratchBounds allLanes (BitVec.ofNat 64 x.1) .mx := by
  simp only [issueMatrix, if_neg (not_not_intro h), hx]

/-- With every extent inside the allocation it joins the batch, unless eight of its gang's are outstanding (R180). -/
theorem issueMatrix_inside (h : c.act = allLanes) (hx : ∀ x ∈ (needs c).extents, x.1 + x.2 ≤ scratchSize c.tm) :
    issueMatrix i needs c s =
      if 8 ≤ (c.tm.mops.filter fun m => m.gang == c.g).length then .wait .interlock s
      else .done (modTeam s c.t (joinBatch i (needs c) c)) := by
  have hfind : (needs c).extents.find? (fun x => decide (scratchSize c.tm < x.1 + x.2)) = none :=
    List.find?_eq_none.mpr fun x hm => by simpa using hx x hm
  simp only [issueMatrix, if_neg (not_not_intro h), hfind]
  rfl

theorem matrixIssues (he : exec i s = matrixWord i acc needs s) : MatrixIssues i s c acc needs := by
  intro h
  rw [he, matrixWord, gangOnly_runs h]
  refine ⟨fun hp => ?missing, fun hall => ⟨fun x hx => ?outside, fun hx => ⟨fun hfull => ?full, fun hroom => ?joins⟩⟩⟩
  case missing =>
    rw [issueMatrix_missingLanes hp]
    rfl
  case outside =>
    rw [issueMatrix_outside hall hx]
    rfl
  case full =>
    rw [issueMatrix_inside hall hx, if_pos hfull]
    rfl
  case joins =>
    rw [issueMatrix_inside hall hx, if_neg (Nat.not_le.mpr hroom)]
    rfl

/-- With all lanes active, operands that its entry does not allow are ILLEGAL_OPERAND (R179). -/
theorem matrixWord_illegal (he : exec i s = matrixWord i acc needs s) (hall : c.act = allLanes) (hl : (needs c).legal = false)
    (h : GangRuns s c (fun c => { matrixInfo acc needs c with legal := true })) :
    exec i s = .next (trapAll s c i .illegalOperand c.act 0) :=
  he.trans (gangOnly_illegal h.1 h.2 (by simp [matrixInfo, hall, hl]))

end

/-- The operands of MMAB, with the table's fields as numbers (R189, R336). -/
def mmabNeeds (g : BitVec 5) (x : GCtx) : MatrixNeeds :=
  let w := (gReg x.gg g.toNat).toNat
  { noNeeds with
    legal := (configOf x).gv && plainFormat (configOf x).fmt && w / 2 ^ 39 == 0 && w % 2 ^ 23 % 16 == 0
    gregs := [g.toNat], extents := [(w % 2 ^ 23, 16 * (w / 2 ^ 23 % 2 ^ 16 + 1))] }

theorem tableOf_eq (w : DWord) : tableOf w = (w.toNat % 2 ^ 23, w.toNat / 2 ^ 23 % 2 ^ 16 + 1) :=
  congrArg (·, _) (bits64_zero w 22)

theorem mmab_eq (g : BitVec 5) (s : State) : exec (.mmab g) s = matrixWord (.mmab g) acceptsNone (mmabNeeds g) s := by
  change execMmab g s = _
  simp only [execMmab, tableOf_eq, bits64_above _ (show 39 ≤ 63 by decide)]
  rfl

/-- Settles O31: each instruction is a matrix word with the needs that its entry gives, and every matrix word issues, waits and traps
alike. -/
theorem matrixWordsIssue : Obligations.MatrixWordsIssue := by
  intro s c d e a b g h n f both illegal issues image columns run
  have word (i : Instr) (acc : Accepts) (needs : GCtx → MatrixNeeds) (he : exec i s = matrixWord i acc needs s) : issues i acc needs :=
    ⟨matrixIssues he, matrixWord_illegal he⟩
  exact ⟨word _ _ _ rfl, word _ _ _ rfl, word _ _ _ rfl, word _ _ _ rfl, word _ _ _ rfl, word _ _ _ rfl, word _ _ _ (mmab_eq g s),
    word _ _ _ rfl, word _ _ _ rfl, word _ _ _ rfl, word _ _ _ rfl, word _ _ _ rfl, word _ _ _ rfl⟩

end Sys2Proof.Machine

/-!
The skim words (R106, R198, R203, R204, R363): what the issue of SKIMCHK and SKIMPUT answers in each of its cases, and what a read of a
skim counter answers.
-/
namespace Sys2Proof.Machine

/-! ### The issue of a skim operation (R198) -/

section
variable {fs : BitVec 1} {k d sc : BitVec 5} {kind : SkimArgs → EngineKind} {writes : List RegName} {c : GCtx} {s : State}

theorem issueSkim_missingLanes (h : c.act ≠ allLanes) :
    issueSkim fs k d sc kind writes c s = .trap .illegalConvergence c.act 0 :=
  if_pos h

variable {a : SkimArgs} (hall : c.act = allLanes) (ha : skimArgs c k d sc = some a)
include hall ha

theorem issueSkim_linesOutside (h : c.tm.lines < a.key.oline + a.store.olines) :
    issueSkim fs k d sc kind writes c s =
      .trapAcc s .scratchBounds allLanes (BitVec.ofNat 64 (128 * a.key.oline)) .cp := by
  simp only [issueSkim, if_neg (not_not_intro hall), ha, if_pos h]

variable (hl : a.key.oline + a.store.olines ≤ c.tm.lines)
include hl

theorem issueSkim_planesOutside (h : planesFit (scratchSize c.tm) a.d 0 (a.store.cpl + 1) a.store.iblk = false) :
    issueSkim fs k d sc kind writes c s = .trapAcc s .scratchBounds allLanes (BitVec.ofNat 64 a.d.ebase) .cp := by
  simp only [issueSkim, if_neg (not_not_intro hall), ha, if_neg (Nat.not_lt.mpr hl), h, Bool.not_false, if_true]

variable (hf : planesFit (scratchSize c.tm) a.d 0 (a.store.cpl + 1) a.store.iblk = true)
include hf

/-- A line of the input tile that is EMPTY or PENDING holds the word (R106). -/
theorem issueSkim_unfilled {ls : List Nat} (h : tileStop s c.tm a (kind a) = some (.inl ls)) :
    issueSkim fs k d sc kind writes c s = .wait (.fill ls) s := by
  simp [issueSkim, hall, ha, Nat.not_lt.mpr hl, hf, h]

theorem issueSkim_faulted {off : Nat} (h : tileStop s c.tm a (kind a) = some (.inr off)) :
    issueSkim fs k d sc kind writes c s = .trapAcc s .poison allLanes (BitVec.ofNat 64 off) .cp := by
  simp [issueSkim, hall, ha, Nat.not_lt.mpr hl, hf, h]

theorem issueSkim_starts (h : tileStop s c.tm a (kind a) = none) :
    issueSkim fs k d sc kind writes c s =
      .done (issueOp (gangIssuer c fs) (kind a) [] (modGang s c.t c.g fun gg => setPending gg writes (flagFor c fs))) := by
  simp [issueSkim, hall, ha, Nat.not_lt.mpr hl, hf, h]

end

/-! ### A read of a skim counter (R203, R204) -/

section
variable {d cnt : Nat} {clear : Bool} {c : GCtx} {s : State} (h0 : c.act ≠ 0)
include h0

theorem skimrdBody_busy (hb : skimBusy c.tm c.g = true) : skimrdBody d cnt clear c s = .wait .interlock s := by
  simp only [skimrdBody, if_neg h0, if_pos hb]

variable (hb : skimBusy c.tm c.g = false)
include hb

theorem skimrdBody_skimOff (ho : skimOn s c.tm = false) : skimrdBody d cnt clear c s = .done (writeG s c d 0) := by
  simp only [skimrdBody, if_neg h0, hb, ho, Bool.not_false, Bool.false_eq_true, if_false, if_true, writeG]

theorem skimrdBody_counter (ho : skimOn s c.tm = true) :
    skimrdBody d cnt clear c s = .done
      (let u := writeG s c d (smGet 0 c.tm.skimCnt cnt)
       if clear then modTeam u c.t fun tm => { tm with skimCnt := smSet 0 tm.skimCnt cnt 0 } else u) := by
  simp only [skimrdBody, if_neg h0, hb, ho, Bool.not_true, Bool.false_eq_true, if_false, writeG]

end

/-- Settles O32: SKIMCHK and SKIMPUT issue alike but for the operation that they start and what they make pending, and SKIMRD and
SKIMRD.CLR read alike. -/
theorem skimWords : Obligations.SkimWords := by
  intro s c fs p k d st n issued reads
  have issue {i info kind pend body} (he : exec i s = gangOnly i info body s)
      (hb : body c s = issueSkim fs k d st kind pend c s) : issued i info kind pend := by
    intro h
    rw [he, gangOnly_runs h, hb]
    refine ⟨fun hp => ?missing, fun hall a ha => ⟨fun hl => ?lines, fun hl => ⟨fun hf => ?planes, fun hf =>
      ⟨fun ls ht => ?unfilled, fun off ht => ?faulted, fun ht => ?starts⟩⟩⟩⟩
    case missing =>
      rw [issueSkim_missingLanes hp]
      rfl
    case lines =>
      rw [issueSkim_linesOutside hall ha hl]
      rfl
    case planes =>
      rw [issueSkim_planesOutside hall ha hl hf]
      rfl
    case unfilled =>
      rw [issueSkim_unfilled hall ha hl hf ht]
      rfl
    case faulted =>
      rw [issueSkim_faulted hall ha hl hf ht]
      rfl
    case starts =>
      rw [issueSkim_starts hall ha hl hf ht]
      rfl
  have read {i clear} (he : exec i s =
      gangOnly i (fun _ => { plainInfo with writes := [.g d.toNat] }) (skimrdBody d.toNat n.toNat clear) s) : reads i clear := by
    intro h0 h
    refine ⟨fun hb => ?busy, fun hb ho => g_out he h (skimrdBody_skimOff h0 hb ho), fun hb ho => ?counter⟩
    case busy =>
      rw [he, gangOnly_runs h, skimrdBody_busy h0 hb]
      rfl
    case counter =>
      rw [he, gangOnly_runs h, skimrdBody_counter h0 hb ho]
      rfl
  exact ⟨issue rfl rfl, issue rfl rfl, read rfl, read rfl⟩

end Sys2Proof.Machine

/-!
Traps (R221, R224, R226, R229): what entry to a handler leaves in the trapping stream, and that beside its team only the plumb line may
change.
-/
namespace Sys2Proof.Machine

/-! ### What a trap leaves outside its team (R234) -/

/-- After the plumb line and an update of one team, the other teams, memory and every other register are as they were. -/
theorem modTeam_plumbEvent_frame (s : State) (tm : Team) (code t : Nat) (F : Team → Team) :
    let u := modTeam (plumbEvent s tm code) t F
    (u = { s with teams := u.teams, busy := u.busy, drop := u.drop, seq := u.seq, latched := u.latched } ∧
      ∀ n, n ≠ t → listAt u.teams n = listAt s.teams n) ∧ ∀ a, memByte u a = memByte s a := by
  rw [plumbEvent_eq]
  exact ⟨⟨rfl, fun n hn => listAt_modify_other F s.teams hn⟩, fun _ => rfl⟩

/-- The team itself, updated. -/
theorem listAt_modTeam_plumbEvent {s : State} {t : Nat} {tm : Team} (h : listAt s.teams t = some tm) (tm' : Team) (code : Nat)
    (F : Team → Team) : listAt (modTeam (plumbEvent s tm' code) t F).teams t = some (F tm) := by
  rw [modTeam_teams, listAt_modify_self, plumbEvent_teams, h, Option.map_some]

/-! ### A gang's entry to its handler (R226) -/

/-- What a gang saves as it enters its handler. -/
def handlerSave (gg : Gang) (fr : Frag) (owed : Option Replay) : HandlerSave :=
  { home := fr.home, o := gg.o, y0 := gg.y0, y1 := gg.y1, count := fr.count, yPending := fr.yPending, pc := fr.pc,
    clause := fr.clause, replay := owed, depth := gg.stack.length, marked := gg.marked, peel := fr.peel }

/-- A fragment that stands at a handler's header. -/
def atHandler (pc : DWord) (fr : Frag) : Frag :=
  { fr with pc := pc, clause := none, st := .issuing, count := 0, yPending := 0, replay := none, peel := false }

/-- A gang whose fragment has entered the handler at pc: the fragment's clause has ended (R64), the record and the saved context stand. -/
def enterHandler (f : Nat) (fr : Frag) (r : FaultRecord) (owed : Option Replay) (pc : DWord) (gg : Gang) : Gang :=
  modFragOf { closeClause gg fr.home (fr.clause.elim true (·.keep)) with
    flt := r, handler := some (handlerSave gg fr owed), marked := false } f (atHandler pc)

/-- Entry to the handler changes the record, the handler mode, the o registers, the fragments and the boundary mark. -/
theorem enterHandler_frame (f : Nat) (fr : Frag) (r : FaultRecord) (owed : Option Replay) (pc : DWord) (gg : Gang) :
    let gg' := enterHandler f fr r owed pc gg
    gg' = { gg with flt := r, handler := some (handlerSave gg fr owed), o := gg'.o, frags := gg'.frags, marked := false } := by
  dsimp only [enterHandler, modFragOf]
  rw [closeClause_frame]

theorem fragOf_modFragOf_other (gg : Gang) {f n : Nat} (h : Frag → Frag) (hn : n ≠ f) : fragOf (modFragOf gg f h) n = fragOf gg n := by
  simp only [fragOf, modFragOf, listAt_modify_other _ _ hn]

theorem fragOf_closeClause (gg : Gang) (home : Mask) (keep : Bool) (n : Nat) : fragOf (closeClause gg home keep) n = fragOf gg n := by
  rw [closeClause_frame]
  rfl

theorem fragOf_enterHandler (f : Nat) (fr : Frag) (r : FaultRecord) (owed : Option Replay) (pc : DWord) (gg : Gang) :
    fragOf (enterHandler f fr r owed pc gg) f = (fragOf gg f).map (atHandler pc) := by
  rw [← fragOf_closeClause gg fr.home (fr.clause.elim true (·.keep)) f]
  exact fragOf_modFragOf _ _ _

theorem fragOf_enterHandler_other {f n : Nat} (fr : Frag) (r : FaultRecord) (owed : Option Replay) (pc : DWord) (gg : Gang)
    (hn : n ≠ f) : fragOf (enterHandler f fr r owed pc gg) n = fragOf gg n := by
  rw [← fragOf_closeClause gg fr.home (fr.clause.elim true (·.keep)) n]
  exact fragOf_modFragOf_other _ _ hn

section
variable {s : State} {t g f : Nat} {tm : Team} {gg : Gang} {fr : Frag} (r : FaultRecord) (owed : Option Replay)
  (ht : listAt s.teams t = some tm) (hg : gangOf tm g = some gg) (hf : fragOf gg f = some fr)
include ht hg hf

/-- A gang's trap, by whether it is recoverable. -/
theorem takeGangTrap_eq : takeGangTrap s t g f r owed =
    if (vectorOf s tm).1 = 0 ∨ gg.handler.isSome then killTeam (plumbEvent s tm r.cause.toNat) t r.cause.toNat
    else modGang (plumbEvent s tm r.cause.toNat) t g (enterHandler f fr r owed (vectorOf s tm).1) := by
  simp only [takeGangTrap, ht, hg, hf, Option.bind_some, Option.map_some, vectorOf_plumbEvent]
  unfold enterHandler handlerSave
  cases fr.clause <;> rfl

/-- A trap with no handler, or in handler mode, is unrecoverable (R229). -/
theorem takeGangTrap_kills (h : (vectorOf s tm).1 = 0 ∨ gg.handler ≠ none) :
    takeGangTrap s t g f r owed = killTeam (plumbEvent s tm r.cause.toNat) t r.cause.toNat :=
  (takeGangTrap_eq r owed ht hg hf).trans (if_pos (h.imp_right Option.isSome_iff_ne_none.mpr))

/-- Another trap enters the handler. -/
theorem takeGangTrap_enters (hv : (vectorOf s tm).1 ≠ 0) (hh : gg.handler = none) : takeGangTrap s t g f r owed =
    modGang (plumbEvent s tm r.cause.toNat) t g (enterHandler f fr r owed (vectorOf s tm).1) :=
  (takeGangTrap_eq r owed ht hg hf).trans (if_neg (not_or.mpr ⟨hv, by simp [hh]⟩))

end

/-! ### The hawk's entry to its handler (R226) -/

/-- A hawk that has entered the handler at pc: the record and the place that the trap left stand. -/
def hawkAtHandler (r : FaultRecord) (pc : DWord) (hk : Hawk) : Hawk :=
  { hk with flt := r, handler := some (hk.pc, hk.clause), pc := pc, clause := none, st := .issuing }

section
variable {s : State} {t : Nat} {tm : Team} (r : FaultRecord) (ht : listAt s.teams t = some tm)
include ht

/-- A hawk's trap, by whether it is recoverable. -/
theorem takeHawkTrap_eq : takeHawkTrap s t r =
    if (vectorOf s tm).2 = 0 ∨ tm.hawk.handler.isSome then killTeam (plumbEvent s tm r.cause.toNat) t r.cause.toNat
    else modHawk (plumbEvent s tm r.cause.toNat) t (hawkAtHandler r (vectorOf s tm).2) := by
  simp only [takeHawkTrap, ht, vectorOf_plumbEvent]
  rfl

theorem takeHawkTrap_kills (h : (vectorOf s tm).2 = 0 ∨ tm.hawk.handler ≠ none) :
    takeHawkTrap s t r = killTeam (plumbEvent s tm r.cause.toNat) t r.cause.toNat :=
  (takeHawkTrap_eq r ht).trans (if_pos (h.imp_right Option.isSome_iff_ne_none.mpr))

theorem takeHawkTrap_enters (hv : (vectorOf s tm).2 ≠ 0) (hh : tm.hawk.handler = none) : takeHawkTrap s t r =
    modHawk (plumbEvent s tm r.cause.toNat) t (hawkAtHandler r (vectorOf s tm).2) :=
  (takeHawkTrap_eq r ht).trans (if_neg (not_or.mpr ⟨hv, by simp [hh]⟩))

end

/-- Settles O53: where the trap is recoverable it is the plumb line and then an update of the trapping stream alone, and a kill is a
relaunch or an escalation by R219's test. -/
theorem takingATrap : Obligations.TakingATrap := by
  intro s t g f r owed tm gg fr cause ht plumb
  refine ⟨fun hg hf hv hh => ?gang, fun hv hh => ?hawk, fun hg hf => takeGangTrap_kills r owed ht hg hf,
    fun h => takeHawkTrap_kills r ht h, fun l hl => ?kill⟩
  case gang =>
    rw [takeGangTrap_enters r owed ht hg hf hv hh]
    obtain ⟨hrest, hmem⟩ := modTeam_plumbEvent_frame s tm r.cause.toNat t fun x =>
      { x with gangs := listModify (enterHandler f fr r owed (vectorOf s tm).1) x.gangs g }
    refine ⟨hrest, hmem, _, enterHandler f fr r owed (vectorOf s tm).1 gg, handlerSave gg fr owed, listAt_modTeam_plumbEvent ht ..,
      ?own, rfl, fun n hn => listAt_modify_other _ tm.gangs hn, enterHandler_frame .., rfl, ?frag,
      fun n hn => fragOf_enterHandler_other fr r owed _ gg hn⟩
    case own => exact (listAt_modify_self ..).trans (congrArg (Option.map _) hg)
    case frag => exact (fragOf_enterHandler ..).trans (congrArg (Option.map _) hf)
  case hawk =>
    rw [takeHawkTrap_enters r ht hv hh]
    obtain ⟨hrest, hmem⟩ := modTeam_plumbEvent_frame s tm r.cause.toNat t fun x =>
      { x with hawk := hawkAtHandler r (vectorOf s tm).2 x.hawk }
    exact ⟨hrest, hmem, listAt_modTeam_plumbEvent ht ..⟩
  case kill =>
    intro u again
    have hagain : again ↔ RunsAgain s tm l := by simp only [again, RunsAgain, or_comm]
    refine ⟨fun ha => ?relaunch, fun ha => (killTeam_teamKilled cause ht hl l hl).2 (mt hagain.mpr ha)⟩
    case relaunch =>
      rw [show u = _ from killTeam_relaunched cause ht hl (hagain.mp ha)]
      exact ⟨relaunched (undone s tm) tm l cause, by rw [listAt_set_self, ht, Option.map_some],
        rfl, rfl, rfl, rfl, rfl, rfl, rfl, rfl, rfl⟩

end Sys2Proof.Machine

/-!
ERET (R227, R303): what it restores in a gang and in the hawk, and where the stream goes on.
-/
namespace Sys2Proof.Machine

/-! ### What a gang's return restores (R226, R227) -/

/-- A fold that rewrites the value at each key of a list, each from the value that stands there. -/
theorem smGet_foldl_set {α : Type} [DecidableEq α] (d : α) (F : Nat → α → α) (k : Nat) : ∀ (ks : List Nat), ks.Nodup → ∀ m : Smap α,
    smGet d (ks.foldl (fun m n => smSet d m n (F n (smGet d m n))) m) k = if k ∈ ks then F k (smGet d m k) else smGet d m k
  | [], _, m => by simp
  | n :: ks, hnd, m => by
    obtain ⟨hn, hks⟩ := List.nodup_cons.mp hnd
    rw [List.foldl_cons, smGet_foldl_set d F k ks hks]
    by_cases hk : k = n
    · subst hk
      simp [hn]
    · simp [hk, smGet_set_other]

theorem restoreGang_o (gg : Gang) (f : Nat) (fr : Frag) (h : HandlerSave) {n l : Nat} (hn : n < 8) (hl : l < 64) :
    laneOf (oReg (restoreGang gg f fr h) n) l =
      if inMask fr.home l then laneOf (smGet zeroLanes h.o n) l else laneOf (oReg gg n) l := by
  have hreg : oReg (restoreGang gg f fr h) n = mergeLanes fr.home (smGet zeroLanes h.o n) (oReg gg n) :=
    (smGet_foldl_set zeroLanes (fun n x => mergeLanes fr.home (smGet zeroLanes h.o n) x) n _ List.nodup_range gg.o).trans
      (if_pos (List.mem_range.mpr hn))
  rw [hreg, laneOf_mergeLanes _ _ _ _ hl]

/-- The gang to which ERET returns: its clause's end, and then what the trap saved. -/
def returnedGang (c : GCtx) (h : HandlerSave) : Gang := restoreGang (closeClause c.gg c.fr.home c.cl.keep) c.f c.fr h

section
variable (c : GCtx) (h : HandlerSave)

/-- The saved o registers stand in the fragment's lanes; what the clause's end clears (R64) is restored with them. -/
theorem returnedGang_o {n l : Nat} (hn : n < 8) (hl : l < 64) : laneOf (oReg (returnedGang c h) n) l =
    if inMask c.fr.home l then laneOf (smGet zeroLanes h.o n) l else laneOf (oReg c.gg n) l := by
  unfold returnedGang
  rw [restoreGang_o _ _ _ _ hn hl, closeClause_o _ _ _ _ _ hn hl]
  cases inMask c.fr.home l <;> simp

theorem returnedGang_y {l : Nat} (hl : l < 64) :
    laneOf (returnedGang c h).y0 l = (if inMask c.fr.home l then laneOf h.y0 l else laneOf c.gg.y0 l) ∧
    laneOf (returnedGang c h).y1 l = (if inMask c.fr.home l then laneOf h.y1 l else laneOf c.gg.y1 l) := by
  unfold returnedGang
  rw [closeClause_frame]
  exact ⟨laneOf_mergeLanes _ _ _ _ hl, laneOf_mergeLanes _ _ _ _ hl⟩

theorem returnedGang_frame : returnedGang c h =
    { c.gg with o := (returnedGang c h).o, y0 := (returnedGang c h).y0, y1 := (returnedGang c h).y1
                frags := (returnedGang c h).frags, handler := none, marked := h.marked } := by
  unfold returnedGang
  rw [closeClause_frame]
  rfl

theorem fragOf_returnedGang (hf : fragOf c.gg c.f = some c.fr) : fragOf (returnedGang c h) c.f =
    some { c.fr with pc := h.pc, clause := h.clause, count := h.count, yPending := h.yPending
                     st := .issuing, replay := none, peel := h.peel } := by
  unfold returnedGang
  rw [closeClause_frame]
  exact (fragOf_modFragOf _ _ _).trans (congrArg (Option.map _) hf)

/-- The returned fragment owes nothing yet. -/
theorem modFragOf_returnedGang_noReplay :
    modFragOf (returnedGang c h) c.f (fun fr => { fr with replay := none }) = returnedGang c h := by
  simp only [returnedGang, restoreGang, modFragOf, listModify_modify, Option.map_map]
  rfl

end

/-! ### What is left of the instruction at the saved address (R227) -/

section
variable {flt : FaultRecord} {h : HandlerSave} {exmask : Mask}

/-- After a report at an instruction that had not begun, it issues as it would have. -/
theorem resumeGang_report (hr : flt.imp = true ∧ flt.replay = 0) : resumeGang flt h exmask = .again none := by
  simp [resumeGang, hr]

variable (hr : ¬(flt.imp = true ∧ flt.replay = 0))
include hr

theorem resumeGang_eq : resumeGang flt h exmask =
    if flt.replay &&& exmask = 0 then .skip
    else if h.clause.isNone then .again none
    else .again (some { h.replay.getD { lanes := flt.replay &&& exmask, traps := [], counted := false, raised := false,
                                        placement := flt.replay &&& exmask } with lanes := flt.replay &&& exmask }) :=
  if_neg (by simpa using hr)

theorem resumeGang_skip (hl : flt.replay &&& exmask = 0) : resumeGang flt h exmask = .skip :=
  (resumeGang_eq hr).trans (if_pos hl)

theorem resumeGang_header (hl : flt.replay &&& exmask ≠ 0) (hc : h.clause = none) : resumeGang flt h exmask = .again none := by
  rw [resumeGang_eq hr, if_neg hl, hc]
  rfl

theorem resumeGang_word (hl : flt.replay &&& exmask ≠ 0) (hc : h.clause ≠ none) :
    ∃ r : Replay, r.lanes = flt.replay &&& exmask ∧ resumeGang flt h exmask = .again (some r) :=
  ⟨_, rfl, (resumeGang_eq hr).trans ((if_neg hl).trans (if_neg (by simpa using hc)))⟩

end

/-! ### The header's word -/

/-- An answered request, or a window with no port, changes nothing where it is asked (R241). -/
theorem askPeer_got {s s' : State} {x : Sender} {p : Piece} {w pa : Nat} {kind : PeerKind} {ok : Bool} {bs : List Byte}
    (h : askPeer s x p w pa kind = (s', .got ok bs)) : s' = s := by
  unfold askPeer at h
  repeat' split at h
  all_goals cases h
  all_goals rfl

/-- To read a header's word leaves the teams. -/
theorem headerWord_teams {s s' : State} {x : Sender} {tm : Team} {pc : DWord} {word w : Word}
    (h : headerWord s x tm pc word = .word s' w) : s'.teams = s.teams := by
  unfold headerWord at h
  split at h
  next => cases h; rfl
  split at h
  next => cases h; rfl
  next pa _ =>
    dsimp only at h
    split at h
    next =>
      cases h
      exact ((MemoryFrame.refl s).flushQuanta pa (pa + 4)).teams_eq
    split at h
    next => cases h; rfl
    split at h
    next => cases h
    next => cases h
    next hask =>
      cases h
      exact (congrArg State.teams (askPeer_got hask) :)

/-- The record has the word, but where its fetch faulted: then it is the word that memory holds at its place. -/
theorem headerWord_eq (s : State) (x : Sender) (tm : Team) (pc : DWord) :
    (∀ word, word ≠ 0 → headerWord s x tm pc word = .word s word) ∧
    ∀ pa, codePlace s (asidOf s tm) pc.toNat = some pa → pa < Config.devLo →
      headerWord s x tm pc 0 =
        .word (flushQuanta s pa (pa + 4)) (BitVec.ofNat 32 (natOf (homeBytes (flushQuanta s pa (pa + 4)) pa 4))) := by
  refine ⟨fun word hw => if_pos hw, fun pa hp hlo => ?_⟩
  simp only [headerWord, ne_eq, not_true_eq_false, if_false, hp, hlo, if_true]

/-! ### ERET of a gang (R227, R303) -/

/-- An update of the issuing gang in a later state with the same teams. -/
theorem modGang_ctx_teams {s s' : State} {c : GCtx} (h : gangCtx s = some c) (ht : s'.teams = s.teams) (f : Gang → Gang) :
    modGang s' c.t c.g f = modGang s' c.t c.g fun _ => f c.gg := by
  have hteams := congrArg State.teams (modGang_ctx h f)
  simp only [modGang_teams, ← ht] at hteams
  simp only [modGang, modTeam, hteams]

section
variable {c : GCtx} {h : HandlerSave} {s : State}

/-- Out of handler mode ERET is illegal. -/
theorem eretGang_noHandler (hh : c.gg.handler = none) : eretGang c s = .trap .illegalInstruction c.act 0 := by
  simp only [eretGang, hh]

variable (hh : c.gg.handler = some h)
include hh

/-- In a fragment that the trap did not concern ERET is illegal (log 75). -/
theorem eretGang_otherFragment (hm : c.fr.home &&& h.home = 0) : eretGang c s = .trap .illegalInstruction c.act 0 := by
  simp only [eretGang, hh, hm, if_true]

variable (hm : c.fr.home &&& h.home ≠ 0)
include hm

/-- In a guarded clause, or with another divergence than at handler entry, ERET traps. -/
theorem eretGang_diverged (hd : c.cl.guard ≠ 31 ∨ divergedSince c.gg c.f h = true) :
    eretGang c s = .trap .illegalConvergence c.act 0 := by
  simp only [eretGang, hh, if_neg hm, if_pos hd]

variable (hctx : gangCtx s = some c) (hg : c.cl.guard = 31) (hd : divergedSince c.gg c.f h = false)
include hctx hg hd

theorem eretGang_again {r : Option Replay} (hr : resumeGang c.gg.flt h c.fr.exmask = .again r) :
    eretGang c s =
      .moved (modGang s c.t c.g fun _ => modFragOf (returnedGang c h) c.f fun fr => { fr with replay := r }) := by
  simp only [eretGang, hh, if_neg hm, hg, hd, hr, ne_eq, not_true_eq_false, Bool.false_eq_true, or_self, if_false]
  rw [modGang_ctx hctx]
  rfl

theorem eretGang_skipWord (hr : resumeGang c.gg.flt h c.fr.exmask = .skip) (hc : h.clause ≠ none) :
    eretGang c s = .moved (modGang s c.t c.g fun _ => advanceGang s.cycle (returnedGang c h) c.f) := by
  simp only [eretGang, hh, if_neg hm, hg, hd, hr, ne_eq, not_true_eq_false, Bool.false_eq_true, or_self, if_false,
    Option.isSome_iff_ne_none.mpr hc, if_true]
  rw [modGang_ctx hctx]
  rfl

theorem eretGang_skipClause {s' : State} {w : Word} (hr : resumeGang c.gg.flt h c.fr.exmask = .skip) (hc : h.clause = none)
    (hw : headerWord s (fragSender c) c.tm h.pc c.gg.flt.word = .word s' w) :
    eretGang c s = .moved (modGang s' c.t c.g fun _ => parkCheck s'.cycle
      (modFragOf (returnedGang c h) c.f fun fr => { fr with pc := afterClause h.pc w }) c.f) := by
  simp only [eretGang, hh, if_neg hm, hg, hd, hr, hw, hc, ne_eq, not_true_eq_false, Bool.false_eq_true, or_self, if_false,
    Option.isSome_none]
  rw [modGang_ctx_teams hctx (headerWord_teams hw)]
  rfl

end

/-- ERET of a gang whose checks pass answers what its effect does. -/
theorem exec_eret_gang {s : State} {c : GCtx} (hrun : GangRuns s c (fun _ => endsInfo acceptsNone true [])) :
    exec .eret s = .next (finish .eret s c (eretGang c s)) := bothWord_runs hrun

/-! ### ERET of the hawk (R227, R303) -/

/-- The hawk as ERET returns it to a saved place. -/
def returnedHawk (pc : DWord) (cl : Option Clause) (hk : Hawk) : Hawk :=
  { hk with pc := pc, clause := cl, handler := none, st := .issuing }

/-- ERET of the hawk whose checks pass, outside a window, answers what its effect does. -/
theorem exec_eret_hawk {s : State} {k : HCtx}
    (hrun : HawkRunsPlain s k (fun _ => { plainHInfo with ends := true, treat := .stall })) :
    exec .eret s = .next (finishHawk .eret s k (eretHawk k s)) := bothWord_hawk_runs hrun

section
variable {k : HCtx} {s : State}

theorem eretHawk_noHandler (hh : k.hk.handler = none) : eretHawk k s = .trap .illegalInstruction 0 := by
  simp only [eretHawk, hh]

variable {pc : DWord} {cl : Option Clause} (hh : k.hk.handler = some (pc, cl))
include hh

theorem eretHawk_again (ha : (k.hk.flt.imp = true ∧ k.hk.flt.flag ≠ 15) ∨ k.hk.flt.replay.getLsbD 0 = true) :
    eretHawk k s = .moved (modHawk s k.t (returnedHawk pc cl)) := by
  simp only [eretHawk, hh, if_pos ha]
  rfl

variable (ha : ¬((k.hk.flt.imp = true ∧ k.hk.flt.flag ≠ 15) ∨ k.hk.flt.replay.getLsbD 0 = true))
include ha

theorem eretHawk_skipWord (hc : cl ≠ none) : eretHawk k s = .moved (advanceHawk (modHawk s k.t (returnedHawk pc cl)) k.t) := by
  obtain ⟨cl, rfl⟩ := Option.ne_none_iff_exists'.mp hc
  simp only [eretHawk, hh, if_neg ha]
  rfl

theorem eretHawk_skipClause {s' : State} {w : Word} (hc : cl = none)
    (hw : headerWord s (hawkSender k) k.tm pc k.hk.flt.word = .word s' w) :
    eretHawk k s = .moved (moveHawk (modHawk s' k.t (returnedHawk pc cl)) k.t (afterClause pc w)) := by
  subst hc
  simp only [eretHawk, hh, if_neg ha, hw]
  rfl

end

/-- Settles O27: the gang to which ERET returns is the trap's saved context merged into the fragment's lanes, and each case of the
replay mask says where it goes on. -/
theorem eretRestores : Obligations.EretRestores := by
  intro s
  refine ⟨fun c hrun => ?gang, fun k hrun => ?hawk, fun x tm pc word pa => ?header⟩
  case gang =>
    have hexec {a : GRes} (ha : eretGang c s = a) : exec .eret s = .next (finish .eret s c a) := ha ▸ exec_eret_gang hrun
    refine ⟨fun hh => hexec (eretGang_noHandler hh), fun h hh hm => hexec (eretGang_otherFragment hh hm), fun h hh hm =>
      ⟨fun hd => hexec (eretGang_diverged hh hm hd), fun hg hd => ?returns⟩⟩
    obtain ⟨-, -, hf, -, -, -⟩ := gangCtx_spec hrun.1
    have hagain (hr : resumeGang c.gg.flt h c.fr.exmask = .again none) :
        exec .eret s = .next (modGang s c.t c.g fun _ => returnedGang c h) :=
      (hexec (eretGang_again hh hm hrun.1 hg hd hr)).trans (by rw [modFragOf_returnedGang_noReplay]; rfl)
    refine ⟨returnedGang c h, fun n l => returnedGang_o c h, fun l => returnedGang_y c h, returnedGang_frame c h,
      fragOf_returnedGang c h hf, fun hr => hagain (resumeGang_report hr), fun hr => ⟨fun hl hc => ?clause, fun hl hc => ?word,
        fun hl hc => ?skipWord, fun hl hc s' x hw => ?skipClause⟩⟩
    case clause => exact hagain (resumeGang_header hr hl hc)
    case word =>
      obtain ⟨r, hlanes, hres⟩ := resumeGang_word (h := h) hr hl hc
      exact ⟨r, hlanes, hexec (eretGang_again hh hm hrun.1 hg hd hres)⟩
    case skipWord => exact hexec (eretGang_skipWord hh hm hrun.1 hg hd (resumeGang_skip hr hl) hc)
    case skipClause => exact hexec (eretGang_skipClause hh hm hrun.1 hg hd (resumeGang_skip hr hl) hc hw)
  case hawk =>
    have hexec {a : HRes} (ha : eretHawk k s = a) : exec .eret s = .next (finishHawk .eret s k a) := ha ▸ exec_eret_hawk hrun
    exact ⟨fun hh => hexec (eretHawk_noHandler hh), fun pc cl hh => ⟨fun ha => hexec (eretHawk_again hh ha),
      fun ha hc => hexec (eretHawk_skipWord hh ha hc), fun ha hc s' x hw => hexec (eretHawk_skipClause hh ha hc hw)⟩⟩
  case header =>
    obtain ⟨hrecord, hmemory⟩ := headerWord_eq s x tm pc
    exact ⟨hrecord word, fun hw => hw ▸ hmemory pa, rfl⟩

end Sys2Proof.Machine

/-!
Stores of the module's own units (R20, R107, R145, R253): a store at the home slice gives back what it wrote, whatever the caches held
and whatever they write back meanwhile, and where no cache holds anything it leaves every other byte.
-/
namespace Sys2Proof.Machine

/-! ### Bytes of DRAM and of a sector -/

theorem dramBytes_getElem? (s : State) : ∀ (n pa k : Nat), (dramBytes s pa n)[k]? = if k < n then some (dramByte s (pa + k)) else none
  | 0, _, _ => by simp [dramBytes]
  | n + 1, pa, 0 => by simp [dramBytes]
  | n + 1, pa, k + 1 => by simp [dramBytes, dramBytes_getElem? s n (pa + 1) k, Nat.add_assoc, Nat.add_comm 1 k]

theorem dramBytes_congr {s t : State} {pa n : Nat} (h : ∀ k < n, dramByte t (pa + k) = dramByte s (pa + k)) :
    dramBytes t pa n = dramBytes s pa n := by
  refine List.ext_getElem? fun k => ?_
  rw [dramBytes_getElem?, dramBytes_getElem?]
  split
  next hk => rw [h k hk]
  next => rfl

/-- A byte of DRAM after a whole sector is written there. -/
theorem dramByte_toDram (s : State) (sec a : Nat) {d : List Byte} (p : Bool) (hd : d.length = 32) :
    dramByte (toDram s sec d p) a = if sectorOf a = sec then (d[a % 32]?).getD 0 else dramByte s a := by
  have hbyte : dramByte (toDram s sec d p) a = dramByte (setMemBytes s (32 * sec) (d.take 32)) a := rfl
  rw [hbyte, dramByte_setMemBytes, List.take_of_length_le (Nat.le_of_eq hd)]
  unfold sectorOf
  split
  case isFalse hlo => rw [if_neg (by omega)]
  case isTrue hlo =>
    split
    case isTrue hsec =>
      have hk : a - 32 * sec = a % 32 := by omega
      have hlt : a % 32 < d.length := by omega
      simp [hk, List.getElem?_eq_getElem hlt]
    case isFalse hsec => rw [List.getElem?_eq_none (by omega), Option.getD_none]

theorem dramBytes_toDram_self (s : State) (sec : Nat) {d : List Byte} (p : Bool) (hd : d.length = 32) :
    dramBytes (toDram s sec d p) (32 * sec) 32 = d := by
  refine List.ext_getElem? fun k => ?_
  rw [dramBytes_getElem?]
  split
  next hk =>
    have hlt : k < d.length := by omega
    have hmod : (32 * sec + k) % 32 = k := by omega
    rw [dramByte_toDram _ _ _ _ hd, if_pos (by unfold sectorOf; omega), hmod, List.getElem?_eq_getElem hlt, Option.getD_some]
  next hk => rw [List.getElem?_eq_none (by omega)]

theorem dramBytes_toDram_other (s : State) {sec sec' : Nat} (h : sec' ≠ sec) {d : List Byte} (p : Bool) :
    dramBytes (toDram s sec' d p) (32 * sec) 32 = dramBytes s (32 * sec) 32 := by
  refine dramBytes_congr fun k hk => ?_
  have hbyte : dramByte (toDram s sec' d p) (32 * sec + k) = dramByte (setMemBytes s (32 * sec') (d.take 32)) (32 * sec + k) := rfl
  have hlen : (d.take 32).length ≤ 32 := List.length_take_le 32 d
  rw [hbyte, dramByte_setMemBytes]
  split
  next hlo => rw [List.getElem?_eq_none (by omega), Option.getD_none]
  next => rfl

/-! ### The bytes of a sector after some of them are written -/

theorem listSet_eq_set {α : Type} : ∀ (l : List α) (n : Nat) (x : α), listSet l n x = l.set n x
  | [], _, _ => rfl
  | _ :: _, 0, _ => rfl
  | y :: l, n + 1, x => congrArg (y :: ·) (listSet_eq_set l n x)

/-- A place reads as b after some writes that write nothing else there, where they write it or it was b before. -/
theorem getElem?_foldl_listSet {k : Nat} {b : Byte} : ∀ (ws : List (Nat × Byte)) (d : List Byte), k < d.length →
    (∀ w ∈ ws, w.1 = k → w.2 = b) → (d[k]? = some b ∨ ∃ w ∈ ws, w.1 = k) →
    (ws.foldl (fun d w => listSet d w.1 w.2) d)[k]? = some b
  | [], d, _, _, h => by simpa using h
  | w :: ws, d, hk, hb, h => by
    obtain ⟨hw, hws⟩ := List.forall_mem_cons.mp hb
    refine getElem?_foldl_listSet ws _ (by simpa [listSet_eq_set] using hk) hws ?_
    by_cases he : w.1 = k
    · left
      simp [listSet_eq_set, he, hk, hw he]
    · simpa [listSet_eq_set, List.getElem?_set, he] using h

theorem patchSector_length (d : List Byte) (ws : List (Nat × Byte)) : (patchSector d ws).length = 32 :=
  fold_keeps (P := fun d : List Byte => d.length = 32) (fun d w h => by rw [listSet_eq_set, List.length_set, h]) _ _ (by simp)

/-- The byte at a place of a patched sector is the one that every write there writes. -/
theorem patchSector_written {d : List Byte} {ws : List (Nat × Byte)} {k : Nat} {b : Byte} (hk : k < 32)
    (hb : ∀ w ∈ ws, w.1 = k → w.2 = b) (hw : ∃ w ∈ ws, w.1 = k) : (patchSector d ws)[k]? = some b :=
  getElem?_foldl_listSet ws _ (by simpa using hk) hb (.inr hw)

theorem patchSector_kept {d : List Byte} {ws : List (Nat × Byte)} {k : Nat} (hk : k < 32) (hw : ∀ w ∈ ws, w.1 ≠ k) :
    (patchSector d ws)[k]? = some ((d[k]?).getD 0) :=
  getElem?_foldl_listSet ws _ (by simpa using hk) (fun w h he => absurd he (hw w h)) (.inl (by simp [hk, listAt_eq_getElem?]))

/-- The writes of a sector, by their addresses. -/
theorem mem_sectorWrites {sec : Nat} {ws : List (Nat × Byte)} {x : Nat × Byte} :
    x ∈ sectorWrites sec ws ↔ ∃ w ∈ ws, sectorOf w.1 = sec ∧ (w.1 % 32, w.2) = x := by
  simp only [sectorWrites, List.mem_map, List.mem_filter, beq_iff_eq, and_assoc]

/-- An address is its sector and its place there. -/
theorem eq_of_sectorOf_eq {a b : Nat} (h : sectorOf a = sectorOf b) (hk : a % 32 = b % 32) : a = b := by
  unfold sectorOf at h
  omega

/-! ### What the second level leaves of the first -/

@[simp] theorem setMemBytes_l1 : ∀ (bs : List Byte) (s : State) (pa : Nat), (setMemBytes s pa bs).l1 = s.l1
  | [], _, _ => rfl
  | _ :: bs, _, _ => setMemBytes_l1 bs _ _

@[simp] theorem toDram_l1 (s : State) (sec : Nat) (d : List Byte) (p : Bool) : (toDram s sec d p).l1 = s.l1 := setMemBytes_l1 _ _ _

@[simp] theorem setMemBytes_l2 : ∀ (bs : List Byte) (s : State) (pa : Nat), (setMemBytes s pa bs).l2 = s.l2
  | [], _, _ => rfl
  | _ :: bs, _, _ => setMemBytes_l2 bs _ _

@[simp] theorem toDram_l2 (s : State) (sec : Nat) (d : List Byte) (p : Bool) : (toDram s sec d p).l2 = s.l2 := setMemBytes_l2 _ _ _

theorem writeBacks_l1 (l : List CacheSector) (s : State) : (l.foldl l2WriteBack s).l1 = s.l1 :=
  fold_keeps (P := fun u : State => u.l1 = s.l1) (fun u e h => by unfold l2WriteBack; split <;> simp [h]) _ _ rfl

theorem writeBacks_l2 (l : List CacheSector) (s : State) : (l.foldl l2WriteBack s).l2 = s.l2 :=
  fold_keeps (P := fun u : State => u.l2 = s.l2) (fun u e h => by unfold l2WriteBack; split <;> simp [h]) _ _ rfl

@[simp] theorem l2Drop_l1 (s : State) (p : CacheSector → Bool) : (l2Drop s p).l1 = s.l1 := writeBacks_l1 _ _

@[simp] theorem cleanL2_l1 (s : State) (p : CacheSector → Bool) : (cleanL2 s p).l1 = s.l1 := writeBacks_l1 _ _

theorem l2Room_l1 (sec : Nat) : ∀ (fuel : Nat) (s : State), (l2Room s sec fuel).l1 = s.l1
  | 0, _ => rfl
  | fuel + 1, s => by
    unfold l2Room
    split
    · rfl
    · split
      · rw [l2Room_l1 sec fuel, evictL2, l2Drop_l1, cleanL2_l1]
      · rfl

theorem l2Find_sector {s : State} {sec : Nat} {e : CacheSector} (h : l2Find s sec = some e) : e.sector = sec := by
  simpa using List.find?_some h

theorem l2Admit_eq_room {s t : State} {sec : Nat} {w : Install} (h : l2Admit s sec w = some t) : t = l2Room s sec s.l2.length := by
  simp only [l2Admit, Option.ite_none_right_eq_some, Option.some.injEq] at h
  obtain ⟨-, -, rfl⟩ := h
  rfl

theorem l2Other_l1 (s : State) (sec : Nat) (w : Install) : (l2Other s sec w).l1 = s.l1 := by
  rw [l2Other, l2Drop_l1, cleanL2_l1]

theorem l2Store_l1 (s : State) (sec : Nat) (d : List Byte) (p : Bool) (w : Install) : (l2Store s sec d p w).l1 = s.l1 := by
  unfold l2Store
  dsimp only
  split
  · exact l2Other_l1 s sec w
  · split
    next t ht => exact (congrArg State.l1 (l2Admit_eq_room ht)).trans ((l2Room_l1 _ _ _).trans (l2Other_l1 s sec w))
    next => exact (toDram_l1 _ _ _ _).trans (l2Other_l1 s sec w)

/-! ### A sector whose bytes the second level or DRAM holds -/

/-- The bytes of a sector are d: no first-level cache holds it, every second-level copy reads d, and so does DRAM unless a copy has
still to be written back. -/
structure SectorHolds (s : State) (sec : Nat) (d : List Byte) : Prop where
  len : d.length = 32
  l1 : ∀ e ∈ s.l1, e.sector ≠ sec
  l2 : ∀ e ∈ s.l2, e.sector = sec → e.data = d
  dram : dramBytes s (32 * sec) 32 = d ∨ ∃ e ∈ s.l2, e.sector = sec ∧ e.dirty = true

/-- DRAM holds the bytes of a sector after copies that read so are written back, where it did before or one of them is dirty. -/
theorem dramBytes_writeBacks {sec : Nat} {d : List Byte} (hd : d.length = 32) : ∀ (l : List CacheSector) (s : State),
    (∀ e ∈ l, e.sector = sec → e.data = d) → (dramBytes s (32 * sec) 32 = d ∨ ∃ e ∈ l, e.sector = sec ∧ e.dirty = true) →
    dramBytes (l.foldl l2WriteBack s) (32 * sec) 32 = d
  | [], s, _, h => by simpa using h
  | e :: l, s, hl, h => by
    obtain ⟨he, hl⟩ := List.forall_mem_cons.mp hl
    refine dramBytes_writeBacks hd l _ hl ?_
    unfold l2WriteBack
    split
    next hdirty =>
      by_cases hsec : e.sector = sec
      · left
        rw [he hsec, hsec, dramBytes_toDram_self _ _ _ hd]
      · rw [dramBytes_toDram_other _ hsec]
        simpa [hsec] using h
    next hclean => simpa [hclean] using h

namespace SectorHolds

variable {s : State} {sec : Nat} {d : List Byte}

/-- A read at the home slice gives the bytes. -/
theorem homeSector_eq (h : SectorHolds s sec d) : (homeSector s sec).1 = d := by
  have hclean : l1Dirty s sec = none := by
    simp only [l1Dirty, List.find?_eq_none, Bool.and_eq_true, beq_iff_eq, not_and]
    exact fun e he hsec => absurd hsec (h.l1 e he)
  simp only [homeSector, hclean, l2Sector]
  split
  next e he => exact h.l2 e (List.mem_of_find?_eq_some he) (l2Find_sector he)
  next hnone =>
    obtain hd | ⟨e, he, hsec, -⟩ := h.dram
    · exact hd
    · exact absurd hsec (by simpa using List.find?_eq_none.mp hnone e he)

/-! #### The second level -/

theorem toDram (h : SectorHolds s sec d) {sec' : Nat} (hs : sec' ≠ sec) (d' : List Byte) (p : Bool) :
    SectorHolds (Machine.toDram s sec' d' p) sec d :=
  ⟨h.len, by simpa using h.l1, by simpa using h.l2, by simpa [dramBytes_toDram_other _ hs] using h.dram⟩

theorem cleanL2 (h : SectorHolds s sec d) (p : CacheSector → Bool) : SectorHolds (Machine.cleanL2 s p) sec d := by
  have hl2 : (Machine.cleanL2 s p).l2 = s.l2.map fun e => if p e then { e with dirty := false } else e :=
    congrArg (List.map _) (writeBacks_l2 _ _)
  refine ⟨h.len, by simpa using h.l1, fun e he hsec => ?data, ?fresh⟩
  case data =>
    rw [hl2] at he
    obtain ⟨x, hx, rfl⟩ := List.mem_map.mp he
    split at hsec <;> simpa [*] using h.l2 x hx hsec
  case fresh =>
    have hback (hw : dramBytes s (32 * sec) 32 = d ∨ ∃ e ∈ s.l2.filter p, e.sector = sec ∧ e.dirty = true) :
        dramBytes (Machine.cleanL2 s p) (32 * sec) 32 = d :=
      dramBytes_writeBacks h.len _ _ (fun e he => h.l2 e (List.mem_filter.mp he).1) hw
    obtain hd | ⟨e, he, hdirty⟩ := h.dram
    · exact .inl (hback (.inl hd))
    · by_cases hp : p e = true
      · exact .inl (hback (.inr ⟨e, List.mem_filter.mpr ⟨he, hp⟩, hdirty⟩))
      · exact .inr ⟨e, hl2 ▸ List.mem_map.mpr ⟨e, he, if_neg hp⟩, hdirty⟩

/-- Copies that are clean may be dropped: the plane lines that go with them (R100) are written back. -/
theorem l2Drop (h : SectorHolds s sec d) {p : CacheSector → Bool} (hp : ∀ e ∈ s.l2, p e = true → e.dirty = false) :
    SectorHolds (Machine.l2Drop s p) sec d := by
  let kept := s.l2.filter fun e => !p e
  have hkept : ∀ e ∈ kept, e ∈ s.l2 := fun e he => (List.mem_filter.mp he).1
  have hl2 : (Machine.l2Drop s p).l2 = kept.filter (prefixOk kept) := writeBacks_l2 _ _
  refine ⟨h.len, by simpa using h.l1, fun e he => h.l2 e (hkept e (List.mem_filter.mp (hl2 ▸ he)).1), ?fresh⟩
  have hback (hw : dramBytes s (32 * sec) 32 = d ∨ ∃ e ∈ kept.filter fun e => !prefixOk kept e, e.sector = sec ∧ e.dirty = true) :
      dramBytes (Machine.l2Drop s p) (32 * sec) 32 = d :=
    dramBytes_writeBacks h.len _ _ (fun e he => h.l2 e (hkept e (List.mem_filter.mp he).1)) hw
  obtain hd | ⟨e, he, hdirty⟩ := h.dram
  · exact .inl (hback (.inl hd))
  · have hin : e ∈ kept := List.mem_filter.mpr ⟨he, by
      rw [Bool.not_eq_true', Bool.eq_false_iff]
      exact fun hpe => by simp [hp e he hpe] at hdirty⟩
    cases hpre : prefixOk kept e with
    | true => exact .inr ⟨e, hl2 ▸ List.mem_filter.mpr ⟨hin, hpre⟩, hdirty⟩
    | false => exact .inl (hback (.inr ⟨e, List.mem_filter.mpr ⟨hin, by simp [hpre]⟩, hdirty⟩))

/-- Copies are expelled from the second level: cleaned, then dropped. -/
theorem expel (h : SectorHolds s sec d) (p : CacheSector → Bool) : SectorHolds (Machine.l2Drop (Machine.cleanL2 s p) p) sec d := by
  refine (h.cleanL2 p).l2Drop fun e he hp => ?_
  obtain ⟨x, -, rfl⟩ := List.mem_map.mp he
  split
  next => rfl
  next hx => exact absurd (by simpa only [if_neg hx] using hp) hx

theorem l2Room (sec' : Nat) : ∀ (fuel : Nat) {s : State}, SectorHolds s sec d → SectorHolds (Machine.l2Room s sec' fuel) sec d
  | 0, _, h => h
  | fuel + 1, s, h => by
    unfold Machine.l2Room
    split
    · exact h
    · split
      · exact l2Room sec' fuel (h.expel _)
      · exact h

theorem l2Put (h : SectorHolds s sec d) {e : CacheSector} (hs : e.sector ≠ sec) : SectorHolds (Machine.l2Put s e) sec d := by
  refine ⟨h.len, h.l1, fun x hx hsec => ?_, h.dram.imp_right fun ⟨x, hx, hsec, hdirty⟩ => ⟨x, ?_, hsec, hdirty⟩⟩
  · obtain rfl | hx := List.mem_cons.mp hx
    · exact absurd hsec hs
    · exact h.l2 x (List.mem_filter.mp hx).1 hsec
  · exact List.mem_cons_of_mem _ (List.mem_filter.mpr ⟨hx, by simpa [hsec] using hs.symm⟩)

/-- Another sector may be stored at the second level. -/
theorem l2Store (h : SectorHolds s sec d) {sec' : Nat} (hs : sec' ≠ sec) (d' : List Byte) (p : Bool) (w : Install) :
    SectorHolds (Machine.l2Store s sec' d' p w) sec d := by
  have hother : SectorHolds (l2Other s sec' w) sec d := h.expel _
  unfold Machine.l2Store
  dsimp only
  split
  next e he => exact hother.l2Put fun hsec => hs ((l2Find_sector he).symm.trans hsec)
  next =>
    split
    next t ht => exact (l2Admit_eq_room ht ▸ hother.l2Room _ _ : SectorHolds t sec d).l2Put hs
    next => exact hother.toDram hs _ _

theorem l2WriteSector (h : SectorHolds s sec d) {sec' : Nat} (hs : sec' ≠ sec) (ws : List (Nat × Byte)) (whole : Bool) (w : Install) :
    SectorHolds (Machine.l2WriteSector s ws whole w sec') sec d := by
  unfold Machine.l2WriteSector
  exact h.l2Store hs _ _ _

/-! #### The first level -/

theorem writeBack (h : SectorHolds s sec d) {e : CacheSector} (he : e.sector ≠ sec) : SectorHolds (Machine.writeBack s e) sec d := by
  unfold Machine.writeBack
  split
  · exact h.l2Store he _ _ _
  · exact h

theorem writeBacks (h : SectorHolds s sec d) {l : List CacheSector} (hl : ∀ e ∈ l, e.sector ≠ sec) :
    SectorHolds (l.foldl Machine.writeBack s) sec d :=
  List.foldlRecOn (motive := fun u => SectorHolds u sec d) l _ h fun _ h e he => h.writeBack (hl e he)

/-- The first-level caches may hold anything else. -/
theorem of_l1 (h : SectorHolds s sec d) {l : List CacheSector} (hl : ∀ e ∈ l, e.sector ≠ sec) : SectorHolds { s with l1 := l } sec d :=
  ⟨h.len, hl, h.l2, h.dram⟩

theorem cleanL1 (h : SectorHolds s sec d) (p : CacheSector → Bool) : SectorHolds (Machine.cleanL1 s p) sec d := by
  have hback := h.writeBacks fun e (he : e ∈ s.l1.filter fun e => p e && e.dirty) => h.l1 e (List.mem_filter.mp he).1
  refine hback.of_l1 fun e he => ?_
  obtain ⟨x, hx, rfl⟩ := List.mem_map.mp he
  split <;> exact hback.l1 x hx

theorem l1Drop (h : SectorHolds s sec d) (p : CacheSector → Bool) : SectorHolds (Machine.l1Drop s p) sec d := by
  have hkept : ∀ e ∈ s.l1.filter fun e => !p e, e.sector ≠ sec := fun e he => h.l1 e (List.mem_filter.mp he).1
  exact (h.of_l1 fun e he => hkept e (List.mem_filter.mp he).1).writeBacks fun e he => hkept e (List.mem_filter.mp he).1

theorem passToken (h : SectorHolds s sec d) (region holder : Nat) : SectorHolds (Machine.passToken s region holder) sec d := by
  unfold Machine.passToken
  split
  · exact h
  · obtain ⟨hlen, hl1, hl2, hdram⟩ := (h.cleanL1 fun e => regionOf e.sector == region).l1Drop
      fun e => regionOf e.sector == region && e.core != holder
    exact ⟨hlen, hl1, hl2, hdram⟩

theorem homeTake (h : SectorHolds s sec d) (holder sec' : Nat) : SectorHolds (Machine.homeTake s holder sec') sec d :=
  ((h.passToken _ _).cleanL1 _).l1Drop _

end SectorHolds

/-! ### A store at the home slice -/

/-- The second level alone stores the sector, or DRAM does. -/
theorem sectorHolds_l2Store {s : State} {sec : Nat} {d : List Byte} (hd : d.length = 32) (hl : ∀ e ∈ s.l1, e.sector ≠ sec) (p : Bool)
    (w : Install) : SectorHolds (l2Store s sec d p w) sec d := by
  have hput (u : State) (hu : u.l1 = s.l1) (e : CacheSector) (hsec : e.sector = sec) (hdata : e.data = d) (hdirty : e.dirty = true) :
      SectorHolds (l2Put u e) sec d := by
    refine ⟨hd, fun x hx => hl x (hu ▸ hx), fun x hx hxs => ?_, .inr ⟨e, List.mem_cons_self, hsec, hdirty⟩⟩
    obtain rfl | hx := List.mem_cons.mp hx
    · exact hdata
    · exact absurd (hxs.trans hsec.symm) (by simpa using (List.mem_filter.mp hx).2)
  have hother := l2Other_l1 s sec w
  unfold l2Store
  dsimp only
  split
  next e he => exact hput _ hother { e with data := d, dirty := true, poison := p } (l2Find_sector he :) rfl rfl
  next hnone =>
    split
    next t ht => exact hput t (by rw [l2Admit_eq_room ht, l2Room_l1, hother]) _ rfl rfl rfl
    next =>
      have habsent : ∀ e ∈ (l2Other s sec w).l2, e.sector ≠ sec := by simpa [l2Find] using hnone
      refine ⟨hd, by simpa [hother] using hl, fun e he hsec => ?_, .inl (dramBytes_toDram_self _ _ _ hd)⟩
      exact absurd hsec (habsent e (by simpa using he))

/-- A sector that the home slice has taken stands in no first-level cache. -/
theorem homeTake_l1 (s : State) (holder sec : Nat) : ∀ e ∈ (homeTake s holder sec).l1, e.sector ≠ sec := by
  unfold homeTake l1Drop
  dsimp only
  refine fold_keeps (P := fun u : State => ∀ e ∈ u.l1, e.sector ≠ sec) (fun u x h => ?_) _ _ fun e he => ?_
  · unfold writeBack
    split
    · simpa [l2Store_l1] using h
    · exact h
  · simpa using (List.mem_filter.mp (List.mem_filter.mp he).1).2

/-- A sector that has just been written at the home slice. -/
theorem sectorHolds_homeSliceWrite (s : State) (holder sec : Nat) (ws : List (Nat × Byte)) (whole : Bool) (w : Install) :
    SectorHolds (l2WriteSector (homeTake s holder sec) ws whole w sec) sec
      (patchSector (l2Sector (homeTake s holder sec) sec).1 (sectorWrites sec ws)) := by
  unfold l2WriteSector
  exact sectorHolds_l2Store (patchSector_length _ _) (homeTake_l1 s holder sec) _ _

theorem mem_sectorsOf {w : Nat × Byte} {ws : List (Nat × Byte)} (h : w ∈ ws) : sectorOf w.1 ∈ sectorsOf ws := by
  induction ws with
  | nil => cases h
  | cons x ws ih =>
    have hcons : sectorOf w.1 = sectorOf x.1 ∨ sectorOf w.1 ∈ sectorsOf ws :=
      (List.mem_cons.mp h).imp (fun he => by rw [he]) ih
    simp only [sectorsOf]
    split
    next hc => exact hcons.elim (fun he => he ▸ List.contains_iff_mem.mp hc) id
    next => exact List.mem_cons.mpr hcons

/-- The bytes of a sector are settled, with b at the address a where that is the sector of a. -/
def SectorGives (a : Nat) (b : Byte) (sec : Nat) (s : State) : Prop :=
  ∃ d, SectorHolds s sec d ∧ (sec = sectorOf a → d[a % 32]? = some b)

theorem SectorGives.homeByte_eq {s : State} {a : Nat} {b : Byte} (h : SectorGives a b (sectorOf a) s) : homeByte s a = b := by
  obtain ⟨d, hd, hb⟩ := h
  rw [homeByte, hd.homeSector_eq, listAt_eq_getElem?, hb rfl, Option.getD_some]

/-- The home slice serves what was written there (R244, R246): each byte as the writes of its address agree on it. -/
theorem homeByte_homeWriteAs {s : State} {holder : Nat} {how : Nat → Install} {ws : List (Nat × Byte)} {a : Nat} {b : Byte}
    (hw : (a, b) ∈ ws) (hb : ∀ w ∈ ws, w.1 = a → w.2 = b) : homeByte (homeWriteAs s holder how ws) a = b := by
  have hbyte (old : List Byte) : (patchSector old (sectorWrites (sectorOf a) ws))[a % 32]? = some b := by
    refine patchSector_written (Nat.mod_lt _ (by decide)) (fun x hx hk => ?_) ⟨(a % 32, b), ?_, rfl⟩
    · obtain ⟨w, hmem, hsec, rfl⟩ := mem_sectorWrites.mp hx
      exact hb w hmem (eq_of_sectorOf_eq hsec hk)
    · exact mem_sectorWrites.mpr ⟨(a, b), hw, rfl, rfl⟩
  have hstep (u : State) (sec : Nat) : SectorGives a b sec (l2WriteSector (homeTake u holder sec) ws false (how sec) sec) :=
    ⟨_, sectorHolds_homeSliceWrite u holder sec ws false (how sec), fun hsec => hsec ▸ hbyte _⟩
  refine SectorGives.homeByte_eq (foldl_establishes hstep (fun u sec sec' h => ?_) _ _ _ (mem_sectorsOf hw))
  by_cases hs : sec' = sec
  · subst hs
    exact hstep u sec'
  · obtain ⟨d, hd, hb⟩ := h
    exact ⟨d, (hd.homeTake holder sec').l2WriteSector hs _ _ _, hb⟩

/-! ### A store of the module's own units -/

theorem mem_writesAt {x : Nat} {b : Byte} : ∀ {pa : Nat} {bs : List Byte},
    (x, b) ∈ writesAt pa bs ↔ ∃ k, x = pa + k ∧ bs[k]? = some b
  | pa, [] => by simp [writesAt]
  | pa, c :: bs => by
    simp only [writesAt, List.mem_cons, Prod.mk.injEq, mem_writesAt (bs := bs)]
    constructor
    · rintro (⟨rfl, rfl⟩ | ⟨k, rfl, hk⟩)
      · exact ⟨0, by simp⟩
      · exact ⟨k + 1, by omega, by simpa using hk⟩
    · rintro ⟨k, rfl, hk⟩
      cases k with
      | zero => exact .inl (by simpa using hk.symm)
      | succ k => exact .inr ⟨k, by omega, by simpa using hk⟩

/-- A byte that no locked frame holds reads as it was stored (R253). -/
theorem homeByte_unitStore {s : State} {pa k : Nat} {bs : List Byte} {b : Byte} (hk : bs[k]? = some b)
    (hl : locked s (pa + k) 1 = false) : homeByte (unitStore s pa bs) (pa + k) = b := by
  rw [unitStore, homeWrite]
  refine homeByte_homeWriteAs (List.mem_filter.mpr ⟨mem_writesAt.mpr ⟨k, rfl, hk⟩, by simp [hl]⟩) fun w hw he => ?_
  obtain ⟨j, hj, hb⟩ := mem_writesAt.mp (List.mem_filter.mp hw).1
  obtain rfl : j = k := by omega
  exact Option.some.inj (hb.symm.trans hk)

/-! ### A store where no cache holds anything -/

/-- No cache holds a sector. -/
def Uncached (s : State) : Prop := s.l1 = [] ∧ s.l2 = []

theorem homeByte_uncached {s : State} (h : Uncached s) (a : Nat) : homeByte s a = dramByte s a := by
  obtain ⟨hl1, hl2⟩ := h
  have hk : a % 32 < 32 := Nat.mod_lt _ (by decide)
  simp [homeByte, homeSector, l1Dirty, hl1, l2Sector, l2Find, hl2, dramSector, listAt_eq_getElem?, dramBytes_getElem?, hk, sectorOf,
    Nat.div_add_mod]

theorem cleanL1_empty {s : State} (h : s.l1 = []) (p : CacheSector → Bool) : cleanL1 s p = s := by
  have he : cleanL1 s p = { s with l1 := [] } := by simp only [cleanL1, h, List.filter_nil, List.foldl_nil, List.map_nil]
  rw [he, ← h]

theorem l1Drop_empty {s : State} (h : s.l1 = []) (p : CacheSector → Bool) : l1Drop s p = s := by
  have he : l1Drop s p = { s with l1 := [] } := by simp only [l1Drop, h, List.filter_nil, List.foldl_nil]
  rw [he, ← h]

theorem l2Other_empty {s : State} (h : s.l2 = []) (sec : Nat) (w : Install) : l2Other s sec w = s := by
  have he : l2Other s sec w = { s with l2 := [] } := by
    simp only [l2Other, l2Drop, cleanL2, h, List.filter_nil, List.foldl_nil, List.map_nil]
  rw [he, ← h]

/-- Where no first-level cache holds anything, to take a sector moves its token alone. -/
theorem homeTake_uncached {s : State} (h : s.l1 = []) (holder sec : Nat) :
    ∃ tokens, homeTake s holder sec = { s with tokHolder := tokens } := by
  have hpass : ∃ tokens, passToken s (regionOf sec) holder = { s with tokHolder := tokens } := by
    unfold passToken
    split
    · exact ⟨s.tokHolder, rfl⟩
    · exact ⟨smSet homeHolder s.tokHolder (regionOf sec) holder, by dsimp only; rw [cleanL1_empty h, l1Drop_empty h]⟩
  obtain ⟨tokens, hpass⟩ := hpass
  let u : State := { s with tokHolder := tokens }
  exact ⟨tokens, by rw [homeTake, hpass, cleanL1_empty (s := u) h, l1Drop_empty (s := u) h]⟩

/-- A sector that may not be installed is stored in DRAM where the second level holds nothing. -/
theorem l2Store_uncached {s : State} (h : s.l2 = []) (sec : Nat) (d : List Byte) (p : Bool) :
    l2Store s sec d p .never = toDram s sec d p := by
  have hfind : l2Find s sec = none := by rw [l2Find, h, List.find?_nil]
  have hadmit : l2Admit s sec .never = none := rfl
  simp only [l2Store, l2Other_empty h, hfind, hadmit]

/-- A sector's write leaves every byte that it does not name. -/
theorem l2WriteSector_uncached {s : State} (h : Uncached s) (sec : Nat) {ws : List (Nat × Byte)} {a : Nat} (ha : ∀ w ∈ ws, w.1 ≠ a) :
    Uncached (l2WriteSector s ws false .never sec) ∧ dramByte (l2WriteSector s ws false .never sec) a = dramByte s a := by
  obtain ⟨hl1, hl2⟩ := h
  rw [l2WriteSector, l2Store_uncached hl2]
  refine ⟨⟨(toDram_l1 _ _ _ _).trans hl1, (toDram_l2 _ _ _ _).trans hl2⟩, ?_⟩
  rw [dramByte_toDram _ _ _ _ (patchSector_length _ _)]
  split
  case isFalse => rfl
  case isTrue hsec =>
    have hk : a % 32 < 32 := Nat.mod_lt _ (by decide)
    have hkept : ∀ w ∈ sectorWrites sec ws, w.1 ≠ a % 32 := by
      intro x hx hk
      obtain ⟨w, hmem, hw, rfl⟩ := mem_sectorWrites.mp hx
      exact ha w hmem (eq_of_sectorOf_eq (hw.trans hsec.symm) hk)
    have hold : dramByte s (32 * sec + a % 32) = dramByte s a := by rw [← hsec, sectorOf, Nat.div_add_mod]
    rw [patchSector_kept hk hkept, l2Sector, l2Find, hl2]
    simpa [dramSector, dramBytes_getElem?, hk] using hold

/-- The same at the home slice, which takes the sector first. -/
theorem homeSliceWrite_uncached {s : State} (h : Uncached s) (holder sec : Nat) {ws : List (Nat × Byte)} {a : Nat}
    (ha : ∀ w ∈ ws, w.1 ≠ a) :
    Uncached (l2WriteSector (homeTake s holder sec) ws false .never sec) ∧
      dramByte (l2WriteSector (homeTake s holder sec) ws false .never sec) a = dramByte s a := by
  obtain ⟨tokens, htake⟩ := homeTake_uncached h.1 holder sec
  rw [htake]
  exact l2WriteSector_uncached (s := { s with tokHolder := tokens }) h sec ha

/-- Nothing is pending that an access would settle first: no quantum's sum, and no token at a link station (R155, R156). -/
theorem flushQuanta_idle {s : State} (hq : s.quanta = []) (ht : ∀ x ∈ s.tokHolder, isStation x.2 = false) (lo hi : Nat) :
    flushQuanta s lo hi = s := by
  have hnone : (s.tokHolder.filter fun x => isStation x.2 && decide (512 * x.1 < hi) && decide (lo < 512 * x.1 + 512)) = [] :=
    List.filter_eq_nil_iff.mpr fun x hx => by simp [ht x hx]
  have hrecall : recallStations s lo hi = s := by rw [recallStations, hnone, List.foldl_nil]
  have hsums : applySums s lo hi = { s with quanta := [] } := by simp only [applySums, hq, List.filter_nil, List.foldl_nil]
  rw [flushQuanta, hrecall, hsums, ← hq]

/-- A store of the module's own units leaves every byte outside it, where no cache, pending sum or link station holds anything. -/
theorem homeByte_unitStore_outside {s : State} (hc : Uncached s) (hq : s.quanta = []) (ht : ∀ x ∈ s.tokHolder, isStation x.2 = false)
    {pa a : Nat} {bs : List Byte} (ha : a < pa ∨ pa + bs.length ≤ a) : homeByte (unitStore s pa bs) a = homeByte s a := by
  have hnamed : ∀ w ∈ (writesAt pa bs).filter fun w => !locked s w.1 1, w.1 ≠ a := by
    intro w hw he
    obtain ⟨k, hk, hb⟩ := mem_writesAt.mp (List.mem_filter.mp hw).1
    have := (List.getElem?_eq_some_iff.mp hb).1
    omega
  obtain ⟨hc', hbyte⟩ : Uncached (unitStore s pa bs) ∧ dramByte (unitStore s pa bs) a = dramByte s a := by
    rw [unitStore, flushQuanta_idle hq ht]
    refine fold_keeps (P := fun u : State => Uncached u ∧ dramByte u a = dramByte s a) (fun u sec h => ?_) _ _ ⟨hc, rfl⟩
    obtain ⟨hu, hub⟩ := h
    obtain ⟨hu', hub'⟩ := homeSliceWrite_uncached hu homeHolder sec hnamed
    exact ⟨hu', hub'.trans hub⟩
  rw [homeByte_uncached hc', homeByte_uncached hc, hbyte]

/-! ### What a store leaves beside memory -/

theorem MemoryFrame.homeWriteAs {r s : State} (h : MemoryFrame r s) (holder : Nat) (how : Nat → Install) (ws : List (Nat × Byte)) :
    MemoryFrame r (Machine.homeWriteAs s holder how ws) :=
  fold_keeps (fun _ _ h => (((h.passToken _ _).cleanL1 _).l1Drop _).l2WriteSector _ _ _ _) _ _ h

theorem MemoryFrame.unitStore {r s : State} (h : MemoryFrame r s) (pa : Nat) (bs : List Byte) :
    MemoryFrame r (Machine.unitStore s pa bs) := (h.flushQuanta _ _).homeWriteAs _ _ _

end Sys2Proof.Machine

/-!
Attestation and the signwriter (R250 to R255): the requests, the answers, the frames' records, marks, batches and their end.
-/
namespace Sys2Proof.Machine

/-! ### Attestation (R250, R251) -/

section
variable {s : State} {v : BitVec 64}

theorem atreq_eq : exec (.atreq v) s = .next (
    let pa := v.toNat % 2 ^ 52
    if pa % 4096 ≠ 0 ∨ !inFast pa (pa + 4096) then { s with aterr := 1 }
    else if s.atbusy then { s with aterr := 2 }
    else { s with atbusy := true, atdone := false, aterr := 0, atbuf := pa }) := by
  have he : exec (.atreq v) s = execAtreq v s := rfl
  rw [he, execAtreq, bits64_zero]

theorem atreq_badPage (h : ¬(v.toNat % 2 ^ 52 % 4096 = 0 ∧ inFast (v.toNat % 2 ^ 52) (v.toNat % 2 ^ 52 + 4096) = true)) :
    exec (.atreq v) s = .next { s with aterr := 1 } :=
  atreq_eq.trans (congrArg _ (if_pos (by simpa only [Classical.not_and_iff_not_or_not, Bool.not_eq_true, Bool.not_eq_true'] using h)))

variable (h : v.toNat % 2 ^ 52 % 4096 = 0 ∧ inFast (v.toNat % 2 ^ 52) (v.toNat % 2 ^ 52 + 4096) = true)
include h

theorem atreq_page : exec (.atreq v) s = .next (
    if s.atbusy then { s with aterr := 2 } else { s with atbusy := true, atdone := false, aterr := 0, atbuf := v.toNat % 2 ^ 52 }) :=
  atreq_eq.trans (congrArg _ (if_neg (by simp only [h.1, h.2, ne_eq, not_true_eq_false, Bool.not_true, Bool.false_eq_true, or_self,
    not_false_eq_true])))

theorem atreq_busy (hb : s.atbusy = true) : exec (.atreq v) s = .next { s with aterr := 2 } :=
  (atreq_page h).trans (congrArg _ (if_pos hb))

theorem atreq_begins (hb : s.atbusy = false) : exec (.atreq v) s = .next
    { s with atbusy := true, atdone := false, aterr := 0, atbuf := v.toNat % 2 ^ 52 } :=
  (atreq_page h).trans (congrArg _ (if_neg (by rw [hb]; exact Bool.false_ne_true)))

end

theorem attestationAnswer_idle {s : State} (h : s.atbusy = false) : exec .attestationAnswer s = .next s :=
  congrArg _ (if_pos (by rw [h]; rfl))

/-- The answer goes to the buffer of the request, under the next signature, for the nonce that stands in it now. -/
theorem attestationAnswer_given {s : State} (h : s.atbusy = true) : exec .attestationAnswer s = .next (
    let u := flushQuanta s s.atbuf (s.atbuf + 32)
    { unitStore u (s.atbuf + 64) (attestation u (homeBytes u s.atbuf 32)) with
      atbusy := false, atdone := true, signatures := s.signatures + 1 }) := by
  have hframe := (MemoryFrame.refl s).flushQuanta s.atbuf (s.atbuf + 32)
  have hbuf : (flushQuanta s s.atbuf (s.atbuf + 32)).atbuf = s.atbuf := (congrArg State.atbuf hframe.rest :)
  have hcount : (flushQuanta s s.atbuf (s.atbuf + 32)).signatures = s.signatures := (congrArg State.signatures hframe.rest :)
  have he : exec .attestationAnswer s = execAttestationAnswer s := rfl
  simp only [he, execAttestationAnswer, h, hbuf, hcount, Bool.not_true, Bool.false_eq_true, if_false]

/-- Strings of n bytes each, one after the other. -/
theorem length_flatMap_eq {α : Type} {f : α → List Byte} {n : Nat} (hf : ∀ x, (f x).length = n) (l : List α) :
    (l.flatMap f).length = n * l.length := by
  induction l with
  | nil => rfl
  | cons x l ih => rw [List.flatMap_cons, List.length_append, hf, ih, List.length_cons, Nat.mul_succ, Nat.add_comm]

/-- Strings of at most n bytes each, one after the other. -/
theorem length_flatMap_le {α : Type} {f : α → List Byte} {n : Nat} {l : List α} (hf : ∀ x ∈ l, (f x).length ≤ n) :
    (l.flatMap f).length ≤ n * l.length := by
  induction l with
  | nil => exact Nat.le_refl 0
  | cons x l ih =>
    obtain ⟨hx, hl⟩ := List.forall_mem_cons.mp hf
    have := ih hl
    rw [List.flatMap_cons, List.length_append, List.length_cons, Nat.mul_succ]
    omega

/-- An answer begins with the nonce and the eight measurements (R251). -/
theorem attestation_head {s : State} (h : s.measure.length = 8) (nonce : List Byte) :
    (attestation s nonce).take (nonce.length + 256) = nonce ++ s.measure.flatMap fun m => bytesOf 32 m.toNat := by
  have hlen : (nonce ++ s.measure.flatMap fun m => bytesOf 32 m.toNat).length = nonce.length + 256 := by
    rw [List.length_append, length_flatMap_eq (fun _ => bytesOf_length _ _), h]
  simp only [attestation, List.append_assoc]
  rw [← List.append_assoc nonce, ← hlen, List.take_left]

/-! ### Frames (R253, R254) -/

theorem natOf_lt : ∀ bs : List Byte, natOf bs < 256 ^ bs.length
  | [] => by simp [natOf]
  | b :: bs => by
    have hb := b.isLt
    have hbs := natOf_lt bs
    rw [natOf, List.length_cons, Nat.pow_succ]
    omega

theorem recWord_lt (bs : List Byte) (k : Nat) : recWord bs k < 2 ^ 64 :=
  calc recWord bs k < 256 ^ ((bs.drop (8 * k)).take 8).length := natOf_lt _
    _ ≤ 256 ^ 8 := Nat.pow_le_pow_right (by decide) (List.length_take_le 8 _)

/-- The top field of a word of 64 bits needs no bound. -/
theorem bitsN_top {x lo : Nat} (hx : x < 2 ^ 64) (hlo : lo ≤ 63) : bitsN x 63 lo = x / 2 ^ lo := by
  have hword : bitsN x 63 lo = bits64 (BitVec.ofNat 64 x) 63 lo := by rw [bitsN, bits64, BitVec.toNat_ofNat, Nat.mod_eq_of_lt hx]
  rw [hword, bits64_above _ hlo, BitVec.toNat_ofNat, Nat.mod_eq_of_lt hx]

theorem bitsN_zero (x hi : Nat) : bitsN x hi 0 = x % 2 ^ (hi + 1) := by
  simp only [bitsN, Nat.pow_zero, Nat.div_one, Nat.sub_zero]

/-- The frame that a record describes, under a serial number (R253). -/
def recordedFrame (w : Nat → Nat) (serial : Nat) : Frame :=
  { serial := serial, asid := bitsN (w 2) 12 0, base := bitsN (w 0) 55 0, width := bitsN (w 1) 15 0, height := bitsN (w 1) 31 16
    pitch := bitsN (w 1) 51 32, wide := bitN (w 1) 52, marked := false, digest := [], batched := false, locked := true }

theorem recordedFrame_eq (w : Nat → Nat) (serial : Nat) : recordedFrame w serial =
    { serial := serial, asid := w 2 % 2 ^ 13, base := w 0 % 2 ^ 56, width := w 1 % 2 ^ 16, height := w 1 / 2 ^ 16 % 2 ^ 16
      pitch := w 1 / 2 ^ 32 % 2 ^ 20, wide := w 1 / 2 ^ 52 % 2 == 1, marked := false, digest := [], batched := false, locked := true } := by
  simp only [recordedFrame, bitsN_zero]
  rfl

/-- A record has a reserved field that is not zero (R253). -/
abbrev ReservedRecord (w : Nat → Nat) : Prop :=
  bitsN (w 0) 63 56 ≠ 0 ∨ bitsN (w 1) 63 53 ≠ 0 ∨ bitsN (w 2) 63 13 ≠ 0 ∨ w 3 ≠ 0

theorem reservedRecord_iff (bs : List Byte) : ReservedRecord (recWord bs) ↔
    recWord bs 0 / 2 ^ 56 ≠ 0 ∨ recWord bs 1 / 2 ^ 53 ≠ 0 ∨ recWord bs 2 / 2 ^ 13 ≠ 0 ∨ recWord bs 3 ≠ 0 := by
  have hword (k : Nat) := recWord_lt bs k
  rw [ReservedRecord, bitsN_top (hword 0) (by decide), bitsN_top (hword 1) (by decide), bitsN_top (hword 2) (by decide)]

/-- Every byte of a frame lies in an EGRESS range of its ASID (R253). -/
def frameCovered (s : State) (f : Frame) : Bool := egressCovers s f.asid (f.base + frameLen f) ((asidDesc s f.asid).count + 1) f.base

/-- The number of the frame that is submitted next. -/
def nextSerial (s : State) : Nat := (s.serial.toNat + 1) % 2 ^ 56

/-- The state in which the record of a submission has been read. -/
def recordRead (s : State) (v : BitVec 64) : State := flushQuanta s (v.toNat % 2 ^ 52) (v.toNat % 2 ^ 52 + 32)

/-- The record of a submission, as the signwriter reads it. -/
def submittedRecord (s : State) (v : BitVec 64) : Nat → Nat := recWord (physBytes (recordRead s v) (v.toNat % 2 ^ 52) 32)

/-- The frame of a submission, under the next serial number. -/
def submittedFrame (s : State) (v : BitVec 64) : Frame := recordedFrame (submittedRecord s v) (nextSerial s)

theorem nextSerial_recordRead (s : State) (v : BitVec 64) : nextSerial (recordRead s v) = nextSerial s := by
  have hserial : (recordRead s v).serial = s.serial := (congrArg State.serial ((MemoryFrame.refl s).flushQuanta _ _).rest :)
  rw [nextSerial, hserial, nextSerial]

section
variable {s : State} {v : BitVec 64}

theorem swsubmit_unpopulated (h : populated (v.toNat % 2 ^ 52) 32 = false) :
    exec (.swsubmit v) s = .fault (.unpopulated (v.toNat % 2 ^ 52)) := by
  have he : exec (.swsubmit v) s = execSwsubmit v s := rfl
  simp only [he, execSwsubmit, bits64_zero, h, Bool.not_false, if_true]

variable (h : populated (v.toNat % 2 ^ 52) 32 = true)
include h

/-- A record in memory is judged by its reserved fields, then by the ranges under its frame (R253). -/
theorem swsubmit_judged : exec (.swsubmit v) s = .next (
    let u := recordRead s v
    let f := submittedFrame s v
    if ReservedRecord (submittedRecord s v) then { u with swst := 2 }
    else if !frameCovered u f then { u with swst := 1 }
    else recallFrame { u with swst := 0, serial := BitVec.ofNat 56 (nextSerial s), frames := u.frames ++ [f] } f) := by
  have he : exec (.swsubmit v) s = execSwsubmit v s := rfl
  rw [he, execSwsubmit, bits64_zero, submittedFrame, ← nextSerial_recordRead s v]
  exact if_neg (by rw [h]; exact Bool.false_ne_true)

theorem swsubmit_reserved (hr : ReservedRecord (submittedRecord s v)) :
    exec (.swsubmit v) s = .next { recordRead s v with swst := 2 } :=
  (swsubmit_judged h).trans (congrArg _ (if_pos hr))

variable (hr : ¬ReservedRecord (submittedRecord s v))
include hr

theorem swsubmit_uncovered (hc : frameCovered (recordRead s v) (submittedFrame s v) = false) :
    exec (.swsubmit v) s = .next { recordRead s v with swst := 1 } :=
  (swsubmit_judged h).trans (congrArg _ ((if_neg hr).trans (if_pos (by rw [hc]; rfl))))

/-- The frame is locked under the next serial number, and its tokens are recalled. -/
theorem swsubmit_locks (hc : frameCovered (recordRead s v) (submittedFrame s v) = true) :
    exec (.swsubmit v) s = .next (recallFrame { recordRead s v with
      swst := 0, serial := BitVec.ofNat 56 (nextSerial s), frames := (recordRead s v).frames ++ [submittedFrame s v] }
      (submittedFrame s v)) :=
  (swsubmit_judged h).trans (congrArg _ ((if_neg hr).trans (if_neg (by rw [hc]; exact Bool.false_ne_true))))

end

/-! ### Marks (R254) -/

theorem signwriterMark_idle {s : State} (h : ∀ f ∈ s.frames, f.locked = true → f.marked = true) :
    exec .signwriterMark s = .next s := by
  have he : exec .signwriterMark s = execSignwriterMark s := rfl
  have hnone : (s.frames.find? fun f => f.locked && !f.marked) = none := by simpa using h
  simp only [he, execSignwriterMark, hnone]

/-- A frame is marked, and its digest is that of its bytes as they are marked. -/
theorem signwriterMark_marks {s : State} {f : Frame} (h : (s.frames.find? fun f => f.locked && !f.marked) = some f) :
    exec .signwriterMark s = .next (
      let u := markFrame (flushFrame s f) f
      { u with frames :=
        u.frames.map fun x => if x.serial = f.serial then { x with marked := true, digest := sha256 (frameBytes u f) } else x }) := by
  have he : exec .signwriterMark s = execSignwriterMark s := rfl
  simp only [he, execSignwriterMark, h, beq_iff_eq]

/-! ### Batches (R255) -/

/-- The frames marked since the previous batch. -/
def newlyMarked (s : State) : List Frame := s.frames.filter fun f => f.marked && !f.batched

/-- What a batch signs: its number, the count of its frames, the digest of the identity key, each frame's serial and digest. -/
def batchBody (s : State) : List Byte :=
  bytesOf 8 s.batchNo ++ bytesOf 8 (newlyMarked s).length ++ sha256 Config.identityKey ++
    (newlyMarked s).flatMap fun f => bytesOf 8 f.serial ++ f.digest

/-- The manifest of a batch. -/
def manifest (s : State) : List Byte := batchBody s ++ signNow s (batchBody s)

/-- The state in which a batch is written. -/
def batchClosed (s : State) : State :=
  { s with batchNo := s.batchNo + 1, signatures := s.signatures + 1
           frames := (s.frames.map fun f => { f with batched := f.batched || f.marked }).filter fun f => !frameDone f }

theorem swbatch_eq (s : State) (v : BitVec 64) :
    exec (.swbatch v) s = controlStore (batchClosed s) (v.toNat % 2 ^ 52) (manifest s) := by
  have hlisted : (fun f : Frame => if f.marked then { f with batched := true } else f) =
      fun f => { f with batched := f.batched || f.marked } := by
    funext f
    split
    next hm => rw [Bool.or_eq_true_iff.mpr (.inr hm)]
    next hm =>
      have hkept : (f.batched || f.marked) = f.batched := by rw [Bool.eq_false_iff.mpr hm, Bool.or_false]
      rw [hkept]
  have he : exec (.swbatch v) s = execSwbatch v s := rfl
  rw [he, execSwbatch, hlisted, bits64_zero]
  rfl

/-- A frame that a batch leaves is listed, where it has been marked. -/
theorem batchClosed_frames (s : State) : ∀ f ∈ (batchClosed s).frames, f.marked = true → f.batched = true := by
  intro f hf hm
  obtain ⟨x, -, rfl⟩ := List.mem_map.mp (List.mem_filter.mp hf).1
  exact Bool.or_eq_true_iff.mpr (.inr hm)

theorem sha256_length (bs : List Byte) : (sha256 bs).length = 32 :=
  length_flatMap_eq (n := 4) (fun w => by rw [List.length_reverse, bytesOf_length]) _

theorem signNow_length (s : State) (bs : List Byte) : (signNow s bs).length = 384 := by simp [signNow]

/-- A manifest of frames that have their digests has 40 bytes for each. -/
theorem manifest_length_le {s : State} (h : ∀ f ∈ s.frames, f.digest.length ≤ 32) :
    (manifest s).length ≤ 384 + 48 + 40 * s.frames.length := by
  have hcount : (newlyMarked s).length ≤ s.frames.length := List.length_filter_le _ _
  have hframes : ((newlyMarked s).flatMap fun f => bytesOf 8 f.serial ++ f.digest).length ≤ 40 * (newlyMarked s).length := by
    refine length_flatMap_le fun f hf => ?_
    have := h f (List.mem_filter.mp hf).1
    simp only [List.length_append, bytesOf_length]
    omega
  simp only [manifest, batchBody, List.length_append, bytesOf_length, sha256_length, signNow_length]
  omega

/-! ### A store of a control core (R20) -/

section
variable {s : State} {pa : Nat} {bs : List Byte}

theorem controlStore_unpopulated {w : Nat × Byte}
    (h : ((writesAt pa bs).find? fun w => !(isFast w.1 || isCap w.1 || isDev w.1)) = some w) :
    controlStore s pa bs = .fault (.unpopulated w.1) := by
  simp only [controlStore, h]

/-- A store that ends in the fast tier lies there. -/
theorem controlStore_fast (h : pa + bs.length ≤ Config.fastHi) : controlStore s pa bs = .next (unitStore s pa bs) := by
  have hdev : ¬Config.devLo ≤ pa := by
    simp only [Config.fastHi, Config.devLo] at h ⊢
    omega
  have hfast : ((writesAt pa bs).find? fun w => !(isFast w.1 || isCap w.1 || isDev w.1)) = none := by
    rw [List.find?_eq_none]
    intro w hw
    obtain ⟨k, hk, hb⟩ := mem_writesAt.mp hw
    have hin : w.1 < Config.fastHi := by
      have := (List.getElem?_eq_some_iff.mp hb).1
      omega
    simp [isFast, hin]
  simp only [controlStore, hfast, hdev, if_false]

/-- A store that is performed leaves everything but memory. -/
theorem MemoryFrame.of_controlStore {t : State} (h : controlStore s pa bs = .next t) : MemoryFrame s t := by
  unfold controlStore at h
  split at h
  · cases h
  · cases h
    exact (MemoryFrame.refl s).unitStore _ _

end

/-- Settles O50: an answer and a mark are what the unit does in its one case, a submission is judged by its record and the ranges under
its frame, and a manifest reads back as it was stored. -/
theorem attestationAndSignwriterEvents : Obligations.AttestationAndSignwriterEvents := by
  intro s v nonce out pa page
  refine ⟨atreq_badPage, atreq_busy, atreq_begins, attestationAnswer_idle, attestationAnswer_given, rfl, fun bs => ?head,
    swsubmit_unpopulated, fun hp => ?submit, signwriterMark_idle, fun f hf => ?mark, ?batch, fun t ht => ?listed, fun hd hpa => ?fits, ?free⟩
  case head =>
    by_cases h : s.measure.length = 8
    · exact .inl (attestation_head h bs)
    · exact .inr h
  case submit =>
    intro u w reserved serial f covered
    have hreserved : ReservedRecord (submittedRecord s v) ↔ reserved := reservedRecord_iff _
    have hframe : submittedFrame s v = f := recordedFrame_eq _ _
    have hcovered : frameCovered (recordRead s v) (submittedFrame s v) = covered := by rw [hframe]; rfl
    refine ⟨fun hr => swsubmit_reserved hp (hreserved.mpr hr),
      fun hr hc => swsubmit_uncovered hp (mt hreserved.mp hr) (hcovered.trans hc), fun hr hc => ?_⟩
    rw [← hframe]
    exact swsubmit_locks hp (mt hreserved.mp hr) (hcovered.trans hc)
  case mark => exact ⟨_, signwriterMark_marks hf, rfl, rfl⟩
  case batch =>
    intro fs body bytes closed t
    refine ⟨fun hfast => ⟨(swbatch_eq s v).trans (controlStore_fast hfast), fun k hk hl => ?_, fun hl1 hl2 hq hs a ha => ?_⟩,
      fun w hw => (swbatch_eq s v).trans (controlStore_unpopulated hw)⟩
    · have hbyte := List.getElem?_eq_getElem hk
      exact (congrArg some (homeByte_unitStore hbyte hl)).trans hbyte.symm
    · exact homeByte_unitStore_outside (s := closed) ⟨hl1, hl2⟩ hq hs ha
  case listed =>
    have hrest := (MemoryFrame.of_controlStore ((swbatch_eq s v).symm.trans ht)).rest
    have hnumber : t.batchNo = s.batchNo + 1 := (congrArg State.batchNo hrest :)
    have hframes : t.frames = (batchClosed s).frames := (congrArg State.frames hrest :)
    exact ⟨hnumber, hframes ▸ batchClosed_frames s⟩
  case fits =>
    have := manifest_length_le hd
    exact ⟨_, (swbatch_eq s v).trans (controlStore_fast (by omega))⟩
  case free =>
    have he : exec (.swfree v) s = execSwfree v s := rfl
    simp only [out, he, execSwfree, bits64_zero, beq_iff_eq]

end Sys2Proof.Machine

/-!
Links and PCIe devices (R237 to R247, R256): what each event leaves under its condition, and that a port which leaves service fails
every request that it has outstanding.
-/
namespace Sys2Proof.Machine

/-! ### Training (R237, R245) -/

section
variable {s : State} {port : BitVec 4} {width : BitVec 3} (peer : BitVec 16)

/-- The widths of a link (R237), as LINK_TRAINED tests them. -/
theorem legalWidth_iff : (width.toNat == 1 || width.toNat == 2 || width.toNat == 4) = true ↔ width = 1 ∨ width = 2 ∨ width = 4 := by
  simp [BitVec.toNat_eq, or_assoc]

/-- A legal width that the good lanes allow is at least one lane, so the widest width of these lanes is legal too. -/
theorem widestWidth_eq {n : Nat} (h : n ≠ 0) : widestWidth n = if 4 ≤ n then 4 else if 2 ≤ n then 2 else 1 := by
  unfold widestWidth
  repeat' split
  all_goals omega

/-- A port in service, an illegal width, or one beyond the good lanes changes nothing. -/
theorem linkTrained_ignored
    (h : (portOf s port.toNat).pstate = 2 ∨ ¬(width = 1 ∨ width = 2 ∨ width = 4) ∨ goodLanes (portOf s port.toNat) < width.toNat) :
    exec (.linkTrained port width peer) s = .next s := by
  rw [← legalWidth_iff] at h
  exact congrArg _ (if_pos (by simpa only [Bool.not_eq_true', Bool.not_eq_true] using h))

variable (hs : (portOf s port.toNat).pstate ≠ 2) (hw : width = 1 ∨ width = 2 ∨ width = 4)
  (hl : width.toNat ≤ goodLanes (portOf s port.toNat))
include hs hw hl

/-- A port that may be trained trains as one that is new, or as one that retrains. -/
theorem linkTrained_taken : exec (.linkTrained port width peer) s = .next (
    match (portOf s port.toNat).retrainFrom with
    | some old =>
      if width.toNat ≠ widestWidth (goodLanes (portOf s port.toNat)) then s
      else modPort s port.toNat fun p =>
        { p with pstate := 2, width := width, retrainFrom := none, repairs := if width = old then p.repairs else p.repairs + 1 }
    | none =>
      { modPort s port.toNat (fun p => { p with pstate := 2, width := width, peerid := peer }) with
        linkMap := s.linkMap ||| (1#16 <<< port.toNat) }) := by
  rw [← legalWidth_iff] at hw
  refine congrArg _ (if_neg ?_)
  simp only [hs, hw, Bool.not_true, Bool.false_eq_true, Nat.not_lt.mpr hl, or_self, not_false_eq_true]

/-- A port enters service at the width that it has trained at. -/
theorem linkTrained_enters (h : (portOf s port.toNat).retrainFrom = none) : exec (.linkTrained port width peer) s = .next
    { modPort s port.toNat (fun p => { p with pstate := 2, width := width, peerid := peer }) with
      linkMap := s.linkMap ||| (1#16 <<< port.toNat) } := by
  rw [linkTrained_taken peer hs hw hl, h]

/-- A port that retrains enters service again at the widest width of its good lanes alone. -/
theorem linkTrained_repairs {old : BitVec 3} (h : (portOf s port.toNat).retrainFrom = some old) :
    exec (.linkTrained port width peer) s = .next (
      let n := goodLanes (portOf s port.toNat)
      if width.toNat = (if 4 ≤ n then 4 else if 2 ≤ n then 2 else 1) then modPort s port.toNat fun p =>
        { p with pstate := 2, width := width, retrainFrom := none, repairs := if width = old then p.repairs else p.repairs + 1 }
      else s) := by
  have hlane : goodLanes (portOf s port.toNat) ≠ 0 := by
    obtain rfl | rfl | rfl := hw <;> exact Nat.ne_of_gt (Nat.lt_of_lt_of_le (by decide) hl)
  rw [linkTrained_taken peer hs hw hl, h]
  simp only [widestWidth_eq hlane, ne_eq, ite_not]

end

/-! ### Replay (R245) -/

section
variable {s : State} {port : BitVec 4} {seq : Nat}

theorem flitRejected_ignored (h : (portOf s port.toNat).pstate ≠ 2 ∨ seq < retryPoint s port.toNat ∨
    (portOf s port.toNat).nextSeq ≤ seq) : exec (.flitRejected port seq) s = .next s := congrArg _ (if_pos h)

variable (hs : (portOf s port.toNat).pstate = 2) (hlo : retryPoint s port.toNat ≤ seq) (hhi : seq < (portOf s port.toNat).nextSeq)
include hs hlo hhi

/-- An unacknowledged flit begins a replay episode, or joins the one that is outstanding. -/
theorem flitRejected_taken : exec (.flitRejected port seq) s = .next (
    match (portOf s port.toNat).replaying with
    | some m => modPort s port.toNat fun p => { p with replaying := some (max m seq) }
    | none => modPort s port.toNat fun p => { p with replays := p.replays + 1, replaying := some seq }) :=
  congrArg _ (if_neg (by simp only [hs, ne_eq, not_true_eq_false, false_or]; omega))

theorem flitRejected_begins (h : (portOf s port.toNat).replaying = none) : exec (.flitRejected port seq) s = .next
    (modPort s port.toNat fun p => { p with replays := p.replays + 1, replaying := some seq }) := by
  rw [flitRejected_taken hs hlo hhi, h]

theorem flitRejected_joins {m : Nat} (h : (portOf s port.toNat).replaying = some m) : exec (.flitRejected port seq) s = .next
    (modPort s port.toNat fun p => { p with replaying := some (max m seq) }) := by
  rw [flitRejected_taken hs hlo hhi, h]

end

/-! ### A port leaves service (R231, R241, R245) -/

/-- A request with its answer, where it has the identifier that is answered. -/
def withAnswer (id : Nat) (a : Bool × List Byte) (x : PeerRequest) : PeerRequest :=
  if x.id == id then { x with answer := some a } else x

/-- s after a request of an identifier is over: it holds its answer, or is gone, and at most a team's report has changed beside it. -/
structure RequestOver (s t : State) (id : Nat) : Prop where
  links : t.links = s.links
  linkMap : t.linkMap = s.linkMap
  peers : (∃ a, t.peers = s.peers.map (withAnswer id a)) ∨ t.peers = s.peers.filter fun x => x.id != id

theorem requestOver_answerRequest (s : State) (r : PeerRequest) (ok : Bool) (bytes : List Byte) :
    RequestOver s (answerRequest s r ok bytes) r.id := by
  unfold answerRequest
  dsimp only
  split
  next =>
    split
    · exact ⟨rfl, rfl, .inl ⟨_, rfl⟩⟩
    · exact ⟨rfl, rfl, .inr rfl⟩
  next =>
    split
    · exact ⟨rfl, rfl, .inl ⟨_, rfl⟩⟩
    · split <;> exact ⟨rfl, rfl, .inr rfl⟩

/-- A request that is still without an answer was so before, and has another identifier. -/
theorem RequestOver.unanswered {s t : State} {id : Nat} (h : RequestOver s t id) {x : PeerRequest} (hx : x ∈ t.peers)
    (ha : x.answer = none) : x ∈ s.peers ∧ x.id ≠ id := by
  obtain ⟨a, hp⟩ | hp := h.peers
  · obtain ⟨y, hy, rfl⟩ := List.mem_map.mp (hp ▸ hx)
    by_cases hid : y.id = id
    · simp [withAnswer, hid] at ha
    · simpa [withAnswer, hid] using hy
  · simpa [hp] using hx

/-- Every request of a list fails. -/
def failRequests (s : State) (rs : List PeerRequest) : State := rs.foldl (fun s r => answerRequest s r false []) s

theorem failRequests_links (s : State) (rs : List PeerRequest) : (failRequests s rs).links = s.links :=
  fold_keeps (P := fun u : State => u.links = s.links) (fun u r h => (requestOver_answerRequest u r false []).links.trans h) _ _ rfl

theorem failRequests_linkMap (s : State) (rs : List PeerRequest) : (failRequests s rs).linkMap = s.linkMap :=
  fold_keeps (P := fun u : State => u.linkMap = s.linkMap) (fun u r h => (requestOver_answerRequest u r false []).linkMap.trans h) _ _ rfl

/-- A request that is still without an answer was so before, and is none of the list. -/
theorem failRequests_unanswered {s : State} {rs : List PeerRequest} {x : PeerRequest} (hx : x ∈ (failRequests s rs).peers)
    (ha : x.answer = none) : x ∈ s.peers ∧ x ∉ rs := by
  have hover (u : State) (r : PeerRequest) := requestOver_answerRequest u r false []
  have hold : ∀ y ∈ (failRequests s rs).peers, y.answer = none → y ∈ s.peers :=
    fold_keeps (P := fun u : State => ∀ y ∈ u.peers, y.answer = none → y ∈ s.peers)
      (fun u r h y hy hn => h y ((hover u r).unanswered hy hn).1 hn) _ _ fun _ hy _ => hy
  have hother : ∀ r ∈ rs, ∀ y ∈ (failRequests s rs).peers, y.answer = none → y.id ≠ r.id :=
    foldl_establishes (P := fun (r : PeerRequest) (u : State) => ∀ y ∈ u.peers, y.answer = none → y.id ≠ r.id)
      (fun u r y hy hn => ((hover u r).unanswered hy hn).2)
      (fun u r r' h y hy hn => h y ((hover u r').unanswered hy hn).1 hn) _ _
  exact ⟨hold x hx ha, fun hm => hother x hm x hx ha rfl⟩

/-- A port as it stands out of service. -/
def Port.outOfService (p : Port) : Port := { p with pstate := 3, width := 0, replaying := none, retrainFrom := none }

theorem leaveService_eq (s : State) (n : Nat) : leaveService s n = requestReplacement (failRequests
    { modPort s n Port.outOfService with linkMap := s.linkMap &&& ~~~(1#16 <<< n) } (unacked s n)) := rfl

theorem portOf_modPort {s : State} {n : Nat} {p : Port} (h : listAt s.links n = some p) (f : Port → Port) :
    portOf (modPort s n f) n = f p := by
  simp only [portOf, modPort, listAt_modify_self, h, Option.map_some, Option.getD_some]

/-- A port in service, or one that retrains, is a port of the module: any other number names a port as it is after reset. -/
theorem listAt_portOf {s : State} {n : Nat} (h : (portOf s n).pstate = 2 ∨ (portOf s n).retrainFrom ≠ none) :
    listAt s.links n = some (portOf s n) := by
  unfold portOf at h ⊢
  cases hp : listAt s.links n with
  | some p => rfl
  | none => simp [hp, Port.afterReset] at h

theorem leaveService_pstate {s : State} {n : Nat} (h : (portOf s n).pstate = 2 ∨ (portOf s n).retrainFrom ≠ none) :
    (portOf (leaveService s n) n).pstate = 3 := by
  have hport : portOf (leaveService s n) n = portOf (modPort s n Port.outOfService) n := by
    simp only [portOf, leaveService_eq, requestReplacement, failRequests_links]
  rw [hport, portOf_modPort (listAt_portOf h), Port.outOfService]

theorem leaveService_linkMap (s : State) (n : Nat) : (leaveService s n).linkMap.getLsbD n = false := by
  simp only [leaveService_eq, requestReplacement, failRequests_linkMap]
  simp

/-- No request of the port stays without an answer (R241). -/
theorem leaveService_answers (s : State) (n : Nat) : ∀ r ∈ (leaveService s n).peers, r.port = n → r.answer ≠ none := by
  intro r hr hn ha
  obtain ⟨hs, hgone⟩ := failRequests_unanswered (rs := unacked s n) hr ha
  exact hgone (List.mem_filter.mpr ⟨hs, by simp [hn, ha]⟩)

/-! ### The repair of a lane (R245) -/

/-- The state in which a port has lost a lane. -/
def laneGone (s : State) (n : Nat) (lane : BitVec 2) : State :=
  modPort s n fun p => { p with laneok := p.laneok &&& ~~~(1#4 <<< lane.toNat) }

section
variable {s : State} {port : BitVec 4} {lane : BitVec 2}

theorem laneRepair_eq : exec (.laneRepair port lane) s = .next (
    let n := port.toNat
    let u := laneGone s n lane
    let q := portOf u n
    if q.pstate ≠ 2 ∧ q.retrainFrom.isNone then u
    else if goodLanes q = 0 then leaveService u n
    else if q.retrainFrom.isSome then u
    else modPort u n fun p => { p with pstate := 1, width := 0, retrainFrom := some p.width }) := rfl

theorem laneRepair_idle (hs : (portOf (laneGone s port.toNat lane) port.toNat).pstate ≠ 2)
    (hr : (portOf (laneGone s port.toNat lane) port.toNat).retrainFrom = none) :
    exec (.laneRepair port lane) s = .next (laneGone s port.toNat lane) :=
  laneRepair_eq.trans (congrArg _ (if_pos ⟨hs, by rw [hr]; rfl⟩))

theorem laneRepair_leaves (h : (portOf (laneGone s port.toNat lane) port.toNat).pstate = 2 ∨
      (portOf (laneGone s port.toNat lane) port.toNat).retrainFrom ≠ none)
    (hl : goodLanes (portOf (laneGone s port.toNat lane) port.toNat) = 0) :
    exec (.laneRepair port lane) s = .next (leaveService (laneGone s port.toNat lane) port.toNat) := by
  rw [laneRepair_eq]
  refine congrArg _ ((if_neg ?_).trans (if_pos hl))
  simpa only [Option.isNone_iff_eq_none, Classical.not_and_iff_not_or_not, Classical.not_not] using h

theorem laneRepair_retrains (hs : (portOf (laneGone s port.toNat lane) port.toNat).pstate = 2)
    (hr : (portOf (laneGone s port.toNat lane) port.toNat).retrainFrom = none)
    (hl : goodLanes (portOf (laneGone s port.toNat lane) port.toNat) ≠ 0) :
    exec (.laneRepair port lane) s = .next (modPort (laneGone s port.toNat lane) port.toNat fun p =>
      { p with pstate := 1, width := 0, retrainFrom := some p.width }) := by
  simp only [laneRepair_eq, hs, hr, hl, ne_eq, not_true_eq_false, false_and, if_false, Option.isSome_none, Bool.false_eq_true]

theorem laneRepair_retraining (hr : (portOf (laneGone s port.toNat lane) port.toNat).retrainFrom ≠ none)
    (hl : goodLanes (portOf (laneGone s port.toNat lane) port.toNat) ≠ 0) :
    exec (.laneRepair port lane) s = .next (laneGone s port.toNat lane) := by
  obtain ⟨old, ho⟩ := Option.ne_none_iff_exists'.mp hr
  simp only [laneRepair_eq, ho, hl, Option.isNone_some, Option.isSome_some, Bool.false_eq_true, and_false, if_false, if_true]

end

/-! ### Inbound accesses (R240, R244, R256) -/

/-- An outcome told to a peer or a device. -/
def tell (s : State) (o : Output) : State := { s with outputs := s.outputs ++ [o] }

/-- A port admits an inbound access. -/
def Admitted (s : State) (n : Nat) (req : PeerAccess) : Prop :=
  let needs := accessNeeds req.kind
  filterAdmits (portOf s n) req.src req.addr needs.2.2 needs.1 needs.2.1 = true ∧ inMemory req.addr needs.2.2 = true ∧
    ¬(needs.1 = true ∧ egressRefused s req.addr needs.2.2 = true) ∧ ¬(needs.2.1 = true ∧ locked s req.addr needs.2.2 = true) ∧
    peerAtomicOk s req.kind req.addr = true

section
variable {s : State} {port : BitVec 4} {req : PeerAccess}

theorem inboundPeerAccess_ignored (hs : (portOf s port.toNat).pstate ≠ 2) : exec (.inboundPeerAccess port req) s = .next s :=
  congrArg _ (if_pos hs)

variable (hs : (portOf s port.toNat).pstate = 2)
include hs

/-- In service an access meets the tests of R244, one after the other. -/
theorem inboundPeerAccess_judged : exec (.inboundPeerAccess port req) s = .next (
    let n := port.toNat
    let needs := accessNeeds req.kind
    if !filterAdmits (portOf s n) req.src req.addr needs.2.2 needs.1 needs.2.1 ∨ !inMemory req.addr needs.2.2 ∨
        (needs.1 ∧ egressRefused s req.addr needs.2.2) ∨ (needs.2.1 ∧ locked s req.addr needs.2.2) ∨
        !peerAtomicOk s req.kind req.addr then tell s (.peerAnswer n none)
    else tell (performInbound s n req).1 (.peerAnswer n (performInbound s n req).2)) :=
  congrArg _ (if_neg (not_not_intro hs))

theorem inboundPeerAccess_performed (ha : Admitted s port.toNat req) : exec (.inboundPeerAccess port req) s = .next
    (tell (performInbound s port.toNat req).1 (.peerAnswer port.toNat (performInbound s port.toNat req).2)) := by
  rw [inboundPeerAccess_judged hs]
  refine congrArg _ (if_neg ?_)
  simpa only [Admitted, not_or, Bool.not_eq_true', Bool.not_eq_false] using ha

theorem inboundPeerAccess_refused (ha : ¬Admitted s port.toNat req) : exec (.inboundPeerAccess port req) s = .next
    (tell s (.peerAnswer port.toNat none)) := by
  rw [inboundPeerAccess_judged hs]
  refine congrArg _ (if_pos (Classical.byContradiction fun h => ha ?_))
  simpa only [Admitted, not_or, Bool.not_eq_true', Bool.not_eq_false] using h

end

/-! ### Messages (R242, R243) -/

/-- The state in which a port's tail has been read. -/
def tailRead (s : State) (n : Nat) : State := flushQuanta s (portOf s n).rxtaddr ((portOf s n).rxtaddr + 8)

/-- The place of the next message in a port's ring. -/
def ringSlot (u : State) (p : Port) : Nat := p.rxbase + 128 * (ringTail u p % p.rxn)

/-- A port takes no message at a place: the filter, the tier or a frame's lock refuses it. -/
def SlotRefused (u : State) (p : Port) (sender : BitVec 16) : Prop :=
  filterAdmits p sender (ringSlot u p) 128 false true = false ∨ inFast (ringSlot u p) (ringSlot u p + 128) = false ∨
    locked u (ringSlot u p) 128 = true

section
variable {s : State} {port : BitVec 4} (sender : BitVec 16) {bytes : List (BitVec 8)}

theorem messageArrival_ignored (h : (portOf s port.toNat).pstate ≠ 2 ∨ bytes.length ≠ 128) :
    exec (.messageArrival port sender bytes) s = .next (tailRead s port.toNat) := congrArg _ (if_pos h)

variable (hs : (portOf s port.toNat).pstate = 2) (hb : bytes.length = 128)
include hs hb

/-- In service a message of 128 bytes meets the tests of R243, one after the other. -/
theorem messageArrival_judged : exec (.messageArrival port sender bytes) s = .next (
    let n := port.toNat
    let p := portOf s n
    let u := tailRead s n
    if p.rxn = 0 then tell u (.peerAnswer n none)
    else if ringTail u p - p.rxhead.toNat ≥ p.rxn then u
    else if !filterAdmits p sender (ringSlot u p) 128 false true ∨ !inFast (ringSlot u p) (ringSlot u p + 128) ∨
        locked u (ringSlot u p) 128 then tell u (.peerAnswer n none)
    else tell (putWord (outsideWrite u (stationHolder n) (writesAt (ringSlot u p) bytes)) p.rxtaddr ((ringTail u p + 1) % 2 ^ 64))
      (.peerAnswer n (some []))) :=
  congrArg _ (if_neg (by simp only [hs, hb, ne_eq, not_true_eq_false, or_self, not_false_eq_true]))

theorem messageArrival_ringless (h : (portOf s port.toNat).rxn = 0) :
    exec (.messageArrival port sender bytes) s = .next (tell (tailRead s port.toNat) (.peerAnswer port.toNat none)) :=
  (messageArrival_judged sender hs hb).trans (congrArg _ (if_pos h))

theorem messageArrival_waits (h : (portOf s port.toNat).rxn ≠ 0)
    (hfull : (portOf s port.toNat).rxn ≤
      ringTail (tailRead s port.toNat) (portOf s port.toNat) - (portOf s port.toNat).rxhead.toNat) :
    exec (.messageArrival port sender bytes) s = .next (tailRead s port.toNat) :=
  (messageArrival_judged sender hs hb).trans (congrArg _ ((if_neg h).trans (if_pos hfull)))

variable (hroom : ringTail (tailRead s port.toNat) (portOf s port.toNat) - (portOf s port.toNat).rxhead.toNat <
  (portOf s port.toNat).rxn)
include hroom

/-- With room in the ring the message is judged by its place alone. -/
theorem messageArrival_placed : exec (.messageArrival port sender bytes) s = .next (
    let n := port.toNat
    let p := portOf s n
    let u := tailRead s n
    if !filterAdmits p sender (ringSlot u p) 128 false true ∨ !inFast (ringSlot u p) (ringSlot u p + 128) ∨
        locked u (ringSlot u p) 128 then tell u (.peerAnswer n none)
    else tell (putWord (outsideWrite u (stationHolder n) (writesAt (ringSlot u p) bytes)) p.rxtaddr ((ringTail u p + 1) % 2 ^ 64))
      (.peerAnswer n (some []))) :=
  (messageArrival_judged sender hs hb).trans
    (congrArg _ ((if_neg (Nat.ne_zero_of_lt hroom)).trans (if_neg (Nat.not_le.mpr hroom))))

theorem messageArrival_appended (h : ¬SlotRefused (tailRead s port.toNat) (portOf s port.toNat) sender) :
    exec (.messageArrival port sender bytes) s = .next (
      let p := portOf s port.toNat
      let u := tailRead s port.toNat
      tell (putWord (outsideWrite u (stationHolder port.toNat) (writesAt (ringSlot u p) bytes)) p.rxtaddr
        ((ringTail u p + 1) % 2 ^ 64)) (.peerAnswer port.toNat (some []))) :=
  (messageArrival_placed sender hs hb hroom).trans (congrArg _ (if_neg (by simpa only [SlotRefused, Bool.not_eq_true'] using h)))

theorem messageArrival_refused (h : SlotRefused (tailRead s port.toNat) (portOf s port.toNat) sender) :
    exec (.messageArrival port sender bytes) s = .next (tell (tailRead s port.toNat) (.peerAnswer port.toNat none)) :=
  (messageArrival_placed sender hs hb hroom).trans (congrArg _ (if_pos (by simpa only [SlotRefused, Bool.not_eq_true'] using h)))

end

/-! ### Answers of peers (R239, R241) -/

section
variable {s : State} {n : Nat} (ok : Bool) (bytes : List (BitVec 8))

theorem peerResponse_outstanding {r : PeerRequest} (h : (s.peers.find? fun r => r.id == n && r.answer.isNone) = some r) :
    exec (.peerResponse n ok bytes) s =
      .next (if (portOf s r.port).pstate = 2 then endReplay (answerRequest s r ok bytes) r.port else s) := by
  have he : exec (.peerResponse n ok bytes) s = execPeerResponse n ok bytes s := rfl
  simp only [he, execPeerResponse, h]

theorem peerResponse_ignored (h : ∀ r ∈ s.peers, r.id = n → r.answer ≠ none) : exec (.peerResponse n ok bytes) s = .next s := by
  have he : exec (.peerResponse n ok bytes) s = execPeerResponse n ok bytes s := rfl
  have hnone : (s.peers.find? fun r => r.id == n && r.answer.isNone) = none := by simpa using h
  simp only [he, execPeerResponse, hnone]

end

/-! ### Requests of PCIe devices (R246, R247, R256) -/

section
variable {s : State} {rp : BitVec 1} {addr len : Nat} {bytes : List (BitVec 8)}

theorem pcieRead_mapped {w : PcieWindow} {pa : Nat} (h : pcieMatch s rp.toNat addr len = some (w, pa)) :
    exec (.pcieInboundRequest rp (.read addr len)) s = .next (
      let u := flushQuanta s pa (pa + len)
      if w.r = true ∧ egressRefused s pa len = false then tell u (.pcie rp (some (homeBytes u pa len)))
      else tell s (.pcie rp none)) := by
  have he : exec (.pcieInboundRequest rp (.read addr len)) s = execPcieInboundRequest rp (.read addr len) s := rfl
  have hpermits : (w.r = true ∧ egressRefused s pa len = false) ↔ ¬((!w.r) = true ∨ egressRefused s pa len = true) := by simp
  simp only [he, execPcieInboundRequest, h, hpermits, ite_not, tell]

theorem pcieWrite_mapped {w : PcieWindow} {pa : Nat} (h : pcieMatch s rp.toNat addr bytes.length = some (w, pa)) :
    exec (.pcieInboundRequest rp (.write addr bytes)) s = .next (
      if w.w = true ∧ locked s pa bytes.length = false then
        tell (outsideWrite s homeHolder (writesAt pa bytes)) (.pcie rp (some []))
      else tell s (.pcie rp none)) := by
  have he : exec (.pcieInboundRequest rp (.write addr bytes)) s = execPcieInboundRequest rp (.write addr bytes) s := rfl
  have hpermits : (w.w = true ∧ locked s pa bytes.length = false) ↔ ¬((!w.w) = true ∨ locked s pa bytes.length = true) := by simp
  simp only [he, execPcieInboundRequest, h, hpermits, ite_not, tell]

theorem pcieRead_unmapped (h : pcieMatch s rp.toNat addr len = none) :
    exec (.pcieInboundRequest rp (.read addr len)) s = .next (tell s (.pcie rp none)) := by
  have he : exec (.pcieInboundRequest rp (.read addr len)) s = execPcieInboundRequest rp (.read addr len) s := rfl
  simp only [he, execPcieInboundRequest, h, tell]

theorem pcieWrite_unmapped (h : pcieMatch s rp.toNat addr bytes.length = none) :
    exec (.pcieInboundRequest rp (.write addr bytes)) s = .next (tell s (.pcie rp none)) := by
  have he : exec (.pcieInboundRequest rp (.write addr bytes)) s = execPcieInboundRequest rp (.write addr bytes) s := rfl
  simp only [he, execPcieInboundRequest, h, tell]

end

/-- Settles O51: each event goes to the lemma of its case; a port that leaves service has failed every request that it had out. -/
theorem linkAndHostEvents : Obligations.LinkAndHostEvents := by
  intro s port width peer seq n addr len lane req bytes ok rp out k p told
  refine ⟨fun hs hw hl => ⟨linkTrained_enters peer hs hw hl, fun _ => linkTrained_repairs peer hs hw hl⟩, linkTrained_ignored peer,
    fun hs hlo hhi => ⟨flitRejected_begins hs hlo hhi, fun _ => flitRejected_joins hs hlo hhi⟩, flitRejected_ignored,
    ⟨laneRepair_idle, fun h hl => ?leaves, laneRepair_retrains, laneRepair_retraining⟩,
    ⟨inboundPeerAccess_ignored, inboundPeerAccess_performed, inboundPeerAccess_refused⟩,
    ⟨messageArrival_ignored peer, messageArrival_ringless peer, messageArrival_waits peer, fun hs hb hroom hf ht hl => ?appended,
      messageArrival_refused peer⟩,
    fun _ => peerResponse_outstanding ok bytes, peerResponse_ignored ok bytes, fun _ _ => pcieRead_mapped, fun _ _ => pcieWrite_mapped,
    pcieRead_unmapped, pcieWrite_unmapped⟩
  case leaves =>
    exact ⟨laneRepair_leaves h hl, leaveService_pstate h, leaveService_linkMap _ _, rfl, leaveService_answers _ _⟩
  case appended =>
    refine messageArrival_appended peer hs hb hroom ?_
    simp only [SlotRefused, not_or, Bool.not_eq_false, Bool.not_eq_true]
    exact ⟨hf, ht, hl⟩

end Sys2Proof.Machine
